-- ==== Sys2Proof/Word.lean ====
section
/-! DEFINITION. The word types of the GZ96 (R1, R2, R29, R309) and their plainest arithmetic. -/

namespace Sys2Proof

/-- A byte of memory (R2). -/
abbrev Byte := BitVec 8

/-- A 64-bit word: a G register, a control register, a word of a record (R2). -/
abbrev Word := BitVec 64

/-- A 512-bit cell register (R29). -/
abbrev Reg := BitVec 512

/-- A six-bit register specifier or six-bit code field (R63). -/
abbrev Spec := BitVec 6

/-- A five-bit field that names G0 to G31 directly (R60, R61). -/
abbrev GSpec := BitVec 5

/-- Bits `[lo+len-1 : lo]` of a number (R1). -/
def bits (x lo len : Nat) : Nat := (x >>> lo) % 2 ^ len

/-- One bit of a number (R1). -/
def bit (x i : Nat) : Bool := x.testBit i

/-- The smallest multiple of `m` that is not below `x`. -/
def alignUp (x m : Nat) : Nat := (x + m - 1) / m * m

/-- A number read as a two's-complement integer of `w` bits. -/
def toSigned (w x : Nat) : Int := if x % 2 ^ w < 2 ^ (w - 1) then (x % 2 ^ w : Nat) else (x % 2 ^ w : Nat) - (2 ^ w : Nat)

/-- An integer reduced modulo `2^w`. -/
def wrap (w : Nat) (x : Int) : Nat := (x % ((2 ^ w : Nat) : Int)).toNat

end Sys2Proof
end

