-- ==== Sys2Proof/Machine/Crc.lean ====
section
/-! DEFINITION. The cyclic redundancy checks: CRC-32 of R81 and CRC-64 of R457, both in reflected form. -/

namespace Sys2Proof.Machine

/-- `n` bits of a reflected CRC register. -/
def crcBits (poly : Nat) : Nat → Nat → Nat
  | 0, c => c
  | n + 1, c => if c % 2 = 1 then crcBits poly n (c / 2 ^^^ poly) else crcBits poly n (c / 2)

/-- Bytes through a reflected CRC register. -/
def crcBytes (poly : Nat) (c : Nat) (bs : List Nat) : Nat := bs.foldl (fun c b => crcBits poly 8 (c ^^^ b)) c

/-- CRC-32 of IEEE 802.3 (R81). -/
def crc32 (bs : List Nat) : Nat := crcBytes 0xEDB88320 0xFFFFFFFF bs ^^^ 0xFFFFFFFF

/-- CRC-64 of ECMA-182, reflected (R457). -/
def crc64 (bs : List Nat) : Nat := crcBytes 0xC96C5795D7870F42 0xFFFFFFFFFFFFFFFF bs ^^^ 0xFFFFFFFFFFFFFFFF

/-- `n` little-endian bytes of a number. -/
def leBytes : Nat → Nat → List Nat
  | 0, _ => []
  | n + 1, v => v % 256 :: leBytes n (v / 256)

/-- The number of little-endian bytes. -/
def ofBytes : List Nat → Nat
  | [] => 0
  | b :: bs => b % 256 + 256 * ofBytes bs

end Sys2Proof.Machine
end

