-- ==== Sys2Proof/Machine/Lanes.lean ====
section
/-! DEFINITION. Registers as lanes (R309): a register of `W` bits is a number, lane `i` of width `w` its bits
`[i*w+w-1 : i*w]`. -/

namespace Sys2Proof.Machine

/-- Lane `i` of width `w` (R309). -/
def lane (w x i : Nat) : Nat := (x >>> (w * i)) % 2 ^ w

/-- The number whose lanes of width `w`, from lane 0 on, are the entries of the list, each modulo `2^w`. -/
def ofLanes (w : Nat) : List Nat → Nat
  | [] => 0
  | v :: vs => v % 2 ^ w + 2 ^ w * ofLanes w vs

/-- The register whose lane `i`, for `i < n`, is `f i` (R310: every other bit is 0). -/
def buildLanes (w n : Nat) (f : Nat → Nat) : Nat := ofLanes w ((List.range n).map f)

/-- Lane by lane, one operand. -/
def mapLanes (w n : Nat) (f : Nat → Nat) (x : Nat) : Nat := buildLanes w n fun i => f (lane w x i)

/-- Lane by lane, two operands. -/
def zipLanes (w n : Nat) (f : Nat → Nat → Nat) (x y : Nat) : Nat := buildLanes w n fun i => f (lane w x i) (lane w y i)

/-- The lanes of a register as a list. -/
def lanes (w n x : Nat) : List Nat := (List.range n).map (lane w x)

/-- A value repeated across `n` lanes. -/
def splat (w n v : Nat) : Nat := buildLanes w n fun _ => v

/-- A lane as a signed integer. -/
def laneInt (w x i : Nat) : Int := toSigned w (lane w x i)

end Sys2Proof.Machine
end

