-- ==== Sys2Proof/Machine/Num.lean ====
section
/-! DEFINITION. Number formats, rounding and conversion (chapter 11): exact values, Round of R294, overflow of
R296, the flags and counts of R297, stochastic rounding of R299 and R300, conversions of R302. -/

namespace Sys2Proof.Machine

/-! ### Exact values -/

/-- An exact value: NaN, an infinity, or `(-1)^neg × m × 2^e`. -/
inductive Val where
  | nan
  | inf (neg : Bool)
  | fin (neg : Bool) (m : Nat) (e : Int)
  deriving DecidableEq, Repr

/-- Neither a NaN nor an infinity. -/
def Val.finite : Val → Bool
  | .fin .. => true
  | _ => false

/-- A floating-point format (R290): exponent bits, mantissa bits, bias, whether the greatest exponent
field holds infinities and NaNs. -/
structure FFmt where
  e : Nat
  m : Nat
  bias : Nat
  ieee : Bool
  deriving DecidableEq, Repr

def fF32 : FFmt := ⟨8, 23, 127, true⟩
def fBF16 : FFmt := ⟨8, 7, 127, true⟩
def fF16 : FFmt := ⟨5, 10, 15, true⟩
def fE4M3 : FFmt := ⟨4, 3, 7, false⟩
def fE5M2 : FFmt := ⟨5, 2, 15, true⟩
def fE2M1 : FFmt := ⟨2, 1, 1, false⟩

/-- Width of a format in bits. -/
def FFmt.width (f : FFmt) : Nat := 1 + f.e + f.m

/-- The exponent of the least grid unit (R290). -/
def FFmt.qmin (f : FFmt) : Int := 1 - (f.bias : Int) - (f.m : Int)

/-- The integer mantissa of the greatest finite value (R290). -/
def FFmt.maxMant (f : FFmt) : Nat := if f.ieee then 2 ^ (f.m + 1) - 1 else if f.m = 3 then 14 else 2 ^ (f.m + 1) - 1

/-- The exponent of the unit of the greatest finite value (R290). -/
def FFmt.qmax (f : FFmt) : Int := f.qmin + ((2 ^ f.e - (if f.ieee then 3 else 2) : Nat) : Int)

/-- The code of the greatest finite magnitude (R290). -/
def FFmt.maxCode (f : FFmt) : Nat := if f.ieee then (2 ^ f.e - 1) * 2 ^ f.m - 1 else if f.m = 3 then 0x7E else 7

/-- The canonical NaN (R291); E2M1 has none. -/
def FFmt.nanCode (f : FFmt) : Nat :=
  if f.ieee then (2 ^ f.e - 1) * 2 ^ f.m + 2 ^ (f.m - 1) else if f.m = 3 then 0x7F else 0

/-- The sign bit at its place. -/
def FFmt.signBit (f : FFmt) (neg : Bool) : Nat := if neg then 2 ^ (f.e + f.m) else 0

/-- The code of an infinity. -/
def FFmt.infCode (f : FFmt) (neg : Bool) : Nat := f.signBit neg + (2 ^ f.e - 1) * 2 ^ f.m

/-- The exact value of a code (R290 to R292). -/
def FFmt.decode (f : FFmt) (c : Nat) : Val :=
  let neg := c.testBit (f.e + f.m)
  let ex := c / 2 ^ f.m % 2 ^ f.e
  let man := c % 2 ^ f.m
  if f.ieee && ex == 2 ^ f.e - 1 then (if man = 0 then .inf neg else .nan)
  else if !f.ieee && f.m == 3 && ex == 15 && man == 7 then .nan
  else if ex = 0 then .fin neg man f.qmin
  else .fin neg (2 ^ f.m + man) (f.qmin + (ex : Int) - 1)

/-! ### Flags and counts (R297) -/

/-- What an operation reports: FPSTAT flags (bits of R313), NFCOUNT and SATCOUNT increments. -/
structure Rep where
  flags : Nat := 0
  nf : Nat := 0
  sat : Nat := 0
  deriving DecidableEq, Repr

def flNV : Nat := 1
def flDZ : Nat := 2
def flOF : Nat := 4
def flUF : Nat := 8
def flNX : Nat := 16
def flUS : Nat := 32

/-- Flags are ORed, counts are added (R314). -/
def Rep.join (a b : Rep) : Rep := ⟨a.flags ||| b.flags, a.nf + b.nf, a.sat + b.sat⟩

/-- A delivered code with its report. -/
structure FRes where
  code : Nat := 0
  rep : Rep := {}
  deriving DecidableEq, Repr

/-! ### Rounding -/

/-- The rounding modes of R68; SR with its random value of 16 bits (R300). -/
inductive RMode where
  | rne
  | rtz
  | rdn
  | rup
  | rna
  | sr (rnd : Nat)
  deriving DecidableEq, Repr

/-- `m × 2^e` in units of `2^q`: the integer toward zero, whether the rest is not zero, how the rest
compares with one half, and the first 16 bits of the rest. -/
def splitAt (m : Nat) (e q : Int) : Nat × Bool × Ordering × Nat :=
  if q ≤ e then (m <<< (e - q).toNat, false, .lt, 0)
  else
    let s := (q - e).toNat
    if m = 0 then (0, false, .lt, 0)
    else if s > Nat.log2 m + 1 then (0, true, .lt, (m <<< 16) >>> s)
    else
      let r := m % 2 ^ s
      (m >>> s, r != 0, compare (2 * r) (2 ^ s), (r <<< 16) >>> s)

/-- Whether step 1 of R294 takes the grid point of greater magnitude. -/
def roundsUp (mode : RMode) (neg : Bool) (t : Nat) (rest : Bool) (half : Ordering) (f16 : Nat) : Bool :=
  rest && match mode with
    | .rne => half == .gt || (half == .eq && t % 2 == 1)
    | .rna => half != .lt
    | .rtz => false
    | .rdn => neg
    | .rup => !neg
    | .sr rnd => 65536 ≤ f16 + rnd

/-- Step 1 of R294 for a float: the grid exponent, the integer on the grid and whether it is inexact. -/
def roundGrid (f : FFmt) (mode : RMode) (neg : Bool) (m : Nat) (e : Int) : Int × Nat × Bool :=
  let ex : Int := (Nat.log2 m : Int) + e
  let q : Int := max (ex - (f.m : Int)) f.qmin
  let (t, rest, half, f16) := splitAt m e q
  let r := if roundsUp mode neg t rest half f16 then t + 1 else t
  if r = 2 ^ (f.m + 1) then (q + 1, 2 ^ f.m, rest) else (q, r, rest)

/-- A result that overflowed a float format (R296). -/
def overflowTo (f : FFmt) (mode : RMode) (neg : Bool) : FRes :=
  let toInf : Bool := f.ieee && match mode with
    | .rne | .rna => true
    | .rtz => false
    | .rdn => neg
    | .rup => !neg
    | .sr _ => false
  if toInf then ⟨f.infCode neg, ⟨flOF ||| flNX, 0, 0⟩⟩
  else ⟨f.signBit neg + f.maxCode, ⟨flOF ||| flNX, 0, 1⟩⟩

/-- Round(fmt, mode, x) for a float format and a finite x, with the flags of R297 that the rounding sets. -/
def roundF (f : FFmt) (mode : RMode) (neg : Bool) (m : Nat) (e : Int) : FRes :=
  if m = 0 then ⟨f.signBit neg, {}⟩
  else
    let (q, r, inexact) := roundGrid f mode neg m e
    if f.qmax < q ∨ (q = f.qmax ∧ f.maxMant < r) then overflowTo f mode neg
    else
      let code := f.signBit neg + (if r < 2 ^ f.m then r else ((q - f.qmin + 1).toNat) * 2 ^ f.m + (r - 2 ^ f.m))
      let tiny : Bool := (Nat.log2 m : Int) + e < 1 - (f.bias : Int)
      ⟨code, ⟨(if inexact then flNX else 0) ||| (if inexact && tiny then flUF else 0), 0, 0⟩⟩

/-- A finite value on the unbounded grid of a format, as the pseudocode of R245 uses it: sign, integer and exponent. -/
def roundUnbounded (f : FFmt) (mode : RMode) (neg : Bool) (m : Nat) (e : Int) : Nat × Int :=
  if m = 0 then (0, 0) else let (q, r, _) := roundGrid f mode neg m e; (r, q)

/-! ### Integer formats (R289) -/

/-- An integer format: width and signedness. -/
structure IFmt where
  w : Nat
  signed : Bool
  deriving DecidableEq, Repr

def IFmt.lo (f : IFmt) : Int := if f.signed then -((2 ^ (f.w - 1) : Nat) : Int) else 0
def IFmt.hi (f : IFmt) : Int := if f.signed then ((2 ^ (f.w - 1) - 1 : Nat) : Int) else ((2 ^ f.w - 1 : Nat) : Int)

/-- The exact value of an integer code. -/
def IFmt.decode (f : IFmt) (c : Nat) : Val :=
  let x : Int := if f.signed then toSigned f.w c else ((c % 2 ^ f.w : Nat) : Int)
  .fin (x < 0) x.natAbs 0

/-- Round into an integer format (R294, R296, R302). -/
def roundI (f : IFmt) (mode : RMode) (neg : Bool) (m : Nat) (e : Int) : FRes :=
  -- beyond 2^80 every format overflows, so the exact shift is not formed
  if 80 < (Nat.log2 m : Int) + e ∧ m ≠ 0 then
    ⟨wrap f.w (if neg then f.lo else f.hi), ⟨flNV ||| flOF ||| flNX, 0, 1⟩⟩
  else
    let (t, rest, half, f16) := splitAt m e 0
    let r := if roundsUp mode neg t rest half f16 then t + 1 else t
    let x : Int := if neg then -(r : Int) else (r : Int)
    if x < f.lo then ⟨wrap f.w f.lo, ⟨flNV ||| flOF ||| flNX, 0, 1⟩⟩
    else if f.hi < x then ⟨wrap f.w f.hi, ⟨flNV ||| flOF ||| flNX, 0, 1⟩⟩
    else ⟨wrap f.w x, ⟨if rest then flNX else 0, 0, 0⟩⟩

/-- Round a positive value into E8M0 (R293, R296): the grid is the powers of two, and a tie of RNE or RNA goes
to the larger. -/
def roundE8 (mode : RMode) (m : Nat) (e : Int) : FRes :=
  let ex : Int := (Nat.log2 m : Int) + e
  let lo := 2 ^ Nat.log2 m
  let exact : Bool := m == lo
  let up : Bool := !exact && match mode with
    | .rne | .rna => 3 * lo ≤ 2 * m
    | .rtz | .rdn => false
    | .rup => true
    | .sr rnd => 65536 ≤ ((m - lo) <<< 16) / lo + rnd
  if ex < -127 then ⟨0, ⟨flUF ||| flNX, 0, 0⟩⟩
  else
    let x : Int := if up then ex + 1 else ex
    if 127 < x then ⟨0xFE, ⟨flOF ||| flNX, 0, 1⟩⟩
    else ⟨(x + 127).toNat, ⟨if exact then 0 else flNX, 0, 0⟩⟩

/-! ### The formats of R66 -/

/-- A format as number: float, integer or E8M0. -/
inductive NumFmt where
  | flt (f : FFmt)
  | int (f : IFmt)
  | e8
  deriving DecidableEq, Repr

/-- The number format of a code of R66; none for TUP and the reserved codes. -/
def numFmt : Nat → Option NumFmt
  | 0 => some (.int ⟨8, true⟩) | 1 => some (.int ⟨8, false⟩) | 2 => some (.int ⟨16, true⟩) | 3 => some (.int ⟨16, false⟩)
  | 4 => some (.int ⟨32, true⟩) | 5 => some (.int ⟨32, false⟩) | 6 => some (.int ⟨64, true⟩)
  | 8 => some (.flt fF32) | 9 => some (.flt fBF16) | 10 => some (.flt fF16) | 11 => some (.flt fE4M3)
  | 12 => some (.flt fE5M2) | 13 => some (.flt fE2M1) | 14 => some (.int ⟨3, false⟩) | 15 => some (.int ⟨4, true⟩)
  | 16 => some .e8
  | _ => none

/-- Bits per element of a format code (R66); 0 for a reserved code. -/
def fmtBits : Nat → Nat
  | 0 => 8 | 1 => 8 | 2 => 16 | 3 => 16 | 4 => 32 | 5 => 32 | 6 => 64 | 8 => 32 | 9 => 16 | 10 => 16 | 11 => 8 | 12 => 8
  | 13 => 4 | 14 => 3 | 15 => 4 | 16 => 8 | 17 => 256 | _ => 0

/-- The exact value of a code of a format (R302). -/
def NumFmt.decode (n : NumFmt) (c : Nat) : Val :=
  match n with
  | .flt f => f.decode c
  | .int f => f.decode c
  | .e8 => if c % 256 = 255 then .nan else .fin false 1 ((c % 256 : Nat) - 127)

/-- A non-finite code of a format. -/
def NumFmt.nonFinite (n : NumFmt) (c : Nat) : Bool := !(n.decode c).finite

/-- The conversion of an exact value into a format (R302), with the counts of R297. -/
def convert (n : NumFmt) (mode : RMode) (v : Val) : FRes :=
  match n, v with
  | .flt f, .nan => if f.ieee || f.m == 3 then ⟨f.nanCode, {}⟩ else ⟨0, ⟨flNV, 1, 0⟩⟩
  | .flt f, .inf s => if f.ieee then ⟨f.infCode s, {}⟩ else ⟨f.signBit s + f.maxCode, ⟨flOF, 1, 0⟩⟩
  | .flt f, .fin s m e =>
    let r := roundF f mode s m e
    -- an overflow to infinity of a finite input counts in NFCOUNT
    if f.ieee && !(f.decode r.code).finite then { r with rep := r.rep.join ⟨0, 1, 0⟩ } else r
  | .int _, .nan => ⟨0, ⟨flNV, 1, 0⟩⟩
  | .int f, .inf s => ⟨wrap f.w (if s then f.lo else f.hi), ⟨flNV, 1, 0⟩⟩
  | .int f, .fin s m e => roundI f mode s m e
  | .e8, .nan => ⟨0xFF, ⟨flNV, 0, 0⟩⟩
  | .e8, .inf _ => ⟨0xFF, ⟨flNV, 0, 0⟩⟩
  | .e8, .fin s m e => if s ∨ m = 0 then ⟨0xFF, ⟨flNV, 1, 0⟩⟩ else roundE8 mode m e

/-! ### Stochastic rounding (R299, R300) -/

/-- Mix of R300. -/
def mix (h : Nat) : Nat :=
  let h := h % 4294967296
  let h := h ^^^ (h >>> 16)
  let h := h * 0x21F0AAAD % 4294967296
  let h := h ^^^ (h >>> 15)
  let h := h * 0x735A2D97 % 4294967296
  h ^^^ (h >>> 15)

/-- The random value of a hash input (R300). -/
def rnd16 (h : Nat) : Nat := mix h >>> 16

/-- The record form of the hash input (R299). -/
def srRecord (seed va itag : Nat) : Nat := (seed % 2 ^ 24) ^^^ (va % 2 ^ 32) ^^^ ((itag % 256) * 2 ^ 24)

/-- The register form of the hash input (R299). -/
def srRegister (grove cell i itag : Nat) : Nat := (grove * 2 ^ 13 + cell * 2 ^ 7 + i) ^^^ ((itag % 256) * 2 ^ 24)

/-- What register-form rounding needs of the executing firing: glade-relative grove, cell, tag, dynround. -/
structure RndCtx where
  grove : Nat := 0
  cell : Nat := 0
  itag : Nat := 0
  dyn : Nat := 0
  deriving DecidableEq, Repr

/-- The mode of a rounding code for element `i` (R68, R295). -/
def modeOf (c : RndCtx) (code i : Nat) : RMode :=
  match (if code = 6 then c.dyn else code) with
  | 0 => .rne | 1 => .rtz | 2 => .rdn | 3 => .rup | 4 => .rna
  | _ => .sr (rnd16 (srRegister c.grove c.cell i c.itag))

/-- The mode of a record's rounding field for an element (R68, R240). -/
def modeOfRecord (round seed va itag : Nat) : RMode :=
  match round with
  | 0 => .rne | 2 => .rtz | _ => .sr (rnd16 (srRecord seed va itag))

/-! ### Exact arithmetic -/

/-- A signed pair as an integer in units of `2^q`, for `q ≤ e`. -/
def scaled (neg : Bool) (m : Nat) (e q : Int) : Int :=
  let x : Int := ((m <<< (e - q).toNat : Nat) : Int)
  if neg then -x else x

/-- The exact sum of two finite values: sign, magnitude, exponent.  A zero sum has the sign that R324 gives
under RNE: negative only when both addends are negative. -/
def addExact (n1 : Bool) (m1 : Nat) (e1 : Int) (n2 : Bool) (m2 : Nat) (e2 : Int) : Bool × Nat × Int :=
  -- a zero addend does not set the unit
  if m1 = 0 ∧ m2 = 0 then (n1 && n2, 0, 0)
  else if m1 = 0 then (n2, m2, e2)
  else if m2 = 0 then (n1, m1, e1)
  else
    let q := min e1 e2
    let x := scaled n1 m1 e1 q + scaled n2 m2 e2 q
    if x = 0 then (false, 0, q) else (x < 0, x.natAbs, q)

/-- The exact order of two finite values; −0 equals +0. -/
def cmpExact (n1 : Bool) (m1 : Nat) (e1 : Int) (n2 : Bool) (m2 : Nat) (e2 : Int) : Ordering :=
  if m1 = 0 ∧ m2 = 0 then .eq
  else if m1 = 0 then (if n2 then .gt else .lt)
  else if m2 = 0 then (if n1 then .lt else .gt)
  else
    let q := min e1 e2
    compare (scaled n1 m1 e1 q) (scaled n2 m2 e2 q)

/-- The order of two values that are not NaN; −0 equals +0. -/
def Val.cmp : Val → Val → Ordering
  | .inf s, .inf t => if s = t then .eq else if s then .lt else .gt
  | .inf s, _ => if s then .lt else .gt
  | _, .inf t => if t then .gt else .lt
  | .fin n1 m1 e1, .fin n2 m2 e2 => cmpExact n1 m1 e1 n2 m2 e2
  | _, _ => .eq

/-- The sign of a value. -/
def Val.neg : Val → Bool
  | .nan => false
  | .inf s => s
  | .fin s _ _ => s

/-- Strictly smaller with −0 below +0, for values that are not NaN (R325). -/
def Val.ltZ (a b : Val) : Bool := match a.cmp b with
  | .lt => true
  | .gt => false
  | .eq => a.neg && !b.neg

/-! ### FADD, FSUB, FMUL, FSCALE, FFMA (R323 to R326) -/

/-- The count of R312: the result is non-finite exactly when some input is, or it is counted. -/
def countNF (inputsFinite : Bool) (f : FFmt) (r : FRes) : FRes :=
  if (f.decode r.code).finite == inputsFinite then r else { r with rep := r.rep.join ⟨0, 1, 0⟩ }

/-- The canonical NaN with NV (R324). -/
def invalid (f : FFmt) : FRes := ⟨f.nanCode, ⟨flNV, 0, 0⟩⟩

/-- FADD of exact values (R324). -/
def addV (f : FFmt) (mode : RMode) (x y : Val) : FRes :=
  match x, y with
  | .nan, _ | _, .nan => ⟨f.nanCode, {}⟩
  | .inf s, .inf t => if s = t then ⟨f.infCode s, {}⟩ else invalid f
  | .inf s, _ => ⟨f.infCode s, {}⟩
  | _, .inf t => ⟨f.infCode t, {}⟩
  | .fin n1 m1 e1, .fin n2 m2 e2 =>
    let (n, m, e) := addExact n1 m1 e1 n2 m2 e2
    if m = 0 ∧ n1 ≠ n2 then ⟨f.signBit (mode == .rdn), {}⟩ else roundF f mode n m e

/-- The value with its sign changed. -/
def Val.negate : Val → Val
  | .nan => .nan
  | .inf s => .inf (!s)
  | .fin s m e => .fin (!s) m e

/-- FMUL of exact values (R324). -/
def mulV (f : FFmt) (mode : RMode) (x y : Val) : FRes :=
  match x, y with
  | .nan, _ | _, .nan => ⟨f.nanCode, {}⟩
  | .inf s, .inf t => ⟨f.infCode (s != t), {}⟩
  | .inf s, .fin t m _ | .fin t m _, .inf s => if m = 0 then invalid f else ⟨f.infCode (s != t), {}⟩
  | .fin n1 m1 e1, .fin n2 m2 e2 => roundF f mode (n1 != n2) (m1 * m2) (e1 + e2)

/-- FSCALE (R323): y is a signed integer. -/
def scaleV (f : FFmt) (mode : RMode) (x : Val) (y : Int) : FRes :=
  match x with
  | .nan => ⟨f.nanCode, {}⟩
  | .inf s => ⟨f.infCode s, {}⟩
  | .fin n m e => roundF f mode n m (e + y)

/-- An infinite product of the sign plus a third operand (R326). -/
def infPlus (f : FFmt) (s : Bool) : Val → FRes
  | .nan => ⟨f.nanCode, {}⟩
  | .inf u => if s = u then ⟨f.infCode u, {}⟩ else invalid f
  | .fin .. => ⟨f.infCode s, {}⟩

/-- FFMA (R326): one rounding, RNE.  A zero times an infinity is invalid whatever the third operand is. -/
def fmaV (f : FFmt) (x y z : Val) : FRes :=
  match x, y, z with
  | .nan, _, _ | _, .nan, _ => ⟨f.nanCode, {}⟩
  | .inf s, .inf t, z => infPlus f (s != t) z
  | .inf s, .fin t m _, z | .fin t m _, .inf s, z => if m = 0 then invalid f else infPlus f (s != t) z
  | .fin .., .fin .., .nan => ⟨f.nanCode, {}⟩
  | .fin .., .fin .., .inf u => ⟨f.infCode u, {}⟩
  | .fin n1 m1 e1, .fin n2 m2 e2, .fin n3 m3 e3 =>
    let (n, m, e) := addExact (n1 != n2) (m1 * m2) (e1 + e2) n3 m3 e3
    roundF f .rne n m e

/-- The order of FMIN and FMAX (R325). -/
def minMaxCode (f : FFmt) (isMax : Bool) (a b : Nat) : Nat :=
  match f.decode a, f.decode b with
  | .nan, _ | _, .nan => f.nanCode
  | x, y => if isMax then (if x.ltZ y then b else a) else (if y.ltZ x then b else a)

/-! ### The functions of FUN (R327) -/

/-- The integer square root, bit by bit from bit `n - 1` down: the greatest `r` below `2^n` beyond `acc` with `r*r ≤ x`. -/
def isqrtBits (x : Nat) : Nat → Nat → Nat
  | 0, acc => acc
  | n + 1, acc =>
    let t := acc + 2 ^ n
    isqrtBits x n (if t * t ≤ x then t else acc)

/-- The integer square root. -/
def isqrt (x : Nat) : Nat := isqrtBits x (Nat.log2 x / 2 + 1) 0

/-- A magnitude with a sticky bit below it: the exact value lies strictly between when `rest`. -/
def sticky (m : Nat) (rest : Bool) : Nat := 2 * m + (if rest then 1 else 0)

/-- 1 ÷ (m × 2^e), with sticky bit. -/
def recipE (m : Nat) (e : Int) : Nat × Int :=
  let k := Nat.log2 m + 64
  (sticky (2 ^ k / m) (2 ^ k % m != 0), -(k : Int) - e - 1)

/-- √(m × 2^e), with sticky bit. -/
def sqrtE (m : Nat) (e : Int) : Nat × Int :=
  let odd : Bool := e % 2 != 0
  let mm := (if odd then 2 * m else m) <<< 128
  let ee : Int := ((if odd then e - 1 else e) - 128) / 2
  let s := isqrt mm
  (sticky s (s * s != mm), ee - 1)

/-- 1 ÷ √(m × 2^e), with sticky bit. -/
def rsqrtE (m : Nat) (e : Int) : Nat × Int :=
  let odd : Bool := e % 2 != 0
  let mm := if odd then 2 * m else m
  let ee : Int := (if odd then e - 1 else e) / 2
  let k := Nat.log2 mm + 64
  let s := isqrt (2 ^ (2 * k) / mm)
  (sticky s (s * s * mm != 2 ^ (2 * k)), -(k : Int) - ee - 1)

/-- Working precision of the series below, in bits after the point.  Log entry 9. -/
def fixP : Nat := 320

/-- The sum of `t / (2k+1)` along the powers of `u2`, for `atanh`: `n` terms from index `k` on. -/
def atanhTerms (u2 : Nat) : Nat → Nat → Nat → Nat
  | 0, _, _ => 0
  | n + 1, k, t => t / (2 * k + 1) + atanhTerms u2 n (k + 1) ((t * u2) >>> fixP)

/-- ln z in units of `2^-fixP` for a fixed-point z in [1, 2]. -/
def lnFix (z : Nat) : Nat :=
  let one := 2 ^ fixP
  let u := ((z - one) <<< fixP) / (z + one)
  2 * atanhTerms ((u * u) >>> fixP) 110 0 u

/-- ln 2 in units of `2^-fixP`. -/
def ln2Fix : Nat := lnFix (2 ^ (fixP + 1))

/-- The sum of `y^k / k!`, `n` terms from `t = y^k/k!` on. -/
def expTerms (y : Nat) : Nat → Nat → Nat → Nat
  | 0, _, _ => 0
  | n + 1, k, t => t + expTerms y n (k + 1) (((t * y) >>> fixP) / (k + 1))

/-- e^y in units of `2^-fixP` for a fixed-point y in [0, 1). -/
def expFix (y : Nat) : Nat := expTerms y 90 0 (2 ^ fixP)

/-- 2^x for x = ±m × 2^e that is not an integer, with sticky bit. -/
def exp2E (neg : Bool) (m : Nat) (e : Int) : Nat × Int :=
  -- x as fixed point with 160 bits after the point; e is at least -149 for every format
  let X : Int := (if neg then -1 else 1) * ((m <<< (e + 160).toNat : Nat) : Int)
  let n : Int := X / ((2 ^ 160 : Nat) : Int)
  let f : Nat := (X % ((2 ^ 160 : Nat) : Int)).toNat
  let y := (f * ln2Fix) >>> 160
  (sticky (expFix y) true, n - (fixP : Int) - 1)

/-- log₂(m × 2^e) for a value that is not a power of two, with sticky bit: sign, magnitude, exponent. -/
def log2E (m : Nat) (e : Int) : Bool × Nat × Int :=
  let k := Nat.log2 m
  let z := (m <<< fixP) >>> k
  let frac := ((lnFix z) <<< fixP) / ln2Fix
  let x : Int := ((k : Int) + e) * ((2 ^ fixP : Nat) : Int) + (frac : Int)
  (x < 0, sticky x.natAbs true, -(fixP : Int) - 1)

/-- tanh of m × 2^e for m ≠ 0, with sticky bit. -/
def tanhE (m : Nat) (e : Int) : Nat × Int :=
  let ex : Int := (Nat.log2 m : Int) + e
  if ex < -40 then ((m <<< 128) - 1, e - 128)
  else if 5 ≤ ex then (2 ^ 200 - 1, -200)
  else
    let y2 := (splitAt (2 * m) e (-(fixP : Int))).1
    let n := y2 / ln2Fix
    let ee := expFix (y2 % ln2Fix) <<< n
    let t := 2 ^ fixP - (2 ^ (2 * fixP + 1)) / (ee + 2 ^ fixP)
    (sticky t true, -(fixP : Int) - 1)

/-- FUN of a code: op as in R327. -/
def funCode (f : FFmt) (op c : Nat) : FRes :=
  let r : FRes := match op, f.decode c with
    | _, .nan => ⟨f.nanCode, {}⟩
    | 0, .inf _ => ⟨f.infCode false, {}⟩
    | 0, .fin _ m e => roundF f .rne false m e
    | 1, .inf s => ⟨f.infCode (!s), {}⟩
    | 1, .fin s m e => roundF f .rne (!s) m e
    | 2, .inf s => ⟨f.signBit s, {}⟩
    | 2, .fin s m e => if m = 0 then ⟨f.infCode s, ⟨flDZ, 0, 0⟩⟩ else let (q, x) := recipE m e; roundF f .rne s q x
    | 3, .inf s => if s then invalid f else ⟨0, {}⟩
    | 3, .fin s m e =>
      if m = 0 then ⟨f.infCode s, ⟨flDZ, 0, 0⟩⟩ else if s then invalid f
      else let (q, x) := rsqrtE m e; roundF f .rne false q x
    | 4, .inf s => if s then invalid f else ⟨f.infCode false, {}⟩
    | 4, .fin s m e =>
      if m = 0 then ⟨f.signBit s, {}⟩ else if s then invalid f
      else let (q, x) := sqrtE m e; roundF f .rne false q x
    | 5, .inf s => if s then ⟨0, {}⟩ else ⟨f.infCode false, {}⟩
    | 5, .fin s m e =>
      if m = 0 then roundF f .rne false 1 0
      else if 10 ≤ (Nat.log2 m : Int) + e then
        -- far beyond every format's range: overflow, or a positive value below every grid
        roundF f .rne false 1 (if s then -1000 else 1000)
      else
        let (t, rest, _, _) := splitAt m e 0
        if rest then let (q, x) := exp2E s m e; roundF f .rne false q x
        else roundF f .rne false 1 (if s then -(t : Int) else (t : Int))
    | 6, .inf s => if s then invalid f else ⟨f.infCode false, {}⟩
    | 6, .fin s m e =>
      if m = 0 then ⟨f.infCode true, ⟨flDZ, 0, 0⟩⟩ else if s then invalid f
      else if m = 2 ^ Nat.log2 m then
        let x : Int := (Nat.log2 m : Int) + e
        roundF f .rne (x < 0) x.natAbs 0
      else let (n, q, x) := log2E m e; roundF f .rne n q x
    | _, .inf s => roundF f .rne s 1 0
    | _, .fin s m e => if m = 0 then ⟨f.signBit s, {}⟩ else let (q, x) := tanhE m e; roundF f .rne s q x
  if op ≤ 1 then { r with rep := {} } else countNF (f.decode c).finite f r

end Sys2Proof.Machine
end

