-- ==== Sys2Proof/Machine/Table.lean ====
section
/-! DEFINITION. Sparse data in one canonical form: a list of keyed entries with keys strictly rising and no
entry equal to the value an unlisted key has, so that equal contents are equal lists. -/

namespace Sys2Proof.Machine

/-- Keyed entries, the keys strictly rising. -/
abbrev Table (α : Type) := List (Nat × α)

/-- The value of a key; `d` for an unlisted key. -/
def tget {α : Type} (d : α) : Table α → Nat → α
  | [], _ => d
  | (j, v) :: t, k => if j = k then v else tget d t k

/-- The table without the key. -/
def tdel {α : Type} : Table α → Nat → Table α
  | [], _ => []
  | (j, v) :: t, k => if j = k then tdel t k else (j, v) :: tdel t k

/-- An entry put in front of the first greater key. -/
def tins {α : Type} (k : Nat) (v : α) : Table α → Table α
  | [] => [(k, v)]
  | (j, w) :: t => if k < j then (k, v) :: (j, w) :: t else (j, w) :: tins k v t

/-- The table in which `k` has the value `v`; an entry equal to `d` is not listed. -/
def tset {α : Type} [DecidableEq α] (d : α) (t : Table α) (k : Nat) (v : α) : Table α :=
  if v = d then tdel t k else tins k v (tdel t k)

/-- The table in which the value of `k` is changed by `f`. -/
def tmod {α : Type} [DecidableEq α] (d : α) (t : Table α) (k : Nat) (f : α → α) : Table α := tset d t k (f (tget d t k))

/-- Every listed value changed by `f`; one that becomes `d` is listed no longer. -/
def tmap {α : Type} [DecidableEq α] (d : α) (f : α → α) : Table α → Table α
  | [] => []
  | (j, v) :: t => if f v = d then tdel (tmap d f t) j else (j, f v) :: tmap d f t

/-- The table of the values `f 0` to `f (n - 1)`. -/
def tofn {α : Type} [DecidableEq α] (d : α) (n : Nat) (f : Nat → α) : Table α :=
  ((List.range n).filter fun i => f i ≠ d).map fun i => (i, f i)

/-- Keys strictly rising from `lo` on and no entry equal to `d`. -/
def twfFrom {α : Type} [DecidableEq α] (d : α) : Nat → Table α → Bool
  | _, [] => true
  | lo, (j, v) :: t => decide (lo ≤ j) && decide (v ≠ d) && twfFrom d (j + 1) t

/-- The canonical form of a table. -/
def twf {α : Type} [DecidableEq α] (d : α) (t : Table α) : Bool := twfFrom d 0 t

end Sys2Proof.Machine
end

