-- ==== Sys2Proof/Syntax.lean ====
section
/-! DEFINITION. The syntax of the machine's steps: one constructor for every row of the opcode table.

An encoded instruction carries the fields of its word under the table's names (d, a, b, c register or
code fields, m a modifier, f a format, r a record, o ordin, p ordout, s scope, i an immediate).  A step
of the machine that is not an instruction word (an event row of the table) carries what names the one
step meant: a cell with a context, frame and tag, or, for a step that comes from outside the device, the
data it brings.  A step that takes up one item of pending work, or acts for one unit, finds the item's place
or the unit's number in the turn of the state, and its constructor carries nothing. -/

namespace Sys2Proof

/-- Why a fetched or reached word is not an instruction (R73, R104, R105). -/
inductive Defect where
  /-- The word is refused with ILLOP, detail DECODE (R73). -/
  | illop
  /-- A specifier of the word is refused (R63, R65). -/
  | illreg
  /-- The range of the firing ends without END (R104, R105). -/
  | noend
  deriving DecidableEq, Repr

/-- A firmware image (R459): its 32-bit version, its body, the SHA-256 digest it carries of the body, the RSA public key (modulus
and exponent) it was signed under, the RSA-3072 signature over the digest, and the entry address it names (R161). -/
structure FirmwareImage where
  version : BitVec 32 := 0
  body : List Byte := []
  digest : BitVec 256 := 0
  modulus : BitVec 3072 := 0
  exponent : Nat := 0
  signature : BitVec 3072 := 0
  entry : Word
  deriving DecidableEq, Repr

/-- One step of the machine: one constructor for each row of the opcode table. -/
inductive Instr where
  /-- IADD (R315). Adds the lanes of a and b modulo 2^w. -/
  | iadd (d a b : Spec) (m : BitVec 3)
  /-- ISUB (R315). Subtracts the lanes of b from a modulo 2^w. -/
  | isub (d a b : Spec) (m : BitVec 3)
  /-- IMUL (R315). Multiplies lanes and keeps the low w bits. -/
  | imul (d a b : Spec) (m : BitVec 3)
  /-- IMULH (R315). Returns the high half of the signed lane product. -/
  | imulh (d a b : Spec) (m : BitVec 3)
  /-- IMULHU (R315). Returns the high half of the unsigned lane product. -/
  | imulhu (d a b : Spec) (m : BitVec 3)
  /-- IMIN (R315). Signed lane minimum. -/
  | imin (d a b : Spec) (m : BitVec 3)
  /-- IMAX (R315). Signed lane maximum. -/
  | imax (d a b : Spec) (m : BitVec 3)
  /-- IMINU (R315). Unsigned lane minimum. -/
  | iminu (d a b : Spec) (m : BitVec 3)
  /-- IMAXU (R315). Unsigned lane maximum. -/
  | imaxu (d a b : Spec) (m : BitVec 3)
  /-- IABS (R315). Signed absolute value of each lane modulo 2^w. -/
  | iabs (d a : Spec) (m : BitVec 3)
  /-- AND (R315). Bitwise AND of lanes. -/
  | iand (d a b : Spec) (m : BitVec 3)
  /-- OR (R315). Bitwise OR of lanes. -/
  | ior (d a b : Spec) (m : BitVec 3)
  /-- XOR (R315). Bitwise XOR of lanes. -/
  | ixor (d a b : Spec) (m : BitVec 3)
  /-- ANDN (R315). AND of a with the complement of b. -/
  | iandn (d a b : Spec) (m : BitVec 3)
  /-- SHL (R315). Shifts lanes left by b mod w. -/
  | shl (d a b : Spec) (m : BitVec 3)
  /-- SHR (R315). Logical right shift of lanes. -/
  | shr (d a b : Spec) (m : BitVec 3)
  /-- SAR (R315). Arithmetic right shift of lanes. -/
  | sar (d a b : Spec) (m : BitVec 3)
  /-- ROL (R315). Rotates lanes left. -/
  | rol (d a b : Spec) (m : BitVec 3)
  /-- CLZ (R315). Counts leading zero bits of each lane. -/
  | clz (d a : Spec) (m : BitVec 3)
  /-- POPC (R315). Counts one bits of each lane. -/
  | popc (d a : Spec) (m : BitVec 3)
  /-- IADDI (R316). Adds a sign-extended immediate to each I32 lane. -/
  | iaddi (d a : Spec) (i : BitVec 11)
  /-- ANDI (R316). ANDs each I32 lane with an immediate. -/
  | andi (d a : Spec) (i : BitVec 11)
  /-- ORI (R316). ORs each I32 lane with an immediate. -/
  | ori (d a : Spec) (i : BitVec 11)
  /-- XORI (R316). XORs each I32 lane with an immediate. -/
  | xori (d a : Spec) (i : BitVec 11)
  /-- SHLI (R316). Shifts I32 lanes left by an immediate. -/
  | shli (d a : Spec) (i : BitVec 11)
  /-- SHRI (R316). Logical right shift of I32 lanes by an immediate. -/
  | shri (d a : Spec) (i : BitVec 11)
  /-- SARI (R316). Arithmetic right shift of I32 lanes by an immediate. -/
  | sari (d a : Spec) (i : BitVec 11)
  /-- MOVI (R316). Writes a sign-extended immediate into every I32 lane. -/
  | movi (d : Spec) (i : BitVec 11)
  /-- BFX (R321). Extracts a bit field from each lane. -/
  | bfx (d a b : Spec) (m : BitVec 3)
  /-- BFX2 (R321). Extracts a bit field that may cross into the next lane. -/
  | bfx2 (d a b : Spec) (m : BitVec 3)
  /-- BFI (R321). Inserts low bits of a into a field of d. -/
  | bfi (d a b : Spec) (m : BitVec 3)
  /-- IOTA (R320). Writes a[0]+i into lane i. -/
  | iota (d a : Spec) (m : BitVec 3)
  /-- SHUF (R320). Permutes lanes of a by the indices in b. -/
  | shuf (d a b : Spec) (m : BitVec 3)
  /-- LANE (R320). Broadcasts one lane of a to every lane. -/
  | lane (d a b : Spec) (m : BitVec 3)
  /-- PACK (R322). Truncates lanes of 2w bits from a and b into w-bit lanes. -/
  | pack (d a b : Spec) (m : BitVec 3)
  /-- UNPK (R322). Widens w-bit lanes into 2w-bit lanes with sign or zero extension. -/
  | unpk (d a b : Spec) (m : BitVec 3)
  /-- ICEQ (R318). Lane mask of equality. -/
  | iceq (d a b : Spec) (m : BitVec 3)
  /-- ICNE (R318). Lane mask of inequality. -/
  | icne (d a b : Spec) (m : BitVec 3)
  /-- ICLT (R318). Lane mask of signed less-than. -/
  | iclt (d a b : Spec) (m : BitVec 3)
  /-- ICGE (R318). Lane mask of signed greater-or-equal. -/
  | icge (d a b : Spec) (m : BitVec 3)
  /-- ICLTU (R318). Lane mask of unsigned less-than. -/
  | icltu (d a b : Spec) (m : BitVec 3)
  /-- ICGEU (R318). Lane mask of unsigned greater-or-equal. -/
  | icgeu (d a b : Spec) (m : BitVec 3)
  /-- SEL (R319). Selects a or b per lane by the mask in c. -/
  | sel (d a b c : Spec) (m : BitVec 2)
  /-- MOVL (R317). Long form writing a 32-bit immediate into every lane. -/
  | movl (d : Spec) (u : BitVec 32)
  /-- MOVL0 (R317). Long form writing a 32-bit immediate into lane 0, others 0. -/
  | movl0 (d : Spec) (u : BitVec 32)
  /-- IADDL (R317). Long form adding a 32-bit immediate to each lane. -/
  | iaddl (d a : Spec) (u : BitVec 32)
  /-- ANDL (R317). Long form ANDing each lane with a 32-bit immediate. -/
  | andl (d a : Spec) (u : BitVec 32)
  /-- ORL (R317). Long form ORing each lane with a 32-bit immediate. -/
  | orl (d a : Spec) (u : BitVec 32)
  /-- FADD (R324). Rounded floating-point lane addition. -/
  | fadd (d a b : Spec) (f : BitVec 2) (m : BitVec 3)
  /-- FSUB (R324). Rounded floating-point lane subtraction. -/
  | fsub (d a b : Spec) (f : BitVec 2) (m : BitVec 3)
  /-- FMUL (R324). Rounded floating-point lane multiplication. -/
  | fmul (d a b : Spec) (f : BitVec 2) (m : BitVec 3)
  /-- FMIN (R325). Floating-point lane minimum with -0 below +0. -/
  | fmin (d a b : Spec) (f : BitVec 2)
  /-- FMAX (R325). Floating-point lane maximum with -0 below +0. -/
  | fmax (d a b : Spec) (f : BitVec 2)
  /-- FSCALE (R324). Multiplies each lane by a power of two from b. -/
  | fscale (d a b : Spec) (f : BitVec 2) (m : BitVec 3)
  /-- FFMA (R326). Fused multiply-add with one RNE rounding. -/
  | ffma (d a b c : Spec) (f : BitVec 2)
  /-- FABS (R327). Floating-point absolute value. -/
  | fabs (d a : Spec) (f : BitVec 2)
  /-- FNEG (R327). Floating-point negation. -/
  | fneg (d a : Spec) (f : BitVec 2)
  /-- FRCP (R327). Correctly rounded reciprocal. -/
  | frcp (d a : Spec) (f : BitVec 2)
  /-- FRSQ (R327). Correctly rounded reciprocal square root. -/
  | frsq (d a : Spec) (f : BitVec 2)
  /-- FSQRT (R327). Correctly rounded square root. -/
  | fsqrt (d a : Spec) (f : BitVec 2)
  /-- FEXP2 (R327). Correctly rounded power of two. -/
  | fexp2 (d a : Spec) (f : BitVec 2)
  /-- FLOG2 (R327). Correctly rounded base-2 logarithm. -/
  | flog2 (d a : Spec) (f : BitVec 2)
  /-- FTANH (R327). Correctly rounded hyperbolic tangent. -/
  | ftanh (d a : Spec) (f : BitVec 2)
  /-- FCVT (R304). Converts register elements between formats under a rounding mode. -/
  | fcvt (d a s : Spec) (t : BitVec 5) (m : BitVec 3)
  /-- FCEQ (R328). Floating-point equality mask. -/
  | fceq (d a b : Spec) (f : BitVec 2)
  /-- FCLT (R328). Floating-point less-than mask. -/
  | fclt (d a b : Spec) (f : BitVec 2)
  /-- FCLE (R328). Floating-point less-or-equal mask. -/
  | fcle (d a b : Spec) (f : BitVec 2)
  /-- FCUN (R328). Unordered mask. -/
  | fcun (d a b : Spec) (f : BitVec 2)
  /-- FCNE (R328). Floating-point not-equal mask. -/
  | fcne (d a b : Spec) (f : BitVec 2)
  /-- FCGT (R328). Floating-point greater-than mask. -/
  | fcgt (d a b : Spec) (f : BitVec 2)
  /-- FCGE (R328). Floating-point greater-or-equal mask. -/
  | fcge (d a b : Spec) (f : BitVec 2)
  /-- FCLASS (R305). Writes a one-hot class mask for each lane. -/
  | fclass (d a : Spec) (f : BitVec 2)
  /-- BDOT_E2M1 (R367). Exact block dot products of E2M1 elements, one rounding per block. -/
  | bdotE2m1 (d a b : Spec) (m : BitVec 3)
  /-- BDOT_E4M3 (R367). Exact block dot products of E4M3 elements. -/
  | bdotE4m3 (d a b : Spec) (m : BitVec 3)
  /-- BDOT_E5M2 (R367). Exact block dot products of E5M2 elements. -/
  | bdotE5m2 (d a b : Spec) (m : BitVec 3)
  /-- BDOT_I8 (R367). Exact block dot products of I8 elements. -/
  | bdotI8 (d a b : Spec) (m : BitVec 3)
  /-- SCACC (R368). Applies block scales to partials in fixed order and accumulates. -/
  | scacc (d a b : Spec)
  /-- QNT_E4M3 (R332). Quantises 32 F32 values into E4M3 codes with E8M0 block scales. -/
  | qntE4m3 (d a b : Spec) (m : BitVec 3)
  /-- QNT_E5M2 (R332). Quantises 32 F32 values into E5M2 codes with block scales. -/
  | qntE5m2 (d a b : Spec) (m : BitVec 3)
  /-- QNT_E2M1 (R332). Quantises 32 F32 values into E2M1 codes with block scales. -/
  | qntE2m1 (d a b : Spec) (m : BitVec 3)
  /-- QNT_I8 (R332). Quantises 32 F32 values into I8 codes with block scales. -/
  | qntI8 (d a b : Spec) (m : BitVec 3)
  /-- DEQ_E4M3 (R333). Dequantises E4M3 codes and scales into 32 F32 values. -/
  | deqE4m3 (d a b : Spec)
  /-- DEQ_E5M2 (R333). Dequantises E5M2 codes and scales. -/
  | deqE5m2 (d a b : Spec)
  /-- DEQ_E2M1 (R333). Dequantises E2M1 codes and scales. -/
  | deqE2m1 (d a b : Spec)
  /-- DEQ_I8 (R333). Dequantises I8 codes and scales. -/
  | deqI8 (d a b : Spec)
  /-- VLUT_BF16 (R334). Looks up 16 BF16 table entries by index. -/
  | vlutBf16 (d a b : Spec)
  /-- VLUT_F32 (R334). Looks up 16 F32 table entries by index. -/
  | vlutF32 (d a b : Spec)
  /-- RSUM (R336). Tree sum of the lanes into lane 0. -/
  | rsum (d a : Spec) (m : BitVec 3)
  /-- RMAX (R336). Tree maximum of the lanes. -/
  | rmax (d a : Spec) (m : BitVec 3)
  /-- RMIN (R336). Tree minimum of the lanes. -/
  | rmin (d a : Spec) (m : BitVec 3)
  /-- SCAN (R337). Inclusive prefix sums in a chain. -/
  | scan (d a : Spec) (m : BitVec 3)
  /-- VSORT (R339). Stable sort of 16 key-payload elements. -/
  | vsort (d a b : Spec) (m : BitVec 3)
  /-- VTOPK (R340). Keeps the first k elements of a stable sort. -/
  | vtopk (d a b : Spec) (m : BitVec 3)
  /-- VMERGE (R341). Stable merge of two 16-element pairs into a quad. -/
  | vmerge (d a b : Spec) (m : BitVec 3)
  /-- EMIT (R135). Appends a full data token on a route to the output buffer. -/
  | emit (d a b : Spec) (m : BitVec 3)
  /-- EMITN (R136). Appends a token with chosen count, last flag, tag and frame. -/
  | emitn (d a b : Spec) (m : BitVec 3)
  /-- EMITZ (R135). Appends a zero-payload token on a route. -/
  | emitz (d b : Spec) (m : BitVec 3)
  /-- EMITQ (R137). Appends a predicate token on a route. -/
  | emitq (d a b : Spec)
  /-- BOUND (R138). Appends a class-0 trip-count token. -/
  | bound (d a b : Spec)
  /-- HREC (R142). Tags a held register with a recipe at commit. -/
  | hrec (d b : Spec)
  /-- HREC_CLR (R142). Clears a held register's recipe tag at commit. -/
  | hrecClr (d : Spec)
  /-- HDROP (R143). Makes a tagged held register DROPPED at commit. -/
  | hdrop (d : Spec)
  /-- HFILL (R144). Makes a held register FULL, replaying or waiting as needed. -/
  | hfill (d : Spec)
  /-- HSTAT (R145). Reads a held register's state, tag and policy. -/
  | hstat (d a : Spec)
  /-- HCAP (R146). Reads the cell's held-register capacity. -/
  | hcap (d : Spec)
  /-- TRAP (R148). Faults the firing with cause USER and a code and value. -/
  | trap (a b : Spec)
  /-- BRKP (R149). Faults with BRK when BRKEN is 1, otherwise no effect. -/
  | brkp (b : Spec)
  /-- LD (R236). Loads L raw elements through a buffer record. -/
  | ld (d a : Spec) (r : BitVec 3) (o : BitVec 2) (p : BitVec 1) (s : BitVec 3)
  /-- ST (R239). Stores L raw elements through a buffer record at commit. -/
  | st (d a : Spec) (r : BitVec 3) (o : BitVec 2) (p : BitVec 1) (s : BitVec 3)
  /-- LDB (R237). Loads one element and broadcasts it to every lane. -/
  | ldb (d a : Spec) (r : BitVec 3) (o : BitVec 2) (p : BitVec 1) (s : BitVec 3)
  /-- LDX (R238). Loads 16 elements widened into 32-bit lanes. -/
  | ldx (d a : Spec) (r : BitVec 3) (o : BitVec 2) (p : BitVec 1) (s : BitVec 3)
  /-- STX (R240). Converts 16 lanes into the record format and stores them. -/
  | stx (d a : Spec) (r : BitVec 3) (o : BitVec 2) (p : BitVec 1) (s : BitVec 3)
  /-- STNF (R240). STX with non-finite lanes replaced by +0 and counted. -/
  | stnf (d a : Spec) (r : BitVec 3) (o : BitVec 2) (p : BitVec 1) (s : BitVec 3)
  /-- SEQCL (R250). Sends close of the firing's sequence to every owner of the record's region. -/
  | seqcl (a : Spec) (r : BitVec 3) (o : BitVec 2) (p : BitVec 1) (s : BitVec 3)
  /-- LDG (R242). Gathers 16 elements by per-lane offsets. -/
  | ldg (d a : Spec) (r : BitVec 3) (o : BitVec 2) (p : BitVec 1) (s : BitVec 3)
  /-- STG (R242). Scatters 16 elements by per-lane offsets. -/
  | stg (d a : Spec) (r : BitVec 3) (o : BitVec 2) (p : BitVec 1) (s : BitVec 3)
  /-- LDGX (R242). Gathers 16 elements widened into 32-bit lanes. -/
  | ldgx (d a : Spec) (r : BitVec 3) (o : BitVec 2) (p : BitVec 1) (s : BitVec 3)
  /-- AADD (R243). Atomic add on elements at their owner. -/
  | aadd (d a : Spec) (r : BitVec 3) (o : BitVec 2) (p : BitVec 1) (s : BitVec 3)
  /-- AMIN (R243). Atomic minimum on elements. -/
  | amin (d a : Spec) (r : BitVec 3) (o : BitVec 2) (p : BitVec 1) (s : BitVec 3)
  /-- AMAX (R243). Atomic maximum on elements. -/
  | amax (d a : Spec) (r : BitVec 3) (o : BitVec 2) (p : BitVec 1) (s : BitVec 3)
  /-- AXCH (R243). Atomic exchange on elements. -/
  | axch (d a : Spec) (r : BitVec 3) (o : BitVec 2) (p : BitVec 1) (s : BitVec 3)
  /-- ACAS (R243). Atomic compare-and-swap using a register pair. -/
  | acas (d a : Spec) (r : BitVec 3) (o : BitVec 2) (p : BitVec 1) (s : BitVec 3)
  /-- AOR (R243). Atomic OR on elements. -/
  | aor (d a : Spec) (r : BitVec 3) (o : BitVec 2) (p : BitVec 1) (s : BitVec 3)
  /-- AAND (R243). Atomic AND on elements. -/
  | aand (d a : Spec) (r : BitVec 3) (o : BitVec 2) (p : BitVec 1) (s : BitVec 3)
  /-- ORD (R251). Sends a done token once the firing's earlier memory events are performed. -/
  | ord (o : BitVec 2) (p : BitVec 1) (s : BitVec 3)
  /-- ORDW (R251). As ORD, also waiting for the firing's committed engine jobs. -/
  | ordw (o : BitVec 2) (p : BitVec 1) (s : BitVec 3)
  /-- SCOPY_CELL (R255). Cell form: commits a copy job between two records. -/
  | scopyCell (d a b : Spec)
  /-- SCOPY_CTRL (R255). Controller form: starts a copy job from a 96-byte block. -/
  | scopyCtrl (a : Spec)
  /-- SXFORM_CELL (R255). Cell form: commits a converting copy job. -/
  | sxformCell (d a b : Spec)
  /-- SXFORM_CTRL (R255). Controller form: starts a converting copy job from a block. -/
  | sxformCtrl (a : Spec)
  /-- SBIND (R259). Binds a copy job to a stream-engine port. -/
  | sbind (d a b : Spec)
  /-- SCANCEL (R260). Stops every job whose tag lies in the mask. -/
  | scancel (a : Spec)
  /-- TWAITA (R262). Waits until every masked tag is complete. -/
  | twaita (d a : Spec)
  /-- TWAITN (R262). Waits until any masked tag is complete. -/
  | twaitn (d a : Spec)
  /-- TFFR (R262). Returns the lowest complete masked tag without waiting. -/
  | tffr (d a : Spec)
  /-- TCLR (R262). Clears the issued bits of masked tags. -/
  | tclr (a : Spec)
  /-- TCNT (R262). Reads one tag's count and issued bit. -/
  | tcnt (d a : Spec)
  /-- BARINIT (R264). Sets a barrier's target and zeroes its state. -/
  | barinit (a b : Spec)
  /-- BARARV (R264). Sends one arrival to a barrier. -/
  | bararv (a : Spec)
  /-- BARADD (R264). Sends several arrivals to a barrier. -/
  | baradd (a b : Spec)
  /-- BARWAIT (R264). Waits until the barrier phase differs from the expected one. -/
  | barwait (d a b : Spec)
  /-- BARTEST (R264). Reads a barrier object without waiting. -/
  | bartest (d a : Spec)
  /-- MLW (R349). Queues a load of the shadow weight plane. -/
  | mlw (a b : Spec)
  /-- MSTR (R352). Queues streaming of activation rows into an accumulator set. -/
  | mstr (d a b : Spec)
  /-- MRD (R356). Queues a readout of an accumulator set to memory. -/
  | mrd (d a b : Spec) (l : BitVec 1)
  /-- MRD_H (R357). Queues a readout of 16 accumulator values into a held register. -/
  | mrdH (d a b : Spec) (l : BitVec 1)
  /-- MCLR (R358). Queues clearing and binding of an accumulator set. -/
  | mclr (d : Spec)
  /-- MCHK (R359). Queues a read of the array's check state into a held register. -/
  | mchk (d : Spec)
  /-- MSHP (R348). Sets the shape of an accumulator set. -/
  | mshp (d a : Spec)
  /-- RDEF (R393). Checks a relation descriptor, takes it into use and clears the relation. -/
  | rdef (a : Spec)
  /-- RINS (R394). Sends tuples as base-fact contributions. -/
  | rins (a b : Spec)
  /-- RJOIN (R395). Starts a semi-naive join job for a rule. -/
  | rjoin (a : Spec)
  /-- RANTI (R395). Starts an anti-join job against a quiescent relation. -/
  | ranti (a : Spec)
  /-- RRND (R396). Closes the round of the issuing grove's shard. -/
  | rrnd (d a : Spec)
  /-- RQCK (R397). Sums round counts through a barrier and declares quiescence. -/
  | rqck (d a b : Spec) (g : BitVec 1)
  /-- RDEL (R394). Sends retractions of COUNT base facts. -/
  | rdel (a b : Spec)
  /-- RCLR (R393). Clears every local shard region of a relation. -/
  | rclr (a : Spec)
  /-- RLOOK (R396). Reads a tuple's FULL slot at its owner into a held register. -/
  | rlook (d a b : Spec)
  /-- RGRAD (R388). Propagates gradients for one round from trace records. -/
  | rgrad (a b : Spec)
  /-- RSORT (R401). Starts a job sorting rows of keys with payloads. -/
  | rsort (d a b : Spec) (n : BitVec 1)
  /-- RTOPK (R401). Starts a job keeping the top k entries of each row. -/
  | rtopk (d a b : Spec) (n : BitVec 1)
  /-- RMRG (R401). Starts a job merging two runs per row. -/
  | rmrg (d a b : Spec) (n : BitVec 1)
  /-- PDEF (R285). Defines a placement descriptor for a handle. -/
  | pdef (a b : Spec)
  /-- PLD_CELL (R286). Cell form: demands a placement and loads elements when it is current. -/
  | pldCell (d a b : Spec)
  /-- PLD_CTRL (R286). Controller form: demands a placement and stalls for one element. -/
  | pldCtrl (d a : Spec)
  /-- PCONV_CELL (R287). Cell form: demands a placement conversion without a load. -/
  | pconvCell (a b : Spec)
  /-- PCONV_CTRL (R287). Controller form: demands a placement conversion from a block. -/
  | pconvCtrl (a : Spec)
  /-- PQRY (R285). Reads a placement descriptor without waiting. -/
  | pqry (d a : Spec)
  /-- CDEF (R288). Fills a persistent collective slot. -/
  | cdef (a b : Spec)
  /-- CSTART (R288). Starts the next instance of a collective. -/
  | cstart (d a : Spec)
  /-- CWAIT (R288). Waits until a collective slot is finished. -/
  | cwait (d a : Spec)
  /-- CPOLL (R288). Reads a collective slot's status without waiting. -/
  | cpoll (d a : Spec)
  /-- BEQ (R150). Branches when two G registers are equal. -/
  | beq (a b : GSpec) (o : BitVec 13)
  /-- BNE (R150). Branches when two G registers differ. -/
  | bne (a b : GSpec) (o : BitVec 13)
  /-- BLT (R150). Branches on signed less-than. -/
  | blt (a b : GSpec) (o : BitVec 13)
  /-- BGE (R150). Branches on signed greater-or-equal. -/
  | bge (a b : GSpec) (o : BitVec 13)
  /-- BLTU (R150). Branches on unsigned less-than. -/
  | bltu (a b : GSpec) (o : BitVec 13)
  /-- BGEU (R150). Branches on unsigned greater-or-equal. -/
  | bgeu (a b : GSpec) (o : BitVec 13)
  /-- JAL (R72). Jumps pc-relative and writes the link register. -/
  | jal (l : GSpec) (o : BitVec 21)
  /-- JALR (R72). Jumps to the address in the link register and writes the link. -/
  | jalr (l : GSpec)
  /-- LDC (R153). Controller load of 8 to 64 bits. -/
  | ldc (d a b : Spec) (m : BitVec 3)
  /-- STC (R153). Controller store of 8 to 64 bits. -/
  | stc (d a b : Spec) (m : BitVec 2)
  /-- CRD (R156). Reads a control register into a G register. -/
  | crd (d : Spec) (i : BitVec 11)
  /-- CWR (R156). Writes a G register into a control register that has no row of its own. -/
  | cwr (a : Spec) (i : BitVec 11)
  /-- DISPGO (R162). A write of DISPGO dispatches a routine to an idle controller or core. -/
  | dispgo (a : Spec)
  /-- PWREQ_STANDBY (R461). A write of 2 to PWREQ requests entry to standby PW2. -/
  | pwreqStandby (a : Spec)
  /-- PWREQ_WITHDRAW (R461). A write of 0 to PWREQ withdraws a waiting standby request. -/
  | pwreqWithdraw (a : Spec)
  /-- LAUNCH (R186). Checks a continuation record and queues it. -/
  | launch (d a b : Spec)
  /-- JOIN (R187). Atomically decrements a record's join counter. -/
  | join (d a : Spec)
  /-- CONF (R188). Applies an image as a partial reconfiguration of the issuing grove's configuration. -/
  | conf (d a : Spec)
  /-- SPLICE (R189). Binds a successor record to an installed predecessor. -/
  | splice (d a b : Spec)
  /-- PREEMPT (R190). Starts bringing a configuration to its held state. -/
  | preempt (d a : Spec)
  /-- CTXSV (R190). Saves a held configuration's context and releases its glades. -/
  | ctxsv (d a b : Spec)
  /-- CTXRS (R190). Queues a save area for restore. -/
  | ctxrs (d a b : Spec)
  /-- WFE (R191). Waits for an event bit, then returns and clears the bits. -/
  | wfe (d a : Spec)
  /-- SEV (R192). Sets EVSEV at a named controller or the configuration's controllers. -/
  | sev (a : Spec)
  /-- SVC (R433). Forms an SVC record and halts the unit until the supervisor resolves it. -/
  | svc (d a b : Spec)
  /-- FRES (R434). Resolves the current trap record by resuming. -/
  | fres (a : Spec)
  /-- TLBINV (R416). Removes matching translation entries device-wide. -/
  | tlbinv (a b : Spec)
  /-- SMC_SETBLK (R407). Asks Troira to set a block's world. -/
  | smcSetblk (d a b : Spec)
  /-- SMC_SETRGN (R407). Asks Troira to write a region entry. -/
  | smcSetrgn (d a b : Spec)
  /-- SMC_GETBLK (R407). Asks Troira for a block's world. -/
  | smcGetblk (d a b : Spec)
  /-- SMC_GETRGN (R407). Asks Troira to write out a region entry. -/
  | smcGetrgn (d a b : Spec)
  /-- BBOX (R446). Reads one black-box event into a G quad. -/
  | bbox (d a b : Spec)
  /-- BBOX_WR (R446). Records a SOFT black-box event. -/
  | bboxWr (a b : Spec)
  /-- CKPT (R451). Checks a checkpoint block and takes the snapshot. -/
  | ckpt (d a : Spec)
  /-- CKPT_POLL (R451). Reads a checkpoint header word without waiting. -/
  | ckptPoll (d a : Spec)
  /-- CKPT_WAIT (R451). Waits while a checkpoint is active. -/
  | ckptWait (d a : Spec)
  /-- CKPT_ABORT (R451). Aborts an active or queued checkpoint of the block. -/
  | ckptAbort (d a : Spec)
  /-- CKPT_REST (R452). Starts a restore job copying regions back from their destinations. -/
  | ckptRest (d a : Spec)
  /-- FIRING (R100). A cell starts a ready firing of a context. -/
  | firing (cell ctx frame itag : Nat)
  /-- STEER_FIRING (R108). A steer node forwards a token on O0 or O1 by its predicate. -/
  | steerFiring (cell ctx frame itag : Nat)
  /-- MERGE_FIRING (R108). A merge node forwards the token of the input its predicate selects. -/
  | mergeFiring (cell ctx frame itag : Nat)
  /-- COUNTER_FIRING (R109). A counter node consumes a trigger and emits trigger, end-of-row and end-of-K tokens. -/
  | counterFiring (cell ctx frame itag : Nat)
  /-- MEMORY_NODE_FIRING (R252). A memory node performs one memory operation per firing. -/
  | memoryNodeFiring (cell ctx frame itag : Nat)
  /-- REDUCTION_NODE_FIRING (R111). A reduction node combines sibling tokens lane by lane. -/
  | reductionNodeFiring (cell ctx frame itag : Nat)
  /-- LAUNCH_DOORBELL (R455). A host write of LAUNCHDB acts as a supervisor LAUNCH. -/
  | launchDoorbell (value : Word)
  /-- HOST_MEM_WRITE (R404). A host CXL.mem write reaches device memory. -/
  | hostMemWrite (addr : Nat) (data : List Byte)
  /-- HOST_MEM_READ (R454). A host CXL.mem read of device memory. -/
  | hostMemRead (addr len : Nat)
  /-- FLIT_DATA (R457). A packet-data flit arrives on a Balesh port and its CRC is checked. -/
  | flitData (port : Nat) (flit : BitVec 2048)
  /-- FLIT_ACK (R457). An acknowledgement flit arrives, possibly requesting replay. -/
  | flitAck (port : Nat) (flit : BitVec 2048)
  /-- FLIT_TIMESYNC (R457). A time-synchronisation flit arrives and steers the time counter. -/
  | flitTimesync (port : Nat) (flit : BitVec 2048)
  /-- FLIT_MANAGEMENT (R457). A management flit arrives for the Troira controller. -/
  | flitManagement (port : Nat) (flit : BitVec 2048)
  /-- LINK_RETRAIN (R442). After 16 consecutive failed replays the link retrains. -/
  | linkRetrain (port : Nat)
  /-- LINK_DOWN (R442). Retraining not done within 10 ms takes the port down. -/
  | linkDown (port : Nat)
  /-- LINK_UP (R442). A port comes up again and writes a LINK entry. -/
  | linkUp (port : Nat)
  /-- SPDM_ATTESTATION (R459). An SPDM request with a nonce returns signed measurements. -/
  | spdmAttestation (nonce : BitVec 256)
  /-- MGMT_FIRMWARE_IMAGE (R459). A new firmware image arrives through the management interface. -/
  | mgmtFirmwareImage (image : FirmwareImage)
  /-- CLOCK_CHANGE (R462). A temperature or power threshold changes the clock in 25 MHz steps. -/
  | clockChange (mhz temp : Nat)
  /-- THERMAL_STOP (R461). At 118 degrees the module stops and writes a THERMAL entry. -/
  | thermalStop (temp : Nat)
  /-- SCRUB_PASS (R453). A periodic scrub pass of SRAM or HBM runs. -/
  | scrubPass (hbm : Bool)
  /-- SERDES_RECALIBRATION (R453). Each SerDes is recalibrated every 100 ms. -/
  | serdesRecalibration (port : Nat)
  /-- HBM_ROW_REMAP (R453). A failing HBM row is remapped to a spare, or ROWSPARE is logged. -/
  | hbmRowRemap (stack row : Nat)
  /-- DECODE (R73). A fetched or reached word that is not an instruction faults with ILLOP or ILLREG before it changes anything. -/
  | decodeDefect (defect : Defect)
  /-- END (R139). Checks route rates, commits the output buffer and ends the firing. -/
  | endFiring
  /-- NOP (R139). No effect. -/
  | nop
  /-- MSWP (R350). Queues an exchange of active and shadow planes. -/
  | mswp
  /-- ERET (R437). Leaves the supervisor handler and resumes at EPC. -/
  | eret
  /-- FSKIP (R435). Resolves the current trap record by skipping the frame or instruction. -/
  | fskip
  /-- ESCAL (R436). Escalates the current record to the supervisor. -/
  | escal
  /-- SMC_REPLY (R408). Troira drains in-flight accesses, zeroes, applies the change and replies. -/
  | smcReply
  /-- TOKEN_ARRIVAL (R97). A data token arrives at a cell's matching store or parking area. -/
  | tokenArrival
  /-- PREDICATE_ARRIVAL (R95). A predicate token arrives at a predicate input. -/
  | predicateArrival
  /-- OUTPUT_COMMIT (R102). Once the firing's checks have returned, its output-buffer entries commit in order. -/
  | outputCommit
  /-- FILL_LAND (R116). The value of a long-latency producer lands and the held register becomes FULL. -/
  | fillLand
  /-- COUNTER_BOUND (R109). A bound token arriving at a counter's I1 sets the pending trip count. -/
  | counterBound
  /-- ARBITRATION_ROUND (R172). The glade arbiter admits at most one eligible queue head. -/
  | arbitrationRound
  /-- CONFIG_COMPLETION (R167). A configuration with no live frame completes and releases its glades. -/
  | configCompletion
  /-- CELL_RETIRE (R175). A drained predecessor cell retires and takes the successor's configuration. -/
  | cellRetire
  /-- HELD_STATE (R179). A pre-empted configuration reaches its held state and EVHELD is set. -/
  | heldState
  /-- OWNER_CHECK (R227). An access check arrives at the owner of its location. -/
  | ownerCheck
  /-- STORE_PERFORM (R239). A committed store is performed at its owner. -/
  | storePerform
  /-- ATOMIC_APPLY (R244). An atomic's read-modify-write is applied at the owner. -/
  | atomicApply
  /-- DONE_TOKEN (R233). A done token enters the network once its access is performed at its scope. -/
  | doneToken
  /-- SEQ_CONTRIBUTION (R248). A sequenced contribution arrives at its owner and is staged, replaced or discarded. -/
  | seqContribution
  /-- SEQ_CLOSE (R248). A close arrives at an owner and is recorded. -/
  | seqClose
  /-- COPY_JOB_START (R257). A queued or bound copy job starts on a stream-engine port. -/
  | copyJobStart
  /-- COPY_ELEMENT (R255). A copy job reads and writes a burst of elements. -/
  | copyElement
  /-- COPY_JOB_COMPLETE (R257). A copy job completes, settling pending bytes, tag and completion token. -/
  | copyJobComplete
  /-- BARRIER_UPDATE (R265). An arrival or pending change is applied at a barrier's owner. -/
  | barrierUpdate
  /-- CONVERSION_DEMAND (R274). The placement unit receives a demanding commit and queues, joins or refuses it. -/
  | conversionDemand
  /-- CONVERSION_START (R272). A conversion job starts with its footprint declared. -/
  | conversionStart
  /-- CONVERSION_PACKET (R466). A conversion or collective packet arrives at an edge streamer. -/
  | conversionPacket
  /-- CONVERSION_ABORT (R275). An abort packet abandons the job on this device. -/
  | conversionAbort
  /-- CONVERSION_COMPLETE (R273). A conversion completes and updates the descriptor and completion record. -/
  | conversionComplete
  /-- COLLECTIVE_COMPLETE (R281). A collective instance completes on this device. -/
  | collectiveComplete
  /-- MTX_COMMAND_AT_HEAD (R345). A matrix command reaches the head of the array queue and is performed. -/
  | mtxCommandAtHead
  /-- RELATION_CONTRIBUTION (R378). A relation contribution arrives at its owner shard. -/
  | relationContribution
  /-- RRND_ROUND_CLOSE (R379). RRND reaches its head in the relation unit and closes the round. -/
  | rrndRoundClose
  /-- PAGE_WALK (R413). A translation miss is walked and the entry refilled. -/
  | pageWalk
  /-- TRAP_TAKE (R424). A controller takes a queued trap record and enters its user handler. -/
  | trapTake
  /-- SUPERVISOR_TRAP_TAKE (R429). A supervisor core takes a queued record and enters its handler. -/
  | supervisorTrapTake
  /-- WFE_TIMEOUT (R191). A WFE timeout expires and sets EVTIME. -/
  | wfeTimeout
  /-- CKPT_GRANULE_COPY (R448). The drain engine copies a checkpoint granule, early when a write waits on it. -/
  | ckptGranuleCopy
  /-- CKPT_COMPLETE (R448). All destination bytes are performed and state 2 is written. -/
  | ckptComplete
  /-- COLD_RESET (R458). Cold reset verifies firmware, repairs SRAM, trains links and starts core 0. -/
  | coldReset
  /-- WARM_RESET (R458). Warm reset clears queues, configurations and placement table, keeping the black box. -/
  | warmReset
  /-- MGMT_STANDBY_REQUEST (R461). A standby request arrives through the management interface. -/
  | mgmtStandbyRequest
  /-- PW1_ENTRY (R461). After 1 ms of idleness the module enters PW1. -/
  | pw1Entry
  /-- POWER_REMOVAL (R461). Removal of power takes the module to PW3. -/
  | powerRemoval
  /-- TELEMETRY_WRITE (R453). Each basin's telemetry is written every 1 ms. -/
  | telemetryWrite
  /-- RELATION_JOB_BLOCK (R380). The relation unit performs the next block of 64 probes of an RJOIN, RANTI, RINS, RDEL or RGRAD job and sends its contributions; after the last block the job completes and releases its 32 pending bytes. -/
  | relationJobBlock
  /-- SORT_JOB_BLOCK (R401). The relation unit sorts, selects or merges the next block of an RSORT, RTOPK or RMRG job; after the last block the job completes and its tag and footprint are settled. -/
  | sortJobBlock
  /-- PW2_EXIT (R460). The module leaves standby within 2 ms of its wake cause and returns to PW0, and the stopped cores and controllers resume where they stopped. -/
  | pw2Exit
  /-- LAUNCHST_READ (R455). A host read of LAUNCHST stalls until the latest doorbell write has been checked, then returns that write's status, or 0, or FWFAIL. -/
  | launchstRead
  deriving DecidableEq, Repr

end Sys2Proof
end

