-- ==== Sys2Proof/Machine/State.lean ====
section
/-! DEFINITION. The state of the machine as plain data: everything the manual gives the device (R7 to R29
and the chapters named there), the pending work of its networks, engines and owners, and which agent
moves next.  INVENTORY.md lists every field with the rule that names it.

Numbering: grove `n` is `gy*32+gx`; cell `c` is `grove*64 + cell number`; unit `u` is the controller of
grove `u` for `u < 1024` and supervisor core `u - 1024` (`basin*4+core`) from there on; unit 2000 stands
for the host. -/

namespace Sys2Proof.Machine

/-! ### Why a step stops -/

/-- Faults: the machine as a whole stands still.  Every trap of the manual is taken and is a next state. -/
inductive Fault where
  /-- The module is off or stopped by heat and only a cold reset restarts it (R461).  Raised by every
  step but a cold reset.  Safe: the manual gives nothing else a step could do. -/
  | poweredOff
  deriving DecidableEq, Repr

/-- Refusals: the step asked for has no meaning in this state. -/
inductive Refusal where
  /-- An instruction whose meaning is not written.  Raised by no arm. -/
  | notModelled (mnemonic : String)
  /-- An event row asked for while no such event is pending, or an instruction asked for while no unit
  that could run it has the turn.  Raised by the event meanings and by instructions out of turn, never by
  a step of the machine, which asks only for what is pending.  Safe: no next state is claimed. -/
  | notPending (mnemonic : String)
  deriving DecidableEq, Repr

/-- The outcome of a step. -/
abbrev Out (σ : Type) := Host.Outcome σ Fault Refusal

/-! ### Small parts -/

/-- State of a held register (R116). -/
inductive HeldSt where
  | full
  | empty
  | dropped
  deriving DecidableEq, Repr

/-- A held register: value, state, recipe tag, fill-error bit (R116, R118), and the firings that precede a read of it (R213). -/
structure HeldReg where
  value : Reg := 0
  st : HeldSt := .full
  tag : Option Nat := none
  err : Bool := false
  past : List Nat := []
  deriving DecidableEq, Repr

/-- A token or predicate (R93, R95): destination context and port (0–3 I0–I3, 4 and 5 Q0 and Q1),
iteration tag, frame, width class, last flag, count field, payload (bit 0 of it for a predicate), the
configuration it belongs to (R176), the route it travels (R22), the firings that precede its consumer (R213), and the scope of what it
orders: that of a done or completion token (R215), system for data and predicates (R213). -/
structure Token where
  pred : Bool := false
  ctx : Nat := 0
  port : Nat := 0
  itag : Nat := 0
  frame : Nat := 0
  width : Nat := 0
  last : Bool := false
  count : Nat := 0
  payload : Reg := 0
  cfg : Nat := 0
  route : Nat := 0
  past : List Nat := []
  scope : Nat := 4
  deriving DecidableEq, Repr

/-- What issued an access, a command or a job, as trap records name it (R421): its kind (0 firing, 1
engine job, 2 conversion, 3 controller), the cell or unit, the configuration, frame, context,
instruction-store word, iteration tag, instruction words, firing, address space and world; and the firings that precede its
firing (R213, R216). -/
structure Src where
  kind : Nat := 0
  who : Nat := 0
  cfg : Nat := 0
  frame : Nat := 0
  ctx : Nat := 0
  word : Nat := 0
  itag : Nat := 0
  insn : BitVec 32 := 0
  word2 : BitVec 32 := 0
  uid : Nat := 0
  pos : Nat := 0
  asn : Nat := 0
  user : Bool := true
  secure : Bool := false
  past : List Nat := []
  deriving DecidableEq, Repr

/-- Bits of physical memory: first bit, number of bits, whether they are written, and the virtual byte
address they were reached by. -/
structure Range where
  lo : Nat
  len : Nat
  wr : Bool
  va : Nat
  deriving DecidableEq, Repr

/-- One element of an access: its physical bit address, width, virtual byte address, value or operand, and
its number within the instruction. -/
structure Piece where
  bit : Nat
  len : Nat
  va : Nat
  val : Nat
  val2 : Nat := 0
  k : Nat := 0
  deriving DecidableEq, Repr

/-- The kinds of access a check distinguishes (R223, R227); a close is SEQCL's, checked and not itself an access. -/
inductive AccKind where
  | load
  | store
  | atomic
  | job
  | close
  deriving DecidableEq, Repr

/-- A captured store, atomic or contribution: identity, issuer, elements, scope, sequence group, operation
(0 store, 1 AADD, 2 AMIN, 3 AMAX, 4 AXCH, 5 ACAS, 6 AOR, 7 AAND), record, and per element its number with the
non-finite and saturation counts of R241 and R248; and, of the elements performed so far, the old values by element number and
the cause and address of the first that was dropped, and whether any has been performed. -/
structure Acc where
  id : Nat := 0
  src : Src := {}
  pieces : List Piece := []
  scope : Nat := 0
  group : Nat := 0
  op : Nat := 0
  rcd : BitVec 256 := 0
  cnt : List (Nat × Nat × Nat) := []
  olds : List (Nat × Nat) := []
  drop : Option (Nat × Nat) := none
  begun : Bool := false
  deriving DecidableEq, Repr

/-- A write event that a cell's loads may not have seen (R207, R212, R219): the bits it wrote with their old values, its issuer (kind 4: one
that every scope contains), and whether every later load of the cell on these bits sees it. -/
structure View where
  olds : List (Nat × Nat × Nat)
  by_ : Src
  seen : Bool := false
  deriving DecidableEq, Repr

/-- An access in flight at its owners (R227); `handle` is the placement handle of a demand (R274). -/
structure InFlight where
  id : Nat
  src : Src
  kind : AccKind
  ranges : List Range
  scope : Nat
  group : Nat
  handle : Nat
  deriving DecidableEq, Repr

/-- A cause with what the record of R421 says about it. -/
structure Trap where
  cause : Nat
  detail : Nat := 0
  inner : Nat := 0
  addr : Nat := 0
  aux : Nat := 0
  other : Nat := 0
  deriving DecidableEq, Repr

/-- A trap record: its words W0 to W23 (R421), the frame or unit it came from, how often a restore has delivered it again
(R439), and whether FRES or FSKIP has resolved it. -/
structure TrapRec where
  words : List Word := []
  cfg : Nat := 0
  frame : Nat := 0
  cell : Nat := 0
  unit : Nat := 0
  epoch : Nat := 0
  resolved : Bool := false
  deriving DecidableEq, Repr

/-! ### Engine commands and jobs -/

/-- The phase of a copy job (R257, R259). -/
inductive JobSt where
  | queued
  | bound (port : Nat)
  | running (port : Nat)
  deriving DecidableEq, Repr

/-- A copy or transform job (R253 to R260). -/
structure CopyJob where
  id : Nat := 0
  src : Src := {}
  grove : Nat := 0
  srec : BitVec 256 := 0
  drec : BitVec 256 := 0
  sstart : Nat := 0
  dstart : Nat := 0
  count : Nat := 0
  scope : Nat := 0
  route : Nat := 0
  tok : Option (Nat × Token) := none
  bar : Option (Nat × Nat) := none
  tag : Nat := 0
  xform : Bool := false
  moved : Nat := 0
  st : JobSt := .queued
  started : Bool := false
  cancelled : Bool := false
  drop : Option Nat := none
  flags : Nat := 0
  nf : Nat := 0
  sat : Nat := 0
  /-- Elements that nf0 has replaced (R241). -/
  zeroed : Nat := 0
  foot : List Range := []
  deriving DecidableEq, Repr

/-- A matrix command (R344); an MSTR keeps its next K-block and what its blocks so far report (R354, R365). -/
inductive MtxOp where
  | mlw (rcd : BitVec 256) (e k n : Nat)
  | mswp
  | mstr (set : Nat) (rcd : BitVec 256) (e : Nat) (block flags nf : Nat)
  | mrd (set : Nat) (rcd : BitVec 256) (e : Nat) (rel : Bool)
  | mrdH (held set row group : Nat) (rel : Bool)
  | mclr (set : Nat)
  | mchk (held : Nat)
  | mshp (set m n k : Nat)
  deriving DecidableEq, Repr

/-- A matrix command with its issuer, footprint and identity. -/
structure MtxCmd where
  id : Nat
  src : Src
  op : MtxOp
  foot : List Range
  deriving DecidableEq, Repr

/-- A relation descriptor as an instruction read it (R371, R391): virtual and physical address, and words W0 to W7. -/
structure RelDesc where
  va : Nat := 0
  pa : Nat := 0
  w : BitVec 512 := 0
  deriving DecidableEq, Repr

/-- A relation command (R391): RDEF and RCLR; RINS and RDEL; RJOIN and RANTI with the rule block and the descriptors of
head, A and B; RRND; RQCK with its block's address, its barrier and the address of that, list and count; RLOOK; RGRAD with the head, the gradient
relation and the round. -/
inductive RelOp where
  | rclr (d : RelDesc) (use : Bool)
  | rins (d : RelDesc) (tuples : List (BitVec 256)) (del : Bool)
  | rjoin (block : BitVec 512) (h a b : RelDesc) (anti : Bool)
  | rrnd (d : RelDesc) (held : Option Nat)
  | rqck (block barrier barVa list count : Nat) (g : Bool) (held : Option Nat)
  | rlook (d : RelDesc) (keys : List Nat) (held : Option Nat)
  | rgrad (h g : RelDesc) (round : Nat)
  deriving DecidableEq, Repr

/-- A relation job: command, barrier (physical and virtual address), progress in probes, whether RQCK has added its count and arrived,
with the phase it then saw, and the address of the first write of it that was dropped. -/
structure RelJob where
  id : Nat := 0
  src : Src := {}
  grove : Nat := 0
  op : RelOp := .rclr {} false
  bar : Option (Nat × Nat) := none
  progress : Nat := 0
  arrived : Bool := false
  phase : Nat := 0
  drop : Option Nat := none
  foot : List Range := []
  deriving DecidableEq, Repr

/-- A contribution of a relation job (R377, R378): the relation, keys, id and weight, whether the weight is negative or was
clamped, its order key (rule, first and second source, side), its cofactors, and the barrier that counts its 32 bytes. -/
structure RelContrib where
  src : Src := {}
  desc : RelDesc := {}
  keys : List Nat := []
  tid : Nat := 0
  weight : Nat := 0
  neg : Bool := false
  clamped : Bool := false
  rule : Nat := 0
  ida : Nat := 0
  idb : Nat := 0
  side : Nat := 0
  trb : Nat := 0
  coa : Nat := 0
  cob : Nat := 0
  bar : Option (Nat × Nat) := none
  deriving DecidableEq, Repr

/-- A sorting job (R399 to R401): operation 0 RSORT, 1 RTOPK, 2 RMRG; its next row, the elements of that row read so far
(key, then payload), those that are still to be written, and the first element whose write was dropped. -/
structure SortJob where
  id : Nat := 0
  src : Src := {}
  grove : Nat := 0
  op : Nat := 0
  krec : BitVec 256 := 0
  prec : Option (BitVec 256) := none
  e : Nat := 0
  o : Nat := 0
  n : Nat := 0
  n2 : Nat := 0
  rows : Nat := 0
  k : Nat := 0
  order : Bool := false
  tag : Option Nat := none
  row : Nat := 0
  read : List Nat := []
  out : List Nat := []
  drop : Option Nat := none
  foot : List Range := []
  deriving DecidableEq, Repr

/-- A placement demand (R286, R287): handle, demanded states, target record, held destination and element
offset of a PLD, tag of a PCONV, the version it waits for, whether its load has failed and stopped the frame, and the declared
footprint of the conversion it may cause (R272). -/
structure Demand where
  id : Nat := 0
  src : Src := {}
  handle : Nat := 0
  states : Nat := 0
  rcd : BitVec 256 := 0
  held : Option Nat := none
  load : Bool := false
  e : Nat := 0
  tag : Option Nat := none
  version : Nat := 0
  failed : Bool := false
  foot : List Range := []
  deriving DecidableEq, Repr

/-- Payload taken from a packet of the current job (R278): step, first leaf or sending coordinate, span, chunk, contents, and
the non-finite count of its header. -/
structure Got where
  step : Nat
  leaf : Nat
  span : Nat
  chunk : Nat
  data : Nat
  nf : Nat
  deriving DecidableEq, Repr

/-- A conversion job (R271 to R275), or an instance of a collective slot (R281), on this device: handle or slot, version or
instance, old and new placement, element format, leaf counts, views or records, the mesh as it was read, the steps (axis and
kind) and the current one, the elements held (value and non-finite count), the non-finite count of the roots that the device knows of
(R277, R467), and what has been received; whether it has begun to read its source view, how many elements of its target it has written, the
first of them that was dropped, and the tag of the PCONV that caused it. -/
structure ConvJob where
  id : Nat := 0
  src : Src := {}
  handle : Nat := 0
  version : Nat := 0
  sig : Nat := 0
  asn : Nat := 0
  mesh : Nat := 0
  oldStates : Nat := 0
  newStates : Nat := 0
  leaves : Nat := 0
  fmt : Nat := 0
  view : Nat := 0
  target : Nat := 0
  extents : List Nat := []
  recs : Option (BitVec 256 × BitVec 256) := none
  sizes : List Nat := []
  self : Nat := 0
  devs : List Nat := []
  begun : Bool := false
  started : Bool := false
  written : Nat := 0
  drop : Option Nat := none
  tag : Option Nat := none
  step : Nat := 0
  steps : List (Nat × Nat) := []
  data : List (Nat × Nat) := []
  extra : Nat := 0
  got : List Got := []
  foot : List Range := []
  deriving DecidableEq, Repr

/-- A packet of an edge streamer (R278): the port it came in on (32: none, a node of this device made it), whether it stands in a parking
slot (R281), whether it came in standby (R460), header words and payload bytes. -/
structure Packet where
  port : Nat := 0
  parked : Bool := false
  wakes : Bool := false
  header : BitVec 512 := 0
  payload : List Byte := []
  deriving DecidableEq, Repr

/-- A command an output-buffer entry carries to an engine (R102). -/
inductive Cmd where
  | copy (j : CopyJob)
  | scancel (mask : Nat)
  | tclr (mask : Nat)
  | bar (op : Nat) (pa n va : Nat)
  | mtx (c : MtxCmd)
  | rel (j : RelJob)
  | sort (j : SortJob)
  | pdef (handle : Nat) (desc : BitVec 512) (asn : Nat) (sizes : List Nat) (self : Nat)
  | demand (d : Demand)
  | cdef (slot : Nat) (block : BitVec 1024) (asn : Nat)
  | cstart (slot : Nat) (foot : List Range)
  deriving DecidableEq, Repr

/-- An output-buffer entry (R102). -/
inductive Entry where
  /-- A store or atomic (op ≠ 0). -/
  | access (a : Acc)
  /-- A token or predicate on output route `route`, to cell `dest`. -/
  | emit (route dest : Nat) (t : Token)
  /-- A write of a held register. -/
  | held (k : Nat) (v : Reg)
  /-- A load into a held register: EMPTY at commit, the value lands later (R116, R236). -/
  | fill (k : Nat) (v : Reg) (err : Bool)
  /-- HREC (R142). -/
  | hrec (k : Nat) (recipe : Option Nat)
  /-- HDROP (R143); an entry that met a DROPPED register at execution has no effect. -/
  | hdrop (k : Nat) (eff : Bool)
  /-- A done token, waiting on an access (or on every earlier access for ORD, every earlier job too for
  ORDW) (R233, R251). -/
  | done (dest : Nat) (t : Token) (acc : Option Nat) (ordw : Bool)
  /-- SEQCL (R250). -/
  | close (a : Acc) (bar : Option (Nat × Nat))
  /-- A command, which makes register `held` EMPTY at commit when it names one. -/
  | cmd (c : Cmd) (held : Option Nat)
  deriving DecidableEq, Repr

/-! ### Pending work -/

/-- Work under way in the networks, engines and owners of the device; the order of the list is the order in
which the items arose. -/
inductive Work where
  /-- A data token on its way to cell `dest` (R20). -/
  | token (dest : Nat) (t : Token)
  /-- A predicate on its way to cell `dest` (R95). -/
  | predicate (dest : Nat) (t : Token)
  /-- A value on its way into held register `k` of a cell (R116). -/
  | fill (cell k : Nat) (v : Reg) (err : Bool)
  /-- An access check on its way to the owners (R227). -/
  | check (f : InFlight)
  /-- A committed store (R239). -/
  | store (a : Acc)
  /-- A committed atomic (R244). -/
  | atomic (a : Acc)
  /-- A done token that waits for its access (R233, R251). -/
  | done (dest : Nat) (src : Src) (t : Token) (acc : Option Nat) (ordw : Bool)
  /-- A sequenced contribution of one element (R248). -/
  | contrib (a : Acc) (owner : Nat)
  /-- A close on its way to one owner (R248), with the barrier bytes that owner releases. -/
  | close (a : Acc) (owner seq : Nat) (bar : Option (Nat × Nat)) (bytes : Nat)
  /-- The done token of the SEQCL whose close has the identity `id`: it waits for owners to apply the sequence and gathers
  their counts in its payload (R250). -/
  | closeDone (id dest : Nat) (src : Src) (t : Token) (owners : List Nat)
  /-- A copy job, queued, bound or running (R259). -/
  | copy (j : CopyJob)
  /-- A barrier operation of a firing at its owner: 0 BARINIT, 1 arrivals (R265). -/
  | bar (src : Src) (op pa n va : Nat)
  /-- A placement demand on its way to the placement unit (R274). -/
  | demand (d : Demand)
  /-- A conversion job, queued or running (R272). -/
  | conv (j : ConvJob)
  /-- A PLD or PCONV that waits for a version (R286, R287). -/
  | waiting (d : Demand)
  /-- A packet that has arrived on a port (R278). -/
  | packet (p : Packet)
  /-- A collective instance (R281). -/
  | coll (j : ConvJob)
  /-- A relation job (R380). -/
  | rel (j : RelJob)
  /-- A relation contribution on its way to its owner (R378). -/
  | relContrib (c : RelContrib)
  /-- A sorting job (R401). -/
  | sort (j : SortJob)
  /-- An SMC request that Troira has not answered (R408). -/
  | smc (unit d code operand asn : Nat)
  /-- A translation miss being walked for a holder of entries (R413, R414). -/
  | walk (holder asn va : Nat) (secure : Bool)
  deriving DecidableEq, Repr

/-! ### Cells -/

/-- Where a firing stands: running its words, ended with checks outstanding, or committing (R102, R227). -/
inductive Phase where
  | running
  | ending
  | committing
  deriving DecidableEq, Repr

/-- The firing in progress on a cell (R100 to R106), with the firings that precede it (R213), and the values to which an instruction has
replayed registers that the firing itself has dropped: its word, register and value (R120, R141). -/
structure Firing where
  uid : Nat := 0
  cfg : Nat := 0
  ctx : Nat := 0
  frame : Nat := 0
  itag : Nat := 0
  inputs : List Token := []
  source : Bool := false
  ivals : List Reg := []
  temps : List Reg := []
  word : Nat := 0
  out : List Entry := []
  emitted : List Nat := [0, 0, 0, 0]
  flags : Nat := 0
  nf : Nat := 0
  sat : Nat := 0
  phase : Phase := .running
  race : Option (Nat × Trap × Src) := none
  fault : Option (Trap × Nat) := none
  pos : Nat := 0
  past : List Nat := []
  replayed : List (Nat × Nat × Reg) := []
  deriving DecidableEq, Repr

/-- The state a counter node keeps for one frame (R109). -/
structure CounterSt where
  i : Nat := 0
  j : Nat := 0
  n : Nat := 0
  inner : Nat := 0
  pending : Nat := 0
  deriving DecidableEq, Repr

/-- A cell (R13): held-register capacity, configuration it belongs to (0: none), instruction store,
context fields (key c*8+k), buffer records (key c*8+k), recipe table, recipes are entries of 16 bits,
held registers, waiting tokens in arrival order, counter nodes (key ctx*1024+frame), source contexts that
have yet to fire (context, frame), the contexts and ports that have consumed a last token (R175), the
firing in progress, the last frame that fired and how often each ready firing was passed over (R114). -/
structure Cell where
  hcap : Nat := 32
  cfg : Nat := 0
  store : Table (BitVec 32) := []
  fields : Table Word := []
  records : Table (BitVec 256) := []
  recipes : Table (BitVec 16) := []
  held : Table HeldReg := []
  tokens : List Token := []
  counters : Table CounterSt := []
  sources : List (Nat × Nat) := []
  firedSources : List (Nat × Nat) := []
  frames : List (Nat × Nat) := []
  lasts : List (Nat × Nat × Nat) := []
  firing : Option Firing := none
  lastFrame : Option Nat := none
  passed : List (Nat × Nat × Nat × Nat) := []
  deriving DecidableEq, Repr

/-! ### Groves -/

/-- A weight plane (R342): format (`none`: "none") and raw elements, key k*64+n. -/
structure Plane where
  fmt : Option Nat := none
  elems : Table Nat := []
  deriving DecidableEq, Repr

/-- An accumulator set (R342): F32 values (key m*64+n), shape, bound, owner (configuration, frame). -/
structure MSet where
  acc : Table (BitVec 32) := []
  m : Nat := 64
  n : Nat := 64
  k : Nat := 64
  mb : Nat := 64
  nb : Nat := 64
  owner : Option (Nat × Nat) := none
  deriving DecidableEq, Repr

/-- The engines of a grove: its matrix array (R342) with the command queue and check state (R359). -/
structure Grove where
  active : Plane := {}
  shadow : Plane := {}
  sets : Table MSet := []
  queue : List MtxCmd := []
  mismatches : Nat := 0
  bc : Nat := 0
  resblocks : Nat := 0
  deriving DecidableEq, Repr

/-! ### Controllers and cores -/

/-- What a controller or core does (R161, R191, R424, R431). -/
inductive CtlMode where
  | idle
  | running
  /-- Halted at an instruction with an unresolved record (R431, R433). -/
  | halted
  /-- Halted inside its handler until a reset (R431). -/
  | dead
  deriving DecidableEq, Repr

/-- A copy tag (R261). -/
structure Tag where
  count : Nat := 0
  issued : Bool := false
  deriving DecidableEq, Repr

/-- The code a handler interrupted: pc, user mode, address space and mode (R424). -/
structure SavedPc where
  pc : Nat := 0
  user : Bool := false
  asn : Nat := 0
  mode : CtlMode := .idle
  deriving DecidableEq, Repr

/-- A grove controller or supervisor core; `parked` holds records that wait for room in its queue (R423, R429), and `midway` says that
its instruction has begun and waits at no instruction boundary (R424). -/
structure Ctl where
  mode : CtlMode := .idle
  pc : Nat := 0
  user : Bool := false
  asn : Nat := 0
  bank0 : Table Word := []
  bank1 : Table Word := []
  handler : Bool := false
  rcd : Option TrapRec := none
  saved : SavedPc := {}
  epc : Word := 0
  svvec : Word := 0
  queue : List TrapRec := []
  parked : List TrapRec := []
  midway : Bool := false
  events : Nat := 0
  deadline : Option Nat := none
  dbgctl : Word := 0
  wbase : Word := 0
  wlen : Word := 0
  wctl : Word := 0
  disppc : Word := 0
  dispFail : Bool := false
  tags : Table Tag := []
  svcDst : Nat := 44
  wait : Option Nat := none
  reply : Option Word := none
  pld : Option Nat := none
  deriving DecidableEq, Repr

/-! ### Configurations -/

/-- Whether a configuration runs, is being pre-empted, is held (R179), or is saved and on no groves (R180). -/
inductive CfgSt where
  | running
  | preempting
  | held
  | saved
  deriving DecidableEq, Repr

/-- A frame of a configuration (R98, R113, R261, R313, R435). -/
structure Frame where
  live : Bool := false
  stopped : Option TrapRec := none
  skipped : Bool := false
  fpstat : Nat := 0
  nf : Nat := 0
  sat : Nat := 0
  tags : Table Tag := []
  deriving DecidableEq, Repr

/-- A write of a field by a command stream (R77): position (stage*1024 + gy*32+gx of the glade), cell, field and value. -/
structure FieldWrite where
  pos : Nat
  cell : Nat
  field : Nat
  value : Nat
  deriving DecidableEq, Repr

/-- A cell section (R84): position, cell, first word, hreset, words, buffer records (index c*8+k), recipe table, recipe tags. -/
structure Section where
  pos : Nat
  cell : Nat
  first : Nat
  hreset : Bool
  words : List Nat
  records : List (Nat × Nat)
  recipes : List Nat
  tags : List Nat
  deriving DecidableEq, Repr

/-- An image that the installer has accepted (R86). -/
structure Image where
  writes : List FieldWrite
  splice : Bool
  sections : List Section
  deriving DecidableEq, Repr

/-- A configuration of the device (R10, R50, R167, R174, R179): its record's virtual and physical address, the origins of
its glades (for a saved one the origins it had), whether it has completed as the predecessor of a splice whose cells have not
all retired, and the physical ranges (start, bytes) of its CONST records (R124). -/
structure Cfg where
  id : Nat := 0
  rcd : Nat := 0
  rcdPa : Nat := 0
  queue : Nat := 0
  words : List Word := []
  spaceAsn : Nat := 0
  issuer : Nat := 2000
  origins : List Nat := []
  st : CfgSt := .running
  preempters : List Nat := []
  frames : Table Frame := []
  succ : Option Nat := none
  pred : Option Nat := none
  done : Bool := false
  image : Option Image := none
  checkedStages : List Nat := []
  late : Nat := 0
  skips : Nat := 0
  installNs : Nat := 0
  wakeNs : Nat := 0
  quiesce : Bool := false
  consts : List (Nat × Nat) := []
  deriving DecidableEq, Repr

/-- An entry of a launch queue (R164, R183): the address of a record or save area, its bypass count, its capacity map once the
arbiter has read it (R171), and, once a save area has passed its checks (R184), the physical address of the area and the virtual
address of its record as they were found then; and who queued it. -/
structure QEntry where
  addr : Nat := 0
  bypass : Nat := 0
  save : Bool := false
  cap : Option (List (Nat × Nat × Nat)) := none
  checked : Option (Nat × Nat) := none
  issuer : Nat := 2000
  asn : Nat := 0
  user : Bool := false
  secure : Bool := false
  deriving DecidableEq, Repr

/-- What a save area holds (R180, R182), by its physical address: the configuration, its cells and groves under the numbers
they had, and the draw that gave the private bytes of the area. -/
structure Saved where
  cfg : Nat := 0
  cells : Table Cell := []
  groves : Table Grove := []
  draw : Nat := 0
  deriving DecidableEq, Repr

/-! ### Owners, placement, isolation, resilience, attachment -/

/-- A staged entry of a sequence group (R248), with the accesses that it replaced: identity, firing and place in its buffer. -/
structure Staged where
  seq : Nat
  key : List Nat
  acc : Acc
  olds : List (Nat × Nat × Nat) := []
  deriving DecidableEq, Repr

/-- A recorded close (R248): its sequence, identity and issuer, its barrier (physical and virtual address), and the bytes this owner
releases there. -/
structure Closing where
  seq : Nat
  id : Nat
  src : Src
  bar : Option (Nat × Nat)
  bytes : Nat
  deriving DecidableEq, Repr

/-- The state an owner holds for a sequence group (R248, R249). -/
structure SeqGroup where
  held : Bool := false
  applied : Option Nat := none
  closes : List Closing := []
  staged : List Staged := []
  discarded : Nat := 0
  nonfin : Nat := 0
  saturated : Nat := 0
  deriving DecidableEq, Repr

/-- A placement descriptor (R268) with the address space that defined it, and the axis sizes and linear index of the mesh
record that PDEF read (R267). -/
structure Placement where
  defd : Bool := false
  asn : Nat := 0
  desc : BitVec 512 := 0
  sizes : List Nat := []
  self : Nat := 0
  deriving DecidableEq, Repr

/-- A collective slot (R280, R281). -/
structure Slot where
  defd : Bool := false
  asn : Nat := 0
  block : BitVec 1024 := 0
  inst : Nat := 0
  finished : Bool := true
  done : Bool := false
  nf : Nat := 0
  deriving DecidableEq, Repr

/-- A translation entry (R414): address space, world, virtual and physical page, page size, flags [6:2]. -/
structure TlbEntry where
  asn : Nat
  secure : Bool
  vpage : Nat
  ppage : Nat
  size : Nat
  flags : Nat
  rootSecure : Bool
  deriving DecidableEq, Repr

/-- The black box of a basin (R444). -/
structure BlackBox where
  seq : Nat := 0
  events : Table (BitVec 256) := []
  deriving DecidableEq, Repr

/-- A checkpoint or restore held by a drain engine (R448, R452): issuer, physical and virtual address of the block, regions
(source and destination physical start, length), granules still to copy (source, destination), bytes drained, and where the
parts of its regions stand in its address space (physical and virtual start, bytes). -/
structure Ckpt where
  id : Nat := 0
  src : Src := {}
  block : Nat := 0
  blockVa : Nat := 0
  rest : Bool := false
  regions : List (Nat × Nat × Nat) := []
  pending : List (Nat × Nat) := []
  bytes : Nat := 0
  vas : List (Nat × Nat × Nat) := []
  deriving DecidableEq, Repr

/-- A flit that is to leave (R457): channel, first and last of a packet, slots returned, payload bytes that count, payload; the times of a
time-synchronisation flit are filled in as it leaves. -/
structure FlitOut where
  vc : Nat
  sop : Bool := false
  eop : Bool := false
  slots : Nat := 0
  len : Nat := 240
  payload : Nat := 0
  deriving DecidableEq, Repr

/-- A Balesh port (R442, R457): up, retraining, next sequence numbers received and sent, highest acknowledged, what was received when
the last acknowledgement left, slots the partner has returned and slots spent, flits that wait for a slot or for room, replays since
the last up, failed replays in a row, bytes of the packet being received, flits kept for replay, flits sent so far, the partner's
latest send time and when it came, and management flits. -/
structure Link where
  up : Bool := true
  retraining : Bool := false
  rxSeq : Nat := 0
  txSeq : Nat := 0
  acked : Nat := 0
  ackSent : Nat := 0
  slots : Nat := 0
  spent : Nat := 0
  waiting : List FlitOut := []
  replays : Nat := 0
  failed : Nat := 0
  partialPkt : List Byte := []
  replayBuf : List (BitVec 2048) := []
  wire : List (BitVec 2048) := []
  partnerSent : Nat := 0
  partnerRecv : Nat := 0
  managed : List (BitVec 2048) := []
  deriving DecidableEq, Repr

/-- A BARWAIT that waits at a barrier's owner (R265): the object's physical address, the unit and the firing that wait (firing 0
for a controller), the phase expected, and the phase that released it. -/
structure BarWait where
  pa : Nat
  who : Nat
  uid : Nat
  expected : Nat
  got : Option Nat := none
  deriving DecidableEq, Repr

/-- The power states (R460). -/
inductive Power where
  | pw0
  | pw1
  | pw2
  | pw3
  /-- Stopped at 118 °C (R461). -/
  | hot
  deriving DecidableEq, Repr

/-- What the host last received: bytes read, a completer abort, or an attestation (R404, R454, R459). -/
inductive HostReply where
  | none
  | bytes (b : List Byte)
  | word (w : Word)
  | abort
  | attestation (v : Nat)
  deriving DecidableEq, Repr

/-- The agent that moves next: a controller or core, a cell, an event with the place of its item in the pending work or
the number of the unit it acts for, or nobody. -/
inductive Turn where
  | ctl (u : Nat)
  | cell (c : Nat)
  | event (i : Instr) (k : Nat)
  | idle
  deriving DecidableEq, Repr

/-- The state of the machine. -/
structure State where
  turn : Turn
  tick : Nat
  free : Nat
  nextId : Nat
  timens : Word
  cycles : Word
  inputs : List Instr
  mem : Table Byte
  poison : List Nat
  cells : Table Cell
  groves : Table Grove
  ctls : Table Ctl
  cfgs : List Cfg
  work : List Work
  inflight : List InFlight
  queues : Table (List QEntry)
  rr : Table Nat
  round : Bool
  saves : Table Saved
  groups : Table SeqGroup
  placement : Table Placement
  slots : Table Slot
  rels : List Nat
  regions : Table Word
  blocks : Table Bool
  ttbase : Word
  tlbs : Table (List TlbEntry)
  bbox : Table BlackBox
  drains : Table (List Ckpt)
  links : Table Link
  egress : List Packet
  devnum : Option Nat
  launchst : Nat
  doorbells : List Word
  msix : Table Nat
  reply : HostReply
  power : Power
  idleSince : Option Nat
  clock : Nat
  pwreq : Nat
  telbase : Word
  corrected : Nat
  correctedHbm : Nat
  sdcs : Nat
  retries : Nat
  passes : Nat
  passesHbm : Nat
  fw : FirmwareImage
  fwOk : Bool
  fwNew : Option FirmwareImage
  barWaits : List BarWait
  barPast : Table (List Nat)
  barNow : Table (List Nat)
  views : Table (List View)
  hdm : Nat
  cyclePart : Nat
  deriving DecidableEq, Repr

/-- The state right after reset (R161, R402, R444, R458): supervisor core 0 of basin 0 runs at the entry
address of the firmware image, every other unit is idle, every queue and table is empty and every block
is normal.  Log entry 1 names each value that the manual does not give. -/
def State.reset : State where
  turn := .ctl 1024
  tick := 0
  free := 0
  nextId := 1
  timens := 0
  cycles := 0
  inputs := []
  mem := []
  poison := []
  cells := []
  groves := []
  ctls := [(1024, { mode := .running, pc := 0x1000 })]
  cfgs := []
  work := []
  inflight := []
  queues := []
  rr := []
  round := false
  saves := []
  groups := []
  placement := []
  slots := []
  rels := []
  regions := []
  blocks := []
  ttbase := 0
  tlbs := []
  bbox := []
  drains := []
  links := []
  egress := []
  devnum := none
  launchst := 0
  doorbells := []
  msix := []
  reply := .none
  power := .pw0
  idleSince := none
  clock := 1050
  pwreq := 0
  telbase := 0
  corrected := 0
  correctedHbm := 0
  sdcs := 0
  retries := 0
  passes := 0
  passesHbm := 0
  fw := { entry := 0x1000 }
  fwOk := true
  fwNew := none
  barWaits := []
  barPast := []
  barNow := []
  views := []
  hdm := 512 * 2 ^ 30
  cyclePart := 0

end Sys2Proof.Machine
end

