-- ==== Sys2Proof/Machine/Alu.lean ====
section
/-! DEFINITION. What the arithmetic instructions compute (chapters 12 and 13), apart from where their operands
come from: one description of each instruction, used by its meaning and by recipe replay (R120). -/

namespace Sys2Proof.Machine

/-! ### Causes (R417, R418) -/

def cILLOP : Nat := 0x01
def cILLREG : Nat := 0x02
def cBOUNDS : Nat := 0x03
def cALIGN : Nat := 0x04
def cTRANSL : Nat := 0x05
def cPERM : Nat := 0x06
def cRACE : Nat := 0x07
def cPLACE : Nat := 0x08
def cFULLEMPTY : Nat := 0x09
def cRECIPE : Nat := 0x0A
def cSTRATUM : Nat := 0x0B
def cALGEBRA : Nat := 0x0C
def cROUNDLIM : Nat := 0x0D
def cCOLLREUSE : Nat := 0x0E
def cSDC : Nat := 0x0F
def cECCUNC : Nat := 0x10
def cLINK : Nat := 0x11
def cUSER : Nat := 0x12
def cBRK : Nat := 0x13
def cWATCH : Nat := 0x14

/-- BOUNDS with the refused value (R421 W3). -/
def tBounds (v : Nat) : Trap := { cause := cBOUNDS, addr := v }

/-- ILLOP with a detail (R418). -/
def tIllop (detail : Nat := 0) : Trap := { cause := cILLOP, detail := detail }

/-! ### Descriptions -/

/-- The values an instruction delivers to its destination registers, and what it reports. -/
structure AluOut where
  vals : List Nat
  rep : Rep := {}

/-- An arithmetic instruction: destination specifier and number of registers written, sources in the field
order d, a, b, c with the number of registers each takes (R311), and the result on registers of `W` bits. -/
structure AluSem where
  dst : Spec
  n : Nat := 1
  srcs : List (Spec × Nat)
  eval : Nat → RndCtx → List Nat → Except Trap AluOut

/-- A result of one register with no report (R312). -/
def out1 (v : Nat) : Except Trap AluOut := .ok { vals := [v] }

/-- Entry `i` of a list of operand values. -/
def arg (vs : List Nat) (i : Nat) : Nat := vs.getD i 0

/-! ### INT (R315) -/

/-- The lane width of a lane type (R315). -/
def laneW (m : BitVec 3) : Nat := match m.toNat with | 0 => 32 | 1 => 64 | 2 => 16 | _ => 8

/-- An instruction of three operands that acts lane by lane. -/
def alu3 (d a b : Spec) (w : Nat) (f : Nat → Nat → Nat) : AluSem :=
  { dst := d, srcs := [(a, 1), (b, 1)], eval := fun W _ vs => out1 (zipLanes w (W / w) f (arg vs 0) (arg vs 1)) }

/-- An instruction of two operands that acts lane by lane. -/
def alu2 (d a : Spec) (w : Nat) (f : Nat → Nat) : AluSem :=
  { dst := d, srcs := [(a, 1)], eval := fun W _ vs => out1 (mapLanes w (W / w) f (arg vs 0)) }

def fnAdd (_w x y : Nat) : Nat := x + y
def fnSub (w x y : Nat) : Nat := x + (2 ^ w - y)
def fnMul (_w x y : Nat) : Nat := x * y
def fnMulh (w x y : Nat) : Nat := wrap w ((toSigned w x * toSigned w y) / ((2 ^ w : Nat) : Int))
def fnMulhu (w x y : Nat) : Nat := x * y / 2 ^ w
def fnMin (w x y : Nat) : Nat := if toSigned w x ≤ toSigned w y then x else y
def fnMax (w x y : Nat) : Nat := if toSigned w x ≤ toSigned w y then y else x
def fnMinu (_w x y : Nat) : Nat := min x y
def fnMaxu (_w x y : Nat) : Nat := max x y
def fnAbs (w x : Nat) : Nat := (toSigned w x).natAbs
def fnAnd (_w x y : Nat) : Nat := x &&& y
def fnOr (_w x y : Nat) : Nat := x ||| y
def fnXor (_w x y : Nat) : Nat := x ^^^ y
def fnAndn (w x y : Nat) : Nat := x &&& (2 ^ w - 1 - y % 2 ^ w)
def fnShl (w x y : Nat) : Nat := x <<< (y % w)
def fnShr (w x y : Nat) : Nat := x >>> (y % w)
def fnSar (w x y : Nat) : Nat := wrap w (toSigned w x / ((2 ^ (y % w) : Nat) : Int))
def fnRol (w x y : Nat) : Nat := (x <<< (y % w)) ||| (x >>> (w - y % w))
def fnClz (w x : Nat) : Nat := if x = 0 then w else w - 1 - Nat.log2 x
def fnPopc (w x : Nat) : Nat := (List.range w).countP fun i => x.testBit i

def semIadd (d a b : Spec) (m : BitVec 3) : AluSem := alu3 d a b (laneW m) (fnAdd (laneW m))
def semIsub (d a b : Spec) (m : BitVec 3) : AluSem := alu3 d a b (laneW m) (fnSub (laneW m))
def semImul (d a b : Spec) (m : BitVec 3) : AluSem := alu3 d a b (laneW m) (fnMul (laneW m))
def semImulh (d a b : Spec) (m : BitVec 3) : AluSem := alu3 d a b (laneW m) (fnMulh (laneW m))
def semImulhu (d a b : Spec) (m : BitVec 3) : AluSem := alu3 d a b (laneW m) (fnMulhu (laneW m))
def semImin (d a b : Spec) (m : BitVec 3) : AluSem := alu3 d a b (laneW m) (fnMin (laneW m))
def semImax (d a b : Spec) (m : BitVec 3) : AluSem := alu3 d a b (laneW m) (fnMax (laneW m))
def semIminu (d a b : Spec) (m : BitVec 3) : AluSem := alu3 d a b (laneW m) (fnMinu (laneW m))
def semImaxu (d a b : Spec) (m : BitVec 3) : AluSem := alu3 d a b (laneW m) (fnMaxu (laneW m))
def semIabs (d a : Spec) (m : BitVec 3) : AluSem := alu2 d a (laneW m) (fnAbs (laneW m))
def semIand (d a b : Spec) (m : BitVec 3) : AluSem := alu3 d a b (laneW m) (fnAnd (laneW m))
def semIor (d a b : Spec) (m : BitVec 3) : AluSem := alu3 d a b (laneW m) (fnOr (laneW m))
def semIxor (d a b : Spec) (m : BitVec 3) : AluSem := alu3 d a b (laneW m) (fnXor (laneW m))
def semIandn (d a b : Spec) (m : BitVec 3) : AluSem := alu3 d a b (laneW m) (fnAndn (laneW m))
def semShl (d a b : Spec) (m : BitVec 3) : AluSem := alu3 d a b (laneW m) (fnShl (laneW m))
def semShr (d a b : Spec) (m : BitVec 3) : AluSem := alu3 d a b (laneW m) (fnShr (laneW m))
def semSar (d a b : Spec) (m : BitVec 3) : AluSem := alu3 d a b (laneW m) (fnSar (laneW m))
def semRol (d a b : Spec) (m : BitVec 3) : AluSem := alu3 d a b (laneW m) (fnRol (laneW m))
def semClz (d a : Spec) (m : BitVec 3) : AluSem := alu2 d a (laneW m) (fnClz (laneW m))
def semPopc (d a : Spec) (m : BitVec 3) : AluSem := alu2 d a (laneW m) (fnPopc (laneW m))

/-! ### INTI (R316) and MOVL (R317) -/

/-- The immediate as a 32-bit lane. -/
def imm32 (i : BitVec 11) : Nat := wrap 32 (toSigned 11 i.toNat)

def semIaddi (d a : Spec) (i : BitVec 11) : AluSem := alu2 d a 32 fun x => x + imm32 i
def semAndi (d a : Spec) (i : BitVec 11) : AluSem := alu2 d a 32 fun x => x &&& imm32 i
def semOri (d a : Spec) (i : BitVec 11) : AluSem := alu2 d a 32 fun x => x ||| imm32 i
def semXori (d a : Spec) (i : BitVec 11) : AluSem := alu2 d a 32 fun x => x ^^^ imm32 i
def semShli (d a : Spec) (i : BitVec 11) : AluSem := alu2 d a 32 fun x => fnShl 32 x i.toNat
def semShri (d a : Spec) (i : BitVec 11) : AluSem := alu2 d a 32 fun x => fnShr 32 x i.toNat
def semSari (d a : Spec) (i : BitVec 11) : AluSem := alu2 d a 32 fun x => fnSar 32 x i.toNat
def semMovi (d : Spec) (i : BitVec 11) : AluSem :=
  { dst := d, srcs := [], eval := fun W _ _ => out1 (splat 32 (W / 32) (imm32 i)) }

def semMovl (d : Spec) (u : BitVec 32) : AluSem :=
  { dst := d, srcs := [], eval := fun W _ _ => out1 (splat 32 (W / 32) u.toNat) }
def semMovl0 (d : Spec) (u : BitVec 32) : AluSem := { dst := d, srcs := [], eval := fun _ _ _ => out1 u.toNat }
def semIaddl (d a : Spec) (u : BitVec 32) : AluSem := alu2 d a 32 fun x => x + u.toNat
def semAndl (d a : Spec) (u : BitVec 32) : AluSem := alu2 d a 32 fun x => x &&& u.toNat
def semOrl (d a : Spec) (u : BitVec 32) : AluSem := alu2 d a 32 fun x => x ||| u.toNat

/-! ### ICMP (R318) and SEL (R319) -/

/-- A lane mask. -/
def maskLane (w : Nat) (p : Bool) : Nat := if p then 2 ^ w - 1 else 0

def semIceq (d a b : Spec) (m : BitVec 3) : AluSem := alu3 d a b (laneW m) fun x y => maskLane (laneW m) (x == y)
def semIcne (d a b : Spec) (m : BitVec 3) : AluSem := alu3 d a b (laneW m) fun x y => maskLane (laneW m) (x != y)
def semIclt (d a b : Spec) (m : BitVec 3) : AluSem :=
  alu3 d a b (laneW m) fun x y => maskLane (laneW m) (toSigned (laneW m) x < toSigned (laneW m) y)
def semIcge (d a b : Spec) (m : BitVec 3) : AluSem :=
  alu3 d a b (laneW m) fun x y => maskLane (laneW m) (toSigned (laneW m) y ≤ toSigned (laneW m) x)
def semIcltu (d a b : Spec) (m : BitVec 3) : AluSem := alu3 d a b (laneW m) fun x y => maskLane (laneW m) (x < y)
def semIcgeu (d a b : Spec) (m : BitVec 3) : AluSem := alu3 d a b (laneW m) fun x y => maskLane (laneW m) (y ≤ x)

/-- The lane width of BITS and SEL (R319, R320). -/
def bitsW (m : Nat) : Nat := match m with | 0 => 32 | 1 => 16 | 2 => 8 | _ => 4

def semSel (d a b c : Spec) (m : BitVec 2) : AluSem :=
  { dst := d, srcs := [(a, 1), (b, 1), (c, 1)]
    eval := fun W _ vs =>
      let w := bitsW m.toNat
      out1 (buildLanes w (W / w) fun i => if lane w (arg vs 2) i ≠ 0 then lane w (arg vs 0) i else lane w (arg vs 1) i) }

/-! ### BITS (R320 to R322) -/

/-- The field position of a control lane (R321). -/
def bfPos (w c : Nat) : Nat := c % 2 ^ Nat.log2 w
/-- The field length of a control lane (R321). -/
def bfLen (w c : Nat) : Nat := c / 2 ^ Nat.log2 w % 2 ^ Nat.log2 w + 1

def semBfx (d a b : Spec) (m : BitVec 3) : AluSem :=
  alu3 d a b (bitsW m.toNat) fun x c => x / 2 ^ bfPos (bitsW m.toNat) c % 2 ^ bfLen (bitsW m.toNat) c

def semBfx2 (d a b : Spec) (m : BitVec 3) : AluSem :=
  { dst := d, srcs := [(a, 1), (b, 1)]
    eval := fun W _ vs =>
      let w := bitsW m.toNat
      out1 (buildLanes w (W / w) fun i =>
        let c := lane w (arg vs 1) i
        let hi := if i + 1 < W / w then lane w (arg vs 0) (i + 1) else 0
        (hi * 2 ^ w + lane w (arg vs 0) i) / 2 ^ bfPos w c % 2 ^ bfLen w c) }

def semBfi (d a b : Spec) (m : BitVec 3) : AluSem :=
  { dst := d, srcs := [(d, 1), (a, 1), (b, 1)]
    eval := fun W _ vs =>
      let w := bitsW m.toNat
      out1 (buildLanes w (W / w) fun i =>
        let c := lane w (arg vs 2) i
        let mk := (2 ^ bfLen w c - 1) * 2 ^ bfPos w c % 2 ^ w
        (lane w (arg vs 0) i &&& (2 ^ w - 1 - mk)) ||| (lane w (arg vs 1) i * 2 ^ bfPos w c &&& mk)) }

def semIota (d a : Spec) (m : BitVec 3) : AluSem :=
  { dst := d, srcs := [(a, 1)]
    eval := fun W _ vs =>
      let w := bitsW m.toNat
      out1 (buildLanes w (W / w) fun i => lane w (arg vs 0) 0 + i) }

def semShuf (d a b : Spec) (m : BitVec 3) : AluSem :=
  { dst := d, srcs := [(a, 1), (b, 1)]
    eval := fun W _ vs =>
      let w := bitsW m.toNat
      out1 (buildLanes w (W / w) fun i =>
        let j := lane w (arg vs 1) i
        if j < W / w then lane w (arg vs 0) j else 0) }

def semLane (d a b : Spec) (m : BitVec 3) : AluSem :=
  { dst := d, srcs := [(a, 1), (b, 1)]
    eval := fun W _ vs =>
      let w := bitsW m.toNat
      let k := lane 32 (arg vs 1) 0
      if W / w ≤ k then .error (tBounds k) else out1 (splat w (W / w) (lane w (arg vs 0) k)) }

def semPack (d a b : Spec) (m : BitVec 3) : AluSem :=
  { dst := d, srcs := [(a, 1), (b, 1)]
    eval := fun W _ vs =>
      let w := bitsW m.toNat
      let n := W / w
      out1 (buildLanes w n fun i =>
        if i < n / 2 then lane (2 * w) (arg vs 0) i else lane (2 * w) (arg vs 1) (i - n / 2)) }

def semUnpk (d a b : Spec) (m : BitVec 3) : AluSem :=
  { dst := d, srcs := [(a, 1), (b, 1)]
    eval := fun W _ vs =>
      let w := bitsW m.toNat
      let n := W / (2 * w)
      let h := if (arg vs 1).testBit 0 then n else 0
      out1 (buildLanes (2 * w) n fun i =>
        let x := lane w (arg vs 0) (h + i)
        if (arg vs 1).testBit 1 then wrap (2 * w) (toSigned w x) else x) }

/-! ### FP, FFMA, FUN, FCMP, FCVT (R303, R305, R323 to R328) -/

/-- The format of the FP, FFMA, FUN and FCMP groups (R323). -/
def fpFmt (f : BitVec 2) : FFmt := match f.toNat with | 0 => fF32 | 1 => fBF16 | _ => fF16

/-- Lane results joined into a register, their reports joined. -/
def joinLanes (w : Nat) (rs : List FRes) : AluOut :=
  { vals := [ofLanes w (rs.map (·.code))], rep := rs.foldl (fun r x => r.join x.rep) {} }

/-- An FP instruction: lane by lane, with the mode of each lane. -/
def fp3 (d a b : Spec) (f : BitVec 2) (m : Nat) (op : FFmt → RMode → Nat → Nat → FRes) : AluSem :=
  { dst := d, srcs := [(a, 1), (b, 1)]
    eval := fun W c vs =>
      let ff := fpFmt f
      let w := ff.width
      .ok (joinLanes w ((List.range (W / w)).map fun i =>
        op ff (modeOf c m i) (lane w (arg vs 0) i) (lane w (arg vs 1) i))) }

def opFadd (f : FFmt) (mode : RMode) (x y : Nat) : FRes :=
  countNF ((f.decode x).finite && (f.decode y).finite) f (addV f mode (f.decode x) (f.decode y))
def opFsub (f : FFmt) (mode : RMode) (x y : Nat) : FRes :=
  countNF ((f.decode x).finite && (f.decode y).finite) f (addV f mode (f.decode x) (f.decode y).negate)
def opFmul (f : FFmt) (mode : RMode) (x y : Nat) : FRes :=
  countNF ((f.decode x).finite && (f.decode y).finite) f (mulV f mode (f.decode x) (f.decode y))
def opFscale (f : FFmt) (mode : RMode) (x y : Nat) : FRes :=
  countNF (f.decode x).finite f (scaleV f mode (f.decode x) (toSigned f.width y))
def opFma (f : FFmt) (x y z : Nat) : FRes :=
  countNF ((f.decode x).finite && (f.decode y).finite && (f.decode z).finite) f (fmaV f (f.decode x) (f.decode y) (f.decode z))

def semFadd (d a b : Spec) (f : BitVec 2) (m : BitVec 3) : AluSem := fp3 d a b f m.toNat opFadd
def semFsub (d a b : Spec) (f : BitVec 2) (m : BitVec 3) : AluSem := fp3 d a b f m.toNat opFsub
def semFmul (d a b : Spec) (f : BitVec 2) (m : BitVec 3) : AluSem := fp3 d a b f m.toNat opFmul
def semFscale (d a b : Spec) (f : BitVec 2) (m : BitVec 3) : AluSem := fp3 d a b f m.toNat opFscale
def semFmin (d a b : Spec) (f : BitVec 2) : AluSem := alu3 d a b (fpFmt f).width (minMaxCode (fpFmt f) false)
def semFmax (d a b : Spec) (f : BitVec 2) : AluSem := alu3 d a b (fpFmt f).width (minMaxCode (fpFmt f) true)

def semFfma (d a b c : Spec) (f : BitVec 2) : AluSem :=
  { dst := d, srcs := [(a, 1), (b, 1), (c, 1)]
    eval := fun W _ vs =>
      let ff := fpFmt f
      let w := ff.width
      .ok (joinLanes w ((List.range (W / w)).map fun i =>
        opFma ff (lane w (arg vs 0) i) (lane w (arg vs 1) i) (lane w (arg vs 2) i))) }

/-- A FUN instruction (R327). -/
def semFun (d a : Spec) (f : BitVec 2) (op : Nat) : AluSem :=
  { dst := d, srcs := [(a, 1)]
    eval := fun W _ vs =>
      let ff := fpFmt f
      let w := ff.width
      .ok (joinLanes w ((List.range (W / w)).map fun i => funCode ff op (lane w (arg vs 0) i))) }

/-- Order of two codes: none when either is a NaN (R328). -/
def cmpCodes (f : FFmt) (x y : Nat) : Option Ordering :=
  match f.decode x, f.decode y with
  | .nan, _ | _, .nan => none
  | u, v => some (u.cmp v)

/-- An FCMP instruction (R328). -/
def semFcmp (d a b : Spec) (f : BitVec 2) (p : Option Ordering → Bool) : AluSem :=
  alu3 d a b (fpFmt f).width fun x y => maskLane (fpFmt f).width (p (cmpCodes (fpFmt f) x y))

/-- The class mask of a code (R305). -/
def classOf (f : FFmt) (x : Nat) : Nat :=
  match f.decode x with
  | .nan => 256
  | .inf s => if s then 1 else 128
  | .fin s m _ =>
    if m = 0 then (if s then 8 else 16)
    else if m < 2 ^ f.m then (if s then 4 else 32)
    else (if s then 2 else 64)

def semFclass (d a : Spec) (f : BitVec 2) : AluSem := alu2 d a (fpFmt f).width (classOf (fpFmt f))

/-- FCVT (R304): `s` source code, `t` destination code. -/
def semFcvt (d a : Spec) (s : BitVec 6) (t : BitVec 5) (m : BitVec 3) : AluSem :=
  { dst := d, srcs := [(a, 1)]
    eval := fun _ c vs =>
      match numFmt s.toNat, numFmt t.toNat with
      | some ns, some nt =>
        let ws := fmtBits s.toNat
        let wd := fmtBits t.toNat
        let n := 512 / max ws wd
        -- element i of a 3-bit row lies at bits [3i+2:3i]; the width max(3, w) never exceeds the register
        .ok (joinLanes wd ((List.range n).map fun i => convert nt (modeOf c m.toNat i) (ns.decode (lane ws (arg vs 0) i))))
      | _, _ => .error (tIllop 1) }

/-! ### BLK: BDOT, SCACC (R353, R354, R367, R368) -/

/-- The sum of exact products (sign, magnitude, exponent), in the unit of the least exponent of the non-zero ones. -/
def sumExact (ps : List (Bool × Nat × Int)) : Bool × Nat × Int :=
  ps.foldl (fun (s : Bool × Nat × Int) (p : Bool × Nat × Int) => addExact s.1 s.2.1 s.2.2 p.1 p.2.1 p.2.2) (false, 0, 0)

/-- The product of two exact values: `none` when it is a NaN or infinite. -/
def prodExact : Val → Val → Option (Bool × Nat × Int)
  | .fin n1 m1 e1, .fin n2 m2 e2 => some (n1 != n2, m1 * m2, e1 + e2)
  | _, _ => none

/-- All products, or none when some is not finite. -/
def allFinite : List (Option (Bool × Nat × Int)) → Option (List (Bool × Nat × Int))
  | [] => some []
  | none :: _ => none
  | some p :: ps => (allFinite ps).map (p :: ·)

/-- BlockSum of R353 with the report of R354: `bf16` selects the window of BF16 operands. -/
def blockSum (bf16 : Bool) (ps : List (Val × Val)) : FRes :=
  match allFinite (ps.map fun p => prodExact p.1 p.2) with
  | none =>
    let anyNan := ps.any fun p => p.1 == .nan || p.2 == .nan
    ⟨fF32.nanCode, ⟨if anyNan then 0 else flNV, 1, 0⟩⟩
  | some qs =>
    let qs :=
      if bf16 then
        let es := (qs.filter fun q => q.2.1 != 0).map fun q => (Nat.log2 q.2.1 : Int) + q.2.2
        match es with
        | [] => []
        | e0 :: rest =>
          let top := rest.foldl max e0
          qs.map fun q => (q.1, (splitAt q.2.1 q.2.2 (top - 126)).1, top - 126)
      else qs
    let (n, m, e) := sumExact qs
    if m = 0 then ⟨0, {}⟩ else countNF true fF32 (roundF fF32 .rne n m e)

/-- BDOT of an element format (R367). -/
def semBdot (d a b : Spec) (m : BitVec 3) (n : NumFmt) (w : Nat) : AluSem :=
  { dst := d, srcs := [(a, 1), (b, 1)]
    eval := fun W _ vs =>
      let bl := 8 * 2 ^ m.toNat
      .ok (joinLanes 32 ((List.range (W / w / bl)).map fun j =>
        blockSum false ((List.range bl).map fun i =>
          (n.decode (lane w (arg vs 0) (j * bl + i)), n.decode (lane w (arg vs 1) (j * bl + i)))))) }

/-- One lane of SCACC (R368). -/
def scaccLane (acc p sA sB : Nat) : FRes :=
  let t := opFmul fF32 .rne p sA
  let u := opFmul fF32 .rne t.code sB
  let v := opFadd fF32 .rne acc u.code
  { v with rep := (t.rep.join u.rep).join v.rep }

def semScacc (d a b : Spec) : AluSem :=
  { dst := d, srcs := [(d, 1), (a, 1), (b, 2)]
    eval := fun _ _ vs =>
      .ok (joinLanes 32 ((List.range 16).map fun i =>
        scaccLane (lane 32 (arg vs 0) i) (lane 32 (arg vs 1) i) (lane 32 (arg vs 2) i) (lane 32 (arg vs 3) i))) }

/-! ### QNT, DEQ, VLUT (R306, R329 to R334) -/

/-- The element formats of QNT and DEQ. -/
inductive QFmt where
  | e4m3
  | e5m2
  | e2m1
  | i8
  deriving DecidableEq, Repr

def QFmt.num : QFmt → NumFmt
  | .e4m3 => .flt fE4M3 | .e5m2 => .flt fE5M2 | .e2m1 => .flt fE2M1 | .i8 => .int ⟨8, true⟩
/-- Width of an element code (R331). -/
def QFmt.w : QFmt → Nat
  | .e2m1 => 4 | _ => 8
/-- emax of R306. -/
def QFmt.emax : QFmt → Int
  | .e4m3 => 8 | .e5m2 => 15 | .e2m1 => 2 | .i8 => 6
/-- The code of R306 for a block with a non-finite input. -/
def QFmt.nanCode : QFmt → Nat
  | .e4m3 => 0x7F | .e5m2 => 0x7E | _ => 0

/-- A zero of the sign of x (R306). -/
def QFmt.zero (q : QFmt) (neg : Bool) : Nat := match q with
  | .i8 => 0
  | .e2m1 => if neg then 8 else 0
  | _ => if neg then 128 else 0

/-- The greatest magnitude of a list of finite values, as magnitude and exponent; (0, 0) for none. -/
def amaxOf (vs : List Val) : Nat × Int :=
  vs.foldl (fun acc v => match v with
    | .fin _ m e => if cmpExact false acc.1 acc.2 false m e == .lt then (m, e) else acc
    | _ => acc) (0, 0)

/-- One block of R306: inputs with their element numbers, the extra value g of R332; scale, codes, report. -/
def qntBlock (q : QFmt) (c : RndCtx) (m : Nat) (xs : List (Nat × Val)) (g : Option Val) : Nat × List Nat × Rep :=
  let all := xs.map (·.2) ++ g.toList
  if all.any (fun v => !v.finite) then
    (0xFF, xs.map fun _ => q.nanCode, ⟨flNV, (xs.filter fun x => !x.2.finite).length, 0⟩)
  else
    let (am, ae) := amaxOf all
    if am = 0 then (0, xs.map fun x => q.zero x.2.neg, {})
    else
      let k0 : Int := (Nat.log2 am : Int) + ae - q.emax
      let under : Bool := k0 < -127
      let k : Int := if under then -127 else k0
      let rs := xs.map fun x => match x.2 with
        | .fin s mm e => convert q.num (if under then .rne else modeOf c m x.1) (.fin s mm (e - k))
        | _ => {}
      ((k + 127).toNat, rs.map (·.code), rs.foldl (fun r x => r.join x.rep) ⟨if under then flUS else 0, 0, 0⟩)

/-- Block size of the control of QNT and DEQ (R330): none for code 3. -/
def blockSize (ctl : Nat) : Option Nat := match ctl % 4 with | 0 => some 8 | 1 => some 16 | 2 => some 32 | _ => none

/-- QNT (R331, R332). -/
def semQnt (d a b : Spec) (m : BitVec 3) (q : QFmt) : AluSem :=
  { dst := d, srcs := [(a, 2), (b, 1)]
    eval := fun _ c vs =>
      let ctl := lane 32 (arg vs 2) 0
      match blockSize ctl with
      | none => .error (tBounds ctl)
      | some sz =>
        let x := fun j => fF32.decode (if j < 16 then lane 32 (arg vs 0) j else lane 32 (arg vs 1) (j - 16))
        let g := if ctl.testBit 8 then some (fF32.decode (lane 32 (arg vs 2) 1)) else none
        let blocks := (List.range (32 / sz)).map fun k =>
          qntBlock q c m.toNat ((List.range sz).map fun i => (k * sz + i, x (k * sz + i))) g
        let codes := ofLanes q.w (blocks.flatMap fun bl => bl.2.1)
        let scales := ofLanes 8 (blocks.map fun bl => bl.1)
        .ok { vals := [codes + scales * 2 ^ 256], rep := blocks.foldl (fun r bl => r.join bl.2.2) {} } }

/-- One element of DEQ (R333): scale code and element code. -/
def deqElem (q : QFmt) (sc code : Nat) : FRes :=
  if sc = 0xFF then ⟨fF32.nanCode, {}⟩
  else match q.num.decode code with
    | .nan => ⟨fF32.nanCode, {}⟩
    | .inf s => ⟨fF32.infCode s, {}⟩
    | .fin s m e => countNF true fF32 (roundF fF32 .rne s m (e + ((sc : Int) - 127)))

/-- DEQ (R331, R333). -/
def semDeq (d a b : Spec) (q : QFmt) : AluSem :=
  { dst := d, n := 2, srcs := [(a, 1), (b, 1)]
    eval := fun _ _ vs =>
      let ctl := lane 32 (arg vs 1) 0
      match blockSize ctl with
      | none => .error (tBounds ctl)
      | some sz =>
        let x := arg vs 0
        let rs := (List.range 32).map fun j => deqElem q (lane 8 x (32 + j / sz)) (lane q.w x j)
        .ok { vals := [ofLanes 32 ((rs.take 16).map (·.code)), ofLanes 32 ((rs.drop 16).map (·.code))]
              rep := rs.foldl (fun r z => r.join z.rep) {} } }

/-- VLUT (R334). -/
def semVlut (d a b : Spec) (f : FFmt) : AluSem :=
  { dst := d, srcs := [(a, 1), (b, 1)]
    eval := fun _ _ vs =>
      out1 (buildLanes f.width 16 fun i =>
        let ix := lane 32 (arg vs 0) i
        if ix ≤ 15 then
          let c := lane f.width (arg vs 1) ix
          if f.decode c == .nan then f.nanCode else c
        else 0) }

/-! ### RED: reductions (R276, R335 to R337) -/

/-- The element types of RED (R335): a float format, or the width of a signed integer type. -/
inductive RedTy where
  | flt (f : FFmt)
  | int (w : Nat)
  deriving DecidableEq, Repr

def redTy (m : Nat) : RedTy := match m with
  | 0 => .flt fF32 | 1 => .flt fBF16 | 2 => .flt fF16 | 3 => .int 32 | 4 => .int 16 | _ => .int 8

def RedTy.w : RedTy → Nat
  | .flt f => f.width
  | .int w => w

/-- A float code widened exactly to F32, every NaN canonical. -/
def widenF32 (f : FFmt) (c : Nat) : Nat := (convert (.flt fF32) .rne (f.decode c)).code

/-- Leaf of R336. -/
def RedTy.leaf (t : RedTy) (c : Nat) : Nat := match t with
  | .flt f => widenF32 f c
  | .int w => wrap 32 (toSigned w c)

/-- The combining operations of R276. -/
inductive CombOp where
  | add
  | max
  | min
  deriving DecidableEq, Repr

/-- Combine of R276 on F32 values: value and flags. -/
def combineF32 (op : CombOp) (a b : Nat) : FRes :=
  match op with
  | .add => addV fF32 .rne (fF32.decode a) (fF32.decode b)
  | .max => ⟨minMaxCode fF32 true a b, {}⟩
  | .min => ⟨minMaxCode fF32 false a b, {}⟩

/-- Combine of R276 on integers of `w` bits. -/
def combineInt (op : CombOp) (w : Nat) (signed : Bool) (a b : Nat) : Nat :=
  match op with
  | .add => (a + b) % 2 ^ w
  | .max => if signed then fnMax w a b else max a b
  | .min => if signed then fnMin w a b else min a b

/-- Combine of RED (R336). -/
def RedTy.combine (t : RedTy) (op : CombOp) (a b : FRes) : FRes :=
  match t with
  | .flt _ =>
    let r := combineF32 op a.code b.code
    ⟨r.code, (a.rep.join b.rep).join ⟨r.rep.flags, 0, 0⟩⟩
  | .int _ => ⟨combineInt op 32 true a.code b.code, {}⟩

/-- Adjacent siblings combined: one level of the tree of R276. -/
def pairUp {α : Type} (f : α → α → α) : List α → List α
  | x :: y :: r => f x y :: pairUp f r
  | r => r

/-- `n` levels of the tree. -/
def treeUp {α : Type} (f : α → α → α) : Nat → List α → List α
  | 0, l => l
  | n + 1, l => treeUp f n (pairUp f l)

/-- RSUM, RMAX and RMIN (R336). -/
def semRed (d a : Spec) (m : BitVec 3) (op : CombOp) : AluSem :=
  { dst := d, srcs := [(a, 1)]
    eval := fun W _ vs =>
      let t := redTy m.toNat
      let xs := lanes t.w (W / t.w) (arg vs 0)
      match treeUp (t.combine op) 7 (xs.map fun c => (⟨t.leaf c, {}⟩ : FRes)) with
      | r :: _ =>
        let rep : Rep := match t with
          | .int _ => {}
          | .flt f =>
            let fin := xs.all fun c => (f.decode c).finite
            if (fF32.decode r.code).finite == fin then r.rep else r.rep.join ⟨0, 1, 0⟩
        .ok { vals := [r.code % 2 ^ 32], rep := rep }
      | [] => out1 0 }

/-- The chain of SCAN (R337): the running F32 value or integer, whether every lane so far was finite. -/
def scanChain (t : RedTy) : Option Nat → Bool → List Nat → List FRes
  | _, _, [] => []
  | s, fin, c :: cs =>
    match t with
    | .int w =>
      let x := match s with | none => c % 2 ^ w | some s => (s + c) % 2 ^ w
      ⟨x, {}⟩ :: scanChain t (some x) fin cs
    | .flt f =>
      let fin := fin && (f.decode c).finite
      let x : FRes := match s with | none => ⟨widenF32 f c, {}⟩ | some s => combineF32 .add s (widenF32 f c)
      let y : FRes := if f.m = 23 then ⟨x.code, {}⟩
        else match fF32.decode x.code with
          | .fin n m e => roundF f .rne n m e
          | v => ⟨(convert (.flt f) .rne v).code, {}⟩
      let flags := x.rep.flags ||| y.rep.flags
      let nf := if (f.decode y.code).finite == fin then 0 else 1
      ⟨y.code, ⟨flags, nf, 0⟩⟩ :: scanChain t (some x.code) fin cs

def semScan (d a : Spec) (m : BitVec 3) : AluSem :=
  { dst := d, srcs := [(a, 1)]
    eval := fun W _ vs =>
      let t := redTy m.toNat
      .ok (joinLanes t.w (scanChain t none true (lanes t.w (W / t.w) (arg vs 0)))) }

/-! ### RED: sorting (R338 to R341) -/

/-- A sort element: its key bits, the rest of its key lane and its payload (R339). -/
structure Elem where
  lane : Nat
  pay : Nat
  deriving DecidableEq, Repr

/-- The key of an element is below another's (R338). -/
def keyLt (t : RedTy) (a b : Nat) : Bool :=
  match t with
  | .int w => toSigned w a < toSigned w b
  | .flt f => match f.decode (a % 2 ^ f.width), f.decode (b % 2 ^ f.width) with
    | .nan, _ => false
    | _, .nan => true
    | x, y => x.ltZ y

/-- Insertion behind every element that does not come after `x` (a stable sort). -/
def insertElem (after : Elem → Elem → Bool) (x : Elem) : List Elem → List Elem
  | [] => [x]
  | y :: r => if after y x then x :: y :: r else y :: insertElem after x r

/-- The stable order of R338: ascending, or descending. -/
def sortElems (t : RedTy) (desc : Bool) (l : List Elem) : List Elem :=
  let after := fun y x => if desc then keyLt t y.lane x.lane else keyLt t x.lane y.lane
  l.foldl (fun acc x => insertElem after x acc) []

/-- The key lane as written: a NaN key is the canonical NaN in the key's bits (R338). -/
def writtenLane (t : RedTy) (v : Nat) : Nat :=
  match t with
  | .int _ => v
  | .flt f => if f.decode (v % 2 ^ f.width) == .nan then v / 2 ^ f.width * 2 ^ f.width + f.nanCode else v

/-- The 16 elements of a pair (R339). -/
def pairElems (k p : Nat) : List Elem := (List.range 16).map fun i => ⟨lane 32 k i, lane 32 p i⟩

/-- A pair of registers from elements. -/
def elemsPair (t : RedTy) (l : List Elem) : List Nat :=
  [ofLanes 32 (l.map fun e => writtenLane t e.lane), ofLanes 32 (l.map fun e => e.pay)]

def semVsort (d a b : Spec) (m : BitVec 3) : AluSem :=
  { dst := d, n := 2, srcs := [(a, 2), (b, 1)]
    eval := fun _ _ vs =>
      let t := redTy m.toNat
      .ok { vals := elemsPair t (sortElems t ((arg vs 2).testBit 0) (pairElems (arg vs 0) (arg vs 1))) } }

def semVtopk (d a b : Spec) (m : BitVec 3) : AluSem :=
  { dst := d, n := 2, srcs := [(a, 2), (b, 1)]
    eval := fun _ _ vs =>
      let t := redTy m.toNat
      let k := arg vs 2 % 32
      if k = 0 ∨ 16 < k then .error (tBounds k)
      else .ok { vals := elemsPair t ((sortElems t (!(arg vs 2).testBit 8) (pairElems (arg vs 0) (arg vs 1))).take k) } }

/-- The merge of R341: `a` ties first; `n` elements. -/
def mergeElems (t : RedTy) : Nat → List Elem → List Elem → List Elem
  | 0, _, _ => []
  | _ + 1, [], [] => []
  | n + 1, x :: xs, [] => x :: mergeElems t n xs []
  | n + 1, [], y :: ys => y :: mergeElems t n [] ys
  | n + 1, x :: xs, y :: ys => if keyLt t y.lane x.lane then y :: mergeElems t n (x :: xs) ys else x :: mergeElems t n xs (y :: ys)

def semVmerge (d a b : Spec) (m : BitVec 3) : AluSem :=
  { dst := d, n := 4, srcs := [(a, 2), (b, 2)]
    eval := fun _ _ vs =>
      let t := redTy m.toNat
      let l := mergeElems t 32 (pairElems (arg vs 0) (arg vs 1)) (pairElems (arg vs 2) (arg vs 3))
      .ok { vals := elemsPair t (l.take 16) ++ elemsPair t (l.drop 16) } }

/-! ### The instructions by description -/

/-- The description of an arithmetic instruction; none for any other instruction. -/
def aluOf : Instr → Option AluSem
  | .iadd d a b m => some (semIadd d a b m) | .isub d a b m => some (semIsub d a b m)
  | .imul d a b m => some (semImul d a b m) | .imulh d a b m => some (semImulh d a b m)
  | .imulhu d a b m => some (semImulhu d a b m) | .imin d a b m => some (semImin d a b m)
  | .imax d a b m => some (semImax d a b m) | .iminu d a b m => some (semIminu d a b m)
  | .imaxu d a b m => some (semImaxu d a b m) | .iabs d a m => some (semIabs d a m)
  | .iand d a b m => some (semIand d a b m) | .ior d a b m => some (semIor d a b m)
  | .ixor d a b m => some (semIxor d a b m) | .iandn d a b m => some (semIandn d a b m)
  | .shl d a b m => some (semShl d a b m) | .shr d a b m => some (semShr d a b m)
  | .sar d a b m => some (semSar d a b m) | .rol d a b m => some (semRol d a b m)
  | .clz d a m => some (semClz d a m) | .popc d a m => some (semPopc d a m)
  | .iaddi d a i => some (semIaddi d a i) | .andi d a i => some (semAndi d a i) | .ori d a i => some (semOri d a i)
  | .xori d a i => some (semXori d a i) | .shli d a i => some (semShli d a i) | .shri d a i => some (semShri d a i)
  | .sari d a i => some (semSari d a i) | .movi d i => some (semMovi d i)
  | .bfx d a b m => some (semBfx d a b m) | .bfx2 d a b m => some (semBfx2 d a b m) | .bfi d a b m => some (semBfi d a b m)
  | .iota d a m => some (semIota d a m) | .shuf d a b m => some (semShuf d a b m) | .lane d a b m => some (semLane d a b m)
  | .pack d a b m => some (semPack d a b m) | .unpk d a b m => some (semUnpk d a b m)
  | .iceq d a b m => some (semIceq d a b m) | .icne d a b m => some (semIcne d a b m) | .iclt d a b m => some (semIclt d a b m)
  | .icge d a b m => some (semIcge d a b m) | .icltu d a b m => some (semIcltu d a b m) | .icgeu d a b m => some (semIcgeu d a b m)
  | .sel d a b c m => some (semSel d a b c m)
  | .movl d u => some (semMovl d u) | .movl0 d u => some (semMovl0 d u) | .iaddl d a u => some (semIaddl d a u)
  | .andl d a u => some (semAndl d a u) | .orl d a u => some (semOrl d a u)
  | .fadd d a b f m => some (semFadd d a b f m) | .fsub d a b f m => some (semFsub d a b f m)
  | .fmul d a b f m => some (semFmul d a b f m) | .fmin d a b f => some (semFmin d a b f)
  | .fmax d a b f => some (semFmax d a b f) | .fscale d a b f m => some (semFscale d a b f m)
  | .ffma d a b c f => some (semFfma d a b c f)
  | .fabs d a f => some (semFun d a f 0) | .fneg d a f => some (semFun d a f 1) | .frcp d a f => some (semFun d a f 2)
  | .frsq d a f => some (semFun d a f 3) | .fsqrt d a f => some (semFun d a f 4) | .fexp2 d a f => some (semFun d a f 5)
  | .flog2 d a f => some (semFun d a f 6) | .ftanh d a f => some (semFun d a f 7)
  | .fcvt d a s t m => some (semFcvt d a s t m)
  | .fceq d a b f => some (semFcmp d a b f fun o => o == some .eq)
  | .fclt d a b f => some (semFcmp d a b f fun o => o == some .lt)
  | .fcle d a b f => some (semFcmp d a b f fun o => o == some .lt || o == some .eq)
  | .fcun d a b f => some (semFcmp d a b f fun o => o == none)
  | .fcne d a b f => some (semFcmp d a b f fun o => o != some .eq)
  | .fcgt d a b f => some (semFcmp d a b f fun o => o == some .gt)
  | .fcge d a b f => some (semFcmp d a b f fun o => o == some .gt || o == some .eq)
  | .fclass d a f => some (semFclass d a f)
  | .bdotE2m1 d a b m => some (semBdot d a b m (.flt fE2M1) 4) | .bdotE4m3 d a b m => some (semBdot d a b m (.flt fE4M3) 8)
  | .bdotE5m2 d a b m => some (semBdot d a b m (.flt fE5M2) 8) | .bdotI8 d a b m => some (semBdot d a b m (.int ⟨8, true⟩) 8)
  | .scacc d a b => some (semScacc d a b)
  | .qntE4m3 d a b m => some (semQnt d a b m .e4m3) | .qntE5m2 d a b m => some (semQnt d a b m .e5m2)
  | .qntE2m1 d a b m => some (semQnt d a b m .e2m1) | .qntI8 d a b m => some (semQnt d a b m .i8)
  | .deqE4m3 d a b => some (semDeq d a b .e4m3) | .deqE5m2 d a b => some (semDeq d a b .e5m2)
  | .deqE2m1 d a b => some (semDeq d a b .e2m1) | .deqI8 d a b => some (semDeq d a b .i8)
  | .vlutBf16 d a b => some (semVlut d a b fBF16) | .vlutF32 d a b => some (semVlut d a b fF32)
  | .rsum d a m => some (semRed d a m .add) | .rmax d a m => some (semRed d a m .max) | .rmin d a m => some (semRed d a m .min)
  | .scan d a m => some (semScan d a m)
  | .vsort d a b m => some (semVsort d a b m) | .vtopk d a b m => some (semVtopk d a b m) | .vmerge d a b m => some (semVmerge d a b m)
  | _ => none

/-- The groups a recipe may use besides LD (R119). -/
def recipeAlu : Instr → Bool
  | .fcvt .. | .fceq .. | .fclt .. | .fcle .. | .fcun .. | .fcne .. | .fcgt .. | .fcge .. | .fclass ..
  | .bdotE2m1 .. | .bdotE4m3 .. | .bdotE5m2 .. | .bdotI8 .. | .scacc ..
  | .qntE4m3 .. | .qntE5m2 .. | .qntE2m1 .. | .qntI8 .. | .deqE4m3 .. | .deqE5m2 .. | .deqE2m1 .. | .deqI8 ..
  | .vlutBf16 .. | .vlutF32 .. | .rsum .. | .rmax .. | .rmin .. | .scan .. | .vsort .. | .vtopk .. | .vmerge .. => false
  | i => (aluOf i).isSome

end Sys2Proof.Machine
end

