-- ==== Sys2Proof/Machine/Flags.lean ====
section
/-! DEFINITION. The status of a frame (R313, R314, R297): how a report reaches a firing's flags and counts, and
how these reach FPSTAT, NFCOUNT and SATCOUNT. -/

namespace Sys2Proof.Machine

/-- Counts saturate at 2^32 - 1 (R297). -/
def satAdd (a b : Nat) : Nat := min (a + b) 4294967295

/-- A count modulo a field that saturates at 16 bits (R168, R421). -/
def satAdd16 (a b : Nat) : Nat := min (a + b) 65535

/-- A firing takes a report (R297): flags are ORed, counts are added. -/
def Firing.report (f : Firing) (r : Rep) : Firing :=
  { f with flags := f.flags ||| r.flags, nf := satAdd f.nf r.nf, sat := satAdd f.sat r.sat }

/-- A frame takes a report: at a commit (R314), or from an engine job (R298). -/
def Frame.report (x : Frame) (r : Rep) : Frame :=
  { x with fpstat := x.fpstat ||| r.flags, nf := satAdd x.nf r.nf, sat := satAdd x.sat r.sat }

/-- What a firing has gathered. -/
def Firing.rep (f : Firing) : Rep := ⟨f.flags, f.nf, f.sat⟩

end Sys2Proof.Machine
end

