-- ==== Sys2Proof/Config.lean ====
section
/-! DEFINITION. What an implementation fixes and what the manual leaves open: constants with no body, so
that a statement about the machine holds for every value they may have.  Each names its log entry. -/

namespace Sys2Proof.Config

/-- The free choice among the steps that may come next (R114, R212), one for each tick.  Log entry 2. -/
opaque choice : Nat → Nat

/-- Nanoseconds that pass during one step, one for each tick (R26).  Log entry 3. -/
opaque stepNanos : Nat → Nat

/-- Nanoseconds the install of a configuration took (R168), one for each installation.  Log entry 3. -/
opaque installNanos : Nat → Nat

/-- Nanoseconds the wake of a glade took (R126, R168).  Log entry 3. -/
opaque wakeNanos : Nat → Nat

/-- Device numbers that some device of the fabric holds (R19, R196).  Log entry 4. -/
opaque assigned : Nat → Bool

/-- The port whose link carries the traffic of a device, by device number (R196).  Log entry 4. -/
opaque portOf : Nat → Nat

/-- The device number that a management message assigns to this device, if it does (R19, R458).  Log entry 4. -/
opaque numberIn : BitVec 2048 → Option Nat

/-- The device number of a port's link partner (R457).  Log entry 4. -/
opaque partnerOf : Nat → Nat

/-- How far from its target a steering step leaves the device time, by tick (R457).  Log entry 3. -/
opaque steered : Nat → Nat

/-- The port, if any, on which a time-synchronisation flit leaves in a step, by tick (R457).  Log entry 3. -/
opaque timeSend : Nat → Option Nat

/-- The flit slots a port's partner grants when the link trains (R457).  Log entry 19. -/
opaque linkSlots : Nat → Nat

/-- What reaches the device from outside during a step, one for each tick: a host access, a flit, a reset and the like.  Log
entry 2. -/
opaque arrival : Nat → Option Instr

/-- How many of the write events that a load need not have seen each of its events sees, by tick and number of the event (R207, R212,
R219).  Log entry 63. -/
opaque readTime : Nat → Nat → Nat

/-- Which of the events of an access that may come next is performed, by tick (R212).  Log entry 63. -/
opaque element : Nat → Nat

/-- The operation of a reduction node beside the links, for a packet of a job that this device does not hold: 0 add, 1 max, 2 min, by
node and route signature (R278).  Log entry 16. -/
opaque nodeOp : Nat → Nat → Nat

/-- Correctable errors met during a step in SRAM and in HBM, one for each tick (R440, R453).  Log entry 15. -/
opaque corrections : Nat → Nat × Nat

/-- The cells whose SRAM repair leaves less than the full capacity, with the capacity left, one list for each reset (R453).  Log
entry 15. -/
opaque repairs : Nat → List (Nat × Nat)

/-- Bytes of HBM that a bring-up configures for the host to reach, one for each reset (R454).  Log entry 62. -/
opaque hdmBytes : Nat → Nat

/-- Whether the owner of a peer's location refuses an access of this device, by tick and address (R404).  Log entry 20. -/
opaque peerRefuses : Nat → Nat → Bool

/-- Whether an HBM stack has a spare row left, by stack and tick (R453).  Log entry 15. -/
opaque spareRow : Nat → Nat → Bool

/-- Whether Troira's policy grants a request, by request code and operand (R407).  Log entry 5. -/
opaque smcPolicy : Nat → Nat → Bool

/-- The signed answer to an SPDM request, by nonce and measurements: the digest and version of the firmware, and the world map, that is
region entries and secure blocks (R459).  Log entry 6. -/
opaque attest : Nat → Nat → Nat → List (Nat × Nat) → List Nat → Nat

/-- The bytes of a public key, by modulus and exponent, of which the device holds a digest (R459).  Log entry 6. -/
opaque keyBytes : Nat → Nat → List Nat

/-- The fused digest of the accepted public key (R459).  Log entry 6. -/
opaque keyDigest : Nat

/-- The fused rollback counter of the device (R459).  Log entry 6. -/
opaque rollback : Nat

/-- Module power in watts, one for each tick (R453).  Log entry 7. -/
opaque power : Nat → Nat

/-- Temperature of a basin's hottest point in units of 0.125 °C, by basin and tick (R453).  Log entry 7. -/
opaque temperature : Nat → Nat → Nat

/-- The cells for which the parking pool holds parking areas (R99, R171).  Log entry 18. -/
opaque parkingPool : Nat

/-- The private contents of a save area as a number of its bytes (R182), one for each CTXSV.  Log entry 8. -/
opaque freeBytes : Nat → Nat

/-- A 512-bit value the manual leaves open, one for each draw.  Log entry 8. -/
opaque freeReg : Nat → BitVec 512

/-- A 64-bit value the manual leaves open, one for each draw.  Log entry 8. -/
opaque freeWord : Nat → BitVec 64

/-- The network-owned route field of a token's header (R93), one for each draw.  Log entry 8. -/
opaque routeField : Nat → BitVec 16

/-- The granule, if any, that an uncorrectable error strikes during a step, one for each tick (R440).  Log entry 15. -/
opaque upset : Nat → Option Nat

/-- The row and column, if any, at which a corruption check of the block streamed during a step finds a mismatch, one for
each tick (R362, R363).  Log entry 15. -/
opaque mismatch : Nat → Option (Nat × Nat)

/-- Whether the two adders of a reduction node differ during a step, one for each tick (R443).  Log entry 15. -/
opaque adderFault : Nat → Bool

/-- The live tuples that the shards of a relation on other devices hold for a value of its index column, by descriptor address,
value and tick (R373).  Log entry 17. -/
opaque peerTuples : Nat → Nat → Nat → List (BitVec 256)

end Sys2Proof.Config
end

