-- ==== Sys2Proof/Machine/Memory.lean ====
section
/-! DEFINITION. Physical memory: the map of R194 to R197, bytes and bits, error-correcting granules (R440), the black box
(R444), and worlds (R402 to R405). -/

namespace Sys2Proof.Machine

/-! ### The physical map (R194 to R197) -/

/-- What a physical address names (R194). -/
inductive Place where
  | sram
  | hbm
  | host
  /-- The peer window: device number and offset in its map. -/
  | peer (dev off : Nat)
  | hole
  deriving DecidableEq, Repr

def sramEnd : Nat := 0x60000000
def hbmBase : Nat := 0x10000000000
def hbmEnd : Nat := 0x1C000000000
def hostBase : Nat := 0x20000000000
def hostEnd : Nat := 0x60000000000
def peerBase : Nat := 0x2000000000000000

/-- The place of a physical address (R194). -/
def placeOf (pa : Nat) : Place :=
  if pa < sramEnd then .sram
  else if hbmBase ≤ pa ∧ pa < hbmEnd then .hbm
  else if hostBase ≤ pa ∧ pa < hostEnd then .host
  else if peerBase ≤ pa ∧ pa < 2 * peerBase then .peer (bits pa 43 18) (pa % 2 ^ 43)
  else .hole

/-- An address of this device's SRAM window or HBM range. -/
def isLocal (pa : Nat) : Bool := match placeOf pa with
  | .sram | .hbm => true
  | _ => false

/-- The memory tile of an SRAM address, as grove*16+t (R195). -/
def tileOf (pa : Nat) : Nat := pa / 0x18000

/-- The owner of a location (R197, R209): memory tiles 0 to 16383, HBM base dies 16384 to 16395, the host
20000, and a peer device from 30000 on. -/
def ownerOf (pa : Nat) : Nat := match placeOf pa with
  | .sram => tileOf pa
  | .hbm => 16384 + (pa - hbmBase) / 0x1000000000
  | .host => 20000
  | .peer d _ => 30000 + d
  | .hole => 20001

/-- The basin of a grove (R8). -/
def basinOfGrove (n : Nat) : Nat := n / 32 / 16 * 2 + n % 32 / 16

/-- The basin of a unit: of its grove, or of its core (R16, R157). -/
def basinOfUnit (u : Nat) : Nat := if u < 1024 then basinOfGrove u else (u - 1024) / 4

/-- The basin of an owner on this device (R17, R195). -/
def basinOfPa (pa : Nat) : Nat := match placeOf pa with
  | .sram => basinOfGrove (tileOf pa / 16)
  | .hbm => (pa - hbmBase) / 0x1000000000 / 3
  | _ => 0

/-! ### Bytes and bits (R2) -/

/-- The byte at a physical address; log entry 10: a byte nothing has written is 0. -/
def memByte (s : State) (pa : Nat) : Byte := tget 0 s.mem pa

/-- Write one byte. -/
def setByte (s : State) (pa : Nat) (b : Byte) : State := { s with mem := tset 0 s.mem pa b }

/-- `n` bytes from `pa` on, little-endian (R2). -/
def readNat (s : State) (pa : Nat) : Nat → Nat
  | 0 => 0
  | n + 1 => (memByte s pa).toNat + 256 * readNat s (pa + 1) n

/-- Write `n` bytes from `pa` on, little-endian (R2). -/
def writeNat (s : State) (pa : Nat) : Nat → Nat → State
  | 0, _ => s
  | n + 1, v => writeNat (setByte s pa (BitVec.ofNat 8 v)) (pa + 1) n (v / 256)

/-- A 64-bit word. -/
def readWord (s : State) (pa : Nat) : Nat := readNat s pa 8

/-- Write a 64-bit word. -/
def writeWord (s : State) (pa v : Nat) : State := writeNat s pa 8 v

/-- The bytes that bits `[b, b+len)` touch: their number. -/
def byteSpan (b len : Nat) : Nat := (b % 8 + len + 7) / 8

/-- `len` bits from bit address `b` on (R199). -/
def readBits (s : State) (b len : Nat) : Nat := (readNat s (b / 8) (byteSpan b len)) >>> (b % 8) % 2 ^ len

/-- Write `len` bits at bit address `b`; the other bits of the bytes keep their value (R208). -/
def writeBits (s : State) (b len v : Nat) : State :=
  let n := byteSpan b len
  let old := readNat s (b / 8) n
  let hi := old >>> (b % 8 + len)
  let lo := old % 2 ^ (b % 8)
  writeNat s (b / 8) n (lo + (v % 2 ^ len) <<< (b % 8) + hi <<< (b % 8 + len))

/-! ### The black box (R444) -/

/-- Record an event in the black box of a basin; only the last 4,096 are kept (R444). -/
def bboxEvent (s : State) (basin kind cause detail grove cell asn frame d0 d1 : Nat) : State :=
  let w1 := kind * 2 ^ 56 + cause % 256 * 2 ^ 48 + detail % 256 * 2 ^ 40 + grove % 1024 * 2 ^ 30 + cell % 64 * 2 ^ 24 +
    asn % 256 * 2 ^ 16 + frame % 1024
  let e : BitVec 256 := BitVec.ofNat 256 (s.timens.toNat + w1 * 2 ^ 64 + d0 % 2 ^ 64 * 2 ^ 128 + d1 % 2 ^ 64 * 2 ^ 192)
  { s with bbox := tmod {} s.bbox basin fun b => { seq := b.seq + 1, events := tset 0 b.events (b.seq % 4096) e } }

/-! ### Error-correcting granules (R440, R441) -/

/-- The granule of a location of this device: start and bytes (R440). -/
def granuleOf (pa : Nat) : Option (Nat × Nat) := match placeOf pa with
  | .sram => some (pa / 32 * 32, 32)
  | .hbm => some (pa / 64 * 64, 64)
  | _ => none

/-- The byte lies in a granule with an uncorrectable error. -/
def poisoned (s : State) (pa : Nat) : Bool := match granuleOf pa with
  | some (g, _) => s.poison.contains g
  | none => false

/-- Some byte of `n` from `pa` on lies in a granule with an uncorrectable error. -/
def poisonedRange (s : State) (pa n : Nat) : Bool :=
  s.poison.any fun g => match granuleOf g with
    | some (h, sz) => h < pa + n && pa < h + sz
    | none => false

/-- Some bit of `[b, b+len)` lies in such a granule. -/
def poisonedBits (s : State) (b len : Nat) : Bool := poisonedRange s (b / 8) (byteSpan b len)

/-! ### Worlds (R402 to R405) -/

/-- The key of a block: kind and index (R402). -/
def blockKey (kind idx : Nat) : Nat := kind * 65536 + idx

/-- The block is secure. -/
def blockSecure (s : State) (kind idx : Nat) : Bool := tget false s.blocks (blockKey kind idx)

/-- The bytes a region entry covers: first and number (R405). -/
def regionBytes (w : Word) : Nat × Nat :=
  let x := w.toNat
  let first := bits x 0 20
  let count := bits x 20 20
  if bit x 61 then (hbmBase + first * 0x200000, count * 0x200000) else (first * 0x10000, count * 0x10000)

/-- A region entry covers the address. -/
def regionCovers (w : Word) (pa : Nat) : Bool :=
  bit w.toNat 63 && (regionBytes w).1 ≤ pa && pa < (regionBytes w).1 + (regionBytes w).2

/-- A byte is secure (R404). -/
def byteSecure (s : State) (pa : Nat) : Bool :=
  (s.regions.any fun e => bit e.2.toNat 62 && regionCovers e.2 pa) ||
  (match placeOf pa with
    | .sram => blockSecure s 1 (tileOf pa)
    | _ => false)

/-- Some byte of `n` from `pa` on is secure: a secure region or a secure tile meets the range (R404). -/
def anySecure (s : State) (pa n : Nat) : Bool :=
  (s.regions.any fun e => bit e.2.toNat 62 && bit e.2.toNat 63 &&
    decide ((regionBytes e.2).1 < pa + n) && decide (pa < (regionBytes e.2).1 + (regionBytes e.2).2)) ||
  (match placeOf pa with
    | .sram => (List.range (tileOf (pa + n - 1) + 1 - tileOf pa)).any fun i => blockSecure s 1 (tileOf pa + i)
    | _ => false)

/-! ### The peer window (R19, R196) -/

/-- An address with the own device number is the same offset of this device where the offset lies in its SRAM window or HBM
range; any other is the window's address still, and refused there (R196). -/
def canonPa (s : State) (pa : Nat) : Nat := match placeOf pa with
  | .peer d off => if s.devnum = some d && isLocal off then off else pa
  | _ => pa

/-- Some device of the fabric holds the number, this device takes part in the fabric, and the port that leads to it
is up (R19, R196, R442). -/
def peerReach (s : State) (d : Nat) : Bool :=
  s.devnum.isSome && Config.assigned d && (tget {} s.links (Config.portOf d % 32)).up

end Sys2Proof.Machine
end

