-- ==== Sys2Proof/Machine/Translate.lean ====
section
/-! DEFINITION. Translation (R409 to R416): page walks, the streams' entries and first-level buffers, the checks of
an access (R193, R194, R196, R197, R204 to R206, R403, R413), and address ranges (R201). -/

namespace Sys2Proof.Machine

/-! ### How a part of an instruction ends -/

/-- Why an instruction does not complete now: it traps; it waits; or the machine makes the given step first
(a recipe replay, a translation miss on its way to the walker) and the instruction is tried again. -/
inductive Stop where
  | trap (t : Trap)
  | stall
  | redo (s : State)
  deriving Repr

/-- The result of a part of an instruction. -/
abbrev R (α : Type) := Except Stop α

/-- Trap with a cause and detail. -/
def trapR {α : Type} (cause : Nat) (detail : Nat := 0) (addr : Nat := 0) (aux : Nat := 0) : R α :=
  .error (.trap { cause := cause, detail := detail, addr := addr, aux := aux })

/-- Trap with ILLOP. -/
def illop {α : Type} (detail : Nat := 0) : R α := .error (.trap (tIllop detail))

/-- Trap with BOUNDS and the refused value. -/
def boundsR {α : Type} (v : Nat) : R α := .error (.trap (tBounds v))

/-- Trap unless the condition holds. -/
def guardR (p : Bool) (t : Trap) : R Unit := if p then .ok () else .error (.trap t)

/-- A trap as a stop. -/
def liftTrap {α : Type} : Except Trap α → R α
  | .ok a => .ok a
  | .error t => .error (.trap t)

def cause (c : Nat) (detail : Nat := 0) (addr : Nat := 0) (aux : Nat := 0) : Trap :=
  { cause := c, detail := detail, addr := addr, aux := aux }

def dBARRIERPAGE : Nat := 1
def dWORLD : Nat := 2
def dCONST : Nat := 3
def dPAGE : Nat := 4
def dRANGE : Nat := 5
def dMODE : Nat := 6

/-! ### Page walks (R409 to R413) -/

/-- A table address the walker may read (R413). -/
def tableOk (pa n : Nat) : Bool := isLocal pa && isLocal (pa + n - 1)

/-- Bits of a table entry that must be 0 (R412). -/
def pteReserved (e : Nat) : Bool := bits e 62 2 != 0 || bit e 7

/-- The physical address an entry holds. -/
def pteAddr (e : Nat) : Nat := bits e 8 54 * 256

/-- Index, log2 page size and next table's alignment of a level (R411). -/
def levelIndex (level va : Nat) : Nat := match level with
  | 0 => bits va 48 8 | 1 => bits va 39 9 | 2 => bits va 30 9 | 3 => bits va 21 9 | _ => bits va 16 5
def levelShift (level : Nat) : Nat := match level with | 2 => 30 | 3 => 21 | _ => 16
def levelAlign (level : Nat) : Nat := match level with | 0 => 2048 | 4 => 256 | _ => 4096

/-- The walkers read in the supervisor's world (R413): the secure one when some supervisor core is secure (log entry 11). -/
def walkerSecure (s : State) : Bool := (List.range 16).any fun i => blockSecure s 6 i

/-- The 64-bit table entry at an address, for a walk of `va`: TRANSL outside the device's memory (R413), PERM for a secure
byte that the walker's world does not reach (R403), ECCUNC in an uncorrectable granule (R440). -/
def tableWord (s : State) (va at_ : Nat) : Except Trap Nat :=
  if !tableOk at_ 8 then .error (cause cTRANSL 0 va)
  else if anySecure s at_ 8 && !walkerSecure s then .error (cause cPERM dWORLD va)
  else if poisonedRange s at_ 8 then .error (cause cECCUNC 0 va)
  else .ok (readWord s at_)

/-- A walk from a level on; `n` levels are left (R411 to R413). -/
def walkFrom (s : State) (va : Nat) : Nat → Nat → Nat → Except Trap (Nat × Nat × Nat)
  | 0, _, _ => .error (cause cTRANSL 0 va)
  | n + 1, level, table =>
    match tableWord s va (table + 8 * levelIndex level va) with
    | .error t => .error t
    | .ok e =>
      if !bit e 0 || pteReserved e then .error (cause cTRANSL 0 va)
      else if bit e 1 then
        if level < 2 ∨ pteAddr e % 2 ^ levelShift level ≠ 0 then .error (cause cTRANSL 0 va)
        else .ok (pteAddr e, levelShift level, bits e 2 5)
      else
        if level = 4 ∨ bits e 2 5 ≠ 0 ∨ pteAddr e % levelAlign (level + 1) ≠ 0 then .error (cause cTRANSL 0 va)
        else walkFrom s va n (level + 1) (pteAddr e)

/-- A walk of an address in an address space: the entry it gives, or the fault it meets. -/
def walkAt (s : State) (asn va : Nat) (secure : Bool) : Except Trap TlbEntry :=
  match tableWord s va (s.ttbase.toNat + 8 * asn) with
  | .error t => .error t
  | .ok r =>
    if !bit r 63 || bits r 0 8 != 0 || bits r 8 3 != 0 then .error (cause cTRANSL 0 va)
    else match walkFrom s va 5 0 (bits r 8 54 * 256) with
      | .error t => .error t
      | .ok (pa, sh, fl) =>
        .ok { asn := asn, secure := secure, vpage := va / 2 ^ sh * 2 ^ sh, ppage := pa, size := 2 ^ sh, flags := fl, rootSecure := bit r 62 }

/-- The entry a walk gives, if it gives one. -/
def walk (s : State) (asn va : Nat) (secure : Bool) : Option TlbEntry := (walkAt s asn va secure).toOption

/-- The entries of a table of `n` that a walk may find in force: those that memory lists and the walker may read. -/
def listedWords (s : State) (table n : Nat) : List Nat :=
  (s.mem.filter fun c => table ≤ c.1 && c.1 < table + 8 * n).foldl (fun l c =>
    let a := c.1 / 8 * 8
    if l.head? = some a then l else a :: l) [] |>.filterMap fun a => (tableWord s 0 a).toOption

/-- A page that starts at a physical address holds a byte of a range of this device: there, or in this device's own peer window (R196). -/
def pageMeets (s : State) (page size pa len : Nat) : Bool :=
  let at_ := fun (lo : Nat) => page < lo + len && lo < page + size
  at_ pa || s.devnum.any fun d => at_ (peerBase + d * 2 ^ 43 + pa)

/-- Entries of a table of a level (R411). -/
def levelEntries (level : Nat) : Nat := if level = 0 then 256 else if level = 4 then 32 else 512

/-- A leaf with the BARRIER attribute that a walk from a table of some level reaches maps a byte of a physical range; `n` levels are
left. -/
def barLeaf (s : State) (pa len : Nat) : Nat → Nat → Nat → Bool
  | 0, _, _ => false
  | n + 1, level, table => (listedWords s table (levelEntries level)).any fun e =>
    bit e 0 && !pteReserved e &&
      (if bit e 1 then 2 ≤ level && pteAddr e % 2 ^ levelShift level == 0 && bit e 6 && pageMeets s (pteAddr e) (2 ^ levelShift level) pa len
       else level < 4 && bits e 2 5 == 0 && pteAddr e % levelAlign (level + 1) == 0 && barLeaf s pa len n (level + 1) (pteAddr e))

/-- A physical range touches a barrier page: a page that some address space, or an entry still held, maps with the BARRIER attribute
(R203). -/
def onBarrierPage (s : State) (pa len : Nat) : Bool :=
  (s.tlbs.any fun t => t.2.any fun e => bit e.flags 4 && pageMeets s e.ppage e.size pa len) ||
  (listedWords s s.ttbase.toNat 256).any fun r =>
    bit r 63 && bits r 0 8 == 0 && bits r 8 3 == 0 && barLeaf s pa len 5 0 (bits r 8 54 * 256)

/-- Flags of an entry: R, W, X, U, BAR (bits [6:2] of R412). -/
def TlbEntry.canRead (e : TlbEntry) : Bool := bit e.flags 0
def TlbEntry.canWrite (e : TlbEntry) : Bool := bit e.flags 1
def TlbEntry.canFetch (e : TlbEntry) : Bool := bit e.flags 2
def TlbEntry.user (e : TlbEntry) : Bool := bit e.flags 3
def TlbEntry.bar (e : TlbEntry) : Bool := bit e.flags 4

/-- The entry maps the address for the space and world (R414). -/
def TlbEntry.maps (e : TlbEntry) (asn va : Nat) (secure : Bool) : Bool :=
  e.asn == asn && e.secure == secure && e.vpage ≤ va && va < e.vpage + e.size

/-! ### Streams and buffers (R414) -/

/-- The holders of entries: first-level buffer of a grove `n` (192 entries) or a core `1024 + core`; then one entry for
each cell, memory-node context, stream-engine port, controller and edge streamer. -/
def bufferKey (grove : Nat) : Nat := grove
def streamCell (c : Nat) : Nat := 0x10000 + c
def streamNode (c ctx : Nat) : Nat := 0x100000 + c * 8 + ctx
def streamPort (grove port : Nat) : Nat := 0x200000 + grove * 4 + port
def streamCtl (u : Nat) : Nat := 0x300000 + u
def streamEdge (port : Nat) : Nat := 0x400000 + port

/-- A stream of accesses: its own entry and the buffer behind it. -/
structure Stream where
  key : Nat
  buf : Nat
  deriving DecidableEq, Repr

/-- The entry that a stream uses: its own, or one of its buffer (R414). -/
def tlbFind (s : State) (st : Stream) (asn va : Nat) (secure : Bool) : Option TlbEntry :=
  match (tget [] s.tlbs st.key).find? fun e => e.maps asn va secure with
  | some e => some e
  | none => (tget [] s.tlbs st.buf).find? fun e => e.maps asn va secure

/-- The stream's own entry becomes `e` (R414). -/
def tlbOwn (s : State) (st : Stream) (e : TlbEntry) : State := { s with tlbs := tset [] s.tlbs st.key [e] }

/-- A walked entry enters the buffer, the oldest of 192 leaving. -/
def tlbInsert (s : State) (buf : Nat) (e : TlbEntry) : State :=
  { s with tlbs := tmod [] s.tlbs buf fun l => (e :: l.filter fun x => !(x.asn == e.asn && x.secure == e.secure && x.vpage == e.vpage)).take 192 }

/-! ### The checks of an access -/

/-- A word of the continuation record, and its world (R50). -/
def Cfg.w (c : Cfg) (k : Nat) : Nat := (c.words.getD k 0).toNat
def Cfg.secure (c : Cfg) : Bool := bit (c.w 2) 43

/-- Kinds of access. -/
inductive Acs where
  | read
  | write
  | atomic
  | fetch
  /-- A BAR instruction that reads, or that writes (R264). -/
  | barRead
  | barWrite
  /-- The destination of a copy or checkpoint. -/
  | copyDst
  /-- The region that a matrix command reads (R346). -/
  | mtxSrc
  deriving DecidableEq, Repr

def Acs.writes : Acs → Bool
  | .write | .atomic | .barWrite | .copyDst => true
  | _ => false

/-- The parts of `n` bytes from `va` on that lie in one 64 KiB page each: start and bytes. -/
def pageParts (va n : Nat) : List (Nat × Nat) :=
  if n = 0 then []
  else (List.range ((va + n - 1) / 65536 + 1 - va / 65536)).map fun i =>
    let p := (va / 65536 + i) * 65536
    let lo := max va p
    (lo, min (va + n) (p + 65536) - lo)

/-- The physical ranges of a virtual range as far as it is mapped, without permission checks; there are no bytes from 2^56 on
(R199). -/
def mappedRange (s : State) (asn : Nat) (secure : Bool) (va n : Nat) : List (Nat × Nat) :=
  (pageParts va (min (va + n) (2 ^ 56) - va)).filterMap fun p =>
    (walk s asn p.1 secure).map fun e => (canonPa s (e.ppage + (p.1 - e.vpage)), p.2)

/-- A physical byte lies in a CONST record's region of an installed configuration (R124): `consts` holds the regions' virtual
ranges, and the pages mapped there at the time of the check count.  That a region follows a later change of its mapping is the
model's choice: log entry 54. -/
def constAt (s : State) (pa n : Nat) : Bool :=
  s.cfgs.any fun c => c.consts.any fun r => (mappedRange s c.spaceAsn c.secure r.1 r.2).any fun q => q.1 < pa + n && pa < q.1 + q.2

/-- The checks of `n` bytes at `va` against an entry, in this order: a hole or a misplaced BARRIER attribute
(R194, R205); page permission (R413); the space's and the bytes' world (R403); the peer window and the host range
(R196, R197, and the peer's own check of a normal access, R404); barrier pages (R204, R264); CONST regions (R124).  The order of
the PERM checks is the model's: log entry 12. -/
def checkEntry (s : State) (src : Src) (k : Acs) (va n : Nat) (e : TlbEntry) : Except Trap Nat :=
  let pa := canonPa s (e.ppage + (va - e.vpage))
  let pl := placeOf pa
  if pl = .hole then .error (cause cTRANSL 0 va)
  else if e.bar && !isLocal pa then .error (cause cTRANSL 0 va)
  else if (match k with | .fetch => !e.canFetch | .barRead => !e.canRead | k => if k.writes then !e.canWrite else !e.canRead) then
    .error (cause cPERM dPAGE va)
  else if src.user && !e.user then .error (cause cPERM dPAGE va)
  else if e.rootSecure && !src.secure then .error (cause cPERM dWORLD va)
  else if anySecure s pa n && !src.secure then .error (cause cPERM dWORLD va)
  else match pl with
    | .peer d off =>
      if !isLocal off then .error (cause cPERM dRANGE va)
      else if k = .barRead ∨ k = .barWrite then .error (cause cPERM dBARRIERPAGE va)
      else if !peerReach s d then .error (cause cLINK 0 va)
      else if !src.secure && Config.peerRefuses s.tick pa then .error (cause cPERM dWORLD va)
      else if k.writes && constAt s pa n then .error (cause cPERM dCONST va)
      else .ok pa
    | .host =>
      if k = .atomic then .error (cause cPERM dRANGE va)
      else if k = .barRead ∨ k = .barWrite then .error (cause cPERM dBARRIERPAGE va)
      else if k.writes && constAt s pa n then .error (cause cPERM dCONST va)
      else .ok pa
    | _ =>
      if (k = .barRead ∨ k = .barWrite) && !e.bar then .error (cause cPERM dBARRIERPAGE va)
      else if (k = .write ∨ k = .atomic ∨ k = .copyDst ∨ k = .mtxSrc) && e.bar then .error (cause cPERM dBARRIERPAGE va)
      else if k.writes && constAt s pa n then .error (cause cPERM dCONST va)
      else .ok pa

/-- Translate and check by a walk, as an engine's commands and jobs do (R256, R415). -/
def walkCheck (s : State) (src : Src) (k : Acs) (va n : Nat) : Except Trap Nat :=
  if 2 ^ 56 ≤ va then .error (cause cTRANSL 0 va)
  else match walkAt s src.asn va src.secure with
    | .error t => .error t
    | .ok e => checkEntry s src k va n e

/-- Translate and check an element of an engine's job through the entries of its stream (R414, R415): a miss in the stream's
own entry and in the buffer behind it is walked, and the entry enters both. -/
def jobTranslate (s : State) (st : Stream) (src : Src) (k : Acs) (va n : Nat) : Except Trap (Nat × State) :=
  if 2 ^ 56 ≤ va then .error (cause cTRANSL 0 va)
  else match tlbFind s st src.asn va src.secure with
    | some e => (checkEntry s src k va n e).map fun pa => (pa, tlbOwn s st e)
    | none => match walkAt s src.asn va src.secure with
      | .error t => .error t
      | .ok e => (checkEntry s src k va n e).map fun pa => (pa, tlbOwn (tlbInsert s st.buf e) st e)

/-- The basin of the walker behind a buffer (R414). -/
def walkerOf (buf : Nat) : Nat := basinOfUnit buf

/-- Walks that a basin's walker holds in flight. -/
def walksAt (s : State) (basin : Nat) : Nat :=
  (s.work.filter fun w => match w with | .walk h _ _ _ => walkerOf h == basin | _ => false).length

/-- Translate and check through a stream's entries (R414): a miss whose walk succeeds sends the walk on its way, when the
basin's walker holds fewer than 32, and the access is tried again. -/
def translate (s : State) (st : Stream) (src : Src) (k : Acs) (va n : Nat) : R (Nat × TlbEntry) :=
  if 2 ^ 56 ≤ va then trapR cTRANSL 0 va
  else match tlbFind s st src.asn va src.secure with
    | some e => match checkEntry s src k va n e with
      | .ok pa => .ok (pa, e)
      | .error t => .error (.trap t)
    | none => match walkAt s src.asn va src.secure with
      | .error t => .error (.trap t)
      | .ok _ =>
        let w := Work.walk st.buf src.asn va src.secure
        if s.work.contains w || decide (32 ≤ walksAt s (walkerOf st.buf)) then .error .stall
        else .error (.redo { s with work := s.work ++ [w] })

/-! ### Element addressing (R199) -/

/-- Decoded fields of a buffer record (R198). -/
structure Rec where
  round : Nat
  const : Bool
  nf0 : Bool
  transpose : Bool
  zorder : Bool
  bounds : Nat
  base : Nat
  extent1 : Nat
  extent0 : Nat
  stride1 : Int
  stride0 : Int
  ztile : Nat
  seed : Nat
  seq : Nat
  place : Nat
  rsv : Nat
  fmt : Nat
  deriving DecidableEq, Repr

/-- The fields of a record (R198). -/
def recOf (w : BitVec 256) : Rec :=
  let x := w.toNat
  { round := bits x 62 2, const := bit x 61, nf0 := bit x 60, transpose := bit x 59, zorder := bit x 58, bounds := bits x 56 2
    base := bits x 0 56, extent1 := bits x 96 32, extent0 := bits x 64 32
    stride1 := toSigned 32 (bits x 160 32), stride0 := toSigned 32 (bits x 128 32)
    ztile := bits x 252 4, seed := bits x 228 24, seq := bits x 212 16, place := bits x 200 12, rsv := bits x 197 3, fmt := bits x 192 5 }

def Rec.bits (r : Rec) : Nat := fmtBits r.fmt

/-- The record's element count N (R199). -/
def Rec.count (r : Rec) : Nat := r.extent0 * r.extent1

/-- Bit `k` of x to bit 2k, of y to bit 2k+1 (R199), for `n` bits. -/
def interleave : Nat → Nat → Nat → Nat
  | 0, _, _ => 0
  | n + 1, x, y => x % 2 + 2 * (y % 2) + 4 * interleave n (x / 2) (y / 2)

/-- Where an element lies. -/
inductive Elem1 where
  | outside
  | at_ (bit : Nat)
  deriving DecidableEq, Repr

/-- The bit address of element `e` inside the extents, before it is checked (R199). -/
def Rec.bitAddr (r : Rec) (e : Nat) : Int :=
  let i0 := e % r.extent0
  let i1 := e / r.extent0
  let c := if r.transpose then i1 else i0
  let w := if r.transpose then i0 else i1
  if !r.zorder then
    if r.bits < 8 then (r.base : Int) * 8 + c * r.bits + w * r.stride1 * 8
    else ((r.base : Int) + c * r.stride0 + w * r.stride1) * 8
  else
    let S := 2 ^ r.ztile
    let x := c % S
    let y := w % S
    let m := interleave 16 (x / 4) (y / 4)
    let idx := m * 16 + (y % 4) * 4 + x % 4
    ((r.base : Int) + (c / S : Nat) * r.stride0 + (w / S : Nat) * r.stride1) * 8 + idx * r.bits

/-- ElementAddress (R199): BOUNDS carries the refused offset, TRANSL the address. -/
def Rec.elem (r : Rec) (e : Nat) : Except Trap Elem1 :=
  let fin := fun (e : Nat) =>
    let a := r.bitAddr e
    if a < 0 ∨ (2 : Int) ^ 59 ≤ a then .error (cause cTRANSL 0 (wrap 64 (a / 8))) else .ok (.at_ a.toNat)
  if r.count ≤ e then
    if r.bounds = 0 then .error (tBounds e)
    else if r.bounds = 1 then .ok .outside
    else if r.count = 0 then .error (tBounds e)
    else fin (e % r.count)
  else fin e

/-- Checks 2 to 5 of R200; `rounds` when the record's rounding is used (a store or atomic). -/
def Rec.check (r : Rec) (rounds : Bool) : Except Trap Unit :=
  if r.bits = 0 ∨ r.bounds = 3 ∨ (rounds ∧ r.round = 3) ∨ r.rsv ≠ 0 then .error (tIllop 5)
  else if r.zorder ∧ (r.ztile < 2 ∨ r.extent0 % 2 ^ r.ztile ≠ 0 ∨ r.extent1 % 2 ^ r.ztile ≠ 0) then .error (tIllop 5)
  else if r.bits < 8 ∧ r.stride0 ≠ 0 then .error (tIllop 5)
  else if 8 ≤ r.bits ∧ (r.base % (r.bits / 8) ≠ 0 ∨ r.stride0 % ((r.bits / 8 : Nat) : Int) ≠ 0 ∨ r.stride1 % ((r.bits / 8 : Nat) : Int) ≠ 0) then
    .error (cause cALIGN 0 r.base)
  else .ok ()

/-! ### Regions and pages (R201) -/

/-- The bit addresses of the four corner elements, and for a Z-order record the extremes of its corner tiles: every
element's address is a sum of a column part and a row part, each largest and smallest at an end. -/
def Rec.span (r : Rec) : Option (Int × Int) :=
  if r.count = 0 then none
  else if r.zorder then
    let S := 2 ^ r.ztile
    -- columns and rows of the stored layout
    let nc := if r.transpose then r.extent1 else r.extent0
    let nr := if r.transpose then r.extent0 else r.extent1
    let cs : List Int := [0, ((nc / S - 1 : Nat) : Int) * r.stride0]
    let rs : List Int := [0, ((nr / S - 1 : Nat) : Int) * r.stride1]
    let lo := min (cs.getD 0 0) (cs.getD 1 0) + min (rs.getD 0 0) (rs.getD 1 0)
    let hi := max (cs.getD 0 0) (cs.getD 1 0) + max (rs.getD 0 0) (rs.getD 1 0)
    some (((r.base : Int) + lo) * 8, ((r.base : Int) + hi) * 8 + S * S * r.bits)
  else
    let nc := if r.transpose then r.extent1 else r.extent0
    let nr := if r.transpose then r.extent0 else r.extent1
    let cstep : Int := if r.bits < 8 then (r.bits : Int) else r.stride0 * 8
    let c1 : Int := ((nc - 1 : Nat) : Int) * cstep
    let r1 : Int := ((nr - 1 : Nat) : Int) * (r.stride1 * 8)
    some ((r.base : Int) * 8 + min 0 c1 + min 0 r1, (r.base : Int) * 8 + max 0 c1 + max 0 r1 + r.bits)

/-- The region of a record: first byte and number of bytes (R201); none when it is empty. -/
def Rec.region (r : Rec) : Option (Int × Nat) :=
  match r.span with
  | none => none
  | some (lo, hi) => some (lo / 8, ((hi + 7) / 8 - lo / 8).toNat)

/-- Translate and check every page of a byte range by walks (R256 step 6): its physical ranges. -/
def footRange (s : State) (src : Src) (k : Acs) (va : Int) (n : Nat) : Except Trap (List Range) :=
  if va < 0 ∨ (2 : Int) ^ 56 < va + n then .error (cause cTRANSL 0 (wrap 64 va))
  else (pageParts va.toNat n).mapM fun p =>
    (walkCheck s src k p.1 p.2).map fun pa => { lo := pa * 8, len := p.2 * 8, wr := k.writes, va := p.1 }

/-- The physical ranges of a record's region, checked. -/
def recFoot (s : State) (src : Src) (k : Acs) (r : Rec) : Except Trap (List Range) :=
  match r.region with
  | none => .ok []
  | some (va, n) => footRange s src k va n

/-- Two ranges share a bit and one of them is written (R208). -/
def Range.conflicts (a b : Range) : Bool := (a.wr || b.wr) && a.lo < b.lo + b.len && b.lo < a.lo + a.len

end Sys2Proof.Machine
end

