-- ==== Sys2Proof/WellFormed.lean ====
section
/-! DEFINITION. Which instructions are well formed on which unit: the groups a unit runs (R69, R160),
the code fields (R70 and the reference entries) and the register specifiers (R63, R65), that is, what
the steps 2, 4 and 6 of R74 ask of a word.  What a configuration adds (R64) is asked at execution. -/

namespace Sys2Proof

/-- The kinds of unit that run instructions: a cell, a grove controller, a supervisor core (R69, R160). -/
inductive UnitKind where
  | cell
  | ctl
  | core
  deriving DecidableEq, Repr

/-- A specifier that may be read (R63). -/
def srcOk (k : UnitKind) (v : Spec) : Bool :=
  match k with
  | .cell => v.toNat ≤ 47
  | _ => v.toNat ≤ 31 || v.toNat == 44

/-- A specifier that may be written (R63). -/
def dstOk (k : UnitKind) (v : Spec) : Bool :=
  match k with
  | .cell => v.toNat ≤ 39 || v.toNat == 44
  | _ => v.toNat ≤ 31 || v.toNat == 44

/-- A specifier that may start a pair that is read (R65). -/
def srcPairOk (k : UnitKind) (v : Spec) : Bool :=
  match k with
  | .cell => v.toNat ≤ 6 || (8 ≤ v.toNat && v.toNat ≤ 38) || (40 ≤ v.toNat && v.toNat ≤ 42)
  | _ => v.toNat ≤ 30

/-- A specifier that may start a pair that is written (R65). -/
def dstPairOk (k : UnitKind) (v : Spec) : Bool :=
  match k with
  | .cell => v.toNat ≤ 6 || (8 ≤ v.toNat && v.toNat ≤ 38)
  | _ => v.toNat ≤ 30

/-- A specifier that may start a quad that is written (R341, R446). -/
def dstQuadOk (k : UnitKind) (v : Spec) : Bool :=
  match k with
  | .cell => v.toNat ≤ 4 || (8 ≤ v.toNat && v.toNat ≤ 36)
  | _ => v.toNat ≤ 28

/-- A specifier in the position of a held register that is only named (R140). -/
def heldSrcCode (v : Spec) : Bool := (8 ≤ v.toNat && v.toNat ≤ 39) || 48 ≤ v.toNat

/-- A destination that must be a held register: any other valid destination is refused as a code (R344). -/
def heldDstCode (v : Spec) : Bool := (8 ≤ v.toNat && v.toNat ≤ 43) || 45 ≤ v.toNat

/-- A destination that must be a held register or Z (R391). -/
def heldOrZCode (v : Spec) : Bool := 8 ≤ v.toNat

/-- A record code, 0 to 7. -/
def recCode (v : Spec) : Bool := v.toNat ≤ 7

/-- A code 0 to 3: an output route or an accumulator set. -/
def code4 (v : Spec) : Bool := v.toNat ≤ 3

/-- The formats that R301 lists, of the codes of R66. -/
def listedFmt (c : Nat) : Bool := c ≤ 6 || (8 ≤ c && c ≤ 16)

/-- A format code of R66 that is not reserved (R67). -/
def fmtOk (c : Nat) : Bool := c ≤ 6 || (8 ≤ c && c ≤ 17)

/-- The kinds of unit that run an instruction (R69, R160); none for a step that is not an instruction word. -/
def runsOn (k : UnitKind) : Instr → Bool
  | .iadd .. | .isub .. | .imul .. | .imulh .. | .imulhu .. | .imin .. | .imax .. | .iminu .. | .imaxu .. | .iabs ..
  | .iand .. | .ior .. | .ixor .. | .iandn .. | .shl .. | .shr .. | .sar .. | .rol .. | .clz .. | .popc ..
  | .iaddi .. | .andi .. | .ori .. | .xori .. | .shli .. | .shri .. | .sari .. | .movi ..
  | .bfx .. | .bfx2 .. | .bfi .. | .iota .. | .shuf .. | .lane .. | .pack .. | .unpk ..
  | .iceq .. | .icne .. | .iclt .. | .icge .. | .icltu .. | .icgeu .. | .sel ..
  | .movl .. | .movl0 .. | .iaddl .. | .andl .. | .orl ..
  | .barinit .. | .bararv .. | .baradd .. | .barwait .. | .bartest ..
  | .pdef .. | .pqry .. | .cdef .. | .cstart .. | .cwait .. | .cpoll .. => true
  | .scancel .. | .twaita .. | .twaitn .. | .tffr .. | .tclr .. | .tcnt .. => k != .core
  | .scopyCtrl .. | .sxformCtrl .. | .sbind .. => k == .ctl
  | .pldCtrl .. | .pconvCtrl ..
  | .beq .. | .bne .. | .blt .. | .bge .. | .bltu .. | .bgeu .. | .jal .. | .jalr .. | .ldc .. | .stc .. | .crd .. | .cwr ..
  | .dispgo .. | .pwreqStandby .. | .pwreqWithdraw ..
  | .launch .. | .join .. | .conf .. | .splice .. | .preempt .. | .ctxsv .. | .ctxrs .. | .wfe .. | .sev ..
  | .svc .. | .eret | .fres .. | .fskip | .escal | .tlbinv ..
  | .smcSetblk .. | .smcSetrgn .. | .smcGetblk .. | .smcGetrgn .. | .bbox .. | .bboxWr ..
  | .ckpt .. | .ckptPoll .. | .ckptWait .. | .ckptAbort .. | .ckptRest .. => k != .cell
  | .fadd .. | .fsub .. | .fmul .. | .fmin .. | .fmax .. | .fscale .. | .ffma ..
  | .fabs .. | .fneg .. | .frcp .. | .frsq .. | .fsqrt .. | .fexp2 .. | .flog2 .. | .ftanh .. | .fcvt ..
  | .fceq .. | .fclt .. | .fcle .. | .fcun .. | .fcne .. | .fcgt .. | .fcge .. | .fclass ..
  | .bdotE2m1 .. | .bdotE4m3 .. | .bdotE5m2 .. | .bdotI8 .. | .scacc ..
  | .qntE4m3 .. | .qntE5m2 .. | .qntE2m1 .. | .qntI8 .. | .deqE4m3 .. | .deqE5m2 .. | .deqE2m1 .. | .deqI8 ..
  | .vlutBf16 .. | .vlutF32 .. | .rsum .. | .rmax .. | .rmin .. | .scan .. | .vsort .. | .vtopk .. | .vmerge ..
  | .emit .. | .emitn .. | .emitz .. | .emitq .. | .bound .. | .endFiring | .nop
  | .hrec .. | .hrecClr .. | .hdrop .. | .hfill .. | .hstat .. | .hcap .. | .trap .. | .brkp ..
  | .ld .. | .st .. | .ldb .. | .ldx .. | .stx .. | .stnf .. | .seqcl .. | .ldg .. | .stg .. | .ldgx ..
  | .aadd .. | .amin .. | .amax .. | .axch .. | .acas .. | .aor .. | .aand .. | .ord .. | .ordw ..
  | .scopyCell .. | .sxformCell .. | .pldCell .. | .pconvCell ..
  | .mlw .. | .mswp | .mstr .. | .mrd .. | .mrdH .. | .mclr .. | .mchk .. | .mshp ..
  | .rdef .. | .rins .. | .rjoin .. | .ranti .. | .rrnd .. | .rqck .. | .rdel .. | .rclr .. | .rlook .. | .rgrad ..
  | .rsort .. | .rtopk .. | .rmrg .. => k == .cell
  | _ => false

/-- Step 4 of R74: every code field holds a value that R70 or the instruction's entry accepts. -/
def codesOk : Instr → Bool
  | .iadd _ _ _ m | .isub _ _ _ m | .imul _ _ _ m | .imulh _ _ _ m | .imulhu _ _ _ m | .imin _ _ _ m | .imax _ _ _ m
  | .iminu _ _ _ m | .imaxu _ _ _ m | .iand _ _ _ m | .ior _ _ _ m | .ixor _ _ _ m | .iandn _ _ _ m | .shl _ _ _ m
  | .shr _ _ _ m | .sar _ _ _ m | .rol _ _ _ m | .iabs _ _ m | .clz _ _ m | .popc _ _ m
  | .bfx _ _ _ m | .bfx2 _ _ _ m | .bfi _ _ _ m | .iota _ _ m | .shuf _ _ _ m | .lane _ _ _ m | .pack _ _ _ m | .unpk _ _ _ m
  | .iceq _ _ _ m | .icne _ _ _ m | .iclt _ _ _ m | .icge _ _ _ m | .icltu _ _ _ m | .icgeu _ _ _ m => m.toNat ≤ 3
  | .shli _ _ i | .shri _ _ i | .sari _ _ i => i.toNat ≤ 31
  | .fadd _ _ _ f m | .fsub _ _ _ f m | .fmul _ _ _ f m | .fscale _ _ _ f m => f.toNat ≤ 2 && m.toNat ≤ 6
  | .fmin _ _ _ f | .fmax _ _ _ f | .ffma _ _ _ _ f | .fabs _ _ f | .fneg _ _ f | .frcp _ _ f | .frsq _ _ f | .fsqrt _ _ f
  | .fexp2 _ _ f | .flog2 _ _ f | .ftanh _ _ f | .fceq _ _ _ f | .fclt _ _ _ f | .fcle _ _ _ f | .fcun _ _ _ f | .fcne _ _ _ f
  | .fcgt _ _ _ f | .fcge _ _ _ f | .fclass _ _ f => f.toNat ≤ 2
  | .fcvt _ _ s t m => listedFmt s.toNat && listedFmt t.toNat && s.toNat != t.toNat && m.toNat ≤ 6
  | .bdotE2m1 _ _ _ m | .bdotE4m3 _ _ _ m | .bdotE5m2 _ _ _ m | .bdotI8 _ _ _ m => m.toNat ≤ 2
  | .qntE4m3 _ _ _ m | .qntE5m2 _ _ _ m | .qntE2m1 _ _ _ m | .qntI8 _ _ _ m => m.toNat ≤ 6
  | .rsum _ _ m | .rmax _ _ m | .rmin _ _ m | .scan _ _ m | .vsort _ _ _ m | .vtopk _ _ _ m | .vmerge _ _ _ m => m.toNat ≤ 5
  | .emit d _ _ m | .emitn d _ _ m | .emitz d _ m => code4 d && m.toNat ≤ 5
  | .emitq d _ _ | .bound d _ _ => code4 d
  | .hrec d b => heldSrcCode d && b.toNat ≤ 15
  | .hrecClr d | .hdrop d | .hfill d => heldSrcCode d
  | .hstat _ a => heldSrcCode a
  | .ld _ _ _ _ _ s | .st _ _ _ _ _ s | .ldb _ _ _ _ _ s | .ldx _ _ _ _ _ s | .stx _ _ _ _ _ s | .stnf _ _ _ _ _ s
  | .seqcl _ _ _ _ s | .ldg _ _ _ _ _ s | .stg _ _ _ _ _ s | .ldgx _ _ _ _ _ s | .aadd _ _ _ _ _ s | .amin _ _ _ _ _ s
  | .amax _ _ _ _ _ s | .axch _ _ _ _ _ s | .acas _ _ _ _ _ s | .aor _ _ _ _ _ s | .aand _ _ _ _ _ s
  | .ord _ _ s | .ordw _ _ s => s.toNat ≤ 4
  | .scopyCell d a _ | .sxformCell d a _ => recCode d && recCode a
  | .mlw _ b => recCode b
  | .mstr d _ b | .mrd d _ b _ => code4 d && recCode b
  | .mrdH d _ b _ => heldDstCode d && code4 b
  | .mclr d | .mshp d _ => code4 d
  | .mchk d => heldDstCode d
  | .rrnd d _ | .rqck d _ _ _ | .rlook d _ _ => heldOrZCode d
  | .rsort d _ b n | .rtopk d _ b n | .rmrg d _ b n => recCode d && recCode b && (n.toNat == 0 || b.toNat == 0)
  | .pldCell _ _ b | .pconvCell _ b => recCode b
  | .jal _ o => o.toNat != 0
  | .ldc _ _ _ m => m.toNat ≤ 6
  | .crd _ i | .cwr _ i => i.toNat < 1024
  | _ => true

/-- Step 6 of R74: every register specifier is one that R63 and R65 accept on the unit, whatever the
configuration allots. -/
def specsOk (k : UnitKind) : Instr → Bool
  | .iadd d a b _ | .isub d a b _ | .imul d a b _ | .imulh d a b _ | .imulhu d a b _ | .imin d a b _ | .imax d a b _
  | .iminu d a b _ | .imaxu d a b _ | .iand d a b _ | .ior d a b _ | .ixor d a b _ | .iandn d a b _ | .shl d a b _
  | .shr d a b _ | .sar d a b _ | .rol d a b _ | .bfx d a b _ | .bfx2 d a b _ | .bfi d a b _ | .shuf d a b _
  | .lane d a b _ | .pack d a b _ | .unpk d a b _ | .iceq d a b _ | .icne d a b _ | .iclt d a b _ | .icge d a b _
  | .icltu d a b _ | .icgeu d a b _ | .fadd d a b _ _ | .fsub d a b _ _ | .fmul d a b _ _ | .fscale d a b _ _
  | .fmin d a b _ | .fmax d a b _ | .fceq d a b _ | .fclt d a b _ | .fcle d a b _ | .fcun d a b _ | .fcne d a b _
  | .fcgt d a b _ | .fcge d a b _ | .bdotE2m1 d a b _ | .bdotE4m3 d a b _ | .bdotE5m2 d a b _ | .bdotI8 d a b _
  | .vlutBf16 d a b | .vlutF32 d a b | .barwait d a b | .ldc d a b _ | .stc d a b _ | .launch d a b | .splice d a b
  | .ctxsv d a b | .ctxrs d a b | .smcSetblk d a b | .smcSetrgn d a b | .smcGetblk d a b | .smcGetrgn d a b
  | .sbind d a b | .rqck d a b _ | .rlook d a b => dstOk k d && srcOk k a && srcOk k b
  | .iabs d a _ | .clz d a _ | .popc d a _ | .iaddi d a _ | .andi d a _ | .ori d a _ | .xori d a _ | .shli d a _
  | .shri d a _ | .sari d a _ | .iota d a _ | .iaddl d a _ | .andl d a _ | .orl d a _ | .fabs d a _ | .fneg d a _
  | .frcp d a _ | .frsq d a _ | .fsqrt d a _ | .fexp2 d a _ | .flog2 d a _ | .ftanh d a _ | .fcvt d a _ _ _
  | .fclass d a _ | .rsum d a _ | .rmax d a _ | .rmin d a _ | .scan d a _ | .ld d a _ _ _ _ | .ldb d a _ _ _ _
  | .ldx d a _ _ _ _ | .ldg d a _ _ _ _ | .ldgx d a _ _ _ _ | .twaita d a | .twaitn d a | .tffr d a | .tcnt d a
  | .bartest d a | .pqry d a | .cstart d a | .cwait d a | .cpoll d a | .join d a | .conf d a | .preempt d a
  | .wfe d a | .svc d a _ | .ckpt d a | .ckptPoll d a | .ckptWait d a | .ckptAbort d a | .ckptRest d a | .rrnd d a
  | .pldCtrl d a | .pldCell d a _ | .mrdH d a _ _ => dstOk k d && srcOk k a
  | .movi d _ | .movl d _ | .movl0 d _ | .hcap d | .crd d _ | .mchk d => dstOk k d
  | .sel d a b c _ | .ffma d a b c _ => dstOk k d && srcOk k a && srcOk k b && srcOk k c
  | .scacc d a b => dstOk k d && srcOk k a && srcPairOk k b
  | .qntE4m3 d a b _ | .qntE5m2 d a b _ | .qntE2m1 d a b _ | .qntI8 d a b _ => dstOk k d && srcPairOk k a && srcOk k b
  | .deqE4m3 d a b | .deqE5m2 d a b | .deqE2m1 d a b | .deqI8 d a b => dstPairOk k d && srcOk k a && srcOk k b
  | .vsort d a b _ | .vtopk d a b _ => dstPairOk k d && srcPairOk k a && srcOk k b
  | .vmerge d a b _ => dstQuadOk k d && srcPairOk k a && srcPairOk k b
  | .emit _ a b _ | .emitn _ a b _ | .emitq _ a b | .bound _ a b => srcOk k a && srcOk k b
  | .emitz _ b _ => srcOk k b
  | .hrec d _ | .hrecClr d | .hdrop d | .hfill d => d.toNat < 48
  | .hstat d a => dstOk k d && a.toNat < 48
  | .trap a _ | .tclr a | .scancel a | .bararv a | .rdef a | .rjoin a | .ranti a | .rclr a | .scopyCtrl a | .sxformCtrl a
  | .pconvCtrl a | .cwr a _ | .dispgo a | .pwreqStandby a | .pwreqWithdraw a | .sev a | .fres a
  | .mlw a _ | .mstr _ a _ | .mrd _ a _ _ | .mshp _ a | .rsort _ a _ _ | .rtopk _ a _ _ | .rmrg _ a _ _
  | .pconvCell a _ => srcOk k a
  | .seqcl a _ _ _ _ => a.toNat == 0 || srcOk k a
  | .st d a _ _ _ _ | .stx d a _ _ _ _ | .stnf d a _ _ _ _ | .stg d a _ _ _ _ | .aadd d a _ _ _ _ | .amin d a _ _ _ _
  | .amax d a _ _ _ _ | .axch d a _ _ _ _ | .aor d a _ _ _ _ | .aand d a _ _ _ _ => srcOk k d && srcOk k a
  | .acas d a _ _ _ _ => srcPairOk k d && srcOk k a
  | .scopyCell _ _ b | .sxformCell _ _ b => srcOk k b
  | .barinit a b | .baradd a b | .rins a b | .rdel a b | .rgrad a b | .pdef a b | .cdef a b | .tlbinv a b | .bboxWr a b =>
      srcOk k a && srcOk k b
  | .bbox d a b => dstQuadOk k d && srcOk k a && srcOk k b
  | _ => true

/-- An instruction that some word of a unit of kind `k` encodes: the unit runs its group, its codes are
accepted and its specifiers are valid. -/
def WellFormed (k : UnitKind) (i : Instr) : Bool := runsOn k i && codesOk i && specsOk k i

end Sys2Proof
end

