-- ==== Sys2Proof/Machine/Ops.lean ====
section
/-! DEFINITION. The named operations: units, cells, frames and configurations; G registers; taking a trap on a
firing, a job, a token, a controller and a core, and the return from a handler (R421 to R437); races (R223 to
R229); sending tokens (R98, R133); and how an instruction runs on a unit. -/

namespace Sys2Proof.Machine

/-! ### Cells, groves, controllers, configurations, frames -/

def getCell (s : State) (c : Nat) : Cell := tget {} s.cells c
def setCell (s : State) (c : Nat) (x : Cell) : State := { s with cells := tset {} s.cells c x }
def modCell (s : State) (c : Nat) (f : Cell → Cell) : State := setCell s c (f (getCell s c))

def getCtl (s : State) (u : Nat) : Ctl := tget {} s.ctls u
def setCtl (s : State) (u : Nat) (x : Ctl) : State := { s with ctls := tset {} s.ctls u x }
def modCtl (s : State) (u : Nat) (f : Ctl → Ctl) : State := setCtl s u (f (getCtl s u))

def getGrove (s : State) (g : Nat) : Grove := tget {} s.groves g
def modGrove (s : State) (g : Nat) (f : Grove → Grove) : State := { s with groves := tset {} s.groves g (f (getGrove s g)) }

/-- The grove of a cell and its number in the grove. -/
def groveOf (c : Nat) : Nat := c / 64
def cellNo (c : Nat) : Nat := c % 64

/-- The configuration with an identity. -/
def findCfg (s : State) (id : Nat) : Option Cfg := s.cfgs.find? fun c => c.id == id
def getCfg (s : State) (id : Nat) : Cfg := (findCfg s id).getD {}
def modCfg (s : State) (id : Nat) (f : Cfg → Cfg) : State :=
  { s with cfgs := s.cfgs.map fun c => if c.id = id then f c else c }

def Cfg.frame (c : Cfg) (fr : Nat) : Frame := tget {} c.frames fr
def getFrame (s : State) (cfg fr : Nat) : Frame := (getCfg s cfg).frame fr
def modFrame (s : State) (cfg fr : Nat) (f : Frame → Frame) : State :=
  modCfg s cfg fun c => { c with frames := tmod {} c.frames fr f }

def recWidth (w2 : Nat) : Nat := bits w2 24 6
def recHeight (w2 : Nat) : Nat := bits w2 30 6
def recStages (w2 : Nat) : Nat := bits w2 36 4 + 1
def Cfg.width (c : Cfg) : Nat := recWidth (c.w 2)
def Cfg.height (c : Cfg) : Nat := recHeight (c.w 2)
def Cfg.stages (c : Cfg) : Nat := recStages (c.w 2)
def Cfg.det (c : Cfg) : Bool := bit (c.w 2) 40
def Cfg.preemptible (c : Cfg) : Bool := bit (c.w 2) 42
/-- The address space of a configuration and its user handler (R409). -/
def Cfg.asn (c : Cfg) : Nat := c.spaceAsn

/-- Grove `n` lies in the rectangle of the given origin. -/
def inRect (w h origin n : Nat) : Bool :=
  origin % 32 ≤ n % 32 && n % 32 < origin % 32 + w && origin / 32 ≤ n / 32 && n / 32 < origin / 32 + h

/-- The stage whose glade holds a grove (R10). -/
def Cfg.stageOf (c : Cfg) (n : Nat) : Option Nat :=
  (List.range c.origins.length).find? fun i => inRect c.width c.height (c.origins.getD i 0) n

/-- Glade-relative coordinates of a grove, as gy*32+gx (R12). -/
def Cfg.relGrove (c : Cfg) (n : Nat) : Nat :=
  let o := c.origins.getD ((c.stageOf n).getD 0) 0
  (n / 32 - o / 32) * 32 + (n % 32 - o % 32)

/-- The device grove at glade-relative coordinates of a stage. -/
def Cfg.devGrove (c : Cfg) (stage gy gx : Nat) : Nat :=
  let o := c.origins.getD stage 0
  (o / 32 + gy) * 32 + (o % 32 + gx)

/-- The groves of a configuration. -/
def Cfg.groves (c : Cfg) : List Nat := (List.range 1024).filter fun n => (c.stageOf n).isSome

/-- The configuration whose glade holds a grove; the predecessor before a splice successor. -/
def cfgOfGrove (s : State) (n : Nat) : Option Cfg := s.cfgs.find? fun c => c.st != .saved && (c.stageOf n).isSome

/-- A context field (R87 to R92). -/
def Cell.field (x : Cell) (ctx k : Nat) : Nat := (tget 0 x.fields (ctx * 8 + k)).toNat
def Cell.kind (x : Cell) (ctx : Nat) : Nat := bits (x.field ctx 0) 0 4
/-- Rate and width class of an input port (R88). -/
def Cell.rate (x : Cell) (ctx p : Nat) : Nat := bits (x.field ctx 1) (8 * p) 3
def Cell.width (x : Cell) (ctx p : Nat) : Nat := bits (x.field ctx 1) (8 * p + 3) 3
/-- Predicate input `q` is used (R88). -/
def Cell.usesQ (x : Cell) (ctx q : Nat) : Bool := bit (x.field ctx 1) (32 + q)
/-- Record `k` of a context. -/
def Cell.record (x : Cell) (ctx k : Nat) : BitVec 256 := tget 0 x.records (ctx * 8 + k)

/-- An output route (R89). -/
structure Route where
  en : Bool
  stage : Nat
  gy : Nat
  gx : Nat
  cell : Nat
  ctx : Nat
  port : Nat
  rate : Nat
  deriving DecidableEq, Repr

def routeOf (w : Nat) : Route :=
  ⟨bit w 29, bits w 25 4, bits w 20 5, bits w 15 5, bits w 9 6, bits w 6 3, bits w 3 3, bits w 0 3⟩

def Cell.route (x : Cell) (ctx k : Nat) : Route := routeOf (x.field ctx (2 + k))

/-- The device cell a route leads to. -/
def routeDest (c : Cfg) (r : Route) : Nat := c.devGrove r.stage r.gy r.gx * 64 + r.cell

/-! ### Fresh identities -/

/-- A fresh identity. -/
def fresh (s : State) : Nat × State := (s.nextId, { s with nextId := s.nextId + 1 })

/-- The next free 512-bit and 64-bit values (log entry 8). -/
def drawReg (s : State) : Reg × State := (Config.freeReg s.free, { s with free := s.free + 1 })
def drawWord (s : State) : Word × State := (Config.freeWord s.free, { s with free := s.free + 1 })

/-- Work enters at the end of the list. -/
def addWork (s : State) (w : Work) : State := { s with work := s.work ++ [w] }

/-- The work item at a place, and the list without it. -/
def workAt (s : State) (k : Nat) : Option Work := s.work[k]?
def dropWork (s : State) (k : Nat) : State := { s with work := s.work.eraseIdx k }
def setWork (s : State) (k : Nat) (w : Work) : State := { s with work := s.work.set k w }

/-! ### G registers (R63, R424) -/

/-- A G register of the bank in use; Z reads 0. -/
def Ctl.g (x : Ctl) (i : Nat) : Word := if i < 32 then tget 0 (if x.handler then x.bank1 else x.bank0) i else 0

/-- Write a G register; a write of Z is discarded. -/
def Ctl.setG (x : Ctl) (i : Nat) (v : Word) : Ctl :=
  if i < 32 then (if x.handler then { x with bank1 := tset 0 x.bank1 i v } else { x with bank0 := tset 0 x.bank0 i v }) else x

/-- Write a register of bank 0, whatever the bank in use. -/
def Ctl.setG0 (x : Ctl) (i : Nat) (v : Word) : Ctl := if i < 32 then { x with bank0 := tset 0 x.bank0 i v } else x

def readG (s : State) (u : Nat) (r : Spec) : Nat := ((getCtl s u).g r.toNat).toNat
def writeG (s : State) (u : Nat) (r : Spec) (v : Nat) : State := modCtl s u fun x => x.setG r.toNat (BitVec.ofNat 64 v)

/-- The unit is a supervisor core. -/
def isCore (u : Nat) : Bool := 1024 ≤ u

/-- The unit's kind. -/
def unitKind (u : Nat) : UnitKind := if isCore u then .core else .ctl

/-- A unit issues in the world of its grove or core (R402, R403). -/
def unitSecure (s : State) (u : Nat) : Bool := if isCore u then blockSecure s 6 (u - 1024) else blockSecure s 0 u

/-- The grove number a record of the unit carries (R421). -/
def unitGrove (u : Nat) : Nat := if isCore u then 0 else u

/-! ### Instruction words -/

/-- The word at an address as the controller last fetched it; 0 when the address is not mapped. -/
def peekWord (s : State) (u pc : Nat) : Nat :=
  let x := getCtl s u
  match tlbFind s ⟨streamCtl u, if isCore u then u else bufferKey u⟩ x.asn pc (unitSecure s u) with
  | some e => readNat s (canonPa s (e.ppage + (pc - e.vpage))) 4
  | none => match walk s x.asn pc (unitSecure s u) with
    | some e => readNat s (canonPa s (e.ppage + (pc - e.vpage))) 4
    | none => 0

/-- Majors of long forms (R62). -/
def longMajor (w : Nat) : Bool := bits w 26 6 == 6

/-- Words an instruction takes. -/
def sizeOf' (i : Instr) : Nat := match i with
  | .movl .. | .movl0 .. | .iaddl .. | .andl .. | .orl .. => 2
  | _ => 1

/-- The issuer of an access of a firing (R421). -/
def firingSrc (s : State) (c : Nat) (f : Firing) : Src :=
  let x := getCell s c
  let w := tget 0 x.store f.word
  { kind := 0, who := c, cfg := f.cfg, frame := f.frame, ctx := f.ctx, word := f.word, itag := f.itag
    insn := if x.kind f.ctx = 1 then w else 0
    word2 := if x.kind f.ctx = 1 && longMajor w.toNat then tget 0 x.store (f.word + 1) else 0
    uid := f.uid, pos := f.out.length, asn := (getCfg s f.cfg).asn, user := true, secure := blockSecure s 0 (groveOf c), past := f.past }

/-- The issuer of an access of a controller or core, at the instruction at `pc`. -/
def ctlSrc (s : State) (u pc : Nat) : Src :=
  let x := getCtl s u
  let w := peekWord s u pc
  { kind := 3, who := u, asn := x.asn, user := x.user, secure := unitSecure s u, insn := BitVec.ofNat 32 w
    word2 := if longMajor w then BitVec.ofNat 32 (peekWord s u (pc + 4)) else 0 }

/-- The grove of an issuer; none for a core. -/
def Src.grove (x : Src) : Option Nat := if x.kind = 3 then (if isCore x.who then none else some x.who) else some (groveOf x.who)

/-! ### Trap records (R421) -/

/-- The kinds of record. -/
def kFIRING : Nat := 0
def kJOB : Nat := 1
def kTOKEN : Nat := 2
def kCONTROL : Nat := 3
def kSVC : Nat := 4

/-- What a record adds for its kind: copy tag, command word, token header and payload, signatures. -/
structure RecExtra where
  tag : Option Nat := none
  job : Nat := 0
  header : Nat := 0
  payload : Nat := 0
  sig : Nat := 0
  psig : Nat := 0

/-- The words W0 to W23 of a record. -/
def recordWords (kind : Nat) (t : Trap) (x : Src) (cell stage grove : Nat) (fr : Frame) (time : Nat) (ex : RecExtra) : List Word :=
  let w0 := t.cause * 2 ^ 56 + t.inner * 2 ^ 48 + t.detail * 2 ^ 40 + kind * 2 ^ 37 + x.ctx % 8 * 2 ^ 29 + x.word % 256 * 2 ^ 16 +
    cell % 64 * 2 ^ 10 + x.frame % 1024
  let w1 := x.itag % 2 ^ 24 * 2 ^ 40 + stage % 16 * 2 ^ 36 + grove % 1024 * 2 ^ 26 + x.asn % 256 * 2 ^ 18
  let w11 := (match ex.tag with | some g => 2 ^ 38 + g % 64 * 2 ^ 32 | none => 0) + ex.job % 2 ^ 32
  ([w0, w1, x.word2.toNat * 2 ^ 32 + x.insn.toNat, t.addr, t.aux, t.other, fr.nf * 2 ^ 32 + fr.sat, fr.fpstat, time, ex.sig, ex.psig,
    w11, ex.header] ++ (List.range 8).map (fun n => bits ex.payload (64 * n) 64) ++ [0, 0, 0]).map (BitVec.ofNat 64)

/-- Replace a bit field of a word of a record. -/
def setBits (w : Word) (lo len v : Nat) : Word :=
  BitVec.ofNat 64 (w.toNat - bits w.toNat lo len * 2 ^ lo + v % 2 ^ len * 2 ^ lo)

def TrapRec.w (r : TrapRec) (k : Nat) : Word := r.words.getD k 0
def TrapRec.setW (r : TrapRec) (k : Nat) (v : Word) : TrapRec := { r with words := r.words.set k v }
def TrapRec.kind (r : TrapRec) : Nat := bits (r.w 0).toNat 37 3
def TrapRec.escalated (r : TrapRec) : TrapRec := r.setW 0 (setBits (r.w 0) 36 1 1)

/-- A frame trap's record: FIRING, JOB or TOKEN (R423). -/
def frameRecord (s : State) (kind : Nat) (t : Trap) (x : Src) (ex : RecExtra) : TrapRec :=
  let c := getCfg s x.cfg
  let n := groveOf x.who
  { words := recordWords kind t x (cellNo x.who) ((c.stageOf n).getD 0) (c.relGrove n) (c.frame x.frame) s.timens.toNat ex
    cfg := x.cfg, frame := x.frame, cell := x.who }

/-! ### Routing a record (R423, R429) -/

/-- The supervisor core that receives the records of a grove; none when the grove's world is secure and no core of
the basin is (R429). -/
def superCore (s : State) (n : Nat) (secure : Bool) : Option Nat :=
  let b := basinOfGrove n
  if secure then ((List.range 4).find? fun i => blockSecure s 6 (b * 4 + i)).map fun i => 1024 + b * 4 + i
  else some (1024 + b * 4 + n % 4)

/-- The order in which a controller takes records (R423): by the time of the stop, then the lower grove, then the lower cell. -/
def TrapRec.order (r : TrapRec) : Nat := ((r.w 8).toNat * 1024 + bits (r.w 1).toNat 26 10) * 64 + bits (r.w 0).toNat 10 6

/-- A record among those that wait, in that order. -/
def insertRecord (r : TrapRec) : List TrapRec → List TrapRec
  | [] => [r]
  | q :: l => if r.order < q.order then r :: q :: l else q :: insertRecord r l

/-- Records that the queue of a unit holds (R423, R429). -/
def queueSize (u : Nat) : Nat := if isCore u then 64 else 32

/-- A record is queued, or kept until there is room (R423); that a core's queue keeps what finds it full in the same way is log
entry 65. -/
def Ctl.enqueue (x : Ctl) (u : Nat) (r : TrapRec) : Ctl :=
  if x.queue.length < queueSize u && x.parked.isEmpty then { x with queue := if isCore u then x.queue ++ [r] else insertRecord r x.queue }
  else { x with parked := if isCore u then x.parked ++ [r] else insertRecord r x.parked }

/-- The queue without the record taken, refilled from those that waited for room. -/
def Ctl.dequeue (x : Ctl) (u : Nat) (q : List TrapRec) : Ctl :=
  match x.parked with
  | [] => { x with queue := q }
  | r :: l => { x with queue := if isCore u then q ++ [r] else insertRecord r q, parked := l }

/-- Records withdrawn from a unit; those that waited for room move up. -/
def Ctl.withdraw (x : Ctl) (u : Nat) (gone : TrapRec → Bool) : Ctl :=
  (x.parked.filter fun r => !gone r).foldl (fun y r => y.enqueue u r) { x with queue := x.queue.filter fun r => !gone r, parked := [] }

/-- Queue a record at a unit. -/
def queueRecord (s : State) (u : Nat) (r : TrapRec) : State := modCtl s u fun x => x.enqueue u r

/-- Queue a record of a grove at its supervisor core, or record NOCORE (R429). -/
def toSupervisor (s : State) (n : Nat) (secure : Bool) (r : TrapRec) : State :=
  match superCore s n secure with
  | some u => queueRecord s u r
  | none =>
    bboxEvent s (basinOfGrove n) 6 (bits (r.w 0).toNat 56 8) (bits (r.w 0).toNat 40 8) n (cellNo r.cell) (bits (r.w 1).toNat 18 8) r.frame
      (r.w 0).toNat (r.w 1).toNat

/-- Escalation (R429, R436): esc is set and the record goes to the supervisor. -/
def escalate (s : State) (n : Nat) (secure : Bool) (r : TrapRec) : State := toSupervisor s n secure r.escalated

/-- Route a frame trap's record (R423); that of a saved configuration is delivered at its restore (R439). -/
def routeRecord (s : State) (r : TrapRec) : State :=
  let c := getCfg s r.cfg
  let n := groveOf r.cell
  if c.st = .saved then s
  else if c.w 5 = 0 then escalate s n c.secure r else queueRecord s n r

/-- A frame stops (R113, R423, R426): it takes the record and the record is routed; a frame that is stopped already
counts one more fault. -/
def stopFrame (s : State) (r : TrapRec) : State :=
  match findCfg s r.cfg with
  | none => s
  | some c =>
    match (c.frame r.frame).stopped with
    | some _ =>
      let bump := fun (q : TrapRec) =>
        if q.cfg = r.cfg ∧ q.frame = r.frame then q.setW 7 (setBits (q.w 7) 32 16 (satAdd16 (bits (q.w 7).toNat 32 16) 1)) else q
      let s := modFrame s r.cfg r.frame fun f => { f with stopped := f.stopped.map bump }
      { s with ctls := tmap {} (fun (x : Ctl) =>
          { x with queue := x.queue.map fun q => if q.kind ≤ 2 then bump q else q
                   parked := x.parked.map fun q => if q.kind ≤ 2 then bump q else q
                   rcd := x.rcd.map fun q => if q.kind ≤ 2 && !q.resolved then bump q else q }) s.ctls }
    | none => routeRecord (modFrame s r.cfg r.frame fun f => { f with live := true, stopped := some r }) r

/-! ### Waiters at barriers (R265) -/

/-- What a unit or firing waits for at a barrier's owner. -/
def findWait (s : State) (who uid : Nat) : Option BarWait := s.barWaits.find? fun w => w.who == who && w.uid == uid

/-- It waits no longer. -/
def dropWait (s : State) (who uid : Nat) : State :=
  if (findWait s who uid).isNone then s else { s with barWaits := s.barWaits.filter fun w => !(w.who == who && w.uid == uid) }

/-! ### Withdrawing a firing (R106) -/

/-- The accesses of a firing leave the owners. -/
def withdrawAccesses (s : State) (uid : Nat) : State :=
  { s with work := s.work.filter fun w => match w with | .check f => f.src.uid ≠ uid | _ => true
           inflight := s.inflight.filter fun f => f.src.uid ≠ uid }

/-- The firing in progress ends without effect: its tokens return ahead of later arrivals (R106). -/
def withdrawFiring (s : State) (c : Nat) (f : Firing) : State :=
  let s := dropWait (withdrawAccesses s f.uid) c f.uid
  modCell s c fun x =>
    { x with firing := none, tokens := f.inputs ++ x.tokens
             sources := if f.source then (f.ctx, f.frame) :: x.sources else x.sources }

/-- A firing faults before END (R106, R113): it is withdrawn and its frame stops with a FIRING record.  TAKING AN
EXCEPTION on a cell. -/
def takeFiringTrap (s : State) (c : Nat) (f : Firing) (t : Trap) (x : Src) : State :=
  let r := frameRecord s kFIRING t x {}
  stopFrame (withdrawFiring s c f) r

/-- Checks of the firing are on their way. -/
def checksPending (s : State) (uid : Nat) : Bool := s.work.any fun w => match w with | .check f => f.src.uid == uid | _ => false

/-- A check of an earlier word of the firing than `w` is on its way. -/
def checksBefore (s : State) (uid w : Nat) : Bool :=
  s.work.any fun x => match x with | .check f => f.src.uid == uid && decide (f.src.word < w) | _ => false

/-- The firing in progress on a cell meets a race or a fault (R227, R420): the race of the earliest word once the checks
of the words before it have returned, or the fault once every check has.  Nothing happens otherwise. -/
def settleFiring (s : State) (c : Nat) : State :=
  match (getCell s c).firing with
  | none => s
  | some f =>
    match f.race, f.fault with
    | some (w, t, x), _ => if f.phase = .committing ∨ checksBefore s f.uid w then s else takeFiringTrap s c f t x
    | none, some (t, w) =>
      if f.phase ≠ .ending ∨ checksPending s f.uid then s else takeFiringTrap s c f t (firingSrc s c { f with word := w })
    | none, none => s

/-- The firing's instruction faults with `t` (R420): it waits for the checks of earlier instructions. -/
def firingFault (s : State) (c : Nat) (f : Firing) (t : Trap) : State :=
  settleFiring (modCell s c fun x => { x with firing := some { f with phase := .ending, fault := some (t, f.word) } }) c

/-- A job that a firing or a memory node issued stops its frame (R258, R346): record kind JOB. -/
def jobTrap (s : State) (t : Trap) (x : Src) (tag : Option Nat) : State :=
  if x.kind = 3 then
    -- a controller's job: the record goes to the supervisor and no frame stops (R258); W1 names the controller's place in the
    -- glade that holds it, if one does (R421; log entry 65)
    let n := unitGrove x.who
    let at_ := if isCore x.who then none else (cfgOfGrove s n).map fun c => ((c.stageOf n).getD 0, c.relGrove n)
    let r : TrapRec := { words := recordWords kJOB t x 0 (at_.getD (0, 0)).1 (at_.getD (0, 0)).2 {} s.timens.toNat { tag := tag, job := x.insn.toNat }
                         unit := x.who }
    if isCore x.who then queueRecord s x.who r else toSupervisor s n x.secure r
  else stopFrame s (frameRecord s kJOB t x { tag := tag, job := x.insn.toNat })

/-! ### Traps of controllers and cores, and handlers (R424 to R431) -/

/-- The unit's record for a fault at its instruction (R421, R431). -/
def controlRecord (s : State) (u pc : Nat) (kind : Nat) (t : Trap) : TrapRec :=
  { words := recordWords kind t (ctlSrc s u pc) 0 0 (unitGrove u) {} s.timens.toNat {}, unit := u }

/-- Send a unit's CONTROL or SVC record to its supervisor (R431). -/
def sendControl (s : State) (u : Nat) (r : TrapRec) : State :=
  if isCore u then queueRecord s u r else toSupervisor s u (unitSecure s u) r

/-- The handler ends and the interrupted code goes on (R424). -/
def endHandler (x : Ctl) : Ctl :=
  { x with handler := false, rcd := none, pc := x.saved.pc, user := x.saved.user, asn := x.saved.asn, mode := x.saved.mode, saved := {} }

/-- TAKING AN EXCEPTION on a controller or core, at the instruction at `pc`: a fault in a user handler abandons it and
escalates the frame's record (R428); a core halts in its handler for good (R431); elsewhere the unit halts and a
CONTROL record goes to the supervisor (R431). -/
def takeCtlTrap (s : State) (u pc : Nat) (t : Trap) : State :=
  let s := dropWait s u 0
  let x := getCtl s u
  let clear := fun (y : Ctl) => { y with wait := none, reply := none, pld := none, deadline := none, midway := false }
  if x.handler then
    if isCore u then
      let s := modCtl s u fun y => { clear y with mode := .dead, pc := pc }
      let s := bboxEvent s (basinOfUnit u) 5 t.cause t.detail 0 0 x.asn 0 pc t.addr
      { s with msix := tmod 0 s.msix 1 (· + 1) }
    else match x.rcd with
      | some r =>
        let r := r.setW 7 (setBits (r.w 7) 48 8 t.cause)
        let r := (r.setW 21 (BitVec.ofNat 64 pc)).setW 22 (BitVec.ofNat 64 t.addr)
        let s := modCtl s u fun y => endHandler (clear y)
        let c := getCfg s r.cfg
        let s := modFrame s r.cfg r.frame fun f => { f with stopped := f.stopped.map fun _ => r.escalated }
        escalate s u c.secure r
      | none => modCtl s u fun y => endHandler (clear y)
  else
    let r := controlRecord s u pc kCONTROL t
    sendControl (modCtl s u fun y => { clear y with mode := .halted, pc := pc }) u r

/-- A unit enters its handler for the record at the head of its queue (R424, R429): bank 1 is cleared, the interrupted
code is saved; a stalled instruction is executed again from its start when the handler has ended. -/
def enterHandler (x : Ctl) (u : Nat) (r : TrapRec) (q : List TrapRec) (pc : Nat) (user : Bool) (asn : Nat) : Ctl :=
  { x.dequeue u q with
           handler := true, rcd := some r, bank1 := []
           saved := { pc := x.pc, user := x.user, asn := x.asn, mode := x.mode }
           pc := pc, user := user, asn := asn, mode := .running, wait := none, pld := none, deadline := none }

/-! ### Races (R208, R223 to R229) -/

/-- One instance of the scope contains both issuers (R210). -/
def inScope (s : State) (scope : Nat) (a b : Src) : Bool :=
  match scope with
  | 0 => a.kind == b.kind && a.who == b.who
  | 1 => a.grove.isSome && a.grove == b.grove
  | 2 => match a.grove, b.grove with
    | some g, some h => match cfgOfGrove s g with
      | some c => (c.stageOf g).isSome && c.stageOf g == c.stageOf h
      | none => false
    | _, _ => false
  | _ => true

/-- The ranges of elements. -/
def rangesOf (ps : List Piece) (wr : Bool) : List Range := ps.map fun p => ⟨p.bit, p.len, wr, p.va⟩

/-- A job issued by `a` comes before one issued by `b` under foot (R216): of one controller, or of one frame when their firings
are the same or `a`'s precedes `b`'s. -/
def footOrdered (a b : Src) : Bool :=
  if a.kind = 3 then b.kind = 3 && a.who == b.who
  else b.kind ≠ 3 && a.cfg == b.cfg && a.frame == b.frame && (a.uid == b.uid || b.past.contains a.uid)

/-- Two lists of ranges conflict somewhere, host memory included (R216). -/
def rangesMeet (xs ys : List Range) : Bool := xs.any fun x => ys.any fun y => x.conflicts y

/-- The first pair of conflicting ranges; host memory is not checked (R229), and two contributions to one sequence group do not
conflict (R223). -/
def firstConflict (xs ys : List Range) (contrib : Bool) : Option (Range × Range) :=
  xs.findSome? fun x =>
    if placeOf (x.lo / 8) = .host then none
    else (ys.find? fun y => x.conflicts y && !(contrib && x.wr && y.wr)).map fun y => (x, y)

/-- The footprint of a restore (R452): the sources as writes, the destinations as reads. -/
def ckptFoot (c : Ckpt) : List Range :=
  c.regions.flatMap fun r => [⟨r.1 * 8, r.2.2 * 8, true, r.1⟩, ⟨r.2.1 * 8, r.2.2 * 8, false, r.2.1⟩]

/-- An outstanding footprint (R227): identity and issuer of the job, its kind for W5 (1 job, 2 conversion), ranges, sequence group
and placement handle. -/
structure Foot where
  id : Nat
  src : Src
  kind : Nat
  ranges : List Range
  group : Nat := 0
  handle : Nat := 0

/-- The sequence group that a matrix command contributes to (R356). -/
def MtxOp.group : MtxOp → Nat
  | .mrd _ rcd _ _ => (recOf rcd).seq
  | _ => 0

/-- The footprints outstanding at a time, from the commit of a command until its job completes (R227). -/
def outstanding (s : State) : List Foot :=
  (s.work.filterMap fun w => match w with
    | .copy j => some { id := j.id, src := j.src, kind := 1, ranges := j.foot }
    | .demand d => some { id := d.id, src := d.src, kind := 2, ranges := d.foot, handle := d.handle }
    | .conv j => some { id := j.id, src := j.src, kind := 2, ranges := j.foot, handle := j.handle }
    | .coll j => some { id := j.id, src := j.src, kind := 1, ranges := j.foot }
    | .rel j => some { id := j.id, src := j.src, kind := 1, ranges := j.foot }
    | .sort j => some { id := j.id, src := j.src, kind := 1, ranges := j.foot }
    | _ => none) ++
  (s.groves.flatMap fun e => e.2.queue.map fun m => { id := m.id, src := m.src, kind := 1, ranges := m.foot, group := m.op.group }) ++
  s.drains.flatMap fun e => (e.2.filter fun c => c.rest).map fun c => { id := c.id, src := c.src, kind := 1, ranges := ckptFoot c }

/-- The firings that matter to foot: those with a job outstanding. -/
def issuers (s : State) : List Nat := ((outstanding s).filter fun f => f.src.kind ≠ 3).map fun f => f.src.uid

/-- Firings that precede one, with those that no job of theirs keeps of interest left out. -/
def joinPast (s : State) (xs ys : List Nat) : List Nat :=
  let u := ys.filter fun y => !xs.contains y
  if xs ++ u = [] then [] else let l := issuers s; (xs ++ u).filter fun x => l.contains x

/-- W5 of a record that names the other access (R421). -/
def otherWord (s : State) (okind : Nat) (o : Src) : Nat :=
  let c := getCfg s o.cfg
  let g := if o.kind = 3 then unitGrove o.who else c.relGrove (groveOf o.who)
  let cl := if o.kind = 3 then 0 else cellNo o.who
  okind * 2 ^ 42 + g % 1024 * 2 ^ 32 + o.ctx % 8 * 2 ^ 29 + o.word % 256 * 2 ^ 16 + cl * 2 ^ 10 + o.frame % 1024

/-- The trap of a check that meets a conflicting access which hb does not order before it (R223, R228), if any.  The checks of
one firing against its own accesses are governed by same, those of its engines' events (kind 1) are not (R208); demands of one
handle wait for each other (R274). -/
def raceOf (s : State) (me : InFlight) : Option Trap :=
  let a := s.inflight.findSome? fun o =>
    if me.src.kind ≠ 3 && me.src.kind ≠ 1 && o.src.kind ≠ 3 && o.src.uid == me.src.uid then none
    else if me.kind = .atomic ∧ o.kind = .atomic ∧ inScope s me.scope me.src o.src ∧ inScope s o.scope me.src o.src then none
    else if me.handle ≠ 0 ∧ me.handle = o.handle then none
    else (firstConflict me.ranges o.ranges (me.group ≠ 0 && me.group == o.group)).map fun p =>
      ({ cause := cRACE, addr := p.1.va, aux := p.2.va, other := otherWord s (if o.src.kind = 3 then 3 else 0) o.src } : Trap)
  match a with
  | some t => some t
  | none => (outstanding s).findSome? fun o =>
      if me.kind = .job ∧ footOrdered o.src me.src then none
      else if me.handle ≠ 0 ∧ me.handle = o.handle then none
      else (firstConflict me.ranges o.ranges (me.group ≠ 0 && me.group == o.group)).map fun p =>
        ({ cause := if o.kind = 2 then cPLACE else cRACE, addr := p.1.va, aux := p.2.va, other := otherWord s o.kind o.src } : Trap)

/-- The check of a controller's access or command returns before the instruction completes (R227). -/
def checkNow (s : State) (me : InFlight) : R Unit :=
  match raceOf s me with
  | some t => .error (.trap t)
  | none => .ok ()

/-- The check of a firing's access is sent to the owners (R227). -/
def sendCheck (s : State) (me : InFlight) : State := addWork s (.check me)

/-! ### Tokens (R20, R93, R98, R133) -/

/-- Header of a token without the network-owned route field (R93, R421 W12). -/
def tokenHeader (t : Token) (route : Nat) : Nat :=
  t.ctx % 8 * 2 ^ 61 + t.port % 4 * 2 ^ 59 + t.itag % 2 ^ 24 * 2 ^ 35 + t.frame % 1024 * 2 ^ 25 + t.width % 8 * 2 ^ 22 +
    (if t.last then 2 ^ 21 else 0) + t.count % 32 * 2 ^ 16 + route % 65536

/-- The identity of a route: source cell, context, output (R22). -/
def routeKey (c ctx k : Nat) : Nat := (c * 8 + ctx) * 4 + k + 1

/-- The issuer of a work item that keeps a frame live (R98).  That a committed store, atomic, contribution, close or barrier operation which
is not yet performed does so is the model's choice (log entry 71). -/
def workFrame : Work → Option (Nat × Nat)
  | .token _ t | .predicate _ t => some (t.cfg, t.frame)
  | .check f => if f.src.kind = 3 then none else some (f.src.cfg, f.src.frame)
  | .store a | .atomic a | .contrib a _ => if a.src.kind = 3 then none else some (a.src.cfg, a.src.frame)
  | .close a _ _ _ _ => if a.src.kind = 3 then none else some (a.src.cfg, a.src.frame)
  | .done _ x _ _ _ | .closeDone _ _ x _ _ => some (x.cfg, x.frame)
  | .copy j => if j.src.kind = 3 then none else some (j.src.cfg, j.src.frame)
  | .rel j => if j.src.kind = 3 then none else some (j.src.cfg, j.src.frame)
  | .sort j => if j.src.kind = 3 then none else some (j.src.cfg, j.src.frame)
  | .coll j => if j.src.kind = 3 then none else some (j.src.cfg, j.src.frame)
  | .relContrib r => some (r.src.cfg, r.src.frame)
  | .demand d | .waiting d => if d.src.kind = 3 then none else some (d.src.cfg, d.src.frame)
  | .bar x _ _ _ _ => if x.kind = 3 then none else some (x.cfg, x.frame)
  | _ => none

/-- Something of the frame exists in the configuration's glades (R98). -/
def frameActive (s : State) (cfg fr : Nat) : Bool :=
  (s.cells.any fun e => e.2.tokens.any (fun t => t.cfg == cfg && t.frame == fr) ||
    (e.2.cfg == cfg && e.2.sources.any fun q => q.2 == fr) ||
    (match e.2.firing with | some f => f.cfg == cfg && f.frame == fr | none => false)) ||
  (s.work.any fun w => workFrame w == some (cfg, fr)) ||
  (s.groves.any fun e => e.2.queue.any fun m => m.src.kind != 3 && m.src.cfg == cfg && m.src.frame == fr) ||
  (getFrame s cfg fr).stopped.isSome

/-- The source contexts of a cell (R98). -/
def Cell.sourceCtxs (x : Cell) : List Nat :=
  (List.range 8).filter fun k => x.kind k == 1 && (List.range 4).all (fun p => x.rate k p == 0) && !x.usesQ k 0 && !x.usesQ k 1

/-- The accumulator sets that a frame owns are released, their values unchanged (R347). -/
def releaseSets (s : State) (cfg fr : Nat) : State :=
  { s with groves := tmap {} (fun (g : Grove) =>
      { g with sets := tmap {} (fun (q : MSet) => if q.owner = some (cfg, fr) then { q with owner := none } else q) g.sets }) s.groves }

/-- A frame starts (R98, R314): its status is cleared and every source context is to fire once, ready from now on (R114); the sets of the frame that
bore its number before are released (R347). -/
def startFrame (s : State) (cfg fr : Nat) : State :=
  let skip := (getFrame s cfg fr).skipped
  let s := releaseSets s cfg fr
  let s := modCfg s cfg fun c =>
    { c with frames := tset {} c.frames fr { live := true }, skips := if skip then satAdd16 c.skips 1 else c.skips }
  { s with cells := tmap {} (fun (x : Cell) =>
      if x.cfg = cfg then
        { x with sources := x.sources ++ x.sourceCtxs.map fun k => (k, fr)
                 passed := x.passed ++ (x.sourceCtxs.filter fun k => !x.passed.any fun p => (p.1, p.2.1, p.2.2.1) == (k, fr, 0)).map fun k => (k, fr, 0, 0)
                 counters := x.counters.filter fun q => q.1 % 1024 ≠ fr }
      else x) s.cells }

/-- A token enters the network (R98, R435): it starts its frame when nothing of the frame is live; a skipped frame's
token is discarded; under pre-emption it is parked, and its frame, which ends as skipped if it was, is to start (R179). -/
def sendToken (s : State) (dest : Nat) (t : Token) : State :=
  let f := getFrame s t.cfg t.frame
  if f.skipped && frameActive s t.cfg t.frame then s
  else
    let s := if frameActive s t.cfg t.frame then s
      else if (getCfg s t.cfg).st ≠ .running then
        let s := if f.skipped then modCfg s t.cfg fun c => { c with skips := satAdd16 c.skips 1 } else s
        modFrame s t.cfg t.frame fun f => { f with live := false, skipped := false }
      else startFrame s t.cfg t.frame
    addWork s (if t.pred then .predicate dest t else .token dest t)

/-! ### How an instruction runs on a unit -/

/-- The trap of an instruction that the unit does not decode (R73, R74). -/
def decodeTrap (k : UnitKind) (i : Instr) : Trap := if runsOn k i && codesOk i then { cause := cILLREG } else tIllop 1

/-- A firing waits at its instruction.  Where its configuration is being pre-empted it is withdrawn, and its frame does not
stop (R263, R283). -/
def stallCell (s : State) (c : Nat) (f : Firing) : State :=
  let q := getCfg s f.cfg
  if q.st = .preempting ∧ !q.quiesce then withdrawFiring s c f else s

/-- The firing in progress goes on behind its instruction. -/
def advance (s : State) (c n : Nat) : State :=
  modCell s c fun x => { x with firing := x.firing.map fun f => { f with word := f.word + n } }

/-- The instructions whose stall is an instruction boundary (R424); WFE's, of which a unit waits between instructions too. -/
def boundaryStall : Instr → Bool
  | .wfe .. | .twaita .. | .twaitn .. | .barwait .. | .cwait .. | .pldCtrl .. | .ckptWait .. | .tlbinv .. | .escal => true
  | _ => false

/-- A unit waits at its instruction, which is tried again. -/
def stallCtl (s : State) (u : Nat) (i : Instr) : State :=
  if boundaryStall i || (getCtl s u).midway then s else modCtl s u fun x => { x with midway := true }

/-- An instruction on the unit that has the turn.  On a cell, `onCell cell f s`; on a controller or core `onCtl u pc s`,
where the pc of `s` is already behind the instruction.  A trap is taken, a stall leaves the state as it is, and
the machine's own step before another try is made. -/
def runInstr (i : Instr) (s : State) (onCell : Nat → Firing → State → R State) (onCtl : Nat → Nat → State → R State) : Out State :=
  match s.turn with
  | .cell c =>
    match (getCell s c).firing with
    | some f =>
      if f.phase = .running then
        match (if WellFormed .cell i then onCell c f s else .error (.trap (decodeTrap .cell i))) with
        | .ok t => .next (advance t c (sizeOf' i))
        | .error (.trap t) => .next (firingFault s c f t)
        | .error .stall => .next (stallCell s c f)
        | .error (.redo t) => .next t
      else .refused (.notPending "no instruction is due on the cell")
    | none => .refused (.notPending "no firing runs on the cell")
  | .ctl u =>
    let x := getCtl s u
    if x.mode = .running then
      match (if WellFormed (unitKind u) i then
          onCtl u x.pc (setCtl s u { x with pc := x.pc + 4 * sizeOf' i, midway := false }) else .error (.trap (decodeTrap (unitKind u) i))) with
      | .ok t => .next t
      | .error (.trap t) => .next (takeCtlTrap s u x.pc t)
      | .error .stall => .next (stallCtl s u i)
      | .error (.redo t) => .next (stallCtl (modCtl t u fun y => { y with pc := x.pc, midway := x.midway }) u i)
    else .refused (.notPending "the unit is not running")
  | _ => .refused (.notPending "no unit has the turn")

/-- An instruction of cells only. -/
def onCells (i : Instr) (s : State) (f : Nat → Firing → State → R State) : Out State :=
  runInstr i s f fun _ _ _ => illop 1

/-- An instruction of controllers and cores only. -/
def onCtls (i : Instr) (s : State) (f : Nat → Nat → State → R State) : Out State :=
  runInstr i s (fun _ _ _ => illop 1) f

/-- The item or unit of the event that has the turn. -/
def turnArg (s : State) : Option Nat := match s.turn with
  | .event _ k => some k
  | _ => none

/-- An event row asked for while nothing like it is pending. -/
def notPending {σ : Type} (what : String) : Out σ := .refused (.notPending what)

end Sys2Proof.Machine
end

