-- ==== Sys2Proof/Machine/Flit.lean ====
section
/-! DEFINITION. Balesh flits (R442, R457): their layout, the flits a port sends, and the packets it carries. -/

namespace Sys2Proof.Machine

def getLink (s : State) (p : Nat) : Link := tget {} s.links p
def modLink (s : State) (p : Nat) (f : Link → Link) : State := { s with links := tmod {} s.links p f }

/-! ### Layout (R457) -/

def flitVc (f : BitVec 2048) : Nat := bits f.toNat 62 2
def flitSop (f : BitVec 2048) : Bool := bit f.toNat 61
def flitEop (f : BitVec 2048) : Bool := bit f.toNat 60
def flitSeq (f : BitVec 2048) : Nat := bits f.toNat 40 20
def flitSlots (f : BitVec 2048) : Nat := bits f.toNat 32 8
def flitLen (f : BitVec 2048) : Nat := bits f.toNat 24 8
/-- 64-bit word `k` of the flit's bytes. -/
def flitWord (f : BitVec 2048) (k : Nat) : Nat := bits f.toNat (64 * k) 64

/-- The CRC holds and no reserved bit is set. -/
def flitGood (f : BitVec 2048) : Bool :=
  crc64 (leBytes 248 f.toNat) == bits f.toNat 1984 64 && bits f.toNat 0 24 == 0

/-- A flit of a channel with a payload of `len` bytes. -/
def mkFlit (vc : Nat) (sop eop : Bool) (seq slots len payload : Nat) : BitVec 2048 :=
  let h := vc * 2 ^ 62 + (if sop then 2 ^ 61 else 0) + (if eop then 2 ^ 60 else 0) + seq % 2 ^ 20 * 2 ^ 40 + slots % 256 * 2 ^ 32 + len % 256 * 2 ^ 24
  let body := h + payload % 2 ^ 1920 * 2 ^ 64
  BitVec.ofNat 2048 (body + crc64 (leBytes 248 body) * 2 ^ 1984)

/-! ### Sending -/

/-- The port's partner has room for a flit that takes a slot, and the replay buffer has a place (R457); acknowledgements take no slot
(log entry 19). -/
def flitLeaves (p : Nat) (l : Link) (f : FlitOut) : Bool :=
  decide (l.replayBuf.length < 256) && (f.vc == 1 || decide (l.spent < Config.linkSlots p + l.slots))

/-- The payload of a flit that leaves at time `now`: a time-synchronisation flit says when, and what it last heard of its partner (R457). -/
def flitPayload (now : Nat) (l : Link) (f : FlitOut) : Nat :=
  if f.vc = 2 then now + l.partnerRecv * 2 ^ 64 + l.partnerSent * 2 ^ 128 else f.payload

/-- A flit leaves with the next sequence number and is kept for replay. -/
def putFlit (now : Nat) (l : Link) (f : FlitOut) : Link :=
  let w := mkFlit f.vc f.sop f.eop l.txSeq f.slots f.len (flitPayload now l f)
  { l with txSeq := (l.txSeq + 1) % 2 ^ 20, replayBuf := l.replayBuf ++ [w], wire := l.wire ++ [w], spent := l.spent + (if f.vc = 1 then 0 else 1) }

/-- The flits that wait leave in order, at time `now`, while they may. -/
def pumpFlits (p now : Nat) : List FlitOut → Link → Link
  | [], l => { l with waiting := [] }
  | f :: fs, l => if flitLeaves p l f then pumpFlits p now fs (putFlit now l f) else { l with waiting := f :: fs }

def pumpLink (p now : Nat) (l : Link) : Link := pumpFlits p now l.waiting l

/-- A flit is to leave on port `p`, an acknowledgement ahead of the others. -/
def sendFlit (p now : Nat) (l : Link) (f : FlitOut) : Link :=
  let q := if f.vc = 1 then l.waiting.takeWhile (·.vc == 1) ++ f :: l.waiting.dropWhile (·.vc == 1) else l.waiting ++ [f]
  pumpLink p now { l with waiting := q }

/-- The bytes of a packet from byte `i` on, `n` flits of them. -/
def sendBytes (p now : Nat) (bytes : List Nat) (i : Nat) : Nat → Link → Link
  | 0, l => l
  | n + 1, l =>
    let part := (bytes.drop i).take 240
    sendBytes p now bytes (i + 240) n (sendFlit p now l { vc := 0, sop := i == 0, eop := n == 0, len := part.length, payload := ofBytes part })

/-- A packet leaves on its port: header, then payload (R278). -/
def sendOn (port now : Nat) (l : Link) (p : Packet) : Link :=
  let bytes := leBytes 64 p.header.toNat ++ p.payload.map (·.toNat)
  sendBytes port now bytes 0 ((bytes.length + 239) / 240) l

/-- An acknowledgement of what has come in order, with or without a request for replay; it returns `slots` slots. -/
def sendAck (p now : Nat) (l : Link) (replay : Bool) (slots : Nat) : Link :=
  sendFlit p now { l with ackSent := l.rxSeq }
    { vc := 1, slots := slots, payload := (l.rxSeq + 2 ^ 20 - 1) % 2 ^ 20 + (if replay then 2 ^ 63 + l.rxSeq * 2 ^ 32 else 0) }

/-! ### Receiving -/

/-- A flit with a bad CRC: a replay is asked for (R442). -/
def badFlit (s : State) (p : Nat) : State :=
  { modLink s p fun l => { sendAck p s.timens.toNat l true 0 with failed := l.failed + 1, replays := l.replays + 1 } with retries := s.retries + 1 }

/-- What a flit brings in every channel: the next sequence number, and the slots it returns. -/
def takeFlit (l : Link) (f : BitVec 2048) : Link :=
  { l with rxSeq := (l.rxSeq + 1) % 2 ^ 20, failed := 0, slots := l.slots + flitSlots f }

/-- The flits that wait on a port leave while they may. -/
def pumpPort (s : State) (p : Nat) : State := modLink s p (pumpLink p s.timens.toNat)

/-- A flit of channel `vc` may arrive on the port: its CRC fails, or it is of that channel; a device without a number takes part in
bring-up only, that is in management and its acknowledgements (R19). -/
def flitDue (s : State) (p vc : Nat) (f : BitVec 2048) : Bool :=
  decide (p < 32) && (getLink s p).up && (vc == 1 || vc == 3 || s.devnum.isSome) && (!flitGood f || flitVc f == vc)

/-- A flit arrives: a bad one is asked for again, one out of order is dropped, since a replay brings it in order (R442), and one
in order is taken; what waited for the slots it returns leaves then. -/
def flitArrives (p vc : Nat) (f : BitVec 2048) (s : State) (take : State → State) : Out State :=
  if !flitDue s p vc f then notPending "no such flit arrives"
  else if !flitGood f then .next (badFlit s p)
  else if flitSeq f ≠ (getLink s p).rxSeq then .next (modLink s p fun l => sendAck p s.timens.toNat l false 0)
  else .next (pumpPort (take (modLink s p fun l => takeFlit l f)) p)

/-- The bytes that a packet-data flit adds to its packet. -/
def flitBytes (f : BitVec 2048) : List Byte := (leBytes (min (flitLen f) 240) (f.toNat / 2 ^ 64)).map (BitVec.ofNat 8)

/-- Flits that a packet, or part of one, of `n` bytes came in. -/
def flitsOf (n : Nat) : Nat := (n + 239) / 240

/-- The packet holds slots of its link: a node of this device did not make it, and it does not stand in a parking slot (R281). -/
def Packet.inLink (q : Packet) : Bool := decide (q.port < 32) && !q.parked

/-- The slots of a packet's flits are returned when it no longer waits in its link (R457, R466). -/
def freeSlots (s : State) (q : Packet) : State :=
  if q.inLink then modLink s q.port fun l => sendAck q.port s.timens.toNat l false (flitsOf (64 + q.payload.length)) else s

/-- A packet leaves the pending work, and its link if it waits there. -/
def takePacket (s : State) (k : Nat) (q : Packet) : State := freeSlots (dropWork s k) q

/-- A packet arrives: it takes the module from PW1 to PW0, and out of standby (R460). -/
def packetCame (s : State) (q : Packet) : State :=
  let s := if s.power = .pw1 then { s with power := .pw0, idleSince := none } else s
  addWork s (.packet { q with wakes := s.power == .pw2 })

/-- A packet-data flit in order: the packet grows, and its last flit delivers it (R278).  Its slot is returned when the packet is taken
(R466), and that of a part that no last flit ended at once. -/
def takeData (p : Nat) (f : BitVec 2048) (s : State) : State :=
  let bytes := (if flitSop f then [] else (getLink s p).partialPkt) ++ flitBytes f
  let s := modLink s p fun l => sendAck p s.timens.toNat { l with partialPkt := if flitEop f then [] else bytes } false
    (if flitSop f then flitsOf l.partialPkt.length else 0)
  if flitEop f then
    packetCame s { port := p, header := BitVec.ofNat 512 (ofBytes ((bytes.take 64).map (·.toNat))), payload := bytes.drop 64 }
  else s

/-- FLIT_DATA (R457). A packet-data flit arrives on a Balesh port and its CRC is checked. -/
def execFlitData (port : Nat) (flit : BitVec 2048) (s : State) : Out State := flitArrives port 0 flit s (takeData port flit)

/-- The distance from sequence number `a` up to `b`. -/
def seqDist (a b : Nat) : Nat := (b + 2 ^ 20 - a) % 2 ^ 20

/-- An acknowledgement in order: flits up to the acknowledged one need no replay; on request every flit from the named one on is sent
again, in order, before any that waits takes its place behind them.  Acknowledgements are themselves acknowledged 128 at a time (log
entry 19). -/
def takeAck (p : Nat) (f : BitVec 2048) (s : State) : State :=
  let ack := bits (flitWord f 1) 0 20
  let kept := (getLink s p).replayBuf.filter fun g => decide (seqDist ack (flitSeq g) < 2 ^ 19) && flitSeq g != ack
  let s := modLink s p fun l => { l with acked := ack, replayBuf := kept }
  let s := if bit (flitWord f 1) 63 then
      let from_ := bits (flitWord f 1) 32 20
      let again := kept.filter fun g => decide (seqDist from_ (flitSeq g) < 2 ^ 19)
      { modLink s p fun l => { l with wire := l.wire ++ again, replays := l.replays + 1 } with retries := s.retries + 1 }
    else s
  modLink s p fun l => if 128 ≤ seqDist l.ackSent l.rxSeq then sendAck p s.timens.toNat l false 0 else l

/-- FLIT_ACK (R457). An acknowledgement flit arrives, possibly requesting replay. -/
def execFlitAck (port : Nat) (flit : BitVec 2048) (s : State) : Out State := flitArrives port 1 flit s (takeAck port flit)

/-- A time-synchronisation flit is to leave (R457). -/
def timeFlit (p : Nat) (l : Link) (now slots : Nat) : Link := sendFlit p now l { vc := 2, slots := slots }

/-- The time a counter is steered to: toward the target, and to within `off` of it; `off` is at most 50 ns (R457). -/
def steer (off now target : Nat) : Nat := if now ≤ target then max now (target - off) else min now (target + off)

/-- A time-synchronisation flit in order: the device steers toward a partner of lower number, half the round trip behind its
send time, and answers with its own times. -/
def takeTime (p : Nat) (f : BitVec 2048) (s : State) : State :=
  let now := s.timens.toNat
  let sent := flitWord f 1
  let round : Int := ((now : Int) - flitWord f 3) - ((sent : Int) - flitWord f 2)
  let target := sent + (round / 2).toNat
  let lower := match s.devnum with | some d => decide (Config.partnerOf p < d) | none => false
  let s := modLink s p fun l => timeFlit p { l with partnerSent := sent, partnerRecv := now } now 1
  if lower then { s with timens := BitVec.ofNat 64 (steer (Config.steered s.tick % 51) now target) } else s

/-- FLIT_TIMESYNC (R457). A time-synchronisation flit arrives and steers the time counter. -/
def execFlitTimesync (port : Nat) (flit : BitVec 2048) (s : State) : Out State := flitArrives port 2 flit s (takeTime port flit)

/-- A management flit reaches Troira, which may assign the device number (R19, R458). -/
def takeManagement (p : Nat) (f : BitVec 2048) (s : State) : State :=
  let s := modLink s p fun l => sendAck p s.timens.toNat { l with managed := l.managed ++ [f] } false 1
  match s.devnum, Config.numberIn f with
  | none, some d => { s with devnum := some (d % 2 ^ 18) }
  | _, _ => s

/-- FLIT_MANAGEMENT (R457). A management flit arrives for the Troira controller. -/
def execFlitManagement (port : Nat) (flit : BitVec 2048) (s : State) : Out State := flitArrives port 3 flit s (takeManagement port flit)

/-! ### Retraining (R442) -/

/-- A LINK entry of a port: 1 retrain, 2 down, 3 up, with the replays since the last up (R444). -/
def linkEvent (s : State) (p what : Nat) : State := bboxEvent s (p / 8) 4 0 0 0 0 0 0 (p + what * 256) (getLink s p).replays

/-- A flit failed, and so did 16 replays of it in a row. -/
def retrainDue (s : State) (p : Nat) : Bool := decide (p < 32) && (getLink s p).up && !(getLink s p).retraining && decide (17 ≤ (getLink s p).failed)

/-- LINK_RETRAIN (R442). After 16 consecutive failed replays the link retrains. -/
def execLinkRetrain (port : Nat) (s : State) : Out State :=
  if retrainDue s port then .next (modLink (linkEvent s port 1) port fun l => { l with retraining := true, failed := 0 })
  else notPending "no link has failed so often"

/-- The port is down or retrains. -/
def upDue (s : State) (p : Nat) : Bool := decide (p < 32) && (!(getLink s p).up || (getLink s p).retraining)

/-- LINK_UP (R442). A port comes up again and writes a LINK entry. -/
def execLinkUp (port : Nat) (s : State) : Out State :=
  if upDue s port then .next (modLink (linkEvent s port 3) port fun l => { l with up := true, retraining := false, failed := 0, replays := 0 })
  else notPending "the port is up"

end Sys2Proof.Machine
end

