-- ==== Sys2Proof/Decode.lean ====
section
/-! DEFINITION. Decoding and encoding of instruction words: the formats of R56 to R62, the opcode map of
R69, the fates of R73 in the order of R74.  The decoder is total: every list of words gives an
instruction and the words after it, or a named defect. -/

namespace Sys2Proof

/-! ### The formats -/

/-- The R3 format (R56): major, d, a, b, fn, m. -/
def packR3 (maj d a b fn m : Nat) : Nat := ((((maj * 64 + d) * 64 + a) * 64 + b) * 32 + fn) * 8 + m
/-- The R4 format (R57): major, d, a, b, c, m. -/
def packR4 (maj d a b c m : Nat) : Nat := ((((maj * 64 + d) * 64 + a) * 64 + b) * 64 + c) * 4 + m
/-- The I format (R58) and the L format (R62): major, d, a, fn, imm11. -/
def packI (maj d a fn i : Nat) : Nat := (((maj * 64 + d) * 64 + a) * 8 + fn) * 2048 + i
/-- The M format (R59): major, d, a, rec, ordin, ordout, scope, fn. -/
def packM (maj d a r o p s fn : Nat) : Nat := ((((((maj * 64 + d) * 64 + a) * 8 + r) * 4 + o) * 2 + p) * 8 + s) * 32 + fn
/-- The B format (R60): major, cond, a, b, offset13. -/
def packB (maj c a b o : Nat) : Nat := (((maj * 8 + c) * 32 + a) * 32 + b) * 8192 + o
/-- The J format (R61): major, link, offset21. -/
def packJ (maj l o : Nat) : Nat := (maj * 32 + l) * 2097152 + o

/-- The field [31:26], the major of every format. -/
def fMaj (w : Nat) : Nat := w / 67108864 % 64
/-- The field [25:20]. -/
def fD (w : Nat) : Nat := w / 1048576 % 64
/-- The field [19:14]. -/
def fA (w : Nat) : Nat := w / 16384 % 64
/-- The field [13:8] of R3 and R4. -/
def fB (w : Nat) : Nat := w / 256 % 64
/-- The field [7:3] of R3. -/
def fFn (w : Nat) : Nat := w / 8 % 32
/-- The field [2:0] of R3. -/
def fM (w : Nat) : Nat := w % 8
/-- The field [7:2] of R4. -/
def fC (w : Nat) : Nat := w / 4 % 64
/-- The field [1:0] of R4. -/
def fM2 (w : Nat) : Nat := w % 4
/-- The field [13:11] of I, L and M. -/
def fFn3 (w : Nat) : Nat := w / 2048 % 8
/-- The field [10:0] of I and L. -/
def fImm (w : Nat) : Nat := w % 2048
/-- The field [10:9] of M. -/
def fO (w : Nat) : Nat := w / 512 % 4
/-- The field [8] of M. -/
def fP (w : Nat) : Nat := w / 256 % 2
/-- The field [7:5] of M. -/
def fS (w : Nat) : Nat := w / 32 % 8
/-- The field [4:0] of M. -/
def fFn5 (w : Nat) : Nat := w % 32
/-- The field [25:23] of B. -/
def fCond (w : Nat) : Nat := w / 8388608 % 8
/-- The field [22:18] of B. -/
def fBa (w : Nat) : Nat := w / 262144 % 32
/-- The field [17:13] of B. -/
def fBb (w : Nat) : Nat := w / 8192 % 32
/-- The field [12:0] of B. -/
def fOff13 (w : Nat) : Nat := w % 8192
/-- The field [25:21] of J. -/
def fLink (w : Nat) : Nat := w / 2097152 % 32
/-- The field [20:0] of J. -/
def fOff21 (w : Nat) : Nat := w % 2097152

/-- A field that must be 0: an unused field (R71), or a code of which 0 alone is accepted (R70). -/
def zeroThen (x : Nat) (i : Instr) : Option Instr := if x = 0 then some i else none

/-! ### The groups (R69)

Each function answers the instruction that a word of the group names, with its fields as they stand, or
`none` for an unassigned function code, an unaccepted value of a code the instruction does not carry, or
a non-zero unused field: the ILLOP cases of R74 but for those of `codesOk`. -/

/-- INT (R315). -/
def rawInt (fn b : Nat) (D A B : Spec) (M : BitVec 3) : Option Instr :=
  match fn with
  | 0 => some (.iadd D A B M) | 1 => some (.isub D A B M) | 2 => some (.imul D A B M) | 3 => some (.imulh D A B M)
  | 4 => some (.imulhu D A B M) | 5 => some (.imin D A B M) | 6 => some (.imax D A B M) | 7 => some (.iminu D A B M)
  | 8 => some (.imaxu D A B M) | 9 => zeroThen b (.iabs D A M) | 10 => some (.iand D A B M) | 11 => some (.ior D A B M)
  | 12 => some (.ixor D A B M) | 13 => some (.iandn D A B M) | 14 => some (.shl D A B M) | 15 => some (.shr D A B M)
  | 16 => some (.sar D A B M) | 17 => some (.rol D A B M) | 18 => zeroThen b (.clz D A M) | 19 => zeroThen b (.popc D A M)
  | _ => none

/-- INTI (R316). -/
def rawInti (fn a : Nat) (D A : Spec) (I : BitVec 11) : Option Instr :=
  match fn with
  | 0 => some (.iaddi D A I) | 1 => some (.andi D A I) | 2 => some (.ori D A I) | 3 => some (.xori D A I)
  | 4 => some (.shli D A I) | 5 => some (.shri D A I) | 6 => some (.sari D A I) | 7 => zeroThen a (.movi D I)
  | _ => none

/-- BITS (R320). -/
def rawBits (fn b : Nat) (D A B : Spec) (M : BitVec 3) : Option Instr :=
  match fn with
  | 0 => some (.bfx D A B M) | 1 => some (.bfx2 D A B M) | 2 => some (.bfi D A B M) | 3 => zeroThen b (.iota D A M)
  | 4 => some (.shuf D A B M) | 5 => some (.lane D A B M) | 6 => some (.pack D A B M) | 7 => some (.unpk D A B M)
  | _ => none

/-- ICMP (R318). -/
def rawIcmp (fn : Nat) (D A B : Spec) (M : BitVec 3) : Option Instr :=
  match fn with
  | 0 => some (.iceq D A B M) | 1 => some (.icne D A B M) | 2 => some (.iclt D A B M)
  | 3 => some (.icge D A B M) | 4 => some (.icltu D A B M) | 5 => some (.icgeu D A B M)
  | _ => none

/-- MOVL (R317); `u` is the second word, `imm` the reserved field of the first (R62). -/
def rawMovl (fn a imm : Nat) (D A : Spec) (u : BitVec 32) : Option Instr :=
  if imm = 0 then
    match fn with
    | 0 => zeroThen a (.movl D u) | 1 => zeroThen a (.movl0 D u)
    | 2 => some (.iaddl D A u) | 3 => some (.andl D A u) | 4 => some (.orl D A u)
    | _ => none
  else none

/-- FP (R323): fn = op × 4 + format. -/
def rawFp (op m : Nat) (D A B : Spec) (F : BitVec 2) (M : BitVec 3) : Option Instr :=
  match op with
  | 0 => some (.fadd D A B F M) | 1 => some (.fsub D A B F M) | 2 => some (.fmul D A B F M)
  | 3 => zeroThen m (.fmin D A B F) | 4 => zeroThen m (.fmax D A B F) | 5 => some (.fscale D A B F M)
  | _ => none

/-- FUN (R327): fn = op × 4 + format, b and m 0. -/
def rawFun (op b m : Nat) (D A : Spec) (F : BitVec 2) : Option Instr :=
  if b = 0 ∧ m = 0 then
    match op with
    | 0 => some (.fabs D A F) | 1 => some (.fneg D A F) | 2 => some (.frcp D A F) | 3 => some (.frsq D A F)
    | 4 => some (.fsqrt D A F) | 5 => some (.fexp2 D A F) | 6 => some (.flog2 D A F) | 7 => some (.ftanh D A F)
    | _ => none
  else none

/-- FCMP (R328): fn = cond × 4 + format, m 0; condition 7 is FCLASS (R305). -/
def rawFcmp (op b m : Nat) (D A B : Spec) (F : BitVec 2) : Option Instr :=
  if m = 0 then
    match op with
    | 0 => some (.fceq D A B F) | 1 => some (.fclt D A B F) | 2 => some (.fcle D A B F) | 3 => some (.fcun D A B F)
    | 4 => some (.fcne D A B F) | 5 => some (.fcgt D A B F) | 6 => some (.fcge D A B F) | 7 => zeroThen b (.fclass D A F)
    | _ => none
  else none

/-- BLK (R329, R367, R368). -/
def rawBlk (fn m : Nat) (D A B : Spec) (M : BitVec 3) : Option Instr :=
  match fn with
  | 0 => some (.bdotE2m1 D A B M) | 1 => some (.bdotE4m3 D A B M) | 2 => some (.bdotE5m2 D A B M) | 3 => some (.bdotI8 D A B M)
  | 4 => zeroThen m (.scacc D A B)
  | 5 => some (.qntE4m3 D A B M) | 6 => some (.qntE5m2 D A B M) | 7 => some (.qntE2m1 D A B M) | 8 => some (.qntI8 D A B M)
  | 9 => zeroThen m (.deqE4m3 D A B) | 10 => zeroThen m (.deqE5m2 D A B) | 11 => zeroThen m (.deqE2m1 D A B)
  | 12 => zeroThen m (.deqI8 D A B) | 13 => zeroThen m (.vlutBf16 D A B) | 14 => zeroThen m (.vlutF32 D A B)
  | _ => none

/-- RED (R335). -/
def rawRed (fn b : Nat) (D A B : Spec) (M : BitVec 3) : Option Instr :=
  match fn with
  | 0 => zeroThen b (.rsum D A M) | 1 => zeroThen b (.rmax D A M) | 2 => zeroThen b (.rmin D A M) | 3 => zeroThen b (.scan D A M)
  | 4 => some (.vsort D A B M) | 5 => some (.vtopk D A B M) | 6 => some (.vmerge D A B M)
  | _ => none

/-- FLOW (R127). -/
def rawFlow (fn d a b m : Nat) (D A B : Spec) (M : BitVec 3) : Option Instr :=
  match fn with
  | 0 => some (.emit D A B M) | 1 => some (.emitn D A B M) | 2 => zeroThen a (.emitz D B M)
  | 3 => zeroThen m (.emitq D A B) | 4 => zeroThen m (.bound D A B)
  | 5 => zeroThen (d + a + b + m) .endFiring | 6 => zeroThen (d + a + b + m) .nop
  | _ => none

/-- HELD (R140). -/
def rawHeld (fn a b m : Nat) (D A B : Spec) : Option Instr :=
  match fn with
  | 0 => if m = 0 then zeroThen a (.hrec D B) else if m = 1 then zeroThen (a + b) (.hrecClr D) else none
  | 1 => zeroThen (a + b + m) (.hdrop D) | 2 => zeroThen (a + b + m) (.hfill D)
  | 3 => zeroThen (b + m) (.hstat D A) | 4 => zeroThen (a + b + m) (.hcap D)
  | _ => none

/-- TRAPU (R147). -/
def rawTrapu (fn d a m : Nat) (A B : Spec) : Option Instr :=
  match fn with
  | 0 => zeroThen (d + m) (.trap A B) | 1 => zeroThen (d + a + m) (.brkp B)
  | _ => none

/-- MEM (R230). -/
def rawMem (fn d : Nat) (D A : Spec) (R : BitVec 3) (O : BitVec 2) (P : BitVec 1) (S : BitVec 3) : Option Instr :=
  match fn with
  | 0 => some (.ld D A R O P S) | 1 => some (.st D A R O P S) | 2 => some (.ldb D A R O P S) | 3 => some (.ldx D A R O P S)
  | 4 => some (.stx D A R O P S) | 5 => some (.stnf D A R O P S) | 6 => zeroThen d (.seqcl A R O P S)
  | _ => none

/-- GS (R242). -/
def rawGs (fn : Nat) (D A : Spec) (R : BitVec 3) (O : BitVec 2) (P : BitVec 1) (S : BitVec 3) : Option Instr :=
  match fn with
  | 0 => some (.ldg D A R O P S) | 1 => some (.stg D A R O P S) | 2 => some (.ldgx D A R O P S)
  | _ => none

/-- ATOM (R243). -/
def rawAtom (fn : Nat) (D A : Spec) (R : BitVec 3) (O : BitVec 2) (P : BitVec 1) (S : BitVec 3) : Option Instr :=
  match fn with
  | 0 => some (.aadd D A R O P S) | 1 => some (.amin D A R O P S) | 2 => some (.amax D A R O P S) | 3 => some (.axch D A R O P S)
  | 4 => some (.acas D A R O P S) | 5 => some (.aor D A R O P S) | 6 => some (.aand D A R O P S)
  | _ => none

/-- ORD (R251). -/
def rawOrd (fn d a r : Nat) (O : BitVec 2) (P : BitVec 1) (S : BitVec 3) : Option Instr :=
  if d + a + r = 0 then
    match fn with
    | 0 => some (.ord O P S) | 1 => some (.ordw O P S)
    | _ => none
  else none

/-- STRM (R253): the two units give the words different fields. -/
def rawStrm (k : UnitKind) (fn d b m : Nat) (D A B : Spec) : Option Instr :=
  if m = 0 then
    match k, fn with
    | .cell, 0 => some (.scopyCell D A B) | .cell, 1 => some (.sxformCell D A B)
    | .ctl, 0 => zeroThen (d + b) (.scopyCtrl A) | .ctl, 1 => zeroThen (d + b) (.sxformCtrl A)
    | .ctl, 2 => some (.sbind D A B)
    | .cell, 3 => zeroThen (d + b) (.scancel A) | .ctl, 3 => zeroThen (d + b) (.scancel A)
    | _, _ => none
  else none

/-- TAG (R262). -/
def rawTag (fn d b m : Nat) (D A : Spec) : Option Instr :=
  if b + m = 0 then
    match fn with
    | 0 => some (.twaita D A) | 1 => some (.twaitn D A) | 2 => some (.tffr D A) | 3 => zeroThen d (.tclr A)
    | 4 => some (.tcnt D A)
    | _ => none
  else none

/-- BAR (R264). -/
def rawBar (fn d b m : Nat) (D A B : Spec) : Option Instr :=
  if m = 0 then
    match fn with
    | 0 => zeroThen d (.barinit A B) | 1 => zeroThen (d + b) (.bararv A) | 2 => zeroThen d (.baradd A B)
    | 3 => some (.barwait D A B) | 4 => zeroThen b (.bartest D A)
    | _ => none
  else none

/-- MTX (R344). -/
def rawMtx (fn d a b m : Nat) (D A B : Spec) : Option Instr :=
  match fn with
  | 0 => zeroThen (d + m) (.mlw A B) | 1 => zeroThen (d + a + b + m) .mswp | 2 => zeroThen m (.mstr D A B)
  | 3 => match m with
    | 0 => some (.mrd D A B 0) | 1 => some (.mrdH D A B 0) | 2 => some (.mrd D A B 1) | 3 => some (.mrdH D A B 1)
    | _ => none
  | 4 => zeroThen (a + b + m) (.mclr D) | 5 => zeroThen (a + b + m) (.mchk D) | 6 => zeroThen (b + m) (.mshp D A)
  | _ => none

/-- REL (R391). -/
def rawRel (fn d b m : Nat) (D A B : Spec) : Option Instr :=
  match fn with
  | 0 => zeroThen (d + b + m) (.rdef A) | 1 => zeroThen (d + m) (.rins A B) | 2 => zeroThen (d + b + m) (.rjoin A)
  | 3 => zeroThen (d + b + m) (.ranti A) | 4 => zeroThen (b + m) (.rrnd D A)
  | 5 => match m with | 0 => some (.rqck D A B 0) | 1 => some (.rqck D A B 1) | _ => none
  | 6 => zeroThen (d + m) (.rdel A B) | 7 => zeroThen (d + b + m) (.rclr A) | 8 => zeroThen m (.rlook D A B)
  | 9 => zeroThen (d + m) (.rgrad A B)
  | _ => none

/-- SRT (R399). -/
def rawSrt (fn m : Nat) (D A B : Spec) (N : BitVec 1) : Option Instr :=
  if m < 2 then
    match fn with
    | 0 => some (.rsort D A B N) | 1 => some (.rtopk D A B N) | 2 => some (.rmrg D A B N)
    | _ => none
  else none

/-- PLC (R284): the two units give PLD and PCONV different fields. -/
def rawPlc (k : UnitKind) (fn d b m : Nat) (D A B : Spec) : Option Instr :=
  if m = 0 then
    match fn with
    | 0 => zeroThen d (.pdef A B)
    | 1 => match k with | .cell => some (.pldCell D A B) | _ => zeroThen b (.pldCtrl D A)
    | 2 => match k with | .cell => zeroThen d (.pconvCell A B) | _ => zeroThen (d + b) (.pconvCtrl A)
    | 3 => zeroThen b (.pqry D A) | 4 => zeroThen d (.cdef A B) | 5 => zeroThen b (.cstart D A)
    | 6 => zeroThen b (.cwait D A) | 7 => zeroThen b (.cpoll D A)
    | _ => none
  else none

/-- BR (R150). -/
def rawBr (c : Nat) (A B : GSpec) (O : BitVec 13) : Option Instr :=
  match c with
  | 0 => some (.beq A B O) | 1 => some (.bne A B O) | 2 => some (.blt A B O)
  | 3 => some (.bge A B O) | 4 => some (.bltu A B O) | 5 => some (.bgeu A B O)
  | _ => none

/-- CMEM (R153). -/
def rawCmem (fn m : Nat) (D A B : Spec) (M : BitVec 3) (M2 : BitVec 2) : Option Instr :=
  match fn with
  | 0 => some (.ldc D A B M)
  | 1 => if m < 4 then some (.stc D A B M2) else none
  | _ => none

/-- CREG (R156).  A CWR of register 99 is DISPGO (R162) and one of register 100 a write of PWREQ (R461). -/
def rawCreg (fn d a i : Nat) (D A : Spec) (I : BitVec 11) : Option Instr :=
  match fn with
  | 0 => zeroThen a (.crd D I)
  | 1 => zeroThen d (if i = 99 then .dispgo A else if i = 100 then .pwreqStandby A else .cwr A I)
  | _ => none

/-- SCHED (R185). -/
def rawSched (fn d b m : Nat) (D A B : Spec) : Option Instr :=
  if m = 0 then
    match fn with
    | 0 => some (.launch D A B) | 1 => zeroThen b (.join D A) | 2 => zeroThen b (.conf D A) | 3 => some (.splice D A B)
    | 4 => zeroThen b (.preempt D A) | 5 => some (.ctxsv D A B) | 6 => some (.ctxrs D A B)
    | 7 => zeroThen b (.wfe D A) | 8 => zeroThen (d + b) (.sev A)
    | _ => none
  else none

/-- SYS (R432, R407, R416, R446, R451).  The four SMC requests share one word (R407). -/
def rawSys (fn d a b m : Nat) (D A B : Spec) : Option Instr :=
  match fn with
  | 0 => zeroThen m (.svc D A B) | 1 => zeroThen (d + a + b + m) .eret | 2 => zeroThen (d + b + m) (.fres A)
  | 3 => zeroThen (d + a + b + m) .fskip | 4 => zeroThen (d + a + b + m) .escal | 5 => zeroThen (d + m) (.tlbinv A B)
  | 6 => zeroThen m (.smcSetblk D A B)
  | 7 => match m with | 0 => some (.bbox D A B) | 1 => zeroThen d (.bboxWr A B) | _ => none
  | 8 => match m with
    | 0 => zeroThen b (.ckpt D A) | 1 => zeroThen b (.ckptPoll D A) | 2 => zeroThen b (.ckptWait D A)
    | 3 => zeroThen b (.ckptAbort D A) | 4 => zeroThen b (.ckptRest D A)
    | _ => none
  | _ => none

/-- The opcode map (R69): what the word `w`, with second word `u`, names on a unit of kind `k`. -/
def rawWord (k : UnitKind) (w : Nat) (u : BitVec 32) : Option Instr :=
  let d := fD w; let a := fA w; let b := fB w; let fn := fFn w; let m := fM w
  let D : Spec := BitVec.ofNat 6 d; let A : Spec := BitVec.ofNat 6 a; let B : Spec := BitVec.ofNat 6 b
  let C : Spec := BitVec.ofNat 6 (fC w); let M : BitVec 3 := BitVec.ofNat 3 m; let M2 : BitVec 2 := BitVec.ofNat 2 m
  let I : BitVec 11 := BitVec.ofNat 11 (fImm w)
  let F : BitVec 2 := BitVec.ofNat 2 (fn % 4)
  let R : BitVec 3 := BitVec.ofNat 3 (fFn3 w); let O : BitVec 2 := BitVec.ofNat 2 (fO w)
  let P : BitVec 1 := BitVec.ofNat 1 (fP w); let S : BitVec 3 := BitVec.ofNat 3 (fS w)
  match fMaj w with
  | 0x01 => rawInt fn b D A B M
  | 0x02 => rawInti (fFn3 w) a D A I
  | 0x03 => rawBits fn b D A B M
  | 0x04 => rawIcmp fn D A B M
  | 0x05 => some (.sel D A B C (BitVec.ofNat 2 (fM2 w)))
  | 0x06 => rawMovl (fFn3 w) a (fImm w) D A u
  | 0x08 => rawFp (fn / 4) m D A B F M
  | 0x09 => some (.ffma D A B C (BitVec.ofNat 2 (fM2 w)))
  | 0x0A => rawFun (fn / 4) b m D A F
  | 0x0B => some (.fcvt D A B (BitVec.ofNat 5 fn) M)
  | 0x0C => rawFcmp (fn / 4) b m D A B F
  | 0x0E => rawBlk fn m D A B M
  | 0x0F => rawRed fn b D A B M
  | 0x10 => rawFlow fn d a b m D A B M
  | 0x11 => rawHeld fn a b m D A B
  | 0x12 => rawTrapu fn d a m A B
  | 0x14 => rawMem (fFn5 w) d D A R O P S
  | 0x15 => rawGs (fFn5 w) D A R O P S
  | 0x16 => rawAtom (fFn5 w) D A R O P S
  | 0x17 => rawOrd (fFn5 w) d a (fFn3 w) O P S
  | 0x18 => rawStrm k fn d b m D A B
  | 0x19 => rawTag fn d b m D A
  | 0x1A => rawBar fn d b m D A B
  | 0x1C => rawMtx fn d a b m D A B
  | 0x1D => rawRel fn d b m D A B
  | 0x1E => rawSrt fn m D A B (BitVec.ofNat 1 m)
  | 0x1F => rawPlc k fn d b m D A B
  | 0x20 => rawBr (fCond w) (BitVec.ofNat 5 (fBa w)) (BitVec.ofNat 5 (fBb w)) (BitVec.ofNat 13 (fOff13 w))
  | 0x21 => if fOff21 w = 0 then some (.jalr (BitVec.ofNat 5 (fLink w)))
            else some (.jal (BitVec.ofNat 5 (fLink w)) (BitVec.ofNat 21 (fOff21 w)))
  | 0x22 => rawCmem fn m D A B M M2
  | 0x23 => rawCreg (fFn3 w) d a (fImm w) D A I
  | 0x24 => rawSched fn d b m D A B
  | 0x25 => rawSys fn d a b m D A B
  | _ => none

/-- Decoding of one instruction on a unit of kind `k`: its first word `w` and, for a long form, its
second word `u` (R74: the steps 1 to 5 give ILLOP, step 6 ILLREG). -/
def decodeWord (k : UnitKind) (w : Nat) (u : BitVec 32) : Except Defect Instr :=
  match rawWord k w u with
  | none => .error .illop
  | some i => if runsOn k i && codesOk i then (if specsOk k i then .ok i else .error .illreg) else .error .illop

/-- A first word whose major is that of the long forms takes the word after it as well (R55). -/
def isLong (w : Nat) : Bool := fMaj w == 6

/-- Decoding of a list of words: the instruction at its head and the words after it.  A long form whose
second word is missing has the defect of R105; an empty list has none of the words of a range (R104). -/
def decodeWords (k : UnitKind) : List Nat → Except Defect (Instr × List Nat)
  | [] => .error .noend
  | w :: rest =>
    if isLong w then
      match rest with
      | [] => .error .noend
      | u :: rest' => (decodeWord k w (BitVec.ofNat 32 u)).map (·, rest')
    else (decodeWord k w 0).map (·, rest)

/-- The 32-bit little-endian words of a list of bytes (R2, R54); bytes that do not fill a word are left out. -/
def wordsOfBytes : List Byte → List Nat
  | b0 :: b1 :: b2 :: b3 :: rest =>
      (b0.toNat + b1.toNat * 256 + b2.toNat * 65536 + b3.toNat * 16777216) :: wordsOfBytes rest
  | _ => []

/-- Decoding of bytes: the bytes of words laid out as R2 gives. -/
def decodeBytes (k : UnitKind) (bs : List Byte) : Except Defect (Instr × List Nat) := decodeWords k (wordsOfBytes bs)

/-- The four little-endian bytes of a word (R2). -/
def bytesOfWord (w : Nat) : List Byte :=
  [BitVec.ofNat 8 w, BitVec.ofNat 8 (w / 256), BitVec.ofNat 8 (w / 65536), BitVec.ofNat 8 (w / 16777216)]

/-- The instruction of a word of the opcode table: bit 0 is the least significant bit of the first word
and the second word follows it; the bits above `nbits` are 0.  The words are laid out in memory order and
given to the decoder of a cell first, of a grove controller next, of a supervisor core last. -/
def decodeTableWord (nbits w : Nat) : Option Instr :=
  let v := w % 2 ^ nbits
  let bs := bytesOfWord (v % 4294967296) ++ bytesOfWord (v / 4294967296 % 4294967296)
  match decodeBytes .cell bs with
  | .ok (i, _) => some i
  | .error _ =>
    match decodeBytes .ctl bs with
    | .ok (i, _) => some i
    | .error _ =>
      match decodeBytes .core bs with
      | .ok (i, _) => some i
      | .error _ => none

/-! ### The encoder -/

/-- The words of an instruction (R56 to R62, R69); empty for a step that is not an instruction word. -/
def encode : Instr → List Nat
  | .iadd d a b m => [packR3 0x01 d.toNat a.toNat b.toNat 0 m.toNat]
  | .isub d a b m => [packR3 0x01 d.toNat a.toNat b.toNat 1 m.toNat]
  | .imul d a b m => [packR3 0x01 d.toNat a.toNat b.toNat 2 m.toNat]
  | .imulh d a b m => [packR3 0x01 d.toNat a.toNat b.toNat 3 m.toNat]
  | .imulhu d a b m => [packR3 0x01 d.toNat a.toNat b.toNat 4 m.toNat]
  | .imin d a b m => [packR3 0x01 d.toNat a.toNat b.toNat 5 m.toNat]
  | .imax d a b m => [packR3 0x01 d.toNat a.toNat b.toNat 6 m.toNat]
  | .iminu d a b m => [packR3 0x01 d.toNat a.toNat b.toNat 7 m.toNat]
  | .imaxu d a b m => [packR3 0x01 d.toNat a.toNat b.toNat 8 m.toNat]
  | .iabs d a m => [packR3 0x01 d.toNat a.toNat 0 9 m.toNat]
  | .iand d a b m => [packR3 0x01 d.toNat a.toNat b.toNat 10 m.toNat]
  | .ior d a b m => [packR3 0x01 d.toNat a.toNat b.toNat 11 m.toNat]
  | .ixor d a b m => [packR3 0x01 d.toNat a.toNat b.toNat 12 m.toNat]
  | .iandn d a b m => [packR3 0x01 d.toNat a.toNat b.toNat 13 m.toNat]
  | .shl d a b m => [packR3 0x01 d.toNat a.toNat b.toNat 14 m.toNat]
  | .shr d a b m => [packR3 0x01 d.toNat a.toNat b.toNat 15 m.toNat]
  | .sar d a b m => [packR3 0x01 d.toNat a.toNat b.toNat 16 m.toNat]
  | .rol d a b m => [packR3 0x01 d.toNat a.toNat b.toNat 17 m.toNat]
  | .clz d a m => [packR3 0x01 d.toNat a.toNat 0 18 m.toNat]
  | .popc d a m => [packR3 0x01 d.toNat a.toNat 0 19 m.toNat]
  | .iaddi d a i => [packI 0x02 d.toNat a.toNat 0 i.toNat]
  | .andi d a i => [packI 0x02 d.toNat a.toNat 1 i.toNat]
  | .ori d a i => [packI 0x02 d.toNat a.toNat 2 i.toNat]
  | .xori d a i => [packI 0x02 d.toNat a.toNat 3 i.toNat]
  | .shli d a i => [packI 0x02 d.toNat a.toNat 4 i.toNat]
  | .shri d a i => [packI 0x02 d.toNat a.toNat 5 i.toNat]
  | .sari d a i => [packI 0x02 d.toNat a.toNat 6 i.toNat]
  | .movi d i => [packI 0x02 d.toNat 0 7 i.toNat]
  | .bfx d a b m => [packR3 0x03 d.toNat a.toNat b.toNat 0 m.toNat]
  | .bfx2 d a b m => [packR3 0x03 d.toNat a.toNat b.toNat 1 m.toNat]
  | .bfi d a b m => [packR3 0x03 d.toNat a.toNat b.toNat 2 m.toNat]
  | .iota d a m => [packR3 0x03 d.toNat a.toNat 0 3 m.toNat]
  | .shuf d a b m => [packR3 0x03 d.toNat a.toNat b.toNat 4 m.toNat]
  | .lane d a b m => [packR3 0x03 d.toNat a.toNat b.toNat 5 m.toNat]
  | .pack d a b m => [packR3 0x03 d.toNat a.toNat b.toNat 6 m.toNat]
  | .unpk d a b m => [packR3 0x03 d.toNat a.toNat b.toNat 7 m.toNat]
  | .iceq d a b m => [packR3 0x04 d.toNat a.toNat b.toNat 0 m.toNat]
  | .icne d a b m => [packR3 0x04 d.toNat a.toNat b.toNat 1 m.toNat]
  | .iclt d a b m => [packR3 0x04 d.toNat a.toNat b.toNat 2 m.toNat]
  | .icge d a b m => [packR3 0x04 d.toNat a.toNat b.toNat 3 m.toNat]
  | .icltu d a b m => [packR3 0x04 d.toNat a.toNat b.toNat 4 m.toNat]
  | .icgeu d a b m => [packR3 0x04 d.toNat a.toNat b.toNat 5 m.toNat]
  | .sel d a b c m => [packR4 0x05 d.toNat a.toNat b.toNat c.toNat m.toNat]
  | .fadd d a b f m => [packR3 0x08 d.toNat a.toNat b.toNat (0 + f.toNat) m.toNat]
  | .fsub d a b f m => [packR3 0x08 d.toNat a.toNat b.toNat (4 + f.toNat) m.toNat]
  | .fmul d a b f m => [packR3 0x08 d.toNat a.toNat b.toNat (8 + f.toNat) m.toNat]
  | .fmin d a b f => [packR3 0x08 d.toNat a.toNat b.toNat (12 + f.toNat) 0]
  | .fmax d a b f => [packR3 0x08 d.toNat a.toNat b.toNat (16 + f.toNat) 0]
  | .fscale d a b f m => [packR3 0x08 d.toNat a.toNat b.toNat (20 + f.toNat) m.toNat]
  | .ffma d a b c f => [packR4 0x09 d.toNat a.toNat b.toNat c.toNat f.toNat]
  | .fabs d a f => [packR3 0x0A d.toNat a.toNat 0 (0 + f.toNat) 0]
  | .fneg d a f => [packR3 0x0A d.toNat a.toNat 0 (4 + f.toNat) 0]
  | .frcp d a f => [packR3 0x0A d.toNat a.toNat 0 (8 + f.toNat) 0]
  | .frsq d a f => [packR3 0x0A d.toNat a.toNat 0 (12 + f.toNat) 0]
  | .fsqrt d a f => [packR3 0x0A d.toNat a.toNat 0 (16 + f.toNat) 0]
  | .fexp2 d a f => [packR3 0x0A d.toNat a.toNat 0 (20 + f.toNat) 0]
  | .flog2 d a f => [packR3 0x0A d.toNat a.toNat 0 (24 + f.toNat) 0]
  | .ftanh d a f => [packR3 0x0A d.toNat a.toNat 0 (28 + f.toNat) 0]
  | .fcvt d a s t m => [packR3 0x0B d.toNat a.toNat s.toNat t.toNat m.toNat]
  | .fceq d a b f => [packR3 0x0C d.toNat a.toNat b.toNat (0 + f.toNat) 0]
  | .fclt d a b f => [packR3 0x0C d.toNat a.toNat b.toNat (4 + f.toNat) 0]
  | .fcle d a b f => [packR3 0x0C d.toNat a.toNat b.toNat (8 + f.toNat) 0]
  | .fcun d a b f => [packR3 0x0C d.toNat a.toNat b.toNat (12 + f.toNat) 0]
  | .fcne d a b f => [packR3 0x0C d.toNat a.toNat b.toNat (16 + f.toNat) 0]
  | .fcgt d a b f => [packR3 0x0C d.toNat a.toNat b.toNat (20 + f.toNat) 0]
  | .fcge d a b f => [packR3 0x0C d.toNat a.toNat b.toNat (24 + f.toNat) 0]
  | .fclass d a f => [packR3 0x0C d.toNat a.toNat 0 (28 + f.toNat) 0]
  | .bdotE2m1 d a b m => [packR3 0x0E d.toNat a.toNat b.toNat 0 m.toNat]
  | .bdotE4m3 d a b m => [packR3 0x0E d.toNat a.toNat b.toNat 1 m.toNat]
  | .bdotE5m2 d a b m => [packR3 0x0E d.toNat a.toNat b.toNat 2 m.toNat]
  | .bdotI8 d a b m => [packR3 0x0E d.toNat a.toNat b.toNat 3 m.toNat]
  | .scacc d a b => [packR3 0x0E d.toNat a.toNat b.toNat 4 0]
  | .qntE4m3 d a b m => [packR3 0x0E d.toNat a.toNat b.toNat 5 m.toNat]
  | .qntE5m2 d a b m => [packR3 0x0E d.toNat a.toNat b.toNat 6 m.toNat]
  | .qntE2m1 d a b m => [packR3 0x0E d.toNat a.toNat b.toNat 7 m.toNat]
  | .qntI8 d a b m => [packR3 0x0E d.toNat a.toNat b.toNat 8 m.toNat]
  | .deqE4m3 d a b => [packR3 0x0E d.toNat a.toNat b.toNat 9 0]
  | .deqE5m2 d a b => [packR3 0x0E d.toNat a.toNat b.toNat 10 0]
  | .deqE2m1 d a b => [packR3 0x0E d.toNat a.toNat b.toNat 11 0]
  | .deqI8 d a b => [packR3 0x0E d.toNat a.toNat b.toNat 12 0]
  | .vlutBf16 d a b => [packR3 0x0E d.toNat a.toNat b.toNat 13 0]
  | .vlutF32 d a b => [packR3 0x0E d.toNat a.toNat b.toNat 14 0]
  | .rsum d a m => [packR3 0x0F d.toNat a.toNat 0 0 m.toNat]
  | .rmax d a m => [packR3 0x0F d.toNat a.toNat 0 1 m.toNat]
  | .rmin d a m => [packR3 0x0F d.toNat a.toNat 0 2 m.toNat]
  | .scan d a m => [packR3 0x0F d.toNat a.toNat 0 3 m.toNat]
  | .vsort d a b m => [packR3 0x0F d.toNat a.toNat b.toNat 4 m.toNat]
  | .vtopk d a b m => [packR3 0x0F d.toNat a.toNat b.toNat 5 m.toNat]
  | .vmerge d a b m => [packR3 0x0F d.toNat a.toNat b.toNat 6 m.toNat]
  | .emit d a b m => [packR3 0x10 d.toNat a.toNat b.toNat 0 m.toNat]
  | .emitn d a b m => [packR3 0x10 d.toNat a.toNat b.toNat 1 m.toNat]
  | .emitz d b m => [packR3 0x10 d.toNat 0 b.toNat 2 m.toNat]
  | .emitq d a b => [packR3 0x10 d.toNat a.toNat b.toNat 3 0]
  | .bound d a b => [packR3 0x10 d.toNat a.toNat b.toNat 4 0]
  | .endFiring => [packR3 0x10 0 0 0 5 0]
  | .nop => [packR3 0x10 0 0 0 6 0]
  | .hrec d b => [packR3 0x11 d.toNat 0 b.toNat 0 0]
  | .hrecClr d => [packR3 0x11 d.toNat 0 0 0 1]
  | .hdrop d => [packR3 0x11 d.toNat 0 0 1 0]
  | .hfill d => [packR3 0x11 d.toNat 0 0 2 0]
  | .hstat d a => [packR3 0x11 d.toNat a.toNat 0 3 0]
  | .hcap d => [packR3 0x11 d.toNat 0 0 4 0]
  | .trap a b => [packR3 0x12 0 a.toNat b.toNat 0 0]
  | .brkp b => [packR3 0x12 0 0 b.toNat 1 0]
  | .ld d a r o p s => [packM 0x14 d.toNat a.toNat r.toNat o.toNat p.toNat s.toNat 0]
  | .st d a r o p s => [packM 0x14 d.toNat a.toNat r.toNat o.toNat p.toNat s.toNat 1]
  | .ldb d a r o p s => [packM 0x14 d.toNat a.toNat r.toNat o.toNat p.toNat s.toNat 2]
  | .ldx d a r o p s => [packM 0x14 d.toNat a.toNat r.toNat o.toNat p.toNat s.toNat 3]
  | .stx d a r o p s => [packM 0x14 d.toNat a.toNat r.toNat o.toNat p.toNat s.toNat 4]
  | .stnf d a r o p s => [packM 0x14 d.toNat a.toNat r.toNat o.toNat p.toNat s.toNat 5]
  | .seqcl a r o p s => [packM 0x14 0 a.toNat r.toNat o.toNat p.toNat s.toNat 6]
  | .ldg d a r o p s => [packM 0x15 d.toNat a.toNat r.toNat o.toNat p.toNat s.toNat 0]
  | .stg d a r o p s => [packM 0x15 d.toNat a.toNat r.toNat o.toNat p.toNat s.toNat 1]
  | .ldgx d a r o p s => [packM 0x15 d.toNat a.toNat r.toNat o.toNat p.toNat s.toNat 2]
  | .aadd d a r o p s => [packM 0x16 d.toNat a.toNat r.toNat o.toNat p.toNat s.toNat 0]
  | .amin d a r o p s => [packM 0x16 d.toNat a.toNat r.toNat o.toNat p.toNat s.toNat 1]
  | .amax d a r o p s => [packM 0x16 d.toNat a.toNat r.toNat o.toNat p.toNat s.toNat 2]
  | .axch d a r o p s => [packM 0x16 d.toNat a.toNat r.toNat o.toNat p.toNat s.toNat 3]
  | .acas d a r o p s => [packM 0x16 d.toNat a.toNat r.toNat o.toNat p.toNat s.toNat 4]
  | .aor d a r o p s => [packM 0x16 d.toNat a.toNat r.toNat o.toNat p.toNat s.toNat 5]
  | .aand d a r o p s => [packM 0x16 d.toNat a.toNat r.toNat o.toNat p.toNat s.toNat 6]
  | .ord o p s => [packM 0x17 0 0 0 o.toNat p.toNat s.toNat 0]
  | .ordw o p s => [packM 0x17 0 0 0 o.toNat p.toNat s.toNat 1]
  | .scopyCell d a b => [packR3 0x18 d.toNat a.toNat b.toNat 0 0]
  | .scopyCtrl a => [packR3 0x18 0 a.toNat 0 0 0]
  | .sxformCell d a b => [packR3 0x18 d.toNat a.toNat b.toNat 1 0]
  | .sxformCtrl a => [packR3 0x18 0 a.toNat 0 1 0]
  | .sbind d a b => [packR3 0x18 d.toNat a.toNat b.toNat 2 0]
  | .scancel a => [packR3 0x18 0 a.toNat 0 3 0]
  | .twaita d a => [packR3 0x19 d.toNat a.toNat 0 0 0]
  | .twaitn d a => [packR3 0x19 d.toNat a.toNat 0 1 0]
  | .tffr d a => [packR3 0x19 d.toNat a.toNat 0 2 0]
  | .tclr a => [packR3 0x19 0 a.toNat 0 3 0]
  | .tcnt d a => [packR3 0x19 d.toNat a.toNat 0 4 0]
  | .barinit a b => [packR3 0x1A 0 a.toNat b.toNat 0 0]
  | .bararv a => [packR3 0x1A 0 a.toNat 0 1 0]
  | .baradd a b => [packR3 0x1A 0 a.toNat b.toNat 2 0]
  | .barwait d a b => [packR3 0x1A d.toNat a.toNat b.toNat 3 0]
  | .bartest d a => [packR3 0x1A d.toNat a.toNat 0 4 0]
  | .mlw a b => [packR3 0x1C 0 a.toNat b.toNat 0 0]
  | .mswp => [packR3 0x1C 0 0 0 1 0]
  | .mstr d a b => [packR3 0x1C d.toNat a.toNat b.toNat 2 0]
  | .mrd d a b l => [packR3 0x1C d.toNat a.toNat b.toNat 3 (2 * l.toNat)]
  | .mrdH d a b l => [packR3 0x1C d.toNat a.toNat b.toNat 3 (2 * l.toNat + 1)]
  | .mclr d => [packR3 0x1C d.toNat 0 0 4 0]
  | .mchk d => [packR3 0x1C d.toNat 0 0 5 0]
  | .mshp d a => [packR3 0x1C d.toNat a.toNat 0 6 0]
  | .rdef a => [packR3 0x1D 0 a.toNat 0 0 0]
  | .rins a b => [packR3 0x1D 0 a.toNat b.toNat 1 0]
  | .rjoin a => [packR3 0x1D 0 a.toNat 0 2 0]
  | .ranti a => [packR3 0x1D 0 a.toNat 0 3 0]
  | .rrnd d a => [packR3 0x1D d.toNat a.toNat 0 4 0]
  | .rqck d a b g => [packR3 0x1D d.toNat a.toNat b.toNat 5 g.toNat]
  | .rdel a b => [packR3 0x1D 0 a.toNat b.toNat 6 0]
  | .rclr a => [packR3 0x1D 0 a.toNat 0 7 0]
  | .rlook d a b => [packR3 0x1D d.toNat a.toNat b.toNat 8 0]
  | .rgrad a b => [packR3 0x1D 0 a.toNat b.toNat 9 0]
  | .rsort d a b n => [packR3 0x1E d.toNat a.toNat b.toNat 0 n.toNat]
  | .rtopk d a b n => [packR3 0x1E d.toNat a.toNat b.toNat 1 n.toNat]
  | .rmrg d a b n => [packR3 0x1E d.toNat a.toNat b.toNat 2 n.toNat]
  | .pdef a b => [packR3 0x1F 0 a.toNat b.toNat 0 0]
  | .pldCell d a b => [packR3 0x1F d.toNat a.toNat b.toNat 1 0]
  | .pldCtrl d a => [packR3 0x1F d.toNat a.toNat 0 1 0]
  | .pconvCell a b => [packR3 0x1F 0 a.toNat b.toNat 2 0]
  | .pconvCtrl a => [packR3 0x1F 0 a.toNat 0 2 0]
  | .pqry d a => [packR3 0x1F d.toNat a.toNat 0 3 0]
  | .cdef a b => [packR3 0x1F 0 a.toNat b.toNat 4 0]
  | .cstart d a => [packR3 0x1F d.toNat a.toNat 0 5 0]
  | .cwait d a => [packR3 0x1F d.toNat a.toNat 0 6 0]
  | .cpoll d a => [packR3 0x1F d.toNat a.toNat 0 7 0]
  | .beq a b o => [packB 0x20 0 a.toNat b.toNat o.toNat]
  | .bne a b o => [packB 0x20 1 a.toNat b.toNat o.toNat]
  | .blt a b o => [packB 0x20 2 a.toNat b.toNat o.toNat]
  | .bge a b o => [packB 0x20 3 a.toNat b.toNat o.toNat]
  | .bltu a b o => [packB 0x20 4 a.toNat b.toNat o.toNat]
  | .bgeu a b o => [packB 0x20 5 a.toNat b.toNat o.toNat]
  | .jal l o => [packJ 0x21 l.toNat o.toNat]
  | .jalr l => [packJ 0x21 l.toNat 0]
  | .ldc d a b m => [packR3 0x22 d.toNat a.toNat b.toNat 0 m.toNat]
  | .stc d a b m => [packR3 0x22 d.toNat a.toNat b.toNat 1 m.toNat]
  | .crd d i => [packI 0x23 d.toNat 0 0 i.toNat]
  | .cwr a i => [packI 0x23 0 a.toNat 1 i.toNat]
  | .launch d a b => [packR3 0x24 d.toNat a.toNat b.toNat 0 0]
  | .join d a => [packR3 0x24 d.toNat a.toNat 0 1 0]
  | .conf d a => [packR3 0x24 d.toNat a.toNat 0 2 0]
  | .splice d a b => [packR3 0x24 d.toNat a.toNat b.toNat 3 0]
  | .preempt d a => [packR3 0x24 d.toNat a.toNat 0 4 0]
  | .ctxsv d a b => [packR3 0x24 d.toNat a.toNat b.toNat 5 0]
  | .ctxrs d a b => [packR3 0x24 d.toNat a.toNat b.toNat 6 0]
  | .wfe d a => [packR3 0x24 d.toNat a.toNat 0 7 0]
  | .sev a => [packR3 0x24 0 a.toNat 0 8 0]
  | .svc d a b => [packR3 0x25 d.toNat a.toNat b.toNat 0 0]
  | .eret => [packR3 0x25 0 0 0 1 0]
  | .fres a => [packR3 0x25 0 a.toNat 0 2 0]
  | .fskip => [packR3 0x25 0 0 0 3 0]
  | .escal => [packR3 0x25 0 0 0 4 0]
  | .tlbinv a b => [packR3 0x25 0 a.toNat b.toNat 5 0]
  | .smcSetblk d a b => [packR3 0x25 d.toNat a.toNat b.toNat 6 0]
  | .smcSetrgn d a b => [packR3 0x25 d.toNat a.toNat b.toNat 6 0]
  | .smcGetblk d a b => [packR3 0x25 d.toNat a.toNat b.toNat 6 0]
  | .smcGetrgn d a b => [packR3 0x25 d.toNat a.toNat b.toNat 6 0]
  | .bbox d a b => [packR3 0x25 d.toNat a.toNat b.toNat 7 0]
  | .bboxWr a b => [packR3 0x25 0 a.toNat b.toNat 7 1]
  | .ckpt d a => [packR3 0x25 d.toNat a.toNat 0 8 0]
  | .ckptPoll d a => [packR3 0x25 d.toNat a.toNat 0 8 1]
  | .ckptWait d a => [packR3 0x25 d.toNat a.toNat 0 8 2]
  | .ckptAbort d a => [packR3 0x25 d.toNat a.toNat 0 8 3]
  | .ckptRest d a => [packR3 0x25 d.toNat a.toNat 0 8 4]
  | .movl d u => [packI 0x06 d.toNat 0 0 0, u.toNat]
  | .movl0 d u => [packI 0x06 d.toNat 0 1 0, u.toNat]
  | .iaddl d a u => [packI 0x06 d.toNat a.toNat 2 0, u.toNat]
  | .andl d a u => [packI 0x06 d.toNat a.toNat 3 0, u.toNat]
  | .orl d a u => [packI 0x06 d.toNat a.toNat 4 0, u.toNat]
  | .dispgo a => [packI 0x23 0 a.toNat 1 99]
  | .pwreqStandby a | .pwreqWithdraw a => [packI 0x23 0 a.toNat 1 100]
  | _ => []

/-- The row a decoder names for the words of an instruction: rows that share their words (the four SMC
requests of R407, the two writes of PWREQ of R461, and a CWR of register 99 or 100) are told apart only
when the instruction runs. -/
def wordRow : Instr → Instr
  | .smcSetrgn d a b | .smcGetblk d a b | .smcGetrgn d a b => .smcSetblk d a b
  | .pwreqWithdraw a => .pwreqStandby a
  | .cwr a i => if i.toNat = 99 then .dispgo a else if i.toNat = 100 then .pwreqStandby a else .cwr a i
  | i => i

end Sys2Proof
end

