-- ==== Sys2Proof/Machine/Drain.lean ====
section
/-! DEFINITION. Writes that reach an owner: the copies that a drain engine makes before a write lands on what a checkpoint
has yet to copy (R448 to R452), and writes to error-correcting granules (R441). -/

namespace Sys2Proof.Machine

/-! ### Checkpoints as the drain engines hold them -/

/-- W3 of a checkpoint's header (R447). -/
def ckptWord (state cause bytes : Nat) : Nat := state * 2 ^ 48 + cause * 2 ^ 40 + bytes % 2 ^ 36

/-- The checkpoint with an identity in a basin's engine. -/
def findCkpt (s : State) (basin id : Nat) : Option Ckpt := (tget [] s.drains basin).find? fun c => c.id == id

/-- It is changed, or leaves the engine. -/
def modCkpt (s : State) (basin id : Nat) (f : Ckpt → Option Ckpt) : State :=
  { s with drains := tmod [] s.drains basin fun l => l.filterMap fun c => if c.id = id then f c else some c }

/-- The drain engine issues in its own world (R402, R403). -/
def drainSrc (s : State) (basin : Nat) (x : Src) : Src := { x with secure := blockSecure s 5 basin }

/-- The virtual address of a part of a checkpoint's regions. -/
def Ckpt.vaOf (c : Ckpt) (pa : Nat) : Nat :=
  ((c.vas.find? fun v => v.1 ≤ pa && pa < v.1 + v.2.2).map fun v => v.2.1 + (pa - v.1)).getD 0

/-- Whole granules of a destination of which some lie in the other world than the engine's (R451): on this device as its map says, host
memory in the normal one (R404); a peer judges its own bytes. -/
def otherWorld (s : State) (x : Src) (pa n : Nat) : Bool := match placeOf pa with
  | .sram | .hbm => (List.range (n / 4096)).any fun i => anySecure s (pa + 4096 * i) 4096 != x.secure
  | .host => x.secure
  | _ => false

/-- Where one side of a granule lies now, checked again as it is copied (R450): TRANSL, PERM or LINK otherwise.  A side is
written when it is a checkpoint's destination or a restore's source. -/
def ckptSide (s : State) (basin : Nat) (c : Ckpt) (pa : Nat) (write : Bool) : Except Trap Nat :=
  let x := drainSrc s basin c.src
  let va := c.vaOf pa
  match walkCheck s x (if write then .copyDst else .read) va 4096 with
  | .error t => .error t
  | .ok q => if write && !c.rest && otherWorld s x q 4096 then .error (cause cPERM dWORLD va) else .ok q

/-- What one granule's copy reads and writes: the source is the pages of the snapshot (R448), the destination as it is mapped
now; a restore copies the other way, both sides as they are mapped now (R415, R452). -/
def ckptSides (s : State) (basin : Nat) (c : Ckpt) (g : Nat × Nat) : Except Trap (Nat × Nat) :=
  if c.rest then do
    let a ← ckptSide s basin c g.2 false
    let b ← ckptSide s basin c g.1 true
    .ok (a, b)
  else (ckptSide s basin c g.2 true).map fun b => (g.1, b)

/-! ### Writes at the owners (R441) -/

/-- The bits of the pieces cover the granule. -/
def coversGranule (ps : List (Nat × Nat × Nat)) (g sz : Nat) : Bool :=
  (List.range (sz * 8)).all fun i => ps.any fun p => p.1 ≤ g * 8 + i && g * 8 + i < p.1 + p.2.1

/-- The uncorrectable granules a write of pieces (bit address, bits, value) touches. -/
def touchedPoison (s : State) (ps : List (Nat × Nat × Nat)) : List Nat :=
  if s.poison = [] then [] else s.poison.filter fun g => match granuleOf g with
    | some (h, sz) => ps.any fun p => p.1 < (h + sz) * 8 && h * 8 < p.1 + p.2.1
    | none => false

/-- Pieces land at their owners, in order (R441): a granule that the write covers whole loses its error; a partial write into an
uncorrectable granule is dropped and recorded with the writing word.  The dropped pieces are returned. -/
def landPieces (s : State) (ps : List (Nat × Nat × Nat)) (insn : Nat) : State × List (Nat × Nat × Nat) :=
  let hit := touchedPoison s ps
  let cured := hit.filter fun g => match granuleOf g with | some (h, sz) => coversGranule ps h sz | none => false
  let s := if cured = [] then s else { s with poison := s.poison.filter fun g => !cured.contains g }
  ps.foldl (fun (acc : State × List (Nat × Nat × Nat)) p =>
    if s.poison ≠ [] && poisonedBits acc.1 p.1 p.2.1 then
      (bboxEvent acc.1 (basinOfPa (p.1 / 8)) 3 16 0 0 0 0 0 (p.1 / 8) insn, acc.2 ++ [p])
    else (writeBits acc.1 p.1 p.2.1 p.2.2, acc.2)) (s, [])

/-! ### Copies made before a write -/

/-- What a write of bits does first: the state after the copies it waits for. -/
abbrev Before := State → Nat → Nat → State

/-- Every load from now on sees every write so far (R207). -/
def allSeen (s : State) : State := if s.views = [] then s else { s with views := [] }

/-- A word that the machine writes into the header of a checkpoint, at byte `off`, for the CKPT that issued it. -/
def ckptPut (bf : Before) (s : State) (c : Ckpt) (off v : Nat) : State :=
  allSeen (landPieces (bf s ((c.block + off) * 8) 64) [((c.block + off) * 8, 64, v)] c.src.insn.toNat).1

/-- The machine writes the state of a checkpoint into its header. -/
def ckptHeader (bf : Before) (s : State) (c : Ckpt) (state cause : Nat) : State := ckptPut bf s c 24 (ckptWord state cause c.bytes)

/-- The destination of a checkpoint that failed or was aborted is left undefined (R450; log entry 8); a restore writes the
sources (R452). -/
def ckptUndefined (bf : Before) (s : State) (c : Ckpt) : State :=
  c.regions.foldl (fun s r =>
    let lo := if c.rest then r.1 else r.2.1
    { writeNat (allSeen (bf s (lo * 8) (r.2.2 * 8))) lo r.2.2 (Config.freeBytes s.free) with free := s.free + 1 }) s

/-- A checkpoint leaves its engine with a state other than done: what waits goes on, the destination is undefined (R450, R451). -/
def ckptLeave (bf : Before) (s : State) (basin : Nat) (c : Ckpt) (state cause : Nat) : State :=
  let s := modCkpt s basin c.id fun _ => none
  ckptHeader bf (ckptUndefined bf s c) c state cause

/-- A checkpoint fails (R450): state 3 and a black-box entry of kind CKPT.  A restore is an engine job (R452), whose stop the supervisor
hears of as R258 says; none stops for a warm reset, which has cause 0. -/
def ckptFail (bf : Before) (s : State) (basin : Nat) (c : Ckpt) (t : Trap) : State :=
  let s := bboxEvent (ckptLeave bf s basin c 3 t.cause) basin 9 t.cause 0 0 0 0 0 c.blockVa c.bytes
  if c.rest && t.cause != 0 then jobTrap s t c.src none else s

/-- The header of a checkpoint that is still held says how far it has come: what its own write waits for comes first. -/
def ckptProgress (bf : Before) (s : State) (basin id : Nat) : State :=
  match findCkpt s basin id with
  | none => s
  | some c =>
    let t := bf s ((c.block + 24) * 8) 64
    match findCkpt t basin id with
    | none => t
    | some c => ckptHeader (fun s _ _ => s) t c 1 0

/-- The drain engine copies the granule `g` of a checkpoint (R448), unless it has; it fails on a source it cannot read, a
destination it cannot write or a peer it cannot reach (R450).  The granule is read before what its own write waits for, and a checkpoint
that has failed meanwhile writes nothing more. -/
def ckptCopy (bf : Before) (s : State) (basin id : Nat) (g : Nat × Nat) : State :=
  match findCkpt s basin id with
  | none => s
  | some c =>
    if !c.pending.contains g then s
    else match ckptSides s basin c g with
      | .error t => ckptFail bf s basin c t
      | .ok (src, dst) =>
        if poisonedRange s src 4096 then ckptFail bf s basin c (cause cECCUNC 0 (c.vaOf (if c.rest then g.2 else g.1)))
        else
          let v := readNat s src 4096
          let s := bf (modCkpt s basin id fun c => some { c with pending := c.pending.filter (· ≠ g) }) (dst * 8) 32768
          if (findCkpt s basin id).isNone then s
          else
            let s := if s.poison = [] then s else { s with poison := s.poison.filter fun p => !(dst ≤ p && p < dst + 4096) }
            ckptProgress bf (modCkpt (writeNat (allSeen s) dst 4096 v) basin id fun c => some { c with bytes := c.bytes + 4096 }) basin id

/-- The undrained granules of checkpoints that a write of bits touches: basin, checkpoint, granule (R448). -/
def drainHits (s : State) (b len : Nat) : List (Nat × Nat × Nat × Nat) :=
  s.drains.flatMap fun e => (e.2.filter fun c => !c.rest).flatMap fun c =>
    (c.pending.filter fun g => g.1 * 8 < b + len && b < (g.1 + 4096) * 8).map fun g => (e.1, c.id, g)

/-- Before a write lands on undrained granules they are copied, and before each of these copies what it would overwrite; `n`
bounds how deep that goes. -/
def drainFor : Nat → Before
  | 0, s, _, _ => s
  | n + 1, s, b, len => (drainHits s b len).foldl (fun s h => ckptCopy (drainFor n) s h.1 h.2.1 h.2.2) s

/-- Granules that are left to copy. -/
def undrained (s : State) : Nat := ((s.drains.map fun e => (e.2.map fun c => c.pending.length).sum).sum)

/-- Every drain engine copies what the write would overwrite (R448). -/
def drainAll (s : State) (b len : Nat) : State := if s.drains = [] then s else drainFor (undrained s + 1) s b len

/-! ### What the loads of cells have yet to see (R207, R212, R219)

A load may be performed earlier than its instruction executes, as long as no edge of happens-before comes between (R212).  The machine
keeps for every cell the write events of other moments than the present that its loads need not have seen, the oldest first, and each
event of a load sees all of them up to one that it chooses freely (log entry 63). -/

/-- The write events that the loads of a cell need not have seen. -/
def getViews (s : State) (c : Nat) : List View := tget [] s.views c
def setViews (s : State) (c : Nat) (l : List View) : State := { s with views := tset [] s.views c l }

/-- Every load of the cell from now on sees every write so far: an edge of device or system scope ends there (R213 to R219). -/
def seeAll (s : State) (c : Nat) : State := if getViews s c = [] then s else setViews s c []

/-- An ordering token of a scope has been consumed (R215, R219): it orders what the issuers in the cell's instance of the scope have
written, and nothing for the others. -/
def seeScope (s : State) (c scope : Nat) : State :=
  if 3 ≤ scope then seeAll s c
  else if getViews s c = [] then s
  else setViews s c ((getViews s c).map fun v => if v.by_.kind = 4 ∨ inScope s scope v.by_ { who := c } then { v with seen := true } else v)

/-- The cells whose loads need not see a write: those with a firing under way, and those that have yet to see an earlier one. -/
def viewers (s : State) : List Nat :=
  ((s.cells.filter fun e => (e.2.firing.map (·.phase)) == some .running).map (·.1) ++ s.views.map (·.1)).eraseDups

/-- A write event of an issuer is noted for those cells; one that meets an uncorrectable granule is seen by all, with all before it. -/
def noteViews (s : State) (ps : List (Nat × Nat × Nat)) (x : Src) : Table (List View) :=
  if touchedPoison s ps ≠ [] then []
  else
    let v : View := { olds := ps.map fun p => (p.1, p.2.1, readBits s p.1 p.2.1), by_ := x }
    (viewers s).foldl (fun t c => tmod [] t c (· ++ [v])) s.views

/-- The issuer of a write that no scope leaves out. -/
def anyone : Src := { kind := 4 }

/-- An issuer's engine. -/
def Src.engine (x : Src) : Src := if x.kind = 0 then { x with kind := 1 } else x

/-- One write event at the owners, in order (R441), after the copies it waits for (R448): what landPieces says. -/
def writePieces (s : State) (ps : List (Nat × Nat × Nat)) (insn : Nat) (x : Src := anyone) : State × List (Nat × Nat × Nat) :=
  let t := ps.foldl (fun s p => drainAll s p.1 p.2.1) s
  let r := landPieces t ps insn
  ({ r.1 with views := noteViews t ps x }, r.2)

/-- A write of `n` bytes by the machine itself, for the instruction `insn`, such as what GETRGN asks for. -/
def putBytes (s : State) (pa n v insn : Nat) : State := (writePieces s [(pa * 8, n * 8, v)] insn).1

end Sys2Proof.Machine
end

