-- ==== Sys2Proof/Machine/Operands.lean ====
section
/-! DEFINITION. Every operand form: the specifiers of a cell (R63 to R65, R101), held registers with their pending
entries and recipe replay (R116 to R121, R141), the output buffer (R102), elements of buffer records (R198 to
R200, R231), loads and stores of elements (R103, R207), and the arithmetic instructions over them (R310 to
R312). -/

namespace Sys2Proof.Machine

/-! ### Which held registers an instruction names (R64) -/

/-- The register specifiers an instruction takes on a cell, each with the number of registers from it on. -/
def regsOf : Instr → List (Spec × Nat)
  | .emit _ a b _ | .emitn _ a b _ | .emitq _ a b | .bound _ a b => [(a, 1), (b, 1)]
  | .emitz _ b _ => [(b, 1)]
  | .hrec d _ | .hrecClr d | .hdrop d | .hfill d | .hcap d | .mchk d => [(d, 1)]
  | .hstat d a => [(d, 1), (a, 1)]
  | .trap a _ => [(a, 1)]
  | .ld d a _ _ _ _ | .ldb d a _ _ _ _ | .ldx d a _ _ _ _ | .ldg d a _ _ _ _ | .ldgx d a _ _ _ _
  | .st d a _ _ _ _ | .stx d a _ _ _ _ | .stnf d a _ _ _ _ | .stg d a _ _ _ _
  | .aadd d a _ _ _ _ | .amin d a _ _ _ _ | .amax d a _ _ _ _ | .axch d a _ _ _ _ | .aor d a _ _ _ _ | .aand d a _ _ _ _ =>
      [(d, 1), (a, 1)]
  | .acas d a _ _ _ _ => [(d, 2), (a, 1)]
  | .seqcl a _ _ _ _ => if a.toNat = 0 then [] else [(a, 1)]
  | .scopyCell _ _ b | .sxformCell _ _ b => [(b, 1)]
  | .scancel a | .tclr a | .bararv a => [(a, 1)]
  | .twaita d a | .twaitn d a | .tffr d a | .tcnt d a | .bartest d a | .pqry d a | .cstart d a | .cwait d a | .cpoll d a => [(d, 1), (a, 1)]
  | .barinit a b | .baradd a b | .pdef a b | .cdef a b | .rins a b | .rdel a b | .rgrad a b => [(a, 1), (b, 1)]
  | .barwait d a b => [(d, 1), (a, 1), (b, 1)]
  | .mlw a _ | .mstr _ a _ | .mrd _ a _ _ | .mshp _ a => [(a, 1)]
  | .mrdH d a _ _ => [(d, 1), (a, 1)]
  | .rdef a | .rclr a | .rjoin a | .ranti a => [(a, 1)]
  | .rrnd d a => [(d, 1), (a, 1)]
  | .rqck d a b _ | .rlook d a b => [(d, 1), (a, 1), (b, 1)]
  | .rsort _ a _ _ | .rtopk _ a _ _ | .rmrg _ a _ _ => [(a, 1)]
  | .pldCell d a _ => [(d, 1), (a, 1)]
  | .pconvCell a _ => [(a, 1)]
  | i => match aluOf i with
    | some q => (q.dst, q.n) :: q.srcs
    | none => []

/-- Those of them that the instruction reads (R213). -/
def readsOf (i : Instr) : List (Spec × Nat) := match i with
  | .hrec .. | .hrecClr .. | .hdrop .. | .hfill .. | .hcap .. | .mchk .. | .hstat .. => []
  | .ld _ a _ _ _ _ | .ldb _ a _ _ _ _ | .ldx _ a _ _ _ _ | .ldg _ a _ _ _ _ | .ldgx _ a _ _ _ _
  | .twaita _ a | .twaitn _ a | .tffr _ a | .tcnt _ a | .bartest _ a | .pqry _ a | .cstart _ a | .cwait _ a | .cpoll _ a
  | .mrdH _ a _ _ | .rrnd _ a | .pldCell _ a _ => [(a, 1)]
  | .barwait _ a b | .rqck _ a b _ | .rlook _ a b => [(a, 1), (b, 1)]
  | i => match aluOf i with
    | some q => q.srcs
    | none => regsOf i

/-- The index of a held register; none for another specifier. -/
def heldIdx (v : Spec) : Option Nat := if 8 ≤ v.toNat ∧ v.toNat ≤ 39 then some (v.toNat - 8) else none

/-- A held register is usable by a context: below the cell's capacity and allotted (R64). -/
def heldUsable (x : Cell) (ctx k : Nat) : Bool := k < x.hcap && bit (x.field ctx 6) k

/-- Every held register the specifiers name is usable. -/
def specsUsable (x : Cell) (ctx : Nat) (l : List (Spec × Nat)) : Bool :=
  l.all fun q => match heldIdx q.1 with
    | some k => (List.range q.2).all fun i => heldUsable x ctx (k + i)
    | none => true

/-- The context's read policy for a held register is trap (R90). -/
def trapPolicy (x : Cell) (ctx k : Nat) : Bool := bit (x.field ctx 6) (32 + k)

/-! ### The state of a held register under the output buffer (R103, R141) -/

/-- What the firing's own latest entry left of a register. -/
inductive Own where
  | none
  | write
  | fill
  | cmd
  | drop
  deriving DecidableEq, Repr

/-- What an HDROP with effect leaves of a register (R143). -/
def droppedReg (h : HeldReg) : HeldReg := { h with value := 0, st := .dropped, err := false }

/-- One entry applied to the view of register `k`. -/
def viewEntry (k : Nat) (v : HeldReg × Own) : Entry → HeldReg × Own
  | .held j x => if j = k then ({ v.1 with value := x, st := .full, err := false }, .write) else v
  | .fill j x e => if j = k then ({ v.1 with value := x, st := .empty, err := e }, .fill) else v
  | .hrec j t => if j = k then ({ v.1 with tag := t }, v.2) else v
  | .hdrop j eff => if j = k && eff then (droppedReg v.1, .drop) else v
  | .cmd _ (some j) => if j = k then ({ v.1 with st := .empty, err := false }, .cmd) else v
  | _ => v

/-- The register as it will stand when the firing's entries so far have committed. -/
def heldView (x : Cell) (f : Firing) (k : Nat) : HeldReg × Own := f.out.foldl (viewEntry k) (tget {} x.held k, .none)

/-! ### The output buffer (R102) -/

/-- Append an entry; a 17th entry faults (R102). -/
def addEntry (f : Firing) (e : Entry) : R Firing :=
  if 16 ≤ f.out.length then illop 2 else .ok { f with out := f.out ++ [e] }

/-! ### Elements of records (R199, R200) -/

/-- The record `r` of the firing's context, after checks 1 to 5 of R200. -/
def useRecord (x : Cell) (ctx r : Nat) (rounds : Bool) : R Rec :=
  if !bit (x.field ctx 0) (32 + r) then illop 5
  else
    let rc := recOf (x.record ctx r)
    match rc.check rounds with
    | .ok () => .ok rc
    | .error t => .error (.trap t)

/-- Where the elements of an access lie: none for OUTSIDE (check 6 of R200). -/
def elemsAt (rc : Rec) (offs : List Nat) : R (List (Option Nat)) :=
  offs.mapM fun e => match rc.elem e with
    | .ok .outside => .ok none
    | .ok (.at_ b) => .ok (some b)
    | .error t => .error (.trap t)

/-- The parts of an element that lie in one 64 KiB page each: virtual bit address, bits, offset in the element. -/
def elemParts (b len : Nat) : List (Nat × Nat × Nat) :=
  let cut := (b / 524288 + 1) * 524288
  if b + len ≤ cut then [(b, len, 0)] else [(b, cut - b, 0), (cut, b + len - cut, cut - b)]

/-- Physical pieces of element number `k` with the given value (check 7 of R200). -/
def elemPieces (s : State) (st : Stream) (src : Src) (a : Acs) (k b len val : Nat) : R (List Piece) :=
  (elemParts b len).mapM fun p => do
    let q ← translate s st src a (p.1 / 8) (byteSpan p.1 p.2.1)
    .ok { bit := q.1 * 8 + p.1 % 8, len := p.2.1, va := p.1 / 8, val := val >>> p.2.2 % 2 ^ p.2.1, val2 := p.2.2, k := k }

/-- Pieces of all elements; OUTSIDE elements have none.  `vals` gives an element's value. -/
def allPieces (s : State) (st : Stream) (src : Src) (a : Acs) (len : Nat) (vals : Nat → Nat) (l : List (Option Nat)) : R (List Piece) := do
  let ps ← (l.zipIdx).mapM fun e => match e.1 with
    | none => .ok []
    | some b => elemPieces s st src a e.2 b len (vals e.2)
  .ok ps.flatten

/-- The page entry a stream used last becomes its own (R414). -/
def refill (s : State) (st : Stream) (src : Src) (ps : List Piece) : State :=
  match ps.getLast? with
  | none => s
  | some p => match tlbFind s st src.asn p.va src.secure with
    | some e => tlbOwn s st e
    | none => s

/-- The watchpoint of the cell's grove catches an access (R438): its first watched byte. -/
def watchHit (s : State) (c : Nat) (wr : Bool) (ps : List Piece) : Option Nat :=
  let x := getCtl s (groveOf c)
  if !bit x.wctl.toNat 0 || !bit x.wctl.toNat (if wr then 2 else 1) then none
  else
    let lo := bits x.wbase.toNat 0 56
    let hi := lo + bits x.wlen.toNat 0 32
    ps.findSome? fun p =>
      let b := max lo p.va
      if b < hi ∧ b < p.va + byteSpan p.bit p.len then some b else none

/-- The last check of an access of a cell, its own message to the owners sent: the watchpoint (R438).  A caught access faults with
WATCH once the checks have returned, and any race precedes it. -/
def watched (s : State) (c : Nat) (f : Firing) (wr : Bool) (ps : List Piece) : Option State :=
  (watchHit s c wr ps).map fun b => firingFault s c f { cause := cWATCH, addr := b }

/-- An instruction's accesses sent, and their watchpoint met (R438): the instruction is behind the firing, or its fault. -/
def sentWatched (s : State) (c : Nat) (f : Firing) (wr : Bool) (ps : List Piece) : R State :=
  match watched s c f wr ps with
  | some t => .error (.redo t)
  | none => .ok s

/-! ### Loads of elements (R103, R217, R236) -/

/-- The bits of a piece replaced where an earlier store's piece covers them. -/
def overlay (v b len : Nat) (p : Piece) : Nat :=
  let lo := max b p.bit
  let hi := min (b + len) (p.bit + p.len)
  if lo < hi then
    v - bits v (lo - b) (hi - lo) * 2 ^ (lo - b) + bits p.val (lo - p.bit) (hi - lo) * 2 ^ (lo - b)
  else v

/-- The pieces of the firing's earlier unsequenced stores, in order. -/
def storePieces (f : Firing) : List Piece :=
  f.out.flatMap fun e => match e with
    | .access a => if a.op = 0 ∧ a.group = 0 then a.pieces else []
    | _ => []

/-- The value of one piece as it was read, under the firing's earlier stores. -/
def pieceValue (own : List Piece) (p : Piece) : Nat := own.foldl (fun v q => overlay v p.bit p.len q) p.val

/-- The values of elements 0 to n-1 from their pieces as they were read; an element without pieces reads 0. -/
def valuesOf (own : List Piece) (n : Nat) (ps : List Piece) : List Nat :=
  (List.range n).map fun k => (ps.filter fun p => p.k = k).foldl (fun v p => v + pieceValue own p * 2 ^ p.val2) 0

/-- Pieces with the values they have at their owners now. -/
def readPieces (s : State) (ps : List Piece) : List Piece := ps.map fun p => { p with val := readBits s p.bit p.len }

/-- The values of elements 0 to n-1 from their pieces, as memory is now. -/
def elemValues (s : State) (own : List Piece) (n : Nat) (ps : List Piece) : List Nat := valuesOf own n (readPieces s ps)

/-! ### The events of an access (R207, R226) -/

/-- The bits of an element that one event touches (R226): a naturally aligned piece of 8, 4, 2 or 1 bytes, or what of a sub-byte
element lies in one byte. -/
def alignedBits (b len : Nat) : Nat :=
  if b % 8 ≠ 0 ∨ len < 8 then min len (8 - b % 8)
  else if b % 64 = 0 ∧ 64 ≤ len then 64
  else if b % 32 = 0 ∧ 32 ≤ len then 32
  else if b % 16 = 0 ∧ 16 ≤ len then 16
  else 8

/-- Pieces that stand one behind the other. -/
def inRow (ps : List Piece) : Bool := (ps.zip (ps.drop 1)).all fun e => e.1.bit + e.1.len == e.2.bit

/-- The access never tears (R226): its elements make up a naturally aligned access of 1, 2, 4 or 8 bytes, or an aligned 64-byte
vector. -/
def wholeAccess (ps : List Piece) : Bool :=
  let n := (ps.map (·.len)).sum
  [8, 16, 32, 64, 512].contains n &&
  ((inRow ps && (ps.head?.map (·.bit)).getD 1 % n == 0) || (inRow ps.reverse && (ps.reverse.head?.map (·.bit)).getD 1 % n == 0))

/-- A piece in naturally aligned pieces; `n` bounds their number. -/
def splitPiece : Nat → Piece → List Piece
  | 0, p => [p]
  | m + 1, p =>
    let n := alignedBits p.bit p.len
    if p.len ≤ n then [p]
    else { p with len := n, val := p.val % 2 ^ n } ::
      splitPiece m { p with bit := p.bit + n, len := p.len - n, va := p.va + (p.bit % 8 + n) / 8, val := p.val >>> n, val2 := p.val2 + n }

/-- The events of an access: one for each element (R207), in naturally aligned pieces, or one for an access that never tears (R226). -/
def eventsOf (ps : List Piece) : List (List Piece) :=
  if wholeAccess ps then [ps] else ps.flatMap fun p => (splitPiece (p.len / 8 + 2) p).map fun q => [q]

/-- Two lists of pieces share a bit. -/
def piecesMeet (ps qs : List Piece) : Bool := ps.any fun p => qs.any fun q => p.bit < q.bit + q.len && q.bit < p.bit + p.len

/-- The events that may come next: those that share no bit with one before them (R212, R217). -/
def nextEvents (es : List (List Piece)) : List Nat :=
  (List.range es.length).filter fun i => !(es.take i).any fun e => piecesMeet e (es.getD i [])

/-- The event that does come next, by tick: any of them. -/
def nextEvent (tick : Nat) (es : List (List Piece)) : Nat :=
  let l := nextEvents es
  if l.length ≤ 1 then 0 else l.getD (Config.element tick % l.length) 0

/-! ### What a load sees (R207, R212, R217, R219) -/

/-- Bits as they were before some write events. -/
def unseen (vs : List View) (b len v : Nat) : Nat :=
  vs.foldr (fun w v => w.olds.foldr (fun q v => overlay v b len { bit := q.1, len := q.2.1, va := 0, val := q.2.2 }) v) v

/-- The write event touches the pieces. -/
def View.meets (w : View) (ps : List Piece) : Bool := w.olds.any fun q => ps.any fun p => q.1 < p.bit + p.len && p.bit < q.1 + q.2.1

/-- How many of the write events a load of these pieces sees at least: up to the last one on its bits that it must see. -/
def mustSee (vs : List View) (ps : List Piece) : Nat := ((vs.zipIdx.filter fun q => q.1.seen && q.1.meets ps).getLast?.map (·.2 + 1)).getD 0

/-- One event of a load, with its number: it sees the write events up to one that it may choose, and no later load of the cell on these
bits sees fewer of them (R217, R221). -/
def loadEvent (s : State) (q : List View × List Piece) (e : List Piece × Nat) : List View × List Piece :=
  let lo := mustSee q.1 e.1
  let n := lo + Config.readTime s.tick e.2 % (q.1.length - lo + 1)
  (q.1.zipIdx.map fun w => if w.2 < n && w.1.meets e.1 then { w.1 with seen := true } else w.1,
    q.2 ++ e.1.map fun p => { p with val := unseen (q.1.drop n) p.bit p.len (readBits s p.bit p.len) })

/-- The events of a load of a cell: what the cell has yet to see, and the pieces as they were read. -/
def loadEvents (s : State) (c : Nat) (ps : List Piece) : List View × List Piece :=
  if getViews s c = [] then ([], readPieces s ps) else (eventsOf ps).zipIdx.foldl (loadEvent s) (getViews s c, [])

/-- Some piece lies in a granule with an uncorrectable error. -/
def anyPoison (s : State) (ps : List Piece) : Option Nat :=
  if s.poison = [] then none else ps.findSome? fun p => if poisonedBits s p.bit p.len then some p.va else none

/-! ### Reading a held register and replaying a recipe (R116 to R121) -/

/-- A recipe of the cell's table: first word and number of instructions (R84). -/
def recipeOf (x : Cell) (n : Nat) : Option (Nat × Nat) :=
  let e := (tget 0 x.recipes n).toNat
  if bit e 15 then some (bits e 0 8, bits e 8 2 + 1) else none

/-- The instructions of a recipe, as they decode for a cell. -/
def recipeInstrs (x : Cell) : Nat → Nat → Except Defect (List Instr)
  | 0, _ => .ok []
  | n + 1, w =>
    match decodeWords .cell [(tget 0 x.store w).toNat, (tget 0 x.store (w + 1)).toNat] with
    | .error d => .error d
    | .ok (i, _) => (recipeInstrs x n (w + sizeOf' i)).map (i :: ·)

/-- A recipe's failure: the reading instruction faults with RECIPE and keeps the inner cause (R121). -/
def recipeFail {α : Type} (t : Trap) : R α := .error (.trap { cause := cRECIPE, inner := t.cause, addr := t.addr, aux := t.aux })

/-- How register-form rounding numbers lanes on the firing's cell (R299). -/
def rndCtx (s : State) (c : Nat) (f : Firing) : RndCtx :=
  { grove := (getCfg s f.cfg).relGrove (groveOf c), cell := cellNo c, itag := f.itag, dyn := bits ((getCell s c).field f.ctx 0) 29 3 }

/-- The raw load of LD through a CONST record inside a recipe (R120), without a watchpoint: its value and what it reads. -/
def recipeLoad (s : State) (c : Nat) (f : Firing) (off r : Nat) : R (Nat × List Range) := do
  let x := getCell s c
  let rc ← useRecord x f.ctx r false
  if !rc.const then trapR cPERM dCONST rc.base
  else
    let n := if rc.bits = 256 then 2 else if rc.bits = 3 then 170 else 512 / rc.bits
    let l ← elemsAt rc ((List.range n).map (off + ·))
    let ps ← allPieces s ⟨streamCell c, bufferKey (groveOf c)⟩ (firingSrc s c f) .read rc.bits (fun _ => 0) l
    match anyPoison s ps with
    | some a => trapR cECCUNC 0 a
    | none => .ok (ofLanes rc.bits (elemValues s [] n ps), rangesOf ps false)

/-- A recipe's words in order; `rd` reads a held register other than the rebuilt one, `v` is its value so far and `l` what its
loads have read. -/
def replayWords (s : State) (c : Nat) (f : Firing) (rd : Nat → R Nat) (k : Nat) : List Instr → Nat → List Range → R (Nat × List Range)
  | [], v, l => .ok (v, l)
  | i :: is, v, l => do
    let x := getCell s c
    if !specsUsable x f.ctx (regsOf i) then trapR cILLREG
    else
      let get := fun (p : Spec) => match heldIdx p with
        | some j => if j = k then (.ok v : R Nat) else rd j
        | none => .ok 0
      let v' ← (match i with
        | .ld _ a r _ _ _ => do
          let off ← get a
          recipeLoad s c f (off % 2 ^ 64) r.toNat
        | i => match aluOf i with
          | some q => do
            let vs ← (q.srcs.flatMap fun p => (List.range p.2).map fun j => BitVec.ofNat 6 (p.1.toNat + j)).mapM get
            match q.eval 512 (rndCtx s c f) vs with
            | .ok o => (.ok (o.vals.getD 0 0 % 2 ^ 512, []) : R (Nat × List Range))
            | .error t => .error (.trap t)
          | none => illop)
      replayWords s c f rd k is v'.1 (l ++ v'.2)

/-- Replay a register's recipe with `rd` for its reads (R120): the value, or the failure R121 gives.  A nested replay
and a translation miss are made first. -/
def replayWith (s : State) (c : Nat) (f : Firing) (rd : Nat → R Nat) (k : Nat) (tag : Option Nat) : R (Nat × List Range) :=
  let x := getCell s c
  let r : R (Nat × List Range) := match tag.bind (recipeOf x) with
    | none => illop
    | some (w, n) => match recipeInstrs x n w with
      | .error .illreg => trapR cILLREG
      | .error _ => illop 1
      | .ok is => replayWords s c f rd k is 0 []
  match r with
  | .error (.trap t) => if t.cause = cRECIPE ∧ t.inner ≠ 0 then .error (.trap t) else recipeFail t
  | r => r

/-- Register `k` rebuilt (R120): FULL with the value, its tag kept. -/
def rebuilt (s : State) (c k v : Nat) : State :=
  modCell s c fun x => { x with held := tmod {} x.held k fun h => { h with value := BitVec.ofNat 512 v, st := .full, err := false } }

/-- The value to which the firing's present instruction has replayed register `k`, which the firing itself has dropped. -/
def Firing.memo (f : Firing) (k : Nat) : Option Reg := (f.replayed.find? fun q => q.1 == f.word && q.2.1 == k).map (·.2.2)

/-- A replay done (R120): the cell's register `k` is FULL with the value at once, whatever becomes of the firing (R144).  Where the firing
itself has dropped the register, which stays DROPPED under R141, the instruction keeps the value for its next try (log entry 55).  The
replay's loads are loads of the firing, and their check goes to the owners (R207, R227). -/
def replayed (s : State) (c : Nat) (f : Firing) (k : Nat) (own : Own) (v : Nat × List Range) : State :=
  let t := rebuilt s c k v.1
  let t := if own = .drop then
      modCell t c fun x => { x with firing := some { f with replayed := (f.word, k, BitVec.ofNat 512 v.1) :: f.replayed } }
    else t
  if v.2 = [] then t
  else sendCheck t { id := 0, src := firingSrc s c f, kind := .load, ranges := v.2, scope := 0, group := 0, handle := 0 }

/-- A read inside a recipe at the given depth left (R121): an EMPTY register fails with FULLEMPTY, one with its fill-error bit set too,
which is the model's choice (log entry 13), and a DROPPED one is replayed first while a level is left. -/
def readInRecipe (s : State) (c : Nat) (f : Firing) : Nat → Nat → R Nat
  | lvl, k =>
    let x := getCell s c
    match heldView x f k with
    | ({ value := v, st := .full, err := e, .. }, _) => if e then trapR cECCUNC else .ok v.toNat
    | ({ st := .empty, .. }, _) => trapR cFULLEMPTY
    | ({ st := .dropped, tag := t, .. }, own) =>
      match f.memo k with
      | some v => .ok v.toNat
      | none => match lvl with
        | 0 => trapR cRECIPE
        | l + 1 => do
          let v ← replayWith s c f (readInRecipe s c f l) k t
          .error (.redo (replayed s c f k own v))

/-- A firing's read of held register `k` (R117, R118, R120): a DROPPED register is replayed before the instruction is
tried again; one that the firing itself has dropped is replayed by every instruction that reads it (R141; log entry 55).  A register that
is EMPTY by a command of the same firing cannot land before END and is read as R117 gives for an EMPTY one (log entry 13). -/
def readHeld (s : State) (c : Nat) (f : Firing) (k : Nat) : R Nat :=
  let x := getCell s c
  match heldView x f k with
  | ({ value := v, st := .full, err := e, .. }, _) => if e then trapR cECCUNC else .ok v.toNat
  | ({ value := v, st := .empty, err := e, .. }, .fill) => if e then trapR cECCUNC else .ok v.toNat
  | ({ st := .empty, err := e, .. }, _) => if e then trapR cECCUNC else if trapPolicy x f.ctx k then trapR cFULLEMPTY else .error .stall
  | ({ st := .dropped, tag := t, .. }, own) => match f.memo k with
    | some v => .ok v.toNat
    | none => do
      let v ← replayWith s c f (readInRecipe s c f 1) k t
      .error (.redo (replayed s c f k own v))

/-! ### Specifiers of a cell (R63, R101) -/

/-- What CELLID reads (R12). -/
def cellId (s : State) (c : Nat) (f : Firing) : Nat :=
  let q := getCfg s f.cfg
  let n := groveOf c
  let r := q.relGrove n
  (q.stageOf n).getD 0 * 2 ^ 28 + r / 32 * 2 ^ 11 + r % 32 * 2 ^ 6 + cellNo c

/-- Read a specifier of the firing. -/
def readSpec (s : State) (c : Nat) (f : Firing) (v : Spec) : R Nat :=
  let n := v.toNat
  if n ≤ 7 then .ok (f.temps.getD n 0).toNat
  else if n ≤ 39 then readHeld s c f (n - 8)
  else if n ≤ 43 then .ok (f.ivals.getD (n - 40) 0).toNat
  else if n = 44 then .ok 0
  else if n = 45 then .ok f.itag
  else if n = 46 then .ok f.frame
  else if n = 47 then .ok (cellId s c f)
  else trapR cILLREG

/-- Read `n` registers from a specifier on. -/
def readSpecs (s : State) (c : Nat) (f : Firing) (v : Spec) (n : Nat) : R (List Nat) :=
  (List.range n).mapM fun i => readSpec s c f (BitVec.ofNat 6 (v.toNat + i))

/-- A held register that a write would meet EMPTY stalls the instruction until the pending value lands (R117).  One that the firing's own
command will make EMPTY at commit lands before END in no run: a write of it waits without end, which is the model's choice (log entry 13). -/
def writeWait (s : State) (c : Nat) (f : Firing) (k : Nat) : R Unit :=
  match heldView (getCell s c) f k with
  | ({ st := .empty, err := false, .. }, .none) => .error .stall
  | ({ st := .empty, .. }, .cmd) => .error .stall
  | _ => .ok ()

/-- Write a temporary. -/
def Firing.setTemp (f : Firing) (n v : Nat) : Firing :=
  { f with temps := (List.range 8).map fun i => if i = n then BitVec.ofNat 512 v else f.temps.getD i 0 }

/-- Write a specifier (R310): a temporary at once, a held register by an entry, Z discards. -/
def writeSpec (s : State) (c : Nat) (f : Firing) (v : Spec) (x : Nat) : R Firing :=
  let n := v.toNat
  if n ≤ 7 then .ok (f.setTemp n x)
  else if n ≤ 39 then do
    writeWait s c f (n - 8)
    addEntry f (.held (n - 8) (BitVec.ofNat 512 x))
  else if n = 44 then .ok f
  else trapR cILLREG

/-- Write consecutive registers from a specifier on. -/
def writeSpecs (s : State) (c : Nat) (f : Firing) (v : Spec) : List Nat → R Firing
  | [] => .ok f
  | x :: xs => do
    let f ← writeSpec s c f v x
    writeSpecs s c f (BitVec.ofNat 6 (v.toNat + 1)) xs

/-! ### What precedes a firing (R213, R216) -/

/-- The words a firing has run, from its first to the one before `w`, as they decode; the words of a cell run in order. -/
def ranInstrs (x : Cell) : Nat → Nat → Nat → List Instr
  | 0, _, _ => []
  | n + 1, i, w =>
    if w ≤ i then []
    else match decodeWords .cell [(tget 0 x.store i).toNat, (tget 0 x.store (i + 1)).toNat] with
      | .ok (j, _) => j :: ranInstrs x n (i + sizeOf' j) w
      | .error _ => []

/-- The firings that precede one: those of the tokens it consumed and of the held registers it has read. -/
def firingPast (s : State) (c : Nat) (f : Firing) : List Nat :=
  let x := getCell s c
  let hs := x.held.filter fun h => h.2.past ≠ []
  if hs = [] then f.past
  else
    let ks := (ranInstrs x 256 (bits (x.field f.ctx 0) 16 8) f.word).flatMap fun i =>
      (readsOf i).flatMap fun q => match heldIdx q.1 with
        | some k => (List.range q.2).map (k + ·)
        | none => []
    joinPast s f.past ((hs.filter fun h => ks.contains h.1).flatMap fun h => h.2.past)

/-- What precedes whoever consumes a token or reads a register of the firing: the firing itself too when it issues a job. -/
def pastOut (s : State) (c : Nat) (f : Firing) : List Nat :=
  let p := firingPast s c f
  if f.out.any fun e => match e with | .cmd .. => true | _ => false then f.uid :: p.filter fun u => u ≠ f.uid else p

/-- Put the firing back. -/
def putFiring (s : State) (c : Nat) (f : Firing) : State := modCell s c fun x => { x with firing := some f }

/-- A cell instruction whose held registers are checked first (R64, step 6 of R74). -/
def withRegs (i : Instr) (body : Nat → Firing → State → R State) (c : Nat) (f : Firing) (s : State) : R State :=
  if specsUsable (getCell s c) f.ctx (regsOf i) then body c f s else trapR cILLREG

/-! ### Arithmetic instructions (R310 to R312) -/

/-- An arithmetic instruction of a firing: sources in field order, result, report. -/
def aluCell (q : AluSem) (c : Nat) (f : Firing) (s : State) : R State := do
  let vs ← q.srcs.mapM fun p => readSpecs s c f p.1 p.2
  let o ← liftTrap (q.eval 512 (rndCtx s c f) vs.flatten)
  let f ← writeSpecs s c f q.dst o.vals
  .ok (putFiring s c (f.report o.rep))

/-- An arithmetic instruction of a controller or core: 64-bit registers (R309). -/
def aluCtl (q : AluSem) (u _pc : Nat) (s : State) : R State := do
  let vs := q.srcs.map fun p => readG s u p.1
  let o ← liftTrap (q.eval 64 {} vs)
  .ok (writeG s u q.dst (o.vals.getD 0 0))

/-- An arithmetic instruction on either kind of unit. -/
def runAlu (i : Instr) (q : AluSem) (s : State) : Out State := runInstr i s (withRegs i (aluCell q)) (aluCtl q)

end Sys2Proof.Machine
end

