-- ==== Sys2Proof/Machine/Fetch.lean ====
section
/-! DEFINITION. Fetching: the word a unit reaches next (R104, R105, R152, R163), its row of the table, and the fault of a
word that is not an instruction (R73 to R75). -/

namespace Sys2Proof.Machine

/-- What the unit with the turn meets at its next word. -/
inductive Fetched where
  | run (i : Instr)
  | trap (t : Trap)
  | redo (s : State)
  | stall
  deriving Repr

/-- The stream and buffer of a controller or core (R414). -/
def ctlStream (u : Nat) : Stream := ⟨streamCtl u, if isCore u then u else bufferKey u⟩

/-- One instruction word of a controller or core. -/
def fetchWord (s : State) (u va : Nat) : R Nat :=
  if va = 0 then trapR cTRANSL 0 0
  else if va % 4 ≠ 0 then trapR cALIGN 0 va
  else do
    let x := getCtl s u
    let q ← translate s (ctlStream u) { kind := 3, who := u, asn := x.asn, user := x.user, secure := unitSecure s u } .fetch va 4
    if poisonedRange s q.1 4 then trapR cECCUNC 0 va else .ok (readNat s q.1 4)

/-- The row that a word of several rows stands for: SMC by its request code (R407), a write of PWREQ by its value
(R461). -/
def rowOf (s : State) (u : Nat) (i : Instr) : Instr :=
  match i with
  | .smcSetblk d a b => match readG s u a with
    | 2 => .smcSetrgn d a b | 3 => .smcGetblk d a b | 4 => .smcGetrgn d a b | _ => i
  | .pwreqStandby a => if readG s u a = 0 then .pwreqWithdraw a else i
  | _ => i

/-- The words of a controller's instruction: one, or two for a long form.  That both are fetched before the first is looked at, so that a
fault of the second fetch is reported rather than a defect of the first word, is the model's choice (log entry 14). -/
def fetchWords (s : State) (u pc : Nat) : R (List Nat) := do
  let w ← fetchWord s u pc
  if isLong w then do
    let v ← fetchWord s u (pc + 4)
    .ok [w, v]
  else .ok [w]

/-- The next instruction of a controller or core. -/
def fetchCtl (s : State) (u : Nat) : Fetched :=
  match fetchWords s u (getCtl s u).pc with
  | .error (.trap t) => .trap t
  | .error .stall => .stall
  | .error (.redo t) => .redo t
  | .ok ws => match decodeWords (unitKind u) ws with
    | .ok (i, _) => .run (rowOf s u i)
    | .error d => .run (.decodeDefect d)

/-- The next instruction of a firing.  The model's choice of what is reported first (log entry 14): a word that is no instruction, then the
end of the range (R104), and only when the instruction executes a held register that it may not use (R64) and its other faults. -/
def fetchCell (s : State) (c : Nat) (f : Firing) : Fetched :=
  let x := getCell s c
  let k0 := x.field f.ctx 0
  let last := bits k0 16 8 + bits k0 24 5
  let w := (tget 0 x.store f.word).toNat
  let v := (tget 0 x.store (f.word + 1)).toNat
  match decodeWords .cell [w, v] with
  | .error d => .run (.decodeDefect d)
  | .ok (i, _) =>
    if i ≠ .endFiring ∧ last ≤ f.word + sizeOf' i - 1 then .run (.decodeDefect .noend) else .run i

/-- The trap of a word that is not an instruction (R73, R104). -/
def defectTrap : Defect → Trap
  | .illop => tIllop 1
  | .illreg => { cause := cILLREG }
  | .noend => tIllop 6

/-- DECODE (R73). The word that the unit reached is not an instruction and faults before it changes anything (R75). -/
def execDecodeDefect (defect : Defect) (s : State) : Out State :=
  match s.turn with
  | .cell c => match (getCell s c).firing with
    | some f => if f.phase = .running then .next (firingFault s c f (defectTrap defect)) else notPending "no word is due on the cell"
    | none => notPending "no firing runs on the cell"
  | .ctl u =>
    let x := getCtl s u
    if x.mode = .running then .next (takeCtlTrap s u x.pc (defectTrap defect)) else notPending "the unit is not running"
  | _ => notPending "no unit has the turn"

end Sys2Proof.Machine
end

