-- ==== Sys2Proof/Machine/Flow.lean ====
section
/-! DEFINITION. FLOW, HELD and TRAPU: emission (R127 to R138), END and NOP (R132, R139), the held-register
instructions (R140 to R146), TRAP and BRKP (R147 to R149). -/

namespace Sys2Proof.Machine

/-! ### Routes and tokens -/

/-- CheckRoute (R129): the route exists and is of the data or predicate kind. -/
def checkRoute (x : Cell) (f : Firing) (d : Nat) (pred : Bool) : R Route :=
  let r := x.route f.ctx d
  if !r.en || (decide (4 ≤ r.port) != pred) then illop else .ok r

/-- The iteration tag an operand gives (R130). -/
def tagOf (f : Firing) (b : Spec) (v : Nat) : R Nat :=
  if b.toNat = 44 then .ok f.itag
  else
    let l := lane 32 v 0
    if bits l 24 8 ≠ 0 then boundsR l else .ok (bits l 0 24)

/-- Payload bits, lane width, unit and full count of a width class (R128). -/
def classBits (m : Nat) : Nat := match m with | 0 => 32 | 1 => 128 | _ => 512
def classLane (m : Nat) : Nat := match m with | 3 => 16 | 4 => 8 | 5 => 4 | _ => 32
def classUnit (m : Nat) : Nat := match m with | 4 => 2 | 5 => 4 | _ => 1
def classCount (m : Nat) : Nat := match m with | 0 => 0 | 1 => 3 | 2 => 15 | _ => 31

/-- One emission: an entry, counted on its route (R131). -/
def emitEntry (f : Firing) (d dest : Nat) (t : Token) : R Firing := do
  let f ← addEntry f (.emit d dest t)
  .ok { f with emitted := f.emitted.set d (f.emitted.getD d 0 + 1) }

/-- A token of the firing on route `d` (R135, R136). -/
def routeToken (c : Nat) (f : Firing) (d : Nat) (r : Route) : Token :=
  { ctx := r.ctx, port := r.port, itag := f.itag, frame := f.frame, cfg := f.cfg, route := routeKey c f.ctx d }

/-! ### Emission -/

/-- EMIT and EMITZ (R135) with the given payload. -/
def emitFull (c : Nat) (f : Firing) (s : State) (d : Nat) (b : Spec) (m payload : Nat) (r : Route) : R State := do
  let v ← readSpec s c f b
  let tag ← tagOf f b v
  let f ← emitEntry f d (routeDest (getCfg s f.cfg) r)
    { routeToken c f d r with itag := tag, width := m, count := classCount m, payload := BitVec.ofNat 512 (payload % 2 ^ classBits m) }
  .ok (putFiring s c f)

/-- EMIT (R135). Appends a full data token on a route to the output buffer. -/
def execEmit (d a b : Spec) (m : BitVec 3) (s : State) : Out State :=
  onCells (.emit d a b m) s <| withRegs (.emit d a b m) fun c f s => do
    let r ← checkRoute (getCell s c) f d.toNat false
    let v ← readSpec s c f a
    emitFull c f s d.toNat b m.toNat v r

/-- EMITZ (R135). Appends a zero-payload token on a route. -/
def execEmitz (d b : Spec) (m : BitVec 3) (s : State) : Out State :=
  onCells (.emitz d b m) s <| withRegs (.emitz d b m) fun c f s => do
    let r ← checkRoute (getCell s c) f d.toNat false
    emitFull c f s d.toNat b m.toNat 0 r

/-- The control of EMITN (R136): valid lanes, tag, frame, last flag. -/
def emitnControl (f : Firing) (m ctl : Nat) : R (Nat × Nat × Nat × Bool) :=
  let c0 := lane 32 ctl 0
  let n := bits c0 0 8
  if bits c0 11 21 ≠ 0 then boundsR c0
  else if n = 0 ∨ classUnit m * (classCount m + 1) < n ∨ n % classUnit m ≠ 0 then boundsR n
  else if bit c0 9 ∧ bits (lane 32 ctl 1) 24 8 ≠ 0 then boundsR (lane 32 ctl 1)
  else if bit c0 10 ∧ bits (lane 32 ctl 2) 10 22 ≠ 0 then boundsR (lane 32 ctl 2)
  else .ok (n, if bit c0 9 then bits (lane 32 ctl 1) 0 24 else f.itag, if bit c0 10 then bits (lane 32 ctl 2) 0 10 else f.frame, bit c0 8)

/-- EMITN (R136). Appends a token with chosen count, last flag, tag and frame. -/
def execEmitn (d a b : Spec) (m : BitVec 3) (s : State) : Out State :=
  onCells (.emitn d a b m) s <| withRegs (.emitn d a b m) fun c f s => do
    let r ← checkRoute (getCell s c) f d.toNat false
    let v ← readSpec s c f a
    let ctl ← readSpec s c f b
    let q ← emitnControl f m.toNat ctl
    let p := v % 2 ^ classBits m.toNat % 2 ^ (q.1 * classLane m.toNat)
    let f ← emitEntry f d.toNat (routeDest (getCfg s f.cfg) r)
      { routeToken c f d.toNat r with
          itag := q.2.1, frame := q.2.2.1, width := m.toNat, last := q.2.2.2, count := q.1 / classUnit m.toNat - 1, payload := BitVec.ofNat 512 p }
    .ok (putFiring s c f)

/-- EMITQ (R137). Appends a predicate token on a route. -/
def execEmitq (d a b : Spec) (s : State) : Out State :=
  onCells (.emitq d a b) s <| withRegs (.emitq d a b) fun c f s => do
    let r ← checkRoute (getCell s c) f d.toNat true
    let v ← readSpec s c f a
    let t ← readSpec s c f b
    let tag ← tagOf f b t
    let f ← emitEntry f d.toNat (routeDest (getCfg s f.cfg) r)
      { routeToken c f d.toNat r with pred := true, itag := tag, payload := if lane 32 v 0 ≠ 0 then 1 else 0 }
    .ok (putFiring s c f)

/-- BOUND (R138). Appends a class-0 trip-count token. -/
def execBound (d a b : Spec) (s : State) : Out State :=
  onCells (.bound d a b) s <| withRegs (.bound d a b) fun c f s => do
    let r ← checkRoute (getCell s c) f d.toNat false
    let v ← readSpec s c f a
    let t ← readSpec s c f b
    let tag ← tagOf f b t
    let n := lane 32 v 0
    if n = 0 ∨ 0xFFFFFF < n then boundsR n
    else do
      let f ← emitEntry f d.toNat (routeDest (getCfg s f.cfg) r)
        { routeToken c f d.toNat r with itag := tag, width := 0, count := 0, payload := BitVec.ofNat 512 n }
      .ok (putFiring s c f)

/-! ### END and NOP -/

/-- Every enabled route has seen as many emissions as its rate (R132). -/
def ratesMet (x : Cell) (f : Firing) : Bool :=
  (List.range 4).all fun k => !(x.route f.ctx k).en || f.emitted.getD k 0 == (x.route f.ctx k).rate

/-- END (R139). Checks route rates and ends the firing; its output buffer commits once its checks have returned
(R227). -/
def execEndFiring (s : State) : Out State :=
  onCells .endFiring s fun c f s =>
    if ratesMet (getCell s c) f then .ok (settleFiring (putFiring s c { f with phase := .ending }) c) else illop 3

/-- NOP (R139). No effect. -/
def execNop (s : State) : Out State := onCells .nop s fun _ _ s => .ok s

/-! ### Held registers -/

/-- The named register's index; WellFormed has refused any other specifier. -/
def namedHeld (v : Spec) : R Nat := match heldIdx v with
  | some k => .ok k
  | none => illop

/-- A source a recipe may read: a held register or Z (R119). -/
def recipeSrc (v : Spec) : Bool := (heldIdx v).isSome || v.toNat == 44

/-- The words of a recipe all name register `k` as destination and keep the rules of R119. -/
def recipeFits (x : Cell) (n k : Nat) : Bool :=
  match recipeOf x n with
  | none => false
  | some (w, len) => match recipeInstrs x len w with
    | .error _ => false
    | .ok is => is.all fun i => match i with
      | .ld d a _ _ _ _ => heldIdx d == some k && recipeSrc a
      | i => match aluOf i with
        | some q => recipeAlu i && heldIdx q.dst == some k && q.srcs.all fun p => recipeSrc p.1
        | none => false

/-- HREC (R142). Tags a held register with a recipe at commit. -/
def execHrec (d b : Spec) (s : State) : Out State :=
  onCells (.hrec d b) s <| withRegs (.hrec d b) fun c f s => do
    let k ← namedHeld d
    if !recipeFits (getCell s c) b.toNat k then illop
    else do
      let f ← addEntry f (.hrec k (some b.toNat))
      .ok (putFiring s c f)

/-- HREC_CLR (R142). Clears a held register's recipe tag at commit. -/
def execHrecClr (d : Spec) (s : State) : Out State :=
  onCells (.hrecClr d) s <| withRegs (.hrecClr d) fun c f s => do
    let k ← namedHeld d
    if (heldView (getCell s c) f k).1.st = .dropped then illop
    else do
      let f ← addEntry f (.hrec k none)
      .ok (putFiring s c f)

/-- The firing has an earlier entry that makes register `k` EMPTY (R143, R144). -/
def ownProducer (f : Firing) (k : Nat) : Bool :=
  f.out.any fun e => match e with
    | .fill j _ _ => j == k
    | .cmd _ (some j) => j == k
    | _ => false

/-- HDROP (R143). Makes a tagged held register DROPPED at commit. -/
def execHdrop (d : Spec) (s : State) : Out State :=
  onCells (.hdrop d) s <| withRegs (.hdrop d) fun c f s => do
    let k ← namedHeld d
    let v := (heldView (getCell s c) f k).1
    if v.tag = none then illop
    else if ownProducer f k then illop
    else if v.st = .empty ∧ !v.err then .error .stall
    else do
      let f ← addEntry f (.hdrop k (v.st != .dropped))
      .ok (putFiring s c f)

/-- HFILL (R144). Makes a held register FULL, replaying or waiting as needed. -/
def execHfill (d : Spec) (s : State) : Out State :=
  onCells (.hfill d) s <| withRegs (.hfill d) fun c f s => do
    let k ← namedHeld d
    match heldView (getCell s c) f k with
    | ({ st := .full, err := e, .. }, _) => if e then trapR cECCUNC else .ok s
    | ({ st := .dropped, .. }, _) => do
      let _ ← readHeld s c f k
      .ok s
    | ({ st := .empty, err := e, .. }, own) =>
      if own ≠ .none then illop else if e then trapR cECCUNC else .error .stall

/-- HSTAT (R145). Reads a held register's state, tag and policy. -/
def execHstat (d a : Spec) (s : State) : Out State :=
  onCells (.hstat d a) s <| withRegs (.hstat d a) fun c f s => do
    let k ← namedHeld a
    let x := getCell s c
    let v := (heldView x f k).1
    let w := (match v.st with | .full => 0 | .empty => 1 | .dropped => 2) + (if v.err then 8 else 0) +
      (match v.tag with | some t => t % 16 * 16 + 256 | none => 0) + (if trapPolicy x f.ctx k then 512 else 0)
    let f ← writeSpec s c f d w
    .ok (putFiring s c f)

/-- HCAP (R146). Reads the cell's held-register capacity. -/
def execHcap (d : Spec) (s : State) : Out State :=
  onCells (.hcap d) s <| withRegs (.hcap d) fun c f s => do
    let f ← writeSpec s c f d (getCell s c).hcap
    .ok (putFiring s c f)

/-! ### TRAP and BRKP -/

/-- TRAP (R148). Faults the firing with cause USER and a code and value. -/
def execTrap (a b : Spec) (s : State) : Out State :=
  onCells (.trap a b) s <| withRegs (.trap a b) fun c f s => do
    let v ← readSpec s c f a
    trapR cUSER 0 b.toNat (v % 2 ^ 64)

/-- BRKP (R149). Faults with BRK when BRKEN is 1, otherwise no effect. -/
def execBrkp (b : Spec) (s : State) : Out State :=
  onCells (.brkp b) s fun c _ s => if bit (getCtl s (groveOf c)).dbgctl.toNat 0 then trapR cBRK 0 b.toNat else .ok s

end Sys2Proof.Machine
end

