-- ==== Sys2Proof/Machine/Token.lean ====
section
/-! DEFINITION. Tokens and firings: arrival at a cell (R96 to R99, R176, R177), readiness and selection (R97, R98, R107, R114,
R115), the start of a firing (R94, R100, R101) and the fixed nodes steer, merge, counter and reduction (R108 to R111).
The memory node stands in Mem.lean. -/

namespace Sys2Proof.Machine

/-! ### Arrival -/

/-- A token is malformed for the context it is addressed to (R96). -/
def malformed (x : Cell) (t : Token) : Bool :=
  if x.kind t.ctx = 0 then true
  else if t.pred then !x.usesQ t.ctx (t.port - 4)
  else x.rate t.ctx t.port == 0 || t.width != x.width t.ctx t.port || classCount t.width < t.count

/-- The frame takes no token into matching: it is stopped (R113). -/
def frameStopped (s : State) (cfg fr : Nat) : Bool := (getFrame s cfg fr).stopped.isSome

/-- The route field of a token's header belongs to the network (R93). -/
def headerOf (t : Token) : Nat := tokenHeader t (Config.routeField t.route).toNat

/-- A malformed token stops its frame and is kept in the record (R96, R421). -/
def stopMalformed (s : State) (c : Nat) (t : Token) : State :=
  stopFrame s (frameRecord s kTOKEN (tIllop 4)
    { kind := 0, who := c, cfg := t.cfg, frame := t.frame, ctx := t.ctx, itag := t.itag, asn := (getCfg s t.cfg).asn }
    { header := headerOf t, payload := t.payload.toNat })

/-- State of a counter node for a frame (R109); before its first firing it has the initial trip count of k7. -/
def counterOf (x : Cell) (ctx fr : Nat) : CounterSt :=
  let st := tget {} x.counters (ctx * 1024 + fr)
  let inner := bits (x.field ctx 7) 0 24
  if st.inner = 0 then { st with inner := inner, pending := if st.pending = 0 then inner else st.pending } else st

/-- A bound token is consumed by its counter (R109): it sets the pending trip count, and a last flag counts for the counter's I1
(R175); or it stops the frame with BOUNDS.  The spec gives that stop no record kind and does not say what becomes of the token: the
record is a FIRING and the token stays first at the cell, so that FRES meets it again (DESIGN CHOICE, log entry 52). -/
def takeBound (s : State) (c : Nat) (t : Token) : State :=
  let v := lane 32 t.payload.toNat 0
  if v = 0 ∨ 0xFFFFFF < v then
    let s := modCell s c fun x => { x with tokens := t :: x.tokens }
    stopFrame s (frameRecord s kFIRING (tBounds v)
      { kind := 0, who := c, cfg := t.cfg, frame := t.frame, ctx := t.ctx, itag := t.itag, asn := (getCfg s t.cfg).asn } {})
  else
    modCell s c fun x =>
      { x with counters := tset {} x.counters (t.ctx * 1024 + t.frame) { counterOf x t.ctx t.frame with pending := v }
               lasts := if t.last && !x.lasts.contains (t.ctx, t.frame, 1) then x.lasts ++ [(t.ctx, t.frame, 1)] else x.lasts }

/-- A bound token at its counter. -/
def isBound (x : Cell) (t : Token) : Bool := !t.pred && x.kind t.ctx == 4 && t.port == 1

/-- Identities of the firings that have what they need, in no order: context, frame, tag.  A skipped frame's tokens are discarded (R435),
but those of a firing of it that PREEMPT withdrew, which runs again (R263). -/
def matched (s : State) (x : Cell) : List (Nat × Nat × Nat) :=
  let cfg := getCfg s x.cfg
  let okFrame := fun fr => (cfg.frame fr).live && (cfg.frame fr).stopped.isNone
  let have_ := fun (ctx fr tag : Nat) (pred : Bool) (port n : Nat) =>
    n ≤ (x.tokens.filter fun t => t.pred == pred && t.cfg == x.cfg && t.ctx == ctx && t.frame == fr && t.itag == tag && t.port == port).length
  let predVal := fun (ctx fr tag q : Nat) =>
    (x.tokens.find? fun t => t.pred && t.cfg == x.cfg && t.ctx == ctx && t.frame == fr && t.itag == tag && t.port == 4 + q).map fun t => t.payload != 0
  let ready := fun (ctx fr tag : Nat) => match x.kind ctx with
    | 3 => match predVal ctx fr tag 0 with
      | some true => have_ ctx fr tag false 0 1
      | some false => have_ ctx fr tag false 1 1
      | none => false
    | 4 => have_ ctx fr tag false 0 1
    | 0 => false
    | _ => (List.range 4).all (fun p => have_ ctx fr tag false p (x.rate ctx p)) &&
      (List.range 2).all fun q => !x.usesQ ctx q || have_ ctx fr tag true (4 + q) 1
  let ids := (x.tokens.filter fun t => t.cfg == x.cfg).map fun t => (t.ctx, t.frame, t.itag)
  let srcs := (x.sources.map fun q => (q.1, q.2, 0)).filter fun i => okFrame i.2.1
  if x.cfg = 0 then [] else srcs ++ ids.eraseDups.filter fun i => okFrame i.2.1 && ready i.1 i.2.1 i.2.2

/-- Those that are ready: the configuration runs, and no CONF quiesces it (R179, R188). -/
def readyAt (s : State) (x : Cell) : List (Nat × Nat × Nat) :=
  let cfg := getCfg s x.cfg
  if cfg.st = .running && !cfg.quiesce then matched s x else []

/-- The firings that are ready are noted in the order in which they became ready, with how many later ones have run
before them (R114); a CONF or a PREEMPT holds them up and changes nothing of that. -/
def noteReady (s : State) (c : Nat) : State :=
  let x := getCell s c
  let r := matched s x
  let kept := x.passed.filter fun p => r.contains (p.1, p.2.1, p.2.2.1)
  let new := r.filter fun i => !kept.any fun p => (p.1, p.2.1, p.2.2.1) == i
  let passed := kept ++ new.map fun i => (i.1, i.2.1, i.2.2, 0)
  if passed = x.passed then s else setCell s c { x with passed := passed }

/-- A token enters a cell's matching store or parking area (R99, R176, R177). -/
def placeToken (s : State) (c : Nat) (t : Token) : State :=
  noteReady (modCell s c fun x => { x with tokens := x.tokens ++ [t] }) c

/-- The configuration `p` comes before `q` in a chain of splices (R174); `n` bounds the length of the chain. -/
def precedes (s : State) (p : Nat) : Nat → Cfg → Bool
  | 0, _ => false
  | n + 1, q => match q.pred with
    | some i => i == p || (findCfg s i).any fun r => precedes s p n r
    | none => false

/-- A token that has arrived at a cell. -/
def arrive (s : State) (c : Nat) (t : Token) : State :=
  let x := getCell s c
  if (getFrame s t.cfg t.frame).skipped then s
  else if x.cfg ≠ t.cfg then
    -- a successor's token waits for a cell of its predecessors (R176); a predecessor's comes too late (R177)
    match findCfg s t.cfg with
    | none => s
    | some q => if precedes s x.cfg s.cfgs.length q then placeToken s c t else modCfg s t.cfg fun q => { q with late := satAdd16 q.late 1 }
  else if frameStopped s t.cfg t.frame || (getCfg s t.cfg).st ≠ .running then placeToken s c t
  else if malformed x t then stopMalformed s c t
  else if isBound x t then takeBound s c t
  else placeToken s c t

/-- Tokens of live frames that matching must look at again, after new fields or a resumed frame: a malformed one stops
its frame, a bound one is consumed (R96, R113, R188). -/
def recheck (s : State) (c : Nat) : State :=
  let x := getCell s c
  let bad := x.tokens.filter fun t => t.cfg == x.cfg && !frameStopped s t.cfg t.frame && (malformed x t || isBound x t)
  let s := setCell s c { x with tokens := x.tokens.filter fun t => !bad.contains t }
  noteReady (bad.foldl (fun s t =>
    if frameStopped s t.cfg t.frame then placeToken s c t
    else if malformed (getCell s c) t then stopMalformed s c t else takeBound s c t) s) c

/-- No earlier item of the list keeps this one from entering: tokens of one route arrive in order, and a done token
keeps its place (R22, R133). -/
def routeFree (s : State) (k : Nat) (route : Nat) : Bool :=
  !(s.work.take k).any fun w => match w with
    | .token _ t | .predicate _ t => t.route == route
    | .done _ _ t _ _ => t.route == route
    | .closeDone _ _ _ t _ => t.route == route
    | _ => false

/-- The cell has room for one more waiting token (R99): 64 in its store and 4,096 in its parking area. -/
def roomAt (s : State) (c : Nat) : Bool := (getCell s c).tokens.length < 4160

/-- The token may enter its cell: its configuration is not saved, and there is room. -/
def tokenRoom (s : State) (c : Nat) (t : Token) : Bool := (getCfg s t.cfg).st != .saved && roomAt s c

/-- TOKEN_ARRIVAL (R97). A data token arrives at a cell's matching store or parking area. -/
def execTokenArrival (s : State) : Out State :=
  match (turnArg s).bind fun k => (workAt s k).map fun w => (k, w) with
  | some (k, .token dest t) =>
    if routeFree s k t.route && tokenRoom s dest t then .next (arrive (dropWork s k) dest t) else notPending "the token waits"
  | _ => notPending "no token is on its way"

/-- PREDICATE_ARRIVAL (R95). A predicate token arrives at a predicate input. -/
def execPredicateArrival (s : State) : Out State :=
  match (turnArg s).bind fun k => (workAt s k).map fun w => (k, w) with
  | some (k, .predicate dest t) =>
    if routeFree s k t.route && tokenRoom s dest t then .next (arrive (dropWork s k) dest t) else notPending "the predicate waits"
  | _ => notPending "no predicate is on its way"

/-- COUNTER_BOUND (R109). A bound token arriving at a counter's I1 sets the pending trip count. -/
def execCounterBound (s : State) : Out State :=
  match (turnArg s).bind fun k => (workAt s k).map fun w => (k, w) with
  | some (k, .token dest t) =>
    if routeFree s k t.route && tokenRoom s dest t && isBound (getCell s dest) t then .next (arrive (dropWork s k) dest t)
    else notPending "no bound token arrives"
  | _ => notPending "no bound token is on its way"

/-- FILL_LAND (R116). The value of a long-latency producer lands and the held register becomes FULL; with an
uncorrectable error it stays EMPTY and the fill-error bit is set (R118). -/
def execFillLand (s : State) : Out State :=
  match (turnArg s).bind fun k => (workAt s k).map fun w => (k, w) with
  | some (k, .fill cell j v err) =>
    .next (modCell (seeAll (dropWork s k) cell) cell fun x =>
      { x with held := tmod {} x.held j fun h => if err then { h with err := true } else { h with value := v, st := .full, err := false } })
  | _ => notPending "no value is on its way"

/-! ### Selection (R114, R115) -/

/-- The node number of a context (R87). -/
def nodeNo (x : Cell) (ctx : Nat) : Nat := bits (x.field ctx 0) 48 16

/-- The first frame from `fr` on, wrapping at 1,024, that has a ready firing (R114). -/
def nextFrame (r : List (Nat × Nat × Nat)) (fr : Nat) : Option Nat :=
  (List.range 1024).findSome? fun i =>
    let g := (fr + i) % 1024
    if r.any fun x => x.2.1 == g then some g else none

/-- In deterministic order, `a` is not after `b` (R115). -/
def detLe (x : Cell) (a b : Nat × Nat × Nat) : Bool :=
  if a.2.2 ≠ b.2.2 then a.2.2 < b.2.2
  else if nodeNo x a.1 ≠ nodeNo x b.1 then nodeNo x a.1 < nodeNo x b.1
  else a.2.1 ≤ b.2.1

/-- The firings a cell may start next: the rules of R114, or the one of R115. -/
def firingChoices (s : State) (c : Nat) : List (Nat × Nat × Nat) :=
  let x := getCell s c
  if x.firing.isSome then []
  else
    let r := readyAt s x
    if (getCfg s x.cfg).det then r.filter fun a => r.all fun b => detLe x a b
    else
      match x.passed.find? fun p => 64 ≤ p.2.2.2 && r.contains (p.1, p.2.1, p.2.2.1) with
      | some p => [(p.1, p.2.1, p.2.2.1)]
      | none => match nextFrame r (match x.lastFrame with | some f => f + 1 | none => 0) with
        | some fr => r.filter fun a => a.2.1 == fr
        | none => []

/-! ### Consuming inputs (R94, R97) -/

/-- The first `n` tokens that satisfy `p`, and the list without them. -/
def takeTokens (p : Token → Bool) : Nat → List Token → List Token × List Token
  | _, [] => ([], [])
  | 0, l => ([], l)
  | n + 1, t :: l =>
    if p t then
      let r := takeTokens p n l
      (t :: r.1, r.2)
    else
      let r := takeTokens p (n + 1) l
      (r.1, t :: r.2)

/-- Ports a firing consumes from, with their rates; predicate ports are 4 and 5. -/
def firingPorts (x : Cell) (ctx fr tag : Nat) : List (Nat × Nat) :=
  match x.kind ctx with
  | 3 =>
    let p := (x.tokens.find? fun t => t.pred && t.cfg == x.cfg && t.ctx == ctx && t.frame == fr && t.itag == tag && t.port == 4).map fun t => t.payload != 0
    [(if p = some true then 0 else 1, 1), (4, 1)]
  | 4 => [(0, 1)]
  | _ => ((List.range 4).filter fun p => x.rate ctx p ≠ 0).map (fun p => (p, x.rate ctx p)) ++
      ((List.range 2).filter fun q => x.usesQ ctx q).map fun q => (4 + q, 1)

/-- Consume the earliest matching tokens of each port. -/
def consume (x : Cell) (ctx fr tag : Nat) : List (Nat × Nat) → List Token → List Token × List Token
  | [], l => ([], l)
  | (p, n) :: ps, l =>
    let a := takeTokens (fun t => t.cfg == x.cfg && t.ctx == ctx && t.frame == fr && t.itag == tag && t.port == p && t.pred == decide (4 ≤ p)) n l
    let b := consume x ctx fr tag ps a.2
    (a.1 ++ b.1, b.2)

/-- The payload of a token as data: lanes beyond the valid count read 0 (R94). -/
def validPayload (t : Token) : Nat :=
  t.payload.toNat % 2 ^ classBits t.width % 2 ^ ((t.count + 1) * classUnit t.width * classLane t.width)

/-- The value read through an input port (R94). -/
def portValue (p : Nat) (ts : List Token) : Reg :=
  let l := ts.filter fun t => !t.pred && t.port == p
  match l with
  | [] => 0
  | t :: _ => BitVec.ofNat 512 (ofLanes (classBits t.width) (l.map validPayload))

/-- What consumption leaves in the cell: the firing is noted as run, and last flags and source firings for a splice
(R114, R175). -/
def noteRun (x : Cell) (ctx fr tag : Nat) (ts : List Token) (source : Bool) : Cell :=
  let before := x.passed.takeWhile fun p => (p.1, p.2.1, p.2.2.1) ≠ (ctx, fr, tag)
  let after := (x.passed.drop before.length).drop 1
  { x with
    passed := before.map (fun p => (p.1, p.2.1, p.2.2.1, p.2.2.2 + 1)) ++ after
    lastFrame := some fr
    sources := if source then x.sources.erase (ctx, fr) else x.sources
    firedSources := if source && !x.firedSources.contains (ctx, fr) then x.firedSources ++ [(ctx, fr)] else x.firedSources
    frames := if x.frames.contains (ctx, fr) then x.frames else x.frames ++ [(ctx, fr)]
    lasts := x.lasts ++ ((ts.filter fun t => t.last && !t.pred).map fun t => (ctx, fr, t.port)).filter fun p => !x.lasts.contains p }

/-- What a firing that consumes these tokens sees (R213, R215, R219): with a data or predicate token everything, with ordering tokens what
their scopes order; a source context's firing starts anew. -/
def startSees (s : State) (c : Nat) (ts : List Token) (source : Bool) : State :=
  if getViews s c = [] then s else if source then seeAll s c else ts.foldl (fun s t => seeScope s c t.scope) s

/-- The firing (ctx, fr, tag) of the cell takes its inputs: the tokens consumed and the state without them. -/
def takeInputs (s : State) (c ctx fr tag : Nat) : List Token × Bool × State :=
  let x := getCell s c
  let source := x.sources.contains (ctx, fr) && x.sourceCtxs.contains ctx
  let q := consume x ctx fr tag (firingPorts x ctx fr tag) x.tokens
  (q.1, source, startSees (setCell s c { noteRun x ctx fr tag q.1 source with tokens := q.2 }) c q.1 source)

/-- A predicate among the inputs is false (R107). -/
def anyFalse (ts : List Token) : Bool := ts.any fun t => t.pred && t.payload == 0

/-- The event may happen: the firing is one of the cell's choices and its context is of the kind. -/
def mayFire (s : State) (c ctx fr tag : Nat) (kind : Nat) : Bool :=
  (getCell s c).kind ctx == kind && (firingChoices s c).contains (ctx, fr, tag)

/-- A firing with a fresh identity. -/
def newFiring (s : State) (c ctx fr tag : Nat) (ts : List Token) (source : Bool) : Firing × State :=
  let x := getCell s c
  let i0 : Reg := if source then BitVec.ofNat 512 ((getCfg s x.cfg).w 1) else portValue 0 ts
  let q := fresh s
  ({ uid := q.1, cfg := x.cfg, ctx := ctx, frame := fr, itag := tag, inputs := ts, source := source
     ivals := [i0, portValue 1 ts, portValue 2 ts, portValue 3 ts], word := bits (x.field ctx 0) 16 8
     past := joinPast s [] (ts.flatMap fun t => t.past) }, q.2)

/-- FIRING (R100). A cell starts a ready firing of a context; with a false predicate it only consumes its inputs
(R107). -/
def execFiring (cell ctx frame itag : Nat) (s : State) : Out State :=
  if mayFire s cell ctx frame itag 1 then
    let q := takeInputs s cell ctx frame itag
    if anyFalse q.1 then .next (noteReady q.2.2 cell)
    else
      let n := newFiring q.2.2 cell ctx frame itag q.1 q.2.1
      .next (noteReady (putFiring n.2 cell n.1) cell)
  else notPending "the firing is not ready"

/-! ### Fixed nodes -/

/-- Send a token on route `k` of a fixed node, in the live frame of its firing; a disabled route discards it (R92). -/
def nodeSend (s : State) (c ctx k : Nat) (t : Token) : State :=
  let x := getCell s c
  let r := x.route ctx k
  if r.en then
    addWork s (.token (routeDest (getCfg s x.cfg) r) { t with ctx := r.ctx, port := r.port, cfg := x.cfg, route := routeKey c ctx k })
  else s

/-- The token that a steer or merge node forwards: with what precedes its predicate as well, which orders what follows as data does
(R213). -/
def joined (s : State) (ts : List Token) (t : Token) : Token :=
  ts.foldl (fun t q => { t with past := joinPast s t.past q.past, scope := max t.scope q.scope }) t

/-- STEER_FIRING (R108). A steer node forwards a token on O0 or O1 by its predicate. -/
def execSteerFiring (cell ctx frame itag : Nat) (s : State) : Out State :=
  if mayFire s cell ctx frame itag 2 then
    let q := takeInputs s cell ctx frame itag
    let k := if anyFalse q.1 then 1 else 0
    match q.1.find? fun t => !t.pred with
    | some t => .next (noteReady (nodeSend q.2.2 cell ctx k (joined s q.1 t)) cell)
    | none => .next (noteReady q.2.2 cell)
  else notPending "the firing is not ready"

/-- MERGE_FIRING (R108). A merge node forwards the token of the input its predicate selects. -/
def execMergeFiring (cell ctx frame itag : Nat) (s : State) : Out State :=
  if mayFire s cell ctx frame itag 3 then
    let q := takeInputs s cell ctx frame itag
    match q.1.find? fun t => !t.pred with
    | some t => .next (noteReady (nodeSend q.2.2 cell ctx 0 (joined s q.1 t)) cell)
    | none => .next (noteReady q.2.2 cell)
  else notPending "the firing is not ready"

/-- The tokens of one counter firing with the state after it (R109): trigger, end of row, end of K. -/
def counterStep (st : CounterSt) (outer : Nat) : Nat × Bool × Option Nat × Option Nat × CounterSt :=
  let n := st.n + 1
  if st.i + 1 = st.inner then
    let j := st.j + 1
    let st' := { st with i := 0, n := n, inner := st.pending }
    if j = outer then (st.n, true, some st.j, some n, { st' with j := 0 })
    else (st.n, true, some st.j, none, { st' with j := j })
  else (st.n, false, none, none, { st with i := st.i + 1, n := n })

/-- COUNTER_FIRING (R109). A counter node consumes a trigger and emits trigger, end-of-row and end-of-K tokens. -/
def execCounterFiring (cell ctx frame itag : Nat) (s : State) : Out State :=
  if mayFire s cell ctx frame itag 4 then
    let x := getCell s cell
    let q := takeInputs s cell ctx frame itag
    match q.1.head? with
    | none => .next q.2.2
    | some t =>
      let r := counterStep (counterOf x ctx frame) (bits (x.field ctx 7) 24 24)
      let s1 := modCell q.2.2 cell fun x => { x with counters := tset {} x.counters (ctx * 1024 + frame) r.2.2.2.2 }
      let word := fun v : Nat => ({ t with width := 0, count := 0, last := false, payload := BitVec.ofNat 512 (v % 2 ^ 32) } : Token)
      let s2 := nodeSend s1 cell ctx 0 { t with itag := r.1 % 2 ^ 24, last := r.2.1 }
      let s3 := match r.2.2.1 with | some j => nodeSend s2 cell ctx 1 (word j) | none => s2
      let s4 := match r.2.2.2.1 with | some n => nodeSend s3 cell ctx 2 (word n) | none => s3
      .next (noteReady s4 cell)
  else notPending "the firing is not ready"

/-- Lane by lane Combine of two payloads under a reduction node's type and op (R111, R276). -/
def reduceLanes (ty op a b : Nat) : Nat :=
  let o : CombOp := match op with | 0 => .add | 1 => .max | _ => .min
  match ty with
  | 3 => zipLanes 32 16 (combineInt o 32 true) a b
  | 4 => zipLanes 16 32 (combineInt o 16 true) a b
  | 5 => zipLanes 8 64 (combineInt o 8 true) a b
  | _ => zipLanes 32 16 (fun x y => (combineF32 o x y).code) a b

/-- The adders of a reduction node differ (R443): nothing is emitted, its frame stops with SDC, and the black box records it.  The
inputs stay at the node (log entry 15). -/
def reductionSdc (s : State) (cell ctx frame itag : Nat) : State :=
  let c := getCfg s (getCell s cell).cfg
  let g := groveOf cell
  let s := bboxEvent { s with sdcs := s.sdcs + 1 } (basinOfGrove g) 1 cSDC 0 g (cellNo cell) c.asn frame 0 (c.rcd % 2 ^ 56)
  stopFrame s (frameRecord s kJOB { cause := cSDC } { who := cell, cfg := c.id, frame := frame, ctx := ctx, itag := itag, asn := c.asn } {})

/-- REDUCTION_NODE_FIRING (R111). A reduction node combines sibling tokens lane by lane, with both of its adders (R443). -/
def execReductionNodeFiring (cell ctx frame itag : Nat) (s : State) : Out State :=
  if mayFire s cell ctx frame itag 6 then
    let x := getCell s cell
    let q := takeInputs s cell ctx frame itag
    if anyFalse q.1 then .next (noteReady q.2.2 cell)
    else match q.1.find? (fun t => !t.pred && t.port == 0), q.1.find? (fun t => !t.pred && t.port == 1) with
      | some a, some b =>
        let k7 := x.field ctx 7
        let v := reduceLanes (bits k7 3 3) (bits k7 0 3) (validPayload a) (validPayload b)
        .next (if Config.adderFault s.tick then reductionSdc s cell ctx frame itag
          else noteReady (nodeSend q.2.2 cell ctx 0
            { joined s q.1 a with last := a.last && b.last, count := max a.count b.count, payload := BitVec.ofNat 512 v }) cell)
      | _, _ => .next q.2.2
  else notPending "the firing is not ready"

end Sys2Proof.Machine
end

