-- ==== Sys2Proof/Machine/Mem.lean ====
section
/-! DEFINITION. MEM, GS, ATOM and ORD on a cell (R230 to R251) up to their output-buffer entries, and the memory node
(R252).  Commit.lean and Owner.lean carry the entries on. -/

namespace Sys2Proof.Machine

/-! ### Who accesses -/

/-- The issuer of one memory instruction: cell, firing, stream, and how trap records name it. -/
structure Mem where
  c : Nat
  f : Firing
  st : Stream
  src : Src

/-- A firing's memory instruction. -/
def memOf (s : State) (c : Nat) (f : Firing) : Mem := ⟨c, f, ⟨streamCell c, bufferKey (groveOf c)⟩, firingSrc s c f⟩

/-- A memory node's access (R252, R414). -/
def memNode (s : State) (c : Nat) (f : Firing) : Mem := ⟨c, f, ⟨streamNode c f.ctx, bufferKey (groveOf c)⟩, firingSrc s c f⟩

/-! ### Formats (R235, R238, R243) -/

/-- Elements of a vector load or store (R235). -/
def vecLen (bits : Nat) : Nat := if bits = 256 then 2 else if bits = 3 then 170 else 512 / bits

/-- The format code is a float of R290 or E8M0. -/
def isFloatFmt (fmt : Nat) : Bool := 8 ≤ fmt && fmt ≤ 13 || fmt == 16

/-- I64 or TUP (R235). -/
def noLaneFmt (fmt : Nat) : Bool := fmt == 6 || fmt == 17

/-- The lane value of an element under LDX and LDGX (R238). -/
def widenLane (fmt v : Nat) : Nat :=
  match numFmt fmt with
  | some (.int f) => if f.signed then wrap 32 (toSigned f.w v) else v
  | some n => (convert (.flt fF32) .rne (n.decode v)).code
  | none => 0

/-- The formats an atomic accepts (R243): op codes of Acc. -/
def atomFmt (op fmt : Nat) : Bool :=
  fmt == 4 || fmt == 5 || fmt == 6 || (op ≤ 4 && (fmt == 8 || fmt == 9 || fmt == 10))

/-! ### Ordering inputs and done tokens (R232, R233) -/

/-- Every ordering input the field names has a port with a rate (R232); the memory node checks this at install. -/
def ordinOk (x : Cell) (ctx : Nat) (o : Nat) : Bool := (!bit o 0 || x.rate ctx 2 != 0) && (!bit o 1 || x.rate ctx 3 != 0)

/-- Append the done token of an instruction with ordout = 1 (R233), whose edge has the instruction's scope (R215): `acc` is the access it
waits for. -/
def doneEntry (s : State) (c : Nat) (f : Firing) (cls scope : Nat) (acc : Option Nat) (ordw : Bool) : R Firing := do
  let r ← checkRoute (getCell s c) f 3 false
  let t := { routeToken c f 3 r with width := cls, count := classCount cls, scope := scope }
  let f ← addEntry f (.done (routeDest (getCfg s f.cfg) r) t acc ordw)
  .ok { f with emitted := f.emitted.set 3 (f.emitted.getD 3 0 + 1) }

/-- Check the route of a done token before anything else happens (R129, R233). -/
def doneRouteOk (s : State) (c : Nat) (f : Firing) (p : BitVec 1) : R Unit :=
  if p = 1 then (checkRoute (getCell s c) f 3 false).map fun _ => () else .ok ()

/-! ### Loads -/

/-- Offsets of a vector access from the value of the offset register (R231, R242). -/
def vecOffs (n off : Nat) : List Nat := (List.range n).map (off % 2 ^ 64 + ·)
def laneOffs (v : Nat) : List Nat := lanes 32 16 v

/-- The loads: LD, LDB, LDX, LDG, LDGX. -/
inductive LoadOp where
  | ld
  | ldb
  | ldx
  | ldg
  | ldgx
  deriving DecidableEq, Repr

/-- Formats a load refuses (R235, R237, R238, R242). -/
def LoadOp.refuses (o : LoadOp) (fmt : Nat) : Bool := match o with
  | .ld => false
  | .ldb => fmt == 14
  | .ldx | .ldg | .ldgx => noLaneFmt fmt

def LoadOp.offs (o : LoadOp) (bits v : Nat) : List Nat := match o with
  | .ld => vecOffs (vecLen bits) v
  | .ldb => vecOffs 1 v
  | .ldx => vecOffs 16 v
  | .ldg | .ldgx => laneOffs v

/-- The register value of a load's elements (R235 to R238, R242). -/
def LoadOp.value (o : LoadOp) (fmt bits : Nat) (vs : List Nat) : Nat := match o with
  | .ld => ofLanes bits vs
  | .ldb => splat bits (512 / bits) (vs.getD 0 0)
  | .ldx | .ldgx => ofLanes 32 (vs.map (widenLane fmt))
  | .ldg => ofLanes 32 vs

/-- What a load finds: its value (an OUTSIDE element gives 0 in its lane), the first address with an uncorrectable error, its pieces,
and what the cell has yet to see after it. -/
structure Loaded where
  value : Nat
  err : Option Nat
  pieces : List Piece
  views : List View

/-- A load's checks and its read (R236): checks 6 and 7 of R200, then the data, one event for each element (R207), under the firing's
earlier stores (R103, R217). -/
def loadCore (s : State) (m : Mem) (o : LoadOp) (rc : Rec) (off : Nat) : R Loaded := do
  if o.refuses rc.fmt then illop
  else do
    let l ← elemsAt rc (o.offs rc.bits off)
    let ps ← allPieces s m.st m.src .read rc.bits (fun _ => 0) l
    let q := loadEvents s m.c ps
    let vs := valuesOf (storePieces m.f) l.length q.2
    -- an OUTSIDE element gives 0 also where widening would not
    let inside := (l.zip vs).map fun e => if e.1.isNone then none else some e.2
    let v := match o with
      | .ldx | .ldgx => ofLanes 32 (inside.map fun e => match e with | some v => widenLane rc.fmt v | none => 0)
      | o => o.value rc.fmt rc.bits vs
    .ok ⟨v, anyPoison s ps, ps, q.1⟩

/-- What the cell has yet to see after a load. -/
def hasRead (s : State) (m : Mem) (v : Loaded) : State := if getViews s m.c = v.views then s else setViews s m.c v.views

/-- The check a load sends (R227), with the stream's own entry refilled. -/
def sendLoad (s : State) (m : Mem) (v : Loaded) (scope : Nat) : State :=
  let q := fresh (refill (hasRead s m v) m.st m.src v.pieces)
  if v.pieces = [] then q.2 else sendCheck q.2 ⟨q.1, m.src, .load, rangesOf v.pieces false, scope, 0, 0⟩

/-- A load instruction (R236, R237, R238, R242). -/
def loadInstr (o : LoadOp) (d a : Spec) (r : BitVec 3) (od : BitVec 2) (p : BitVec 1) (sc : BitVec 3) (c : Nat) (f : Firing) (s : State) :
    R State := do
  let x := getCell s c
  let rc ← useRecord x f.ctx r.toNat false
  if !ordinOk x f.ctx od.toNat then illop
  else do
    doneRouteOk s c f p
    let off ← readSpec s c f a
    let m := memOf s c f
    let v ← loadCore s m o rc off
    let f ← (match heldIdx d with
      | some k => do
        writeWait s c f k
        addEntry f (.fill k (if v.err.isSome then 0 else BitVec.ofNat 512 v.value) v.err.isSome)
      | none => match v.err with
        | some e => trapR cECCUNC 0 e
        | none => writeSpec s c f d v.value)
    let q := fresh s
    let f ← if p = 1 then doneEntry s c f 0 sc.toNat (some q.1) false else .ok f
    sentWatched (putFiring (sendLoad q.2 m v sc.toNat) c f) c f false v.pieces

/-- LD (R236). Loads L raw elements through a buffer record. -/
def execLd (d a : Spec) (r : BitVec 3) (o : BitVec 2) (p : BitVec 1) (sc : BitVec 3) (s : State) : Out State :=
  onCells (.ld d a r o p sc) s <| withRegs (.ld d a r o p sc) (loadInstr .ld d a r o p sc)

/-- LDB (R237). Loads one element and broadcasts it to every lane. -/
def execLdb (d a : Spec) (r : BitVec 3) (o : BitVec 2) (p : BitVec 1) (sc : BitVec 3) (s : State) : Out State :=
  onCells (.ldb d a r o p sc) s <| withRegs (.ldb d a r o p sc) (loadInstr .ldb d a r o p sc)

/-- LDX (R238). Loads 16 elements widened into 32-bit lanes. -/
def execLdx (d a : Spec) (r : BitVec 3) (o : BitVec 2) (p : BitVec 1) (sc : BitVec 3) (s : State) : Out State :=
  onCells (.ldx d a r o p sc) s <| withRegs (.ldx d a r o p sc) (loadInstr .ldx d a r o p sc)

/-- LDG (R242). Gathers 16 elements by per-lane offsets. -/
def execLdg (d a : Spec) (r : BitVec 3) (o : BitVec 2) (p : BitVec 1) (sc : BitVec 3) (s : State) : Out State :=
  onCells (.ldg d a r o p sc) s <| withRegs (.ldg d a r o p sc) (loadInstr .ldg d a r o p sc)

/-- LDGX (R242). Gathers 16 elements widened into 32-bit lanes. -/
def execLdgx (d a : Spec) (r : BitVec 3) (o : BitVec 2) (p : BitVec 1) (sc : BitVec 3) (s : State) : Out State :=
  onCells (.ldgx d a r o p sc) s <| withRegs (.ldgx d a r o p sc) (loadInstr .ldgx d a r o p sc)

/-! ### Stores -/

/-- The stores: ST, STX, STNF, STG. -/
inductive StoreOp where
  | st
  | stx
  | stnf
  | stg
  deriving DecidableEq, Repr

/-- Formats a store refuses (R240, R242, R301): STX and STNF take only pairs that R301 lists. -/
def StoreOp.refuses (o : StoreOp) (fmt : Nat) : Bool := match o with
  | .st => false
  | .stx => noLaneFmt fmt || fmt == 8 || fmt == 4
  | .stnf => noLaneFmt fmt || fmt == 8 || !isFloatFmt fmt
  | .stg => noLaneFmt fmt

def StoreOp.offs (o : StoreOp) (bits v : Nat) : List Nat := match o with
  | .st => vecOffs (vecLen bits) v
  | .stx | .stnf => vecOffs 16 v
  | .stg => laneOffs v

/-- A code of a floating-point format is non-finite. -/
def fmtNonFinite (fmt v : Nat) : Bool := match numFmt fmt with
  | some n => n.nonFinite v
  | none => false

/-- An F32 or I32 lane converted into a record's format (R240, R241): the code, the non-finite element that was
replaced (0 or 1), and the conversion's report.  `va` is the element's byte address. -/
def convLane (rc : Rec) (itag va v : Nat) (nonfin : Bool) : Nat × Nat × Rep :=
  match numFmt rc.fmt with
  | some n =>
    let mode := modeOfRecord rc.round rc.seed va itag
    if isFloatFmt rc.fmt then
      if nonfin && !(fF32.decode v).finite then
        let r := convert n mode (fF32.decode 0)
        (r.code, 1, r.rep)
      else
        let r := convert n mode (fF32.decode v)
        (r.code, 0, r.rep)
    else
      let r := convert n mode (({ w := 32, signed := true } : IFmt).decode v)
      (r.code, 0, r.rep)
  | none => (v, 0, {})

/-- The value of element `k` of a store: code, replaced non-finite elements, report (R239 to R242). -/
def StoreOp.elem (o : StoreOp) (rc : Rec) (itag : Nat) (v k va : Nat) : Nat × Nat × Rep :=
  match o with
  | .stx | .stnf => convLane rc itag va (lane 32 v k) (o == .stnf || rc.nf0)
  | o =>
    let x := if o = .stg then lane 32 v k % 2 ^ rc.bits else lane rc.bits v k
    if rc.nf0 && isFloatFmt rc.fmt && fmtNonFinite rc.fmt x then (0, 1, {}) else (x, 0, {})

/-- What a store captures: the access, and the report of its conversions for the firing. -/
structure Stored where
  acc : Acc
  rep : Rep

/-- A store's checks and capture (R231, R239, R247, R248); what a contribution's conversions report is counted in its group alone
(R241, R298). -/
def storeCore (s : State) (m : Mem) (o : StoreOp) (rc : Rec) (raw : BitVec 256) (v off scope id : Nat) : R Stored := do
  if o.refuses rc.fmt then illop
  else if rc.seq ≠ 0 ∧ m.f.itag = 0xFFFFFF then boundsR m.f.itag
  else do
    let l ← elemsAt rc (o.offs rc.bits off)
    let el := fun k => o.elem rc m.f.itag v k (((l.getD k none).getD 0) / 8)
    let ps ← allPieces s m.st m.src .write rc.bits (fun k => (el k).1) l
    if rc.const then trapR cPERM dCONST ((ps.head?.map (·.va)).getD rc.base)
    else do
      let ks := (List.range l.length).filter fun k => (l.getD k none).isSome
      let rep := ks.foldl (fun r k => Rep.join r (el k).2.2) ({} : Rep)
      let cnt := ks.map fun k => if rc.seq ≠ 0 then (k, (el k).2.1 + (el k).2.2.nf, (el k).2.2.sat) else (k, (el k).2.1, 0)
      .ok { acc := { id := id, src := m.src, pieces := ps, scope := scope, group := rc.seq, op := 0, rcd := raw, cnt := cnt.filter fun q => q.2 ≠ (0, 0) }
            rep := if rc.seq ≠ 0 then {} else rep }

/-- The check a store or atomic sends (R227). -/
def sendWrite (s : State) (m : Mem) (a : Acc) : State :=
  let s := refill s m.st m.src a.pieces
  if a.pieces = [] then s
  else sendCheck s ⟨a.id, m.src, if a.op = 0 then .store else .atomic, rangesOf a.pieces true, a.scope, a.group, 0⟩

/-- A store instruction (R239 to R242). -/
def storeInstr (o : StoreOp) (d a : Spec) (r : BitVec 3) (od : BitVec 2) (p : BitVec 1) (sc : BitVec 3) (c : Nat) (f : Firing) (s : State) :
    R State := do
  let x := getCell s c
  let rc ← useRecord x f.ctx r.toNat true
  if !ordinOk x f.ctx od.toNat then illop
  else do
    doneRouteOk s c f p
    let v ← readSpec s c f d
    let off ← readSpec s c f a
    let m := memOf s c f
    let q := fresh s
    let z ← storeCore s m o rc (x.record f.ctx r.toNat) v off sc.toNat q.1
    let f ← addEntry f (.access z.acc)
    let f ← if p = 1 then doneEntry s c f 0 sc.toNat (some q.1) false else .ok f
    sentWatched (putFiring (sendWrite q.2 m z.acc) c (f.report z.rep)) c f true z.acc.pieces

/-- ST (R239). Stores L raw elements through a buffer record at commit. -/
def execSt (d a : Spec) (r : BitVec 3) (o : BitVec 2) (p : BitVec 1) (sc : BitVec 3) (s : State) : Out State :=
  onCells (.st d a r o p sc) s <| withRegs (.st d a r o p sc) (storeInstr .st d a r o p sc)

/-- STX (R240). Converts 16 lanes into the record format and stores them. -/
def execStx (d a : Spec) (r : BitVec 3) (o : BitVec 2) (p : BitVec 1) (sc : BitVec 3) (s : State) : Out State :=
  onCells (.stx d a r o p sc) s <| withRegs (.stx d a r o p sc) (storeInstr .stx d a r o p sc)

/-- STNF (R240). STX with non-finite lanes replaced by +0 and counted. -/
def execStnf (d a : Spec) (r : BitVec 3) (o : BitVec 2) (p : BitVec 1) (sc : BitVec 3) (s : State) : Out State :=
  onCells (.stnf d a r o p sc) s <| withRegs (.stnf d a r o p sc) (storeInstr .stnf d a r o p sc)

/-- STG (R242). Scatters 16 elements by per-lane offsets. -/
def execStg (d a : Spec) (r : BitVec 3) (o : BitVec 2) (p : BitVec 1) (sc : BitVec 3) (s : State) : Out State :=
  onCells (.stg d a r o p sc) s <| withRegs (.stg d a r o p sc) (storeInstr .stg d a r o p sc)

/-! ### Atomics (R243 to R247) -/

/-- An atomic's checks and capture: operand lanes from `v`, and from `w` for ACAS. -/
def atomicCore (s : State) (m : Mem) (op : Nat) (rc : Rec) (raw : BitVec 256) (v w off scope id : Nat) : R Acc := do
  if !atomFmt op rc.fmt then illop
  else if rc.seq ≠ 0 ∧ (op = 4 ∨ op = 5) then illop
  else if rc.seq ≠ 0 ∧ m.f.itag = 0xFFFFFF then boundsR m.f.itag
  else do
    let lw := if rc.bits = 64 then 64 else 32
    let l ← elemsAt rc (vecOffs (512 / lw) off)
    let ps ← allPieces s m.st m.src .atomic rc.bits (fun _ => 0) l
    if rc.const then trapR cPERM dCONST ((ps.head?.map (·.va)).getD rc.base)
    else
      .ok { id := id, src := m.src, scope := scope, group := rc.seq, op := op, rcd := raw
            pieces := ps.map fun p => { p with val := lane lw v p.k, val2 := lane lw w p.k } }

/-- An atomic instruction. -/
def atomicInstr (op : Nat) (d a : Spec) (r : BitVec 3) (od : BitVec 2) (p : BitVec 1) (sc : BitVec 3) (c : Nat) (f : Firing) (s : State) :
    R State := do
  let x := getCell s c
  let rc ← useRecord x f.ctx r.toNat true
  if !ordinOk x f.ctx od.toNat then illop
  else do
    doneRouteOk s c f p
    let vs ← readSpecs s c f d (if op = 5 then 2 else 1)
    let off ← readSpec s c f a
    let m := memOf s c f
    let q := fresh s
    let z ← atomicCore s m op rc (x.record f.ctx r.toNat) (vs.getD 0 0) (vs.getD 1 0) off sc.toNat q.1
    let f ← addEntry f (.access z)
    let f ← if p = 1 then doneEntry s c f 2 sc.toNat (some q.1) false else .ok f
    sentWatched (putFiring (sendWrite q.2 m z) c f) c f true z.pieces

/-- AADD (R243). Atomic add on elements at their owner. -/
def execAadd (d a : Spec) (r : BitVec 3) (o : BitVec 2) (p : BitVec 1) (sc : BitVec 3) (s : State) : Out State :=
  onCells (.aadd d a r o p sc) s <| withRegs (.aadd d a r o p sc) (atomicInstr 1 d a r o p sc)

/-- AMIN (R243). Atomic minimum on elements. -/
def execAmin (d a : Spec) (r : BitVec 3) (o : BitVec 2) (p : BitVec 1) (sc : BitVec 3) (s : State) : Out State :=
  onCells (.amin d a r o p sc) s <| withRegs (.amin d a r o p sc) (atomicInstr 2 d a r o p sc)

/-- AMAX (R243). Atomic maximum on elements. -/
def execAmax (d a : Spec) (r : BitVec 3) (o : BitVec 2) (p : BitVec 1) (sc : BitVec 3) (s : State) : Out State :=
  onCells (.amax d a r o p sc) s <| withRegs (.amax d a r o p sc) (atomicInstr 3 d a r o p sc)

/-- AXCH (R243). Atomic exchange on elements. -/
def execAxch (d a : Spec) (r : BitVec 3) (o : BitVec 2) (p : BitVec 1) (sc : BitVec 3) (s : State) : Out State :=
  onCells (.axch d a r o p sc) s <| withRegs (.axch d a r o p sc) (atomicInstr 4 d a r o p sc)

/-- ACAS (R243). Atomic compare-and-swap using a register pair. -/
def execAcas (d a : Spec) (r : BitVec 3) (o : BitVec 2) (p : BitVec 1) (sc : BitVec 3) (s : State) : Out State :=
  onCells (.acas d a r o p sc) s <| withRegs (.acas d a r o p sc) (atomicInstr 5 d a r o p sc)

/-- AOR (R243). Atomic OR on elements. -/
def execAor (d a : Spec) (r : BitVec 3) (o : BitVec 2) (p : BitVec 1) (sc : BitVec 3) (s : State) : Out State :=
  onCells (.aor d a r o p sc) s <| withRegs (.aor d a r o p sc) (atomicInstr 6 d a r o p sc)

/-- AAND (R243). Atomic AND on elements. -/
def execAand (d a : Spec) (r : BitVec 3) (o : BitVec 2) (p : BitVec 1) (sc : BitVec 3) (s : State) : Out State :=
  onCells (.aand d a r o p sc) s <| withRegs (.aand d a r o p sc) (atomicInstr 7 d a r o p sc)

/-! ### SEQCL, ORD, ORDW -/

/-- The check of a barrier address (R264): physical address of the object. -/
def barAddr (s : State) (st : Stream) (src : Src) (k : Acs) (va : Nat) : R Nat :=
  if 2 ^ 56 ≤ va then trapR cTRANSL 0 va
  else if va % 16 ≠ 0 then trapR cALIGN 0 va
  else (translate s st src k va 16).map (·.1)

/-- SEQCL's checks and capture (R250): the close, with the region's ranges as pieces, and the barrier. -/
def seqclCore (s : State) (m : Mem) (rc : Rec) (raw : BitVec 256) (bar : Option Nat) (scope id : Nat) : R (Acc × Option (Nat × Nat)) := do
  if rc.seq = 0 then illop
  else do
    let rs ← liftTrap (recFoot s m.src .read rc)
    let b ← (match bar with
      | some va => (barAddr s m.st m.src .barWrite va).map fun pa => some (pa, va)
      | none => .ok none)
    .ok ({ id := id, src := m.src, scope := scope, group := rc.seq, op := 8, rcd := raw
           pieces := rs.map fun r => { bit := r.lo, len := r.len, va := r.va, val := 0 } }, b)

/-- The check a close sends (R227, R272): it meets what is in flight or outstanding in its region, and is itself no access. -/
def sendClose (s : State) (a : Acc) : State :=
  if a.pieces = [] then s else sendCheck s ⟨a.id, a.src, .close, rangesOf a.pieces true, a.scope, a.group, 0⟩

/-- SEQCL (R250). Sends close of the firing's sequence to every owner of the record's region. -/
def execSeqcl (a : Spec) (r : BitVec 3) (o : BitVec 2) (p : BitVec 1) (sc : BitVec 3) (s : State) : Out State :=
  onCells (.seqcl a r o p sc) s <| withRegs (.seqcl a r o p sc) fun c f s => do
    let x := getCell s c
    let rc ← useRecord x f.ctx r.toNat false
    if !ordinOk x f.ctx o.toNat then illop
    else do
      doneRouteOk s c f p
      let bar ← (if a.toNat = 0 then (.ok none : R (Option Nat)) else (readSpec s c f a).map fun v => some (v % 2 ^ 64))
      let q := fresh s
      let z ← seqclCore s (memOf s c f) rc (x.record f.ctx r.toNat) bar sc.toNat q.1
      let f ← addEntry f (.close z.1 z.2)
      let f ← if p = 1 then doneEntry s c f 1 sc.toNat (some q.1) false else .ok f
      .ok (putFiring (sendClose q.2 z.1) c f)

/-- ORD (R251). Sends a done token once the firing's earlier memory events are performed. -/
def execOrd (o : BitVec 2) (p : BitVec 1) (sc : BitVec 3) (s : State) : Out State :=
  onCells (.ord o p sc) s fun c f s =>
    if p = 0 then illop
    else if !ordinOk (getCell s c) f.ctx o.toNat then illop
    else do
      let f ← doneEntry s c f 0 sc.toNat none false
      .ok (putFiring s c f)

/-- ORDW (R251). As ORD, also waiting for the firing's committed engine jobs. -/
def execOrdw (o : BitVec 2) (p : BitVec 1) (sc : BitVec 3) (s : State) : Out State :=
  onCells (.ordw o p sc) s fun c f s =>
    if p = 0 then illop
    else if !ordinOk (getCell s c) f.ctx o.toNat then illop
    else do
      let f ← doneEntry s c f 0 sc.toNat none true
      .ok (putFiring s c f)

/-! ### Memory nodes (R252) -/

/-- An entry of a memory node on O0: only where the route is enabled (R92). -/
def nodeEntry (s : State) (c : Nat) (f : Firing) (cls : Nat) (payload : Nat) (acc : Option Nat) (isDone : Bool) (scope : Nat := 4) : Firing :=
  let r := (getCell s c).route f.ctx 0
  if !r.en then f
  else
    let t := { routeToken c f 0 r with width := cls, count := classCount cls, payload := BitVec.ofNat 512 payload, scope := scope }
    let dest := routeDest (getCfg s f.cfg) r
    { f with out := f.out ++ [if isDone then .done dest t acc false else .emit 0 dest t] }

/-- The memory operation of a node's firing: the firing with its entries, ended, and the state with its check sent. -/
def nodeOp (s : State) (c : Nat) (f : Firing) : R State := do
  let x := getCell s c
  let k7 := x.field f.ctx 7
  let g := bits k7 0 2
  let fn := bits k7 2 5
  let r := bits k7 7 3
  let sc := bits k7 13 3
  let want := bit k7 12
  let i0 := (f.ivals.getD 0 0).toNat
  let i1 := (f.ivals.getD 1 0).toNat
  let m := memNode s c f
  let raw := x.record f.ctx r
  let load := fun (o : LoadOp) => do
    let rc ← useRecord x f.ctx r false
    let v ← loadCore s m o rc i0
    match v.err with
    | some e => trapR cECCUNC 0 e
    | none =>
      let t := putFiring (sendLoad s m v sc) c (nodeEntry s c f 2 v.value none false)
      .ok ((watched t c f false v.pieces).getD t)
  let store := fun (o : StoreOp) => do
    let rc ← useRecord x f.ctx r true
    let q := fresh s
    let z ← storeCore s m o rc raw i1 i0 sc q.1
    let f := ({ f with out := [.access z.acc] } : Firing).report z.rep
    let t := putFiring (sendWrite q.2 m z.acc) c (if want then nodeEntry s c f 0 0 (some q.1) true sc else f)
    .ok ((watched t c f true z.acc.pieces).getD t)
  let atomic := fun (op : Nat) => do
    let rc ← useRecord x f.ctx r true
    let q := fresh s
    let z ← atomicCore s m op rc raw i1 0 i0 sc q.1
    let f : Firing := { f with out := [.access z] }
    let t := putFiring (sendWrite q.2 m z) c (if want then nodeEntry s c f 2 0 (some q.1) true sc else f)
    .ok ((watched t c f true z.pieces).getD t)
  match g, fn with
  | 0, 0 => load .ld
  | 0, 1 => store .st
  | 0, 2 => load .ldb
  | 0, 3 => load .ldx
  | 0, 4 => store .stx
  | 0, 5 => store .stnf
  | 0, _ => do
    let rc ← useRecord x f.ctx r false
    let q := fresh s
    let z ← seqclCore s m rc raw none sc q.1
    let f : Firing := { f with out := [.close z.1 none] }
    .ok (putFiring (sendClose q.2 z.1) c (if want then nodeEntry s c f 1 0 (some q.1) true sc else f))
  | 1, 0 => load .ldg
  | 1, 1 => store .stg
  | 1, _ => load .ldgx
  | _, n => atomic (if n = 0 then 1 else if n = 1 then 2 else if n = 2 then 3 else if n = 3 then 4 else if n = 5 then 6 else 7)

/-- MEMORY_NODE_FIRING (R252). A memory node performs one memory operation per firing. -/
def execMemoryNodeFiring (cell ctx frame itag : Nat) (s : State) : Out State :=
  if mayFire s cell ctx frame itag 5 then
    let q := takeInputs s cell ctx frame itag
    if anyFalse q.1 then .next (noteReady q.2.2 cell)
    else
      let n := newFiring q.2.2 cell ctx frame itag q.1 q.2.1
      let f := { n.1 with phase := .ending }
      match nodeOp n.2 cell f with
      | .ok t => .next (noteReady t cell)
      | .error (.trap t) => .next (takeFiringTrap (putFiring n.2 cell f) cell f t (firingSrc n.2 cell f))
      | .error .stall => .next s
      | .error (.redo t) => .next { s with work := t.work, tlbs := t.tlbs }
  else notPending "the firing is not ready"

end Sys2Proof.Machine
end

