-- ==== Sys2Proof/Machine/Commit.lean ====
section
/-! DEFINITION. Commit: barriers and copy tags as their owners change them (R203, R257, R261, R265), the entry of commands
into the engines, and the commit of a firing's output buffer (R102, R116, R233, R241, R250, R314). -/

namespace Sys2Proof.Machine

/-! ### Barrier objects (R203, R265, R266) -/

/-- Phase, arrived and target of a barrier's W0. -/
def barPhase (w : Nat) : Nat := bits w 32 8
def barArrived (w : Nat) : Nat := bits w 16 16
def barTarget (w : Nat) : Nat := bits w 0 16
def barPending (w : Nat) : Nat := bits w 0 36

/-- W0 of a barrier. -/
def barWord (phase arrived target : Nat) : Nat := phase % 256 * 2 ^ 32 + arrived % 65536 * 65536 + target % 65536

/-- The completion rule (R265): every full set of arrivals completes a phase while nothing is pending; with target 0
none completes. -/
def barSettle (w0 w1 : Nat) : Nat :=
  let t := barTarget w0
  if t = 0 ∨ barPending w1 ≠ 0 then w0
  else barWord (barPhase w0 + barArrived w0 / t) (barArrived w0 % t) t

/-- W0 and W1 after an operation: 0 BARINIT, 1 arrivals, 2 pending added, 3 pending subtracted. -/
def barNext (op n w0 w1 : Nat) : Nat × Nat :=
  match op with
  | 0 => (barWord 0 0 n, 0)
  | 1 => let a := barWord (barPhase w0) (barArrived w0 + n) (barTarget w0); (barSettle a w1, w1)
  | 2 => let p := (barPending w1 + n) % 2 ^ 36; (barSettle w0 p, p)
  | _ => let p := (barPending w1 + 2 ^ 36 - n % 2 ^ 36) % 2 ^ 36; (barSettle w0 p, p)

/-- Phases that an operation completes. -/
def barRounds (op n w0 w1 : Nat) : Nat :=
  let t := barTarget w0
  if op = 0 ∨ t = 0 ∨ barPending (barNext op n w0 w1).2 ≠ 0 then 0 else (barArrived w0 + if op = 1 then n else 0) / t

/-- The waiters of a barrier that its phase, or a BARINIT, releases (R265, R266): those that expect another phase, with the phase
they return. -/
def releaseWaits (s : State) (pa phase : Nat) : State :=
  if s.barWaits = [] then s
  else { s with barWaits := s.barWaits.map fun w => if w.pa = pa ∧ w.got.isNone ∧ w.expected ≠ phase then { w with got := some phase } else w }

/-- What precedes the arrivals of a barrier's phase precedes who sees that phase complete (R218): the firings with jobs outstanding.
`past` are those of one more arrival; with the completion of a phase, of `rounds`, those of its arrivals count. -/
def notePast (s : State) (pa rounds : Nat) (past : List Nat) : State :=
  let now := joinPast s (tget [] s.barNow pa) past
  if rounds = 0 then (if now = tget [] s.barNow pa then s else { s with barNow := tset [] s.barNow pa now })
  else if now = [] then (if tget [] s.barNow pa = [] then s else { s with barNow := tset [] s.barNow pa [] })
  else { s with barNow := tset [] s.barNow pa [], barPast := tset [] s.barPast pa (joinPast s (tget [] s.barPast pa) now) }

/-- A barrier is new (R266): nothing precedes its phases. -/
def newPast (s : State) (pa : Nat) : State :=
  if tget [] s.barNow pa = [] ∧ tget [] s.barPast pa = [] then s
  else { s with barNow := tset [] s.barNow pa [], barPast := tset [] s.barPast pa [] }

/-- The firings that precede the phase of an arrival: the issuer's, and those that precede it (R218). -/
def Src.before (x : Src) : List Nat := if x.kind = 3 then [] else x.uid :: x.past

/-- A barrier operation at the object's owner (R265), with the phases it completes one by one; `insn` is the word of the
instruction that asks for it, and `past` what precedes an arrival (R218).  What an uncorrectable granule drops is returned (R441). -/
def barWrite (s : State) (op pa n insn : Nat) (past : List Nat := []) : State × List (Nat × Nat × Nat) :=
  let w0 := readWord s pa
  let q := barNext op n w0 (readWord s (pa + 8))
  let r := writePieces s [(pa * 8, 64, q.1), ((pa + 8) * 8, 64, q.2)] insn
  if r.2 ≠ [] then r
  else if op = 0 then (newPast (releaseWaits r.1 pa 0) pa, [])
  else
    let k := barRounds op n w0 (readWord s (pa + 8))
    ((List.range (min 2 k)).foldl (fun t i => releaseWaits t pa ((barPhase w0 + i + 1) % 256)) (notePast r.1 pa k past), [])

/-- The arrivals have room in the object (R265). -/
def barRoom (s : State) (op pa n : Nat) : Bool := op != 1 || barArrived (readWord s pa) + n ≤ 65535

/-- Bytes added to, or subtracted from, a barrier that a job or a close may name; an update that is dropped stops the issuing frame
(R441). -/
def barBytes (s : State) (x : Src) (bar : Option (Nat × Nat)) (op n : Nat) (tag : Option Nat := none) : State := match bar with
  | some (pa, va) =>
    let r := barWrite s op pa n x.insn.toNat
    if r.2 = [] then r.1 else jobTrap r.1 (cause cECCUNC 0 va) x tag
  | none => s

/-! ### Copy tags (R261) -/

/-- The tags an issuer's tag numbers name: its controller's or its frame's. -/
def tagsOf (s : State) (x : Src) : Table Tag := if x.kind = 3 then (getCtl s x.who).tags else (getFrame s x.cfg x.frame).tags
def getTag (s : State) (x : Src) (k : Nat) : Tag := tget {} (tagsOf s x) k

def modTag (s : State) (x : Src) (k : Nat) (f : Tag → Tag) : State :=
  if x.kind = 3 then modCtl s x.who fun u => { u with tags := tmod {} u.tags k f }
  else modFrame s x.cfg x.frame fun r => { r with tags := tmod {} r.tags k f }

/-- A job is counted on its tag, and settled there (R257). -/
def tagStart (s : State) (x : Src) (k : Nat) : State := modTag s x k fun t => { count := t.count + 1, issued := true }
def tagEnd (s : State) (x : Src) (k : Nat) : State := modTag s x k fun t => { t with count := t.count - 1 }

/-- The completion bit (R261). -/
def Tag.complete (t : Tag) : Bool := t.count == 0 && t.issued

/-- Tags of a 64-bit mask. -/
def maskTags (m : Nat) : List Nat := (List.range 64).filter fun k => bit m k

/-- TCLR (R262). -/
def clearTags (s : State) (x : Src) (m : Nat) : State := (maskTags m).foldl (fun s k => modTag s x k fun t => { t with issued := false }) s

/-! ### Copy jobs entering and leaving (R257, R259, R260) -/

/-- Bytes of the destination a job counts on its barrier (R257). -/
def CopyJob.bytes (j : CopyJob) : Nat := (j.count * (recOf j.drec).bits + 7) / 8

/-- The start of a job (R257): its tag and its barrier. -/
def jobStart (s : State) (j : CopyJob) : State := barBytes (tagStart s j.src j.tag) j.src j.bar 2 j.bytes (some j.tag)

/-- The settlement of a started job (R257): barrier, then tag. -/
def jobSettle (s : State) (j : CopyJob) : State :=
  if j.started then tagEnd (barBytes s j.src j.bar 3 j.bytes (some j.tag)) j.src j.tag else s

/-- Jobs that wait in the queue of a grove's dispatcher (R259). -/
def queuedJobs (s : State) (g : Nat) : Nat := (s.work.filter fun w => match w with | .copy j => j.grove == g && j.st == .queued | _ => false).length

/-- The job starts and waits for a port (R257, R259). -/
def enterJob (s : State) (j : CopyJob) : State :=
  let q := fresh (jobStart s j)
  addWork q.2 (.copy { j with id := q.1, started := true, st := .queued })

/-- The issuer's jobs are those of its frame or of its controller (R260). -/
def sameIssuer (a b : Src) : Bool :=
  if a.kind = 3 then b.kind = 3 && a.who == b.who else b.kind ≠ 3 && a.cfg == b.cfg && a.frame == b.frame

/-- SCANCEL (R260): a running job stops after its current burst; any other never starts and is settled. -/
def cancelJobs (s : State) (x : Src) (m : Nat) : State :=
  let hit := fun (w : Work) => match w with | .copy j => sameIssuer x j.src && bit m j.tag | _ => false
  let gone := s.work.filterMap fun w => match w with
    | .copy j => if hit w then (match j.st with | .running _ => none | _ => some j) else none
    | _ => none
  let keep := s.work.filterMap fun w => match w with
    | .copy j => if hit w then (match j.st with | .running _ => some (.copy { j with cancelled := true }) | _ => none) else some w
    | w => some w
  gone.foldl jobSettle { s with work := keep }

/-! ### Commands entering the engines -/

/-- Commands an array's queue holds (R342). -/
def mtxQueueSize : Nat := 32

/-- Handle counters (R241, R248): the non-finite counter of a placement handle. -/
def countHandle (s : State) (h n : Nat) : State :=
  if n = 0 then s
  else { s with placement := tmod {} s.placement h fun p =>
      { p with desc := p.desc - BitVec.ofNat 512 (bits p.desc.toNat 64 32 * 2 ^ 64) + BitVec.ofNat 512 (satAdd (bits p.desc.toNat 64 32) n * 2 ^ 64) } }

/-- Non-finite elements of an unsequenced write are counted (R241). -/
def countNonFinite (s : State) (x : Src) (place n : Nat) : State :=
  if place ≠ 0 then countHandle s place n else modFrame s x.cfg x.frame fun f => { f with nf := satAdd f.nf n }

/-- PDEF at commit (R285): ordf and conv are 0. -/
def definePlacement (s : State) (h : Nat) (desc : BitVec 512) (asn : Nat) (sizes : List Nat) (self : Nat) : State :=
  { s with placement := tset {} s.placement h { defd := true, asn := asn, desc := desc, sizes := sizes, self := self } }

/-- CDEF at commit (R281). -/
def defineSlot (s : State) (k : Nat) (block : BitVec 1024) (asn : Nat) : State :=
  { s with slots := tset {} s.slots k { defd := true, asn := asn, block := block, inst := 0xFFFF, finished := true, done := false, nf := 0 } }

/-- CSTART at commit (R281): the next instance starts. -/
def startSlot (s : State) (x : Src) (k : Nat) (foot : List Range) : State :=
  let sl := tget {} s.slots k
  let inst := (sl.inst + 1) % 65536
  let q := fresh { s with slots := tset {} s.slots k { sl with inst := inst, finished := false, done := false, nf := 0 } }
  addWork q.2 (.coll { id := q.1, src := { x with asn := sl.asn }, handle := k, version := inst, asn := sl.asn, foot := foot })

/-- The bytes a relation command adds to its barrier when it starts (R380). -/
def relPending : RelOp → Bool
  | .rins .. | .rjoin .. | .rgrad .. => true
  | _ => false

/-- A relation command enters the unit of its grove (R380, R391). -/
def enterRel (s : State) (j : RelJob) : State :=
  let q := fresh (if relPending j.op then barBytes s j.src j.bar 2 32 else s)
  addWork q.2 (.rel { j with id := q.1 })

/-- A sorting command enters the unit of its grove, counted on its tag as a copy is (R400). -/
def enterSort (s : State) (j : SortJob) : State :=
  let q := fresh (match j.tag with | some t => tagStart s j.src t | none => s)
  addWork q.2 (.sort { j with id := q.1 })

/-- A demand leaves for the placement unit; the tag of a PCONV is counted (R274, R287). -/
def enterDemand (s : State) (d : Demand) : State :=
  let q := fresh (match d.tag with | some t => tagStart s d.src t | none => s)
  addWork q.2 (.demand { d with id := q.1 })

/-- A matrix command enters the queue of the grove's array (R345). -/
def enterMtx (s : State) (m : MtxCmd) : State :=
  let q := fresh s
  modGrove q.2 (groveOf m.src.who) fun g => { g with queue := g.queue ++ [{ m with id := q.1 }] }

/-- A command enters its engine. -/
def enterCmd (s : State) (x : Src) : Cmd → State
  | .copy j => enterJob s j
  | .scancel m => cancelJobs s x m
  | .tclr m => clearTags s x m
  | .bar op pa n va => addWork s (.bar x op pa n va)
  | .mtx c => enterMtx s c
  | .rel j => enterRel s j
  | .sort j => enterSort s j
  | .pdef h desc asn sizes self => definePlacement s h desc asn sizes self
  | .demand d => enterDemand s d
  | .cdef k b asn => defineSlot s k b asn
  | .cstart k foot => startSlot s x k foot

/-! ### The commit of an output buffer -/

/-- The next address from `pa` on at which a location may have another owner: the end of its memory tile, or of its HBM stack. -/
def ownerEnd (pa : Nat) : Nat := match placeOf pa with
  | .sram => (tileOf pa + 1) * 0x18000
  | .hbm => hbmBase + ((pa - hbmBase) / 0x1000000000 + 1) * 0x1000000000
  | _ => pa / 0x10000 * 0x10000 + 0x10000

/-- A piece cut where its owner changes; `n` bounds the number of its parts. -/
def ownerParts : Nat → Piece → List Piece
  | 0, p => [p]
  | n + 1, p =>
    let cut := ownerEnd (p.bit / 8) * 8 - p.bit
    if p.len ≤ cut then [p]
    else { p with len := cut, val := p.val % 2 ^ cut } ::
      ownerParts n { p with bit := p.bit + cut, len := p.len - cut, va := p.va + cut / 8, val := p.val >>> cut, val2 := p.val2 + cut }

/-- Pieces by the owners of their bytes (R197, R250). -/
def byOwner (ps : List Piece) : List Piece := ps.flatMap fun p => ownerParts (p.len / 524288 + 2) p

/-- Owners of pieces, each once. -/
def ownersOf (ps : List Piece) : List Nat := ((byOwner ps).map fun p => ownerOf (p.bit / 8)).eraseDups

/-- Bytes of pieces. -/
def pieceBytes (ps : List Piece) : Nat := ((ps.map fun p => p.len).sum + 7) / 8

/-- The accesses that an access entry sends on: a store, an atomic, or one contribution for each piece (R239, R244, R248). -/
def commitAccess (s : State) (a : Acc) : State :=
  if a.group = 0 then
    let n := (a.cnt.map fun q => q.2.1).sum
    let s := if n = 0 then s else countNonFinite s a.src (recOf a.rcd).place n
    if a.pieces = [] then s else addWork s (if a.op = 0 then .store a else .atomic a)
  else
    let cs := (if a.op = 0 then byOwner a.pieces else a.pieces).map fun p => Work.contrib { a with pieces := [p], cnt := a.cnt.filter fun q => p.val2 = 0 ∧ q.1 = p.k } (ownerOf (p.bit / 8))
    { s with work := s.work ++ cs }

/-- A close leaves for every owner of the region, and the region's bytes become pending (R250). -/
def commitClose (s : State) (a : Acc) (bar : Option (Nat × Nat)) : State :=
  let s := barBytes s a.src bar 2 (pieceBytes a.pieces)
  let cs := (ownersOf a.pieces).map fun o => Work.close a o a.src.itag bar (pieceBytes ((byOwner a.pieces).filter fun p => ownerOf (p.bit / 8) == o))
  { s with work := s.work ++ cs }

/-- The close with an identity among a firing's entries. -/
def findClose (out : List Entry) (id : Nat) : Option Acc :=
  out.findSome? fun e => match e with
    | .close a _ => if a.id = id then some a else none
    | _ => none

/-- The values that have yet to land in some cells land no longer (R85, R125). -/
def dropFills (s : State) (on : Nat → Bool) : State :=
  { s with work := s.work.filter fun w => match w with | .fill d _ _ _ => !on d | _ => true }

/-- A value of the firing's own load that has yet to land in a register lands no longer: a later write of the firing stands
(R117). -/
def dropFill (s : State) (c k : Nat) : State :=
  let mine := fun (w : Work) => match w with | .fill d j _ _ => d == c && j == k | _ => false
  if s.work.any mine then { s with work := s.work.filter fun w => !mine w } else s

/-- A held register written, or made EMPTY, at commit, with what precedes its readers (R116, R213). -/
def writeHeld (s : State) (c k : Nat) (past : List Nat) (f : HeldReg → HeldReg) : State :=
  modCell (dropFill s c k) c fun y => { y with held := tmod {} y.held k fun h => { f h with past := past } }

/-- A token with what precedes its consumer (R213). -/
def Token.stamp (t : Token) (past : List Nat) : Token := if past = [] then t else { t with past := past }

/-- An issuer with what precedes its jobs (R216). -/
def Src.stamp (x : Src) (past : List Nat) : Src := if past = [] then x else { x with past := past }

/-- A command whose completion token and job say what precedes them. -/
def Cmd.stamp (past : List Nat) : Cmd → Cmd
  | .copy j => .copy { j with src := j.src.stamp past, tok := j.tok.map fun q => (q.1, q.2.stamp past) }
  | .mtx m => .mtx { m with src := m.src.stamp past }
  | .rel j => .rel { j with src := j.src.stamp past }
  | .sort j => .sort { j with src := j.src.stamp past }
  | .demand d => .demand { d with src := d.src.stamp past }
  | k => k

/-- One entry commits; a skipped frame's firing emits nothing (R435). -/
def commitEntry (s : State) (c : Nat) (f : Firing) (past : List Nat) (x : Src) : Entry → State
  | .access a => commitAccess s a
  | .emit _ dest t => if (getFrame s f.cfg f.frame).skipped then s else sendToken s dest (t.stamp past)
  | .held k v => writeHeld (seeAll s c) c k past fun h => { h with value := v, st := .full, err := false }
  | .fill k v err => addWork (writeHeld s c k past fun h => { h with st := .empty, err := false }) (.fill c k v err)
  | .hrec k r => modCell s c fun y => { y with held := tmod {} y.held k fun h => { h with tag := r } }
  | .hdrop k eff => if eff then modCell s c fun y => { y with held := tmod {} y.held k droppedReg } else s
  | .done dest t acc ordw =>
    if (getFrame s f.cfg f.frame).skipped then s
    else match acc.bind (findClose f.out) with
      | some a => addWork s (.closeDone a.id dest x (t.stamp past) (ownersOf a.pieces))
      | none => addWork s (.done dest x (t.stamp past) acc ordw)
  | .close a bar => commitClose s a bar
  | .cmd k held =>
    let s := match held with
      | some h => writeHeld s c h past fun r => { r with st := .empty, err := false }
      | none => s
    enterCmd s x (k.stamp past)

/-- Every entry commits in order, each with its place in the buffer. -/
def commitAll (s : State) (c : Nat) (f : Firing) : State :=
  let past := pastOut s c f
  f.out.zipIdx.foldl (fun s e => commitEntry s c f past { firingSrc s c f with pos := e.2, past := past } e.1) s

/-- Commands of a sort in an output buffer. -/
def outCmds (f : Firing) (p : Cmd → Bool) : Nat := (f.out.filter fun e => match e with | .cmd k _ => p k | _ => false).length

/-- The matrix commands of the firing have room in the queue of its grove's array (R345). -/
def mtxRoom (s : State) (c : Nat) (f : Firing) : Bool :=
  let mtxs := outCmds f fun k => match k with | .mtx _ => true | _ => false
  mtxs == 0 || (getGrove s (groveOf c)).queue.length + mtxs ≤ mtxQueueSize

/-- The copies of the firing have room in the queue of its grove's dispatcher (R259). -/
def copyRoom (s : State) (c : Nat) (f : Firing) : Bool :=
  let copies := outCmds f fun k => match k with | .copy _ => true | _ => false
  copies == 0 || queuedJobs s (groveOf c) + copies ≤ 64

/-- The engines have room for the commands of the firing (R259, R345, R391, R401). -/
def commitRoom (s : State) (c : Nat) (f : Firing) : Bool := copyRoom s c f && mtxRoom s c f

/-- An engine's job goes on: its issuer is a controller or its configuration runs.  After PREEMPT none does (R179, R365, R390). -/
def jobsRun (s : State) (x : Src) : Bool := x.kind == 3 || (getCfg s x.cfg).st == .running

/-- A job of the queue of grove `g` starts: it goes on, or after PREEMPT a firing of its configuration that has ended finds that very
queue full, since R179 has such a firing commit (log entry 40). -/
def queueRuns (s : State) (x : Src) (g : Nat) (room : State → Nat → Firing → Bool) : Bool :=
  jobsRun s x || ((getCfg s x.cfg).st == .preempting && s.cells.any fun e =>
    groveOf e.1 == g && e.2.firing.any fun f => f.cfg == x.cfg && f.phase == .ending && !room s e.1 f)

/-- Something the firing committed still waits to enter at an owner or the placement unit (R249, R274). -/
def commitWaits (s : State) (uid : Nat) : Bool :=
  s.work.any fun w => match w with
    | .contrib a _ => a.src.uid == uid
    | .close a _ _ _ _ => a.src.uid == uid
    | .demand d => d.src.uid == uid && d.src.kind == 0
    | _ => false

/-- A committing firing leaves its cell once nothing it committed waits (R249). -/
def finishCommit (s : State) (c : Nat) : State :=
  match (getCell s c).firing with
  | some f => if f.phase = .committing ∧ !commitWaits s f.uid then noteReady (modCell s c fun x => { x with firing := none }) c else s
  | none => s

/-- The firing on a cell may commit: it has ended and every check has returned (R102, R227). -/
def mayCommit (s : State) (c : Nat) (f : Firing) : Bool :=
  f.phase == .ending && !checksPending s f.uid && f.race.isNone && f.fault.isNone && commitRoom s c f

/-- OUTPUT_COMMIT (R102). Once the firing's checks have returned, its output-buffer entries commit in order, and its status
is added to the frame's (R314). -/
def execOutputCommit (s : State) : Out State :=
  match (turnArg s).bind fun c => (getCell s c).firing.map fun f => (c, f) with
  | some (c, f) =>
    if mayCommit s c f then
      let s := modFrame s f.cfg f.frame fun r => r.report f.rep
      let s := commitAll s c f
      .next (finishCommit (modCell s c fun x => { x with firing := some { f with phase := .committing } }) c)
    else notPending "the firing may not commit yet"
  | none => notPending "no firing has ended"

end Sys2Proof.Machine
end

