-- ==== Sys2Proof/Machine/Owner.lean ====
section
/-! DEFINITION. What the owners of locations and the network do with committed accesses: checks (R227, R228), stores (R239,
R441), atomics (R243 to R246), done tokens (R233, R251), sequence groups (R247 to R250), and the page walker (R413). -/

namespace Sys2Proof.Machine

/-- The item of pending work that has the turn, with its place. -/
def turnWork (s : State) : Option (Nat × Work) := (turnArg s).bind fun k => (workAt s k).map fun w => (k, w)

/-! ### Checks -/

/-- The firing with an identity on the cell of an issuer meets a race (R228): the one of its earliest word is kept. -/
def noteRace (s : State) (x : Src) (t : Trap) : State :=
  modCell s x.who fun y => { y with firing := y.firing.map fun f =>
    if f.uid ≠ x.uid then f
    else match f.race with
      | some (w, _, _) => if w ≤ x.word then f else { f with race := some (x.word, t, x) }
      | none => { f with race := some (x.word, t, x) } }

/-- The check of a command, with what precedes its firing, by the registers that the command itself reads too (R213, R216). -/
def checkPast (s : State) (me : InFlight) : InFlight :=
  if me.kind ≠ .job then me
  else match (getCell s me.src.who).firing with
    | some f => if f.uid = me.src.uid then { me with src := me.src.stamp (firingPast s me.src.who { f with word := me.src.word + 1 }) } else me
    | none => me

/-- A check reaches the owners (R227): a store or atomic that meets nothing is in flight from then on. -/
def ownerCheck (s : State) (me : InFlight) : State :=
  let me := checkPast s me
  let s := match raceOf s me with
    | some t => noteRace s me.src t
    | none => if me.kind = .store ∨ me.kind = .atomic then { s with inflight := s.inflight ++ [me] } else s
  settleFiring s me.src.who

/-- OWNER_CHECK (R227). An access check arrives at the owner of its location. -/
def execOwnerCheck (s : State) : Out State :=
  match turnWork s with
  | some (k, .check me) => .next (ownerCheck (dropWork s k) me)
  | _ => notPending "no check is on its way"

/-! ### Being performed (R211) -/

/-- The access with an identity is performed whole. -/
def landed (s : State) (id : Nat) : State := { s with inflight := s.inflight.filter fun f => f.id ≠ id }

/-- The ranges without the `len` bits from `bit` on, of the first that holds them. -/
def cutRange (bit len : Nat) : List Range → List Range
  | [] => []
  | r :: l =>
    if r.lo ≤ bit ∧ bit + len ≤ r.lo + r.len then
      [{ r with len := bit - r.lo }, { r with lo := bit + len, len := r.lo + r.len - (bit + len), va := r.va + ((bit + len) / 8 - r.lo / 8) }].filter
        (·.len ≠ 0) ++ l
    else r :: cutRange bit len l

/-- The bits of one event of the access are performed. -/
def landedPiece (s : State) (id bit len : Nat) : State :=
  let cut := fun (f : InFlight) => if f.id ≠ id then some f
    else
      let rs := cutRange bit len f.ranges
      if rs = [] then none else some { f with ranges := rs }
  { s with inflight := s.inflight.filterMap cut }

/-- The done token of an access that was not applied whole is not sent (R244). -/
def dropDone (s : State) (id : Nat) : State :=
  { s with work := s.work.filter fun w => match w with | .done _ _ _ (some a) _ => a ≠ id | _ => true }

/-- Two accesses of one firing touch a common bit. -/
def sameBits (a b : Acc) : Bool := b.src.uid == a.src.uid && piecesMeet b.pieces a.pieces

/-- An earlier contribution of the same firing to a bit of these pieces is staged (R217, R247), in another group where `other` says so. -/
def stagedBefore (s : State) (a : Acc) (other : Bool) : Bool :=
  s.groups.any fun g => g.2.staged.any fun e =>
    sameBits a e.acc && decide (e.acc.src.pos < a.src.pos) && !(other && e.acc.group == a.group)

/-- An earlier contribution of the same firing to a bit of these pieces, to another group, has yet to be applied (R217). -/
def contribBefore (s : State) (a : Acc) : Bool :=
  stagedBefore s a true || s.work.any fun w => match w with
    | .contrib b _ => sameBits a b && decide (b.src.pos < a.src.pos) && b.group != a.group
    | _ => false

/-- The pieces lie in the virtual region of a record. -/
def inRegion (rc : Rec) (ps : List Piece) : Bool := match rc.region with
  | none => false
  | some (va, n) => ps.any fun p => decide ((p.va : Int) < va + n) && decide (va < p.va + byteSpan p.bit p.len)

/-- An earlier demand of the same firing, a PLD that has yet to load or a PCONV without a tag, waits for a conversion into the region
(R217, R282). -/
def demandBefore (s : State) (a : Acc) : Bool := s.work.any fun w => match w with
  | .demand d | .waiting d =>
    d.src.kind == a.src.kind && d.src.uid == a.src.uid && decide (d.src.pos < a.src.pos) && d.tag.isNone && !d.failed && inRegion (recOf d.rcd) a.pieces
  | _ => false

/-- No earlier access of the same firing touches a bit of these pieces (R217): none that is on its way, no contribution that is staged
(R247), and no demand whose conversion or load is to come (R282). -/
def inTurn (s : State) (k : Nat) (a : Acc) : Bool :=
  !((s.work.take k).any fun w => match w with
    | .store b | .atomic b | .contrib b _ => sameBits a b
    | _ => false) && !stagedBefore s a false && !demandBefore s a

/-- The frame of a committed access, of which something was dropped, stops, kind JOB (R244, R441, R442). -/
def droppedTrap (s : State) (a : Acc) (d : Nat × Nat) : State := jobTrap (dropDone s a.id) { cause := d.1, addr := d.2 } a.src none

/-- The first dropped event of an access is kept. -/
def Acc.dropped (a : Acc) (cause va : Nat) : Acc := { a with drop := some (a.drop.getD (cause, va)) }

/-- The port that leads to the location is down (R442). -/
def unreachable (s : State) (pa : Nat) : Bool := match placeOf pa with
  | .peer d _ => !peerReach s d
  | _ => false

/-! ### Stores -/

/-- The events that are left of an access: those of eventsOf, and once one has been performed the pieces that are left. -/
def Acc.events (a : Acc) : List (List Piece) := if a.begun then a.pieces.map fun p => [p] else eventsOf a.pieces

/-- The pieces that the next event of a store writes, and those left (R207, R212, R226). -/
def Acc.split (a : Acc) (tick : Nat) : List Piece × List Piece :=
  let i := nextEvent tick a.events
  (a.events.getD i [], (a.events.eraseIdx i).flatten)

/-- A granule that a store covers whole loses its error before the store's first event (R441). -/
def cureWhole (s : State) (ps : List Piece) : State :=
  if s.poison = [] then s
  else
    let l := ps.map fun p => (p.bit, p.len, p.val)
    let t := l.foldl (fun s p => drainAll s p.1 p.2.1) s
    let cured := (touchedPoison t l).filter fun g => match granuleOf g with | some (h, sz) => coversGranule l h sz | none => false
    { t with poison := t.poison.filter fun g => !cured.contains g }

/-- One event of a committed store is performed at its owner (R207, R239, R242), in any order that keeps common bits in theirs (R212,
R217); with the last the store leaves, and something dropped stops the frame (R441, R442). -/
def performStore (s : State) (k : Nat) (a : Acc) : State :=
  let e := a.split s.tick
  let l := e.1.map fun p => (p.bit, p.len, p.val)
  let va := (e.1.head?.map (·.va)).getD 0
  let down := e.1.any fun p => unreachable s (p.bit / 8)
  let q := if down then (s, []) else writePieces (cureWhole s a.pieces) l a.src.insn.toNat a.src
  let a := if down then a.dropped cLINK va else if q.2 = [] then a else a.dropped cECCUNC va
  let t := l.foldl (fun t p => landedPiece t a.id p.1 p.2.1) q.1
  if e.2 = [] then
    let t := landed (dropWork t k) a.id
    match a.drop with
    | none => t
    | some d => droppedTrap t a d
  else setWork t k (.store { a with pieces := e.2, begun := true })

/-- STORE_PERFORM (R239). The next event of a committed store is performed at its owner. -/
def execStorePerform (s : State) : Out State :=
  match turnWork s with
  | some (k, .store a) => if inTurn s k a then .next (performStore s k a) else notPending "an earlier access comes first"
  | _ => notPending "no store is on its way"

/-! ### Atomics -/

/-- The result of a floating-point atomic (R245): new code, non-finite elements, saturations. -/
def atomicFloat (op : Nat) (f : FFmt) (mode : RMode) (x v : Nat) : Nat × Nat × Nat :=
  let X := f.decode x
  let V := fF32.decode v
  match X, V with
  | .nan, _ => (x, 0, 0)
  | .inf s, V => if op = 1 then (x, 0, 0)
    else if !V.finite then (x, 1, 0)
    else if op = 2 then (if s then x else (convert (.flt f) mode V).code, 0, 0)
    else (if s then (convert (.flt f) mode V).code else x, 0, 0)
  | .fin n1 m1 e1, .fin n2 m2 e2 =>
    if op = 1 then
      let (n, m, e) := addExact n1 m1 e1 n2 m2 e2
      if m = 0 then (f.signBit (n1 && n2), 0, 0)
      else
        let y := roundUnbounded f mode n m e
        if f.qmax < y.2 ∨ (y.2 = f.qmax ∧ f.maxMant < y.1) then (f.signBit n + f.maxCode, 0, 1)
        else ((roundF f mode n m e).code, 0, 0)
    else if op = 2 then (if V.ltZ X then (convert (.flt f) mode V).code else x, 0, 0)
    else (if X.ltZ V then (convert (.flt f) mode V).code else x, 0, 0)
  | .fin .., _ => (x, 1, 0)

/-- The result of an integer atomic (R243), on elements of `w` bits. -/
def atomicInt (op w : Nat) (signed : Bool) (x v v2 : Nat) : Nat :=
  match op with
  | 1 => (x + v) % 2 ^ w
  | 2 => combineInt .min w signed x v
  | 3 => combineInt .max w signed x v
  | 4 => v
  | 5 => if x = v then v2 else x
  | 6 => x ||| v
  | _ => x &&& v

/-- One element's atomic: operation, record, iteration tag, address, old value and operands. -/
def atomicElem (op : Nat) (rc : Rec) (itag va x v v2 : Nat) : Nat × Nat × Nat :=
  match numFmt rc.fmt with
  | some (.flt f) =>
    if op = 4 then (v % 2 ^ rc.bits, 0, 0) else atomicFloat op f (modeOfRecord rc.round rc.seed va itag) x (v % 2 ^ 32)
  | some (.int f) => (atomicInt op f.w f.signed x (v % 2 ^ f.w) (v2 % 2 ^ f.w), 0, 0)
  | _ => (x, 0, 0)

/-- The atomic of one piece at its owner: the state, the old value, and the counts; none when the element lies in an
uncorrectable granule, which is recorded (R244). -/
def applyPiece (s : State) (a : Acc) (p : Piece) : State × Option (Nat × Nat × Nat) :=
  if poisonedBits s p.bit p.len then
    (bboxEvent s (basinOfPa (p.bit / 8)) 3 cECCUNC 0 0 0 0 0 (p.bit / 8) a.src.insn.toNat, none)
  else
    let x := readBits s p.bit p.len
    let r := atomicElem a.op (recOf a.rcd) a.src.itag p.va x p.val p.val2
    ((writePieces s [(p.bit, p.len, r.1)] a.src.insn.toNat a.src).1, some (x, r.2))

/-- The old values of an atomic's elements enter the payload of its done token (R246). -/
def fillDone (s : State) (id payload : Nat) : State :=
  { s with work := s.work.map fun w => match w with
      | .done d x t (some a) o => if a = id then .done d x { t with payload := BitVec.ofNat 512 payload } (some a) o else w
      | w => w }

/-- The counts of one element of an unsequenced atomic (R245). -/
def countElem (s : State) (a : Acc) (nf sat : Nat) : State :=
  let s := if nf = 0 then s else countNonFinite s a.src (recOf a.rcd).place nf
  if sat = 0 then s else modFrame s a.src.cfg a.src.frame fun f => { f with sat := satAdd f.sat sat }

/-- One element of an atomic at its owner: the state, and the access with the old value, or with what was dropped. -/
def atomicEvent (s : State) (a : Acc) (p : Piece) : State × Acc :=
  if unreachable s (p.bit / 8) then (s, a.dropped cLINK p.va)
  else match applyPiece s a p with
    | (s, some (x, n, t)) => (countElem s a n t, { a with olds := a.olds ++ [(p.k, x)] })
    | (s, none) => (s, a.dropped cECCUNC p.va)

/-- The last element of an atomic has been applied: its done token gets the old values (R246), or its frame stops (R244). -/
def atomicDone (s : State) (a : Acc) : State :=
  let s := landed s a.id
  match a.drop with
  | some d => droppedTrap s a d
  | none =>
    let lw := if (recOf a.rcd).bits = 64 then 64 else 32
    fillDone s a.id (ofLanes lw ((List.range (512 / lw)).map fun k => ((a.olds.find? fun e => e.1 == k).map (·.2)).getD 0))

/-- The next element of a committed atomic is applied at its owner (R207, R244), in any order (R212). -/
def performAtomic (s : State) (k : Nat) (a : Acc) : State :=
  let i := nextEvent s.tick (a.pieces.map fun p => [p])
  let ps := a.pieces.eraseIdx i
  match a.pieces[i]? with
  | none => atomicDone (dropWork s k) a
  | some p =>
    let q := atomicEvent s a p
    let t := landedPiece q.1 a.id p.bit p.len
    if ps = [] then atomicDone (dropWork t k) { q.2 with pieces := [] } else setWork t k (.atomic { q.2 with pieces := ps })

/-- ATOMIC_APPLY (R244). An atomic's read-modify-write of its next element is applied at the owner. -/
def execAtomicApply (s : State) : Out State :=
  match turnWork s with
  | some (k, .atomic a) => if inTurn s k a then .next (performAtomic s k a) else notPending "an earlier access comes first"
  | _ => notPending "no atomic is on its way"

/-! ### Done tokens (R233, R251) -/

/-- Some access with the identity is not yet performed. -/
def accessPending (s : State) (id : Nat) : Bool :=
  (s.inflight.any fun f => f.id == id) ||
  (s.work.any fun w => match w with
    | .store a | .atomic a | .contrib a _ => a.id == id
    | _ => false) ||
  (s.groups.any fun g => g.2.staged.any fun e => e.acc.id == id || e.olds.any fun o => o.1 == id)

/-- Some memory event of the firing before position `pos` of its buffer is not yet performed (R251). -/
def eventsPending (s : State) (uid pos : Nat) : Bool :=
  (s.work.any fun w => match w with
    | .store a | .atomic a | .contrib a _ => a.src.uid == uid && a.src.pos < pos
    | .bar x _ _ _ _ => x.uid == uid && x.pos < pos
    | _ => false) ||
  (s.groups.any fun g => g.2.staged.any fun e =>
    (e.acc.src.uid == uid && e.acc.src.pos < pos) || e.olds.any fun o => o.2.1 == uid && decide (o.2.2 < pos))

/-- Some engine job that an earlier entry of the firing committed has not completed (R251). -/
def jobsPending (s : State) (uid pos : Nat) : Bool :=
  let mine := fun (x : Src) => x.kind != 3 && x.uid == uid && decide (x.pos < pos)
  (s.work.any fun w => match w with
    | .copy j => mine j.src
    | .rel j => mine j.src
    | .relContrib c => mine c.src
    | .sort j => mine j.src
    | .demand d | .waiting d => mine d.src
    | .coll j => mine j.src
    | _ => false) ||
  s.groves.any fun g => g.2.queue.any fun m => mine m.src

/-- A done token may enter the network: what it waits for is performed, and nothing of its route comes before it. -/
def doneReady (s : State) (k : Nat) : Bool :=
  match workAt s k with
  | some (.done _ x t acc ordw) =>
    routeFree s k t.route &&
    (match acc with
      | some id => !accessPending s id
      | none => !eventsPending s x.uid x.pos && (!ordw || !jobsPending s x.uid x.pos))
  | some (.closeDone _ _ _ t owners) => routeFree s k t.route && owners == []
  | _ => false

/-- DONE_TOKEN (R233). A done token enters the network once its access is performed at its scope. -/
def execDoneToken (s : State) : Out State :=
  if !(turnArg s).elim false (doneReady s) then notPending "no done token is ready"
  else match turnWork s with
    | some (k, .done dest _ t _ _) | some (k, .closeDone _ dest _ t _) => .next (setWork s k (.token dest t))
    | _ => notPending "no done token is on its way"

/-! ### Sequence groups (R248 to R250) -/

/-- The key of a group at an owner. -/
def groupKey (owner g : Nat) : Nat := owner * 65536 + g
def getGroup (s : State) (owner g : Nat) : SeqGroup := tget {} s.groups (groupKey owner g)
def setGroup (s : State) (owner g : Nat) (x : SeqGroup) : State := { s with groups := tset {} s.groups (groupKey owner g) x }

/-- Staged entries an owner has room for (R249); the room at a peer or the host is not bounded here. -/
def stageSize (owner : Nat) : Option Nat := if owner < 16384 then some 512 else if owner < 20000 then some 8192 else none

/-- Entries an owner has staged, and groups it holds. -/
def stagedAt (s : State) (owner : Nat) : Nat := ((s.groups.filter fun g => g.1 / 65536 = owner).map fun g => g.2.staged.length).sum
def groupsAt (s : State) (owner : Nat) : Nat := (s.groups.filter fun g => g.1 / 65536 = owner && g.2.held).length

/-- The owner holds the group or can take it (R249). -/
def groupRoom (s : State) (owner g : Nat) : Bool := (getGroup s owner g).held || groupsAt s owner < 64

/-- The key of a contribution: R220's record, frame, grove, cell and position, then the location; contributions that share a byte are
in the key's order whatever bits they start at. -/
def seqKey (s : State) (a : Acc) (bit : Nat) : List Nat :=
  let c := getCfg s a.src.cfg
  [c.rcd % 2 ^ 56, a.src.frame, c.relGrove (groveOf a.src.who), cellNo a.src.who, a.src.pos, bit]

/-- Lexicographic order of keys. -/
def keyLe : List Nat → List Nat → Bool
  | [], _ => true
  | _ :: _, [] => false
  | a :: as, b :: bs => a < b || (a == b && keyLe as bs)

/-- Staged entries in ascending key order. -/
def insertStaged (x : Staged) : List Staged → List Staged
  | [] => [x]
  | y :: ys => if keyLe x.key y.key then x :: y :: ys else y :: insertStaged x ys
def sortStaged (l : List Staged) : List Staged := l.foldr insertStaged []

/-- A sequence is applied already at the owner. -/
def SeqGroup.past (g : SeqGroup) (q : Nat) : Bool := match g.applied with
  | some c => q ≤ c
  | none => false

/-- A contribution arrives (R248): discarded, which counts as performed since its sequence has been applied (R247); a replacement,
which keeps the accesses it replaces, its own among them where two of its lanes name one element, until the sequence is applied; or
staged. -/
def stage (s : State) (a : Acc) (owner : Nat) : State :=
  match a.pieces with
  | [] => s
  | p :: _ =>
    let g := { getGroup s owner a.group with held := true }
    let q := a.src.itag
    if g.past q then landedPiece (setGroup s owner a.group { g with discarded := satAdd g.discarded 1 }) a.id p.bit p.len
    else
      let key := seqKey s a p.bit
      let same := fun (e : Staged) => e.seq == q && e.key == key
      let old := g.staged.filter same
      let olds := old.flatMap fun e => (e.acc.id, e.acc.src.uid, e.acc.src.pos) :: e.olds
      setGroup s owner a.group { g with staged := (g.staged.filter fun e => !same e) ++ [{ seq := q, key := key, acc := a, olds := olds }] }

/-- A contribution has room at its owner (R249), and nothing of its firing on the same bits comes first (R217): no earlier one of its
instruction to the same element, no earlier plain access and no demand. -/
def contribReady (s : State) (k : Nat) : Bool :=
  match workAt s k with
  | some (.contrib a owner) =>
    let g := getGroup s owner a.group
    let replaces := match a.pieces with
      | p :: _ => g.staged.any fun e => e.seq == a.src.itag && e.key == seqKey s a p.bit
      | [] => true
    groupRoom s owner a.group &&
    (g.past a.src.itag || replaces || (match stageSize owner with | some n => decide (stagedAt s owner < n) | none => true)) &&
    !((s.work.take k).any fun w => match w with
      | .contrib b _ => b.src.uid == a.src.uid && b.src.pos == a.src.pos && b.pieces.any fun q => a.pieces.any fun p => p.bit == q.bit
      | .store b | .atomic b => sameBits a b
      | _ => false) && !demandBefore s a
  | _ => false

/-- One staged entry is applied (R248): a store writes, an atomic combines; counts go to the group, non-finite ones also
to the handle. -/
def applyStaged (s : State) (owner g : Nat) (e : Staged) : State :=
  match e.acc.pieces with
  | [] => s
  | p :: _ =>
    let r : State × Option (Nat × Nat) :=
      if e.acc.op = 0 then
        let q := writePieces s [(p.bit, p.len, p.val)] e.acc.src.insn.toNat e.acc.src
        if q.2 = [] then (q.1, some (((e.acc.cnt.map fun c => c.2.1).sum), ((e.acc.cnt.map fun c => c.2.2).sum))) else (q.1, none)
      else
        let q := applyPiece s e.acc p
        (q.1, q.2.map (·.2))
    let s := (e.acc.id :: e.olds.map (·.1)).foldl (fun s id => landedPiece s id p.bit p.len) r.1
    let x := getGroup s owner g
    match r.2 with
    | some (nf, sat) =>
      let s := setGroup s owner g { x with nonfin := satAdd x.nonfin nf, saturated := satAdd x.saturated sat }
      if (recOf e.acc.rcd).place = 0 then s else countHandle s (recOf e.acc.rcd).place nf
    | none => setGroup s owner g { x with discarded := satAdd x.discarded 1 }

/-- Lanes of a SEQCL's payload with an owner's counts added (R250). -/
def addCounts (p : Reg) (x : SeqGroup) : Reg :=
  let v := p.toNat
  BitVec.ofNat 512 (ofLanes 32 [satAdd (lane 32 v 0) x.discarded, satAdd (lane 32 v 1) x.nonfin, satAdd (lane 32 v 2) x.saturated])

/-- A close has taken effect at an owner (R250): its bytes leave the barrier and its done token waits for this owner no
longer. -/
def releaseClose (s : State) (owner g : Nat) (c : Closing) : State :=
  let x := getGroup s owner g
  let s := barBytes s c.src c.bar 3 c.bytes
  { s with work := s.work.map fun w => match w with
      | .closeDone id d y t os => if id = c.id then .closeDone id d y { t with payload := addCounts t.payload x } (os.filter (· ≠ owner)) else w
      | w => w }

/-- Sequences whose turn has come are applied while the next close is recorded (R248) and no entry of it waits for an earlier one of its
firing to another group (R217); at most `n` of them. -/
def applyClosed (s : State) (owner g : Nat) : Nat → State
  | 0 => s
  | n + 1 =>
    let x := getGroup s owner g
    let next := match x.applied with | some c => c + 1 | none => 0
    if x.closes.any (fun c => c.seq == next) && !x.staged.any (fun e => e.seq == next && contribBefore s e.acc) then
      let s := (sortStaged (x.staged.filter fun e => e.seq = next)).foldl (fun s e => applyStaged s owner g e) s
      let x := getGroup s owner g
      let done := x.closes.filter fun c => c.seq = next
      let s := setGroup s owner g { x with applied := some next, staged := x.staged.filter fun e => e.seq ≠ next
                                           closes := x.closes.filter fun c => c.seq ≠ next }
      applyClosed (done.foldl (fun s c => releaseClose s owner g c) s) owner g n
    else s

/-- The groups of an owner with closes recorded. -/
def closedGroups (s : State) (owner : Nat) : List Nat :=
  (s.groups.filter fun g => g.1 / 65536 = owner && g.2.closes != []).map fun g => g.1 % 65536

/-- Every sequence of an owner whose turn has come is applied: those of one group may have waited for another's. -/
def settleOwner (s : State) (owner : Nat) : State :=
  let gs := closedGroups s owner
  ((List.replicate gs.length gs).flatten).foldl (fun s g => applyClosed s owner g ((getGroup s owner g).closes.length + 1)) s

/-- The done tokens of ORD and ORDW that wait for an event of a firing at place `pos` of its buffer are not sent (R251). -/
def dropOrd (s : State) (uid pos : Nat) : State :=
  { s with work := s.work.filter fun w => match w with | .done _ x _ none _ => !(x.uid == uid && decide (pos < x.pos)) | _ => true }

/-- close(0xFFFFFF) ends the group at an owner (R250): staged entries are discarded and counted, the counts are reported,
every close still recorded counts as having taken effect, and the group is cleared; a discarded contribution is never performed,
and neither its done token nor that of an ORD behind it is ever sent (R247, R251). -/
def endGroup (s : State) (owner g : Nat) (c : Closing) : State :=
  let x := getGroup s owner g
  let s := x.staged.foldl (fun s e => match e.acc.pieces with
    | p :: _ => ((e.acc.id, e.acc.src.uid, e.acc.src.pos) :: e.olds).foldl (fun s o =>
        landedPiece (dropOrd (dropDone s o.1) o.2.1 o.2.2) o.1 p.bit p.len) s
    | [] => s) s
  let s := setGroup s owner g { x with staged := [], closes := [], discarded := satAdd x.discarded x.staged.length }
  settleOwner (setGroup ((x.closes ++ [c]).foldl (fun s c => releaseClose s owner g c) s) owner g {}) owner

/-- A close arrives at an owner (R248, R250). -/
def closeAt (s : State) (owner g : Nat) (c : Closing) : State :=
  let x := { getGroup s owner g with held := true }
  if c.seq = 0xFFFFFF then endGroup s owner g c
  else if x.past c.seq then releaseClose (setGroup s owner g x) owner g c
  else settleOwner (applyClosed (setGroup s owner g { x with closes := x.closes ++ [c] }) owner g (x.closes.length + 1)) owner

/-- SEQ_CONTRIBUTION (R248). A sequenced contribution arrives at its owner and is staged, replaced or discarded; one whose port is
down faults with LINK (R442). -/
def execSeqContribution (s : State) : Out State :=
  if !(turnArg s).elim false (contribReady s) then notPending "the contribution waits"
  else match turnWork s with
    | some (k, .contrib a owner) =>
      let s := dropWork s k
      match a.pieces.find? fun p => unreachable s (p.bit / 8) with
      | some p => .next (finishCommit (settleOwner (droppedTrap (landedPiece s a.id p.bit p.len) a (cLINK, p.va)) owner) a.src.who)
      | none => .next (finishCommit (settleOwner (stage s a owner) owner) a.src.who)
    | _ => notPending "no contribution is on its way"

/-- A close may enter: the owner can hold its group, and every earlier contribution of its firing is staged (R249, R250). -/
def closeReady (s : State) (k : Nat) : Bool :=
  match workAt s k with
  | some (.close a owner _ _ _) =>
    groupRoom s owner a.group &&
    !(s.work.take k).any fun w => match w with
      | .contrib b _ => b.src.uid == a.src.uid
      | _ => false
  | _ => false

/-- The owner is a peer's, and the port that leads there is down (R442). -/
def ownerDown (s : State) (owner : Nat) : Bool := decide (30000 ≤ owner) && !peerReach s (owner - 30000)

/-- A close that reaches no owner stops its frame with LINK (R442): its done token is not sent, and the bytes of that owner stay pending
(log entry 70). -/
def closeLost (s : State) (a : Acc) : State :=
  let s := { s with work := s.work.filter fun w => match w with | .closeDone id .. => id ≠ a.id | _ => true }
  jobTrap s { cause := cLINK, addr := (a.pieces.head?.map (·.va)).getD 0 } a.src none

/-- SEQ_CLOSE (R248). A close arrives at an owner and is recorded; one whose port is down faults with LINK (R442). -/
def execSeqClose (s : State) : Out State :=
  if !(turnArg s).elim false (closeReady s) then notPending "the close waits"
  else match turnWork s with
    | some (k, .close a owner seq bar bytes) =>
      if ownerDown s owner then .next (finishCommit (closeLost (dropWork s k) a) a.src.who)
      else .next (finishCommit (closeAt (dropWork s k) owner a.group { seq := seq, id := a.id, src := a.src, bar := bar, bytes := bytes }) a.src.who)
    | _ => notPending "no close is on its way"

/-! ### Barriers (R265) -/

/-- A barrier operation of a firing may be applied: the events that its firing committed before it are performed
(R218), and the object has room (R265). -/
def barReady (s : State) (k : Nat) : Bool :=
  match workAt s k with
  | some (.bar x op pa n _) => barRoom s op pa n && !eventsPending s x.uid x.pos
  | _ => false

/-- A barrier operation of a firing at the object's owner; one that is dropped stops the firing's frame (R441). -/
def barPerform (s : State) (x : Src) (op pa n va : Nat) : State :=
  let r := barWrite s op pa n x.insn.toNat (if op = 1 then x.before else [])
  if r.2 = [] then r.1 else jobTrap r.1 { cause := cECCUNC, addr := va } x none

/-- BARRIER_UPDATE (R265). An arrival or pending change is applied at a barrier's owner. -/
def execBarrierUpdate (s : State) : Out State :=
  if !(turnArg s).elim false (barReady s) then notPending "the barrier operation waits"
  else match turnWork s with
    | some (k, .bar x op pa n va) => .next (barPerform (dropWork s k) x op pa n va)
    | _ => notPending "no barrier operation is on its way"

/-! ### The page walker (R413, R414) -/

/-- PAGE_WALK (R413). A translation miss is walked and the entry refilled. -/
def execPageWalk (s : State) : Out State :=
  match turnWork s with
  | some (k, .walk holder asn va secure) =>
    let s := dropWork s k
    match walk s asn va secure with
    | some e => .next (tlbInsert s holder e)
    | none => .next s
  | _ => notPending "no miss is being walked"

end Sys2Proof.Machine
end

