-- ==== Sys2Proof/Machine/Ctl.lean ====
section
/-! DEFINITION. The controllers' and cores' own instructions: branches and jumps (R72, R150 to R152, R163), memory access
(R153 to R155), control registers (R156 to R159, R162, R410, R422, R445, R461), and the blocks in memory that other
instructions read (R154, R284). -/

namespace Sys2Proof.Machine

/-! ### Branches and jumps -/

/-- A taken branch or jump: outside a handler, target 0 ends the routine and the unit is idle (R163). -/
def jumpTo (s : State) (u target : Nat) : State :=
  modCtl s u fun x => if target = 0 ∧ !x.handler then { x with mode := .idle, pc := 0 } else { x with pc := target }

/-- The address `off` words from `pc`. -/
def relTarget (pc : Nat) (w off : Nat) : Nat := wrap 64 ((pc : Int) + 4 * toSigned w off)

/-- A conditional branch (R150). -/
def branch (i : Instr) (p : Nat → Nat → Bool) (a b : GSpec) (o : BitVec 13) (s : State) : Out State :=
  onCtls i s fun u pc s =>
    let x := getCtl s u
    .ok (if p (x.g a.toNat).toNat (x.g b.toNat).toNat then jumpTo s u (relTarget pc 13 o.toNat) else s)

/-- BEQ (R150). Branches when two G registers are equal. -/
def execBeq (a b : GSpec) (o : BitVec 13) (s : State) : Out State := branch (.beq a b o) (fun x y => x == y) a b o s

/-- BNE (R150). Branches when two G registers differ. -/
def execBne (a b : GSpec) (o : BitVec 13) (s : State) : Out State := branch (.bne a b o) (fun x y => x != y) a b o s

/-- BLT (R150). Branches on signed less-than. -/
def execBlt (a b : GSpec) (o : BitVec 13) (s : State) : Out State :=
  branch (.blt a b o) (fun x y => toSigned 64 x < toSigned 64 y) a b o s

/-- BGE (R150). Branches on signed greater-or-equal. -/
def execBge (a b : GSpec) (o : BitVec 13) (s : State) : Out State :=
  branch (.bge a b o) (fun x y => toSigned 64 y ≤ toSigned 64 x) a b o s

/-- BLTU (R150). Branches on unsigned less-than. -/
def execBltu (a b : GSpec) (o : BitVec 13) (s : State) : Out State := branch (.bltu a b o) (fun x y => x < y) a b o s

/-- BGEU (R150). Branches on unsigned greater-or-equal. -/
def execBgeu (a b : GSpec) (o : BitVec 13) (s : State) : Out State := branch (.bgeu a b o) (fun x y => y ≤ x) a b o s

/-- A jump with link (R72): the link is written unless the target is misaligned. -/
def jumpLink (s : State) (u pc : Nat) (l : GSpec) (target : Nat) : R State :=
  if target % 4 ≠ 0 then trapR cALIGN 0 target
  else .ok (jumpTo (modCtl s u fun x => x.setG l.toNat (BitVec.ofNat 64 (pc + 4))) u target)

/-- JAL (R72). Jumps pc-relative and writes the link register. -/
def execJal (l : GSpec) (o : BitVec 21) (s : State) : Out State :=
  onCtls (.jal l o) s fun u pc s => jumpLink s u pc l (relTarget pc 21 o.toNat)

/-- JALR (R72). Jumps to the address in the link register, read before the link is written. -/
def execJalr (l : GSpec) (s : State) : Out State :=
  onCtls (.jalr l) s fun u pc s => jumpLink s u pc l ((getCtl s u).g l.toNat).toNat

/-! ### Reads and writes of memory -/

/-- Physical bytes of a range that an issuer may access, page by page (steps 3 and 4 of R154): virtual start, physical
start, bytes. -/
def physParts (s : State) (st : Stream) (src : Src) (k : Acs) (va n : Nat) : R (List (Nat × Nat × Nat)) :=
  (pageParts va n).mapM fun p => do
    let q ← translate s st src k p.1 p.2
    .ok (p.1, q.1, p.2)

/-- Bytes of physical parts, little-endian. -/
def readParts (s : State) : List (Nat × Nat × Nat) → Nat
  | [] => 0
  | (_, pa, n) :: ps => readNat s pa n + 256 ^ n * readParts s ps

/-- The first part that an uncorrectable error touches. -/
def partsPoison (s : State) (ps : List (Nat × Nat × Nat)) : Option Nat :=
  if s.poison = [] then none else (ps.find? fun p => poisonedRange s p.2.1 p.2.2).map (·.1)

/-- A block of `n` bytes read by an instruction with the checks of R154; `al` is the block's alignment. -/
def blockRead (s : State) (st : Stream) (src : Src) (va n al : Nat) : R Nat :=
  if 2 ^ 56 ≤ va then trapR cTRANSL 0 va
  else if va % al ≠ 0 then trapR cALIGN 0 va
  else do
    let ps ← physParts s st src .read va n
    match partsPoison s ps with
    | some a => trapR cECCUNC 0 a
    | none => .ok (readParts s ps)

/-- A block read by a controller or core. -/
def ctlBlock (s : State) (u pc va n al : Nat) : R Nat := blockRead s (ctlStream u) (ctlSrc s u pc) va n al

/-- A block read by a firing. -/
def cellBlock (s : State) (c : Nat) (f : Firing) (va n al : Nat) : R Nat :=
  blockRead s ⟨streamCell c, bufferKey (groveOf c)⟩ (firingSrc s c f) va n al

/-- The entry that the unit's access used becomes its own (R414). -/
def ctlRefill (s : State) (u : Nat) (src : Src) (va : Nat) : State :=
  match tlbFind s (ctlStream u) src.asn va src.secure with
  | some e => tlbOwn s (ctlStream u) e
  | none => s

/-- Size of LDC and STC in bytes, and whether LDC extends the sign (R153). -/
def cmemSize (m : Nat) : Nat := 2 ^ (m % 4)
def cmemSigned (m : Nat) : Bool := 4 ≤ m

/-- LDC (R153 to R155). Controller load of 8 to 64 bits. -/
def execLdc (d a b : Spec) (m : BitVec 3) (s : State) : Out State :=
  onCtls (.ldc d a b m) s fun u pc s => do
    let n := cmemSize m.toNat
    let va := (readG s u a + readG s u b) % 2 ^ 64
    if 2 ^ 56 ≤ va then trapR cTRANSL 0 va
    else if va % n ≠ 0 then trapR cALIGN 0 va
    else do
      let src := ctlSrc s u pc
      let q ← translate s (ctlStream u) src .read va n
      checkNow s ⟨0, src, .load, [⟨q.1 * 8, n * 8, false, va⟩], 3, 0, 0⟩
      if poisonedRange s q.1 n then trapR cECCUNC 0 va
      else
        let v := readNat s q.1 n
        .ok (writeG (ctlRefill s u src va) u d (if cmemSigned m.toNat then wrap 64 (toSigned (8 * n) v) else v))

/-- STC (R153 to R155). Controller store of 8 to 64 bits, performed before the next instruction; a write that is dropped
faults the STC (R441). -/
def execStc (d a b : Spec) (m : BitVec 2) (s : State) : Out State :=
  onCtls (.stc d a b m) s fun u pc s => do
    let n := cmemSize m.toNat
    let va := (readG s u a + readG s u b) % 2 ^ 64
    if 2 ^ 56 ≤ va then trapR cTRANSL 0 va
    else if va % n ≠ 0 then trapR cALIGN 0 va
    else do
      let src := ctlSrc s u pc
      let q ← translate s (ctlStream u) src .write va n
      checkNow s ⟨0, src, .store, [⟨q.1 * 8, n * 8, true, va⟩], 3, 0, 0⟩
      let w := writePieces (ctlRefill s u src va) [(q.1 * 8, n * 8, readG s u d % 256 ^ n)] src.insn.toNat
      .ok (if w.2 = [] then w.1 else takeCtlTrap w.1 u pc (cause cECCUNC 0 va))

/-! ### Control registers -/

/-- CTLPOS of a grove controller (R158). -/
def ctlPos (s : State) (n : Nat) : Nat :=
  let own := n / 32 % 32 * 32 + n % 32
  match cfgOfGrove s n with
  | none => own
  | some c =>
    let r := c.relGrove n
    2 ^ 32 + (c.stageOf n).getD 0 * 2 ^ 28 + r / 32 * 2 ^ 15 + r % 32 * 2 ^ 10 + own

/-- GLADE of a grove controller (R159). -/
def gladeReg (s : State) (n : Nat) : Nat :=
  match cfgOfGrove s n with
  | none => 0
  | some c =>
    let o := c.origins.getD ((c.stageOf n).getD 0) 0
    (c.stages - 1) * 2 ^ 22 + c.height * 2 ^ 16 + c.width * 2 ^ 10 + o / 32 * 32 + o % 32

/-- How a control register may be accessed. -/
inductive CrKind where
  | none
  | readOnly
  | readWrite
  /-- Supervisor only. -/
  | superRead
  | superWrite
  deriving DecidableEq, Repr

/-- The access of control register `n` on a controller or core (R157, R160, R162, R410, R422, R445, R461). -/
def crKind (core : Bool) (n : Nat) : CrKind :=
  if n ≤ 6 ∨ n = 8 then .readOnly
  else if n = 7 then (if core then .none else .readWrite)
  else if 32 ≤ n ∧ n ≤ 55 then .readOnly
  else if 56 ≤ n ∧ n ≤ 58 then (if core then .none else .readWrite)
  else if n = 59 then .readOnly
  else if n = 60 ∨ n = 61 then (if core then .superWrite else .none)
  else if n = 62 then (if core then .superRead else .none)
  else if n = 64 then .superWrite
  else if n = 65 then .readOnly
  else if n = 96 then .superRead
  else if 97 ≤ n ∧ n ≤ 100 then .superWrite
  else .none

/-- The contents of control register `n` of unit `u`. -/
def crRead (s : State) (u n : Nat) : Nat :=
  let x := getCtl s u
  let core := isCore u
  if 32 ≤ n ∧ n ≤ 55 then (match x.rcd with | some r => if x.handler then (r.w (n - 32)).toNat else 0 | none => 0)
  else match n with
    | 0 => if core then 0 else ctlPos s u
    | 1 => match s.devnum with | some d => 2 ^ 63 + d | none => 0
    | 2 => s.timens.toNat
    | 3 => s.cycles.toNat
    | 4 => if core then 0 else gladeReg s u
    | 5 => if core then 0 else (match cfgOfGrove s u with | some c => c.rcd % 2 ^ 56 | none => 0)
    | 6 => x.asn % 256 * 2 + (if x.user then 0 else 1)
    | 7 => x.dbgctl.toNat
    | 8 => if core then 2 ^ 63 + (u - 1024) else u
    | 56 => x.wbase.toNat
    | 57 => x.wlen.toNat
    | 58 => x.wctl.toNat
    | 59 => (if x.handler then 65536 else 0) + min x.queue.length 65535
    | 60 => x.svvec.toNat
    | 61 => x.epc.toNat
    | 62 => (if x.handler then 1 else 0) + (match x.rcd with | some r => if r.resolved then 2 else 0 | none => 0)
    | 64 => s.ttbase.toNat
    | 65 => if unitSecure s u then 1 else 0
    | 96 => (tget {} s.bbox (basinOfUnit u)).seq
    | 97 => s.telbase.toNat
    | 98 => x.disppc.toNat
    | 99 => if x.dispFail then 1 else 0
    | 100 => s.pwreq
    | _ => 0

/-- A write of register `n` sets no reserved bit. -/
def crFits (n v : Nat) : Bool := match n with
  | 7 => v < 2
  | 56 => v < 2 ^ 56
  | 57 => v < 2 ^ 32
  | 58 => v < 8
  | 60 => v % 4 == 0
  | 64 => v < 2 ^ 62 && v % 2048 == 0
  | 97 => v < 2 ^ 56 && v % 64 == 0
  | 98 => v < 2 ^ 56 && v % 4 == 0
  | 99 => v < 2 ^ 24 && bits v 10 4 == 0
  | 100 => v == 0 || v == 2
  | _ => true

/-- A write of a control register of the unit's own or of the device. -/
def crWrite (s : State) (u n v : Nat) : State :=
  let w := BitVec.ofNat 64 v
  match n with
  | 7 => modCtl s u fun x => { x with dbgctl := w }
  | 56 => modCtl s u fun x => { x with wbase := w }
  | 57 => modCtl s u fun x => { x with wlen := w }
  | 58 => modCtl s u fun x => { x with wctl := w }
  | 60 => modCtl s u fun x => { x with svvec := w }
  | 61 => modCtl s u fun x => { x with epc := w }
  | 64 => { s with ttbase := w }
  | 97 => { s with telbase := w }
  | 98 => modCtl s u fun x => { x with disppc := w }
  | _ => s

/-- DISPGO (R162): an idle target outside a handler starts at the DISPPC in force; otherwise nothing happens but bit 0
of DISPGO. -/
def dispatch (s : State) (u v : Nat) : R State :=
  let core := bit v 14
  let user := bit v 15
  if core && (user || bits v 4 6 != 0) then illop
  else
    let t := if core then 1024 + bits v 0 4 else bits v 0 10
    let x := getCtl s t
    if unitSecure s t && !unitSecure s u then trapR cPERM dWORLD
    else if x.mode ≠ .idle ∨ x.handler then .ok (modCtl s u fun y => { y with dispFail := true })
    else
      let pc := (getCtl s u).disppc.toNat
      let s := setCtl s t { x with mode := .running, pc := pc, bank0 := [], user := user, asn := if user then bits v 16 8 else 0 }
      .ok (modCtl s u fun y => { y with dispFail := false })

/-- PWREQ (R461): 0 withdraws a waiting request; 2 asks for standby, which is entered at once in PW1. -/
def requestPower (s : State) (v : Nat) : State :=
  if v = 2 ∧ s.power = .pw1 then { s with power := .pw2, pwreq := 0 } else { s with pwreq := v }

/-- The checks of R156 for an access of register `n`: assigned, permitted in the mode, writable. -/
def crCheck (s : State) (u n : Nat) (write : Bool) : R Unit :=
  match crKind (isCore u) n with
  | .none => illop
  | .readOnly => if write then illop else .ok ()
  | .readWrite => .ok ()
  | .superRead => if (getCtl s u).user then trapR cPERM dMODE else if write then illop else .ok ()
  | .superWrite => if (getCtl s u).user then trapR cPERM dMODE else .ok ()

/-- CWR of any register: checks, then the write.  R156 lists its faults in no order; for a user-mode write of a supervisor-only
register that also sets a reserved bit, or that may not be written, the model reports PERM (DESIGN CHOICE, log entry 56). -/
def crStore (s : State) (u n v : Nat) : R State := do
  crCheck s u n true
  if !crFits n v then illop
  else if n = 99 then dispatch s u v
  else if n = 100 then .ok (requestPower s v)
  else .ok (crWrite s u n v)

/-- CRD (R156). Reads a control register into a G register. -/
def execCrd (d : Spec) (im : BitVec 11) (s : State) : Out State :=
  onCtls (.crd d im) s fun u _ s => do
    crCheck s u im.toNat false
    .ok (writeG s u d (crRead s u im.toNat))

/-- CWR (R156). Writes a G register into a control register. -/
def execCwr (a : Spec) (im : BitVec 11) (s : State) : Out State :=
  onCtls (.cwr a im) s fun u _ s => crStore s u im.toNat (readG s u a)

/-- DISPGO (R162). A write of DISPGO dispatches a routine to an idle controller or core. -/
def execDispgo (a : Spec) (s : State) : Out State := onCtls (.dispgo a) s fun u _ s => crStore s u 99 (readG s u a)

/-- PWREQ_STANDBY (R461). A write of 2 to PWREQ requests entry to standby PW2; a value that is not accepted faults. -/
def execPwreqStandby (a : Spec) (s : State) : Out State := onCtls (.pwreqStandby a) s fun u _ s => crStore s u 100 (readG s u a)

/-- PWREQ_WITHDRAW (R461). A write of 0 to PWREQ withdraws a waiting standby request. -/
def execPwreqWithdraw (a : Spec) (s : State) : Out State := onCtls (.pwreqWithdraw a) s fun u _ s => crStore s u 100 (readG s u a)

end Sys2Proof.Machine
end

