-- ==== Sys2Proof/Machine/Copy.lean ====
section
/-! DEFINITION. The groups STRM, TAG and BAR on cells, controllers and cores (R253 to R266), and the copy jobs of the stream
engines (R255 to R260). -/

namespace Sys2Proof.Machine

/-! ### The checks of a copy (R254, R256) -/

/-- A copy's control words C0 to C3 (R254). -/
structure CopyCtl where
  sstart : Nat
  dstart : Nat
  c2 : Nat
  c3 : Nat
  deriving DecidableEq, Repr

def copyCtlOf (v : Nat) : CopyCtl := ⟨bits v 0 64, bits v 64 64, bits v 128 64, bits v 192 64⟩
def CopyCtl.count (c : CopyCtl) : Nat := bits c.c2 0 40
def CopyCtl.tag (c : CopyCtl) : Nat := bits c.c2 40 6
def CopyCtl.bar (c : CopyCtl) : Bool := bit c.c2 46
def CopyCtl.tok (c : CopyCtl) : Bool := bit c.c2 47
def CopyCtl.route (c : CopyCtl) : Nat := bits c.c2 48 2
def CopyCtl.scope (c : CopyCtl) : Nat := bits c.c2 50 3
def CopyCtl.barrier (c : CopyCtl) : Nat := bits c.c3 0 56

/-- The pair is a conversion that R301 lists. -/
def listedPair (a b : Nat) : Bool := listedFmt a && listedFmt b && a != b

/-- Two virtual regions share a byte. -/
def regionsMeet (a b : Option (Int × Nat)) : Bool := match a, b with
  | some (x, n), some (y, m) => decide (x < y + m) && decide (y < x + n)
  | _, _ => false

/-- The first offset of a range beyond N under a record that does not allow it (step 5 of R256). -/
def offsetCheck (r : Rec) (start count : Nat) : R Unit :=
  if (r.bounds = 0 ∨ (r.bounds = 2 ∧ r.count = 0)) ∧ r.count < start + count then boundsR (max start r.count) else .ok ()

/-- Steps 2 to 8 of R256: the job, with its footprint.  `route` says whether the named route is an enabled data route; `own` counts
earlier jobs of the same firing on the tag. -/
def copyChecks (s : State) (src : Src) (srec drec : BitVec 256) (v : Nat) (xform : Bool) (route : Nat → Option Token)
    (dest : Nat → Nat) (own : Nat → Nat) : R CopyJob := do
  let c := copyCtlOf v
  let a := recOf srec
  let b := recOf drec
  if bits c.c2 53 11 ≠ 0 ∨ bits c.c3 56 8 ≠ 0 ∨ 5 ≤ c.scope ∨ c.count = 0 ∨ (c.tok ∧ src.kind = 3) then illop
  else if (if xform then !listedPair a.fmt b.fmt else a.bits != b.bits) || regionsMeet a.region b.region then illop
  else if c.tok ∧ route c.route = none then illop
  else do
    offsetCheck a c.sstart c.count
    offsetCheck b c.dstart c.count
    let f1 ← liftTrap (recFoot s src .read a)
    let f2 ← liftTrap (recFoot s src .copyDst b)
    let bar ← (if !c.bar then (.ok none : R (Option (Nat × Nat)))
      else if c.barrier % 16 ≠ 0 then trapR cALIGN 0 c.barrier
      else (liftTrap (walkCheck s src .barWrite c.barrier 16)).map fun pa => some (pa, c.barrier))
    if 65535 < (getTag s src c.tag).count + own c.tag + 1 then boundsR ((getTag s src c.tag).count + own c.tag + 1)
    else
      .ok { src := src, srec := srec, drec := drec, sstart := c.sstart, dstart := c.dstart, count := c.count, scope := c.scope
            route := c.route, tag := c.tag, xform := xform, bar := bar, foot := f1 ++ f2
            tok := if c.tok then (route c.route).map fun t => (dest c.route, { t with payload := BitVec.ofNat 512 (c.dstart % 2 ^ 32), scope := c.scope }) else none }

/-- Checks 1 to 5 of R200 on a record that a controller's block holds: check 1 does not apply (R256). -/
def blockRecord (w : BitVec 256) (rounds : Bool) : R Unit := liftTrap ((recOf w).check rounds)

/-- Jobs that earlier entries of the firing commit on a tag. -/
def ownOnTag (f : Firing) (k : Nat) : Nat :=
  (f.out.filter fun e => match e with
    | .cmd (.copy j) _ => j.tag == k
    | .cmd (.sort j) _ => j.tag == some k
    | .cmd (.demand d) _ => d.tag == some k
    | _ => false).length

/-- A job's footprint is checked at the owners (R227): by a message for a firing, at once for a controller. -/
def jobCheck (src : Src) (foot : List Range) (scope : Nat) : InFlight := ⟨0, src, .job, foot, scope, 0, 0⟩
def sendJobCheck (s : State) (src : Src) (foot : List Range) (scope : Nat) : State :=
  if foot = [] then s else sendCheck s (jobCheck src foot scope)

/-- SCOPY and SXFORM on a cell: checks, the command's entry, the emission of its token counted (R256). -/
def copyCell (xform : Bool) (d a b : Spec) (c : Nat) (f : Firing) (s : State) : R State := do
  let x := getCell s c
  let _ ← useRecord x f.ctx a.toNat false
  let _ ← useRecord x f.ctx d.toNat xform
  let v ← readSpec s c f b
  if bits v 256 256 ≠ 0 then boundsR (bits v 256 64)
  else do
    let src := firingSrc s c f
    let route := fun k => if (checkRoute x f k false).isOk then some (routeToken c f k (x.route f.ctx k)) else none
    let dest := fun k => routeDest (getCfg s f.cfg) (x.route f.ctx k)
    let j ← copyChecks s src (x.record f.ctx a.toNat) (x.record f.ctx d.toNat) v xform route dest (ownOnTag f)
    let j := { j with grove := groveOf c }
    let f ← addEntry f (.cmd (.copy j) none)
    let f := if j.tok.isSome then { f with emitted := f.emitted.set j.route (f.emitted.getD j.route 0 + 1) } else f
    .ok (sendJobCheck (putFiring s c f) src j.foot j.scope)

/-- The block of a controller's copy: records and control, checked (R253, R256). -/
def copyBlock (s : State) (u pc va : Nat) (xform : Bool) : R CopyJob := do
  let v ← ctlBlock s u pc va 96 32
  let srec := BitVec.ofNat 256 (bits v 0 256)
  let drec := BitVec.ofNat 256 (bits v 256 256)
  blockRecord srec false
  blockRecord drec xform
  let src := ctlSrc s u pc
  let j ← copyChecks s src srec drec (bits v 512 256) xform (fun _ => none) (fun _ => 0) (fun _ => 0)
  checkNow s (jobCheck src j.foot j.scope)
  .ok { j with grove := u }

/-- SCOPY and SXFORM on a controller: the job starts, once the dispatcher has room (R259). -/
def copyCtl (xform : Bool) (a : Spec) (u pc : Nat) (s : State) : R State := do
  let j ← copyBlock s u pc (readG s u a) xform
  if 64 ≤ queuedJobs s u then .error .stall else .ok (enterJob s j)

/-- SCOPY_CELL (R255). Cell form: commits a copy job between two records. -/
def execScopyCell (d a b : Spec) (s : State) : Out State := onCells (.scopyCell d a b) s <| withRegs (.scopyCell d a b) (copyCell false d a b)

/-- SCOPY_CTRL (R255). Controller form: starts a copy job from a 96-byte block. -/
def execScopyCtrl (a : Spec) (s : State) : Out State := onCtls (.scopyCtrl a) s (copyCtl false a)

/-- SXFORM_CELL (R255). Cell form: commits a converting copy job. -/
def execSxformCell (d a b : Spec) (s : State) : Out State :=
  onCells (.sxformCell d a b) s <| withRegs (.sxformCell d a b) (copyCell true d a b)

/-- SXFORM_CTRL (R255). Controller form: starts a converting copy job from a block. -/
def execSxformCtrl (a : Spec) (s : State) : Out State := onCtls (.sxformCtrl a) s (copyCtl true a)

/-! ### Ports (R259) -/

/-- A job runs on the port, or is bound to it. -/
def portRuns (s : State) (g p : Nat) : Bool := s.work.any fun w => match w with | .copy j => j.grove == g && j.st == .running p | _ => false
def portBound (s : State) (g p : Nat) : Bool := s.work.any fun w => match w with | .copy j => j.grove == g && j.st == .bound p | _ => false

/-- A port in a world that the issuer may not use (R403). -/
def portBarred (s : State) (src : Src) (g p : Nat) : Bool := !src.secure && blockSecure s 2 (g * 4 + p)

/-- SBIND (R259). Binds a copy job to a stream-engine port.  Whether it transforms is not a field of the block: an
SBIND job is a copy. -/
def execSbind (d a b : Spec) (s : State) : Out State :=
  onCtls (.sbind d a b) s fun u pc s => do
    let j ← copyBlock s u pc (readG s u a) false
    let p := readG s u b
    if 3 < p then boundsR p
    else if portBarred s j.src u p then trapR cPERM dWORLD
    else if portBound s u p then .ok (writeG s u d 1)
    else
      let q := fresh s
      if portRuns s u p then .ok (writeG (addWork q.2 (.copy { j with id := q.1, st := .bound p })) u d 0)
      else
        let s := jobStart q.2 j
        .ok (writeG (addWork s (.copy { j with id := q.1, started := true, st := .running p })) u d 0)

/-- SCANCEL (R260). Stops every job whose tag lies in the mask. -/
def execScancel (a : Spec) (s : State) : Out State :=
  runInstr (.scancel a) s
    (withRegs (.scancel a) fun c f s => do
      let v ← readSpec s c f a
      let f ← addEntry f (.cmd (.scancel (v % 2 ^ 64)) none)
      .ok (putFiring s c f))
    fun u pc s => .ok (cancelJobs s (ctlSrc s u pc) (readG s u a))

/-- The footprint is ordered after that of an earlier job of the same frame or controller that overlaps it (R216). -/
def footWaits (s : State) (id : Nat) (src : Src) (foot : List Range) : Bool :=
  foot != [] && (outstanding s).any fun o => decide (o.id < id) && footOrdered o.src src && rangesMeet foot o.ranges

/-- The first of the grove's ports that runs nothing, holds no waiting job and may be used by the issuer, where there is one that may. -/
def freePort (s : State) (src : Src) (g : Nat) : Option Nat :=
  (List.range 4).find? fun p => !portRuns s g p && !portBound s g p && (!portBarred s src g p || (List.range 4).all (portBarred s src g))

/-- The port on which the job may start now: its own for a bound job, the next free one for the oldest queued job. -/
def startPort (s : State) (k : Nat) : Option Nat :=
  match workAt s k with
  | some (.copy j) => match j.st with
    | .bound p => if portRuns s j.grove p then none else some p
    | .queued =>
      let goes := fun (i : CopyJob) => queueRuns s i.src i.grove copyRoom
      if !goes j || ((s.work.take k).any fun w => match w with | .copy i => i.grove == j.grove && i.st == .queued && goes i | _ => false) then none
      else freePort s j.src j.grove
    | .running _ => none
  | _ => none

/-- COPY_JOB_START (R257). A queued or bound copy job starts on a stream-engine port; one that has no port of a world it may use
stops (R403). -/
def execCopyJobStart (s : State) : Out State :=
  match (turnArg s).bind fun k => (startPort s k).map fun p => (k, p) with
  | some (k, p) => match workAt s k with
    | some (.copy j) =>
      let s := if j.started then s else jobStart s j
      if portBarred s j.src j.grove p then .next (jobTrap (jobSettle (dropWork s k) { j with started := true }) { cause := cPERM, detail := dWORLD } j.src (some j.tag))
      else .next (setWork s k (.copy { j with started := true, st := .running p }))
    | _ => notPending "no job waits"
  | none => notPending "no job may start"

/-! ### Elements (R255, R258) -/

/-- The converted or copied value of an element: code, whether nf0 replaced it, and report (R240, R241, R255). -/
def copyValue (a b : Rec) (xform : Bool) (itag va v : Nat) : Nat × Nat × Rep :=
  if !xform then
    (match numFmt b.fmt with
      | some n => if b.nf0 && isFloatFmt b.fmt && n.nonFinite v then (0, 1, {}) else (v, 0, {})
      | none => (v, 0, {}))
  else match numFmt a.fmt, numFmt b.fmt with
    | some m, some n =>
      let x := m.decode v
      let mode := modeOfRecord b.round b.seed va itag
      if b.nf0 && !x.finite then
        let r := convert n mode (.fin false 0 0)
        (r.code, 1, r.rep)
      else
        let r := convert n mode x
        (r.code, 0, r.rep)
    | _, _ => (v, 0, {})

/-- Where an engine's job finds a part of an element, by a walk or through the entries of the engine's stream (R414). -/
def jobAt (s : State) (st : Option Stream) (src : Src) (k : Acs) (va n : Nat) : Except Trap (Nat × State) := match st with
  | some st => jobTranslate s st src k va n
  | none => (walkCheck s src k va n).map fun pa => (pa, s)

/-- Physical bits of parts of an element for a job, page by page: virtual byte, physical bit, bits, offset in the element. -/
def jobPages (st : Option Stream) (src : Src) (k : Acs) : State → List (Nat × Nat × Nat) → Except Trap (List (Nat × Nat × Nat × Nat) × State)
  | s, [] => .ok ([], s)
  | s, p :: ps => do
    let q ← jobAt s st src k (p.1 / 8) (byteSpan p.1 p.2.1)
    let r ← jobPages st src k q.2 ps
    .ok ((p.1 / 8, q.1 * 8 + p.1 % 8, p.2.1, p.2.2) :: r.1, r.2)

/-- Physical bits of an element for a job. -/
def jobParts (s : State) (st : Option Stream) (src : Src) (k : Acs) (b len : Nat) : Except Trap (List (Nat × Nat × Nat × Nat) × State) :=
  jobPages st src k s (elemParts b len)

/-- An element of a job read: none for OUTSIDE; ECCUNC for an uncorrectable error (R258). -/
def jobRead (s : State) (st : Option Stream) (src : Src) (r : Rec) (e : Nat) : Except Trap (Option Nat × State) := do
  match ← r.elem e with
  | .outside => .ok (none, s)
  | .at_ b =>
    let (ps, s) ← jobParts s st src .read b r.bits
    match ps.find? fun p => poisonedBits s p.2.1 p.2.2.1 with
    | some p => .error (cause cECCUNC 0 p.1)
    | none => .ok (some (ps.foldl (fun v p => v + readBits s p.2.1 p.2.2.1 * 2 ^ p.2.2.2) 0), s)

/-- An element of a job written; the address of a write that was dropped (R258, R441). -/
def jobWrite (s : State) (st : Option Stream) (src : Src) (r : Rec) (e v : Nat) : Except Trap (State × Option Nat) := do
  match ← r.elem e with
  | .outside => .ok (s, none)
  | .at_ b =>
    let (ps, s) ← jobParts s st src .copyDst b r.bits
    let q := writePieces s (ps.map fun p => (p.2.1, p.2.2.1, v >>> p.2.2.2 % 2 ^ p.2.2.1)) src.insn.toNat src.engine
    .ok (q.1, if q.2 = [] then none else ps.head?.map (·.1))

/-- The stream of the port on which a copy job runs (R414). -/
def CopyJob.stream (j : CopyJob) : Option Stream := match j.st with
  | .running p => some ⟨streamPort j.grove p, bufferKey j.grove⟩
  | _ => none

/-- One element of a copy job (R255). -/
def copyOne (s : State) (j : CopyJob) (src : Src) : Except Trap (State × CopyJob) := do
  let a := recOf j.srec
  let b := recOf j.drec
  let (x, s) ← jobRead s j.stream src a (j.sstart + j.moved)
  let va := match b.elem (j.dstart + j.moved) with | .ok (.at_ x) => x / 8 | _ => 0
  let w := copyValue a b j.xform (if src.kind = 3 then 0 else src.itag) va (x.getD 0)
  let q ← jobWrite s j.stream src b (j.dstart + j.moved) w.1
  .ok (q.1, { j with moved := j.moved + 1, flags := j.flags ||| w.2.2.flags, nf := satAdd j.nf w.2.2.nf, sat := satAdd j.sat w.2.2.sat, zeroed := satAdd j.zeroed w.2.1
                     drop := match j.drop with | some x => some x | none => q.2 })

/-- Elements of one burst of at most 4 KiB (R260). -/
def burstLen (j : CopyJob) : Nat := max 1 (32768 / max (recOf j.srec).bits (recOf j.drec).bits)

/-- A cancelled job has finished its current burst (R260). -/
def burstOver (j : CopyJob) : Bool := j.moved % burstLen j == 0

/-- The job's elements issue in the world of its port (R403). -/
def portSrc (s : State) (j : CopyJob) : Src := match j.st with
  | .running p => { j.src with secure := blockSecure s 2 (j.grove * 4 + p) }
  | _ => j.src

/-- The job may move its next element: its engine goes on, or finishes the burst that a PREEMPT found it in (R179). -/
def copyGoes (s : State) (j : CopyJob) : Bool := queueRuns s j.src j.grove copyRoom || ((getCfg s j.src.cfg).st == .preempting && !burstOver j)

/-- The job has elements to move, and no earlier job of its frame comes first on the overlap (R216). -/
def copyRuns (s : State) (k : Nat) : Bool :=
  match workAt s k with
  | some (.copy j) => (match j.st with | .running _ => true | _ => false) && j.moved < j.count && !(j.cancelled && burstOver j) && copyGoes s j && !footWaits s j.id j.src j.foot
  | _ => false

/-- COPY_ELEMENT (R255). A copy job reads and writes its next element; one that cannot be read or reached stops it (R258,
R415). -/
def execCopyElement (s : State) : Out State :=
  if !(turnArg s).elim false (copyRuns s) then notPending "no job moves elements"
  else match turnWork s with
    | some (k, .copy j) =>
      match copyOne s j (portSrc s j) with
      | .ok r => .next (setWork r.1 k (.copy r.2))
      | .error t => .next (jobTrap (jobSettle (dropWork s k) j) t j.src (some j.tag))
    | _ => notPending "no job moves elements"

/-- A running job that has moved everything, or was cancelled. -/
def copyEnds (s : State) (k : Nat) : Bool :=
  match workAt s k with
  | some (.copy j) => (match j.st with | .running _ => true | _ => false) && ((j.cancelled && burstOver j) || j.count ≤ j.moved)
  | _ => false

/-- The end of a copy job (R257, R258, R260, R298): flags and counts, barrier, tag; a job with a dropped write stops its frame,
a cancelled one only settles. -/
def copyComplete (s : State) (j : CopyJob) : State :=
  if j.cancelled then jobSettle s j
  else
    let rep : Rep := ⟨j.flags, j.nf, j.sat⟩
    let s := if j.src.kind = 3 then s else modFrame s j.src.cfg j.src.frame fun f => f.report rep
    -- elements that nf0 replaced count where R241 says, those that a conversion counts in the frame
    let s := if j.src.kind = 3 ∨ j.zeroed = 0 then s else countNonFinite s j.src (recOf j.drec).place j.zeroed
    let s := jobSettle s j
    match j.drop with
    | some va => jobTrap s { cause := cECCUNC, addr := va } j.src (some j.tag)
    | none => s

/-- A job that has ended leaves its port; its completion token is emitted now, behind what its route already carries (R22), unless it
was cancelled, dropped a write or its frame was skipped (R257, R258, R260, R435). -/
def copyLeave (s : State) (k : Nat) (j : CopyJob) : State := match j.tok with
  | some (dest, t) =>
    if j.cancelled || j.drop.isSome || (getFrame s t.cfg t.frame).skipped then dropWork s k else addWork (dropWork s k) (.token dest t)
  | none => dropWork s k

/-- COPY_JOB_COMPLETE (R257). A copy job completes, settling pending bytes, tag and completion token. -/
def execCopyJobComplete (s : State) : Out State :=
  if !(turnArg s).elim false (copyEnds s) then notPending "no job ends"
  else match turnWork s with
    | some (k, .copy j) => .next (copyComplete (copyLeave s k j) j)
    | _ => notPending "no job ends"

/-! ### TAG (R262) -/

/-- A TAG instruction that writes a result: `f` gives it from the tags and the operand.  After one that returns a tag complete (`sees`) the
copies' writes are seen (R215). -/
def tagInstr (i : Instr) (sees : Bool) (d a : Spec) (f : (Nat → Tag) → Nat → R Nat) (s : State) : Out State :=
  runInstr i s
    (withRegs i fun c fr s => do
      let v ← readSpec s c fr a
      let r ← f (getTag s (firingSrc s c fr)) (v % 2 ^ 64)
      let fr ← writeSpec s c fr d r
      .ok (putFiring (if sees then seeAll s c else s) c fr))
    fun u pc s => do
      let r ← f (getTag s (ctlSrc s u pc)) (readG s u a)
      .ok (writeG s u d r)

/-- The complete tags of a mask. -/
def completeMask (tags : Nat → Tag) (m : Nat) : Nat := ((maskTags m).filter fun k => (tags k).complete).foldl (fun v k => v + 2 ^ k) 0

/-- TWAITA (R262). Waits until every masked tag is complete. -/
def execTwaita (d a : Spec) (s : State) : Out State :=
  tagInstr (.twaita d a) true d a (fun tags m => if completeMask tags m = m then .ok m else .error .stall) s

/-- TWAITN (R262). Waits until any masked tag is complete. -/
def execTwaitn (d a : Spec) (s : State) : Out State :=
  tagInstr (.twaitn d a) true d a (fun tags m =>
    if m = 0 then boundsR 0 else if completeMask tags m = 0 then .error .stall else .ok (completeMask tags m)) s

/-- TFFR (R262). Returns the lowest complete masked tag without waiting. -/
def execTffr (d a : Spec) (s : State) : Out State :=
  tagInstr (.tffr d a) true d a (fun tags m => .ok (((maskTags m).find? fun k => (tags k).complete).getD 64)) s

/-- TCNT (R262). Reads one tag's count and issued bit. -/
def execTcnt (d a : Spec) (s : State) : Out State :=
  tagInstr (.tcnt d a) false d a (fun tags v =>
    if 63 < v then boundsR v else .ok ((tags v).count % 65536 + (if (tags v).issued then 2 ^ 32 else 0))) s

/-- TCLR (R262). Clears the issued bits of masked tags. -/
def execTclr (a : Spec) (s : State) : Out State :=
  runInstr (.tclr a) s
    (withRegs (.tclr a) fun c f s => do
      let v ← readSpec s c f a
      let m := v % 2 ^ 64
      if (maskTags m).any fun k => (getTag s (firingSrc s c f) k).count != 0 || ownOnTag f k != 0 then illop
      else do
        let f ← addEntry f (.cmd (.tclr m) none)
        .ok (putFiring s c f))
    fun u pc s =>
      let m := readG s u a
      let src := ctlSrc s u pc
      if (maskTags m).any fun k => (getTag s src k).count != 0 then illop else .ok (clearTags s src m)

/-! ### BAR (R264, R265) -/

/-- The barrier a firing names. -/
def cellBar (s : State) (c : Nat) (f : Firing) (k : Acs) (va : Nat) : R Nat :=
  barAddr s ⟨streamCell c, bufferKey (groveOf c)⟩ (firingSrc s c f) k (va % 2 ^ 64)

/-- The barrier a controller or core names. -/
def ctlBar (s : State) (u pc : Nat) (k : Acs) (va : Nat) : R Nat := barAddr s (ctlStream u) (ctlSrc s u pc) k va

/-- BARINIT, BARARV and BARADD: an entry of a firing, or at once for a controller, which waits for room (R264, R265) and faults
when its write is dropped (R441). -/
def barInstr (i : Instr) (op : Nat) (a : Spec) (b : Option Spec) (s : State) : Out State :=
  let count := fun (v : Option Nat) => match v with
    | none => (.ok 1 : R Nat)
    | some n => if n = 0 ∨ 65535 < n then boundsR n else .ok n
  runInstr i s
    (withRegs i fun c f s => do
      let va ← readSpec s c f a
      let v ← (match b with | some b => (readSpec s c f b).map fun x => some (x % 2 ^ 64) | none => (.ok none : R (Option Nat)))
      let pa ← cellBar s c f .barWrite va
      let n ← count v
      let f ← addEntry f (.cmd (.bar op pa n (va % 2 ^ 64)) none)
      .ok (putFiring s c f))
    fun u pc s => do
      let va := readG s u a
      let pa ← ctlBar s u pc .barWrite va
      let n ← count (b.map (readG s u ·))
      if barRoom s op pa n then
        let r := barWrite s op pa n (ctlSrc s u pc).insn.toNat
        .ok (if r.2 = [] then r.1 else takeCtlTrap r.1 u pc (cause cECCUNC 0 va))
      else .error .stall

/-- BARINIT (R264). Sets a barrier's target and zeroes its state. -/
def execBarinit (a b : Spec) (s : State) : Out State := barInstr (.barinit a b) 0 a (some b) s

/-- BARARV (R264). Sends one arrival to a barrier. -/
def execBararv (a : Spec) (s : State) : Out State := barInstr (.bararv a) 1 a none s

/-- BARADD (R264). Sends several arrivals to a barrier. -/
def execBaradd (a b : Spec) (s : State) : Out State := barInstr (.baradd a b) 1 a (some b) s

/-- W0 and W1 of a barrier object as a read event; their reserved bits read 0 (R3, R203). -/
def barRead (s : State) (va pa : Nat) : R (Nat × Nat) :=
  if poisonedRange s pa 16 then trapR cECCUNC 0 va else .ok (readWord s pa % 2 ^ 40, readWord s (pa + 8) % 2 ^ 36)

/-- A BARWAIT of a firing, or of a controller (firing 0), that expects phase `e`, at a barrier whose phase is `p` (R265): it goes
on at another phase or when the owner has released it, with the phase it returns; else it is entered among the waiters.  One whose page
is mapped elsewhere meanwhile waits there anew (R416). -/
def barPass (s : State) (who uid pa e p : Nat) : R (Nat × State) :=
  if 255 < e then boundsR e
  else match findWait s who uid with
    | some w =>
      if w.pa ≠ pa then .error (.redo (dropWait s who uid))
      else match w.got with
        | some g => .ok (g, dropWait s who uid)
        | none => .error .stall
    | none => if p = e then .error (.redo { s with barWaits := s.barWaits ++ [{ pa := pa, who := who, uid := uid, expected := e }] })
      else .ok (p, s)

/-- A firing that has seen a barrier's phases is preceded by those that arrived in the phases that are complete (R218). -/
def sawBarrier (s : State) (f : Firing) (pa : Nat) : Firing :=
  match tget [] s.barPast pa with
  | [] => f
  | l => { f with past := joinPast s f.past l }

/-- BARWAIT (R264). Waits until the barrier phase differs from the expected one. -/
def execBarwait (d a b : Spec) (s : State) : Out State :=
  runInstr (.barwait d a b) s
    (withRegs (.barwait d a b) fun c f s => do
      let va ← readSpec s c f a
      let e ← readSpec s c f b
      let pa ← cellBar s c f .barRead va
      let w ← barRead s (va % 2 ^ 64) pa
      let r ← barPass s c f.uid pa (e % 2 ^ 64) (barPhase w.1)
      let f ← writeSpec s c f d r.1
      .ok (putFiring (seeAll r.2 c) c (sawBarrier s f pa)))
    fun u pc s => do
      let pa ← ctlBar s u pc .barRead (readG s u a)
      let w ← barRead s (readG s u a) pa
      let r ← barPass s u 0 pa (readG s u b) (barPhase w.1)
      .ok (writeG r.2 u d r.1)

/-- BARTEST (R264). Reads a barrier object without waiting. -/
def execBartest (d a : Spec) (s : State) : Out State :=
  runInstr (.bartest d a) s
    (withRegs (.bartest d a) fun c f s => do
      let va ← readSpec s c f a
      let pa ← cellBar s c f .barRead va
      let w ← barRead s (va % 2 ^ 64) pa
      let f ← writeSpec s c f d (w.1 + w.2 * 2 ^ 64)
      .ok (putFiring (seeAll s c) c (sawBarrier s f pa)))
    fun u pc s => do
      let pa ← ctlBar s u pc .barRead (readG s u a)
      let w ← barRead s (readG s u a) pa
      .ok (writeG s u d w.1)

end Sys2Proof.Machine
end

