-- ==== Sys2Proof/Machine/Mesh.lean ====
section
/-! DEFINITION. Meshes (R267), placement states and local views (R269, R270), the steps of a conversion (R271) and what each
computes from the views of the devices of its axis (R270, R271), with the canonical reduction (R276, R277). -/

namespace Sys2Proof.Machine

/-! ### Mesh records (R267) -/

/-- A mesh record: number of axes, sizes of the four axes, address of the device table, linear index of this device. -/
structure Mesh where
  axes : Nat := 1
  sizes : List Nat := [1, 1, 1, 1]
  table : Nat := 0
  self : Nat := 0
  deriving DecidableEq, Repr

/-- The fields of a mesh record of 64 bytes. -/
def meshOf (w : Nat) : Mesh :=
  { axes := bits w 0 2 + 1, sizes := (List.range 4).map fun k => bits w (64 + 16 * k) 16, table := bits w 128 56, self := bits w 192 32 }

/-- Devices of a mesh. -/
def meshCount (sizes : List Nat) : Nat := sizes.foldl (· * ·) 1

/-- The record follows R267. -/
def meshOk (w : Nat) : Bool :=
  let m := meshOf w
  bits w 2 62 == 0 && bits w 184 8 == 0 && m.table % 4 == 0 && bits w 224 32 == 0 && bits w 256 256 == 0 &&
  (List.range 4).all (fun k => let z := m.sizes.getD k 0; if k < m.axes then z != 0 else z == 1) &&
  decide (meshCount m.sizes ≤ 262144) && decide (m.self < meshCount m.sizes)

/-- Coordinates of a linear index, axis 0 fastest, and back. -/
def coordsOf : List Nat → Nat → List Nat
  | [], _ => []
  | z :: zs, n => n % z :: coordsOf zs (n / z)
def linearOf : List Nat → List Nat → Nat
  | z :: zs, c :: cs => c + z * linearOf zs cs
  | _, _ => 0

/-- Bytes an engine or a unit of the device reads by walks: TRANSL, PERM or ECCUNC (R258, R415). -/
def jobBytes (s : State) (src : Src) (va n : Nat) : Except Trap Nat := do
  let ps ← (pageParts va n).mapM fun p => (walkCheck s src .read p.1 p.2).map fun pa => (p.1, pa, p.2)
  match partsPoison s ps with
  | some a => .error (cause cECCUNC 0 a)
  | none => .ok (readParts s ps)

/-- Bytes an engine or unit writes by walks; the first address of a write that was dropped (R441). -/
def jobPut (s : State) (src : Src) (va n v : Nat) : Except Trap (State × Option Nat) := do
  let ps ← (pageParts va n).mapM fun p => (walkCheck s src .copyDst p.1 p.2).map fun pa => (p.1, pa, p.2)
  let w := writePieces s (ps.map fun p => (p.2.1 * 8, p.2.2 * 8, v >>> ((p.1 - va) * 8) % 256 ^ p.2.2)) src.insn.toNat
  .ok (w.1, if w.2 = [] then none else some va)

/-- The device numbers of a mesh, by linear index. -/
def meshDevs (s : State) (src : Src) (m : Mesh) : Except Trap (List Nat) := do
  let n := meshCount m.sizes
  let v ← jobBytes s src m.table (4 * n)
  .ok ((List.range n).map fun i => bits v (32 * i) 18)

/-- The table's entry of this device is this device's number (R267). -/
def selfOk (s : State) (e : Nat) : Bool := match s.devnum with
  | some d => e == d
  | none => false

/-! ### Placement descriptors (R268, R269) -/

def dFmt (d : Nat) : Nat := bits d 51 5
def dAxes (d : Nat) : Nat := bits d 49 2 + 1
def dConv (d : Nat) : Bool := bit d 48
def dOrdf (d : Nat) : Bool := bit d 63
def dVersion (d : Nat) : Nat := bits d 32 16
def dLeaves (d : Nat) : Nat := bits d 16 16
def dStates (d : Nat) : Nat := bits d 0 16
def dExtents (d : Nat) : List Nat := [bits d 128 32, bits d 160 32, bits d 192 32, bits d 224 32]
def dView (d : Nat) : Nat := bits d 256 56
def dMesh (d : Nat) : Nat := bits d 320 56
def dNfcount (d : Nat) : Nat := bits d 64 32

/-- State of axis `k`, and log2 of its leaf count, in packed fields of four bits. -/
def stateAt (states k : Nat) : Nat := bits states (4 * k) 4
def leavesAt (leaves k : Nat) : Nat := 2 ^ bits leaves (4 * k) 4

def isShard (c : Nat) : Bool := 1 ≤ c && c ≤ 4
def isPending (c : Nat) : Bool := 5 ≤ c && c ≤ 7
def isHash (c : Nat) : Bool := 8 ≤ c && c ≤ 11

/-- Start and end of dimension `d`'s part on the axis `k` that shards it (R270). -/
def axisPart (ext sizes cs : List Nat) (d k : Nat) : Nat × Nat :=
  let n := ext.getD d 1
  let z := sizes.getD k 1
  let q := (n + z - 1) / z
  let c := cs.getD k 0
  (min n (c * q), min n ((c + 1) * q))

/-- Start and length of this device's part of dimension `d` (R270).  Between two steps of a conversion two axes may shard one
dimension; the part is then what both leave (log entry 16). -/
def partOf (ext sizes cs : List Nat) (states d : Nat) : Nat × Nat :=
  let r := ((List.range 4).filter fun k => stateAt states k == d + 1).foldl (fun r k =>
    let p := axisPart ext sizes cs d k
    (max r.1 p.1, min r.2 p.2)) (0, ext.getD d 1)
  (r.1, r.2 - r.1)

/-- Copies that the view stacks for axis `k` (R270). -/
def copiesOf (sizes : List Nat) (states leaves k : Nat) : Nat :=
  if isPending (stateAt states k) then leavesAt leaves k / sizes.getD k 1 else 1

/-- The radices of a view's element number, outermost first: copies of axes 0 to 3, then dimensions 3 to 0 (R270). -/
def viewShape (ext sizes cs : List Nat) (states leaves : Nat) : List Nat :=
  (List.range 4).map (copiesOf sizes states leaves) ++ [3, 2, 1, 0].map fun d => (partOf ext sizes cs states d).2

def shapeCount (sh : List Nat) : Nat := sh.foldl (· * ·) 1

/-- The digits of an element number, outermost first, and back. -/
def digitsOf (sh : List Nat) (e : Nat) : List Nat := (sh.foldr (fun z (r : List Nat × Nat) => (r.2 % z :: r.1, r.2 / z)) ([], e)).1
def numberOf (sh ds : List Nat) : Nat := (sh.zip ds).foldl (fun n p => n * p.1 + p.2) 0

/-- The placement is one that R270 refuses in a descriptor. -/
def placementRefused (fmt axes : Nat) (ext sizes cs : List Nat) (states leaves : Nat) : Bool :=
  let codes := (List.range 4).map (stateAt states)
  fmtBits fmt == 0 || codes.any (12 ≤ ·) ||
  (List.range 4).any (fun k => decide (axes ≤ k) && stateAt states k != 0) ||
  (List.range 4).any (fun d => 1 < codes.countP (· == d + 1)) ||
  (List.range 4).any (fun k => isPending (stateAt states k) &&
    (let z := sizes.getD k 1; 2 ^ Nat.log2 z != z || decide (leavesAt leaves k < z))) ||
  (codes.any isHash && (fmt != 17 || ext.getD 1 1 != 1 || ext.getD 2 1 != 1 || ext.getD 3 1 != 1)) ||
  (codes.any isPending && ! [8, 9, 10, 4, 5, 6].contains fmt) ||
  decide (2 ^ 43 < shapeCount (viewShape ext sizes cs states leaves) * fmtBits fmt)

/-- The change of one axis is one of R271. -/
def changeOk (a b : Nat) : Bool :=
  a == b || (isShard a && (b == 0 || isShard b)) || (isPending a && (b == 0 || isShard b)) || (isHash a && isHash b) || (a == 0 && isShard b)

/-- The kind of step of a changed axis (R271). -/
def stepKind (a b : Nat) : Nat :=
  if isShard a then (if b = 0 then 1 else 4) else if isPending a then (if b = 0 then 2 else 3) else if isHash a then 5 else 6

/-- The step reduces (R271). -/
def reduces (kind : Nat) : Bool := kind == 2 || kind == 3

/-- Steps that reduce, after which the counts of roots that no step brings to a device are exchanged by header-only packets (kind 8;
R277, R278, R467). -/
def withCounts (l : List (Nat × Nat)) : List (Nat × Nat) := match (l.filter fun q => reduces q.2).getLast? with
  | some q => l ++ [(q.1, 8)]
  | none => l

/-- The steps of a conversion: pending axes first, then the others, each in ascending order; a local copy when no axis
changes (R271). -/
def stepsOf (old new : Nat) : List (Nat × Nat) :=
  let ks := (List.range 4).filter fun k => stateAt old k != stateAt new k
  let ps := ks.filter fun k => isPending (stateAt old k)
  let rest := ks.filter fun k => !isPending (stateAt old k)
  if ks = [] then [(0, 7)] else withCounts ((ps ++ rest).map fun k => (k, stepKind (stateAt old k) (stateAt new k)))

/-- The states with axis `k` set to `c`. -/
def setState (states k c : Nat) : Nat := states - stateAt states k * 2 ^ (4 * k) + c * 2 ^ (4 * k)

/-- A dense array as a record (R272). -/
def denseRec (fmt base n : Nat) : Rec :=
  { round := 0, const := false, nf0 := false, transpose := false, zorder := false, bounds := 0, base := base, extent1 := 1, extent0 := n
    stride1 := 0, stride0 := if fmtBits fmt < 8 then 0 else ((fmtBits fmt / 8 : Nat) : Int), ztile := 0, seed := 0, seq := 0, place := 0, rsv := 0, fmt := fmt }

/-! ### The canonical reduction (R276) -/

/-- The operation of a pending state: 0 add, 1 max, 2 min. -/
def pendingOp (c : Nat) : Nat := c - 5

/-- A leaf: widened exactly to F32, or kept; its non-finite count. -/
def leafOf (fmt v : Nat) : Nat × Nat :=
  match numFmt fmt with
  | some (.flt f) => let x := f.decode v; ((convert (.flt fF32) .rne x).code, if x.finite then 0 else 1)
  | _ => (v, 0)

/-- Combine of two sibling subtrees: value and non-finite count. -/
def combine (fmt op : Nat) (a b : Nat × Nat) : Nat × Nat :=
  match numFmt fmt with
  | some (.int f) =>
    (match op with
      | 0 => (a.1 + b.1) % 2 ^ f.w
      | 1 => combineInt .max f.w f.signed a.1 b.1
      | _ => combineInt .min f.w f.signed a.1 b.1, a.2 + b.2)
  | _ =>
    let x := fF32.decode a.1
    let y := fF32.decode b.1
    if op = 0 then
      let r := addV fF32 .rne x y
      (r.code, a.2 + b.2 + (if x.finite && y.finite && !(fF32.decode r.code).finite then 1 else 0))
    else if x = .nan ∨ y = .nan then (fF32.nanCode, a.2 + b.2)
    else (minMaxCode fF32 (op == 1) a.1 b.1, a.2 + b.2)

/-- Tree over a list of `2^n` neighbouring subtrees. -/
def treeOf (fmt op : Nat) (l : List (Nat × Nat)) : Nat × Nat := (treeUp (combine fmt op) (Nat.log2 l.length) l).headD (0, 0)

/-- Tree(lo, 2^n) over partial sums, each a first leaf, the log2 of its leaves, and a value. -/
def treeFrom (fmt op : Nat) (ps : List (Nat × Nat × Nat × Nat)) : Nat → Nat → Option (Nat × Nat)
  | 0, lo => (ps.find? fun p => p.1 == lo && p.2.1 == 0).map (·.2.2)
  | n + 1, lo => match ps.find? fun p => p.1 == lo && p.2.1 == n + 1 with
    | some p => some p.2.2
    | none => match treeFrom fmt op ps n lo, treeFrom fmt op ps n (lo + 2 ^ n) with
      | some a, some b => some (combine fmt op a b)
      | _, _ => none

/-- A root rounded into the format once (R276). -/
def rootOf (fmt v : Nat) : Nat := match numFmt fmt with
  | some (.flt f) => (convert (.flt f) .rne (fF32.decode v)).code
  | _ => v

/-! ### Tuples (R369, R370, R373) -/

/-- The keys of a tuple slot, its id, and Mix over the keys. -/
def tupKeys (t : Nat) : List Nat := (List.range 4).map fun k => bits t (32 * k) 32
def tupId (t : Nat) : Nat := bits t 160 32
def tupState (t : Nat) : Nat := bits t 254 2
def mix32 (h : Nat) : Nat := mix (h % 2 ^ 32)
def keyHash (ks : List Nat) : Nat := ks.foldr (fun k h => mix32 (k ^^^ h)) 0

/-- Tuples in ascending order of keys and id. -/
def tupLe (a b : Nat) : Bool :=
  let f := fun t => tupKeys t ++ [tupId t]
  let rec go : List Nat → List Nat → Bool
    | x :: xs, y :: ys => x < y || (x == y && go xs ys)
    | _, _ => true
  go (f a) (f b)
def insertTup (x : Nat) : List Nat → List Nat
  | [] => [x]
  | y :: ys => if tupLe x y then x :: y :: ys else y :: insertTup x ys

/-- The coordinate on axis `k` of the device that owns an index value, among the axes that hash the same column (R373). -/
def hashCoord (sizes : List Nat) (states v k : Nat) : Nat :=
  let hs := (List.range 4).filter fun j => stateAt states j == stateAt states k
  let d := hs.foldl (fun n j => n * sizes.getD j 1) 1
  let below := (hs.filter (· < k)).foldl (fun n j => n * sizes.getD j 1) 1
  v % d / below % sizes.getD k 1

/-! ### One step on this device -/

/-- Width of an element on the wire: partial sums of floats travel as F32 (R278). -/
def wireBits (j : ConvJob) (partials : Bool) : Nat := if partials && (j.fmt == 9 || j.fmt == 10) then 32 else fmtBits j.fmt

/-- Some step from the current one on reduces: elements are held as F32 partials (R276). -/
def reducing (j : ConvJob) (t : Nat) : Bool := (j.steps.drop t).any fun q => reduces q.2

/-- The states at the start of step `t`. -/
def statesAt (j : ConvJob) (t : Nat) : Nat := (j.steps.take t).foldl (fun st q => if q.2 = 7 ∨ q.2 = 8 then st else setState st q.1 (stateAt j.newStates q.1)) j.oldStates

def ConvJob.coords (j : ConvJob) : List Nat := coordsOf j.sizes j.self

/-- The shape of the view of the device with coordinate `c` on axis `k`, under given states. -/
def shapeOn (j : ConvJob) (states k c : Nat) : List Nat := viewShape j.extents j.sizes (j.coords.set k c) states j.leaves

/-! ### The devices of a step, and its chunks (R271, R278) -/

/-- The axes along which a step exchanges: its own; for a SHUFFLE every axis whose part of the owner function it changes (R373). -/
def stepAxes (j : ConvJob) (t : Nat) : List Nat :=
  match j.steps[t]? with
  | some (k, 5) =>
    let st := statesAt j t
    (List.range 4).filter fun i => i == k || stateAt st i == stateAt st k || stateAt st i == stateAt (statesAt j (t + 1)) k
  | some (k, _) => [k]
  | none => []

/-- The coordinates of the devices that differ on some axes only, in order. -/
def lineCoords (sizes : List Nat) (axes cs : List Nat) : List (List Nat) :=
  axes.foldl (fun l i => l.flatMap fun c => (List.range (sizes.getD i 1)).map fun v => c.set i v) [cs]

/-- The coordinates of the devices of a step. -/
def stepLine (j : ConvJob) (t : Nat) : List (List Nat) := lineCoords j.sizes (stepAxes j t) j.coords

/-- Elements of a packet's payload of at most 4 KiB (R278). -/
def chunkLen (w : Nat) : Nat := 32768 / w

/-- The indices at which a part of dimension `d` begins under the states that step `t` and the later ones bring (R270). -/
def cutsOf (j : ConvJob) (t d : Nat) : List Nat :=
  ((List.range (j.steps.length + 1)).drop (t + 1)).flatMap fun u =>
    ((List.range 4).filter fun k => stateAt (statesAt j u) k == d + 1).flatMap fun k =>
      let z := j.sizes.getD k 1
      let q := (j.extents.getD d 1 + z - 1) / z
      (List.range z).map fun c => c * q

/-- Runs of equal keys, of at most `m` each. -/
def runLens (m : Nat) : List (List Nat) → List Nat
  | [] => []
  | a :: l => match runLens m l with
    | [] => [1]
    | r :: rs => if l.head? = some a ∧ r < m then (r + 1) :: rs else 1 :: r :: rs

/-- Steps up to `t` have reduced. -/
def reduced (j : ConvJob) (t : Nat) : Bool := (j.steps.take (t + 1)).any fun q => reduces q.2

/-- The numbers of elements of the chunks that the device at coordinates `cs` sends in step `t` (R278).  From the first reduction on no
chunk has elements on both sides of a boundary between parts of a later step, so that the count of its header is that of roots which
stay together (R467; log entry 16). -/
def chunkLens (j : ConvJob) (t : Nat) (cs : List Nat) : List Nat := match j.steps[t]? with
  | none => []
  | some (k, kind) =>
    let st := statesAt j t
    let sh := viewShape j.extents j.sizes cs st j.leaves
    let sh := if reduces kind then sh.set k 1 else sh
    let m := chunkLen (wireBits j (reduces kind))
    let n := shapeCount sh
    if reduced j t then
      let cuts := (List.range 4).map (cutsOf j t)
      let starts := (List.range 4).map fun d => (partOf j.extents j.sizes cs st d).1
      runLens m ((List.range n).map fun e =>
        let ds := digitsOf sh e
        (List.range 4).map fun d => ((cuts.getD d []).filter fun c => decide (c ≤ ds.getD (7 - d) 0 + starts.getD d 0)).length)
    else (List.range ((n + m - 1) / m)).map fun i => min m (n - i * m)

/-- The chunks that one device sends to another in step `t` at most, those of the device that sends the most of them, and a header of its
own; where no step has reduced that is the one with the largest part, at coordinate 0. -/
def stepPer (j : ConvJob) (t : Nat) : Nat := match j.steps[t]? with
  | none => 0
  | some (_, kind) =>
    if kind = 6 ∨ kind = 7 then 0
    else if kind = 8 then meshCount j.sizes
    else
      let all := if reduced j t then (List.range (meshCount j.sizes)).map (coordsOf j.sizes) else [[0, 0, 0, 0]]
      (all.map fun cs => (chunkLens j t cs).length).foldl max 0 + 1

/-- The first chunk index of step `t`: a job's chunks are numbered through its steps (R278).  The four parts of a SHUFFLE hold the
senders whose place needs more than the header's 16 bits. -/
def stepBase (j : ConvJob) (t : Nat) : Nat :=
  ((List.range t).map fun i => stepPer j i * (if (j.steps[i]?).map (·.2) = some 5 then 4 else 1)).sum

/-- The step of a chunk index, and its number in the step. -/
def chunkStep (j : ConvJob) (c : Nat) : Nat × Nat :=
  let t := ((List.range j.steps.length).filter fun t => stepBase j t ≤ c).getLast?.getD 0
  (t, c - stepBase j t)

/-- What this device sends in its current step: the roots of its own leaves for a reduction, else its view (R276, R278). -/
def sendData (j : ConvJob) : List (Nat × Nat) :=
  match j.steps[j.step]? with
  | none => []
  | some (k, kind) =>
    if reduces kind then
      let st := statesAt j j.step
      let sh := shapeOn j st k (j.coords.getD k 0)
      let out := sh.set k 1
      let op := pendingOp (stateAt j.oldStates k)
      (List.range (shapeCount out)).map fun e =>
        treeOf j.fmt op ((List.range (sh.getD k 1)).map fun i => j.data.getD (numberOf sh ((digitsOf out e).set k i)) (0, 0))
    else j.data

/-- Elements of a payload; the header's count travels with the first, and those of one chunk stay together (log entry 16). -/
def chunkElems (w n : Nat) (g : Got) : List (Nat × Nat) := (List.range n).map fun i => (lane w g.data i, if i = 0 then g.nf else 0)

/-- The last step that reduces, and its axis. -/
def lastReduction (j : ConvJob) : Option (Nat × Nat) := ((j.steps.zipIdx.filter fun q => reduces q.1.2).getLast?).map fun q => (q.2, q.1.1)

/-- The current step brings reduced elements of which its senders hold a part only: a header of its own brings the count of the
roots that are not in its data (R277, R467). -/
def countsApart (j : ConvJob) : Bool := match lastReduction j with
  | some (t, _) => (j.steps.take j.step).drop t |>.any fun q => q.2 == 3 || q.2 == 4 || q.2 == 6
  | none => false

/-- A chunk received in the current step from the device at place `p` of the line. -/
def gotChunk (j : ConvJob) (p i : Nat) : Option Got :=
  j.got.find? fun g => g.step == j.step && g.leaf == p % 65536 && g.chunk == p / 65536 * stepPer j j.step + i

/-- The elements received in the current step from the device at place `p`, and the count of their roots, when all its chunks are
there. -/
def gotFrom (j : ConvJob) (w p : Nat) (lens : List Nat) : Option (List (Nat × Nat) × Nat) := do
  let cs ← lens.zipIdx.mapM fun q => (gotChunk j p q.2).map fun g => (chunkElems w q.1 g, g.nf)
  let apart ← if countsApart j then (gotChunk j p lens.length).map (·.nf) else some 0
  some ((cs.map (·.1)).flatten, (cs.map (·.2)).sum + apart)

/-- The views of all devices of the step, this device's own among them, and the count that the others' headers bring. -/
def axisViews (j : ConvJob) : Option (List (List (Nat × Nat)) × Nat) :=
  ((stepLine j j.step).zipIdx.mapM fun q =>
    if q.1 = j.coords then some (j.data, 0)
    else gotFrom j (wireBits j false) q.2 (chunkLens j j.step q.1)).map fun l => (l.map (·.1), (l.map (·.2)).sum)

/-- Lists of given lengths, one after the other. -/
def splitLens : List Nat → List (Nat × Nat) → List (List (Nat × Nat))
  | [], _ => []
  | n :: ns, l => l.take n :: splitLens ns (l.drop n)

/-- The partial sums of chunk `i`: own and received. -/
def chunkPartials (j : ConvJob) (w k i : Nat) (own : List (Nat × Nat)) : List (Nat × Nat × List (Nat × Nat)) :=
  let per := leavesAt j.leaves k / j.sizes.getD k 1
  (j.coords.getD k 0 * per, Nat.log2 per, own) ::
    (j.got.filter fun g => g.step == j.step && g.chunk == i).map fun g => (g.leaf, g.span, chunkElems w own.length g)

/-- The roots of every element of a reduction step, when every subtree is there. -/
def axisRoots (j : ConvJob) (k : Nat) : Option (List (Nat × Nat)) :=
  let op := pendingOp (stateAt j.oldStates k)
  let span := Nat.log2 (leavesAt j.leaves k)
  ((splitLens (chunkLens j j.step j.coords) (sendData j)).zipIdx.mapM fun q =>
    let ps := chunkPartials j (wireBits j true) k q.2 q.1
    (List.range q.1.length).mapM fun e =>
      treeFrom j.fmt op (ps.map fun p => (p.1, p.2.1, p.2.2.getD e (0, 0))) span 0).map (·.flatten)

/-- Elements of a new view of given shape, each taken by `f` from its digits. -/
def pickView (sh : List Nat) (f : List Nat → Nat × Nat) : List (Nat × Nat) := (List.range (shapeCount sh)).map fun e => f (digitsOf sh e)
def countsOf (l : List (Nat × Nat)) : Nat := (l.map (·.2)).sum

/-- Start of dimension `d` in the view of the device with coordinate `c` on axis `k`, under given states. -/
def startOn (j : ConvJob) (states k c d : Nat) : Nat := (partOf j.extents j.sizes (j.coords.set k c) states d).1

/-- The digits, in the view under `st` of the device with coordinate `c` on axis `k`, of an element with digits `ds` in this
device's view under `st'`: both number the dimensions 3 to 0 after the copies. -/
def moveDigits (j : ConvJob) (st' st k c : Nat) (ds : List Nat) : List Nat :=
  (ds.zip [none, none, none, none, some 3, some 2, some 1, some 0]).map fun p => match p.2 with
    | none => p.1
    | some d => p.1 + startOn j st' k (j.coords.getD k 0) d - startOn j st k c d

/-- An element of this device's view under `st'`, from the views under `st` of an axis that shards dimension `d`. -/
def fromShards (j : ConvJob) (st' st k d : Nat) (views : List (List (Nat × Nat))) (ds : List Nat) : Nat × Nat :=
  let z := j.sizes.getD k 1
  let q := (j.extents.getD d 1 + z - 1) / z
  let c := (ds.getD (7 - d) 0 + startOn j st' k (j.coords.getD k 0) d) / q
  (views.getD c []).getD (numberOf (shapeOn j st k c) (moveDigits j st' st k c ds)) (0, 0)

/-- The axes along which the roots that devices know of differ when the steps are done: those that part the tensor at its last
reduction, but for those along which a later step gathers (R277, R467). -/
def spreadAxes (j : ConvJob) : List Nat := match lastReduction j with
  | none => []
  | some (t, k) =>
    let st := statesAt j (t + 1)
    (List.range 4).filter fun i => i != k && (isShard (stateAt st i) || isPending (stateAt st i)) && j.sizes.getD i 1 != 1 &&
      !(j.steps.drop (t + 1)).any fun q => q.1 == i && (q.2 == 1 || q.2 == 4)

/-- The device of a linear index that sends the count it knows of: coordinate 0 on every other axis. -/
def lineHead (j : ConvJob) (ax : List Nat) (i : Nat) : Nat :=
  linearOf j.sizes ((coordsOf j.sizes i).zipIdx.map fun p => if ax.contains p.2 then p.1 else 0)

/-- The count of the whole tensor, when the headers are there (R277). -/
def tensorCount (j : ConvJob) : Option Nat :=
  let ax := spreadAxes j
  let own := lineHead j ax j.self
  (((List.range (meshCount j.sizes)).filter fun i => lineHead j ax i == i).mapM fun i =>
    if i = own then some j.extra else (j.got.find? fun g => g.step == j.step && g.chunk == i).map (·.nf)).map List.sum

/-- The job after its current step, when what it needs is there; a trap abandons the job (R270's SHUFFLE). -/
def stepResult (j : ConvJob) : Except Trap (Option ConvJob) :=
  match j.steps[j.step]? with
  | none => .ok none
  | some (k, kind) =>
    let st := statesAt j j.step
    let st' := statesAt j (j.step + 1)
    let c := j.coords.getD k 0
    let sh := shapeOn j st k c
    let sh' := shapeOn j st' k c
    let keep := fun (l : List (Nat × Nat)) => Except.ok (some { j with data := l })
    if kind = 7 then keep j.data
    else if kind = 8 then .ok ((tensorCount j).map fun n => { j with extra := n })
    else if kind = 6 then keep (pickView sh' fun ds => j.data.getD (numberOf sh (moveDigits j st' st k c ds)) (0, 0))
    else if reduces kind then
      match axisRoots j k with
      | none => .ok none
      | some roots =>
        let out := sh.set k 1
        let vs := roots.map fun p => (if reducing j (j.step + 1) then p.1 else rootOf j.fmt p.1, p.2)
        .ok (some { j with
          extra := countsOf roots
          data := if kind = 2 then vs else pickView sh' fun ds => vs.getD (numberOf out (moveDigits j st' st k c ds)) (0, 0) })
    else match axisViews j with
      | none => .ok none
      | some views =>
        if kind = 1 ∨ kind = 4 then
          .ok (some { j with extra := j.extra + views.2, data := pickView sh' (fromShards j st' st k (stateAt st k - 1) views.1) })
        else
          let here := fun (t : Nat) => (stepAxes j j.step).all fun i =>
            hashCoord j.sizes st' ((tupKeys t).getD (stateAt st' i - 8) 0) i == j.coords.getD i 0
          let ts := (views.1.flatten.map (·.1)).filter fun t => tupState t == 1 && here t
          if j.extents.getD 0 0 < ts.length then .error (tBounds ts.length)
          else keep (((ts.foldr insertTup []) ++ List.replicate (j.extents.getD 0 0 - ts.length) 0).map fun t => (t, 0))

end Sys2Proof.Machine
end

