-- ==== Sys2Proof/Machine/Plc.lean ====
section
/-! DEFINITION. PLC: placement descriptors, demands and collective slots (R268, R271 to R274, R280, R281, R284 to R288). -/

namespace Sys2Proof.Machine

/-! ### Handles and ids (R284) -/

def handleR (v : Nat) : R Nat := if v = 0 ∨ 4095 < v then boundsR v else .ok v
def slotR (v : Nat) : R Nat := if 255 < v then boundsR v else .ok v

def getPlacement (s : State) (h : Nat) : Placement := tget {} s.placement h
def Placement.d (p : Placement) : Nat := p.desc.toNat

/-- A handle that another address space has defined (R268). -/
def foreignHandle (p : Placement) (asn : Nat) : Bool := p.defd && p.asn != asn

/-! ### PDEF and PQRY (R285) -/

/-- A descriptor block has a reserved or read-only bit set, or a value out of range. -/
def descBad (d : Nat) : Bool :=
  bits d 56 8 != 0 || dConv d || bits d 96 32 != 0 || bits d 312 8 != 0 || bits d 376 8 != 0 || bits d 440 7 != 0 || bits d 448 64 != 0 ||
  (dExtents d).any (· == 0) || dMesh d % 64 != 0 || bits d 384 56 % 32 != 0 ||
  (List.range 4).any fun k => decide (dAxes d ≤ k) && (stateAt (dStates d) k != 0 || stateAt (dLeaves d) k != 0)

/-- The mesh record of an instruction: ILLOP unless it follows R267 and names this device. -/
def meshRead (s : State) (rd : Nat → Nat → Nat → R Nat) (va : Nat) : R Mesh := do
  let w ← rd va 64 64
  if !meshOk w then illop
  else do
    let m := meshOf w
    let e ← rd (m.table + 4 * m.self) 4 4
    if selfOk s e then .ok m else illop

/-- The checks of PDEF (R285). -/
def pdefCheck (s : State) (asn : Nat) (rd : Nat → Nat → Nat → R Nat) (va h : Nat) : R (Nat × Mesh) := do
  let p := getPlacement s h
  if foreignHandle p asn then trapR cPERM
  else do
    let d ← rd va 64 64
    if descBad d then illop
    else do
      let m ← meshRead s rd (dMesh d)
      if m.axes ≠ dAxes d ∨ placementRefused (dFmt d) m.axes (dExtents d) m.sizes (coordsOf m.sizes m.self) (dStates d) (dLeaves d) then illop
      else if dConv p.d then trapR cPLACE 0 0 h
      else .ok (d, m)

/-- PDEF (R285). Writes a placement descriptor at commit. -/
def execPdef (a b : Spec) (s : State) : Out State :=
  runInstr (.pdef a b) s
    (withRegs (.pdef a b) fun c f s => do
      let va ← readSpec s c f a
      let v ← readSpec s c f b
      let h ← handleR (v % 2 ^ 64)
      let asn := (firingSrc s c f).asn
      let q ← pdefCheck s asn (cellBlock s c f) (va % 2 ^ 64) h
      let f ← addEntry f (.cmd (.pdef h (BitVec.ofNat 512 q.1) asn q.2.sizes q.2.self) none)
      .ok (putFiring s c f))
    fun u pc s => do
      let h ← handleR (readG s u b)
      let q ← pdefCheck s (getCtl s u).asn (ctlBlock s u pc) (readG s u a) h
      .ok (definePlacement s h (BitVec.ofNat 512 q.1) (getCtl s u).asn q.2.sizes q.2.self)

/-- PQRY (R285). Reads a placement descriptor. -/
def execPqry (d a : Spec) (s : State) : Out State :=
  let look := fun (s : State) (v asn : Nat) => do
    let h ← handleR v
    let p := getPlacement s h
    if foreignHandle p asn then (trapR cPERM : R Nat) else .ok (if p.defd then bits p.d 0 128 else 0)
  runInstr (.pqry d a) s
    (withRegs (.pqry d a) fun c f s => do
      let v ← readSpec s c f a
      let r ← look s (v % 2 ^ 64) (firingSrc s c f).asn
      let f ← writeSpec s c f d r
      .ok (putFiring s c f))
    fun u _ s => do
      let r ← look s (readG s u a) (getCtl s u).asn
      .ok (writeG s u d (bits r 0 64))

/-! ### Demands (R271, R272, R274) -/

/-- The conversions of a handle, in version order. -/
def convsOf (s : State) (h : Nat) : List ConvJob := s.work.filterMap fun w => match w with
  | .conv j => if j.handle = h then some j else none
  | _ => none

/-- States, view and version that a new demand starts from: those of the last queued version, or the current ones. -/
def lastVersion (s : State) (h : Nat) : Nat × Nat × Nat :=
  match (convsOf s h).getLast? with
  | some j => (j.newStates, j.target, j.version)
  | none => let d := (getPlacement s h).d; (dStates d, dView d, dVersion d)

/-- The demand is met by the last version, so that it joins it (R274). -/
def joins (s : State) (h states base : Nat) : Bool := let l := lastVersion s h; l.1 == states && l.2.1 == base

/-- The demand is met now. -/
def metNow (s : State) (h states base : Nat) : Bool := joins s h states base && (convsOf s h).isEmpty

/-- The strides of a record suit a dense view of elements of `width` bits (R272): an extent1 above 1 asks for rows of whole bytes; a
single row of sub-byte elements, of which stride1 reaches none, has stride1 rounded down (log entry 16). -/
def denseStrides (rc : Rec) (width : Nat) : Bool :=
  rc.stride0 == (if width < 8 then 0 else ((width / 8 : Nat) : Int)) && rc.stride1 == ((rc.extent0 * width / 8 : Nat) : Int) &&
  (decide (rc.extent1 ≤ 1) || rc.extent0 * width % 8 == 0)

/-- The checks of R271 and R272 against the last version; the footprint of the conversion. -/
def demandCheck (s : State) (src : Src) (h states : Nat) (rc : Rec) : Except Trap (List Range) :=
  let p := getPlacement s h
  let d := p.d
  let l := lastVersion s h
  let cs := coordsOf p.sizes p.self
  let count := fun st => shapeCount (viewShape (dExtents d) p.sizes cs st (dLeaves d))
  let bad : Trap := cause cILLOP 0 0 h
  if !(List.range 4).all fun k => changeOk (stateAt l.1 k) (stateAt states k) then .error bad
  else if placementRefused (dFmt d) (dAxes d) (dExtents d) p.sizes cs states (dLeaves d) then .error bad
  else if rc.const ∨ rc.fmt ≠ dFmt d ∨ rc.zorder ∨ rc.transpose ∨ rc.count ≠ count states then .error bad
  else if !denseStrides rc (fmtBits rc.fmt) then .error bad
  else
    let old := denseRec (dFmt d) l.2.1 (count l.1)
    if regionsMeet old.region rc.region then .error bad
    else match recFoot s src .copyDst rc with
      | .error t => .error (if t.cause = cPERM ∧ (t.detail = dCONST ∨ t.detail = dBARRIERPAGE) then bad else t)
      | .ok w => (recFoot s src .read old).map fun r => r ++ w

/-- What a demanding instruction checks first (R286): the handle of the record, defined, of this address space, and without
an order fault. -/
def demandHandle (s : State) (src : Src) (rc : Rec) : R Nat :=
  let h := rc.place
  let p := getPlacement s h
  if h = 0 then illop
  else if !p.defd then trapR cILLOP 0 0 h
  else if foreignHandle p src.asn then trapR cPERM
  else if dOrdf p.d then trapR cPLACE 0 0 h
  else .ok h

/-- The footprint of the version a demand makes; none when it joins one. -/
def demandFoot (s : State) (src : Src) (h states : Nat) (rc : Rec) : R (Option (List Range)) :=
  if joins s h states rc.base then .ok none else liftTrap ((demandCheck s src h states rc).map some)

/-- The check of a demand's footprint: demands of one handle wait for each other and do not conflict (R274). -/
def demandJob (src : Src) (h : Nat) (foot : List Range) : InFlight := ⟨0, src, .job, foot, 3, 0, h⟩

/-- The demand of a firing enters its buffer, with the check of a new version's footprint. -/
def cellDemand (s : State) (c : Nat) (f : Firing) (d : Demand) (held : Option Nat) : R State := do
  let f ← addEntry f (.cmd (.demand d) held)
  .ok (if d.foot = [] then putFiring s c f else sendCheck (putFiring s c f) (demandJob d.src d.handle d.foot))

/-- PLD_CELL (R286). Cell form: a load that demands a placement, starting a conversion if needed. -/
def execPldCell (d a b : Spec) (s : State) : Out State :=
  onCells (.pldCell d a b) s <| withRegs (.pldCell d a b) fun c f s => do
    let x := getCell s c
    let v ← readSpec s c f a
    if (heldIdx d).isNone ∧ d.toNat ≠ 44 then illop
    else if bits v 80 16 ≠ 0 then boundsR (bits v 80 16)
    else do
      let rc ← useRecord x f.ctx b.toNat false
      let src := firingSrc s c f
      let h ← demandHandle s src rc
      let states := bits v 64 16
      let foot ← demandFoot s src h states rc
      let m := memOf s c f
      let l ← elemsAt rc (vecOffs (vecLen rc.bits) v)
      let ps ← allPieces s m.st m.src .read rc.bits (fun _ => 0) l
      match heldIdx d with
      | none => cellDemand s c f { src := src, handle := h, states := states, rcd := x.record f.ctx b.toNat, foot := foot.getD [] } none
      | some k => do
        writeWait s c f k
        if metNow s h states rc.base then do
          let v ← loadCore s m .ld rc v
          let f ← addEntry f (.fill k (if v.err.isSome then 0 else BitVec.ofNat 512 v.value) v.err.isSome)
          sentWatched (putFiring (sendLoad s m v 3) c f) c f false v.pieces
        else do
          let d : Demand :=
            { src := src, handle := h, states := states, rcd := x.record f.ctx b.toNat, held := some k, load := true, e := bits v 0 64
              foot := foot.getD [] }
          let t ← cellDemand s c f d (some k)
          sentWatched t c f false ps

/-- The control of a PCONV (R287): demand and tag from lanes 0 and 1. -/
def pconvControl (v : Nat) : R (Nat × Option Nat) :=
  if bits v 16 16 ≠ 0 then boundsR (lane 32 v 0)
  else if bits v 39 25 ≠ 0 then boundsR (lane 32 v 1)
  else .ok (bits v 0 16, if bit v 38 then some (bits v 32 6) else none)

/-- One more job on the tag is not beyond its count (R256). -/
def tagRoom (s : State) (src : Src) (tag : Option Nat) (own : Nat → Nat) : R Unit := match tag with
  | some k => if 65535 < (getTag s src k).count + own k + 1 then boundsR ((getTag s src k).count + own k + 1) else .ok ()
  | none => .ok ()

/-- PCONV_CELL (R287). Cell form: demands a placement without loading. -/
def execPconvCell (a b : Spec) (s : State) : Out State :=
  onCells (.pconvCell a b) s <| withRegs (.pconvCell a b) fun c f s => do
    let x := getCell s c
    let v ← readSpec s c f a
    let q ← pconvControl v
    let rc ← useRecord x f.ctx b.toNat false
    let src := firingSrc s c f
    let h ← demandHandle s src rc
    let foot ← demandFoot s src h q.1 rc
    tagRoom s src q.2 (ownOnTag f)
    cellDemand s c f { src := src, handle := h, states := q.1, rcd := x.record f.ctx b.toNat, tag := q.2, foot := foot.getD [] } none

/-- The demand with an identity has not landed. -/
def demandPending (s : State) (id : Nat) : Bool := s.work.any fun w => match w with | .demand d | .waiting d => d.id == id | _ => false

/-- The address of a controller's PLD is computed when it executes (R286). -/
def pldReach (s : State) (u : Nat) (src : Src) (rc : Rec) (e : Nat) : R Unit :=
  match rc.elem e with
  | .error t => .error (.trap t)
  | .ok .outside => .ok ()
  | .ok (.at_ b) => do
    let _ ← elemPieces s (ctlStream u) src .read 0 b rc.bits 0
    .ok ()

/-- The load of a controller's PLD (R286): one element of at most 64 bits, zero-extended. -/
def pldLoad (s : State) (u : Nat) (src : Src) (rc : Rec) (e : Nat) (d : Spec) : R State :=
  match rc.elem e with
  | .error t => .error (.trap t)
  | .ok .outside => .ok (writeG (modCtl s u fun x => { x with pld := none }) u d 0)
  | .ok (.at_ b) => do
    let ps ← elemPieces s (ctlStream u) src .read 0 b rc.bits 0
    match anyPoison s ps with
    | some va => trapR cECCUNC 0 va
    | none => do
      checkNow s ⟨0, src, .load, rangesOf ps false, 3, 0, 0⟩
      .ok (writeG (modCtl s u fun x => { x with pld := none }) u d ((elemValues s [] 1 ps).getD 0 0))

/-- PLD_CTRL (R286). Controller form: waits for the placement and loads one element. -/
def execPldCtrl (d a : Spec) (s : State) : Out State :=
  onCtls (.pldCtrl d a) s fun u pc s => do
    let v ← ctlBlock s u pc (readG s u a) 48 32
    let w := BitVec.ofNat 256 (bits v 0 256)
    blockRecord w false
    let rc := recOf w
    let src := ctlSrc s u pc
    if bits v 336 48 ≠ 0 then boundsR (bits v 336 48)
    else if 64 < rc.bits then illop
    else match (getCtl s u).pld with
      | some id => if demandPending s id then .error .stall else pldLoad s u src rc (bits v 256 64) d
      | none => do
        let h ← demandHandle s src rc
        let states := bits v 320 16
        let foot ← demandFoot s src h states rc
        pldReach s u src rc (bits v 256 64)
        if metNow s h states rc.base then pldLoad s u src rc (bits v 256 64) d
        else do
          checkNow s (demandJob src h (foot.getD []))
          let id := s.nextId
          let d : Demand := { src := src, handle := h, states := states, rcd := w, load := true, foot := foot.getD [] }
          .error (.redo (enterDemand (modCtl s u fun x => { x with pld := some id }) d))

/-- PCONV_CTRL (R287). Controller form: demands a placement from a block. -/
def execPconvCtrl (a : Spec) (s : State) : Out State :=
  onCtls (.pconvCtrl a) s fun u pc s => do
    let v ← ctlBlock s u pc (readG s u a) 48 32
    let w := BitVec.ofNat 256 (bits v 0 256)
    blockRecord w false
    let q ← pconvControl (bits v 256 128)
    let src := ctlSrc s u pc
    let h ← demandHandle s src (recOf w)
    let foot ← demandFoot s src h q.1 (recOf w)
    tagRoom s src q.2 fun _ => 0
    checkNow s (demandJob src h (foot.getD []))
    .ok (enterDemand s { src := src, handle := h, states := q.1, rcd := w, tag := q.2, foot := foot.getD [] })

/-! ### Collective slots (R280, R281, R288) -/

def getSlot (s : State) (k : Nat) : Slot := tget {} s.slots k

/-- Kind, operation, axis, leaf, mesh address and completion word of a slot's block, and its two records. -/
def Slot.c0 (x : Slot) : Nat := bits x.block.toNat 512 64
def Slot.kind (x : Slot) : Nat := bits x.c0 0 4
def Slot.op (x : Slot) : Nat := bits x.c0 4 2
def Slot.axis (x : Slot) : Nat := bits x.c0 6 2
def Slot.leaf (x : Slot) : Nat := bits x.c0 8 4
def Slot.mesh (x : Slot) : Nat := bits x.block.toNat 576 56
def Slot.target (x : Slot) : Nat := bits x.block.toNat 640 64
def Slot.srec (x : Slot) : BitVec 256 := BitVec.ofNat 256 (bits x.block.toNat 0 256)
def Slot.drec (x : Slot) : BitVec 256 := BitVec.ofNat 256 (bits x.block.toNat 256 256)

/-- Element counts of source and destination suit the collective on an axis of size `z` (R280). -/
def collCounts (kind n1 n2 z leaves : Nat) : Bool := match kind with
  | 1 => n2 == n1 * z
  | 2 => leaves % z == 0 && n1 == n2 * (leaves / z)
  | 3 => n1 == n2 * leaves
  | 4 => n1 == n2 && n1 % z == 0
  | _ => false

/-- The checks of CDEF (R280, R288): the block, its records, its control. -/
def cdefCheck (s : State) (src : Src) (rd : Nat → Nat → Nat → R Nat) (va : Nat) : R (BitVec 1024) := do
  let v ← rd va 128 32
  let x : Slot := { block := BitVec.ofNat 1024 v }
  blockRecord x.srec false
  blockRecord x.drec false
  let a := recOf x.srec
  let b := recOf x.drec
  if bits x.c0 12 52 ≠ 0 ∨ bits v 632 8 ≠ 0 ∨ bits v 696 7 ≠ 0 ∨ bits v 640 56 % 32 ≠ 0 ∨ bits v 704 320 ≠ 0 ∨ x.op = 3 ∨ x.kind = 0 ∨ 4 < x.kind
      ∨ x.mesh % 64 ≠ 0 ∨ a.fmt ≠ b.fmt then illop
  else do
    let m ← meshRead s rd x.mesh
    let z := m.sizes.getD x.axis 1
    let red := x.kind = 2 ∨ x.kind = 3
    if m.axes ≤ x.axis ∨ !collCounts x.kind a.count b.count z (2 ^ x.leaf) then illop
    else if red ∧ (2 ^ Nat.log2 z ≠ z ∨ 2 ^ x.leaf < z ∨ ! [8, 9, 10, 4, 5, 6].contains a.fmt) then illop
    else do
      let _ ← liftTrap (recFoot s src .read a)
      let _ ← liftTrap (recFoot s src .copyDst b)
      .ok x.block

/-- Entries of a firing start the slot when they commit. -/
def startsSlot (f : Firing) (k : Nat) : Bool := f.out.any fun e => match e with
  | .cmd (.cstart j _) _ => j == k
  | _ => false

/-- A firing under way, on any cell, starts the slot when it commits (R281). -/
def startPending (s : State) (k : Nat) : Bool := s.cells.any fun e => match e.2.firing with
  | some f => f.phase != .committing && startsSlot f k
  | none => false

/-- The slot may be started or defined anew (R281). -/
def slotFree (s : State) (k : Nat) : R Unit := if !(getSlot s k).finished || startPending s k then trapR cCOLLREUSE else .ok ()

/-- CDEF (R288). Fills a collective slot at commit. -/
def execCdef (a b : Spec) (s : State) : Out State :=
  runInstr (.cdef a b) s
    (withRegs (.cdef a b) fun c f s => do
      let va ← readSpec s c f a
      let v ← readSpec s c f b
      let k ← slotR (v % 2 ^ 64)
      slotFree s k
      let src := firingSrc s c f
      let w ← cdefCheck s src (cellBlock s c f) (va % 2 ^ 64)
      let f ← addEntry f (.cmd (.cdef k w src.asn) none)
      .ok (putFiring s c f))
    fun u pc s => do
      let k ← slotR (readG s u b)
      slotFree s k
      let src := ctlSrc s u pc
      let w ← cdefCheck s src (ctlBlock s u pc) (readG s u a)
      .ok (defineSlot s k w src.asn)

/-- The footprint of a slot's next instance (R282). -/
def slotFoot (s : State) (src : Src) (x : Slot) : R (List Range) := do
  let f1 ← liftTrap (recFoot s { src with asn := x.asn } .read (recOf x.srec))
  let f2 ← liftTrap (recFoot s { src with asn := x.asn } .copyDst (recOf x.drec))
  .ok (f1 ++ f2)

/-- CSTART (R288). Starts the next instance of a collective slot; a slot that no CDEF has filled is refused with ILLOP. -/
def execCstart (d a : Spec) (s : State) : Out State :=
  runInstr (.cstart d a) s
    (withRegs (.cstart d a) fun c f s => do
      let v ← readSpec s c f a
      let k ← slotR (v % 2 ^ 64)
      slotFree s k
      let x := getSlot s k
      if !x.defd then illop
      else do
        let src := firingSrc s c f
        let foot ← slotFoot s src x
        let f ← writeSpec s c f d ((x.inst + 1) % 65536)
        let f ← addEntry f (.cmd (.cstart k foot) none)
        .ok (sendJobCheck (putFiring s c f) src foot 3))
    fun u pc s => do
      let k ← slotR (readG s u a)
      slotFree s k
      let x := getSlot s k
      if !x.defd then illop
      else do
        let src := ctlSrc s u pc
        let foot ← slotFoot s src x
        checkNow s (jobCheck src foot 3)
        .ok (startSlot (writeG s u d ((x.inst + 1) % 65536)) src k foot)

/-- The result of CWAIT and CPOLL (R288). -/
def slotResult (x : Slot) : Nat := min x.nf 0xFFFFFFFF * 2 ^ 32 + (if x.nf = 0 then 0 else 2 ^ 17) + (if x.done then 2 ^ 16 else 0) + x.inst

/-- CWAIT and CPOLL: `wait` says whether an unfinished slot is waited for.  One that returns done has the instance's writes seen (R282). -/
def slotInstr (i : Instr) (wait : Bool) (d a : Spec) (s : State) : Out State :=
  let look := fun (s : State) (v : Nat) => do
    let k ← slotR v
    let x := getSlot s k
    if wait && !x.finished then (.error .stall : R Nat) else .ok (slotResult x)
  runInstr i s
    (withRegs i fun c f s => do
      let v ← readSpec s c f a
      let r ← look s (v % 2 ^ 64)
      let f ← writeSpec s c f d r
      .ok (putFiring (if bit r 16 then seeAll s c else s) c f))
    fun u _ s => do
      let r ← look s (readG s u a)
      .ok (writeG s u d r)

/-- CWAIT (R288). Waits until a slot is finished. -/
def execCwait (d a : Spec) (s : State) : Out State := slotInstr (.cwait d a) true d a s

/-- CPOLL (R288). Reads a slot's status without waiting. -/
def execCpoll (d a : Spec) (s : State) : Out State := slotInstr (.cpoll d a) false d a s

end Sys2Proof.Machine
end

