-- ==== Sys2Proof/Machine/Conv.lean ====
section
/-! DEFINITION. The placement unit and the edge streamers (R270 to R283, R443, R466, R467): demands, conversions, collective
instances, packets, completion records. -/

namespace Sys2Proof.Machine

/-! ### Completion records (R165, R268, R279) -/

/-- The machine writes a record of words at a virtual address, in one event; nothing is written where it may not be. -/
def putRecord (s : State) (src : Src) (va : Nat) (ws : List Nat) : State :=
  match jobPut s { src with kind := 3, user := false, insn := 0 } va (8 * ws.length) (ofLanes 64 ws) with
  | .ok r => r.1
  | .error _ => s

/-- A completion record under a word that names target and irq (R165, R268); the interrupt is MSI-X vector 0 (R456).  A record that may
not be written raises its interrupt all the same, and nothing reports it (log entry 57). -/
def completionRecord (s : State) (src : Src) (w : Nat) (ws : List Nat) : State :=
  if bits w 0 56 = 0 then s
  else
    let s := putRecord s src (bits w 0 56) ws
    if bit w 63 then { s with msix := tmod 0 s.msix 0 (· + 1) } else s

/-! ### Packets (R278) -/

/-- The header of a packet.  Its route delivers at the next device (log entry 16). -/
def packetHeader (seqno id final origin sig chunk cls fmt nf span leaf : Nat) : BitVec 512 :=
  BitVec.ofNat 512 (ofLanes 64
    [seqno % 65536 * 2 ^ 48 + id % 4096 * 2 ^ 36 + final % 2 ^ 18 * 2 ^ 18 + origin % 2 ^ 18, sig,
     chunk % 2 ^ 24 * 2 ^ 40 + cls * 2 ^ 37 + fmt * 2 ^ 32 + min nf 0xFFFFFFFF, span * 65536 + leaf % 65536, 0x30002000, 0, 0, 0])

def Packet.w (p : Packet) (k : Nat) : Nat := bits p.header.toNat (64 * k) 64
def Packet.seqno (p : Packet) : Nat := bits (p.w 0) 48 16
def Packet.id (p : Packet) : Nat := bits (p.w 0) 36 12
def Packet.final (p : Packet) : Nat := bits (p.w 0) 18 18
def Packet.origin (p : Packet) : Nat := bits (p.w 0) 0 18
def Packet.chunk (p : Packet) : Nat := bits (p.w 2) 40 24
def Packet.cls (p : Packet) : Nat := bits (p.w 2) 37 3

/-- This device's number on the fabric. -/
def ownDev (s : State) : Nat := s.devnum.getD 0

/-- The next entry of a packet's route (R278): its code and its port or node. -/
def Packet.hop (p : Packet) : Nat × Nat := (bits (p.w 4) 12 4, bits (p.w 4) 0 12)

/-- A packet leaves on a port; nothing leaves on one that is down. -/
def sendOut (s : State) (port : Nat) (header : BitVec 512) (payload : List Byte) : State :=
  if (getLink s port).up then
    let p : Packet := { port := port, header := header, payload := payload }
    modLink { s with egress := s.egress ++ [p] } port fun l => sendOn port s.timens.toNat l p
  else s

/-- A packet leaves on the port that leads to a device. -/
def sendPacket (s : State) (final : Nat) (header : BitVec 512) (payload : List Byte) : State :=
  sendOut s (Config.portOf final % 32) header payload

/-- A payload of elements of `w` bits. -/
def payloadOf (w : Nat) (l : List (Nat × Nat)) : List Byte :=
  (leBytes ((l.length * w + 7) / 8) (ofLanes w (l.map (·.1)))).map (BitVec.ofNat 8)

/-- The device at coordinates of the job's mesh. -/
def ConvJob.dev (j : ConvJob) (cs : List Nat) : Nat := j.devs.getD (linearOf j.sizes cs) 0

/-- The devices to which the current step sends. -/
def stepDests (j : ConvJob) : List Nat :=
  match j.steps[j.step]? with
  | none => []
  | some (_, kind) =>
    if kind = 6 ∨ kind = 7 then []
    else if kind = 8 then
      let ax := spreadAxes j
      if ax = [] ∨ lineHead j ax j.self ≠ j.self then [] else (j.devs.zipIdx.filter fun d => lineHead j ax d.2 ≠ j.self).map (·.1)
    else ((stepLine j j.step).filter (· ≠ j.coords)).map j.dev

/-- The packets that one device gets in the current step (R271, R278): chunks of the data, each with the count of its roots (R467), and
where the device knows of more roots than it sends a header with the count of the others (R277); in the last step a header with its
count. -/
def stepPackets (s : State) (j : ConvJob) (final : Nat) : List (BitVec 512 × List Byte) :=
  match j.steps[j.step]? with
  | none => []
  | some (k, kind) =>
    let base := stepBase j j.step
    let header := packetHeader j.version j.handle final (ownDev s) j.sig
    if kind = 8 then [(header (base + j.self) 3 j.fmt j.extra 0 0, [])]
    else
      let red := reduces kind
      let w := wireBits j red
      let per := leavesAt j.leaves k / j.sizes.getD k 1
      let place := (stepLine j j.step).idxOf j.coords
      let span := if red then Nat.log2 per else 0
      let leaf := if red then j.coords.getD k 0 * per else place
      let base := if red then base else base + place / 65536 * stepPer j j.step
      let fmt := if w = 32 ∧ isFloatFmt j.fmt then 8 else j.fmt
      let cs := splitLens (chunkLens j j.step j.coords) (sendData j)
      cs.zipIdx.map (fun q => (header (base + q.2) (if red then 1 else 0) fmt (countsOf q.1) span leaf, payloadOf w q.1)) ++
        (if !red && countsApart j then [(header (base + cs.length) 3 j.fmt (j.extra - countsOf (sendData j)) span leaf, [])] else [])

/-- The step's packets leave. -/
def sendStep (s : State) (j : ConvJob) : State :=
  (stepDests j).foldl (fun s d => (stepPackets s j d).foldl (fun s q => sendPacket s d q.1 q.2) s) s

/-! ### The devices of a job (R267) -/

/-- The mesh record of a job as it stands at its start; none when it no longer names this device (R267). -/
def jobMesh (s : State) (src : Src) (va : Nat) : Except Trap (Option (Mesh × List Nat)) := do
  let w ← jobBytes s src va 64
  if !meshOk w then .ok none
  else do
    let m := meshOf w
    let ds ← meshDevs s src m
    .ok (if selfOk s (ds.getD m.self 0) then some (m, ds) else none)

/-- The devices of a job: those it found when it started, or as its mesh record names them now. -/
def jobDevs (s : State) (coll : Bool) (j : ConvJob) : List Nat :=
  if j.devs ≠ [] then j.devs
  else match jobMesh s j.src (if coll then (getSlot s j.handle).mesh else j.mesh) with
    | .ok (some (_, ds)) => ds
    | _ => []

/-- The port of a job's edge streamer: the one that leads to its first other device; port 0 for a job without one (log entry 21). -/
def jobPort (s : State) (coll : Bool) (j : ConvJob) : Nat := match (jobDevs s coll j).find? (· != ownDev s) with
  | some d => Config.portOf d % 32
  | none => 0

/-! ### Abandonment (R275, R443) -/

/-- An abort packet's payload names the cause with which the waiting frames stop, and its detail; none for an order fault
(log entry 16). -/
def abortPayload (t : Trap) (order : Bool) : List Byte := if order then [] else [BitVec.ofNat 8 t.cause, BitVec.ofNat 8 t.detail]

/-- Abort packets leave for every other device of the job, started or not, and for those that are known to hold it. -/
def sendAborts (s : State) (coll : Bool) (j : ConvJob) (t : Trap) (order : Bool) (known : List Nat := []) : State :=
  ((jobDevs s coll j ++ known).eraseDups.filter (· ≠ ownDev s)).foldl (fun s d =>
    sendPacket s d (packetHeader j.version j.handle d (ownDev s) j.sig 0 2 j.fmt 0 0 0) (abortPayload t order)) s

/-- The descriptor of a handle with bits set or cleared. -/
def modDesc (s : State) (h : Nat) (f : Nat → Nat) : State :=
  { s with placement := tmod {} s.placement h fun p => { p with desc := BitVec.ofNat 512 (f p.d) } }

/-- Replace a bit field of a number. -/
def putBits (x lo len v : Nat) : Nat := x - bits x lo len * 2 ^ lo + v % 2 ^ len * 2 ^ lo

/-- The tag of a demand that ends without its version is counted complete (R274, R275). -/
def endDemandTag (s : State) (d : Demand) : State := match d.tag with
  | some k => tagEnd s d.src k
  | none => s

/-- A demand that an abandoned version, or a failed check, ends (R274, R275): its frame stops, with both signatures when
there are two; a tag is counted complete; a PLD that a controller waits with faults there. -/
def failDemand (s : State) (d : Demand) (t : Trap) (sig psig : Nat) : State :=
  let s := endDemandTag s d
  if d.src.kind = 3 then
    let x := getCtl s d.src.who
    if d.load then
      if x.pld = some d.id ∧ x.mode = .running then takeCtlTrap s d.src.who x.pc t else s
    else jobTrap s t d.src d.tag
  else stopFrame s (frameRecord s kJOB t d.src { tag := d.tag, job := d.src.insn.toNat, sig := sig, psig := psig })

/-- The packet's route combines it with its sibling subtree at a node of this device (R278). -/
def Packet.combines (p : Packet) : Bool := p.hop.1 == 1 && p.cls == 1

/-- The packet goes on: its route says so, or it is for another device and no node combines it (R278). -/
def packetPasses (s : State) (p : Packet) : Bool := p.hop.1 == 0 || (p.final != ownDev s && !p.combines)

/-- The handle is barred by an order fault (R275). -/
def orderFault (s : State) (h : Nat) : Bool := (tget {} s.placement h).d.testBit 63

/-- The demands of an abandoned version fail in the order of their commits: one frame stops once, named by its first (R423, R426), and
the tags of its others are counted complete. -/
def failDemands (s : State) (t : Trap) (sig psig : Nat) : List Demand → List (Nat × Nat) → State
  | [], _ => s
  | d :: ds, seen =>
    if d.src.kind ≠ 3 ∧ seen.contains (d.src.cfg, d.src.frame) then failDemands (endDemandTag s d) t sig psig ds seen
    else failDemands (failDemand s d t sig psig) t sig psig ds (if d.src.kind = 3 then seen else (d.src.cfg, d.src.frame) :: seen)

/-- A conversion is abandoned, with every later version of its handle (R275): ordf is set for an order fault, of which the records hold
both signatures (R421), conv clears, every waiting frame stops, and the packets of these versions that have arrived are dropped. -/
def abandon (s : State) (j : ConvJob) (t : Trap) (order : Bool) (psig : Nat) : State :=
  let gone := (convsOf s j.handle).dropWhile (·.id != j.id)
  let vs := gone.map (·.version)
  let hit := fun (w : Work) => match w with
    | .waiting d => d.handle == j.handle && vs.contains d.version
    | _ => false
  let ds := s.work.filterMap fun w => match w with | .waiting d => if hit w then some d else none | _ => none
  let dropped := fun (p : Packet) => !packetPasses s p && p.w 1 != 0 && p.id == j.handle && vs.contains p.seqno
  let freed := s.work.filterMap fun w => match w with | .packet p => if dropped p then some p else none | _ => none
  let s := { s with work := s.work.filterMap fun w => match w with
    | .conv i => if gone.any (·.id == i.id) then none else some w
    | .waiting d => if hit w then (if d.load && d.held.isSome && d.src.kind != 3 then some (.waiting { d with failed := true }) else none) else some w
    | .packet p => if dropped p then none else some w
    | _ => some w }
  let s := freed.foldl freeSlots s
  let left := !(convsOf s j.handle).isEmpty
  let s := modDesc s j.handle fun d => putBits (if order then putBits d 63 1 1 else d) 48 1 (if left then 1 else 0)
  failDemands s t (if order then j.sig else 0) (if order then psig else 0) ds []

/-- A collective instance is finished without completing (R267, R443); its issuer's frame stops when a fault ended it. -/
def endInstance (s : State) (j : ConvJob) (t : Option Trap) : State :=
  let s := { s with
    work := s.work.filter fun w => match w with | .coll i => i.id ≠ j.id | _ => true
    slots := tmod {} s.slots j.handle fun x => { x with finished := true, done := false } }
  match t with
  | some t => jobTrap s t j.src none
  | none => s

/-- A job meets a trap of its own (R275, R443): it is abandoned here and at its peers; a failed check arises at the edge streamer's port
(R444). -/
def jobFails (s : State) (coll : Bool) (j : ConvJob) (t : Trap) : State :=
  let s := if t.cause = cSDC then
      bboxEvent { s with sdcs := s.sdcs + 1 } (jobPort s coll j / 8) 1 cSDC 0 0 0 j.asn 0 0 (if j.src.kind = 3 then 0 else (getCfg s j.src.cfg).rcd % 2 ^ 56)
    else s
  let s := sendAborts s coll j t false
  if coll then endInstance s j (some t) else abandon s j t false 0

/-! ### Steps -/

/-- The job kept in the pending work. -/
def putJob (s : State) (coll : Bool) (j : ConvJob) : State :=
  { s with work := s.work.map fun w => match w with
      | .conv i => if !coll && i.id = j.id then .conv j else w
      | .coll i => if coll && i.id = j.id then .coll j else w
      | w => w }

/-- The ports that the current step needs are up (R442). -/
def stepReach (s : State) (j : ConvJob) : Bool := (stepDests j).all (peerReach s)

/-- Steps are performed while what they need is there; a finished reduction is checked (R443), and a step that needs a port that is
down fails the job (R442). -/
def convAdvance (coll : Bool) : Nat → State → ConvJob → State
  | 0, s, j => putJob s coll j
  | n + 1, s, j =>
    let red := match j.steps[j.step]? with | some (_, k) => reduces k | none => false
    match stepResult j with
    | .error t => jobFails s coll j t
    | .ok none => putJob s coll j
    | .ok (some j) =>
      if red && Config.adderFault s.tick then jobFails s coll j { cause := cSDC }
      else
        let j := { j with step := j.step + 1, got := j.got.filter fun g => g.step != j.step }
        if !stepReach s j then jobFails s coll j { cause := cLINK } else convAdvance coll n (sendStep s j) j

/-- The source elements of a job: of a collective's record, or of the current view. -/
def jobSource (j : ConvJob) : Rec := match j.recs with
  | some r => recOf r.1
  | none => denseRec j.fmt j.view (shapeCount (viewShape j.extents j.sizes j.coords j.oldStates j.leaves))

/-- The stream of a job's edge streamer, before the buffer of the grove that issued it (R414). -/
def edgeStream (s : State) (coll : Bool) (j : ConvJob) : Option Stream :=
  some ⟨streamEdge (jobPort s coll j), bufferKey (if j.src.kind = 3 then unitGrove j.src.who else groveOf j.src.who)⟩

/-- A job's elements issue in the world of its edge streamer (R403). -/
def edgeSrc (s : State) (coll : Bool) (j : ConvJob) : Src := { j.src with secure := blockSecure s 3 (jobPort s coll j) }

/-- A job that has read its whole source view performs its first steps; another goes on reading (R272). -/
def readOn (s : State) (coll : Bool) (j : ConvJob) : State :=
  if j.data.length < (jobSource j).count then putJob s coll j
  else
    let j := { j with started := true }
    convAdvance coll (j.steps.length + 1) (sendStep s j) j

/-- A job reads the next element of its source view (R207). -/
def readNext (s : State) (coll : Bool) (j : ConvJob) : State :=
  if j.data.length < (jobSource j).count then
    match jobRead s (edgeStream s coll j) (edgeSrc s coll j) (jobSource j) j.data.length with
    | .error t => jobFails s coll j t
    | .ok (v, s) => readOn s coll { j with data := j.data ++ [if reducing j 0 then leafOf j.fmt (v.getD 0) else (v.getD 0, 0)] }
  else readOn s coll j

/-- A job begins (R267, R272): its peers can be reached (R442), and a normal issuer's edge streamer is a normal block (R403). -/
def beginJob (s : State) (coll : Bool) (j : ConvJob) : State :=
  if j.devs.any fun d => d != ownDev s && !peerReach s d then jobFails s coll j { cause := cLINK }
  else if !j.src.secure && blockSecure s 3 (jobPort s coll j) then jobFails s coll j { cause := cPERM, detail := dWORLD }
  else readNext s coll { j with begun := true }

/-- The job of a slot's instance: the conversion of its kind on a tensor along the axis (R280). -/
def collJob (x : Slot) (j : ConvJob) (m : Mesh) (ds : List Nat) : ConvJob :=
  let n1 := (recOf x.srec).count
  let n2 := (recOf x.drec).count
  let z := m.sizes.getD x.axis 1
  let at_ := fun (c : Nat) => c * 2 ^ (4 * x.axis)
  let q : Nat × Nat × List Nat := match x.kind with
    | 1 => (1, 0, [n2, 1, 1, 1])
    | 2 => (5 + x.op, 0, [n2, 1, 1, 1])
    | 3 => (5 + x.op, 1, [n2 * z, 1, 1, 1])
    | _ => (2, 1, [n1, z, 1, 1])
  { j with mesh := x.mesh, oldStates := at_ q.1, newStates := at_ q.2.1, leaves := at_ x.leaf, fmt := (recOf x.srec).fmt, extents := q.2.2
           recs := some (x.srec, x.drec), sizes := m.sizes, self := m.self, devs := ds, steps := withCounts [(x.axis, stepKind q.1 q.2.1)] }

/-- The job has yet to read elements, and before the first no earlier conversion of the handle is unfinished, and no earlier job of its
frame comes first on its footprint (R216, R274). -/
def convStarts (s : State) (k : Nat) : Bool :=
  match workAt s k with
  | some (.conv j) => !j.started && (j.begun || (((convsOf s j.handle).head?.map (·.id)) == some j.id && !footWaits s j.id j.src j.foot))
  | some (.coll j) => !j.started && (j.begun || !footWaits s j.id j.src j.foot)
  | _ => false

/-- CONVERSION_START (R272). A conversion job, or a collective instance, starts with its footprint declared, and reads its source view,
one element after the other (R207). -/
def execConversionStart (s : State) : Out State :=
  if !(turnArg s).elim false (convStarts s) then notPending "no conversion may start"
  else match turnWork s with
    | some (_, .conv j) => if j.begun then .next (readNext s false j) else match jobMesh s j.src j.mesh with
      | .error t => .next (jobFails s false j t)
      | .ok none => .next (abandon s j { cause := cPLACE, detail := 1, aux := j.handle } true 0)
      | .ok (some (m, ds)) => .next (beginJob s false { j with sizes := m.sizes, self := m.self, devs := ds })
    | some (_, .coll j) =>
      let x := getSlot s j.handle
      if j.begun then .next (readNext s true j) else match jobMesh s j.src x.mesh with
      | .error t => .next (jobFails s true j t)
      | .ok none => .next (endInstance s j none)
      | .ok (some (m, ds)) => .next (beginJob s true (collJob x j m ds))
    | _ => notPending "no conversion may start"

/-! ### Demands (R274) -/

/-- What the placement unit makes of a demand: its fault, the version it joins, or a new version with its footprint. -/
inductive Fate where
  | fail (t : Trap)
  | join (version : Nat)
  | make (foot : List Range)

def demandFate (s : State) (d : Demand) : Fate :=
  let rc := recOf d.rcd
  if dOrdf (getPlacement s d.handle).d then .fail (cause cPLACE 0 0 d.handle)
  else if joins s d.handle d.states rc.base then .join (lastVersion s d.handle).2.2
  else match demandCheck s d.src d.handle d.states rc with
    | .error t => .fail t
    | .ok foot => .make foot

/-- The order signature (R275). -/
def orderSig (h version kind states leaves : Nat) : Nat :=
  let crc := crc32 (leBytes 2 h ++ leBytes 2 version ++ leBytes 2 states ++ leBytes 2 leaves)
  h % 4096 * 2 ^ 52 + version % 65536 * 2 ^ 36 + kind % 16 * 2 ^ 32 + crc

/-- A new version is queued (R273, R274), under the identity of its demand: conv is set. -/
def makeVersion (s : State) (d : Demand) (foot : List Range) : State × Nat :=
  let p := getPlacement s d.handle
  let l := lastVersion s d.handle
  let v := (l.2.2 + 1) % 65536
  let steps := stepsOf l.1 d.states
  let j : ConvJob :=
    { id := d.id, src := d.src, handle := d.handle, version := v, asn := p.asn, mesh := dMesh p.d, oldStates := l.1, newStates := d.states
      leaves := dLeaves p.d, fmt := dFmt p.d, view := l.2.1, target := (recOf d.rcd).base, extents := dExtents p.d, steps := steps, foot := foot, tag := d.tag
      sig := orderSig d.handle v ((steps.head?.map (·.2)).getD 0) d.states (dLeaves p.d) }
  (modDesc (addWork s (.conv j)) d.handle fun x => putBits x 48 1 1, v)

/-- An earlier demand of the same cell or controller, or of a firing that precedes this one, is still on its way (R274). -/
def demandBehind (s : State) (k : Nat) (d : Demand) : Bool := (s.work.take k).any fun w => match w with
  | .demand e => (e.src.kind == d.src.kind && e.src.who == d.src.who) || (e.src.kind != 3 && d.src.past.contains e.src.uid)
  | _ => false

/-- The unit can take the demand: it receives the commits of one issuer in order, and the demand fails, joins, or fewer than four
conversions of the handle are outstanding (R274). -/
def demandTaken (s : State) (k : Nat) : Bool :=
  match workAt s k with
  | some (.demand d) => !demandBehind s k d && (match demandFate s d with
    | .make _ => decide ((convsOf s d.handle).length < 4)
    | _ => true)
  | _ => false

/-- CONVERSION_DEMAND (R274). The placement unit receives a demanding commit and queues, joins or refuses it; the destination of
a refused PLD becomes FULL with 0. -/
def execConversionDemand (s : State) : Out State :=
  if !(turnArg s).elim false (demandTaken s) then notPending "the demand waits"
  else match turnWork s with
    | some (k, .demand d) => match demandFate s d with
      | .fail t =>
        let s := dropWork s k
        let s := match d.held with | some h => addWork s (.fill d.src.who h 0 false) | none => s
        .next (finishCommit (failDemand s d t 0 0) d.src.who)
      | .join v => .next (finishCommit (setWork s k (.waiting { d with version := v })) d.src.who)
      | .make foot =>
        let q := makeVersion s d foot
        .next (finishCommit (setWork q.1 k (.waiting { d with version := q.2 })) d.src.who)
    | _ => notPending "no demand is on its way"

/-! ### Completion (R273, R281) -/

/-- The target of a job: a collective's record, or the dense target view. -/
def jobTarget (j : ConvJob) : Rec := match j.recs with
  | some r => recOf r.2
  | none => denseRec j.fmt j.target j.data.length

/-- A job whose steps are done writes the next element of its target (R207); a write that is dropped is kept for its end (R441). -/
def writeNext (s : State) (coll : Bool) (j : ConvJob) : State :=
  match jobWrite s (edgeStream s coll j) (edgeSrc s coll j) (jobTarget j) j.written (j.data.getD j.written (0, 0)).1 with
  | .error t => jobFails s coll j t
  | .ok q => putJob q.1 coll { j with written := j.written + 1, drop := j.drop.orElse fun _ => q.2 }

/-- The frame of a job with a dropped write stops (R441); its record names the tag of the PCONV that caused it (R421). -/
def jobDropped (s : State) (j : ConvJob) : State := match j.drop with
  | some va => jobTrap s { cause := cECCUNC, addr := va } j.src j.tag
  | none => s

/-- The job's count of non-finite values (R277, R467), and the bytes it writes. -/
def jobCount (j : ConvJob) : Nat := j.extra
def jobSize (j : ConvJob) : Nat := (j.data.length * fmtBits j.fmt + 7) / 8

/-- W3 of a completion record of kinds 2 and 3 (R279). -/
def recordW3 (nf bytes : Nat) : Nat := min nf (2 ^ 24 - 1) * 2 ^ 40 + (if nf = 0 then 0 else 2 ^ 36) + bytes % 2 ^ 36

/-- A conversion whose elements are written completes on this device (R273): its descriptor changes, its record is written. -/
def completeConv (s : State) (j : ConvJob) : State :=
  let nf := jobCount j
  let s := { s with work := s.work.filter fun w => match w with | .conv i => i.id ≠ j.id | _ => true }
  let left := !(convsOf s j.handle).isEmpty
  let s := modDesc s j.handle fun d =>
    let d := putBits (putBits d 0 16 j.newStates) 32 16 j.version
    let d := putBits (putBits d 256 56 j.target) 64 32 (satAdd (dNfcount d) nf)
    putBits d 48 1 (if left then 1 else 0)
  let w6 := bits (getPlacement s j.handle).d 384 64
  jobDropped (completionRecord s j.src w6
    [j.handle * 2 ^ 48 + j.version * 2 ^ 32 + 2 * 2 ^ 16, j.sig, s.timens.toNat, recordW3 nf (jobSize j)]) j

/-- A collective instance whose elements are written completes on this device (R281). -/
def completeColl (s : State) (j : ConvJob) : State :=
  let nf := jobCount j
  let x := getSlot s j.handle
  let s := { s with
    work := s.work.filter fun w => match w with | .coll i => i.id ≠ j.id | _ => true
    slots := tset {} s.slots j.handle { x with finished := true, done := true, nf := min nf 0xFFFFFFFF } }
  jobDropped (completionRecord s j.src x.target
    [j.handle * 2 ^ 48 + j.version * 2 ^ 32 + 3 * 2 ^ 16, 0, s.timens.toNat, recordW3 nf (jobSize j)]) j

/-- A job whose steps are done writes its next element, and when it has written all completes. -/
def endJob (s : State) (coll : Bool) (j : ConvJob) : State :=
  if j.written < j.data.length then writeNext s coll j else if coll then completeColl s j else completeConv s j

/-- The parts of the elements that a PLD loads when its version is current, checked as LD's elements are (R286). -/
def demandParts (s : State) (d : Demand) : Except Trap (List (List (Nat × Nat × Nat × Nat))) :=
  let rc := recOf d.rcd
  (vecOffs (vecLen rc.bits) d.e).mapM fun e => do
    match ← rc.elem e with
    | .outside => .ok []
    | .at_ b => (jobParts s none d.src .read b rc.bits).map (·.1)

/-- An earlier write of the same firing to bits that the demand loads has yet to be performed (R217). -/
def ownWriteBefore (s : State) (d : Demand) : Bool :=
  let before := fun (a : Acc) => d.src.kind == a.src.kind && a.src.uid == d.src.uid && decide (a.src.pos < d.src.pos) &&
    match demandParts s d with
    | .ok ps => ps.flatten.any fun q => a.pieces.any fun p => decide (q.2.1 < p.bit + p.len) && decide (p.bit < q.2.1 + q.2.2.1)
    | .error _ => false
  d.load && d.src.kind != 3 &&
  ((s.work.any fun w => match w with | .store a | .atomic a | .contrib a _ => before a | _ => false) ||
    s.groups.any fun g => g.2.staged.any fun e => before e.acc)

/-- A PLD or PCONV whose version is current may land (R283, R286): its configuration runs, it has not stopped its frame, and no
earlier write of its firing comes first (R217). -/
def landable (s : State) (d : Demand) : Bool :=
  !((convsOf s d.handle).any fun j => j.version == d.version) &&
  (d.src.kind == 3 || ((getCfg s d.src.cfg).st == .running && !(d.failed && (getFrame s d.src.cfg d.src.frame).stopped.isSome))) &&
  !ownWriteBefore s d

/-- The load a PLD performs when its version is current, checked as LD's elements are (R286): value, and whether an element
has an uncorrectable error. -/
def demandLoad (s : State) (d : Demand) : Except Trap (Nat × Bool) := do
  let rc := recOf d.rcd
  let ps ← demandParts s d
  let rs : List Range := ps.flatten.map fun p => ⟨p.2.1, p.2.2.1, false, p.1⟩
  match raceOf s ⟨0, d.src, .load, rs, 3, 0, 0⟩ with
  | some t => .error t
  | none =>
    let vs := ps.map fun l => l.foldl (fun v p => v + readBits s p.2.1 p.2.2.1 * 2 ^ p.2.2.2) 0
    .ok (ofLanes rc.bits vs, rs.any fun r => poisonedBits s r.lo r.len)

/-- A demand lands (R282, R286, R287). -/
def landDemand (s : State) (k : Nat) (d : Demand) : State :=
  let s' := dropWork s k
  match d.tag, d.held with
  | some t, _ => tagEnd s' d.src t
  | none, some h => match demandLoad s d with
    | .ok (v, err) => addWork s' (.fill d.src.who h (if err then 0 else BitVec.ofNat 512 v) err)
    | .error t => jobTrap (setWork s k (.waiting { d with failed := true })) t d.src none
  | none, none => s'

/-- A job whose steps are done completes; a demand whose version is current lands. -/
def convEnds (s : State) (k : Nat) : Bool :=
  match workAt s k with
  | some (.conv j) => j.started && decide (j.steps.length ≤ j.step)
  | some (.waiting d) => landable s d
  | _ => false

/-- CONVERSION_COMPLETE (R273). A conversion whose steps are done writes its target, one element after the other (R207), and completes: it
updates the descriptor and completion record; a demand that waited for a version lands. -/
def execConversionComplete (s : State) : Out State :=
  if !(turnArg s).elim false (convEnds s) then notPending "no conversion ends"
  else match turnWork s with
    | some (_, .conv j) => .next (endJob s false j)
    | some (k, .waiting d) => .next (landDemand s k d)
    | _ => notPending "no conversion ends"

def collEnds (s : State) (k : Nat) : Bool :=
  match workAt s k with
  | some (.coll j) => j.started && decide (j.steps.length ≤ j.step)
  | _ => false

/-- COLLECTIVE_COMPLETE (R281). A collective instance writes its destination, one element after the other (R207), and completes on this
device. -/
def execCollectiveComplete (s : State) : Out State :=
  if !(turnArg s).elim false (collEnds s) then notPending "no instance ends"
  else match turnWork s with
    | some (_, .coll j) => .next (endJob s true j)
    | _ => notPending "no instance ends"

/-! ### Arriving packets (R275, R278, R466) -/

/-- The job a packet belongs to: a conversion by handle and version when it carries a signature, else an instance. -/
def packetJob (s : State) (p : Packet) : Option (Bool × ConvJob) :=
  s.work.findSome? fun w => match w with
    | .conv j => if p.w 1 ≠ 0 ∧ j.handle = p.id ∧ j.version = p.seqno then some (false, j) else none
    | .coll j => if p.w 1 = 0 ∧ j.handle = p.id ∧ j.version = p.seqno then some (true, j) else none
    | _ => none

/-- An earlier packet of the same job waits at this device (R466). -/
def packetBehind (s : State) (k : Nat) (p : Packet) : Bool := (s.work.take k).any fun w => match w with
  | .packet q => !packetPasses s q && !q.combines && q.id == p.id && q.seqno == p.seqno && (q.w 1 == 0) == (p.w 1 == 0)
  | _ => false

/-- The job of a packet takes it: it has started, and every packet of the job that came before has been taken (R466). -/
def jobTakes (s : State) (k : Nat) (p : Packet) : Bool := match packetJob s p with
  | some (_, j) => j.started && p.w 1 == j.sig && p.cls != 2 && !packetBehind s k p
  | none => false

/-- A packet of the next instance of a collective slot, which this device has not started, takes one of the 8 parking slots of its link,
behind those that came before it (R281). -/
def packetParks (s : State) (k : Nat) (p : Packet) : Bool :=
  let x := getSlot s p.id
  p.inLink && p.w 1 == 0 && x.defd && p.seqno == (x.inst + 1) % 65536 && (packetJob s p).isNone &&
  decide ((s.work.filter fun w => match w with | .packet q => q.parked && q.port == p.port | _ => false).length < 8) &&
  !((s.work.take k).any fun w => match w with
    | .packet q => q.inLink && q.port == p.port && !packetPasses s q && !q.combines && q.w 1 == 0 && q.id == p.id && q.seqno == p.seqno
    | _ => false)

/-- Format, span and first leaf of a packet's payload. -/
def Packet.fmt (p : Packet) : Nat := bits (p.w 2) 32 5
def Packet.nf (p : Packet) : Nat := bits (p.w 2) 0 32
def Packet.span (p : Packet) : Nat := bits (p.w 3) 16 4
def Packet.leaf (p : Packet) : Nat := bits (p.w 3) 0 16

/-- Two packets hold sibling subtrees for one node (R276, R278). -/
def siblings (p q : Packet) : Bool :=
  q.combines && p.hop.2 == q.hop.2 && p.seqno == q.seqno && p.id == q.id && p.w 1 == q.w 1 && p.final == q.final && p.chunk == q.chunk &&
  p.fmt == q.fmt && p.span == q.span && q.leaf == p.leaf ^^^ 2 ^ p.span

/-- The place of a packet's sibling that waits behind it. -/
def siblingOf (s : State) (k : Nat) (p : Packet) : Option (Nat × Packet) :=
  s.work.zipIdx.findSome? fun w => match w.1 with
    | .packet q => if k < w.2 ∧ siblings p q then some (w.2, q) else none
    | _ => none

/-- A packet is dealt with: it goes on to another device, its job takes it, its sibling is there, or a parking slot is free; else it
waits in its link (R278, R281, R466).  A device without a number takes none (R19). -/
def packetTaken (s : State) (k : Nat) : Bool :=
  match workAt s k with
  | some (.packet p) => s.devnum.isSome && (packetPasses s p ||
    if p.combines then (siblingOf s k p).isSome else jobTakes s k p || packetParks s k p)
  | _ => false

/-- What a packet brings to its job. -/
def gotOf (j : ConvJob) (p : Packet) : Got :=
  let q := chunkStep j p.chunk
  { step := q.1, leaf := p.leaf, span := p.span, chunk := q.2, data := ofBytes (p.payload.map (·.toNat)), nf := p.nf }

/-- A header without the first entry of its route. -/
def popHop (h : Nat) : Nat := putBits h 256 256 (bits h 256 256 / 65536)

/-- A packet goes on (R278): on the link that its route names, or on the one that leads to its destination.  One that needs a port that is
down faults with LINK (R442): its job here is abandoned, or an abort packet goes back to its origin (log entry 16). -/
def passPacket (s : State) (p : Packet) : State :=
  let port := if p.hop.1 = 0 then p.hop.2 % 32 else Config.portOf p.final % 32
  if (getLink s port).up then sendOut s port (BitVec.ofNat 512 (popHop p.header.toNat)) p.payload
  else match packetJob s p with
    | some (coll, j) => jobFails s coll j { cause := cLINK }
    | none => sendPacket s p.origin (packetHeader p.seqno p.id p.origin (ownDev s) (p.w 1) 0 2 0 0 0 0) (abortPayload { cause := cLINK } false)

/-- The operation by which a node combines a packet: that of its job's step, or as the node is set (log entry 16). -/
def packetOp (s : State) (p : Packet) : Nat := match packetJob s p with
  | some (_, j) => match j.steps[(chunkStep j p.chunk).1]? with
    | some (k, _) => pendingOp (stateAt j.oldStates k)
    | none => 0
  | none => Config.nodeOp p.hop.2 (p.w 1) % 3

/-- The packet of two sibling subtrees (R276, R278): their elements combined, the lower first, and the exact count of both. -/
def mergePackets (op : Nat) (p q : Packet) : Packet :=
  let w := fmtBits p.fmt
  let n := p.payload.length * 8 / w
  let a := ofBytes (p.payload.map (·.toNat))
  let b := ofBytes (q.payload.map (·.toNat))
  let l := (List.range n).map fun i =>
    if p.leaf < q.leaf then combine p.fmt op (lane w a i, 0) (lane w b i, 0) else combine p.fmt op (lane w b i, 0) (lane w a i, 0)
  let h := popHop p.header.toNat
  let h := putBits h 128 32 (min (p.nf + q.nf + countsOf l) 0xFFFFFFFF)
  { port := 32, header := BitVec.ofNat 512 (putBits (putBits h 192 16 (min p.leaf q.leaf)) 208 4 (p.span + 1)), payload := payloadOf w l }

/-- A node's adders differ on a packet (R443): its job is abandoned with SDC, here and at its peers. -/
def nodeFails (s : State) (p q : Packet) : State := match packetJob s p with
  | some (coll, j) => jobFails s coll j { cause := cSDC }
  | none =>
    let s := bboxEvent { s with sdcs := s.sdcs + 1 } (p.port % 32 / 8) 1 cSDC 0 0 0 0 0 0 0
    [p.origin, q.origin].eraseDups.foldl (fun s d =>
      sendPacket s d (packetHeader p.seqno p.id d (ownDev s) (p.w 1) 0 2 0 0 0 0) (abortPayload { cause := cSDC } false)) s

/-- Two sibling packets are combined in a node of this device (R278), and the packet of both goes on from there. -/
def combinePackets (s : State) (k : Nat) (p : Packet) (i : Nat) (q : Packet) : State :=
  let op := packetOp s p
  let s := freeSlots (freeSlots (dropWork (dropWork s i) k) p) q
  if Config.adderFault s.tick then nodeFails s p q else addWork s (.packet (mergePackets op p q))

/-- CONVERSION_PACKET (R466). A conversion or collective packet arrives at an edge streamer: it goes on, a node combines it with its
sibling, its job takes it, or it is parked. -/
def execConversionPacket (s : State) : Out State :=
  if !(turnArg s).elim false (packetTaken s) then notPending "no packet is taken"
  else match turnWork s with
    | some (k, .packet p) =>
      if packetPasses s p then .next (passPacket (takePacket s k p) p)
      else if p.combines then match siblingOf s k p with
        | some (i, q) => .next (combinePackets s k p i q)
        | none => notPending "no packet is taken"
      else match packetJob s p with
        | some (coll, j) => .next (convAdvance coll (j.steps.length + 1) (takePacket s k p) { j with got := j.got ++ [gotOf j p] })
        | none => .next (freeSlots (setWork s k (.packet { p with parked := true })) p)
    | _ => notPending "no packet is taken"

/-- A packet ends its job: an abort, or a signature that differs; an abort that comes after the order fault it tells of ends
nothing more (R275).  It too is consumed in arrival order (R466). -/
def packetAborts (s : State) (k : Nat) : Bool :=
  match workAt s k with
  | some (.packet p) => s.devnum.isSome && !packetPasses s p && !p.combines && !packetBehind s k p && (match packetJob s p with
    | some (_, j) => p.cls == 2 || p.w 1 != j.sig
    | none => p.cls == 2 && p.w 1 != 0 && orderFault s p.id)
  | _ => false

/-- CONVERSION_ABORT (R275). An abort packet, or one of another signature, abandons the job on this device; the device that
finds the difference sends abort packets to every device of the job. -/
def execConversionAbort (s : State) : Out State :=
  if !(turnArg s).elim false (packetAborts s) then notPending "no packet abandons a job"
  else match turnWork s with
    | some (k, .packet p) => match packetJob s p with
      | some (coll, j) =>
        let s := takePacket s k p
        -- a device that only passed a packet on knows of no other device of the job
        let s := if p.cls = 2 ∧ !(jobDevs s coll j).contains p.origin then sendAborts s coll j { cause := cLINK } false else s
        let order : Trap := { cause := cPLACE, detail := 1, aux := j.handle }
        let t : Trap := match p.payload with
          | c :: d :: _ => { cause := c.toNat, detail := d.toNat }
          | _ => order
        if coll then .next (endInstance s j (some t))
        else if p.w 1 ≠ j.sig then .next (abandon (sendAborts s coll j order true [p.origin]) j order true (p.w 1))
        else .next (abandon s j (if p.payload = [] then order else t) (p.payload == []) (p.w 1))
      | none => .next (takePacket s k p)
    | _ => notPending "no packet abandons a job"

end Sys2Proof.Machine
end

