-- ==== Sys2Proof/Machine/Image.lean ====
section
/-! DEFINITION. Configuration images: the command stream (R76 to R82), header and cell sections (R83, R84), the installer's
checks (R75, R82, R86 to R92, R112, R119) and what an image leaves in the cells (R85, R124). -/

namespace Sys2Proof.Machine

/-! ### The command stream (R76 to R82) -/

/-- The installer's place in a stream: the selected position, the FIELD that further EXT commands may extend with the number it
has had, and the writes so far. -/
structure Scan where
  pos : Nat := 0
  field : Option (FieldWrite × Nat) := none
  writes : List FieldWrite := []
  deriving DecidableEq, Repr

/-- The pending FIELD is written (R78). -/
def Scan.flush (q : Scan) : Scan := { q with field := none, writes := q.writes ++ (q.field.map (·.1)).toList }

/-- One command between START and CHKLO, for a glade of `w` by `h` groves and `n` stages; none when R82 rejects it. -/
def scanCmd (w h n : Nat) (q : Scan) (c : Nat) : Option Scan :=
  match bits c 30 2 with
  | 0 =>
    if 64 ≤ bits c 20 10 then none
    else
      let q := q.flush
      some { q with field := some ({ pos := q.pos, cell := bits c 20 10, field := bits c 14 6, value := bits c 0 14 }, 0) }
  | 1 => match q.field with
    | some (f, 0) => if bits c 28 2 ≠ 0 then none else some { q with field := some ({ f with value := f.value + bits c 0 28 * 2 ^ 14 }, 1) }
    | some (f, 1) =>
      if bits c 28 2 ≠ 0 ∨ bits c 22 6 ≠ 0 then none else some { q with field := some ({ f with value := f.value + bits c 0 22 * 2 ^ 42 }, 2) }
    | _ => none
  | 2 =>
    if bits c 0 16 ≠ 0 ∨ h ≤ bits c 25 5 ∨ w ≤ bits c 20 5 ∨ n ≤ bits c 16 4 then none
    else some { q.flush with pos := bits c 16 4 * 1024 + bits c 25 5 * 32 + bits c 20 5 }
  | _ => none

/-- Commands from SEL and FIELD on. -/
def scanBody (w h n : Nat) : List Nat → Scan → Option Scan
  | [], q => some q.flush
  | c :: cs, q => match scanCmd w h n q c with
    | some q => scanBody w h n cs q
    | none => none

def cmdSTART : Nat := 0xC0000000
def cmdSPLICE : Nat := 0xC4000000
def cmdEND : Nat := 0xC8000000

/-- A whole stream (R81, R82): its writes in order and whether it carries SPLICE; none when it is rejected. -/
def scanStream (w h n : Nat) (cs : List Nat) : Option (List FieldWrite × Bool) :=
  let m := cs.length - 3
  let lo := cs.getD m 0
  let hi := cs.getD (m + 1) 0
  let body := (cs.take m).drop 1
  let splice := body.head? == some cmdSPLICE
  if cs.length < 4 ∨ cs.headD 0 ≠ cmdSTART ∨ cs.getD (m + 2) 0 ≠ cmdEND ∨ bits lo 16 16 ≠ 0xCC00 ∨ bits hi 16 16 ≠ 0xD000 then none
  else if crc32 ((cs.take m).flatMap (leBytes 4)) ≠ bits lo 0 16 + bits hi 0 16 * 65536 then none
  else (scanBody w h n (if splice then body.drop 1 else body) {}).map fun q => (q.writes, splice)

/-! ### Cell sections (R84) -/

/-- The bits of a record mask. -/
def maskRecords (m : Nat) : List Nat := (List.range 64).filter fun k => bit m k

/-- Bytes of the section at byte `o` of the image `v`. -/
def sectionSize (v o : Nat) : Nat :=
  let count := bits (bits v (8 * o) 64) 28 9
  alignUp (128 + alignUp (4 * count) 32 + 32 * (maskRecords (bits v (8 * (o + 8)) 64)).length) 64

/-- The section at byte `o`. -/
def sectionAt (v o : Nat) : Section :=
  let h := bits v (8 * o) 1024
  let count := bits h 28 9
  let recs := o + 128 + alignUp (4 * count) 32
  { pos := bits h 0 4 * 1024 + bits h 9 5 * 32 + bits h 4 5, cell := bits h 14 6, first := bits h 20 8, hreset := bit h 37
    words := (List.range count).map fun i => bits v (8 * (o + 128 + 4 * i)) 32
    records := (maskRecords (bits h 64 64)).zipIdx.map fun e => (e.1, bits v (8 * (recs + 32 * e.2)) 256)
    recipes := (List.range 16).map fun i => bits h (128 + 16 * i) 16
    tags := (List.range 32).map fun i => bits h (384 + 8 * i) 8 }

/-- Reserved bits of a section header, its recipe entries and its tags. -/
def sectionReserved (v o : Nat) : Bool :=
  let h := bits v (8 * o) 1024
  bits h 38 26 != 0 || bits h 640 384 != 0 || (List.range 16).any (fun i => bits h (128 + 16 * i + 10) 5 != 0) ||
  (List.range 32).any fun i => bits h (384 + 8 * i + 4) 3 != 0

/-- `k` sections from byte `o` on, within `len` bytes (R83, R86). -/
def readSections (v len : Nat) : Nat → Nat → Option (List Section)
  | 0, _ => some []
  | k + 1, o =>
    if len < o + 128 ∨ len < o + sectionSize v o ∨ sectionReserved v o then none
    else (readSections v len k (o + sectionSize v o)).map fun l => sectionAt v o :: l

/-- The cell with a section's words and recipes (R85). -/
def Section.on (q : Section) (x : Cell) : Cell :=
  { x with
    store := q.words.zipIdx.foldl (fun t e => tset 0 t (q.first + e.2) (BitVec.ofNat 32 e.1)) x.store
    records := q.records.foldl (fun t e => tset 0 t e.1 (BitVec.ofNat 256 e.2)) x.records
    recipes := q.recipes.zipIdx.foldl (fun t e => tset 0 t e.2 (BitVec.ofNat 16 e.1)) [] }

/-- Words that the `n` instructions from word `w` take; none when one does not decode. -/
def recipeSpan (x : Cell) (w n : Nat) : Option Nat := match recipeInstrs x n w with
  | .ok is => some (is.map sizeOf').sum
  | .error _ => none

/-- A valid recipe of a section lies within its words and keeps R75 and R119 for some register.  The model's choice (log entry 51): its
words are decoded without the checks of R64, which are a context's, and what those refuse faults at the replay. -/
def recipeOk (q : Section) (n : Nat) : Bool :=
  let x := q.on {}
  match recipeOf x n with
  | none => true
  | some (w, k) => match recipeSpan x w k with
    | some m => decide (q.first ≤ w) && decide (w + m ≤ q.first + q.words.length) && (List.range 32).any fun r => recipeFits x n r
    | none => false

/-- A recipe tag of a section names a valid recipe that rebuilds the tagged register (R86, R119). -/
def tagOk (q : Section) (k : Nat) : Bool :=
  let t := q.tags.getD k 0
  !bit t 7 || recipeFits (q.on {}) (bits t 0 4) k

/-- The checks of a section (R86). -/
def sectionOk (w h n : Nat) (q : Section) : Bool :=
  decide (q.pos / 1024 < n) && decide (q.pos % 1024 / 32 < h) && decide (q.pos % 32 < w) && decide (q.first + q.words.length ≤ 256) &&
  (List.range 16).all (recipeOk q) && (List.range 32).all (tagOk q) && q.records.all fun e => (recOf (BitVec.ofNat 256 e.2)).round != 3

/-! ### Contexts (R87 to R92, R112) -/

/-- A route of a context (R89). -/
def routeOk (w h n : Nat) (f : Nat) : Bool :=
  let r := routeOf f
  bits f 30 34 == 0 && decide (r.port ≤ 5) && decide (r.rate ≤ 4) && (!r.en || (decide (r.stage < n) && decide (r.gy < h) && decide (r.gx < w)))

/-- The input ports of a context (R88). -/
def portsOk (f : Nat) : Bool :=
  bits f 34 30 == 0 && (List.range 4).all fun p =>
    let rate := bits f (8 * p) 3
    let width := bits f (8 * p + 3) 3
    bits f (8 * p + 6) 2 == 0 && decide (width ≤ 5) && decide (rate ≤ 4) && decide (rate * classBits width ≤ 512)

/-- What a fixed node of a kind takes (R92, R112): for each port whether it may and whether it must be used, the predicate inputs
it may and must use, and its routes. -/
structure NodeShape where
  may : List Nat
  must : List Nat
  mayQ : Bool
  mustQ : Bool
  routes : List Nat

def nodeShape (kind k7 : Nat) : NodeShape := match kind with
  | 2 => ⟨[0], [0], true, true, [0, 1]⟩
  | 3 => ⟨[0, 1], [0, 1], true, true, [0]⟩
  | 4 => ⟨[0, 1], [0], false, false, [0, 1, 2]⟩
  | 5 =>
    let g := bits k7 0 2
    let fn := bits k7 2 5
    let writes := g == 2 || (g == 1 && fn == 1) || (g == 0 && (fn == 1 || fn == 4 || fn == 5))
    let ps := [0] ++ (if writes then [1] else []) ++ (if bit k7 10 then [2] else []) ++ (if bit k7 11 then [3] else [])
    ⟨ps, ps, true, false, [0]⟩
  | _ => ⟨[0, 1], [0, 1], false, false, [0]⟩

/-- Parameters of a kind (R91, R112). -/
def paramsOk (kind k0 k1 k7 : Nat) : Bool := match kind with
  | 4 => bits k7 48 16 == 0 && bits k7 0 24 != 0 && bits k7 24 24 != 0
  | 5 =>
    let g := bits k7 0 2
    let fn := bits k7 2 5
    bits k7 16 48 == 0 && decide (bits k7 13 3 ≤ 4) &&
    (match g with | 0 => decide (fn ≤ 6) | 1 => decide (fn ≤ 2) | 2 => decide (fn ≤ 6) && fn != 4 | _ => false) &&
    bits k0 32 8 == 2 ^ bits k7 7 3
  | 6 =>
    let cls := match bits k7 3 3 with | 4 => 3 | 5 => 4 | _ => 2
    bits k7 6 58 == 0 && decide (bits k7 3 3 ≤ 5) && decide (bits k7 0 3 ≤ 2) && bits k1 3 3 == cls && bits k1 11 3 == cls
  | _ => k7 == 0

/-- A fixed node uses exactly its ports, predicates and routes, and no program (R92). -/
def fixedOk (kind k0 k1 k7 : Nat) (routes : List Nat) : Bool :=
  let z := nodeShape kind k7
  bits k0 16 8 == 0 && bits k0 24 5 == 0 && bits k0 29 3 == 0 && (kind == 5 || bits k0 32 8 == 0) &&
  (List.range 4).all (fun p =>
    let rate := bits k1 (8 * p) 3
    if z.must.contains p then rate == 1 else rate == 0 || (rate == 1 && z.may.contains p)) &&
  !bit k1 33 && (!bit k1 32 || z.mayQ) && (bit k1 32 || !z.mustQ) &&
  (List.range 4).all fun k => let r := routeOf (routes.getD k 0); if r.en then z.routes.contains k && r.rate == 1 else r.rate == 0

/-- The eight fields of a context keep R87 to R92. -/
def contextOk (w h n : Nat) (f : Nat → Nat) : Bool :=
  let kind := bits (f 0) 0 4
  if kind = 0 then (List.range 8).all fun k => f k == 0
  else
    decide (kind ≤ 6) && bits (f 0) 40 8 == 0 && bits (f 0) 4 12 == 0 && decide (bits (f 0) 29 3 ≤ 5) &&
    decide (bits (f 0) 16 8 + bits (f 0) 24 5 ≤ 255) && portsOk (f 1) && (List.range 4).all (fun k => routeOk w h n (f (2 + k))) &&
    paramsOk kind (f 0) (f 1) (f 7) && (kind == 1 || fixedOk kind (f 0) (f 1) (f 7) ((List.range 4).map fun k => f (2 + k)))

/-! ### Images (R83, R86) -/

/-- Two sections name one cell. -/
def sectionTwice : List Section → Bool
  | [] => false
  | q :: qs => (qs.any fun p => p.pos == q.pos && p.cell == q.cell) || sectionTwice qs

/-- The last value that a list of writes gives a field. -/
def writtenField (ws : List FieldWrite) (pos cell field : Nat) : Option Nat :=
  (ws.reverse.find? fun w => w.pos == pos && w.cell == cell && w.field == field).map (·.value)

/-- The cells that a stream writes, each once. -/
def writtenCells (ws : List FieldWrite) : List (Nat × Nat) := (ws.map fun w => (w.pos, w.cell)).eraseDups

/-- Every context of the written cells is in order, over the fields they have now. -/
def contextsOk (w h n : Nat) (now : Nat → Nat → Nat → Nat) (ws : List FieldWrite) : Bool :=
  (writtenCells ws).all fun q => (List.range 8).all fun c =>
    contextOk w h n fun k => (writtenField ws q.1 q.2 (c * 8 + k)).getD (now q.1 q.2 (c * 8 + k))

/-- The header of an image for a shape (R83). -/
def headerOk (v w h n : Nat) : Bool :=
  bits v 0 32 == 0x5A534B31 && bits v 32 16 == 1 && bits v 48 16 == 0 && decide (4 ≤ bits v 96 32) && bits v 64 32 % 4 == 0 && bits v 128 32 % 64 == 0 &&
  bits v 192 16 == (n - 1) * 4096 + h * 64 + w && bits v 208 48 == 0 && bits v 288 32 == 0 && bits v 320 192 == 0 && decide (64 ≤ bits v 256 32) &&
  decide (bits v 64 32 + 4 * bits v 96 32 ≤ bits v 256 32)

/-- An image whose bytes are `v`, for a shape and the fields as they stand; none when it is refused (R82, R86). -/
def parseImage (v w h n : Nat) (now : Nat → Nat → Nat → Nat) : Option Image :=
  if !headerOk v w h n then none
  else
    let cmds := (List.range (bits v 96 32)).map fun i => bits v (8 * (bits v 64 32 + 4 * i)) 32
    match scanStream w h n cmds, readSections v (bits v 256 32) (bits v 160 32) (bits v 128 32) with
    | some (ws, splice), some qs =>
      if qs.all (sectionOk w h n) && !sectionTwice qs && contextsOk w h n now ws then some ⟨ws, splice, qs⟩ else none
    | _, _ => none

/-- A write sets a dynamic rounding field to a code that is no mode (R68). -/
def badRounds (v w h n : Nat) : Bool :=
  match scanStream w h n ((List.range (bits v 96 32)).map fun i => bits v (8 * (bits v 64 32 + 4 * i)) 32) with
  | some (ws, _) => ws.any fun x => x.field % 8 == 0 && decide (6 ≤ bits x.value 29 3)
  | none => false

/-- The image at an address: none when it is refused; a byte that cannot be read is the trap (R86), and a write of a rounding code
that is no mode is ILLOP (R68).  The model's choices (log entry 66): ILLOP comes before the image's other refusals, and a write that a later
one of the same field replaces counts. -/
def readImage (s : State) (x : Src) (va w h n : Nat) (now : Nat → Nat → Nat → Nat) : Except Trap (Option Image) :=
  if va % 64 ≠ 0 then .ok none
  else do
    let v ← jobBytes s x va 64
    if !headerOk v w h n then .ok none
    else do
      let v ← jobBytes s x va (bits v 256 32)
      if badRounds v w h n then .error (cause cILLOP) else .ok (parseImage v w h n now)

/-! ### The capacity map (R171) -/

/-- One more than the highest bit of a mask. -/
def topBit (m : Nat) : Nat := ((List.range 32).reverse.find? fun k => bit m k).elim 0 (· + 1)

/-- Held registers that a cell position needs. -/
def capacity (ws : List FieldWrite) (pos cell : Nat) : Nat :=
  (List.range 8).foldl (fun a c => max a (topBit ((writtenField ws pos cell (c * 8 + 6)).getD 0))) 0

/-- The positions that need held registers, with how many. -/
def capMap (ws : List FieldWrite) : List (Nat × Nat × Nat) :=
  ((writtenCells ws).map fun q => (q.1, q.2, capacity ws q.1 q.2)).filter fun q => q.2.2 ≠ 0

/-! ### What an image leaves in the cells (R85) -/

/-- The device cell of a position of a configuration. -/
def Cfg.cellAt (c : Cfg) (pos cell : Nat) : Nat := c.devGrove (pos / 1024) (pos % 1024 / 32) (pos % 32) * 64 + cell

/-- The position of a device grove in a configuration. -/
def Cfg.posOf (c : Cfg) (n : Nat) : Nat := (c.stageOf n).getD 0 * 1024 + c.relGrove n

/-- The writes of a stream reach the cells that `on` selects. -/
def applyWrites (s : State) (c : Cfg) (on : Nat → Bool) (ws : List FieldWrite) : State :=
  ws.foldl (fun s w =>
    let d := c.cellAt w.pos w.cell
    if on d then modCell s d fun x => { x with fields := tset 0 x.fields w.field (BitVec.ofNat 64 w.value) } else s) s

/-- The held registers after a section: every tag replaced, and reset where asked for (R85). -/
def sectionHeld (q : Section) (reset : Bool) (x : Cell) : Table HeldReg :=
  (List.range 32).foldl (fun t k =>
    tmod {} t k fun h =>
      let b := q.tags.getD k 0
      let tag := if bit b 7 then some (bits b 0 4) else none
      if reset then { value := 0, st := if tag.isSome then .dropped else .full, tag := tag, err := false } else { h with tag := tag }) x.held

/-- A section reaches its cell; a reset register waits for no value (R85).  The model's choice (log entry 72): a value already on its way is
dropped, and that of a command still in its engine lands in the register that was reset. -/
def applySection (s : State) (c : Cfg) (on : Nat → Bool) (fresh : Bool) (q : Section) : State :=
  let d := c.cellAt q.pos q.cell
  if on d then
    modCell (if fresh || q.hreset then dropFills s (· == d) else s) d fun x => { q.on x with held := sectionHeld q (fresh || q.hreset) x }
  else s

/-- An image applied to the cells that `on` selects. -/
def applyImage (s : State) (c : Cfg) (on : Nat → Bool) (fresh : Bool) (im : Image) : State :=
  im.sections.foldl (fun s q => applySection s c on fresh q) (applyWrites s c on im.writes)

/-- The cells of a configuration's glades. -/
def Cfg.cells (c : Cfg) : List Nat := c.groves.flatMap fun n => (List.range 64).map fun i => n * 64 + i

/-- The part of a virtual region that addresses reach. -/
def reached (va : Int) (n : Nat) : List (Nat × Nat) :=
  let lo := va.toNat
  let hi := min (va + n).toNat (2 ^ 56)
  if lo < hi then [(lo, hi - lo)] else []

/-- The CONST ranges of a configuration: the regions of its cells' CONST records (R124, R201), as virtual ranges of its space that are
mapped at each access (log entry 54). -/
def constsOf (s : State) (c : Cfg) : List (Nat × Nat) :=
  s.cells.flatMap fun e =>
    if e.2.cfg ≠ c.id then []
    else e.2.records.flatMap fun r =>
      let rc := recOf r.2
      if !rc.const then []
      else match rc.region with
        | some (va, n) => reached va n
        | none => []

def setConsts (s : State) (id : Nat) : State := modCfg s id fun c => { c with consts := constsOf s c }

end Sys2Proof.Machine
end

