-- ==== Sys2Proof/Machine/Arb.lean ====
section
/-! DEFINITION. Launch queues, admission and completion (R164 to R173, R183, R184): what the arbiter considers, where it places
a configuration, admission, restore, completion and the joins of successors. -/

namespace Sys2Proof.Machine

/-! ### Records (R50, R164, R165) -/

/-- Word `k` of a 512-bit record. -/
def rw (v k : Nat) : Nat := bits v (64 * k) 64

/-- The join counter, rank and world of a record, and the address space it names (R50). -/
def recJoin (v : Nat) : Nat := bits (rw v 2) 0 16
def recRank (v : Nat) : Nat := bits (rw v 2) 16 8
def recSplice (v : Nat) : Bool := bit (rw v 2) 41
def recSecure (v : Nat) : Bool := bit (rw v 2) 43
def recAsn (v : Nat) : Nat := bits (rw v 6) 0 8

/-- The glade's shape: width, height, stages. -/
def recW (v : Nat) : Nat := recWidth (rw v 2)
def recH (v : Nat) : Nat := recHeight (rw v 2)
def recN (v : Nat) : Nat := recStages (rw v 2)

/-- A shape that LAUNCH refuses with BADSHAPE (R186). -/
def badShape (w h n : Nat) : Bool :=
  w == 0 || decide (32 < w) || h == 0 || decide (32 < h) || decide (32 / w * (32 / h) < n)

/-- A record that LAUNCH refuses with BADREC (R186). -/
def badRecord (v : Nat) : Bool :=
  bits (rw v 2) 48 16 != 0 || recSplice v || bits (rw v 6) 8 56 != 0 || rw v 7 != 0 || bits (rw v 3) 0 3 != 0 ||
  bits (rw v 4) 56 6 != 0 || bits (rw v 4) 0 5 != 0

/-- The statuses of R169 that the machine returns. -/
def stOK : Nat := 0
def stQFULL : Nat := 1
def stBADSHAPE : Nat := 2
def stBADREC : Nat := 3
def stPERM : Nat := 4
def stBADQUEUE : Nat := 5
def stNOCAP : Nat := 6
def stIMAGE : Nat := 7
def stJOINZERO : Nat := 8
def stNOTINST : Nat := 9
def stNOTPREEMPT : Nat := 10
def stSPLICING : Nat := 11
def stNOTHELD : Nat := 12
def stSAVEFMT : Nat := 13
def stFRAMEERR : Nat := 14
def stHELD : Nat := 15
def stFWFAIL : Nat := 16

/-! ### Queues -/

def getQueue (s : State) (q : Nat) : List QEntry := tget [] s.queues q

/-- A LAUNCH or a doorbell write takes the module from PW1 to PW0, whatever its status (R460). -/
def wakeModule (s : State) : State := if s.power = .pw1 then { s with power := .pw0, idleSince := none } else s

/-- An entry joins a queue; a new head starts a round (R170). -/
def pushQueue (s : State) (q : Nat) (e : QEntry) : State :=
  let l := getQueue s q
  { s with queues := tset [] s.queues q (l ++ [e]), round := s.round || l.isEmpty || e.save }

/-- Who reads a queued record or save area: the unit that queued it (R164). -/
def entrySrc (e : QEntry) : Src := { kind := 3, who := e.issuer, asn := e.asn, user := e.user, secure := e.secure }

/-- The machine on behalf of a configuration's space (R154, R167). -/
def spaceSrc (issuer asn : Nat) (secure : Bool) : Src := { kind := 3, who := issuer, asn := asn, user := false, secure := secure }

/-- The virtual address of an entry's record: its own, or the one a save area names, as it was when it was checked (R182, R184). -/
def entryRecord (s : State) (e : QEntry) : Except Trap Nat :=
  if let some (_, va) := e.checked then .ok va
  else if e.save then (jobBytes s (entrySrc e) (e.addr + 8) 8).map fun w => bits w 0 56 else .ok e.addr

/-- Its physical address. -/
def entryPa (s : State) (e : QEntry) : Option Nat := match entryRecord s e with
  | .ok va => (walkCheck s (entrySrc e) .read va 64).toOption
  | .error _ => none

/-- The heads of the queues. -/
def queueHeads (s : State) : List (Nat × QEntry) := s.queues.filterMap fun q => q.2.head?.map fun e => (q.1, e)

/-- The bypass count of a record is mirrored into W2[47:44] (R164): the largest of the heads that name it.  A save area whose W1 names no
record has none to write.  Where a record has left one of two queues that it heads, the remaining head's count is written, which is the model's
choice (log entry 73). -/
def mirror (s : State) (e : QEntry) : State := match entryRecord s e with
  | .error _ => s
  | .ok va => if va % 64 ≠ 0 then s else match walkCheck s (entrySrc e) .write (va + 16) 8 with
    | .error _ => s
    | .ok pa =>
      let n := ((queueHeads s).filter fun h => entryPa s h.2 == entryPa s e).foldl (fun a h => max a h.2.bypass) 0
      (writePieces s [(pa * 8 + 44, 4, n)] 0).1

/-- The head leaves its queue, and a round follows. -/
def leaveQueue (s : State) (q : Nat) (e : QEntry) : State :=
  mirror { s with queues := tmod [] s.queues q fun l => l.drop 1, round := true } e

/-- The head of a queue is changed. -/
def setQHead (s : State) (q : Nat) (e : QEntry) : State := { s with queues := tmod [] s.queues q fun l => e :: l.drop 1 }

/-! ### Events and completion records (R167, R168, R191) -/

/-- An event bit of a unit is set; the host has none. -/
def setEvent (s : State) (u k : Nat) : State := if u < 2000 then modCtl s u fun x => { x with events := x.events ||| 2 ^ k } else s

/-- Steps 2 and 4 of R167 for a record: completion record and interrupt, then EVCOMP. -/
def completeRecord (s : State) (v issuer : Nat) (ws : List Nat) : State :=
  let s := completionRecord s (spaceSrc issuer (recAsn v) (recSecure v)) (rw v 4) ws
  if bit (rw v 4) 62 then setEvent s issuer 1 else s

/-- Install and wake times in a record's word: a wake takes at most 400 ns and is part of the install time (R126, R168). -/
def timesWord (wake install : Nat) : Nat := wake * 2 ^ 32 + install
def wakeTime (free : Nat) : Nat := free % 401
def installTime (wake free : Nat) : Nat := min (wake + free % 2 ^ 32) (2 ^ 32 - 1)

/-- A record completes without running (R167); the manual gives no times for it (log entry 8). -/
def failRecord (s : State) (v q issuer status : Nat) : State :=
  let f := drawWord s
  let wake := wakeTime (f.1.toNat / 2 ^ 32)
  completeRecord f.2 v issuer [q * 2 ^ 48 + 2 ^ 16 + status, timesWord wake (installTime wake f.1.toNat), s.timens.toNat, 0]

/-! ### Joining (R187) -/

/-- A join of the record at an address: the new counter, none when it is 0 already. -/
def joinAt (s : State) (pa : Nat) : State × Option Nat :=
  let c := readNat s (pa + 16) 2
  if c = 0 then (s, none)
  else
    let s := (writePieces s [((pa + 16) * 8, 16, c - 1)] 0).1
    (if c = 1 then { s with round := true } else s, some (c - 1))

/-- The successors of a list are joined, in list order (R166, R167); one that cannot be reached is not joined.  The model's choice of a list
that breaks R166 (log entry 58): its first 64 entries are joined, reserved bits are not looked at, and a record's address is taken as
it stands. -/
def joinList (s : State) (x : Src) (list : Nat) : State :=
  if list = 0 then s
  else match jobBytes s x list 8 with
    | .error _ => s
    | .ok w => (List.range (min (w % 256) 64)).foldl (fun s k => match jobBytes s x (list + 8 + 8 * k) 8 with
      | .error _ => s
      | .ok e => match walkCheck s x .atomic (bits e 0 56) 64 with
        | .ok pa => if poisonedRange s (pa + 16) 2 then s else (joinAt s pa).1
        | .error _ => s) s

/-! ### Placement (R171, R172, R406) -/

/-- The groves of a rectangle at an origin. -/
def rectGroves (w h o : Nat) : List Nat := (List.range h).flatMap fun y => (List.range w).map fun x => o + y * 32 + x

/-- Every block of the grove is of the world (R406). -/
def groveWorld (s : State) (g : Nat) (secure : Bool) : Bool :=
  blockSecure s 0 g == secure && (List.range 16).all (fun t => blockSecure s 1 (g * 16 + t) == secure) &&
  (List.range 4).all fun p => blockSecure s 2 (g * 4 + p) == secure

/-- What an arbiter places: shape, world, capacity map. -/
structure Fit where
  w : Nat
  h : Nat
  n : Nat
  secure : Bool
  cap : List (Nat × Nat × Nat)
  deriving DecidableEq, Repr

/-- The rectangle of stage `k` is valid at an origin (R171); `empty` asks for a device without configurations. -/
def rectValid (s : State) (empty : Bool) (f : Fit) (k o : Nat) : Bool :=
  decide (o / 32 + f.h ≤ 32) && decide (o % 32 + f.w ≤ 32) &&
  (rectGroves f.w f.h o).all (fun g => (empty || (cfgOfGrove s g).isNone) && groveWorld s g f.secure) &&
  f.cap.all fun q => q.1 / 1024 != k || decide (q.2.2 ≤ (getCell s ((o + q.1 % 1024) * 64 + q.2.1)).hcap)

/-- Origins of the stages from `k` on, `m` of them, that share no grove with those already taken (R172). -/
def placeStages (s : State) (empty : Bool) (f : Fit) : Nat → Nat → List Nat → Option (List Nat)
  | 0, _, _ => some []
  | m + 1, k, used =>
    match (List.range 1024).find? fun o => rectValid s empty f k o && (rectGroves f.w f.h o).all fun g => !used.contains g with
    | none => none
    | some o => (placeStages s empty f m (k + 1) (used ++ rectGroves f.w f.h o)).map fun l => o :: l

/-- Cells whose parking areas are allotted (R99, R180). -/
def parkingUsed (s : State) : Nat := ((s.cfgs.filter fun c => c.pred.isNone).map fun c => 64 * c.width * c.height * c.stages).sum

/-- Place of R172: one origin for each stage, with room in the parking pool; a restored configuration has its area. -/
def place (s : State) (empty restored : Bool) (f : Fit) : Option (List Nat) :=
  let own := 64 * f.w * f.h * f.n
  let used := if empty then 0 else parkingUsed s
  if !restored && decide (Config.parkingPool < used + own) then none else placeStages s empty f f.n 0 []

/-! ### Installation (R85, R172) -/

/-- Every cell of a configuration notes its ready firings. -/
def noteAll (s : State) (c : Cfg) : State := c.cells.foldl noteReady s

/-- A gated cell: it keeps only its capacity (R125), and has every write still to see (log entry 63). -/
def gateCell (s : State) (d cfg : Nat) : State := seeAll (modCell s d fun x => { hcap := x.hcap, cfg := cfg }) d

/-- A grove's array with no contents (R342); its check state is kept. -/
def clearArray (g : Grove) : Grove := { mismatches := g.mismatches, bc := g.bc, resblocks := g.resblocks }

/-- A configuration of a record. -/
def newCfg (s : State) (id : Nat) (e : QEntry) (v q : Nat) (origins : List Nat) : Cfg :=
  { id := id, rcd := e.addr, rcdPa := (entryPa s e).getD 0, queue := q, words := (List.range 8).map fun k => BitVec.ofNat 64 (rw v k)
    spaceAsn := recAsn v, issuer := e.issuer, origins := origins, wakeNs := wakeTime (Config.wakeNanos s.tick)
    installNs := installTime (wakeTime (Config.wakeNanos s.tick)) (Config.installNanos s.tick) }

/-- Admission of a record onto a placement (R172): the image is installed and frame 0 starts, or the record completes with
IMAGE. -/
def install (s : State) (e : QEntry) (v q : Nat) (origins : List Nat) : State :=
  let x := spaceSrc e.issuer (recAsn v) (recSecure v)
  match readImage s x (rw v 0) (recW v) (recH v) (recN v) fun _ _ _ => 0 with
  | .ok (some im) =>
    let n := fresh s
    let c := newCfg s n.1 e v q origins
    let s := dropFills { n.2 with cfgs := n.2.cfgs ++ [c] } fun d => (c.stageOf (groveOf d)).isSome
    let s := c.cells.foldl (fun s d => gateCell s d c.id) s
    let s := c.groves.foldl (fun s g => modGrove s g clearArray) s
    let s := applyImage s c (fun _ => true) true im
    noteAll (startFrame (setConsts s c.id) c.id 0) c
  | _ => { failRecord s v q e.issuer stIMAGE with round := true }

/-! ### Save areas (R180 to R184) -/

/-- Bytes of a save area. -/
def saveLength (w h n : Nat) : Nat := 4096 + 655360 * w * h * n

/-- The shape in W3 of a header. -/
def saveW (v : Nat) : Nat := bits (rw v 3) 0 6
def saveH (v : Nat) : Nat := bits (rw v 3) 6 6
def saveN (v : Nat) : Nat := bits (rw v 3) 12 4 + 1

/-- Magic, format and length (R190). -/
def saveFormat (v : Nat) : Bool :=
  bits (rw v 0) 0 32 == 0x5A534156 && bits (rw v 0) 32 16 == 1 && rw v 2 == saveLength (saveW v) (saveH v) (saveN v)

/-- The saved configuration whose private contents an area still holds as CTXSV wrote them (R184).  The model's choice (log entry 59): the
area is known by its physical address, so that a copy of it elsewhere fails the check. -/
def savedAt (s : State) (x : Src) (va len : Nat) : Option (Nat × Saved) :=
  match walkCheck s x .read va 64 with
  | .error _ => none
  | .ok pa => match s.saves.find? fun e => e.1 == pa with
    | none => none
    | some (_, z) => match jobBytes s x va len with
      | .ok v => if v / 2 ^ 512 = Config.freeBytes z.draw % 2 ^ (8 * (len - 64)) then some (pa, z) else none
      | .error _ => none

/-- The status of a restore in an area's header (R182). -/
def saveStatus (s : State) (e : QEntry) (st : Nat) : State := match jobPut s (entrySrc e) (e.addr + 6) 2 st with
  | .ok r => r.1
  | .error _ => s

/-- A saved configuration is gone: its area, its work and its jobs. -/
def dropSaved (s : State) (pa : Nat) (z : Saved) : State :=
  { s with saves := s.saves.filter fun e => e.1 ≠ pa, cfgs := s.cfgs.filter fun c => c.id ≠ z.cfg
           work := s.work.filter fun w => (workFrame w).all fun f => f.1 ≠ z.cfg }

/-- The full checks of R184: the record of the area and its saved context. -/
def saveCheck (s : State) (e : QEntry) (v : Nat) : Option (Nat × Nat × Saved) :=
  let x := entrySrc e
  if !saveFormat v || bits (rw v 1) 56 8 != 0 || bits (rw v 3) 16 48 != 0 || rw v 5 != 0 || rw v 6 != 0 || rw v 7 != 0 ||
      bits (rw v 1) 0 6 != 0 then none
  else match jobBytes s x (rw v 1) 64 with
    | .error _ => none
    | .ok r =>
      if recW r ≠ saveW v ∨ recH r ≠ saveH v ∨ recN r ≠ saveN v then none
      else (savedAt s x e.addr (saveLength (saveW v) (saveH v) (saveN v))).map fun q => (r, q.1, q.2)

/-- The failure of a save area (R184). -/
def saveFails (s : State) (q : Nat) (e : QEntry) (v : Nat) : State :=
  let x := entrySrc e
  let s := leaveQueue (saveStatus s e 5) q e
  let known := (walkCheck s x .read e.addr 64).toOption.bind fun pa => s.saves.find? fun z => z.1 == pa
  let s := if bits (rw v 1) 0 6 ≠ 0 then s
    else match jobBytes s x (bits (rw v 1) 0 56) 64 with
      | .ok r => failRecord s r q (match known with | some z => (getCfg s z.2.cfg).issuer | none => 2000) stSAVEFMT
      | .error _ => s
  let s := match known with | some z => dropSaved s z.1 z.2 | none => s
  setEvent s e.issuer 3

/-! ### Restore (R122, R180, R183, R439) -/

/-- A device cell under new origins of a configuration. -/
def moveCell (a b : Cfg) (d : Nat) : Nat := b.cellAt (a.posOf (groveOf d)) (cellNo d)

/-- A route's identity under new origins. -/
def moveRoute (a b : Cfg) (r : Nat) : Nat := if r = 0 then 0 else (moveCell a b ((r - 1) / 32)) * 32 + (r - 1) % 32 + 1

def moveToken (a b : Cfg) (t : Token) : Token := if t.cfg = a.id then { t with route := moveRoute a b t.route } else t
def moveSrc (a b : Cfg) (x : Src) : Src := if x.kind ≠ 3 ∧ x.cfg = a.id then { x with who := moveCell a b x.who } else x

/-- The grove number of a saved configuration's engine jobs: no grove of the device. -/
def offGrove (g : Nat) : Nat := g + 1024
def moveGrove (a b : Cfg) (g : Nat) : Nat := groveOf (moveCell a b ((g - 1024) * 64))

def moveAcc (a b : Cfg) (x : Acc) : Acc := { x with src := moveSrc a b x.src }
def moveDest (a b : Cfg) (t : Token) (d : Nat) : Nat := if t.cfg = a.id then moveCell a b d else d

/-- A pending item under new origins of the configuration it belongs to. -/
def moveWork (a b : Cfg) (w : Work) : Work :=
  let own := fun (x : Src) => x.kind ≠ 3 ∧ x.cfg = a.id
  match w with
  | .token d t => .token (moveDest a b t d) (moveToken a b t)
  | .predicate d t => .predicate (moveDest a b t d) (moveToken a b t)
  | .done d x t k o => .done (moveDest a b t d) (moveSrc a b x) (moveToken a b t) k o
  | .closeDone i d x t l => .closeDone i (moveDest a b t d) (moveSrc a b x) (moveToken a b t) l
  | .store x => .store (moveAcc a b x)
  | .atomic x => .atomic (moveAcc a b x)
  | .contrib x o => .contrib (moveAcc a b x) o
  | .close x o q r n => .close (moveAcc a b x) o q r n
  | .check f => .check { f with src := moveSrc a b f.src }
  | .bar x o p n va => .bar (moveSrc a b x) o p n va
  | .copy j => if own j.src then .copy { j with src := moveSrc a b j.src, grove := moveGrove a b j.grove
                                                tok := j.tok.map fun q => (moveDest a b q.2 q.1, moveToken a b q.2) } else w
  | .rel j => if own j.src then .rel { j with src := moveSrc a b j.src, grove := moveGrove a b j.grove } else w
  | .sort j => if own j.src then .sort { j with src := moveSrc a b j.src, grove := moveGrove a b j.grove } else w
  | .relContrib c => .relContrib { c with src := moveSrc a b c.src }
  | .demand d => .demand { d with src := moveSrc a b d.src }
  | .waiting d => .waiting { d with src := moveSrc a b d.src }
  | .conv j => .conv { j with src := moveSrc a b j.src }
  | .coll j => .coll { j with src := moveSrc a b j.src }
  | w => w

/-- A saved cell on its new place: a lower capacity drops its tagged registers (R122). -/
def moveHeld (x : Cell) (hcap : Nat) : Cell :=
  { x with
    hcap := hcap
    held := if hcap < x.hcap then tmap {} (fun h => if h.tag.isSome then { h with value := 0, st := .dropped, err := false } else h) x.held else x.held }

/-- The stopped frames of a restored configuration deliver their records again, in the order of their stops (R423, R439). -/
def redeliver (s : State) (id : Nat) : State :=
  let rs := (getCfg s id).frames.foldl (fun l e => match e.2.stopped with
    | none => l
    | some r => insertRecord ({ r with frame := e.1, epoch := r.epoch + 1, resolved := false }.setW 0 (setBits (r.w 0) 36 1 0)) l) []
  rs.foldl (fun s r =>
    routeRecord (modFrame s id r.frame fun f => { f with stopped := some (if (getCfg s id).w 5 = 0 then r.escalated else r) }) r) s

/-- Parked tokens of frames that have not started start them (R98, R179). -/
def startParked (s : State) (id : Nat) : State :=
  let frs := (s.cells.flatMap fun e => (e.2.tokens.filter fun t => t.cfg == id).map (·.frame)).eraseDups
  frs.foldl (fun s fr => if (getFrame s id fr).live then s else startFrame s id fr) s

/-- A saved configuration at new origins: its record is the one its area names, as it stands when the arbiter considers it (R164, R184), in
the world of the saved context; queue and times of its completion record are the model's choice (log entry 75). -/
def restoredCfg (s : State) (a : Cfg) (e : QEntry) (v q : Nat) (origins : List Nat) : Cfg :=
  let rcd := match e.checked with | some (_, va) => va | none => a.rcd
  let words := (List.range 8).map fun k => BitVec.ofNat 64 (if k = 2 then putBits (rw v 2) 43 1 (bits (a.w 2) 43 1) else rw v k)
  { a with origins := origins, st := .running, queue := q, preempters := [], quiesce := false, rcd := rcd, rcdPa := (entryPa s e).getD a.rcdPa, words := words }

/-- A saved RQCK waits at its barrier as the cell it is restored to (R397). -/
def moveWait (s : State) (a b : Cfg) (w : BarWait) : BarWait :=
  let its := fun (x : Work) => match x with | .rel j => j.id == w.uid && j.src.kind != 3 && j.src.cfg == a.id | _ => false
  if s.work.any its then { w with who := moveCell a b w.who } else w

/-- Admission of a save area (R183): the cells look again at the tokens that were parked. -/
def restore (s : State) (e : QEntry) (v q pa : Nat) (z : Saved) (origins : List Nat) : State :=
  let a := getCfg s z.cfg
  let b := restoredCfg s a e v q origins
  let frames := b.frames.map fun f => (f.1, { f.2 with stopped := f.2.stopped.map fun r => { r with cell := moveCell a b r.cell } })
  let s := { s with cfgs := s.cfgs.map fun c => if c.id = z.cfg then { b with frames := frames } else c
                    work := s.work.map (moveWork a b), barWaits := s.barWaits.map (moveWait s a b), saves := s.saves.filter fun e => e.1 ≠ pa }
  let s := z.cells.foldl (fun s e =>
    let d := moveCell a b e.1
    modCell s d fun y => { moveHeld e.2 y.hcap with tokens := e.2.tokens.map (moveToken a b) }) s
  let s := z.groves.foldl (fun s e =>
    modGrove s (groveOf (moveCell a b (e.1 * 64))) fun g =>
      { e.2 with mismatches := g.mismatches, bc := g.bc, resblocks := g.resblocks, queue := e.2.queue.map fun m => { m with src := moveSrc a b m.src } }) s
  let s := b.cells.foldl recheck (startParked (redeliver (setConsts s z.cfg) z.cfg) z.cfg)
  setEvent (saveStatus s e 3) e.issuer 3

/-! ### What the arbiter considers (R164, R171, R184) -/

/-- A head that may be admitted: its queue, entry, record, map, and its save area's saved context. -/
structure Head where
  q : Nat
  e : QEntry
  v : Nat
  fit : Fit
  saved : Option (Nat × Saved)
  deriving DecidableEq, Repr

/-- What the arbiter makes of a head: it waits, it may be admitted, or the state changes. -/
inductive Verdict where
  | wait
  | ready (h : Head)
  | change (s : State)

/-- The capacity map of the image of a record; empty when the image is refused (R171). -/
def imageCap (s : State) (e : QEntry) (v : Nat) : List (Nat × Nat × Nat) :=
  match readImage s (spaceSrc e.issuer (recAsn v) (recSecure v)) (rw v 0) (recW v) (recH v) (recN v) fun _ _ _ => 0 with
  | .ok (some im) => capMap im.writes
  | _ => []

/-- A record that cannot be read leaves its queue (R164, R444). -/
def unreadable (s : State) (q : Nat) (e : QEntry) (va : Nat) (t : Trap) : State :=
  bboxEvent (leaveQueue s q e) 0 12 t.cause t.detail 0 0 0 0 va (q + t.cause * 256)

/-- The head of a queue that names a record. -/
def considerRecord (s : State) (q : Nat) (e : QEntry) : Verdict :=
  match jobBytes s (entrySrc e) e.addr 64 with
  | .error t => .change (unreadable s q e e.addr t)
  | .ok v =>
    if badShape (recW v) (recH v) (recN v) then .change (failRecord (leaveQueue s q e) v q e.issuer stBADSHAPE)
    else if recJoin v ≠ 0 then .wait
    else match e.cap with
      | none => .change (setQHead s q { e with cap := some (imageCap s e v) })
      | some cap =>
        let f : Fit := ⟨recW v, recH v, recN v, recSecure v, cap⟩
        if (place s true false f).isNone then .change (failRecord (leaveQueue s q e) v q e.issuer stNOCAP)
        else .ready ⟨q, e, v, f, none⟩

/-- The capacity map of saved cells. -/
def savedCap (a : Cfg) (z : Saved) : List (Nat × Nat × Nat) :=
  (z.cells.map fun e => (a.posOf (groveOf e.1), cellNo e.1, (List.range 8).foldl (fun m c => max m (topBit (e.2.field c 6 % 2 ^ 32))) 0)).filter
    fun q => q.2.2 ≠ 0

/-- The head of a queue that is a save area: it is checked when it is first considered, and restored as it stands afterwards (R184). -/
def considerSave (s : State) (q : Nat) (e : QEntry) : Verdict := match e.checked with
  | none => match jobBytes s (entrySrc e) e.addr 64 with
    | .error _ => .change (saveFails s q e (2 ^ 64))
    | .ok v => match saveCheck s e v with
      | none => .change (saveFails s q e v)
      | some (_, pa, _) => .change (setQHead s q { e with checked := some (pa, rw v 1) })
  | some (pa, va) => match s.saves.find? (fun z => z.1 == pa), jobBytes s (entrySrc e) va 64 with
    | some (_, z), .ok r =>
      if recJoin r ≠ 0 then .wait
      else
        let a := getCfg s z.cfg
        let f : Fit := ⟨a.width, a.height, a.stages, a.secure, savedCap a z⟩
        if (place s true true f).isNone then
          .change (dropSaved (failRecord (leaveQueue (saveStatus s e 4) q e) r q a.issuer stNOCAP) pa z)
        else .ready ⟨q, e, r, f, some (pa, z)⟩
    | _, _ => .change (saveFails s q e (va * 2 ^ 64))

def consider (s : State) (q : Nat) (e : QEntry) : Verdict := if e.save then considerSave s q e else considerRecord s q e

/-! ### Rounds (R170, R172, R173) -/

/-- The place of a head in the round order: rank descending, then queue number from RR on. -/
def headKey (s : State) (h : Head) : Nat := (255 - recRank h.v) * 64 + (h.q + 64 - tget 0 s.rr (recRank h.v)) % 64

def insertHead (s : State) (x : Head) : List Head → List Head
  | [] => [x]
  | y :: ys => if headKey s x ≤ headKey s y then x :: y :: ys else y :: insertHead s x ys

def placeHead (s : State) (h : Head) : Option (List Nat) := place s false h.saved.isSome h.fit

/-- Admit of R172. -/
def admitConfig (s : State) (h : Head) (origins : List Nat) : State :=
  let s := leaveQueue { s with rr := tset 0 s.rr (recRank h.v) ((h.q + 1) % 64) } h.q h.e
  match h.saved with
  | some (pa, z) => restore s h.e h.v h.q pa z origins
  | none => install s h.e h.v h.q origins

/-- A head is passed over (R172). -/
def bypass (s : State) (h : Head) : State :=
  let e := { h.e with bypass := min (h.e.bypass + 1) 8 }
  mirror (setQHead s h.q e) e

/-- The header of a waiting save area (R183): 2 when free rectangles exist and no cell map fits. -/
def waitStatus (s : State) (h : Head) : State :=
  match h.saved with
  | some _ => saveStatus s h.e (if (place s false true { h.fit with cap := [] }).isSome && (placeHead s h).isNone then 2 else 1)
  | none => s

/-- The heads before the first that can be placed, and that one with its origins. -/
def firstPlaced (s : State) : List Head → Option (List Head × Head × List Nat)
  | [] => none
  | h :: hs => match placeHead s h with
    | some o => some ([], h, o)
    | none => (firstPlaced s hs).map fun q => (h :: q.1, q.2)

/-- The heads that may be admitted, or the first change that considering them makes. -/
def considerAll (s : State) : List (Nat × QEntry) → Except State (List Head)
  | [] => .ok []
  | (q, e) :: l => match consider s q e with
    | .change t => .error t
    | .wait => considerAll s l
    | .ready h => (considerAll s l).map fun hs => h :: hs

/-- An arbitration round (R172).  That a change of a head ends it, and another follows, is the model's choice (log entry 76). -/
def roundStep (s : State) : State :=
  match considerAll s (queueHeads s) with
  | .error t => { t with round := true }
  | .ok hs =>
    let order := hs.foldr (insertHead s) []
    let s := { s with round := false }
    match order.find? fun h => 8 ≤ h.e.bypass with
    | some x => match placeHead s x with
      | some o => admitConfig s x o
      | none => order.foldl waitStatus s
    | none => match firstPlaced s order with
      | none => order.foldl waitStatus s
      | some (before, h, o) => (before.foldl bypass (before.foldl waitStatus (admitConfig s h o)))

/-- ARBITRATION_ROUND (R172). The arbiter considers the queue heads and admits at most one; only the head of a queue is
considered. -/
def execArbitrationRound (s : State) : Out State :=
  if s.round then .next (roundStep s) else notPending "no round is due"

/-! ### Completion (R167, R168) -/

/-- A value has yet to land in a cell of the configuration. -/
def fillPending (s : State) (id : Nat) : Bool := s.work.any fun w => match w with
  | .fill d _ _ _ => (getCell s d).cfg == id
  | _ => false

/-- Nothing of the configuration is live, and nothing of it is on its way (R98, R167). -/
def cfgIdle (s : State) (c : Cfg) : Bool :=
  !fillPending s c.id && !(c.frames.any fun f => frameActive s c.id f.1) && !(s.inflight.any fun f => f.src.kind != 3 && f.src.cfg == c.id) &&
  !(s.work.any fun w => (workFrame w).any fun f => f.1 == c.id) && !s.cells.any fun e => e.2.tokens.any fun t => t.cfg == c.id

/-- An installed configuration that is no unfinished splice's successor, and has not completed, completes: one that is being pre-empted
or held too. -/
def mayComplete (s : State) (c : Cfg) : Bool := c.st != .saved && !c.quiesce && c.pred.isNone && !c.done && cfgIdle s c

/-- Frames that FSKIP completed: counted at their numbers' next start, or not started since. -/
def skipCount (c : Cfg) : Nat := min 65535 (c.skips + (c.frames.filter fun f => f.2.skipped).length)

/-- The predecessor of a splice whose cells have all retired, and which has completed, is gone (R178). -/
def endSplice (s : State) (id : Nat) : State :=
  let c := getCfg s id
  if c.done && !(s.cells.any fun e => e.2.cfg == id) then
    { s with cfgs := (s.cfgs.filter fun k => k.id ≠ id).map fun k => if k.pred = some id then { k with pred := none } else k }
  else s

/-- Step 1 of R167: the glades are released and gated; a splice's stay with the successor. -/
def releaseGlades (s : State) (c : Cfg) : State :=
  if c.succ.isSome then endSplice (modCfg s c.id fun k => { k with done := true }) c.id
  else
    let s := dropFills s fun d => (getCell s d).cfg == c.id
    let s := (s.cells.filter fun e => e.2.cfg == c.id).foldl (fun s e => gateCell s e.1 0) s
    let s := c.groves.foldl (fun s g => modGrove s g clearArray) s
    { s with cfgs := s.cfgs.filter fun k => k.id ≠ c.id, round := true }

/-- The completion of a configuration (R167). -/
def completeCfg (s : State) (c : Cfg) : State :=
  let skips := skipCount c
  let v := ofLanes 64 (c.words.map (·.toNat))
  let s := releaseGlades s c
  let x := spaceSrc c.issuer c.spaceAsn c.secure
  let s := completionRecord s x (c.w 4)
    [c.queue % 65536 * 2 ^ 48 + 2 ^ 16 + (if skips = 0 then stOK else stFRAMEERR), timesWord c.wakeNs c.installNs, s.timens.toNat, c.late * 65536 + skips]
  let s := joinList s x (rw v 3)
  if bit (rw v 4) 62 then setEvent s c.issuer 1 else s

/-- CONFIG_COMPLETION (R167). A configuration with no live frame completes. -/
def execConfigCompletion (s : State) : Out State :=
  match (turnArg s).bind (findCfg s) with
  | some c => if mayComplete s c then .next (completeCfg s c) else notPending "the configuration is live"
  | none => notPending "no configuration completes"

end Sys2Proof.Machine
end

