-- ==== Sys2Proof/Machine/Sys.lean ====
section
/-! DEFINITION. SYS: traps taken and resolved (R424 to R437), TLBINV (R416), SMC (R407, R408), BBOX (R446) and CKPT (R447 to
R452), with their events. -/

namespace Sys2Proof.Machine

/-! ### Taking a record (R424, R429) -/

/-- The unit is at an instruction boundary and in no handler: running, idle or halted, with no request at Troira and no instruction
under way or in a stall that is no boundary (R407, R424). -/
def atBoundary (x : Ctl) : Bool := !x.handler && x.mode != .dead && x.wait.isNone && !x.midway

/-- The record's configuration is not being pre-empted, held or saved (R179, R439). -/
def recordDue (s : State) (r : TrapRec) : Bool := (getCfg s r.cfg).st == .running

/-- A unit may take the record at the head of its queue. -/
def trapReady (x : Ctl) : Bool := atBoundary x && !x.queue.isEmpty

/-- A core may take one: its SVVEC is not 0 (R429). -/
def superReady (x : Ctl) : Bool := trapReady x && x.svvec != 0

/-- A record is taken at the boundary at which the unit stands, ahead of its next instruction (R424, R437). -/
def takesRecord (s : State) (u : Nat) (x : Ctl) : Bool :=
  if isCore u then superReady x else trapReady x && x.queue.head?.any (recordDue s)

/-- TRAP_TAKE (R424). A controller takes a queued trap record and enters its user handler: user mode, the space of the
launch record's W6, pc W5, bank 1 cleared. -/
def execTrapTake (s : State) : Out State :=
  match turnArg s with
  | some u =>
    let x := getCtl s u
    match x.queue with
    | r :: q =>
      if !isCore u && trapReady x && recordDue s r then
        let c := getCfg s r.cfg
        .next (setCtl (dropWait s u 0) u (enterHandler x u r q (c.w 5) true c.asn))
      else notPending "the unit is not at a boundary"
    | [] => notPending "no record waits"
  | none => notPending "no record waits"

/-- SUPERVISOR_TRAP_TAKE (R429). A supervisor core takes a queued record and enters its handler at SVVEC; EPC receives the
interrupted pc. -/
def execSupervisorTrapTake (s : State) : Out State :=
  match turnArg s with
  | some u =>
    let x := getCtl s u
    match x.queue with
    | r :: q =>
      if isCore u && superReady x then
        .next (setCtl (dropWait s u 0) u { enterHandler x u r q x.svvec.toNat false 0 with epc := BitVec.ofNat 64 x.pc })
      else notPending "the core is not at a boundary"
    | [] => notPending "no record waits"
  | none => notPending "no record waits"

/-! ### SVC and ERET -/

/-- SVC (R433). Forms an SVC record and halts the unit until the supervisor resolves it. -/
def execSvc (d a b : Spec) (s : State) : Out State :=
  onCtls (.svc d a b) s fun u pc s =>
    if (getCtl s u).handler then illop
    else
      let r := controlRecord s u pc kSVC { cause := 0, addr := b.toNat, aux := readG s u a }
      .ok (sendControl (modCtl s u fun x => { x with mode := .halted, pc := pc, svcDst := d.toNat }) u r)

/-- The record in force, where the unit is in a handler. -/
def inForce (x : Ctl) : Option TrapRec := if x.handler then x.rcd else none

/-- ERET (R437). Leaves the supervisor handler and resumes at EPC; an unresolved frame stays stopped (R430). -/
def execEret (s : State) : Out State :=
  onCtls .eret s fun u _ s =>
    let x := getCtl s u
    if x.user then trapR cPERM dMODE
    else if !(isCore u && x.handler) then illop
    else .ok (setCtl s u { endHandler x with pc := x.epc.toNat })

/-! ### Resolving a record (R434, R435) -/

/-- Every cell looks again at its waiting tokens. -/
def recheckAll (s : State) : State := s.cells.foldl (fun s e => recheck s e.1) s

/-- The frame is no longer stopped (R434): its parked tokens return to matching. -/
def resumeFrame (s : State) (cfg fr : Nat) : State := recheckAll (modFrame s cfg fr fun f => { f with stopped := none })

/-- The frame is skipped (R435): its waiting tokens are discarded, its accumulator sets are released, and its register
loads that stopped it deliver 0 (R286). -/
def skipFrame (s : State) (cfg fr : Nat) : State :=
  let s : State := modFrame s cfg fr fun f => { f with stopped := none, skipped := true }
  let s := releaseSets s cfg fr
  let s : State := { s with
    cells := tmap {} (fun (x : Cell) =>
      { x with
        tokens := x.tokens.filter fun t => !(t.cfg == cfg && t.frame == fr)
        sources := if x.cfg = cfg then x.sources.filter fun q => q.2 ≠ fr else x.sources
        passed := if x.cfg = cfg then x.passed.filter fun p => p.2.1 ≠ fr else x.passed }) s.cells }
  let failed : List Demand := s.work.filterMap fun (w : Work) => match w with
    | .waiting d => if d.failed && d.src.cfg == cfg && d.src.frame == fr then some d else none
    | _ => none
  let s : State := { s with work := s.work.filter fun (w : Work) => match w with
    | .waiting d => !(d.failed && d.src.cfg == cfg && d.src.frame == fr)
    | _ => true }
  failed.foldl (fun (s : State) (d : Demand) => match d.held with
    | some k => modCell s d.src.who fun x => { x with held := tmod {} x.held k fun h => { h with value := 0, st := .full, err := false } }
    | none => s) s

/-- A halted unit goes on at `pc`; in a handler of its own it does so when the handler ends. -/
def resumeUnit (s : State) (v pc : Nat) : State :=
  modCtl s v fun x =>
    if x.handler then { x with saved := { x.saved with mode := .running, pc := pc }, epc := if isCore v then BitVec.ofNat 64 pc else x.epc }
    else { x with mode := .running, pc := pc }

/-- The pc at which a unit is halted. -/
def haltedPc (s : State) (v : Nat) : Nat := let x := getCtl s v; if x.handler then x.saved.pc else x.pc

/-- The unit is halted at an instruction, perhaps behind a handler of its own. -/
def isHalted (s : State) (v : Nat) : Bool := let x := getCtl s v; (if x.handler then x.saved.mode else x.mode) == .halted

/-- The result of an SVC reaches its issuer (R433): bank 0, and the unit goes on behind its SVC. -/
def svcResult (s : State) (v : Nat) (w : Word) : State :=
  resumeUnit (modCtl s v fun x => x.setG0 x.svcDst w) v (haltedPc s v + 4)

/-- The frame of the record is still stopped; a record that is held for a frame which was saved is stale (R439). -/
def frameHeld (s : State) (r : TrapRec) : Bool :=
  (findCfg s r.cfg).any fun c => c.st != .saved && (c.frame r.frame).stopped.any fun q => q.epoch == r.epoch

/-- The record is resolved: a user handler ends, a supervisor handler goes on. -/
def resolved (s : State) (u : Nat) : State :=
  if isCore u then modCtl s u fun x => { x with rcd := x.rcd.map fun r => { r with resolved := true } } else modCtl s u endHandler

/-- The record of a job that a controller or core issued: no frame stopped for it (R258). -/
def TrapRec.frameless (r : TrapRec) : Bool := r.kind == kJOB && r.cfg == 0

/-- FRES and FSKIP where no unresolved record is in force fault with ILLOP (R432, R439). -/
def resolvable (s : State) (u : Nat) : R TrapRec :=
  match inForce (getCtl s u) with
  | some r =>
    if r.resolved then illop
    else if r.kind ≤ 2 then (if r.frameless || frameHeld s r then .ok r else illop)
    else if isHalted s r.unit then .ok r else illop
  | none => illop

/-- FRES (R434). Resolves the current trap record by resuming. -/
def execFres (a : Spec) (s : State) : Out State :=
  onCtls (.fres a) s fun u _ s => do
    let r ← resolvable s u
    let v : Word := BitVec.ofNat 64 (readG s u a)
    let s := if r.frameless then s
      else if r.kind ≤ 2 then resumeFrame s r.cfg r.frame
      else if r.kind = kSVC then svcResult s r.unit v
      else resumeUnit s r.unit (haltedPc s r.unit)
    .ok (resolved s u)

/-- FSKIP (R435). Resolves the current trap record by skipping the frame or instruction. -/
def execFskip (s : State) : Out State :=
  onCtls .fskip s fun u _ s => do
    let r ← resolvable s u
    let s := if r.frameless then s
      else if r.kind ≤ 2 then skipFrame s r.cfg r.frame
      else if r.kind = kSVC then svcResult s r.unit (BitVec.allOnes 64)
      else resumeUnit s r.unit (haltedPc s r.unit + (if longMajor (r.w 2).toNat then 8 else 4))
    .ok (resolved s u)

/-- ESCAL (R436). Escalates the current record to the supervisor; a full queue stalls it (R429). -/
def execEscal (s : State) : Out State :=
  onCtls .escal s fun u _ s =>
    let x := getCtl s u
    match inForce x with
    | some r =>
      if isCore u then illop
      else
        let c := getCfg s r.cfg
        let full := match superCore s u c.secure with
          | some v => decide (64 ≤ (getCtl s v).queue.length)
          | none => false
        if full then .error .stall
        else
          let s := modFrame s r.cfg r.frame fun f => { f with stopped := f.stopped.map fun _ => r.escalated }
          .ok (escalate (modCtl s u endHandler) u c.secure r)
    | none => illop

/-! ### TLBINV (R416) -/

/-- An access may have used an entry that a TLBINV of this address and space removes: it lies within the largest page
that holds the address. -/
def mayUse (va asn : Option Nat) (src : Src) (v : Nat) : Bool :=
  (match asn with | some n => src.asn == n | none => true) && (match va with | some a => v / 2 ^ 30 == a / 2 ^ 30 | none => true)

/-- The removed entries. -/
def tlbHit (va asn : Option Nat) (e : TlbEntry) : Bool :=
  (match asn with | some n => e.asn == n | none => true) &&
  (match va with | some a => decide (e.vpage ≤ a) && decide (a < e.vpage + e.size) | none => true)

/-- Every matching entry leaves every holder and every walker. -/
def tlbRemove (s : State) (va asn : Option Nat) : State :=
  { s with tlbs := (s.tlbs.map fun t => (t.1, t.2.filter fun e => !tlbHit va asn e)).filter fun t => !t.2.isEmpty
           work := s.work.filter fun w => match w with
             | .walk _ n a _ => !((match asn with | some m => n == m | none => true) && (match va with | some b => b / 2 ^ 30 == a / 2 ^ 30 | none => true))
             | _ => true }

/-- A barrier object whose address was translated when it was named, and that something under way has yet to reach: who named it, its
physical address, and its virtual one. -/
structure HeldBar where
  src : Src
  pa : Nat
  va : Nat

/-- The barrier that a job names, if it does. -/
def barOf (x : Src) (bar : Option (Nat × Nat)) : List HeldBar := bar.toList.map fun b => { src := x, pa := b.1, va := b.2 }

/-- The barriers of a relation job: that of its bytes, and an RQCK's until it has arrived there. -/
def relBars (j : RelJob) : List HeldBar :=
  barOf j.src j.bar ++ match j.op with
    | .rqck _ bar va .. => if j.arrived then [] else [{ src := j.src, pa := bar, va := va }]
    | _ => []

def cmdBars (x : Src) : Cmd → List HeldBar
  | .bar _ pa _ va => [{ src := x, pa := pa, va := va }]
  | .copy j => barOf j.src j.bar
  | .rel j => relBars j
  | _ => []

def workBars : Work → List HeldBar
  | .bar x _ pa _ va => [{ src := x, pa := pa, va := va }]
  | .copy j => barOf j.src j.bar
  | .rel j => relBars j
  | .relContrib c => barOf c.src c.bar
  | .close a _ _ bar _ => barOf a.src bar
  | _ => []

/-- Those of the pending work, of recorded closes and of the output buffers. -/
def heldBars (s : State) : List HeldBar :=
  s.work.flatMap workBars ++ (s.groups.flatMap fun g => g.2.closes.flatMap fun c => barOf c.src c.bar) ++
  s.cells.flatMap fun e => match e.2.firing with
    | some f => f.out.flatMap fun x => match x with
      | .cmd k _ => cmdBars (firingSrc s e.1 f) k
      | .close a bar => barOf a.src bar
      | _ => []
    | none => []

/-- Some access that may have used a removed entry is not yet performed. -/
def tlbBusy (s : State) (va asn : Option Nat) : Bool :=
  (s.inflight.any fun f => f.ranges.any fun r => mayUse va asn f.src r.va) ||
  ((heldBars s).any fun b => mayUse va asn b.src b.va) ||
  (s.drains.any fun e => e.2.any fun c => mayUse va asn c.src c.blockVa) ||
  s.work.any fun w => match w with
    | .check f => f.ranges.any fun r => mayUse va asn f.src r.va
    | .store a | .atomic a | .contrib a _ => a.pieces.any fun p => mayUse va asn a.src p.va
    | _ => false

/-- TLBINV (R416). Removes matching translation entries device-wide, and waits until the accesses that used them are
performed; what is removed stays removed while it waits. -/
def execTlbinv (a b : Spec) (s : State) : Out State :=
  onCtls (.tlbinv a b) s fun u _ s =>
    let va := if a.toNat = 44 then none else some (readG s u a)
    let asn := if b.toNat = 44 then none else some (readG s u b)
    if (getCtl s u).user then trapR cPERM dMODE
    else if 2 ^ 56 ≤ va.getD 0 then boundsR (va.getD 0)
    else if 255 < asn.getD 0 then boundsR (asn.getD 0)
    else
      let s := tlbRemove s va asn
      if tlbBusy s va asn then .error (.redo s) else .ok s

/-! ### SMC (R407, R408) -/

/-- The issuer asks Troira and stalls; the reply is written when it has come (R407). -/
def smcInstr (i : Instr) (d a b : Spec) (s : State) : Out State :=
  onCtls i s fun u _ s =>
    let x := getCtl s u
    if x.user then trapR cPERM dMODE
    else match x.wait, x.reply with
      | some _, some w => .ok (modCtl s u fun y => { y.setG d.toNat w with wait := none, reply := none })
      | some _, none => .error .stall
      | none, _ =>
        let q := fresh s
        let s := modCtl q.2 u fun y => { y with wait := some q.1, reply := none }
        .error (.redo (addWork s (.smc u q.1 (readG s u a) (readG s u b) x.asn)))

/-- SMC_SETBLK (R407). Asks Troira to set a block's world; any code that is none of the four is asked for in this form. -/
def execSmcSetblk (d a b : Spec) (s : State) : Out State := smcInstr (.smcSetblk d a b) d a b s

/-- SMC_SETRGN (R407). Asks Troira to write a region entry. -/
def execSmcSetrgn (d a b : Spec) (s : State) : Out State := smcInstr (.smcSetrgn d a b) d a b s

/-- SMC_GETBLK (R407). Asks Troira for a block's world. -/
def execSmcGetblk (d a b : Spec) (s : State) : Out State := smcInstr (.smcGetblk d a b) d a b s

/-- SMC_GETRGN (R407). Asks Troira to write out a region entry. -/
def execSmcGetrgn (d a b : Spec) (s : State) : Out State := smcInstr (.smcGetrgn d a b) d a b s

/-- Blocks of a kind (R402). -/
def blockCount (kind : Nat) : Nat := match kind with
  | 0 => 1024 | 1 => 16384 | 2 => 4096 | 3 => 32 | 4 => 64 | 5 => 4 | 6 => 16 | _ => 0

/-- The edge streamers and ports that a conversion or an instance uses: that of its elements, and those that lead to its devices. -/
def jobPorts (s : State) (coll : Bool) (j : ConvJob) : List Nat :=
  jobPort s coll j :: ((jobDevs s coll j).filter (· != ownDev s)).map fun d => Config.portOf d % 32

/-- The block may not change now (R407 BUSY): it lies in an installed or held glade, is a queue with entries, or an engine
with a job outstanding. -/
def blockBusy (s : State) (kind i : Nat) : Bool := match kind with
  | 0 => (cfgOfGrove s i).isSome
  | 1 => (cfgOfGrove s (i / 16)).isSome
  | 2 => (cfgOfGrove s (i / 4)).isSome || portRuns s (i / 4) (i % 4) || portBound s (i / 4) (i % 4)
  | 3 => s.work.any fun w => match w with
    | .conv j => (jobPorts s false j).contains i
    | .coll j => (jobPorts s true j).contains i
    | .packet p => p.port == i
    | _ => false
  | 4 => tget [] s.queues i != []
  | 5 => tget [] s.drains i != []
  | _ => false

/-- The bytes of a region entry that is in force. -/
def entryBytes (w : Word) : Nat × Nat := if bit w.toNat 63 then regionBytes w else (0, 0)

/-- An entry that R405 refuses, beside the other entries; one with a reserved bit set is refused valid or not (R3). -/
def entryRefused (s : State) (n : Nat) (w : Word) : Bool :=
  let x := w.toNat
  let limit := if bit x 61 then 393216 else 24576
  bits x 40 21 != 0 || bit x 63 && (bits x 20 20 == 0 || decide (limit < bits x 0 20 + bits x 20 20) ||
    s.regions.any fun e => e.1 != n && bit e.2.toNat 63 && bit e.2.toNat 61 == bit x 61 &&
      decide ((regionBytes e.2).1 < (regionBytes w).1 + (regionBytes w).2) && decide ((regionBytes w).1 < (regionBytes e.2).1 + (regionBytes e.2).2))

/-- Every byte of a range that is normal in `s'` and was secure in `s` reads 0 (R408). -/
def zeroNormal (s s' : State) (lo n : Nat) : State :=
  let hit := fun pa => lo ≤ pa && pa < lo + n && byteSecure s pa && !byteSecure s' pa
  let s' := drainAll s' (lo * 8) (n * 8)
  { s' with mem := s'.mem.filter fun e => !hit e.1, views := [], poison := s'.poison.filter fun g => !hit g }

/-- The state with the map changed and the bytes that leave the secure world zeroed (R408). -/
def changeMap (s s' : State) (ranges : List (Nat × Nat)) : State := ranges.foldl (fun t r => zeroNormal s t r.1 r.2) s'

/-- The bytes a request affects. -/
def smcBytes (s : State) (code operand : Nat) (block : Nat → Nat) : List (Nat × Nat) :=
  if code = 1 then (if bits operand 16 4 = 1 then [(bits operand 0 14 * 0x18000, 0x18000)] else [])
  else if code = 2 then [entryBytes (tget 0 s.regions (block 0 % 256)), entryBytes (BitVec.ofNat 64 (block 1))]
  else []

/-- The operand block of a request that names one: its physical address, or none for one that is refused (R407).  Troira reads it, and
writes it for GETRGN, as the issuer may (R204, R413); an uncorrectable error of the block or of a table is the issuer's fault (R440). -/
def smcBlock (s : State) (u asn operand : Nat) (write : Bool) : Except Trap (Option Nat) :=
  let x : Src := { kind := 3, who := u, asn := asn, user := false, secure := unitSecure s u }
  let refused := fun (t : Trap) => if t.cause = cECCUNC then .error t else .ok none
  if operand % 16 ≠ 0 then .ok none
  else match walkCheck s x .read operand 16 with
    | .error t => refused t
    | .ok pa =>
      if poisonedRange s pa 16 then .error (cause cECCUNC 0 operand)
      else match (if write then walkCheck s x .write (operand + 8) 8 else .ok pa) with
        | .error t => refused t
        | .ok _ => .ok (some pa)

/-- A request answered: status, world and state (R407, R408), or the fault of its operand block.  Refusals come in the order BADREQ,
DENIED, BUSY. -/
def smcAnswer (s : State) (u code operand asn : Nat) : Except Trap (Nat × Nat × State) :=
  let sec := unitSecure s u
  let grants := Config.smcPolicy code operand
  let kind := bits operand 16 4
  let idx := bits operand 0 14
  if code = 1 ∨ code = 3 then
    let now := blockSecure s kind idx
    if blockCount kind ≤ idx then .ok (3, 0, s)
    else if code = 3 then .ok (if grants then (0, if now then 1 else 0, s) else (1, 0, s))
    else
      let want := bit operand 63
      if !grants || (!sec && (want || now)) then .ok (1, 0, s)
      else if blockBusy s kind idx then .ok (2, 0, s)
      else
        let t := { s with blocks := tset false s.blocks (blockKey kind idx) want }
        .ok (0, 0, changeMap s t (smcBytes s code operand fun _ => 0))
  else if code = 2 ∨ code = 4 then
    match smcBlock s u asn operand (code == 4) with
    | .error t => .error t
    | .ok none => .ok (3, 0, s)
    | .ok (some pa) =>
      let n := readWord s pa % 256
      let old := tget 0 s.regions n
      if code = 4 then .ok (if grants then (0, 0, putBytes s (pa + 8) 8 old.toNat (ctlSrc s u (getCtl s u).pc).insn.toNat) else (1, 0, s))
      else
        let new := BitVec.ofNat 64 (readWord s (pa + 8))
        if entryRefused s n new then .ok (3, 0, s)
        else if !grants || (!sec && ((bit new.toNat 63 && bit new.toNat 62) || (bit old.toNat 63 && bit old.toNat 62))) then .ok (1, 0, s)
        else
          let t := { s with regions := tset 0 s.regions n new }
          .ok (0, 0, changeMap s t [entryBytes old, entryBytes new])
  else .ok (3, 0, s)

/-- No access is in flight to the affected bytes (R408 step 1): among them the updates of barriers that were named before, and the granules
and headers that drain engines have yet to copy and write. -/
def smcDrained (s : State) (u code operand asn : Nat) : Bool :=
  let block := fun k => match smcBlock s u asn operand false with | .ok (some pa) => readWord s (pa + 8 * k) | _ => 0
  let rs := smcBytes s code operand block
  let meets := fun (lo len : Nat) => rs.any fun r => lo < (r.1 + r.2) * 8 && r.1 * 8 < lo + len
  !(s.inflight.any fun f => f.ranges.any fun r => meets r.lo r.len) && !((heldBars s).any fun b => meets (b.pa * 8) 128) &&
  !(s.drains.any fun e => e.2.any fun c => meets (c.block * 8) 512 || c.pending.any fun g => meets (g.1 * 8) 32768 || meets (g.2 * 8) 32768) &&
  !s.work.any fun w => match w with
    | .check f => f.ranges.any fun r => meets r.lo r.len
    | .store a | .atomic a | .contrib a _ => a.pieces.any fun p => meets p.bit p.len
    | .copy j => j.foot.any fun r => meets r.lo r.len
    | _ => false

/-- SMC_REPLY (R408). Troira drains in-flight accesses, applies the change, zeroes what leaves the secure world, and
replies. -/
def execSmcReply (s : State) : Out State :=
  match turnWork s with
  | some (k, .smc u _ code operand asn) =>
    if smcDrained s u code operand asn then
      match smcAnswer (dropWork s k) u code operand asn with
      | .error t => .next (takeCtlTrap (dropWork s k) u (getCtl s u).pc t)
      | .ok r => .next (modCtl r.2.2 u fun x => { x with reply := some (BitVec.ofNat 64 (r.1 + r.2.1 * 65536)) })
    else notPending "accesses are in flight"
  | _ => notPending "no request waits"

/-! ### BBOX (R446) -/

/-- Word `k` of a black-box event. -/
def bboxWord (e : BitVec 256) (k : Nat) : Nat := bits e.toNat (64 * k) 64

/-- BBOX (R446). Reads one black-box event into a G quad. -/
def execBbox (d a b : Spec) (s : State) : Out State :=
  onCtls (.bbox d a b) s fun u _ s =>
    let n := readG s u a
    let basin := readG s u b
    if (getCtl s u).user then trapR cPERM dMODE
    else if 3 < basin then boundsR basin
    else
      let x := tget {} s.bbox basin
      let e := if x.seq ≤ n ∨ n + 4096 < x.seq then 0 else tget 0 x.events (n % 4096)
      .ok ((List.range 4).foldl (fun s k => writeG s u (BitVec.ofNat 6 (d.toNat + k)) (bboxWord e k)) s)

/-- BBOX_WR (R446). Records a SOFT black-box event. -/
def execBboxWr (a b : Spec) (s : State) : Out State :=
  onCtls (.bboxWr a b) s fun u _ s =>
    if (getCtl s u).user then trapR cPERM dMODE
    else .ok (bboxEvent s (basinOfUnit u) 8 0 0 (unitGrove u) 0 0 0 (readG s u a) (readG s u b))

/-! ### CKPT (R447 to R452) -/

/-- A region entry of a checkpoint block: source, length, destination. -/
structure CkptEntry where
  w0 : Nat
  w1 : Nat
  w2 : Nat
  w3 : Nat
  deriving DecidableEq, Repr

def CkptEntry.src (e : CkptEntry) : Nat := bits e.w0 0 56
def CkptEntry.len (e : CkptEntry) : Nat := bits e.w1 0 36
def CkptEntry.dst (e : CkptEntry) : Nat := bits e.w2 0 56

/-- The entries of a block. -/
def ckptEntries (v n : Nat) : List CkptEntry :=
  (List.range n).map fun i => ⟨bits v (512 + 256 * i) 64, bits v (576 + 256 * i) 64, bits v (640 + 256 * i) 64, bits v (704 + 256 * i) 64⟩

/-- Parts of a region that lie in one page of the source and one page of the destination: source and destination
virtual start, bytes. -/
def ckptParts (src dst n : Nat) : List (Nat × Nat × Nat) :=
  (pageParts src n).flatMap fun p => (pageParts (dst + (p.1 - src)) p.2).map fun q => (src + (q.1 - dst), q.1, q.2)

/-- Translation of every region (step 4 of R451); what else a walk meets is its fault (R440). -/
def ckptMapped (s : State) (x : Src) (va n : Nat) : R Unit :=
  if 2 ^ 56 < va + n then trapR cTRANSL 0 va
  else match (pageParts va n).findSome? fun p => match walkAt s x.asn p.1 x.secure with
    | .error t => some t
    | .ok e => if placeOf (e.ppage + (p.1 - e.vpage)) = .hole then some (cause cTRANSL 0 p.1) else none with
    | some t => .error (.trap t)
    | none => .ok ()

/-- Where a part of a mapped region lies. -/
def ckptPa (s : State) (x : Src) (va : Nat) : Nat := match walk s x.asn va x.secure with
  | some e => canonPa s (e.ppage + (va - e.vpage))
  | none => 0

/-- A part's physical address, where a check of it refuses nothing that `only` names. -/
def ckptCheck (s : State) (x : Src) (k : Acs) (va n : Nat) (only : Trap → Bool) : R Nat := match walkCheck s x k va n with
  | .ok pa => .ok pa
  | .error t => if only t then .error (.trap t) else .ok (ckptPa s x va)

/-- A refusal for a CONST region or a barrier page. -/
def Trap.keeps (t : Trap) : Bool := t.cause == cPERM && (t.detail == dCONST || t.detail == dBARRIERPAGE)

/-- Permission of one part (step 5 of R451): its physical source and destination.  The destination is checked for CONST, barrier pages and
the other world whichever way the bytes go; a peer that no link reaches now refuses nothing yet (R450). -/
def ckptAllowed (s : State) (x : Src) (rest : Bool) (p : Nat × Nat × Nat) : R (Nat × Nat × Nat) := do
  let refuses := fun (t : Trap) => t.cause != cLINK
  let a ← ckptCheck s x (if rest then .copyDst else .read) p.1 p.2.2 refuses
  let _ ← ckptCheck s x .copyDst p.2.1 p.2.2 fun t => refuses t && (!rest || t.keeps)
  let b ← ckptCheck s x (if rest then .read else .copyDst) p.2.1 p.2.2 refuses
  if !isLocal a then trapR cPERM 0 p.1
  else if placeOf b = .sram then trapR cPERM 0 p.2.1
  else if otherWorld s x b p.2.2 then trapR cPERM dWORLD p.2.1
  else .ok (a, b, p.2.2)

/-- Two physical ranges share a byte. -/
def bytesMeet (a n b m : Nat) : Bool := a < b + m && b < a + n

/-- Some two of the block's regions overlap, as sources, as destinations, or one with the other (R451). -/
def ckptOverlap (rs : List (Nat × Nat × Nat × Nat)) : Bool :=
  rs.any fun p => rs.any fun q =>
    bytesMeet p.2.1 p.2.2.2 q.2.2.1 q.2.2.2 ||
    (p.1 != q.1 && (bytesMeet p.2.1 p.2.2.2 q.2.1 q.2.2.2 || bytesMeet p.2.2.1 p.2.2.2 q.2.2.1 q.2.2.2))

/-- The 4 KiB granules of physical parts. -/
def granulesOf (ps : List (Nat × Nat × Nat)) : List (Nat × Nat) :=
  ps.flatMap fun p => (List.range (p.2.2 / 4096)).map fun i => (p.1 + 4096 * i, p.2.1 + 4096 * i)

/-- Start of a checkpoint or restore (R451): the checks in their order, then BUSY, OVERLAP, or the snapshot.  A block that the issuer may not
write faults with the reads of it (R204; log entry 34). -/
def ckptStart (s : State) (u pc va : Nat) (rest : Bool) : R (State × Nat) := do
  let x := ctlSrc s u pc
  let basin := basinOfUnit u
  let h ← ctlBlock s u pc va 64 64
  let b ← translate s (ctlStream u) x .write va 64
  let n := bits h 0 7
  let v ← (if n = 0 ∨ 64 < n then (.ok h : R Nat) else ctlBlock s u pc va (64 + 32 * n) 64)
  let es := ckptEntries v n
  if n = 0 ∨ 64 < n ∨ bits v 7 57 ≠ 0 ∨ bits v 64 128 ≠ 0 ∨ bits v (192 + 36) 4 ≠ 0 ∨ bits v 320 192 ≠ 0 then illop
  else if es.any fun e => bits e.w0 56 8 != 0 || bits e.w1 36 28 != 0 || bits e.w2 56 8 != 0 || e.w3 != 0 || e.len == 0 || e.len % 4096 != 0 then illop
  else if 2 ^ 36 ≤ (es.map CkptEntry.len).sum then illop
  else match es.find? fun e => e.src % 4096 != 0 || e.dst % 4096 != 0 with
    | some e => trapR cALIGN 0 (if e.src % 4096 ≠ 0 then e.src else e.dst)
    | none => do
      let _ ← es.mapM fun e => do
        ckptMapped s x e.src e.len
        ckptMapped s x e.dst e.len
      -- a normal issuer may not use a secure engine (R403), and the engine has to write the header
      guardR (x.secure || !blockSecure s 5 basin) (cause cPERM dWORLD va)
      let _ ← liftTrap (walkCheck s (drainSrc s basin x) .write va 64)
      let vas := es.map fun e => ckptParts e.src e.dst e.len
      let parts ← vas.mapM fun l => l.mapM (ckptAllowed s (drainSrc s basin x) rest)
      let tagged := (parts.zipIdx).flatMap fun e => e.1.map fun p => (e.2, p)
      let held := tget [] s.drains basin
      let rs := parts.flatten
      if 4 ≤ held.length then .ok (s, 1)
      else if ckptOverlap (tagged.map fun e => (e.1, e.2.1, e.2.2.1, e.2.2.2)) ||
          held.any fun c => c.regions.any fun r => rs.any fun p => bytesMeet r.1 r.2.2 p.1 p.2.2 then .ok (s, 2)
      else do
        let q := fresh s
        let c : Ckpt :=
          { id := q.1, src := x, block := b.1, blockVa := va, rest := rest, regions := rs, pending := granulesOf rs
            vas := (vas.flatten.zip rs).flatMap fun p => [(p.2.1, p.1.1, p.1.2.2), (p.2.2.1, p.1.2.1, p.1.2.2)] }
        if rest then checkNow s (jobCheck x (ckptFoot c) 3)
        let s := ckptPut drainAll (ckptHeader drainAll q.2 c 1 0) c 32 s.timens.toNat
        .ok ({ s with drains := tmod [] s.drains basin fun l => l ++ [c] }, 0)

/-- CKPT (R451). Checks a checkpoint block and takes the snapshot. -/
def execCkpt (d a : Spec) (s : State) : Out State :=
  onCtls (.ckpt d a) s fun u pc s => do
    let r ← ckptStart s u pc (readG s u a) false
    .ok (writeG r.1 u d r.2)

/-- CKPT_REST (R452). Starts a restore job copying regions back from their destinations. -/
def execCkptRest (d a : Spec) (s : State) : Out State :=
  onCtls (.ckptRest d a) s fun u pc s => do
    let r ← ckptStart s u pc (readG s u a) true
    .ok (writeG r.1 u d r.2)

/-- W3 of a block's header. -/
def ckptState (s : State) (u pc va : Nat) : R Nat := (ctlBlock s u pc va 64 64).map fun h => bits h 192 64

/-- CKPT_POLL (R451). Reads a checkpoint header word without waiting. -/
def execCkptPoll (d a : Spec) (s : State) : Out State :=
  onCtls (.ckptPoll d a) s fun u pc s => do
    let w ← ckptState s u pc (readG s u a)
    .ok (writeG s u d w)

/-- CKPT_WAIT (R451). Waits while a checkpoint is active. -/
def execCkptWait (d a : Spec) (s : State) : Out State :=
  onCtls (.ckptWait d a) s fun u pc s => do
    let w ← ckptState s u pc (readG s u a)
    if bits w 48 16 = 1 then .error .stall else .ok (writeG s u d w)

/-- CKPT_ABORT (R451). Aborts an active or queued checkpoint of the block. -/
def execCkptAbort (d a : Spec) (s : State) : Out State :=
  onCtls (.ckptAbort d a) s fun u pc s => do
    let va := readG s u a
    let _ ← ckptState s u pc va
    let q ← translate s (ctlStream u) (ctlSrc s u pc) .read va 64
    let s := match s.drains.findSome? fun e => (e.2.find? fun c => c.block == q.1).map fun c => (e.1, c) with
      | some (basin, c) => ckptLeave drainAll s basin c 4 0
      | none => s
    .ok (writeG s u d (readWord s (q.1 + 24)))

/-- The oldest checkpoint of a basin's engine (R448). -/
def ckptHead (s : State) (basin : Nat) : Option Ckpt := (tget [] s.drains basin).head?

/-- The granule that a basin's engine copies next: of its oldest checkpoint; a restore waits for earlier jobs on what it overlaps
(R216, R452). -/
def ckptNext (s : State) (basin : Nat) : Option (Ckpt × Nat × Nat) :=
  (ckptHead s basin).bind fun c =>
    if c.rest && footWaits s c.id c.src (ckptFoot c) then none else c.pending.head?.map fun g => (c, g)

/-- CKPT_GRANULE_COPY (R448). The drain engine copies the next granule of its oldest checkpoint; the copy early, when a
write waits on it, is made by the write itself (drainAll). -/
def execCkptGranuleCopy (s : State) : Out State :=
  match (turnArg s).bind fun b => (ckptNext s b).map fun q => (b, q) with
  | some (b, c, g) => .next (ckptCopy drainAll s b c.id g)
  | none => notPending "no granule is to be copied"

/-- CKPT_COMPLETE (R448). All destination bytes are performed and state 2 is written. -/
def execCkptComplete (s : State) : Out State :=
  match (turnArg s).bind fun b => (ckptHead s b).map fun c => (b, c) with
  | some (b, c) =>
    if c.pending = [] then .next (ckptHeader drainAll (modCkpt s b c.id fun _ => none) c 2 0) else notPending "granules are left"
  | none => notPending "no checkpoint is held"

end Sys2Proof.Machine
end

