-- ==== Sys2Proof/Machine/Sched.lean ====
section
/-! DEFINITION. The SCHED instructions (R185 to R192) and their events: splices (R174 to R178), the held state (R179, R263),
saving (R180) and the timeout of WFE. -/

namespace Sys2Proof.Machine

/-! ### Addresses and records (R185) -/

/-- A misaligned address faults with ALIGN. -/
def aligned (va n : Nat) : R Unit := if va % n ≠ 0 then trapR cALIGN 0 va else .ok ()

/-- A supervisor-only instruction in user mode faults with PERM. -/
def superOnly (s : State) (u : Nat) : R Unit := if (getCtl s u).user then trapR cPERM dMODE else .ok ()

/-- The record of a continuation, and its physical address.  The model's choice of an order R185 does not give (log entry 60): the mode is
checked before the alignment, and the alignment before the address's width and translation. -/
def readRecord (s : State) (u pc va : Nat) : R (Nat × Nat) := do
  aligned va 64
  let v ← ctlBlock s u pc va 64 64
  let q ← translate s (ctlStream u) (ctlSrc s u pc) .read va 64
  .ok (v, q.1)

/-- The configuration that a record's address names: installed and not saved; the predecessor of an unfinished splice that has completed
when no other is (R178, R189, R190). -/
def cfgOfRecord (s : State) (pa : Nat) : Option Cfg :=
  let at_ := s.cfgs.filter fun c => c.rcdPa == pa && c.st != .saved
  (at_.find? fun c => !c.done).or at_.head?

/-- The configuration takes part in an unfinished splice (R178). -/
def splicing (c : Cfg) : Bool := c.succ.isSome || c.pred.isSome

/-! ### LAUNCH (R186) -/

/-- The status of a LAUNCH of record `v` into queue `q`; `asn` is the issuer's space in user mode. -/
def launchStatus (s : State) (v q : Nat) (user secure : Bool) (asn : Nat) : Nat :=
  if 63 < q then stBADQUEUE
  else if badRecord v then stBADREC
  else if badShape (recW v) (recH v) (recN v) then stBADSHAPE
  else if (recSecure v && !secure) || (!secure && blockSecure s 4 q) || (user && recAsn v != asn) then stPERM
  else if 4096 ≤ (getQueue s q).length then stQFULL
  else stOK

/-- LAUNCH (R186). Checks a continuation record and queues it; a module in PW1 wakes (R460). -/
def execLaunch (d a b : Spec) (s : State) : Out State :=
  onCtls (.launch d a b) s fun u pc s => do
    let va := readG s u a
    let r ← readRecord s u pc va
    let x := getCtl s u
    let q := readG s u b
    let secure := unitSecure s u
    let st := launchStatus s r.1 q x.user secure x.asn
    let e : QEntry := { addr := va, issuer := u, asn := x.asn, user := x.user, secure := secure }
    .ok (writeG (wakeModule (if st = stOK then pushQueue s q e else s)) u d st)

/-- JOIN (R187). Atomically decrements a record's join counter; it makes no race check (R227, R419). -/
def execJoin (d a : Spec) (s : State) : Out State :=
  onCtls (.join d a) s fun u pc s => do
    let va := readG s u a
    let r ← readRecord s u pc va
    let x := ctlSrc s u pc
    let _ ← translate s (ctlStream u) x .atomic (va + 16) 8
    let j := joinAt s r.2
    .ok (writeG j.1 u d (match j.2 with | none => stJOINZERO | some c => c * 65536))

/-! ### CONF (R188) -/

/-- A firing of the configuration is in progress. -/
def cfgFiring (s : State) (id : Nat) : Bool := s.cells.any fun e => e.2.firing.any fun f => f.cfg == id

/-- Firing resumes, and every cell looks again at its tokens. -/
def confEnd (s : State) (u id : Nat) : State :=
  let s := modCtl (modCfg s id fun c => { c with quiesce := false }) u fun x => { x with wait := none }
  (getCfg s id).cells.foldl recheck s

/-- Fields of a configuration's cells as they stand. -/
def fieldNow (s : State) (c : Cfg) (pos cell field : Nat) : Nat := (tget 0 (getCell s (c.cellAt pos cell)).fields field).toNat

/-- Steps 2 to 4 of R188. -/
def confApply (s : State) (u pc va : Nat) (c : Cfg) (d : Spec) : State :=
  match readImage s (ctlSrc s u pc) va c.width c.height c.stages (fieldNow s c) with
  | .error t => takeCtlTrap (confEnd s u c.id) u pc t
  | .ok none => writeG (confEnd s u c.id) u d stIMAGE
  | .ok (some im) =>
    if im.splice then writeG (confEnd s u c.id) u d stIMAGE
    else writeG (confEnd (setConsts (applyImage s c (fun _ => true) false im) c.id) u c.id) u d stOK

/-- CONF (R188). Applies an image as a partial reconfiguration, once running firings have ended. -/
def execConf (d a : Spec) (s : State) : Out State :=
  onCtls (.conf d a) s fun u pc s => do
    let va := readG s u a
    aligned va 64
    match (if isCore u then none else cfgOfGrove s u) with
    | none => .ok (writeG s u d stNOTINST)
    | some c =>
      let begun := (getCtl s u).wait == some 0
      if !begun && splicing c then .ok (writeG s u d stSPLICING)
      else if !begun && c.st != .running then .ok (writeG s u d stHELD)
      else if !begun && c.quiesce then .error .stall
      else
        let s' := if begun then s else modCtl (modCfg s c.id fun k => { k with quiesce := true }) u fun x => { x with wait := some 0 }
        if cfgFiring s' c.id then (if begun then .error .stall else .error (.redo s'))
        else .ok (confApply s' u pc va (getCfg s' c.id) d)

/-! ### SPLICE (R174, R189) -/

/-- The successor of a splice: on the predecessor's glades, frame 0 live; the manual gives its completion record no queue (log
entry 8).  The model's choice of what that record reports as its wake (log entry 53): a free time, although its glades are awake. -/
def spliceCfg (s : State) (u va pa v : Nat) (p : Cfg) (id : Nat) (queue : Nat) : Cfg :=
  let x := getCtl s u
  { newCfg s id { addr := va, issuer := u, asn := x.asn, user := x.user, secure := unitSecure s u } v (queue % 64) p.origins with
    rcdPa := pa, pred := some p.id, frames := [(0, { live := true })] }

/-- SPLICE (R189). Binds a successor record to an installed configuration. -/
def execSplice (d a b : Spec) (s : State) : Out State :=
  onCtls (.splice d a b) s fun u pc s => do
    let va := readG s u a
    let vb := readG s u b
    aligned va 64
    aligned vb 64
    let r ← readRecord s u pc va
    let p ← readRecord s u pc vb
    match cfgOfRecord s p.2 with
    | none => .ok (writeG s u d stNOTINST)
    | some p =>
      if p.succ.isSome then .ok (writeG s u d stSPLICING)
      else if !recSplice r.1 || recJoin r.1 != 0 then .ok (writeG s u d stBADREC)
      else if recW r.1 ≠ p.width ∨ recH r.1 ≠ p.height ∨ recN r.1 ≠ p.stages then .ok (writeG s u d stBADSHAPE)
      else
        let n := fresh s
        let f := drawWord n.2
        let c := spliceCfg f.2 u va r.2 r.1 p n.1 f.1.toNat
        let s := modCfg { f.2 with cfgs := f.2.cfgs ++ [c] } p.id fun k => { k with succ := some c.id }
        .ok (writeG s u d stOK)

/-! ### Cells that retire (R175 to R177, R189) -/

/-- A context of a cell has seen the end of its stream in every frame it has fired in, or, as a source, has fired (R175); one that has
fired in no frame has nothing to wait for.  A last token of an earlier run of a frame number counts, which is the model's choice (log entry 74). -/
def ctxEnded (x : Cell) (ctx : Nat) : Bool :=
  if x.sourceCtxs.contains ctx then (x.firedSources.any fun q => q.1 == ctx) && !x.sources.any fun q => q.1 == ctx
  else
    let frs := (x.frames.filter fun q => q.1 == ctx).map (·.2)
    frs.all fun fr => (List.range 4).all fun p => x.rate ctx p == 0 || x.lasts.contains (ctx, fr, p)

/-- The successor for which a cell has retired: its contexts have ended, nothing of the predecessor waits, runs or is pending there. -/
def retiring (s : State) (d : Nat) : Option (Cfg × Cfg) :=
  let x := getCell s d
  match (findCfg s x.cfg).bind fun p => p.succ.bind fun i => (findCfg s i).map fun c => (p, c) with
  | none => none
  | some (p, c) =>
    if (List.range 8).all (fun k => x.kind k == 0 || ctxEnded x k) && !(x.tokens.any fun t => t.cfg == p.id) && x.firing.isNone &&
        !(s.work.any fun w => match w with | .fill e _ _ _ => e == d | _ => false) then some (p, c)
    else none

/-- The image of a successor is refused (R189): the splice stops, the predecessor's cells drain as they are, and the successor
completes with IMAGE.  The model's choice of what becomes of cells that are the successor's already (log entry 61): they are emptied and
go back to the predecessor, and the successor's firings, tokens and pending values there are gone. -/
def stopSplice (s : State) (p c : Cfg) : State :=
  let s := dropFills s fun d => (getCell s d).cfg == c.id
  let s := (s.cells.filter fun e => e.2.cfg == c.id).foldl (fun s e => gateCell s e.1 p.id) s
  let s := { s with cells := tmap {} (fun (x : Cell) => { x with tokens := x.tokens.filter fun t => t.cfg != c.id }) s.cells
                    cfgs := (s.cfgs.filter fun k => k.id ≠ c.id).map fun k => if k.id = p.id then { k with succ := none } else k }
  let s := failRecord s (ofLanes 64 (c.words.map (·.toNat))) c.queue c.issuer stIMAGE
  if p.done then releaseGlades s (getCfg s p.id) else s

/-- A retired cell becomes part of the successor (R175, R176): its commands and section take effect, its source contexts are to
fire in every frame that has started, and its tokens enter matching. -/
def takeCell (s : State) (d : Nat) (p c : Cfg) (im : Image) : State :=
  let s := applyImage s c (· == d) false im
  let live := (c.frames.filter fun f => f.2.live).map (·.1)
  let s := modCell s d fun x =>
    { x with cfg := c.id, sources := live.flatMap fun fr => x.sourceCtxs.map fun k => (k, fr), firedSources := [], frames := [], lasts := []
             passed := [], lastFrame := none, counters := [] }
  endSplice (recheck (setConsts (setConsts s p.id) c.id) d) p.id

/-- CELL_RETIRE (R175). A predecessor cell retires in a splice and becomes part of the successor; each stage's first cell has the
image checked. -/
def execCellRetire (s : State) : Out State :=
  match (turnArg s).bind fun d => (retiring s d).map fun q => (d, q) with
  | some (d, p, c) =>
    let stage := (c.stageOf (groveOf d)).getD 0
    match c.image with
    | some im => if c.checkedStages.contains stage then .next (takeCell s d p c im) else .next (checkStage s d p c stage)
    | none => .next (checkStage s d p c stage)
  | none => notPending "no cell retires"
where
  /-- The check of the image when the first cell of a stage retires. -/
  checkStage (s : State) (d : Nat) (p c : Cfg) (stage : Nat) : State :=
    match readImage s (spaceSrc c.issuer c.spaceAsn c.secure) (c.w 0) c.width c.height c.stages (fieldNow s c) with
    | .ok (some im) =>
      if im.splice then takeCell (modCfg s c.id fun k => { k with image := some im, checkedStages := stage :: k.checkedStages }) d p c im
      else stopSplice s p c
    | _ => stopSplice s p c

/-! ### PREEMPT and the held state (R179, R190) -/

/-- PREEMPT (R190). Starts bringing a configuration to its held state. -/
def execPreempt (d a : Spec) (s : State) : Out State :=
  onCtls (.preempt d a) s fun u pc s => do
    superOnly s u
    let r ← readRecord s u pc (readG s u a)
    match cfgOfRecord s r.2 with
    | none => .ok (writeG s u d stNOTINST)
    | some c =>
      if !c.preemptible then .ok (writeG s u d stNOTPREEMPT)
      else if splicing c then .ok (writeG s u d stSPLICING)
      else if c.st ≠ .running then .ok (writeG s u d stOK)
      else .ok (writeG (modCfg s c.id fun k => { k with st := .preempting, preempters := [u] }) u d stOK)

/-- A pending item that must come to its end before the configuration is held: what its networks and owners carry, the burst of a
copy and the row of a sorting job; its other jobs, its demands that wait, and done tokens that wait for them do not count (R179, R283). -/
def holdsUp (id : Nat) (w : Work) : Bool :=
  let own := fun (x : Src) => x.kind != 3 && x.cfg == id
  match w with
  | .token _ t | .predicate _ t => t.cfg == id
  | .check f => own f.src
  | .store a | .atomic a | .contrib a _ => own a.src
  | .close a _ _ _ _ => own a.src
  | .bar x _ _ _ _ => own x
  | .copy j => own j.src && !burstOver j && decide (j.moved < j.count)
  | .sort j => own j.src && j.read != []
  | .demand d => own d.src
  | .relContrib c => own c.src
  | _ => false

/-- The configuration has reached its held state. -/
def mayHold (s : State) (c : Cfg) : Bool :=
  c.st == .preempting && !c.quiesce && !cfgFiring s c.id && !(s.inflight.any fun f => f.src.kind != 3 && f.src.cfg == c.id) &&
  !(s.work.any (holdsUp c.id)) && !fillPending s c.id &&
  !c.groves.any fun g => (getCtl s g).handler

/-- HELD_STATE (R179). Pre-emption completes and the configuration is held. -/
def execHeldState (s : State) : Out State :=
  match (turnArg s).bind (findCfg s) with
  | some c =>
    if mayHold s c then
      .next (c.preempters.foldl (fun s u => setEvent s u 2) (modCfg s c.id fun k => { k with st := .held, preempters := [] }))
    else notPending "the configuration is not yet held"
  | none => notPending "no configuration is being pre-empted"

/-! ### CTXSV and CTXRS (R180 to R183, R190) -/

/-- The header of a save area (R182). -/
def saveHeader (s : State) (c : Cfg) : Nat :=
  ofLanes 64 [2 ^ 32 + 0x5A534156, c.rcd % 2 ^ 56, saveLength c.width c.height c.stages, (c.stages - 1) * 4096 + c.height * 64 + c.width,
    s.timens.toNat, 0, 0, 0]

/-- An engine job of a saved configuration is on no grove and no port. -/
def parkJob (id : Nat) (w : Work) : Work :=
  match w with
  | .copy j => if j.src.kind ≠ 3 ∧ j.src.cfg = id then .copy { j with st := .queued, grove := offGrove j.grove } else w
  | .rel j => if j.src.kind ≠ 3 ∧ j.src.cfg = id then .rel { j with grove := offGrove j.grove } else w
  | .sort j => if j.src.kind ≠ 3 ∧ j.src.cfg = id then .sort { j with grove := offGrove j.grove } else w
  | w => w

/-- The context leaves the device (R180): the area's key and draw, the glades released, records at their controllers withdrawn
(R439). -/
def saveContext (s : State) (c : Cfg) (pa draw : Nat) : State :=
  let s := match s.saves.find? fun e => e.1 == pa with | some z => dropSaved s z.1 z.2 | none => s
  let cells := s.cells.filter fun e => e.2.cfg == c.id
  let gs := s.groves.filter fun e => (c.stageOf e.1).isSome
  let s := { s with saves := tset {} s.saves pa { cfg := c.id, cells := cells, groves := gs, draw := draw }, work := s.work.map (parkJob c.id), round := true }
  let s := cells.foldl (fun s e => gateCell s e.1 0) s
  let s := gs.foldl (fun s e => modGrove s e.1 clearArray) s
  let s := c.groves.foldl (fun s g => modCtl s g fun x => x.withdraw g fun r => r.kind ≤ 2 && r.cfg == c.id) s
  modCfg s c.id fun k => { k with st := .saved, consts := [] }

/-- Parts of a range written with one value. -/
def putParts (s : State) (va : Nat) (ps : List (Nat × Nat × Nat)) (v insn : Nat) : State :=
  (writePieces s (ps.map fun p => (p.2.1 * 8, p.2.2 * 8, v >>> ((p.1 - va) * 8) % 256 ^ p.2.2)) insn).1

/-- CTXSV (R190). Writes the held configuration's context to a save area and releases its glades. -/
def execCtxsv (d a b : Spec) (s : State) : Out State :=
  onCtls (.ctxsv d a b) s fun u pc s => do
    superOnly s u
    let area := readG s u b
    aligned (readG s u a) 64
    aligned area 4096
    let r ← readRecord s u pc (readG s u a)
    match cfgOfRecord s r.2 with
    | none => .ok (writeG s u d stNOTINST)
    | some c =>
      if c.st ≠ .held then .ok (writeG s u d stNOTHELD)
      else do
        let x := ctlSrc s u pc
        let len := saveLength c.width c.height c.stages
        let ps ← physParts s (ctlStream u) x .write area len
        let draw := s.free
        let s := { s with free := s.free + 1 }
        let s := putParts s area ps (saveHeader s c + Config.freeBytes draw % 2 ^ (8 * (len - 64)) * 2 ^ 512) x.insn.toNat
        .ok (writeG (saveContext s c ((ps.head?.map (·.2.1)).getD 0) draw) u d stOK)

/-- The saved record of an area is secure (R190). -/
def savedSecure (s : State) (pa : Nat) : Bool := (s.saves.find? fun z => z.1 == pa).any fun z => (getCfg s z.2.cfg).secure

/-- CTXRS (R190). Queues a save area for restore.  The model's choice of a header that may be read and not written (log entry 60): the area
is queued, and its status stays as it was. -/
def execCtxrs (d a b : Spec) (s : State) : Out State :=
  onCtls (.ctxrs d a b) s fun u pc s => do
    superOnly s u
    let va := readG s u a
    aligned va 4096
    let r ← readRecord s u pc va
    let x := getCtl s u
    let q := readG s u b
    let secure := unitSecure s u
    let st := if !saveFormat r.1 then stSAVEFMT
      else if 63 < q then stBADQUEUE
      else if !secure && (blockSecure s 4 q || savedSecure s r.2) then stPERM
      else if 4096 ≤ (getQueue s q).length then stQFULL
      else stOK
    let e : QEntry := { addr := va, save := true, issuer := u, asn := x.asn, user := x.user, secure := secure }
    .ok (writeG (if st = stOK then saveStatus (pushQueue s q e) e 1 else s) u d st)

/-! ### WFE and SEV (R191, R192) -/

/-- The five event bits reach a register and are cleared. -/
def takeEvents (s : State) (u : Nat) (d : Spec) (v : Nat) : State :=
  writeG (modCtl s u fun x => { x with events := 0, deadline := none }) u d (v % 32)

/-- WFE (R191). Waits until an event bit is set or a timeout expires. -/
def execWfe (d a : Spec) (s : State) : Out State :=
  onCtls (.wfe d a) s fun u _ s =>
    let x := getCtl s u
    let t := readG s u a
    if x.events ≠ 0 then .ok (takeEvents s u d x.events)
    else if a.toNat = 44 then .error .stall
    else match x.deadline with
      | some _ => .error .stall
      | none =>
        if t = 0 then .ok (takeEvents s u d 16)
        else .error (.redo (modCtl s u fun y => { y with deadline := some (s.timens.toNat + t) }))

/-- The timeout of a unit's WFE has expired. -/
def timeoutDue (s : State) (u : Nat) : Bool :=
  let x := getCtl s u
  x.mode == .running && x.deadline.any fun t => decide (t ≤ s.timens.toNat)

/-- WFE_TIMEOUT (R191). A WFE timeout expires and sets EVTIME. -/
def execWfeTimeout (s : State) : Out State :=
  match turnArg s with
  | some u => if timeoutDue s u then .next (setEvent (modCtl s u fun x => { x with deadline := none }) u 4) else notPending "no timeout has expired"
  | none => notPending "no timeout has expired"

/-- SEV (R192). Sets EVSEV at one controller or across the glade; the issuer's stores are performed when they execute. -/
def execSev (a : Spec) (s : State) : Out State :=
  onCtls (.sev a) s fun u _ s =>
    if a.toNat = 44 then
      .ok (match (if isCore u then none else cfgOfGrove s u) with
        | some c => c.groves.foldl (fun s g => setEvent s g 0) s
        | none => s)
    else
      let v := readG s u a
      if 1024 ≤ v then boundsR v
      else if unitSecure s v != unitSecure s u then trapR cPERM dWORLD
      else .ok (setEvent s v 0)

end Sys2Proof.Machine
end

