-- ==== Sys2Proof/Machine/Sha.lean ====
section
/-! DEFINITION. The checks on a firmware image (R459) that the standards the manual names define: SHA-256 (FIPS 180-4) and the RSA
signature check with PKCS#1 v1.5 padding. -/

namespace Sys2Proof.Machine

/-! ### SHA-256 -/

/-- The round constants: the first 32 bits of the fractional parts of the cube roots of the first 64 primes. -/
def shaK0 : List Nat := [0x428A2F98, 0x71374491, 0xB5C0FBCF, 0xE9B5DBA5, 0x3956C25B, 0x59F111F1, 0x923F82A4, 0xAB1C5ED5]
def shaK1 : List Nat := [0xD807AA98, 0x12835B01, 0x243185BE, 0x550C7DC3, 0x72BE5D74, 0x80DEB1FE, 0x9BDC06A7, 0xC19BF174]
def shaK2 : List Nat := [0xE49B69C1, 0xEFBE4786, 0x0FC19DC6, 0x240CA1CC, 0x2DE92C6F, 0x4A7484AA, 0x5CB0A9DC, 0x76F988DA]
def shaK3 : List Nat := [0x983E5152, 0xA831C66D, 0xB00327C8, 0xBF597FC7, 0xC6E00BF3, 0xD5A79147, 0x06CA6351, 0x14292967]
def shaK4 : List Nat := [0x27B70A85, 0x2E1B2138, 0x4D2C6DFC, 0x53380D13, 0x650A7354, 0x766A0ABB, 0x81C2C92E, 0x92722C85]
def shaK5 : List Nat := [0xA2BFE8A1, 0xA81A664B, 0xC24B8B70, 0xC76C51A3, 0xD192E819, 0xD6990624, 0xF40E3585, 0x106AA070]
def shaK6 : List Nat := [0x19A4C116, 0x1E376C08, 0x2748774C, 0x34B0BCB5, 0x391C0CB3, 0x4ED8AA4A, 0x5B9CCA4F, 0x682E6FF3]
def shaK7 : List Nat := [0x748F82EE, 0x78A5636F, 0x84C87814, 0x8CC70208, 0x90BEFFFA, 0xA4506CEB, 0xBEF9A3F7, 0xC67178F2]
def shaK : List Nat := shaK0 ++ shaK1 ++ shaK2 ++ shaK3 ++ shaK4 ++ shaK5 ++ shaK6 ++ shaK7

/-- The initial hash value: the same of the square roots of the first 8 primes. -/
def shaH : List Nat := [0x6A09E667, 0xBB67AE85, 0x3C6EF372, 0xA54FF53A, 0x510E527F, 0x9B05688C, 0x1F83D9AB, 0x5BE0CD19]

/-- Rotation and addition of 32-bit words. -/
def rotr32 (x n : Nat) : Nat := (x >>> n + x <<< (32 - n)) % 2 ^ 32
def add32 (l : List Nat) : Nat := l.sum % 2 ^ 32

/-- The message schedule: `l` holds the words so far, the latest first. -/
def shaSchedule : Nat → List Nat → List Nat
  | 0, l => l.reverse
  | n + 1, l =>
    let a := l.getD 14 0
    let b := l.getD 1 0
    let s0 := rotr32 a 7 ^^^ rotr32 a 18 ^^^ a >>> 3
    let s1 := rotr32 b 17 ^^^ rotr32 b 19 ^^^ b >>> 10
    shaSchedule n (add32 [l.getD 15 0, s0, l.getD 6 0, s1] :: l)

/-- One round on the eight working words. -/
def shaRound (h : List Nat) (k w : Nat) : List Nat :=
  let g := fun i => h.getD i 0
  let s1 := rotr32 (g 4) 6 ^^^ rotr32 (g 4) 11 ^^^ rotr32 (g 4) 25
  let ch := (g 4 &&& g 5) ^^^ ((2 ^ 32 - 1 - g 4) &&& g 6)
  let t1 := add32 [g 7, s1, ch, k, w]
  let s0 := rotr32 (g 0) 2 ^^^ rotr32 (g 0) 13 ^^^ rotr32 (g 0) 22
  let maj := (g 0 &&& g 1) ^^^ (g 0 &&& g 2) ^^^ (g 1 &&& g 2)
  [add32 [t1, s0, maj], g 0, g 1, g 2, add32 [g 3, t1], g 4, g 5, g 6]

/-- A word of four bytes, the first the most significant. -/
def shaWords : List Nat → List Nat
  | a :: b :: c :: d :: l => (a * 2 ^ 24 + b * 2 ^ 16 + c * 2 ^ 8 + d) :: shaWords l
  | _ => []

/-- One block of 16 words. -/
def shaBlock (h ws : List Nat) : List Nat :=
  let r := (shaK.zip (shaSchedule 48 ws.reverse)).foldl (fun h q => shaRound h q.1 q.2) h
  (h.zip r).map fun q => add32 [q.1, q.2]

/-- The blocks of a padded message. -/
def shaBlocks : Nat → List Nat → List Nat → List Nat
  | 0, h, _ => h
  | n + 1, h, ws => shaBlocks n (shaBlock h (ws.take 16)) (ws.drop 16)

/-- The padding of a message of `n` bytes. -/
def shaPad (n : Nat) : List Nat :=
  0x80 :: (List.replicate ((119 - n % 64) % 64) 0 ++ (List.range 8).map fun i => n * 8 / 256 ^ (7 - i) % 256)

/-- The SHA-256 digest of bytes, as a number whose most significant byte comes first. -/
def sha256 (bytes : List Nat) : Nat :=
  let m := bytes ++ shaPad bytes.length
  (shaBlocks (m.length / 64) shaH (shaWords m)).foldl (fun v w => v * 2 ^ 32 + w) 0

/-! ### RSA with PKCS#1 v1.5 padding -/

/-- `b ^ e` modulo `m`, over the `n` low bits of `e`. -/
def powMod (m b e : Nat) : Nat → Nat
  | 0 => 1 % m
  | n + 1 =>
    let h := powMod m (b * b % m) (e / 2) n
    if e % 2 = 1 then b * h % m else h

/-- The encoded message of a SHA-256 digest in 384 bytes: 00 01 FF…FF 00, the algorithm's DigestInfo, the digest. -/
def pkcs1 (digest : Nat) : Nat :=
  let info := 0x3031300D060960864801650304020105000420
  let t := info * 2 ^ 256 + digest
  2 ^ (8 * 382) + (2 ^ (8 * 330) - 1) * 2 ^ (8 * 52) + t

/-- The signature of a digest verifies under a key of 3,072 bits. -/
def rsaVerifies (modulus exponent signature digest : Nat) : Bool :=
  decide (2 ^ 3071 ≤ modulus) && decide (signature < modulus) &&
  powMod modulus signature exponent (Nat.log2 exponent + 1) == pkcs1 digest

end Sys2Proof.Machine
end

