-- ==== Sys2Proof/Machine/Attach.lean ====
section
/-! DEFINITION. The host port (R404, R454 to R456), resets and firmware (R458, R459), power and temperature (R460 to R462), and
the background activity of R453. -/

namespace Sys2Proof.Machine

/-! ### The doorbell (R455) -/

/-- The check of a doorbell write: a supervisor LAUNCH of the normal world in address space 0. -/
def doorbellCheck (s : State) (w : Nat) : State :=
  let va := bits w 6 50 * 64
  let q := bits w 0 6
  let e : QEntry := { addr := va, issuer := 2000 }
  match jobBytes s (entrySrc e) va 64 with
  | .error _ => { s with launchst := stBADREC }
  | .ok v =>
    let st := launchStatus s v q false false 0
    { (if st = stOK then pushQueue s q e else s) with launchst := st }

/-- LAUNCH_DOORBELL (R455). A host write of LAUNCHDB acts as a supervisor LAUNCH; in standby it wakes the module first and is checked
behind the writes before it (R460).  Without verified firmware the device takes none (R459). -/
def execLaunchDoorbell (value : Word) (s : State) : Out State :=
  if !s.fwOk then .next s
  else if s.power = .pw2 then .next { s with doorbells := s.doorbells ++ [value] }
  else .next (wakeModule (doorbellCheck s value.toNat))

/-- LAUNCHST_READ (R455). A host read of LAUNCHST stalls until the latest doorbell write has been checked, then returns that
write's status, or 0, or FWFAIL. -/
def execLaunchstRead (s : State) : Out State :=
  if s.doorbells ≠ [] then notPending "the doorbell write is not checked"
  else .next { s with reply := .word (BitVec.ofNat 64 (if s.fwOk then s.launchst else stFWFAIL)) }

/-! ### CXL.mem (R403, R404, R441, R454) -/

/-- The host's access reaches HBM, within what bring-up made host-managed, and no secure byte (R404, R454; log entry 62). -/
def hostReach (s : State) (addr n : Nat) : Bool :=
  decide (hbmBase ≤ addr) && decide (addr + n ≤ hbmBase + s.hdm) && !(List.range n).any fun i => byteSecure s (addr + i)

/-- A host write in pieces of one granule each. -/
def hostPieces (addr : Nat) (data : List Byte) : List (Nat × Nat × Nat) :=
  let v := ofBytes (data.map (·.toNat))
  let first := addr / 64
  (List.range ((addr + data.length + 63) / 64 - first)).filterMap fun i =>
    let lo := max addr ((first + i) * 64)
    let hi := min (addr + data.length) ((first + i + 1) * 64)
    if lo < hi then some (lo * 8, (hi - lo) * 8, v >>> ((lo - addr) * 8) % 2 ^ ((hi - lo) * 8)) else none

/-- HOST_MEM_WRITE (R404). A host CXL.mem write reaches device memory, or is dropped and the host receives a completer abort: so is one to
a barrier page (R204), and any before firmware is verified (R459). -/
def execHostMemWrite (addr : Nat) (data : List Byte) (s : State) : Out State :=
  if !s.fwOk || !hostReach s addr data.length || onBarrierPage s addr data.length then .next { s with reply := .abort }
  else
    let r := writePieces s (hostPieces addr data) 0
    .next { r.1 with reply := if r.2 = [] then .none else .abort }

/-- HOST_MEM_READ (R454). A host CXL.mem read of device memory; a byte that is secure or has an uncorrectable error is answered
with a completer abort. -/
def execHostMemRead (addr len : Nat) (s : State) : Out State :=
  if !hostReach s addr len || poisonedRange s addr len then .next { s with reply := .abort }
  else .next { s with reply := .bytes ((List.range len).map fun i => memByte s (addr + i)) }

/-! ### Links down (R442) -/

/-- A device of the job lies behind the port. -/
def jobNeeds (s : State) (p : Nat) (j : ConvJob) : Bool := j.devs.any fun d => d != ownDev s && Config.portOf d % 32 == p

/-- The conversions and instances that need the port fault with LINK. -/
def failJobs (s : State) (p : Nat) : State :=
  s.work.foldl (fun t w => match w with
    | .conv j => if jobNeeds s p j && t.work.any (fun x => match x with | .conv i => i.id == j.id | _ => false) then jobFails t false j { cause := cLINK } else t
    | .coll j => if jobNeeds s p j && t.work.any (fun x => match x with | .coll i => i.id == j.id | _ => false) then jobFails t true j { cause := cLINK } else t
    | _ => t) s

/-- LINK_DOWN (R442). Retraining not done within 10 ms takes the port down; what needs it faults with LINK. -/
def execLinkDown (port : Nat) (s : State) : Out State :=
  if port < 32 ∧ (getLink s port).retraining then
    .next (failJobs (modLink (linkEvent s port 2) port fun l => { l with up := false, retraining := false }) port)
  else notPending "the link does not retrain"

/-! ### Resets (R161, R458) -/

/-- The digest of an image's body. -/
def fwDigest (i : FirmwareImage) : Nat := sha256 (i.body.map (·.toNat))

/-- The firmware image passes verification (R459): its digest is that of its body, the key it is signed with is the accepted one, the
signature over the digest holds, and its version is not below the rollback counter. -/
def fwAccepted (i : FirmwareImage) : Bool :=
  fwDigest i == i.digest.toNat && sha256 (Config.keyBytes i.modulus.toNat i.exponent) == Config.keyDigest &&
  rsaVerifies i.modulus.toNat i.exponent i.signature.toNat i.digest.toNat && decide (Config.rollback ≤ i.version.toNat)

/-- The units after a reset: core 0 of basin 0 at the entry of verified firmware, every other one idle (R161). -/
def resetCtls (ok : Bool) (entry : Word) : Table Ctl :=
  if ok then [(1024, { mode := .running, pc := entry.toNat })] else []

/-- A byte is not this device's (R194): the host's or a peer's. -/
def outside (pa : Nat) : Bool := match placeOf pa with
  | .host | .peer _ _ => true
  | _ => false

/-- A REPAIR entry for every cell whose capacity is below 32 (R453). -/
def repairEvents (s : State) : State :=
  s.cells.foldl (fun s e => if e.2.hcap < 32 then bboxEvent s (basinOfGrove (groveOf e.1)) 7 0 0 (groveOf e.1) (cellNo e.1) 0 0 (cellNo e.1) e.2.hcap else s) s

/-- The cells with nothing but their capacity. -/
def gatedCells (s : State) : Table Cell := tmap {} (fun (x : Cell) => { hcap := x.hcap }) s.cells

/-- SRAM repair at a reset (R9, R453): a cell repaired from its spare columns keeps 28 or 24 held registers; which cells need it is
free (log entry 15). -/
def repairedCells (s : State) : Table Cell :=
  (Config.repairs s.tick).foldl (fun t q =>
    if q.1 < 65536 then tmod {} t q.1 fun x => { x with hcap := min x.hcap (if q.2 ≤ 24 then 24 else 28) } else t) (gatedCells s)

/-- COLD_RESET (R458). Cold reset verifies firmware, that of a new image when one has come (R459; log entry 6), repairs SRAM, trains links and starts
core 0.  What is outside the device stays: host and peer memory, inputs that have come. -/
def execColdReset (s : State) : Out State :=
  let fw := s.fwNew.getD s.fw
  let ok := match s.fwNew with | some i => fwAccepted i | none => s.fwOk
  .next (repairEvents { State.reset with
    turn := s.turn, tick := s.tick, free := s.free, nextId := s.nextId, inputs := s.inputs
    mem := s.mem.filter fun e => outside e.1
    cells := repairedCells s, ctls := resetCtls ok fw.entry, fw := fw, fwOk := ok, hdm := min (Config.hdmBytes s.tick) (512 * 2 ^ 30) })

/-- WARM_RESET (R458). Warm reset repairs SRAM and clears queues, configurations and placement table, keeping the black box, memory, the
world map, device time and the counters since cold reset; the verified firmware runs again, an image that has come since waits for the
next cold reset (R459); active checkpoints fail (R450). -/
def execWarmReset (s : State) : Out State :=
  if s.power = .pw3 ∨ s.power = .hot then notPending "only a cold reset restarts the module"
  else
    let s := s.drains.foldl (fun s e => e.2.foldl (fun s c => ckptFail drainAll s e.1 c { cause := 0 }) s) s
    .next (repairEvents { State.reset with
      turn := s.turn, tick := s.tick, free := s.free, nextId := s.nextId, inputs := s.inputs, timens := s.timens
      mem := s.mem, poison := s.poison, cells := repairedCells s, ctls := resetCtls s.fwOk s.fw.entry
      regions := s.regions, blocks := s.blocks, bbox := s.bbox, devnum := s.devnum, clock := s.clock
      corrected := s.corrected, correctedHbm := s.correctedHbm, sdcs := s.sdcs, retries := s.retries, passes := s.passes, passesHbm := s.passesHbm
      fw := s.fw, fwOk := s.fwOk, fwNew := s.fwNew, hdm := s.hdm })

/-! ### Firmware and attestation (R459) -/

/-- SPDM_ATTESTATION (R459). An SPDM request with a nonce returns signed measurements of the firmware and the world map. -/
def execSpdmAttestation (nonce : BitVec 256) (s : State) : Out State :=
  .next { s with reply := .attestation (Config.attest nonce.toNat (fwDigest s.fw) s.fw.version.toNat (s.regions.map fun e => (e.1, e.2.toNat))
    ((s.blocks.filter (·.2)).map (·.1))) }

/-- MGMT_FIRMWARE_IMAGE (R459). A new firmware image arrives through the management interface; the next cold reset verifies it
(R458), and until then the old one stays in force. -/
def execMgmtFirmwareImage (image : FirmwareImage) (s : State) : Out State := .next { s with fwNew := some image }

/-! ### Power (R460, R461) -/

/-- MGMT_STANDBY_REQUEST (R461). A standby request arrives through the management interface; without verified firmware only a new image is
accepted there (R459). -/
def execMgmtStandbyRequest (s : State) : Out State := .next (if s.fwOk then requestPower s 2 else s)

/-- What keeps the module out of PW1 (R461): a glade, a queue entry, a job that is not part of a saved context, or a controller that is
not idle. -/
def moduleBusy (s : State) : Bool :=
  let here := fun (x : Src) => x.kind == 3 || (getCfg s x.cfg).st != .saved
  (s.cfgs.any fun c => c.st != .saved) || !s.queues.isEmpty || !s.drains.isEmpty || s.doorbells != [] ||
  (s.work.any fun w => match w with
    | .copy j => here j.src
    | .rel j => here j.src
    | .sort j => here j.src
    | .conv _ | .coll _ | .demand _ => true
    | _ => false) ||
  (s.groves.any fun g => !g.2.queue.isEmpty) || s.ctls.any fun e => e.1 < 1024 && e.2.mode != .idle

/-- The module has been idle for 1 ms. -/
def pw1Due (s : State) : Bool :=
  s.power == .pw0 && !moduleBusy s && s.idleSince.any fun t => decide (t + 1000000 ≤ s.timens.toNat)

/-- A THERMAL entry and its interrupt (R444, R456, R462). -/
def thermalEvent (s : State) (mhz temp : Nat) : State :=
  let s := bboxEvent s 0 11 0 0 0 0 0 0 mhz temp
  { s with msix := tmod 0 s.msix 2 (· + 1) }

/-- The clock at its full rate (R25), recorded where that is a change (R462). -/
def fullClock (s : State) : State :=
  if s.clock = 1050 then s else thermalEvent { s with clock := 1050 } 1050 (Config.temperature 0 s.tick % 65536)

/-- PW1_ENTRY (R460, R461). After 1 ms of idleness the module enters PW1, at full clock; a standby request that waits takes it on to PW2. -/
def execPw1Entry (s : State) : Out State :=
  if pw1Due s then .next (if s.pwreq = 2 then { fullClock s with power := .pw2, pwreq := 0 } else { fullClock s with power := .pw1 })
  else notPending "the module has not been idle for 1 ms"

/-- A cause to leave standby: a doorbell, or a packet that has come since it began (R460). -/
def wakeDue (s : State) : Bool :=
  s.power == .pw2 && (s.doorbells != [] || s.work.any fun w => match w with | .packet p => p.wakes | _ => false)

/-- The packets that woke the module do so once. -/
def awake (w : Work) : Work := match w with
  | .packet p => .packet { p with wakes := false }
  | w => w

/-- PW2_EXIT (R460). The module leaves standby and returns to PW0, and the stopped cores and controllers resume where they
stopped; the doorbell writes that have come are checked, in their order. -/
def execPw2Exit (s : State) : Out State :=
  if wakeDue s then
    .next (s.doorbells.foldl (fun t w => doorbellCheck t w.toNat) { s with power := .pw0, pwreq := 0, idleSince := none, doorbells := [], work := s.work.map awake })
  else notPending "nothing wakes the module"

/-- POWER_REMOVAL (R461). Removal of power takes the module to PW3. -/
def execPowerRemoval (s : State) : Out State := .next { s with power := .pw3 }

/-- The clock may change to a value one step away (R460, R461): in PW0, down at 105 °C or above 2,800 W, up below 100 °C and 2,700 W. -/
def clockDue (s : State) (mhz temp : Nat) : Bool :=
  s.power == .pw0 && decide (525 ≤ mhz) && decide (mhz ≤ 1050) &&
  ((mhz + 25 == s.clock && (decide (840 ≤ temp) || decide (2800 < Config.power s.tick))) ||
   (mhz == s.clock + 25 && decide (temp < 800) && decide (Config.power s.tick < 2700)))

/-- CLOCK_CHANGE (R462). A temperature or power threshold changes the clock in 25 MHz steps. -/
def execClockChange (mhz temp : Nat) (s : State) : Out State :=
  if clockDue s mhz temp then .next (thermalEvent { s with clock := mhz } mhz temp) else notPending "no such step of the clock"

/-- THERMAL_STOP (R461). At 118 degrees the module stops and writes a THERMAL entry. -/
def execThermalStop (temp : Nat) (s : State) : Out State :=
  if 944 ≤ temp then .next (thermalEvent { s with power := .hot } 0 temp) else notPending "the module is not so hot"

/-! ### Background activity (R453) -/

/-- SCRUB_PASS (R453). A periodic scrub pass of SRAM or HBM runs: every uncorrectable granule writes a SCRUB entry and is left for
its consumer. -/
def execScrubPass (hbm : Bool) (s : State) : Out State :=
  let gs := s.poison.filter fun g => placeOf g == (if hbm then Place.hbm else Place.sram)
  let s := gs.foldl (fun s g => bboxEvent s (basinOfPa g) 2 cECCUNC 0 0 0 0 0 g (if hbm then 1 else 0)) s
  .next (if hbm then { s with passesHbm := s.passesHbm + 1 } else { s with passes := s.passes + 1 })

/-- SERDES_RECALIBRATION (R453). Each SerDes is recalibrated every 100 ms; no result and no order changes (R24). -/
def execSerdesRecalibration (_port : Nat) (s : State) : Out State := .next s

/-- The words of a basin's telemetry (R453). -/
def telemetryWords (s : State) (b : Nat) : List Nat :=
  [s.timens.toNat, s.clock % 65536 * 2 ^ 32 + Config.power s.tick % 65536 * 2 ^ 16 + Config.temperature b s.tick % 65536, s.corrected, s.correctedHbm,
   s.retries, s.sdcs, s.passesHbm % 2 ^ 32 * 2 ^ 32 + s.passes % 2 ^ 32, 0]

/-- TELEMETRY_WRITE (R453). Each basin's telemetry is written every 1 ms when TELBASE is not 0. -/
def execTelemetryWrite (s : State) : Out State :=
  match turnArg s with
  | some b =>
    if b < 4 ∧ s.telbase ≠ 0 then .next (putRecord s (spaceSrc 2000 0 false) (s.telbase.toNat + 64 * b) (telemetryWords s b))
    else notPending "no telemetry is written"
  | none => notPending "no telemetry is written"

/-- HBM_ROW_REMAP (R453). A failing HBM row, named by its physical address, is remapped to a spare, or ROWSPARE is logged. -/
def execHbmRowRemap (stack row : Nat) (s : State) : Out State :=
  if Config.spareRow stack s.tick then .next s else .next (bboxEvent s (stack / 3 % 4) 10 0 0 0 0 0 0 row stack)

end Sys2Proof.Machine
end

