-- ==== Sys2Proof/Machine/Mtx.lean ====
section
/-! DEFINITION. MTX: the commands of a grove's matrix array (R342 to R361) and what it does with them, with its corruption
checks (R362 to R364). -/

namespace Sys2Proof.Machine

/-! ### Formats (R343) -/

/-- The formats of planes and activations (R346): I8, BF16, E4M3, E5M2, E2M1. -/
def mtxFmt (fmt : Nat) : Bool := fmt == 0 || fmt == 9 || fmt == 11 || fmt == 12 || fmt == 13

/-- Depth of K that a plane of the format covers (R343). -/
def mtxDepth (fmt : Nat) : Nat := if fmt = 9 then 64 else if fmt = 13 then 256 else 128

/-- The plane's format accepts the activations' (R343). -/
def mtxAccepts (plane act : Nat) : Bool :=
  if plane = 11 ∨ plane = 12 then act == 11 || act == 12 else plane == act

/-- The formats an MRD writes (R346): F32 and those R301 lists from it. -/
def mrdFmt (fmt : Nat) : Bool := fmt == 8 || listedPair 8 fmt

/-! ### The instructions (R344, R346) -/

/-- The check of a command's footprint (R227, R360); that of a sequenced MRD names its sequence group (R223, R356). -/
def sendMtxCheck (s : State) (src : Src) (op : MtxOp) (foot : List Range) : State :=
  if foot = [] then s else sendCheck s ⟨0, src, .job, foot, 3, op.group, 0⟩

/-- Queue a command: its held destination, footprint, and the check of the footprint (R345, R360). -/
def mtxCmd (s : State) (c : Nat) (f : Firing) (src : Src) (op : MtxOp) (foot : List Range) (held : Option Nat) : R State := do
  (match held with | some k => writeWait s c f k | none => .ok ())
  let f ← addEntry f (.cmd (.mtx { id := 0, src := src, op := op, foot := foot }) held)
  .ok (sendMtxCheck (putFiring s c f) src op foot)

/-- The elements of a block of rows are addressable (check 6 of R200). -/
def blockElems (rc : Rec) (e rows cols : Nat) : R Unit :=
  (List.range rows).forM fun i => (List.range cols).forM fun j => match rc.elem (e + i * rc.extent0 + j) with
    | .ok _ => .ok ()
    | .error t => .error (.trap t)

/-- An accumulator set of a grove. -/
def getSet (s : State) (g k : Nat) : MSet := tget {} (getGrove s g).sets k
def modSet (s : State) (g k : Nat) (f : MSet → MSet) : State := modGrove s g fun x => { x with sets := tmod {} x.sets k f }

/-- What a command leaves of a set's shape and bound (R348, R352, R358). -/
def shapeAfter (k : Nat) (a : MSet) : MtxOp → MSet
  | .mshp j m n d => if j = k then { a with m := m, n := n, k := d } else a
  | .mclr j => if j = k then { a with mb := 0, nb := 0 } else a
  | .mstr j .. => if j = k then { a with mb := a.m, nb := a.n } else a
  | _ => a

/-- A set with the shape and bound that the commands ahead of the firing's next one leave it: those the array's queue and the
firing's own output buffer hold.  That check 6 of R200 takes the elements of this shape when MSTR or MRD executes is log entry 40. -/
def setAhead (s : State) (c : Nat) (f : Firing) (k : Nat) : MSet :=
  let own := f.out.filterMap fun e => match e with | .cmd (.mtx m) _ => some m.op | _ => none
  ((getGrove s (groveOf c)).queue.map (·.op) ++ own).foldl (shapeAfter k) (getSet s (groveOf c) k)

/-- MLW (R349). Loads the shadow weight plane through a record. -/
def execMlw (a b : Spec) (s : State) : Out State :=
  onCells (.mlw a b) s <| withRegs (.mlw a b) fun c f s => do
    let x := getCell s c
    let rc ← useRecord x f.ctx b.toNat false
    let v ← readSpec s c f a
    let n := bits v 96 32
    let k := bits v 64 32
    if n ≤ 64 ∧ k ≤ 256 then blockElems rc (bits v 0 64) k n else .ok ()
    if !mtxFmt rc.fmt then illop
    else if n < 1 ∨ 64 < n then boundsR n
    else if k < 1 ∨ mtxDepth rc.fmt < k then boundsR k
    else do
      let src := firingSrc s c f
      let foot ← liftTrap (recFoot s src .mtxSrc rc)
      mtxCmd s c f src (.mlw (x.record f.ctx b.toNat) (bits v 0 64) k n) foot none

/-- MSWP (R350). Exchanges the active and shadow planes. -/
def execMswp (s : State) : Out State := onCells .mswp s fun c f s => mtxCmd s c f (firingSrc s c f) .mswp [] none

/-- MSTR (R352). Streams activation rows against the active plane. -/
def execMstr (d a b : Spec) (s : State) : Out State :=
  onCells (.mstr d a b) s <| withRegs (.mstr d a b) fun c f s => do
    let x := getCell s c
    let rc ← useRecord x f.ctx b.toNat false
    let v ← readSpec s c f a
    let q := setAhead s c f d.toNat
    blockElems rc (bits v 0 64) q.m q.k
    if !mtxFmt rc.fmt then illop
    else do
      let src := firingSrc s c f
      let foot ← liftTrap (recFoot s src .mtxSrc rc)
      mtxCmd s c f src (.mstr d.toNat (x.record f.ctx b.toNat) (bits v 0 64) 0 0 0) foot none

/-- MRD (R356). Writes an accumulator set through a record. -/
def execMrd (d a b : Spec) (l : BitVec 1) (s : State) : Out State :=
  onCells (.mrd d a b l) s <| withRegs (.mrd d a b l) fun c f s => do
    let x := getCell s c
    let rc ← useRecord x f.ctx b.toNat true
    let v ← readSpec s c f a
    let q := setAhead s c f d.toNat
    blockElems rc (bits v 0 64) q.mb q.nb
    if !mrdFmt rc.fmt then illop
    else if rc.seq ≠ 0 ∧ f.itag = 0xFFFFFF then boundsR f.itag
    else do
      let src := firingSrc s c f
      let foot ← liftTrap (recFoot s src .copyDst rc)
      if rc.const then trapR cPERM dCONST rc.base
      else mtxCmd s c f src (.mrd d.toNat (x.record f.ctx b.toNat) (bits v 0 64) (l == 1)) foot none

/-- MRD_H (R357). Reads 16 accumulator values into a held register. -/
def execMrdH (d a b : Spec) (l : BitVec 1) (s : State) : Out State :=
  onCells (.mrdH d a b l) s <| withRegs (.mrdH d a b l) fun c f s => do
    let v ← readSpec s c f a
    if 63 < lane 32 v 0 then boundsR (lane 32 v 0)
    else if 3 < lane 32 v 1 then boundsR (lane 32 v 1)
    else match heldIdx d with
      | some k => mtxCmd s c f (firingSrc s c f) (.mrdH k b.toNat (lane 32 v 0) (lane 32 v 1) (l == 1)) [] (some k)
      | none => illop

/-- MCLR (R358). Clears and binds an accumulator set. -/
def execMclr (d : Spec) (s : State) : Out State :=
  onCells (.mclr d) s fun c f s => mtxCmd s c f (firingSrc s c f) (.mclr d.toNat) [] none

/-- MCHK (R359). Reads the array's check state into a held register. -/
def execMchk (d : Spec) (s : State) : Out State :=
  onCells (.mchk d) s <| withRegs (.mchk d) fun c f s => match heldIdx d with
    | some k => mtxCmd s c f (firingSrc s c f) (.mchk k) [] (some k)
    | none => illop

/-- MSHP (R348). Sets the shape of an accumulator set. -/
def execMshp (d a : Spec) (s : State) : Out State :=
  onCells (.mshp d a) s <| withRegs (.mshp d a) fun c f s => do
    let v ← readSpec s c f a
    let m := lane 32 v 0
    let n := lane 32 v 1
    let k := lane 32 v 2
    if m < 1 ∨ 64 < m then boundsR m
    else if n < 1 ∨ 64 < n then boundsR n
    else if k < 1 ∨ 256 < k then boundsR k
    else mtxCmd s c f (firingSrc s c f) (.mshp d.toNat m n k) [] none

/-! ### The array (R342, R345) -/

/-- A set's value, and a plane's element. -/
def MSet.at_ (a : MSet) (m n : Nat) : Nat := (tget 0 a.acc (m * 64 + n)).toNat
def Plane.at_ (p : Plane) (k n : Nat) : Nat := tget 0 p.elems (k * 64 + n)

/-- The frame of a command owns the set (R347). -/
def ownsSet (s : State) (g k : Nat) (x : Src) : Bool := (getSet s g k).owner == some (x.cfg, x.frame)

/-- The set is released (R347). -/
def releaseSet (s : State) (g k : Nat) (rel : Bool) : State := if rel then modSet s g k fun a => { a with owner := none } else s

/-- The condition that stops a command at the head of the queue (R346, R347, R352, R356, R357).  The rest of an MSTR that has begun
arrives no more (R352). -/
def mtxArrival (s : State) (g : Nat) (m : MtxCmd) : Option Trap :=
  match m.op with
  | .mclr k => match (getSet s g k).owner with
    | some o => if o ≠ (m.src.cfg, m.src.frame) ∧ frameActive s o.1 o.2 then some (tIllop 7) else none
    | none => none
  | .mstr k rcd _ j _ _ =>
    if j ≠ 0 then none
    else if !ownsSet s g k m.src then some (tIllop 7)
    else match (getGrove s g).active.fmt with
      | none => some (tIllop 7)
      | some p =>
        if !mtxAccepts p (recOf rcd).fmt then some (tIllop 7)
        else if mtxDepth p < (getSet s g k).k then some (tBounds (getSet s g k).k)
        else none
  | .mrd k _ _ _ | .mrdH _ k _ _ _ | .mshp k _ _ _ => if ownsSet s g k m.src then none else some (tIllop 7)
  | _ => none

/-- An arrival stop (R346): every later command of the frame is discarded and the frame stops. -/
def mtxStop (s : State) (g : Nat) (m : MtxCmd) (t : Trap) : State :=
  jobTrap (modGrove s g fun x => { x with queue := x.queue.filter fun q => !(q.src.cfg == m.src.cfg && q.src.frame == m.src.frame) }) t m.src none

/-- The command at the head leaves the queue. -/
def mtxPop (s : State) (g : Nat) : State := modGrove s g fun x => { x with queue := x.queue.drop 1 }

/-- An element read by the array: 0 for OUTSIDE. -/
def mtxElem (s : State) (src : Src) (rc : Rec) (e : Nat) : Except Trap Nat := (jobRead s none src rc e).map fun q => q.1.getD 0

/-- The elements of MLW: rows of columns (R349). -/
def mlwRows (s : State) (src : Src) (rc : Rec) (e k n : Nat) : Except Trap (List (List Nat)) :=
  (List.range k).mapM fun i => (List.range n).mapM fun j => mtxElem s src rc (e + i * rc.extent0 + j)

/-- The shadow plane with loaded rows; the rest of it is 0 (R349). -/
def loadPlane (fmt : Nat) (rows : List (List Nat)) : Plane :=
  { fmt := some fmt, elems := tofn 0 (mtxDepth fmt * 64) fun i => (rows.getD (i / 64) []).getD (i % 64) 0 }

/-- The activations of K-block `j`: for each row the elements 32j to min(32j+32, K) (R352). -/
def mstrRows (s : State) (src : Src) (rc : Rec) (e m k j : Nat) : Except Trap (List (List Nat)) :=
  (List.range m).mapM fun r => (List.range (min 32 (k - 32 * j))).mapM fun i => mtxElem s src rc (e + r * rc.extent0 + 32 * j + i)

/-- The block sum of one row and column (R353); its rounding reports no underflow (R354). -/
def mstrSum (p : Plane) (pf af : NumFmt) (xs : List Nat) (j n : Nat) : FRes :=
  let r := blockSum (p.fmt == some 9) ((xs.zipIdx).map fun x => (af.decode x.1, pf.decode (p.at_ (32 * j + x.2) n)))
  { r with rep := { r.rep with flags := r.rep.flags &&& (flNV ||| flOF ||| flNX) } }

/-- The block sums of every row and column. -/
def mstrSums (a : MSet) (p : Plane) (pf af : NumFmt) (rows : List (List Nat)) (j : Nat) : List (List FRes) :=
  rows.map fun xs => (List.range a.n).map fun n => mstrSum p pf af xs j n

/-- Whether the products of a block are all finite, row by row: only such a block of a format other than BF16 has its residue checked
(R362). -/
def finiteSums (sums : List (List FRes)) : List (List Bool) := sums.map fun r => r.map fun q => q.rep.nf == 0

/-- Accumulation of block `j`: the set's new values, the reports of R354, and which sums are of finite products. -/
def mstrBlock (a : MSet) (p : Plane) (pf af : NumFmt) (rows : List (List Nat)) (j : Nat) : Table (BitVec 32) × Rep × List (List Bool) :=
  let sums := mstrSums a p pf af rows j
  let news := (sums.zipIdx).map fun r => (r.1.zipIdx).map fun q =>
    let t := opFadd fF32 .rne (a.at_ r.2 q.2) q.1.code
    (t.code, q.1.rep.join t.rep)
  let acc := tofn (0 : BitVec 32) 4096 fun i => match (news.getD (i / 64) [])[i % 64]? with
    | some q => BitVec.ofNat 32 q.1
    | none => tget 0 a.acc i
  (acc, (news.flatten.map (·.2)).foldl Rep.join {}, finiteSums sums)

/-- The masked edges are +0 and the bound is the shape (R352, R355). -/
def maskEdges (a : MSet) : MSet := { a with acc := a.acc.filter fun e => decide (e.1 / 64 < a.m) && decide (e.1 % 64 < a.n), mb := a.m, nb := a.n }

/-- The check of block `j` finds a mismatch (R362, R363): W4 of the record, after R421.  `fin` says which sums have their residue
checked.  Which of the checked ones mismatch is a matter of hardware errors, left free (log entry 15). -/
def mstrMismatch (s : State) (a : MSet) (bf16 : Bool) (fin : List (List Bool)) (bc k j : Nat) : Option Nat :=
  match Config.mismatch s.tick with
  | none => none
  | some (r, c) =>
    let col := bc % 64
    if bf16 then (if col < a.n then some (k + j * 2 ^ 8 + r % a.m * 2 ^ 32 + col * 2 ^ 40) else none)
    else if (fin.getD (r % a.m) []).getD (c % a.n) false then some (k + j * 2 ^ 8 + r % a.m * 2 ^ 32 + c % a.n * 2 ^ 40 + 2 ^ 48) else none

/-- A mismatch (R364): the block is not added, the rest of the MSTR and later commands of the frame are not performed, the
set is cleared and released, the counter and the black box record it, and the frame stops with SDC. -/
def mstrSdc (s : State) (g k : Nat) (m : MtxCmd) (w4 : Nat) : State :=
  let s := modSet s g k fun a => { a with acc := [], owner := none }
  let s := modGrove { s with sdcs := s.sdcs + 1 } g fun x => { x with mismatches := satAdd x.mismatches 1 }
  let s := bboxEvent s (basinOfGrove g) 1 cSDC 0 g (cellNo m.src.who) m.src.asn m.src.frame w4 ((getCfg s m.src.cfg).rcd % 2 ^ 56)
  mtxStop s g m { cause := cSDC, aux := w4 }

/-- The counters of the array's checks after a K-block (R359, R363). -/
def countBlock (s : State) (g : Nat) (bf16 checked : Bool) : State :=
  modGrove s g fun x =>
    if bf16 then { x with bc := (x.bc + 1) % 2 ^ 32 } else if checked then { x with resblocks := satAdd x.resblocks 1 } else x

/-- One K-block of an MSTR (R352): at its last block the command completes, and its report reaches the frame (R354). -/
def performMstr (s : State) (g : Nat) (m : MtxCmd) (k : Nat) (rcd : BitVec 256) (e j fl nf : Nat) : State :=
  let rc := recOf rcd
  let a := getSet s g k
  let p := (getGrove s g).active
  match numFmt (p.fmt.getD 0), numFmt rc.fmt, mstrRows s m.src rc e a.m a.k j with
  | some pf, some af, .ok rows =>
    let r := mstrBlock a p pf af rows j
    let bf16 := p.fmt == some 9
    let checked := r.2.2.flatten.any id
    match mstrMismatch s a bf16 r.2.2 (getGrove s g).bc k j with
    | some w4 => mstrSdc (countBlock s g bf16 checked) g k m w4
    | none =>
      let s := countBlock (modSet s g k fun a => { a with acc := r.1 }) g bf16 checked
      let fl := fl ||| r.2.1.flags
      let nf := satAdd nf r.2.1.nf
      if a.k ≤ 32 * (j + 1) then
        let s := mtxPop (modSet s g k maskEdges) g
        modFrame s m.src.cfg m.src.frame fun f => f.report ⟨fl, nf, 0⟩
      else modGrove s g fun x => { x with queue := { m with op := .mstr k rcd e (j + 1) fl nf } :: x.queue.drop 1 }
  | _, _, .error t => mtxStop s g m t
  | _, _, _ => mtxStop s g m (tIllop 7)

/-- The F32 value of a set converted into a record's format (R240, R241, R356): code, replaced non-finite values, report. -/
def mrdConv (rc : Rec) (itag va v : Nat) : Nat × Nat × Rep :=
  match numFmt rc.fmt with
  | some n =>
    let x := fF32.decode v
    let z := rc.nf0 && !x.finite
    let r := convert n (modeOfRecord rc.round rc.seed va itag) (if z then fF32.decode 0 else x)
    (r.code, if z then 1 else 0, r.rep)
  | none => (v, 0, {})

/-- What the writes of an MRD leave: state, report, replaced non-finite elements, a dropped write, contributions. -/
structure MrdRun where
  st : State
  rep : Rep := {}
  nf : Nat := 0
  drop : Option Nat := none
  pieces : List Piece := []
  cnt : List (Nat × Nat × Nat) := []

/-- One element of an MRD (R356): written, or kept as a contribution of a sequenced record (R247), whose reports are its group's
alone (R241, R298). -/
def mrdElem (m : MtxCmd) (rc : Rec) (e v k : Nat) (r : MrdRun) : Except Trap MrdRun := do
  match ← rc.elem e with
  | .outside => .ok r
  | .at_ b =>
    let q := mrdConv rc m.src.itag (b / 8) v
    if rc.seq = 0 then
      let w ← jobWrite r.st none m.src rc e q.1
      .ok { r with st := w.1, rep := r.rep.join q.2.2, nf := satAdd r.nf q.2.1, drop := match r.drop with | some x => some x | none => w.2 }
    else
      let (ps, _) ← jobParts r.st none m.src .copyDst b rc.bits
      .ok { r with pieces := r.pieces ++ ps.map fun p => { bit := p.2.1, len := p.2.2.1, va := p.1, val := q.1 >>> p.2.2.2 % 2 ^ p.2.2.1, val2 := p.2.2.2, k := k }
                   cnt := if q.2.1 + q.2.2.nf = 0 ∧ q.2.2.sat = 0 then r.cnt else r.cnt ++ [(k, q.2.1 + q.2.2.nf, q.2.2.sat)] }

/-- The elements of an MRD in ascending order. -/
def mrdAll (m : MtxCmd) (rc : Rec) (e : Nat) (a : MSet) : List (Nat × Nat) → MrdRun → Except Trap MrdRun
  | [], r => .ok r
  | (i, j) :: l, r => do
    let r ← mrdElem m rc (e + i * rc.extent0 + j) (a.at_ i j) (i * 64 + j) r
    mrdAll m rc e a l r

/-- MRD in memory form performed (R356): values, counts (R241), and the release. -/
def performMrd (s : State) (g : Nat) (m : MtxCmd) (k : Nat) (rcd : BitVec 256) (e : Nat) (rel : Bool) : State :=
  let a := getSet s g k
  match mrdAll m (recOf rcd) e a ((List.range a.mb).flatMap fun i => (List.range a.nb).map fun j => (i, j)) { st := s } with
  | .error t => mtxStop s g m t
  | .ok r =>
    let q := fresh r.st
    let acc : Acc := { id := q.1, src := m.src, pieces := r.pieces, scope := 3, group := (recOf rcd).seq, rcd := rcd, cnt := r.cnt }
    let s := if r.pieces = [] then r.st
      else commitAccess { q.2 with inflight := q.2.inflight ++ [⟨q.1, m.src, .store, rangesOf r.pieces true, 3, acc.group, 0⟩] } acc
    let s := if r.nf = 0 then s else countNonFinite s m.src (recOf rcd).place r.nf
    let s := modFrame s m.src.cfg m.src.frame fun f => f.report r.rep
    let s := mtxPop (releaseSet s g k rel) g
    match r.drop with
    | some va => jobTrap s { cause := cECCUNC, addr := va } m.src none
    | none => s

/-- The register value of MRD.H (R357): +0 on a masked edge. -/
def mrdValue (a : MSet) (row grp : Nat) : Nat :=
  ofLanes 32 ((List.range 16).map fun i => if row < a.mb ∧ 16 * grp + i < a.nb then a.at_ row (16 * grp + i) else 0)

/-- The register value of MCHK (R359). -/
def mchkValue (x : Grove) : Nat := x.mismatches * 2 ^ 96 + x.bc % 64 * 2 ^ 64 + x.bc * 2 ^ 32 + x.resblocks

/-- The command at the head of the queue is performed; an MSTR one K-block at a time (R345, R365). -/
def performMtx (s : State) (g : Nat) (m : MtxCmd) : State :=
  match m.op with
  | .mlw rcd e k n => match mlwRows s m.src (recOf rcd) e k n with
    | .ok rows => mtxPop (modGrove s g fun x => { x with shadow := loadPlane (recOf rcd).fmt rows }) g
    | .error t => mtxStop s g m t
  | .mswp => mtxPop (modGrove s g fun x => { x with active := x.shadow, shadow := x.active }) g
  | .mstr k rcd e j fl nf => performMstr s g m k rcd e j fl nf
  | .mrd k rcd e rel => performMrd s g m k rcd e rel
  | .mrdH h k row grp rel =>
    let v := mrdValue (getSet s g k) row grp
    addWork (mtxPop (releaseSet s g k rel) g) (.fill m.src.who h (BitVec.ofNat 512 v) false)
  | .mclr k => mtxPop (modSet s g k fun a => { a with acc := [], mb := 0, nb := 0, owner := some (m.src.cfg, m.src.frame) }) g
  | .mchk h => addWork (mtxPop s g) (.fill m.src.who h (BitVec.ofNat 512 (mchkValue (getGrove s g))) false)
  | .mshp k m' n' k' => mtxPop (modSet s g k fun a => { a with m := m', n := n', k := k' }) g

/-- The command at the head of a grove's queue may be performed, or its next K-block: its configuration runs (R365), and no earlier
job of its frame comes first on its footprint (R216). -/
def mtxReady (s : State) (g : Nat) : Option MtxCmd :=
  match (getGrove s g).queue with
  | [] => none
  | m :: _ => if queueRuns s m.src g mtxRoom ∧ !footWaits s m.id m.src m.foot then some m else none

/-- MTX_COMMAND_AT_HEAD (R345). A matrix command reaches the head of its queue and is performed, or stopped with an arrival
fault. -/
def execMtxCommandAtHead (s : State) : Out State :=
  match (turnArg s).bind fun g => (mtxReady s g).map fun m => (g, m) with
  | some (g, m) => match mtxArrival s g m with
    | some t => .next (mtxStop s g m t)
    | none => .next (performMtx s g m)
  | none => notPending "no command is at the head"

end Sys2Proof.Machine
end

