-- ==== Sys2Proof/Machine/Rel.lean ====
section
/-! DEFINITION. REL: relation descriptors, shards and owners (R369 to R373), algebras (R374, R375), the instructions and their
checks (R391 to R398), the relation unit's jobs (R376, R380, R385, R388, R390), contributions at their owner (R377, R378,
R387) and the close of a round (R379). -/

namespace Sys2Proof.Machine

/-! ### Descriptors (R371) -/

def RelDesc.q (d : RelDesc) (k : Nat) : Nat := bits d.w.toNat (64 * k) 64
def RelDesc.quiescent (d : RelDesc) : Bool := bit (d.q 0) 63
def RelDesc.trace (d : RelDesc) : Bool := bit (d.q 0) 62
def RelDesc.hash (d : RelDesc) : Bool := bit (d.q 0) 61
def RelDesc.stratum (d : RelDesc) : Nat := bits (d.q 0) 48 8
def RelDesc.relnum (d : RelDesc) : Nat := bits (d.q 0) 32 16
def RelDesc.algebra (d : RelDesc) : Nat := bits (d.q 0) 24 4
def RelDesc.arity (d : RelDesc) : Nat := bits (d.q 0) 18 2 + 1
def RelDesc.index (d : RelDesc) : Nat := bits (d.q 0) 16 2
def RelDesc.handle (d : RelDesc) : Nat := bits (d.q 0) 0 12
def RelDesc.limit (d : RelDesc) : Nat := bits (d.q 1) 16 24
def RelDesc.base (d : RelDesc) : Nat := bits (d.q 2) 0 56
def RelDesc.stride (d : RelDesc) : Nat := bits (d.q 3) 32 32
def RelDesc.lt (d : RelDesc) : Nat := bits (d.q 3) 27 5
def RelDesc.logb (d : RelDesc) : Nat := bits (d.q 3) 21 6
def RelDesc.lg (d : RelDesc) : Nat := bits (d.q 3) 17 4
def RelDesc.first (d : RelDesc) : Nat := bits (d.q 3) 0 10
def RelDesc.shards (d : RelDesc) : Nat := 2 ^ d.lg
/-- Bytes of a part, and of a shard region (R372). -/
def RelDesc.part (d : RelDesc) : Nat := 2 ^ (d.logb + 8)
def RelDesc.size (d : RelDesc) : Nat := 256 + 3 * d.part + (if d.trace then 32 * 2 ^ d.lt else 0)
def RelDesc.slots (d : RelDesc) : Nat := 8 * 2 ^ d.logb

/-- The descriptor follows R371. -/
def RelDesc.ok (d : RelDesc) : Bool :=
  bits (d.q 0) 56 5 == 0 && bits (d.q 0) 28 4 == 0 && bits (d.q 0) 21 3 == 0 && bits (d.q 0) 12 4 == 0 && bits (d.q 1) 0 16 == 0 &&
  bits (d.q 2) 56 8 == 0 && bits (d.q 3) 10 7 == 0 && bits d.w.toNat 256 256 == 0 && decide (d.algebra ≤ 5) &&
  (bit (d.q 0) 20 == (d.algebra == 0 || d.algebra == 5)) && decide (d.index < d.arity) && (d.limit != 0 || d.algebra == 0) &&
  d.base % 256 == 0 && d.stride != 0 && decide (d.lt ≤ 26) && decide (d.logb ≤ 24) && decide (d.lg ≤ 10)

/-- First byte of shard `k` of the device (R372). -/
def RelDesc.shard (d : RelDesc) (k : Nat) : Nat := d.base + k * d.stride * 256

/-! ### Shards in memory (R369, R372) -/

/-- The parts of a shard, by their number: FULL, DELTA, NEXT. -/
def partVa (d : RelDesc) (k p : Nat) : Nat := d.shard k + 256 + p * d.part

/-- The slots of a part. -/
def readPart (s : State) (x : Src) (d : RelDesc) (k p : Nat) : Except Trap (List Nat) :=
  (jobBytes s x (partVa d k p) d.part).map fun v => (List.range d.slots).map fun i => bits v (256 * i) 256

/-- What the unit's writes have come to (R258): the state, the address of the first that was dropped (R441), and why the job stops, after
which nothing more is written. -/
structure Written where
  s : State
  drop : Option Nat := none
  stop : Option Trap := none

/-- Bytes are written at a virtual address. -/
def Written.put (r : Written) (x : Src) (va n v : Nat) : Written :=
  if r.stop.isSome then r
  else match jobPut r.s x va n v with
    | .error t => { r with stop := some t }
    | .ok (s, d) => { r with s := s, drop := r.drop.orElse fun _ => d }

/-- Bytes are read and written anew. -/
def Written.update (r : Written) (x : Src) (va n : Nat) (f : Nat → Nat) : Written :=
  if r.stop.isSome then r
  else match jobBytes r.s x va n with
    | .error t => { r with stop := some t }
    | .ok w => r.put x va n (f w)

/-- What a job does after its writes, unless it has stopped. -/
def Written.andThen (r : Written) (f : State → State) : Written := if r.stop.isSome then r else { r with s := f r.s }

/-- The header of a shard: words W0 to W4. -/
structure Header where
  rc : Nat := 0
  nfull : Nat := 0
  nnext : Nat := 0
  ndelta : Nat := 0
  tlost : Nat := 0
  tused : Nat := 0
  nonfin : Nat := 0
  dups : Nat := 0
  sat : Nat := 0

def shardHeaderOf (v : Nat) : Header :=
  { rc := bits v 40 24, nfull := bits v 0 32, nnext := bits v 96 32, ndelta := bits v 64 32, tlost := bits v 160 32, tused := bits v 128 32
    nonfin := bits v 224 32, dups := bits v 192 32, sat := bits v 256 32 }

def Header.value (h : Header) : Nat :=
  h.rc % 2 ^ 24 * 2 ^ 40 + h.nfull % 2 ^ 32 + (h.nnext % 2 ^ 32 * 2 ^ 32 + h.ndelta % 2 ^ 32) * 2 ^ 64 + (h.tlost * 2 ^ 32 + h.tused) * 2 ^ 128 +
    (h.nonfin * 2 ^ 32 + h.dups % 2 ^ 32) * 2 ^ 192 + h.sat * 2 ^ 256

def readHeader (s : State) (x : Src) (d : RelDesc) (k : Nat) : Except Trap Header := (jobBytes s x (d.shard k) 40).map shardHeaderOf
def putHeader (r : Written) (x : Src) (d : RelDesc) (k : Nat) (h : Header) : Written := r.put x (d.shard k) 40 h.value

/-- A tuple slot from its fields. -/
def mkSlot (keys : List Nat) (id weight w3 : Nat) : Nat :=
  ofLanes 32 [keys.getD 0 0, keys.getD 1 0, keys.getD 2 0, keys.getD 3 0, weight, id] + w3 % 2 ^ 64 * 2 ^ 192

def slotW3 (t : Nat) : Nat := bits t 192 64
def slotWeight (t : Nat) : Nat := bits t 128 32
def slotAux (t : Nat) : Nat := bits t 192 32

/-- The bucket at which probes for keys start (R373), as a slot number. -/
def firstSlot (d : RelDesc) (keys : List Nat) : Nat := if d.logb = 0 then 0 else 8 * (keyHash keys >>> (32 - d.logb))

/-- The slots in the order a probe scans them. -/
def probeOrder (d : RelDesc) (keys : List Nat) : List Nat := (List.range d.slots).map fun j => (firstSlot d keys + j) % d.slots

/-- The live slot with the keys. -/
def findTup (d : RelDesc) (slots : List Nat) (keys : List Nat) : Option Nat :=
  (probeOrder d keys).find? fun i => let t := slots.getD i 0; tupState t == 1 && tupKeys t == keys

/-- The slot of FULL with the keys, live or tombstone. -/
def findAny (d : RelDesc) (slots : List Nat) (keys : List Nat) : Option Nat :=
  (probeOrder d keys).find? fun i => let t := slots.getD i 0; (tupState t == 1 || tupState t == 2) && tupKeys t == keys

/-- The first slot a new tuple may take: empty, or a tombstone that is not among those kept. -/
def freeSlot (d : RelDesc) (slots : List Nat) (keys kept : List Nat) : Option Nat :=
  (probeOrder d keys).find? fun i => tupState (slots.getD i 0) != 1 && !kept.contains i

/-- The id of a derived tuple (R370). -/
def derivedId (relnum : Nat) (keys : List Nat) : Nat := mix32 (relnum ^^^ keyHash keys) ||| 2 ^ 31

/-! ### Owners (R373) -/

/-- The axes of a handle that have the state H of the relation's index column. -/
def hashAxes (p : Placement) (d : RelDesc) : List Nat := (List.range 4).filter fun k => stateAt (dStates p.d) k == 8 + d.index

/-- Devices over which a relation is spread, and this device's linear index among them. -/
def relDevices (s : State) (d : RelDesc) : Nat × Nat :=
  if d.handle = 0 then (1, 0)
  else
    let p := getPlacement s d.handle
    let hs := hashAxes p d
    let cs := coordsOf p.sizes p.self
    (meshCount (hs.map fun k => p.sizes.getD k 1), linearOf (hs.map fun k => p.sizes.getD k 1) (hs.map fun k => cs.getD k 0))

/-- The owner of an index value: the local shard, or none for a shard of another device. -/
def ownerShard (s : State) (d : RelDesc) (v : Nat) : Option Nat :=
  let v := if d.hash then mix32 v else v
  let q := relDevices s d
  let n := v % (q.1 * d.shards)
  if n % q.1 = q.2 then some (n / q.1) else none

/-- The other device that owns an index value, as the mesh of the relation's handle names it; none where that record names none. -/
def ownerDev (s : State) (x : Src) (d : RelDesc) (v : Nat) : Option Nat :=
  if (ownerShard s d v).isSome then none
  else
    let p := getPlacement s d.handle
    let hs := hashAxes p d
    let q := relDevices s d
    let hc := coordsOf (hs.map fun k => p.sizes.getD k 1) ((if d.hash then mix32 v else v) % (q.1 * d.shards) % q.1)
    let cs := (coordsOf p.sizes p.self).zipIdx.map fun c => if hs.contains c.2 then hc.getD (hs.idxOf c.2) 0 else c.1
    match jobMesh s x (dMesh p.d) with
    | .ok (some (_, ds)) => ds[linearOf p.sizes cs]?
    | _ => none

/-- The port that leads to the owner of an index value is down (R442). -/
def indexDown (s : State) (x : Src) (d : RelDesc) (v : Nat) : Bool := (ownerDev s x d v).any fun n => !peerReach s n

/-- Live tuples of FULL, or all of its slots, at the owner of an index value; those of other devices are not known here
(log entry 17), and LINK where no port leads to them (R442). -/
def ownerSlots (s : State) (x : Src) (d : RelDesc) (v : Nat) : Except Trap (Option Nat × List Nat) :=
  match ownerShard s d v with
  | some k => (readPart s x d k 0).map fun l => (some k, l)
  | none => if indexDown s x d v then .error (cause cLINK 0 d.va) else .ok (none, (Config.peerTuples d.va v s.tick).map (·.toNat))

/-- The issuing grove's shard, by its glade-relative number (R372, R392). -/
def groveShard (s : State) (x : Src) (d : RelDesc) : Option Nat :=
  let n := (getCfg s x.cfg).relGrove (groveOf x.who)
  if d.first ≤ n ∧ n < d.first + d.shards then some (n - d.first) else none

/-! ### Algebras (R374, R375) -/

def algZero (a : Nat) : Nat := match a with | 1 => 0x7F800000 | 2 => 0xFF800000 | _ => 0
def algOne (a : Nat) : Nat := match a with | 0 | 5 => 1 | 3 | 4 => 0x3F800000 | _ => 0
/-- ⊕ is idempotent. -/
def algIdem (a : Nat) : Bool := a ≤ 3
/-- A stored weight: BOOL keeps 1 for any non-zero weight. -/
def algNorm (a w : Nat) : Nat := if a = 0 then (if w = 0 then 0 else 1) else w

/-- A weight with its sign, which only COUNT has, and whether a magnitude above 2^32-1 was clamped. -/
structure Wt where
  neg : Bool := false
  mag : Nat := 0
  deriving DecidableEq, Repr

/-- ⊗ of two weights; COUNT is exact. -/
def algMul (a : Nat) (x y : Wt) : Wt := match a with
  | 0 => { mag := if x.mag ≠ 0 ∧ y.mag ≠ 0 then 1 else 0 }
  | 1 | 2 => { mag := (opFadd fF32 .rne x.mag y.mag).code }
  | 5 => { neg := (x.neg != y.neg) && x.mag != 0 && y.mag != 0, mag := x.mag * y.mag }
  | _ => { mag := (opFmul fF32 .rne x.mag y.mag).code }

/-- ⊕ of two weights of an idempotent algebra, or of SUMPROD. -/
def algAdd (a x y : Nat) : Nat := match a with
  | 0 => x ||| y
  | 1 => minMaxCode fF32 false x y
  | 2 | 3 => minMaxCode fF32 true x y
  | _ => (opFadd fF32 .rne x y).code

/-- A magnitude clamped to 32 bits (R375). -/
def clamp32 (m : Nat) : Nat := min m 0xFFFFFFFF

/-- The weight of a slot of DELTA or NEXT, COUNT's with the sign that R369 keeps at bit `b` of W3. -/
def slotWt (a b t : Nat) : Wt := { neg := a == 5 && bit (slotW3 t) b, mag := slotWeight t }

/-! ### Instruction checks (R391, R392) -/

/-- A relation descriptor an instruction names: read (R391), in use and well-formed (R392). -/
def relDesc (s : State) (c : Nat) (f : Firing) (va : Nat) (use : Bool) : R RelDesc := do
  let w ← cellBlock s c f va 64 64
  let q ← translate s ⟨streamCell c, bufferKey (groveOf c)⟩ (firingSrc s c f) .read va 64
  let d : RelDesc := { va := va, pa := q.1, w := BitVec.ofNat 512 w }
  if use && !(d.ok && s.rels.contains d.pa) then illop else .ok d

/-- The shard of the issuing grove, or BOUNDS (R392). -/
def ownShard (s : State) (src : Src) (d : RelDesc) : R Nat := match groveShard s src d with
  | some k => .ok k
  | none => boundsR ((getCfg s src.cfg).relGrove (groveOf src.who))

/-- A barrier that a block names; none for 0 (R380, R395): misaligned is ALIGN, outside a barrier page is PERM. -/
def relBarrier (s : State) (src : Src) (va : Nat) : R (Option (Nat × Nat)) :=
  if va = 0 then .ok none
  else if va % 16 ≠ 0 then trapR cALIGN 0 va
  else (liftTrap (walkCheck s src .barWrite va 16)).map fun pa => some (pa, va)

/-- The destination of RRND, RQCK and RLOOK: a held register or Z. -/
def relDest (s : State) (c : Nat) (f : Firing) (d : Spec) : R (Option Nat) := match heldIdx d with
  | some k => (writeWait s c f k).map fun _ => some k
  | none => .ok none

/-- A relation command enters the buffer, with the check of its footprint. -/
def relCmd (s : State) (c : Nat) (f : Firing) (src : Src) (op : RelOp) (bar : Option (Nat × Nat)) (held : Option Nat) (foot : List Range) : R State := do
  let f ← addEntry f (.cmd (.rel { src := src, grove := groveOf c, op := op, bar := bar, foot := foot }) held)
  .ok (sendJobCheck (putFiring s c f) src foot 3)

/-- Parts of shards as footprints (R389). -/
def shardFoot (s : State) (src : Src) (d : RelDesc) (ks : List Nat) (off n : Nat) (a : Acs) : R (List Range) := do
  let l ← ks.mapM fun k => liftTrap (footRange s src a (d.shard k + off : Nat) n)
  .ok l.flatten

/-- A REL instruction on a cell: `body` gets the issuer and the address in register a. -/
def relInstr (i : Instr) (a : Spec) (body : Nat → Firing → Src → Nat → State → R State) (s : State) : Out State :=
  onCells i s <| withRegs i fun c f s => do
    let v ← readSpec s c f a
    body c f (firingSrc s c f) (v % 2 ^ 64) s

/-- RDEF and RCLR (R393). -/
def rclrBody (use : Bool) (c : Nat) (f : Firing) (src : Src) (va : Nat) (s : State) : R State := do
  let d ← relDesc s c f va (!use)
  let cfg := getCfg s src.cfg
  let p := getPlacement s d.handle
  let outside := (List.range d.shards).find? fun k => decide (cfg.width ≤ (d.first + k) % 32) || decide (cfg.height ≤ (d.first + k) / 32)
  if use && !d.ok then illop
  else if use && d.handle != 0 && (!p.defd || dFmt p.d != 17 || !(List.range 4).all fun k => stateAt (dStates p.d) k == 0 || stateAt (dStates p.d) k == 8 + d.index) then
    illop
  else if use && outside.isSome then boundsR (d.first + outside.getD 0)
  else if use && decide (d.stride * 256 < d.size) then boundsR d.stride
  else do
    let foot ← shardFoot s src d (List.range d.shards) 0 d.size .copyDst
    relCmd s c f src (.rclr d use) none none foot

/-- RDEF (R393). Takes a relation descriptor into use and clears its shards. -/
def execRdef (a : Spec) (s : State) : Out State := relInstr (.rdef a) a (rclrBody true) s

/-- RCLR (R393). Clears every local shard of a relation. -/
def execRclr (a : Spec) (s : State) : Out State := relInstr (.rclr a) a (rclrBody false) s

/-- The tuples of RINS and RDEL (R394), checked. -/
def rinsTuples (d : RelDesc) (del : Bool) (v : Nat) : R (List (BitVec 256)) := do
  let ts := [bits v 0 256, bits v 256 256].filter fun t => tupState t != 0
  match ts.find? fun t => tupState t != 1 || bits (slotW3 t) 0 62 != 0 || ((tupKeys t).drop d.arity).any (· != 0) || bit (tupId t) 31 || (del && slotWeight t == 0) with
  | some t => boundsR (bits t 0 64)
  | none => .ok (ts.map (BitVec.ofNat 256))

/-- RINS and RDEL. -/
def rinsBody (del : Bool) (b : Spec) (c : Nat) (f : Firing) (src : Src) (va : Nat) (s : State) : R State := do
  let d ← relDesc s c f va true
  let v ← readSpec s c f b
  let ts ← rinsTuples d del v
  if del ∧ d.algebra ≠ 5 then trapR cALGEBRA 0 va
  else relCmd s c f src (.rins d ts del) none none []

/-- RINS (R394). Inserts base facts as contributions. -/
def execRins (a b : Spec) (s : State) : Out State := relInstr (.rins a b) a (rinsBody false b) s

/-- RDEL (R394). Retracts base facts of a COUNT relation. -/
def execRdel (a b : Spec) (s : State) : Out State := relInstr (.rdel a b) a (rinsBody true b) s

/-- Fields of a rule block (R395). -/
def ruleNo (w : Nat) : Nat := bits w 48 16
def ruleSrc (w j : Nat) : Nat := bits w (16 + 4 * j) 4
def ruleJa (w : Nat) : Nat := bits w 8 2
def ruleJb (w : Nat) : Nat := bits w 10 2
def ruleBar (w : Nat) : Nat := bits w 320 56

/-- Bits of a rule block that must be 0, its rule number and its source codes. -/
def ruleBad (w : Nat) (anti : Bool) : Bool :=
  bits w 33 15 != 0 || bits w 12 4 != 0 || bits w 0 8 != 0 || bits w 96 32 != 0 || bits w 184 8 != 0 || bits w 248 8 != 0 || bits w 312 8 != 0 ||
  bits w 376 8 != 0 || bits w 384 128 != 0 || ruleNo w == 0 || (List.range 4).any fun j => decide ((if anti then 4 else 8) < ruleSrc w j)

/-- Columns of a rule that do not fit its relations (check 1 of R395). -/
def ruleCols (w : Nat) (h a b : RelDesc) : Bool :=
  (List.range 4).any (fun j => let k := ruleSrc w j
    ((k == 0) != decide (h.arity ≤ j)) || (decide (1 ≤ k) && decide (k ≤ 4) && decide (a.arity < k)) || (decide (5 ≤ k) && decide (b.arity < k - 4))) ||
  decide (a.arity ≤ ruleJa w) || decide (b.arity ≤ ruleJb w)

/-- RJOIN and RANTI (R376, R384, R385, R395). -/
def rjoinBody (anti : Bool) (c : Nat) (f : Firing) (src : Src) (va : Nat) (s : State) : R State := do
  let w ← cellBlock s c f va 64 64
  if ruleBad w anti then illop
  else do
    let h ← relDesc s c f (bits w 128 56) true
    let a ← relDesc s c f (bits w 192 56) true
    let b ← relDesc s c f (bits w 256 56) true
    if ruleCols w h a b ∨ ruleJb w ≠ b.index ∨ ruleJa w ≠ a.index then illop
    else if h.algebra ≠ a.algebra ∨ h.algebra ≠ b.algebra then trapR cALGEBRA 0 va
    else if (if anti then decide (h.stratum ≤ b.stratum) || !b.quiescent else decide (h.stratum < a.stratum) || decide (h.stratum < b.stratum)) then
      trapR cSTRATUM 0 va
    else do
      let bar ← relBarrier s src (ruleBar w)
      let _ ← ownShard s src a
      let f1 ← shardFoot s src a (List.range a.shards) 256 (2 * a.part) .read
      let f2 ← shardFoot s src b (List.range b.shards) 256 (2 * b.part) .read
      relCmd s c f src (.rjoin (BitVec.ofNat 512 w) h a b anti) bar none (f1 ++ f2)

/-- RJOIN (R395). Joins the round's deltas of two relations. -/
def execRjoin (a : Spec) (s : State) : Out State := relInstr (.rjoin a) a (rjoinBody false) s

/-- RANTI (R395). Anti-joins against a quiescent relation. -/
def execRanti (a : Spec) (s : State) : Out State := relInstr (.ranti a) a (rjoinBody true) s

/-- RRNDs of the same shard that are committed and not performed (R383). -/
def pendingRounds (s : State) (d : RelDesc) (grove : Nat) : Nat :=
  (s.work.filter fun w => match w with
    | .rel j => (match j.op with | .rrnd e _ => e.pa == d.pa && j.grove == grove | _ => false)
    | _ => false).length

/-- RRND (R396). Closes the round of the grove's shard. -/
def execRrnd (d a : Spec) (s : State) : Out State :=
  relInstr (.rrnd d a) a (fun c f src va s => do
    let r ← relDesc s c f va true
    let k ← ownShard s src r
    let h ← liftTrap (readHeader s src r k)
    if r.limit ≠ 0 ∧ r.limit ≤ h.rc + pendingRounds s r (groveOf c) then trapR cROUNDLIM 0 va
    else do
      let held ← relDest s c f d
      let foot ← shardFoot s src r [k] 0 r.size .copyDst
      relCmd s c f src (.rrnd r held) none held foot) s

/-- RQCK (R397). Sums counts at a barrier and decides quiescence.  W6 and W7 of its block are ignored; that a set bit of W0 or W1
[63:56], which R397 gives as 0, faults with ILLOP is the model's choice (DESIGN CHOICE, log entry 69). -/
def execRqck (d a b : Spec) (g : BitVec 1) (s : State) : Out State :=
  relInstr (.rqck d a b g) a (fun c f src va s => do
    let w ← cellBlock s c f va 64 64
    if bits w 56 8 ≠ 0 ∨ bits w 120 8 ≠ 0 then illop
    else if bits w 0 56 % 16 ≠ 0 then trapR cALIGN 0 (bits w 0 56)
    else if bits w 64 56 % 8 ≠ 0 then trapR cALIGN 0 (bits w 64 56)
    else do
      let bar ← liftTrap (walkCheck s src .barWrite (bits w 0 56) 16)
      let v ← readSpec s c f b
      let held ← relDest s c f d
      relCmd s c f src (.rqck va bar (bits w 0 56) (bits w 64 56) (v % 2 ^ 64) (g == 1) held) none held []) s

/-- RLOOK (R396). Looks up one tuple in FULL. -/
def execRlook (d a b : Spec) (s : State) : Out State :=
  relInstr (.rlook d a b) a (fun c f src va s => do
    let r ← relDesc s c f va true
    let v ← readSpec s c f b
    match (lanes 32 16 v |>.drop r.arity).find? (· != 0) with
    | some x => boundsR x
    | none => do
      let keys := (List.range 4).map fun k => if k < r.arity then lane 32 v k else 0
      let held ← relDest s c f d
      let foot ← (match ownerShard s r (keys.getD r.index 0) with
        | none => (.ok [] : R (List Range))
        | some k => do
          let slots ← liftTrap (readPart s src r k 0)
          let i := (findTup r slots keys).getD (firstSlot r keys)
          liftTrap (footRange s src .read (partVa r k 0 + 32 * i : Nat) 32))
      relCmd s c f src (.rlook r keys held) none held foot) s

/-- RGRAD (R388). Propagates gradients for one round. -/
def execRgrad (a b : Spec) (s : State) : Out State :=
  relInstr (.rgrad a b) a (fun c f src va s => do
    let w ← cellBlock s c f va 64 64
    if bits w 56 8 ≠ 0 ∨ bits w 120 8 ≠ 0 ∨ bits w 184 8 ≠ 0 ∨ bits w 192 320 ≠ 0 then illop
    else do
      let v ← readSpec s c f b
      let r := lane 32 v 0
      if bits r 24 8 ≠ 0 then boundsR r
      else do
        let h ← relDesc s c f (bits w 0 56) true
        let g ← relDesc s c f (bits w 64 56) true
        if g.algebra ≠ 4 ∨ g.arity ≠ 1 ∨ g.index ≠ 0 ∨ g.trace ∨ h.algebra = 0 ∨ h.algebra = 5 then trapR cALGEBRA 0 va
        else if !h.trace then illop
        else do
          let k ← ownShard s src h
          let hd ← liftTrap (readHeader s src h k)
          if hd.tlost ≠ 0 then boundsR hd.tlost
          else do
            let bar ← relBarrier s src (bits w 128 56)
            let f1 ← shardFoot s src h (List.range h.shards) (256 + 3 * h.part) (32 * 2 ^ h.lt) .read
            let f2 ← shardFoot s src g (List.range g.shards) 256 g.part .read
            relCmd s c f src (.rgrad h g r) bar none (f1 ++ f2)) s

/-! ### The relation unit -/

/-- A contribution is sent: 32 bytes are added to the barrier (R380). -/
def sendContrib (s : State) (c : RelContrib) : State := addWork (barBytes s c.src c.bar 2 32) (.relContrib c)

/-- The contribution of a derivation with weight `w` (R376). -/
def deriv (j : RelJob) (h : RelDesc) (keys : List Nat) (rule ida idb : Nat) (w coa cob : Wt) : RelContrib :=
  { src := j.src, desc := h, keys := keys, tid := derivedId h.relnum keys, weight := if h.algebra = 5 then clamp32 w.mag else algNorm h.algebra w.mag
    neg := w.neg, clamped := h.algebra == 5 && decide (0xFFFFFFFF < w.mag), rule := rule, ida := ida, idb := idb, trb := idb
    coa := clamp32 coa.mag, cob := clamp32 cob.mag, bar := j.bar }

/-- The head columns of a pair of tuples (R395). -/
def headKeys (w : Nat) (xa xb : List Nat) : List Nat := (List.range 4).map fun j =>
  let k := ruleSrc w j
  if k = 0 then 0 else if k ≤ 4 then xa.getD (k - 1) 0 else xb.getD (k - 5) 0

/-- The rule's weight (R376). -/
def ruleWeight (w a : Nat) : Wt := { mag := if bit w 32 then algNorm a (bits w 64 32) else algOne a }

/-- Contributions of one tuple of ΔA: with every live tuple of B that matches (R376), or, under RANTI, alone when none does
(R385). -/
def probeDeltaA (s : State) (j : RelJob) (w : Nat) (h b : RelDesc) (anti : Bool) (t : Nat) : Except Trap (List RelContrib) := do
  let alg := h.algebra
  let ka := tupKeys t
  let v := ka.getD (ruleJa w) 0
  let wa := slotWt alg 56 t
  let wr := ruleWeight w alg
  let q ← ownerSlots s j.src b v
  let hits := q.2.filter fun x => tupState x == 1 && (tupKeys x).getD (ruleJb w) 0 == v
  if anti then
    .ok (if hits = [] then [deriv j h (headKeys w ka []) (ruleNo w) (tupId t) 0xFFFFFFFF (algMul alg wa wr) wr { mag := algZero alg }] else [])
  else
    .ok (hits.map fun x =>
      let wb : Wt := { mag := slotWeight x }
      deriv j h (headKeys w ka (tupKeys x)) (ruleNo w) (tupId t) (tupId x) (algMul alg (algMul alg wa wb) wr) (algMul alg wb wr) (algMul alg wa wr))

/-- The weight of a tuple of Old(A) (R376); none when it is not in it.  A slot of FULL is the tuple of ΔA with its keys when it
bears its stamp: a tombstone of an earlier round is an empty slot (R379). -/
def oldWeight (alg : Nat) (delta : List Nat) (t : Nat) : Option Wt :=
  let changed := delta.any fun x => tupState x == 1 && tupKeys x == tupKeys t && bits (slotW3 x) 32 24 == bits (slotW3 t) 32 24
  if !changed then (if tupState t = 1 then some { mag := slotWeight t } else none)
  else if algIdem alg then none
  else if slotAux t = algZero alg then none
  else some { mag := slotAux t }

/-- Contributions of one tuple of ΔB with Old(A) (R376). -/
def probeDeltaB (s : State) (j : RelJob) (w : Nat) (h a : RelDesc) (t : Nat) : Except Trap (List RelContrib) := do
  let alg := h.algebra
  let kb := tupKeys t
  let v := kb.getD (ruleJb w) 0
  let wb := slotWt alg 56 t
  let wr := ruleWeight w alg
  let q ← ownerSlots s j.src a v
  let delta ← (match q.1 with | some k => readPart s j.src a k 1 | none => .ok [])
  .ok (q.2.filterMap fun x =>
    if (tupState x == 1 || tupState x == 2) && (tupKeys x).getD (ruleJa w) 0 == v then
      (oldWeight alg delta x).map fun wa =>
        deriv j h (headKeys w (tupKeys x) kb) (ruleNo w) (tupId x) (tupId t) (algMul alg (algMul alg wa wb) wr) (algMul alg wb wr) (algMul alg wa wr)
    else none)

/-- The probes of a join: the tuples of ΔA, then, but for RANTI, those of ΔB, of the issuing grove's shards. -/
def joinProbes (s : State) (j : RelJob) (a b : RelDesc) (anti : Bool) : Except Trap (List (Bool × Nat)) := do
  let da ← (match groveShard s j.src a with | some k => readPart s j.src a k 1 | none => .ok [])
  let db ← (if anti then .ok [] else match groveShard s j.src b with | some k => readPart s j.src b k 1 | none => .ok [])
  let live := fun (l : List Nat) (side : Bool) => (l.filter fun t => tupState t == 1).map fun t => (side, t)
  .ok (live da false ++ live db true)

/-- Fields of a trace record (R387). -/
def traceKey (r : Nat) : List Nat := [bits r 24 16, bits r 64 32, bits r 128 32, bits r 160 32]
def insertTrace (x : Nat) : List Nat → List Nat
  | [] => [x]
  | y :: ys => if keyLe (traceKey x) (traceKey y) then x :: y :: ys else y :: insertTrace x ys

/-- The trace records of one round of the issuing grove's shard, in ascending (rule, head, ida, idb) (R388). -/
def roundTraces (s : State) (x : Src) (h : RelDesc) (r : Nat) : Except Trap (List Nat) :=
  match groveShard s x h with
  | none => .ok []
  | some k => do
    let hd ← readHeader s x h k
    let v ← jobBytes s x (d_trace h k) (32 * hd.tused)
    .ok ((((List.range hd.tused).map fun i => bits v (256 * i) 256).filter fun t => bits t 40 24 == r).foldr insertTrace [])
where
  /-- First byte of the TRACE part. -/
  d_trace (h : RelDesc) (k : Nat) : Nat := partVa h k 3

/-- A contribution with its side (R388). -/
def onSide (c : RelContrib) (side : Nat) : RelContrib := { c with side := side }

/-- The contributions of one trace record (R388). -/
def gradOne (s : State) (j : RelJob) (h g : RelDesc) (t : Nat) : Except Trap (List RelContrib) := do
  let alg := h.algebra
  let head := bits t 64 32
  if bits t 24 16 = 0 ∨ (alg ≠ 4 ∧ !bit t 0) then .ok []
  else do
    let q ← ownerSlots s j.src g head
    let w := match findTup g q.2 [head, 0, 0, 0] with
      | some i => slotWeight (q.2.getD i 0)
      | none => 0
    if bits w 0 31 = 0 then .ok []
    else
      let grad := fun (co : Nat) => if alg = 3 ∨ alg = 4 then (algMul 4 { mag := w } { mag := co }).mag else w
      let one := fun (id co side : Nat) => onSide (deriv j g [id, 0, 0, 0] (bits t 24 16) head id { mag := grad co } {} {}) side
      let ida := bits t 128 32
      let idb := bits t 160 32
      .ok (one ida (bits t 192 32) 0 :: (if idb = 0xFFFFFFFF then [] else [one idb (bits t 224 32) 1]))

/-- The relation unit runs the oldest of a grove's jobs; RQCK runs beside it (R390, R397, R401). -/
def unitHead (s : State) (k g : Nat) : Bool :=
  !(s.work.take k).any fun w => match w with
    | .rel j => j.grove == g && (match j.op with | .rqck .. => false | _ => true)
    | .sort j => j.grove == g
    | _ => false

/-- The phase of the barrier of an RQCK. -/
def rqckPhase (s : State) (bar : Nat) : Nat := barPhase (readWord s bar)

/-- An RQCK may go on: to arrive, once the events its firing committed before it are performed, as a BARARV (R218), and the barrier
has room (R265); and, once it waits there, when the barrier has released it. -/
def rqckReady (s : State) (j : RelJob) (bar : Nat) : Bool :=
  if j.arrived then (findWait s j.src.who j.id).any fun w => w.got.isSome
  else barRoom s 1 bar 1 && !eventsPending s j.src.uid j.src.pos

/-- A relation job may take its next step: its configuration is not pre-empted, and it is the unit's or an RQCK whose barrier
lets it on. -/
def relReady (s : State) (k : Nat) (round : Bool) : Bool :=
  match workAt s k with
  | some (.rel j) => jobsRun s j.src && !footWaits s j.id j.src j.foot && (match j.op with
    | .rrnd .. => round && unitHead s k j.grove
    | .rqck _ bar .. => !round && rqckReady s j bar
    | _ => !round && unitHead s k j.grove)
  | _ => false

/-- A job leaves the unit: its own pending bytes are subtracted (R380), and it waits at no barrier. -/
def relEnd (s : State) (k : Nat) (j : RelJob) : State :=
  let s := dropWait (dropWork s k) j.src.who j.id
  if relPending j.op then barBytes s j.src j.bar 3 32 else s

/-- A job stops: it is settled, and its frame stops (R258, R415). -/
def relFail (s : State) (k : Nat) (j : RelJob) (t : Trap) : State := jobTrap (relEnd s k j) t j.src none

/-- The end of a job's step (R258): a stop settles it, and a write that it has dropped stops its frame once it has completed. -/
def relDone (k : Nat) (j : RelJob) (r : Written) : State := match r.stop with
  | some t => relFail r.s k j t
  | none =>
    let s := relEnd r.s k j
    match j.drop.orElse fun _ => r.drop with
    | some a => jobTrap s (cause cECCUNC 0 a) j.src none
    | none => s

/-- The result lands in the job's register. -/
def relLand (s : State) (j : RelJob) (held : Option Nat) (v : Nat) : State := match held with
  | some h => addWork s (.fill j.src.who h (BitVec.ofNat 512 v) false)
  | none => s

/-- A block of at most 64 probes of a list: contributions are sent, and after the last block the job completes. -/
def relBlock {α : Type} (s : State) (k : Nat) (j : RelJob) (probes : Except Trap (List α)) (one : α → Except Trap (List RelContrib)) : State :=
  match probes with
  | .error t => relFail s k j t
  | .ok l => match ((l.drop j.progress).take 64).mapM one with
    | .error t => relFail s k j t
    | .ok cs =>
      let s := cs.flatten.foldl sendContrib s
      if l.length ≤ j.progress + 64 then relEnd s k j else setWork s k (.rel { j with progress := j.progress + 64 })

/-- RDEF and RCLR performed (R393): every local shard region is cleared, the machine-written fields of the descriptor too,
and RDEF takes the descriptor into use. -/
def clearRelation (s : State) (x : Src) (d : RelDesc) (use : Bool) : Written :=
  let r := (List.range d.shards).foldl (fun r k => r.put x (d.shard k) d.size 0) ({ s := s } : Written)
  (r.update x d.va 16 fun w => putBits (putBits w 63 1 0) 104 24 0).andThen fun s =>
    if use && !s.rels.contains d.pa then { s with rels := s.rels ++ [d.pa] } else s

/-- The base-fact contribution of a tuple (R377, R386, R387). -/
def baseFact (j : RelJob) (d : RelDesc) (del : Bool) (t : Nat) : RelContrib :=
  { src := j.src, desc := d, keys := tupKeys t, tid := tupId t, weight := algNorm d.algebra (slotWeight t), neg := del, rule := 0, ida := tupId t, idb := 0
    trb := 0xFFFFFFFF, coa := algOne d.algebra, cob := algZero d.algebra, bar := j.bar }

/-- A slot as RLOOK reads it: its reserved bits read 0 (R3, R369). -/
def slotRead (t : Nat) : Nat := putBits t 249 5 0

/-- RLOOK performed (R396): the tuple's slot, or 0.  A lookup at another device delivers what that device holds. -/
def lookup (s : State) (j : RelJob) (d : RelDesc) (keys : List Nat) : Except Trap Nat := do
  let q ← ownerSlots s j.src d (keys.getD d.index 0)
  .ok (match q.2.find? fun t => tupState t == 1 && tupKeys t == keys with | some t => slotRead t | none => 0)

/-- QUIESCENT of a descriptor, set or cleared (R378, R397). -/
def setQuiescent (r : Written) (x : Src) (va v : Nat) : Written :=
  if r.stop.isSome then r
  else match jobBytes r.s x va 8 with
    | .error t => { r with stop := some t }
    | .ok w => if bits w 63 1 = v then r else r.put x va 8 (putBits w 63 1 v)

/-- The first part of RQCK: the count is added, and it arrives and waits for the phase to change (R397). -/
def rqckArrive (s : State) (k : Nat) (j : RelJob) (block bar va count : Nat) (g : Bool) : State :=
  let p := rqckPhase s bar
  let r : Written :=
    if poisonedRange s bar 16 then { s := s, stop := some (cause cECCUNC 0 va) }
    else if g then { s := s }
    else ({ s := s } : Written).update j.src (block + 16 + 8 * (p % 4)) 8 fun v => (v + count) % 2 ^ 64
  match r.stop with
  | some t => relFail r.s k j t
  | none =>
    let q := barWrite { r.s with barWaits := r.s.barWaits ++ [{ pa := bar, who := j.src.who, uid := j.id, expected := p }] } 1 bar 1 j.src.insn.toNat j.src.before
    setWork q.1 k (.rel { j with arrived := true, phase := p, drop := r.drop })

/-- Every descriptor of a list is quiescent (R397). -/
def quiesce (r : Written) (x : Src) (list : Nat) : Written :=
  if r.stop.isSome then r
  else match jobBytes r.s x list 8 with
    | .error t => { r with stop := some t }
    | .ok n => (List.range (n % 256)).foldl (fun r i =>
        if r.stop.isSome then r
        else match jobBytes r.s x (list + 8 + 8 * i) 8 with
          | .error t => { r with stop := some t }
          | .ok e => setQuiescent r x (e % 2 ^ 56) 1) r

/-- The second part of RQCK, once the phase has changed: total, the clear, QUIESCENT, and the result. -/
def rqckFinish (s : State) (k : Nat) (j : RelJob) (block list count : Nat) (g : Bool) (held : Option Nat) : State :=
  let p := j.phase
  let now := ((findWait s j.src.who j.id).bind fun w => w.got).getD 0
  match (if g then .ok count else jobBytes s j.src (block + 16 + 8 * (p % 4)) 8) with
  | .error t => relFail s k j t
  | .ok total =>
    let r := ({ s := s } : Written).put j.src (block + 16 + 8 * ((p + 3) % 4)) 8 0
    let r := if total = 0 then quiesce r j.src list else r
    relDone k j (r.andThen fun s => relLand s j held (total + now * 2 ^ 64 + (if total = 0 then 2 ^ 96 else 0)))

/-- A step of the relation unit or of an RQCK. -/
def relStep (s : State) (k : Nat) (j : RelJob) : State :=
  match j.op with
  | .rclr d use => relDone k j (clearRelation s j.src d use)
  | .rins d ts del => relBlock s k j (.ok ts) fun t => .ok [baseFact j d del t.toNat]
  | .rjoin w h a b anti =>
    relBlock s k j (joinProbes s j a b anti) fun q => if q.1 then probeDeltaB s j w.toNat h a q.2 else probeDeltaA s j w.toNat h b anti q.2
  | .rgrad h g r => relBlock s k j (roundTraces s j.src h r) (gradOne s j h g)
  | .rlook d keys held => match lookup s j d keys with
    | .ok v => relLand (relEnd s k j) j held v
    | .error t =>
      if t.cause = cECCUNC then (match held with | some h => addWork (relEnd s k j) (.fill j.src.who h 0 true) | none => relEnd s k j)
      else relFail s k j t
  | .rqck block bar va list count g held => if j.arrived then rqckFinish s k j block list count g held else rqckArrive s k j block bar va count g
  | .rrnd .. => s

/-- RELATION_JOB_BLOCK (R380). The relation unit performs the next block of 64 probes of a job and sends its contributions; after
the last block the job completes and releases its 32 pending bytes. -/
def execRelationJobBlock (s : State) : Out State :=
  if !(turnArg s).elim false (fun k => relReady s k false) then notPending "no relation job is due"
  else match turnWork s with
    | some (k, .rel j) => .next (relStep s k j)
    | _ => notPending "no relation job is due"

/-! ### Contributions at the owner (R377, R378, R387) -/

/-- The order key of a contribution. -/
def RelContrib.key (c : RelContrib) : List Nat := [c.rule, c.ida, c.idb, c.side]

/-- A contribution that R375 discards: 1 non-finite, 2 equal to the algebra's zero. -/
def discard (a w : Nat) : Nat :=
  if a = 0 ∨ a = 5 then (if w = 0 then 2 else 0)
  else if w = algZero a ∨ ((a = 3 ∨ a = 4) ∧ w % 2 ^ 31 = 0) then 2
  else if (fF32.decode w).finite then 0 else 1

/-- A trace record and its index; none when TRACE is off or full (R387). -/
def traceWrite (r : Written) (d : RelDesc) (k : Nat) (h : Header) (c : RelContrib) (id win : Nat) : Written × Header × Nat :=
  if !d.trace then (r, h, 0xFFFFFFFF)
  else if 2 ^ d.lt ≤ h.tused then (r, { h with tlost := satAdd h.tlost 1 }, 0xFFFFFFFF)
  else
    let v := ofLanes 64 [h.rc * 2 ^ 40 + c.rule * 2 ^ 24 + win, c.weight * 2 ^ 32 + id, c.trb * 2 ^ 32 + c.ida, c.cob * 2 ^ 32 + c.coa]
    (r.put c.src (partVa d k 3 + 32 * h.tused) 32 v, { h with tused := h.tused + 1 }, h.tused)

/-- The order key of a winner record (R387). -/
def winnerKey (s : State) (x : Src) (d : RelDesc) (k i : Nat) : Except Trap (Option (List Nat)) :=
  if !d.trace || i == 0xFFFFFFFF then .ok none
  else do
    let r ← jobBytes s x (partVa d k 3 + 32 * i) 32
    .ok (some [bits r 24 16, bits r 128 32, if bits r 24 16 = 0 then 0 else bits r 160 32, 0])

/-- The win bit of a record is cleared (R387). -/
def unwin (r : Written) (x : Src) (d : RelDesc) (k i : Nat) : Written :=
  if !d.trace || i == 0xFFFFFFFF then r else r.update x (partVa d k 3 + 32 * i) 8 fun w => putBits w 0 1 0

/-- No free slot in NEXT (R378): the record names the relation, the device and the shard. -/
def nextFull (s : State) (d : RelDesc) (k detail : Nat) : Trap := cause cBOUNDS detail d.va (ownDev s * 2 ^ 32 + k)

/-- W3 of a slot of NEXT that holds a tuple of an idempotent algebra: live, winner index. -/
def liveW3 (stamp aux : Nat) : Nat := 2 ^ 62 + stamp % 2 ^ 24 * 2 ^ 32 + aux % 2 ^ 32

/-- An accepted contribution clears QUIESCENT (R378). -/
def accepted (r : Written) (x : Src) (d : RelDesc) (k : Nat) (h : Header) : Written := setQuiescent (putHeader r x d k h) x d.va 0

/-- The contribution to an idempotent relation (R378).  An equal weight is a tie, decided by the order key, only for a contribution
that itself reaches the weight (R387; log entry 17). -/
def applyIdem (s : State) (d : RelDesc) (k : Nat) (h : Header) (c : RelContrib) : Except Trap Written := do
  let x := c.src
  let full ← readPart s x d k 0
  let next ← readPart s x d k 2
  let r : Written := { s := s }
  let F := (findTup d full c.keys).map fun i => full.getD i 0
  let N := findTup d next c.keys
  let w := c.weight
  let put := fun (r : Written) (i id w aux : Nat) => r.put x (partVa d k 2 + 32 * i) 32 (mkSlot c.keys id w (liveW3 0 aux))
  match N, F with
  | none, none => match freeSlot d next c.keys [] with
    | none => .error (nextFull s d k 1)
    | some i =>
      let (r, h, aux) := traceWrite r d k h c c.tid 1
      .ok (accepted (put r i c.tid w aux) x d k { h with nnext := h.nnext + 1 })
  | none, some F =>
    let w' := algAdd d.algebra (slotWeight F) w
    if w' = slotWeight F then .ok (putHeader r x d k { h with dups := h.dups + 1 })
    else match freeSlot d next c.keys [] with
      | none => .error (nextFull s d k 1)
      | some i =>
        let (r, h, aux) := traceWrite (unwin r x d k (slotAux F)) d k h c (tupId F) 1
        .ok (accepted (put r i (tupId F) w' aux) x d k { h with nnext := h.nnext + 1 })
  | some i, F => do
    let n := next.getD i 0
    let id := if F.isSome then tupId n else min (tupId n) c.tid
    let w' := algAdd d.algebra (slotWeight n) w
    let wk ← winnerKey s x d k (slotAux n)
    let below := w == slotWeight n && match wk with | some key => !keyLe key c.key | none => false
    if (w' != slotWeight n || below) = true then
      let (r, h, aux) := traceWrite (unwin r x d k (slotAux n)) d k h c id 1
      .ok (accepted (put r i id w' aux) x d k h)
    else
      .ok (putHeader (if id = tupId n then r else put r i id (slotWeight n) (slotAux n)) x d k { h with dups := h.dups + 1 })

/-- The contribution to a SUMPROD or COUNT relation takes a slot of its own (R369, R378). -/
def applySum (s : State) (d : RelDesc) (k : Nat) (h : Header) (c : RelContrib) : Except Trap Written := do
  let x := c.src
  let full ← readPart s x d k 0
  let next ← readPart s x d k 2
  match freeSlot d next c.keys [] with
  | none => .error (nextFull s d k 1)
  | some i =>
    let facts := (next.filter fun t => tupState t == 1 && bits (slotW3 t) 46 16 == 0 && tupKeys t == c.keys).map tupId
    let id := match findTup d full c.keys with
      | some i => tupId (full.getD i 0)
      | none => facts.foldl min c.tid
    let w3 := 2 ^ 62 + c.rule % 65536 * 2 ^ 46 + (if c.neg then 2 ^ 33 else 0) + c.side % 2 * 2 ^ 32 + c.idb % 2 ^ 32
    let (r, h, _) := traceWrite (({ s := s } : Written).put x (partVa d k 2 + 32 * i) 32 (mkSlot c.keys c.ida c.weight w3)) d k h c id 0
    .ok (accepted r x d k { h with nnext := h.nnext + 1 })

/-- A contribution at its owner's shard (R378). -/
def applyContrib (s : State) (k : Nat) (c : RelContrib) : Except Trap Written := do
  let d := c.desc
  let h ← readHeader s c.src d k
  let why := discard d.algebra c.weight
  let h := if c.clamped then { h with sat := satAdd h.sat 1 } else h
  let r : Written := { s := s }
  if why = 1 then
    .ok ((putHeader r c.src d k { h with nonfin := satAdd h.nonfin 1 }).andThen fun s => if d.handle = 0 then s else countHandle s d.handle 1)
  else if why = 2 then .ok (if c.clamped then putHeader r c.src d k h else r)
  else if algIdem d.algebra then applyIdem s d k h c
  else applySum s d k h c

/-- What a contribution reads and writes at its shard, as it meets other accesses (R389). -/
def contribRanges (s : State) (d : RelDesc) (k : Nat) (x : Src) : List Range :=
  let at_ := fun (off n : Nat) (wr : Bool) => (mappedRange s x.asn x.secure (d.shard k + off) n).map fun p => (⟨p.1 * 8, p.2 * 8, wr, d.shard k + off⟩ : Range)
  at_ 0 256 true ++ at_ 256 d.part false ++ at_ (256 + 2 * d.part) d.part true ++ (if d.trace then at_ (256 + 3 * d.part) (32 * 2 ^ d.lt) true else [])

/-- The check of a contribution at its shard (R389): it meets the firing's own accesses as any other's (R208), and never a gradient
walk. -/
def contribRace (s : State) (c : RelContrib) (k : Nat) : Option Trap :=
  let walk := fun (w : Work) => match w with | .rel j => (match j.op with | .rgrad .. => true | _ => false) | _ => false
  raceOf { s with work := s.work.filter fun w => !walk w } ⟨0, { c.src with kind := 1 }, .store, contribRanges s c.desc k c.src, 3, 0, 0⟩

/-- A contribution arrives (R378, R380, R389); one for another device leaves this one, and its bytes are subtracted when that
device acknowledges it, or when no port leads there (R442). -/
def arriveContrib (s : State) (c : RelContrib) : State :=
  let done := fun (s : State) => barBytes s c.src c.bar 3 32
  let v := c.keys.getD c.desc.index 0
  match ownerShard s c.desc v with
  | none => if indexDown s c.src c.desc v then jobTrap (done s) (cause cLINK 0 c.desc.va) c.src none else done s
  | some k =>
    match contribRace s c k with
    | some t => jobTrap (done s) t c.src none
    | none => match applyContrib s k c with
      | .error t => jobTrap (done s) t c.src none
      | .ok r => match r.stop.orElse fun _ => r.drop.map fun a => cause cECCUNC 0 a with
        | some t => jobTrap (done r.s) t c.src none
        | none => done r.s

/-- RELATION_CONTRIBUTION (R378). A relation contribution arrives at its owner shard. -/
def execRelationContribution (s : State) : Out State :=
  match turnWork s with
  | some (k, .relContrib c) => .next (arriveContrib (dropWork s k) c)
  | _ => notPending "no contribution is on its way"

/-! ### The close of a round (R379) -/

/-- A shard's contents while its round closes. -/
structure Round where
  full : List Nat
  delta : List Nat
  kept : List Nat := []
  n : Nat := 0
  dups : Nat := 0
  sat : Nat := 0

/-- The slots of NEXT in ascending order key, then weight (R377). -/
def nextKey (t : Nat) : List Nat := [bits (slotW3 t) 46 16, tupId t, bits (slotW3 t) 0 32, bits (slotW3 t) 32 1, slotWeight t]
def insertNext (x : Nat) : List Nat → List Nat
  | [] => [x]
  | y :: ys => if keyLe (nextKey x) (nextKey y) then x :: y :: ys else y :: insertNext x ys

/-- The new weight of a tuple, what enters DELTA, its id and aux, and clamps: from its slots of NEXT and its live slot. -/
structure Change where
  w : Nat
  d : Wt
  id : Nat
  aux : Nat
  sat : Nat := 0

def changeOf (d : RelDesc) (keys : List Nat) (cs : List Nat) (F : Option Nat) : Change :=
  let alg := d.algebra
  let fid := F.map tupId
  if algIdem alg then
    let t := cs.headD 0
    { w := slotWeight t, d := { mag := slotWeight t }, id := fid.getD (tupId t), aux := slotAux t }
  else
    let cs := cs.foldr insertNext []
    let t := cs.headD 0
    let id := fid.getD (if bits (slotW3 t) 46 16 = 0 then tupId t else derivedId d.relnum keys)
    let old := (F.map slotWeight).getD (algZero alg)
    if alg = 5 then
      let sum := cs.foldl (fun (z : Int) t => z + (if bit (slotW3 t) 33 then -(slotWeight t : Int) else slotWeight t)) 0
      let exact : Int := (old : Int) + sum
      let w := if exact < 0 then 0 else min exact.toNat 0xFFFFFFFF
      let inc : Int := (w : Int) - old
      { w := w, d := { neg := inc < 0, mag := inc.natAbs }, id := id, aux := old, sat := if exact = (w : Int) then 0 else 1 }
    else
      let sum := cs.foldl (fun z t => algAdd alg z (slotWeight t)) (algZero alg)
      { w := if F.isSome then algAdd alg old sum else sum, d := { mag := sum }, id := id, aux := old }

/-- One tuple of NEXT enters FULL and DELTA; none when FULL has no slot for it. -/
def closeTuple (d : RelDesc) (rc : Nat) (next : List Nat) (r : Round) (keys : List Nat) : Option Round :=
  let cs := next.filter fun t => tupState t == 1 && tupKeys t == keys
  let fi := findTup d r.full keys
  let F := fi.map fun i => r.full.getD i 0
  let q := changeOf d keys cs F
  let r := { r with sat := r.sat + q.sat }
  if F.isSome ∧ F.map slotWeight = some q.w then some { r with dups := r.dups + 1 }
  else match (match fi with | some i => some i | none => freeSlot d r.full keys r.kept), freeSlot d r.delta keys [] with
    | some i, some e =>
      let dead := d.algebra == 5 && q.w == 0
      let w3 := liveW3 rc q.aux
      some { r with
        full := r.full.set i (mkSlot keys q.id q.w (if dead then w3 + 2 ^ 62 else w3))
        delta := r.delta.set e (mkSlot keys q.id q.d.mag (if q.d.neg then w3 + 2 ^ 56 else w3))
        kept := if dead then i :: r.kept else r.kept
        n := r.n + 1 }
    | _, _ => none

/-- The keys of NEXT, each once. -/
def nextKeys (next : List Nat) : List (List Nat) := ((next.filter fun t => tupState t == 1).map tupKeys).eraseDups

/-- The slots of a part as bytes. -/
def partValue (l : List Nat) : Nat := ofLanes 256 l

/-- What RRND returns (R396). -/
def roundResult (n dups rc : Nat) : Nat := ofLanes 32 [n, dups, rc]

/-- The descriptor's round is at least `rc` (R379). -/
def noteRound (r : Written) (x : Src) (d : RelDesc) (rc : Nat) : Written :=
  if r.stop.isSome then r
  else match jobBytes r.s x (d.va + 8) 8 with
    | .error t => { r with stop := some t }
    | .ok w => if bits w 40 24 < rc then r.put x (d.va + 8) 8 (putBits w 40 24 rc) else r

/-- RRND at its head (R379): the new state and its result, and the stop of a FULL without room, which changes nothing. -/
def closeRound (s : State) (x : Src) (d : RelDesc) (k : Nat) : Except Trap (Written × Nat × Option Trap) := do
  let h ← readHeader s x d k
  let full ← readPart s x d k 0
  let next ← readPart s x d k 2
  match (nextKeys next).foldlM (closeTuple d h.rc next) { full := full, delta := List.replicate d.slots 0 } with
  | none => .ok ({ s := s }, roundResult 0 0 h.rc, some (nextFull s d k 2))
  | some r =>
    let rc := h.rc + 1
    let w := ((({ s := s } : Written).put x (partVa d k 0) d.part (partValue r.full)).put x (partVa d k 1) d.part (partValue r.delta)).put x
      (partVa d k 2) d.part 0
    let live := (r.full.filter fun t => tupState t == 1).length
    let w := putHeader w x d k { h with rc := rc, nfull := live, nnext := 0, ndelta := r.n, dups := 0, sat := satAdd h.sat r.sat }
    .ok (noteRound w x d rc, roundResult r.n (h.dups + r.dups) rc, none)

/-- RRND_ROUND_CLOSE (R379). RRND reaches its head in the relation unit and closes the round. -/
def execRrndRoundClose (s : State) : Out State :=
  if !(turnArg s).elim false (fun k => relReady s k true) then notPending "no RRND is at its head"
  else match turnWork s with
    | some (k, .rel j) => match j.op with
      | .rrnd d held => match groveShard s j.src d with
        | none => .next (relFail s k j (nextFull s d 0 0))
        | some sh => match closeRound s j.src d sh with
          | .error t => .next (relFail s k j t)
          | .ok (r, v, stop) =>
            let t := relDone k j (r.andThen fun s => relLand s j held v)
            .next (match stop with | some x => jobTrap t x j.src none | none => t)
      | _ => notPending "no RRND is at its head"
    | _ => notPending "no RRND is at its head"

end Sys2Proof.Machine
end

