-- ==== Sys2Proof/Machine/Srt.lean ====
section
/-! DEFINITION. Sorting, selection and merging of rows in memory (R399 to R401). -/

namespace Sys2Proof.Machine

/-! ### The instructions (R399, R400) -/

/-- The key type of a record format (R399); none for a format SRT does not take. -/
def sortKey (fmt : Nat) : Option RedTy := match fmt with
  | 8 => some (.flt fF32)
  | 9 => some (.flt fBF16)
  | 10 => some (.flt fF16)
  | 4 => some (.int 32)
  | 2 => some (.int 16)
  | 0 => some (.int 8)
  | _ => none

/-- The payload formats I32, U32 and F32. -/
def payFmt (fmt : Nat) : Bool := fmt == 4 || fmt == 5 || fmt == 8

/-- The control register of a sort as words Q0 to Q7. -/
def sortQ (v k : Nat) : Nat := bits v (64 * k) 64

/-- The first control word whose value lies outside its range (R400), by operation 0 RSORT, 1 RTOPK, 2 RMRG. -/
def sortRange (op v : Nat) : Option Nat :=
  let n := bits (sortQ v 2) 0 32
  let n2 := bits (sortQ v 2) 32 32
  let k := bits (sortQ v 3) 32 5
  let badN := n == 0 || (if op = 2 then n2 == 0 else decide (4096 < n) || n2 != 0)
  let badK := if op = 1 then k == 0 || decide (16 < k) else k != 0
  let bad3 := badK || bits (sortQ v 3) 0 32 == 0 || bits (sortQ v 3) 37 3 != 0 || bits (sortQ v 3) 48 16 != 0
  if badN then some (sortQ v 2)
  else if bad3 then some (sortQ v 3)
  else [4, 5, 6, 7].findSome? fun k => if sortQ v k = 0 then none else some (sortQ v k)

/-- The job of a control register. -/
def sortJobOf (op v : Nat) (krec : BitVec 256) (prec : Option (BitVec 256)) (src : Src) (grove : Nat) : SortJob :=
  let q3 := sortQ v 3
  { src := src, grove := grove, op := op, krec := krec, prec := prec, e := sortQ v 0, o := sortQ v 1, n := bits (sortQ v 2) 0 32
    n2 := bits (sortQ v 2) 32 32, rows := bits q3 0 32, k := bits q3 32 5, order := bit q3 40, tag := if bit q3 47 then some (bits q3 41 6) else none }

/-- Elements of an input row and of an output row (R400). -/
def SortJob.rowIn (j : SortJob) : Nat := if j.op = 2 then j.n + j.n2 else j.n
def SortJob.rowOut (j : SortJob) : Nat := if j.op = 1 then j.k else j.rowIn

/-- The output range meets the input range; RSORT sorts in place where o = e (R400). -/
def SortJob.meets (j : SortJob) : Bool :=
  !(j.op == 0 && j.o == j.e) && decide (j.e < j.o + j.rows * j.rowOut) && decide (j.o < j.e + j.rows * j.rowIn)

/-- The offsets of a job lie within a record that does not allow others (R200, R400). -/
def sortOffsets (j : SortJob) (r : Rec) : R Unit := do
  offsetCheck r j.e (j.rows * j.rowIn)
  offsetCheck r j.o (j.rows * j.rowOut)

/-- The region of a record as read and written (R401). -/
def sortFoot (s : State) (src : Src) (w : BitVec 256) : R (List Range) := do
  let a ← liftTrap (recFoot s src .read (recOf w))
  let b ← liftTrap (recFoot s src .copyDst (recOf w))
  .ok (a ++ b)

/-- RSORT, RTOPK and RMRG: the checks, then the command's entry. -/
def sortBody (op : Nat) (d a b : Spec) (nopay : BitVec 1) (c : Nat) (f : Firing) (s : State) : R State := do
  let x := getCell s c
  let kr ← useRecord x f.ctx d.toNat false
  let pr ← (if nopay = 1 then (.ok none : R (Option Rec)) else (useRecord x f.ctx b.toNat false).map some)
  let v ← readSpec s c f a
  if (sortKey kr.fmt).isNone || (op == 1 && kr.fmt != 8) || (match pr with | some p => !payFmt p.fmt | none => false) then illop
  else match sortRange op v with
    | some q => boundsR q
    | none => do
      let src := firingSrc s c f
      let krec := x.record f.ctx d.toNat
      let prec := if nopay = 1 then none else some (x.record f.ctx b.toNat)
      let j := sortJobOf op v krec prec src (groveOf c)
      if j.meets then illop
      else do
        sortOffsets j kr
        match pr with
        | some p => sortOffsets j p
        | none => .ok ()
        let f1 ← sortFoot s src krec
        let f2 ← (match prec with | some p => sortFoot s src p | none => .ok [])
        let used := match j.tag with | some t => (getTag s src t).count + ownOnTag f t + 1 | none => 0
        if 65535 < used then boundsR used
        else do
          let j := { j with foot := f1 ++ f2 }
          let f ← addEntry f (.cmd (.sort j) none)
          .ok (sendJobCheck (putFiring s c f) src j.foot 3)

/-- RSORT (R401). Sorts rows of a record. -/
def execRsort (d a b : Spec) (n : BitVec 1) (s : State) : Out State := onCells (.rsort d a b n) s <| withRegs (.rsort d a b n) (sortBody 0 d a b n)

/-- RTOPK (R401). Keeps the first k entries of each row. -/
def execRtopk (d a b : Spec) (n : BitVec 1) (s : State) : Out State := onCells (.rtopk d a b n) s <| withRegs (.rtopk d a b n) (sortBody 1 d a b n)

/-- RMRG (R401). Merges two runs stably. -/
def execRmrg (d a b : Spec) (n : BitVec 1) (s : State) : Out State := onCells (.rmrg d a b n) s <| withRegs (.rmrg d a b n) (sortBody 2 d a b n)

/-! ### The job (R401) -/

/-- The merge of R341 in the chosen direction: the first run ties first. -/
def mergeRuns (after : Nat → Nat → Bool) : Nat → List Elem → List Elem → List Elem
  | 0, _, _ => []
  | _ + 1, [], ys => ys
  | _ + 1, xs, [] => xs
  | n + 1, x :: xs, y :: ys =>
    if after x.lane y.lane then y :: mergeRuns after n (x :: xs) ys else x :: mergeRuns after n xs (y :: ys)

/-- The order of the job descends: bit order for RSORT and RMRG, its opposite for RTOPK (R400). -/
def SortJob.descends (j : SortJob) : Bool := if j.op = 1 then !j.order else j.order

/-- A row as the job writes it (R401); a row of fewer than k entries has no further ones. -/
def SortJob.arrange (j : SortJob) (t : RedTy) (l : List Elem) : List Elem :=
  if j.op = 2 then mergeRuns (fun a b => if j.descends then keyLt t a b else keyLt t b a) (l.length + 1) (l.take j.n) (l.drop j.n)
  else
    let r := sortElems t j.descends l
    if j.op = 1 then r.take j.k else r

/-- Events per entry: its key, and its payload. -/
def SortJob.per (j : SortJob) : Nat := if j.prec.isSome then 2 else 1

/-- The record of an event of a row: keys and payloads alternate. -/
def SortJob.recAt (j : SortJob) (i : Nat) : Rec := recOf (if i % j.per = 1 then j.prec.getD j.krec else j.krec)

/-- The type of the keys. -/
def SortJob.keyTy (j : SortJob) : RedTy := (sortKey (recOf j.krec).fmt).getD (.int 8)

/-- The entries of a row from its elements as read. -/
def SortJob.entries (j : SortJob) : List Elem :=
  (List.range j.rowIn).map fun i => ⟨j.read.getD (i * j.per) 0, if j.per = 2 then j.read.getD (i * 2 + 1) 0 else 0⟩

/-- The elements of the row's output, in the order in which they are written. -/
def SortJob.output (j : SortJob) : List Nat :=
  (j.arrange j.keyTy j.entries).flatMap fun x => if j.per = 2 then [writtenLane j.keyTy x.lane, x.pay] else [writtenLane j.keyTy x.lane]

/-- Elements of an output row of keys and payloads. -/
def SortJob.outLen (j : SortJob) : Nat := min j.rowOut j.rowIn * j.per

/-- The row has elements to read. -/
def SortJob.reads (j : SortJob) : Bool := decide (j.read.length < j.rowIn * j.per)

/-- The job reads the next element of its row, 0 outside the record (R207); with the last it has the row's output. -/
def sortGet (s : State) (j : SortJob) : Except Trap SortJob := do
  let i := j.read.length
  let v ← (jobRead s none j.src (j.recAt i) (j.e + j.row * j.rowIn + i / j.per)).map fun v => v.1.getD 0
  let j := { j with read := j.read ++ [v] }
  .ok (if j.reads then j else { j with out := j.output })

/-- The job writes the next element of its row (R207); the first write that is dropped is kept for its end (R441). -/
def sortPut (s : State) (j : SortJob) : Except Trap (State × SortJob) := match j.out with
  | [] => .ok (s, j)
  | v :: l => do
    let i := j.outLen - j.out.length
    let q ← jobWrite s none j.src (j.recAt i) (j.o + j.row * j.rowOut + i / j.per) v
    .ok (q.1, { j with out := l, drop := j.drop.orElse fun _ => q.2 })

/-- The job leaves the unit and settles its tag (R257, R400). -/
def sortEnd (s : State) (k : Nat) (j : SortJob) : State :=
  let s := dropWork s k
  match j.tag with
  | some t => tagEnd s j.src t
  | none => s

/-- A sorting job may go on: the unit is its, its configuration runs or it is within a row, and no earlier footprint comes first (R216,
R390). -/
def sortReady (s : State) (k : Nat) : Bool :=
  match workAt s k with
  | some (.sort j) => (jobsRun s j.src || j.read != []) && !footWaits s j.id j.src j.foot && unitHead s k j.grove
  | _ => false

/-- The row is written: the next one, or the end, with the stop of a dropped write (R441). -/
def sortNext (s : State) (k : Nat) (j : SortJob) : State :=
  if j.out ≠ [] then setWork s k (.sort j)
  else if j.row + 1 < j.rows then setWork s k (.sort { j with row := j.row + 1, read := [] })
  else
    let s := sortEnd s k j
    match j.drop with
    | some va => jobTrap s { cause := cECCUNC, addr := va } j.src j.tag
    | none => s

/-- An element of a sorting job read or written; a fault stops its frame (R258, R415). -/
def sortStep (s : State) (k : Nat) (j : SortJob) : State :=
  if j.reads then match sortGet s j with
    | .error t => jobTrap (sortEnd s k j) t j.src j.tag
    | .ok j => setWork s k (.sort j)
  else match sortPut s j with
    | .error t => jobTrap (sortEnd s k j) t j.src j.tag
    | .ok q => sortNext q.1 k q.2

/-- SORT_JOB_BLOCK (R401). The relation unit sorts, selects or merges the rows of a job, of which each step reads or writes one element
(R207), and completes the job after the last. -/
def execSortJobBlock (s : State) : Out State :=
  if !(turnArg s).elim false (sortReady s) then notPending "no sorting job is due"
  else match turnWork s with
    | some (k, .sort j) => .next (sortStep s k j)
    | _ => notPending "no sorting job is due"

end Sys2Proof.Machine
end

