-- ==== Sys2Proof/Machine/Agenda.lean ====
section
/-! DEFINITION. Which agent moves next, and what it meets (R114, R212): the steps that may come next, the passing of time
(R25, R26), and the words of a unit placed for its next fetch. -/

namespace Sys2Proof.Machine

/-- What the step of the agent with the turn is: an instruction or event to execute, or a step that the machine makes
before the unit reaches one. -/
inductive Due where
  | run (i : Instr)
  | go (s : State)

/-- A fetch of a controller or core as a step. -/
def ctlDue (s : State) (u : Nat) : Due :=
  if (getCtl s u).mode = .running then
    match fetchCtl s u with
    | .run i => .run i
    | .trap t => .go (takeCtlTrap s u (getCtl s u).pc t)
    | .redo t => .go t
    | .stall => .go s
  else .go s

/-- A fetch of a firing as a step. -/
def cellDue (s : State) (c : Nat) : Due :=
  match (getCell s c).firing with
  | none => .go s
  | some f =>
    if f.phase = .running then
      match fetchCell s c f with
      | .run i => .run i
      | .trap t => .go (firingFault s c f t)
      | .redo t => .go t
      | .stall => .go s
    else .go s

/-- What the agent with the turn does. -/
def due (s : State) : Due := match s.turn with
  | .ctl u => ctlDue s u
  | .cell c => cellDue s c
  | .event i _ => .run i
  | .idle => .go s

/-! ### The steps that may come next -/

/-- An event where its guard holds. -/
def when (p : Bool) (i : Instr) (k : Nat) : List Turn := if p then [.event i k] else []

/-- What an item of the pending work may do next. -/
def workTurns (s : State) (k : Nat) (w : Work) : List Turn := match w with
  | .token c t => when (routeFree s k t.route && tokenRoom s c t) (if isBound (getCell s c) t then .counterBound else .tokenArrival) k
  | .predicate c t => when (routeFree s k t.route && tokenRoom s c t) .predicateArrival k
  | .fill .. => when true .fillLand k
  | .check _ => when true .ownerCheck k
  | .store a => when (inTurn s k a) .storePerform k
  | .atomic a => when (inTurn s k a) .atomicApply k
  | .done .. | .closeDone .. => when (doneReady s k) .doneToken k
  | .contrib .. => when (contribReady s k) .seqContribution k
  | .close .. => when (closeReady s k) .seqClose k
  | .copy _ => when (startPort s k).isSome .copyJobStart k ++ when (copyRuns s k) .copyElement k ++ when (copyEnds s k) .copyJobComplete k
  | .bar .. => when (barReady s k) .barrierUpdate k
  | .demand _ => when (demandTaken s k) .conversionDemand k
  | .conv _ => when (convStarts s k) .conversionStart k ++ when (convEnds s k) .conversionComplete k
  | .waiting _ => when (convEnds s k) .conversionComplete k
  | .packet _ => when (packetTaken s k) .conversionPacket k ++ when (packetAborts s k) .conversionAbort k
  | .coll _ => when (convStarts s k) .conversionStart k ++ when (collEnds s k) .collectiveComplete k
  | .rel _ => when (relReady s k false) .relationJobBlock k ++ when (relReady s k true) .rrndRoundClose k
  | .relContrib _ => when true .relationContribution k
  | .sort _ => when (sortReady s k) .sortJobBlock k
  | .smc u _ code operand asn => when (smcDrained s u code operand asn) .smcReply k
  | .walk .. => when true .pageWalk k

/-- What a controller or core may do next: a record of its queue that it takes at its boundary, else its instruction; the end of its
WFE. -/
def ctlTurns (s : State) (u : Nat) (x : Ctl) : List Turn :=
  (if takesRecord s u x then when true (if isCore u then .supervisorTrapTake else .trapTake) u
   else if x.mode = .running then [.ctl u] else []) ++ when (timeoutDue s u) .wfeTimeout u

/-- The event of a firing that may start, by the kind of its context (R87). -/
def firingTurn (x : Cell) (c : Nat) (q : Nat × Nat × Nat) : List Turn := match x.kind q.1 with
  | 1 => when true (.firing c q.1 q.2.1 q.2.2) 0
  | 2 => when true (.steerFiring c q.1 q.2.1 q.2.2) 0
  | 3 => when true (.mergeFiring c q.1 q.2.1 q.2.2) 0
  | 4 => when true (.counterFiring c q.1 q.2.1 q.2.2) 0
  | 5 => when true (.memoryNodeFiring c q.1 q.2.1 q.2.2) 0
  | 6 => when true (.reductionNodeFiring c q.1 q.2.1 q.2.2) 0
  | _ => []

/-- What a cell may do next: the next word of its firing, the commit of one that has ended, a firing, its retirement. -/
def cellTurns (s : State) (c : Nat) (x : Cell) : List Turn :=
  (match x.firing with
    | some f => (if f.phase = .running then [.cell c] else []) ++ when (mayCommit s c f) .outputCommit c
    | none => (firingChoices s c).flatMap (firingTurn x c)) ++
  when (retiring s c).isSome .cellRetire c

/-- A cell at which nothing can come next: nothing waits or runs there, and no splice is under way. -/
def quietCell (s : State) (x : Cell) : Bool :=
  x.firing.isNone && x.tokens.isEmpty && x.sources.isEmpty && !s.cfgs.any fun c => c.succ.isSome

/-- What the parts of the device that stand alone may do next. -/
def deviceTurns (s : State) : List Turn :=
  (s.groves.flatMap fun e => when (mtxReady s e.1).isSome .mtxCommandAtHead e.1) ++
  when s.round .arbitrationRound 0 ++
  (s.cfgs.flatMap fun c =>
    when ((findCfg s c.id).any (mayComplete s)) .configCompletion c.id ++ when ((findCfg s c.id).any (mayHold s)) .heldState c.id) ++
  ((List.range 4).flatMap fun b => match ckptHead s b with
    | some c => if c.pending = [] then when true .ckptComplete b else when (ckptNext s b).isSome .ckptGranuleCopy b
    | none => []) ++
  (s.links.flatMap fun e => when (retrainDue s e.1) (.linkRetrain e.1) 0) ++
  when (pw1Due s) .pw1Entry 0 ++ (if s.telbase = 0 then [] else (List.range 4).map fun b => .event .telemetryWrite b)

/-! ### What comes from outside -/

/-- The event reaches the device from outside, or on its own in the background (R453 to R462). -/
def external (i : Instr) : Bool := match i with
  | .launchDoorbell _ | .launchstRead | .hostMemWrite .. | .hostMemRead .. | .flitData .. | .flitAck .. | .flitTimesync ..
  | .flitManagement .. | .linkDown _ | .linkUp _ | .coldReset | .warmReset | .spdmAttestation _ | .mgmtStandbyRequest
  | .mgmtFirmwareImage _ | .powerRemoval | .clockChange .. | .thermalStop _ | .scrubPass _ | .serdesRecalibration _ | .hbmRowRemap .. => true
  | _ => false

/-- The event may happen in this state; one that may not never reached the device. -/
def inputDue (s : State) (i : Instr) : Bool :=
  if s.power = .pw3 ∨ s.power = .hot then i == .coldReset
  else match i with
    | .flitData p f => flitDue s p 0 f
    | .flitAck p f => flitDue s p 1 f
    | .flitTimesync p f => flitDue s p 2 f
    | .flitManagement p f => flitDue s p 3 f
    | .linkDown p => decide (p < 32) && (getLink s p).retraining
    | .linkUp p => upDue s p
    | .clockChange mhz temp => clockDue s mhz temp
    | .thermalStop t => decide (944 ≤ t)
    | _ => external i

/-- The first input from outside comes in (log entry 2). -/
def inputTurns (s : State) : List Turn := match s.inputs with
  | .launchstRead :: _ => when (s.doorbells = []) .launchstRead 0
  | i :: _ => when (inputDue s i) i 0
  | [] => []

/-- The steps that may come next; in standby only what wakes the module (R460, R461). -/
def agenda (s : State) : List Turn :=
  inputTurns s ++
  if s.power = .pw2 then when (wakeDue s) .pw2Exit 0
  else if s.power = .pw3 ∨ s.power = .hot then []
  else (s.ctls.flatMap fun e => ctlTurns s e.1 (getCtl s e.1)) ++
    (s.cells.flatMap fun e => if quietCell s e.2 then [] else cellTurns s e.1 (getCell s e.1)) ++
    (s.work.zipIdx.flatMap fun e => workTurns s e.2 e.1) ++ deviceTurns s

/-- One of the agenda, by the free choice of the tick (log entry 2). -/
def pick (s : State) (l : List Turn) : Turn := if l = [] then .idle else l.getD (Config.choice s.tick % l.length) .idle

/-! ### Time -/

/-- An uncorrectable error strikes a granule of this device (R440, log entry 15). -/
def struck (s : State) : List Nat := match (Config.upset s.tick).bind granuleOf with
  | some (g, _) => if s.poison.contains g then s.poison else g :: s.poison
  | none => s.poison

/-- The power state and the start of idleness (R461): what keeps the module busy takes it from PW1 to PW0. -/
def idleness (s : State) : State :=
  if s.power = .pw0 ∨ s.power = .pw1 then
    if moduleBusy s then { s with power := .pw0, idleSince := none }
    else { s with idleSince := some (s.idleSince.getD s.timens.toNat) }
  else s

/-- The counters advance (R25, R26, R462): the cycles of a step are those of its nanoseconds at the clock of the module; in PW2 and
without power the clock stands still (R460). -/
def clockTicks (s : State) : State :=
  let ns := Config.stepNanos s.tick
  let part := s.cyclePart + (if s.power = .pw0 ∨ s.power = .pw1 then ns * s.clock else 0)
  { s with tick := s.tick + 1, timens := s.timens + BitVec.ofNat 64 ns, cycles := s.cycles + BitVec.ofNat 64 (part / 1000), cyclePart := part % 1000 }

/-- A time-synchronisation flit leaves now and then (R457), as the fabric's bring-up has numbered the device (R19). -/
def syncs (s : State) : State := match Config.timeSend s.tick with
  | some p => if p < 32 ∧ (getLink s p).up ∧ s.devnum.isSome then modLink s p fun l => timeFlit p l s.timens.toNat 0 else s
  | none => s

/-- What came from outside during a step comes after what came before; what cannot happen at the head of the list never reached the
device (log entry 2). -/
def arrived (s : State) (i : Option Instr) : State :=
  let s := { s with inputs := s.inputs ++ i.toList.filter external }
  { s with inputs := s.inputs.dropWhile fun i => !inputDue s i }

/-- Time passes, and with it errors strike and inputs come (log entries 2, 3, 15). -/
def timePasses (s : State) : State :=
  let t := clockTicks (syncs { s with
    poison := struck s
    corrected := s.corrected + (Config.corrections s.tick).1, correctedHbm := s.correctedHbm + (Config.corrections s.tick).2 })
  arrived t (Config.arrival s.tick)

/-- The agent `t` has the turn; an input that has it has come in. -/
def giveTurn (s : State) (t : Turn) : State := match t with
  | .event i _ => { s with turn := t, inputs := if external i then s.inputs.drop 1 else s.inputs }
  | _ => { s with turn := t }

/-- Time passes, and the next agent is chosen. -/
def afterStep (s : State) : State :=
  let t := idleness (timePasses s)
  giveTurn t (pick t (agenda t))

/-- No step is possible but a cold reset (R461). -/
def unpowered (s : State) : Bool :=
  (s.power = .pw3 || s.power = .hot) && (match s.turn with | .event .coldReset _ => false | _ => true)

/-! ### A word at the next fetch -/

/-- The unit that is to run an instruction placed for the next fetch: the one with the turn where it runs the instruction,
else cell 0, grove controller 0 or core 0 of basin 0. -/
def placeUnit (s : State) (i : Option Instr) : UnitKind × Nat :=
  let fits := fun k => match i with | some i => WellFormed k i | none => true
  let other : UnitKind × Nat := if fits .cell then (.cell, 0) else if fits .ctl then (.ctl, 0) else (.core, 1024)
  match s.turn with
  | .ctl u => if fits (unitKind u) then (unitKind u, u) else other
  | .cell c => if fits .cell then (.cell, c) else other
  | _ => other

/-- Bytes at the pc of a running controller or core, with an entry of its own that maps the page. -/
def placeCtl (s : State) (u : Nat) (w : Nat) : State :=
  let x := getCtl s u
  let pc := if x.pc % 65536 = 0 ∨ x.pc % 4 ≠ 0 ∨ 65528 < x.pc % 65536 ∨ 2 ^ 56 ≤ x.pc then 0x1000 else x.pc
  let s := setCtl { s with turn := .ctl u } u { x with mode := .running, pc := pc, wait := none }
  let e : TlbEntry := { asn := x.asn, secure := unitSecure s u, vpage := pc / 65536 * 65536, ppage := 0x10000, size := 65536, flags := 15, rootSecure := false }
  writeNat { s with tlbs := tset [] s.tlbs (streamCtl u) [e], poison := [] } (0x10000 + pc % 65536) 8 w

/-- Words 0 and 1 of a cell's instruction store, with a firing that has reached word 0. -/
def placeCell (s : State) (c : Nat) (w : Nat) : State :=
  let q : Cfg := { id := s.nextId, words := [0, 0, BitVec.ofNat 64 (2 ^ 24 + 2 ^ 30)], origins := [groveOf c], frames := [(0, { live := true })] }
  let x := getCell s c
  let x := { x with cfg := q.id, store := tset 0 (tset 0 x.store 0 (BitVec.ofNat 32 w)) 1 (BitVec.ofNat 32 (w / 4294967296))
                    fields := tset 0 x.fields 0 (BitVec.ofNat 64 (1 + 31 * 2 ^ 24))
                    firing := some { uid := s.nextId + 1, cfg := q.id } }
  setCell { s with turn := .cell c, nextId := s.nextId + 2, cfgs := s.cfgs ++ [q] } c x

/-- An instruction placed where the unit that runs it fetches next. -/
def placeWord (s : State) (nbits w : Nat) : State :=
  let v := w % 2 ^ nbits
  match placeUnit s (decodeTableWord nbits w) with
  | (.cell, c) => placeCell s c v
  | (_, u) => placeCtl s u v

end Sys2Proof.Machine
end

