-- ==== Sys2Proof/Machine/Blk.lean ====
section
/-! DEFINITION. Block arithmetic: dot products, scaled accumulation, quantisation, lookup (R329 to R334, R367, R368).  Each meaning runs the description of Alu.lean on the unit that has the turn. -/

namespace Sys2Proof.Machine

/-- BDOT_E2M1 (R367). Exact block dot products of E2M1 elements, one rounding per block. -/
def execBdotE2m1 (d a b : Spec) (m : BitVec 3) (s : State) : Out State :=
  runAlu (.bdotE2m1 d a b m) (semBdot d a b m (.flt fE2M1) 4) s

/-- BDOT_E4M3 (R367). Exact block dot products of E4M3 elements. -/
def execBdotE4m3 (d a b : Spec) (m : BitVec 3) (s : State) : Out State :=
  runAlu (.bdotE4m3 d a b m) (semBdot d a b m (.flt fE4M3) 8) s

/-- BDOT_E5M2 (R367). Exact block dot products of E5M2 elements. -/
def execBdotE5m2 (d a b : Spec) (m : BitVec 3) (s : State) : Out State :=
  runAlu (.bdotE5m2 d a b m) (semBdot d a b m (.flt fE5M2) 8) s

/-- BDOT_I8 (R367). Exact block dot products of I8 elements. -/
def execBdotI8 (d a b : Spec) (m : BitVec 3) (s : State) : Out State :=
  runAlu (.bdotI8 d a b m) (semBdot d a b m (.int ⟨8, true⟩) 8) s

/-- SCACC (R368). Applies block scales to partials in fixed order and accumulates. -/
def execScacc (d a b : Spec) (s : State) : Out State :=
  runAlu (.scacc d a b) (semScacc d a b) s

/-- QNT_E4M3 (R332). Quantises 32 F32 values into E4M3 codes with E8M0 block scales. -/
def execQntE4m3 (d a b : Spec) (m : BitVec 3) (s : State) : Out State :=
  runAlu (.qntE4m3 d a b m) (semQnt d a b m .e4m3) s

/-- QNT_E5M2 (R332). Quantises 32 F32 values into E5M2 codes with block scales. -/
def execQntE5m2 (d a b : Spec) (m : BitVec 3) (s : State) : Out State :=
  runAlu (.qntE5m2 d a b m) (semQnt d a b m .e5m2) s

/-- QNT_E2M1 (R332). Quantises 32 F32 values into E2M1 codes with block scales. -/
def execQntE2m1 (d a b : Spec) (m : BitVec 3) (s : State) : Out State :=
  runAlu (.qntE2m1 d a b m) (semQnt d a b m .e2m1) s

/-- QNT_I8 (R332). Quantises 32 F32 values into I8 codes with block scales. -/
def execQntI8 (d a b : Spec) (m : BitVec 3) (s : State) : Out State :=
  runAlu (.qntI8 d a b m) (semQnt d a b m .i8) s

/-- DEQ_E4M3 (R333). Dequantises E4M3 codes and scales into 32 F32 values. -/
def execDeqE4m3 (d a b : Spec) (s : State) : Out State :=
  runAlu (.deqE4m3 d a b) (semDeq d a b .e4m3) s

/-- DEQ_E5M2 (R333). Dequantises E5M2 codes and scales. -/
def execDeqE5m2 (d a b : Spec) (s : State) : Out State :=
  runAlu (.deqE5m2 d a b) (semDeq d a b .e5m2) s

/-- DEQ_E2M1 (R333). Dequantises E2M1 codes and scales. -/
def execDeqE2m1 (d a b : Spec) (s : State) : Out State :=
  runAlu (.deqE2m1 d a b) (semDeq d a b .e2m1) s

/-- DEQ_I8 (R333). Dequantises I8 codes and scales. -/
def execDeqI8 (d a b : Spec) (s : State) : Out State :=
  runAlu (.deqI8 d a b) (semDeq d a b .i8) s

/-- VLUT_BF16 (R334). Looks up 16 BF16 table entries by index. -/
def execVlutBf16 (d a b : Spec) (s : State) : Out State :=
  runAlu (.vlutBf16 d a b) (semVlut d a b fBF16) s

/-- VLUT_F32 (R334). Looks up 16 F32 table entries by index. -/
def execVlutF32 (d a b : Spec) (s : State) : Out State :=
  runAlu (.vlutF32 d a b) (semVlut d a b fF32) s

end Sys2Proof.Machine
end

