-- ==== Sys2Proof/Machine/Fp.lean ====
section
/-! DEFINITION. Floating-point arithmetic, conversion and comparison (R303 to R305, R323 to R328).  Each meaning runs the description of Alu.lean on the unit that has the turn. -/

namespace Sys2Proof.Machine

/-- FADD (R324). Rounded floating-point lane addition. -/
def execFadd (d a b : Spec) (f : BitVec 2) (m : BitVec 3) (s : State) : Out State :=
  runAlu (.fadd d a b f m) (semFadd d a b f m) s

/-- FSUB (R324). Rounded floating-point lane subtraction. -/
def execFsub (d a b : Spec) (f : BitVec 2) (m : BitVec 3) (s : State) : Out State :=
  runAlu (.fsub d a b f m) (semFsub d a b f m) s

/-- FMUL (R324). Rounded floating-point lane multiplication. -/
def execFmul (d a b : Spec) (f : BitVec 2) (m : BitVec 3) (s : State) : Out State :=
  runAlu (.fmul d a b f m) (semFmul d a b f m) s

/-- FMIN (R325). Floating-point lane minimum with -0 below +0. -/
def execFmin (d a b : Spec) (f : BitVec 2) (s : State) : Out State :=
  runAlu (.fmin d a b f) (semFmin d a b f) s

/-- FMAX (R325). Floating-point lane maximum with -0 below +0. -/
def execFmax (d a b : Spec) (f : BitVec 2) (s : State) : Out State :=
  runAlu (.fmax d a b f) (semFmax d a b f) s

/-- FSCALE (R324). Multiplies each lane by a power of two from b. -/
def execFscale (d a b : Spec) (f : BitVec 2) (m : BitVec 3) (s : State) : Out State :=
  runAlu (.fscale d a b f m) (semFscale d a b f m) s

/-- FFMA (R326). Fused multiply-add with one RNE rounding. -/
def execFfma (d a b c : Spec) (f : BitVec 2) (s : State) : Out State :=
  runAlu (.ffma d a b c f) (semFfma d a b c f) s

/-- FABS (R327). Floating-point absolute value. -/
def execFabs (d a : Spec) (f : BitVec 2) (s : State) : Out State :=
  runAlu (.fabs d a f) (semFun d a f 0) s

/-- FNEG (R327). Floating-point negation. -/
def execFneg (d a : Spec) (f : BitVec 2) (s : State) : Out State :=
  runAlu (.fneg d a f) (semFun d a f 1) s

/-- FRCP (R327). Correctly rounded reciprocal. -/
def execFrcp (d a : Spec) (f : BitVec 2) (s : State) : Out State :=
  runAlu (.frcp d a f) (semFun d a f 2) s

/-- FRSQ (R327). Correctly rounded reciprocal square root. -/
def execFrsq (d a : Spec) (f : BitVec 2) (s : State) : Out State :=
  runAlu (.frsq d a f) (semFun d a f 3) s

/-- FSQRT (R327). Correctly rounded square root. -/
def execFsqrt (d a : Spec) (f : BitVec 2) (s : State) : Out State :=
  runAlu (.fsqrt d a f) (semFun d a f 4) s

/-- FEXP2 (R327). Correctly rounded power of two. -/
def execFexp2 (d a : Spec) (f : BitVec 2) (s : State) : Out State :=
  runAlu (.fexp2 d a f) (semFun d a f 5) s

/-- FLOG2 (R327). Correctly rounded base-2 logarithm. -/
def execFlog2 (d a : Spec) (f : BitVec 2) (s : State) : Out State :=
  runAlu (.flog2 d a f) (semFun d a f 6) s

/-- FTANH (R327). Correctly rounded hyperbolic tangent. -/
def execFtanh (d a : Spec) (f : BitVec 2) (s : State) : Out State :=
  runAlu (.ftanh d a f) (semFun d a f 7) s

/-- FCVT (R304). Converts register elements between formats under a rounding mode. -/
def execFcvt (d a sc : Spec) (t : BitVec 5) (m : BitVec 3) (s : State) : Out State :=
  runAlu (.fcvt d a sc t m) (semFcvt d a sc t m) s

/-- FCEQ (R328). Floating-point equality mask. -/
def execFceq (d a b : Spec) (f : BitVec 2) (s : State) : Out State :=
  runAlu (.fceq d a b f) (semFcmp d a b f fun o => o == some .eq) s

/-- FCLT (R328). Floating-point less-than mask. -/
def execFclt (d a b : Spec) (f : BitVec 2) (s : State) : Out State :=
  runAlu (.fclt d a b f) (semFcmp d a b f fun o => o == some .lt) s

/-- FCLE (R328). Floating-point less-or-equal mask. -/
def execFcle (d a b : Spec) (f : BitVec 2) (s : State) : Out State :=
  runAlu (.fcle d a b f) (semFcmp d a b f fun o => o == some .lt || o == some .eq) s

/-- FCUN (R328). Unordered mask. -/
def execFcun (d a b : Spec) (f : BitVec 2) (s : State) : Out State :=
  runAlu (.fcun d a b f) (semFcmp d a b f fun o => o == none) s

/-- FCNE (R328). Floating-point not-equal mask. -/
def execFcne (d a b : Spec) (f : BitVec 2) (s : State) : Out State :=
  runAlu (.fcne d a b f) (semFcmp d a b f fun o => o != some .eq) s

/-- FCGT (R328). Floating-point greater-than mask. -/
def execFcgt (d a b : Spec) (f : BitVec 2) (s : State) : Out State :=
  runAlu (.fcgt d a b f) (semFcmp d a b f fun o => o == some .gt) s

/-- FCGE (R328). Floating-point greater-or-equal mask. -/
def execFcge (d a b : Spec) (f : BitVec 2) (s : State) : Out State :=
  runAlu (.fcge d a b f) (semFcmp d a b f fun o => o == some .gt || o == some .eq) s

/-- FCLASS (R305). Writes a one-hot class mask for each lane. -/
def execFclass (d a : Spec) (f : BitVec 2) (s : State) : Out State :=
  runAlu (.fclass d a f) (semFclass d a f) s

end Sys2Proof.Machine
end

