-- ==== Sys2Proof/Machine/Int.lean ====
section
/-! DEFINITION. Integer arithmetic, bit fields, lane movement and selection (R309 to R322).  Each meaning runs the description of Alu.lean on the unit that has the turn. -/

namespace Sys2Proof.Machine

/-- IADD (R315). Adds the lanes of a and b modulo 2^w. -/
def execIadd (d a b : Spec) (m : BitVec 3) (s : State) : Out State :=
  runAlu (.iadd d a b m) (semIadd d a b m) s

/-- ISUB (R315). Subtracts the lanes of b from a modulo 2^w. -/
def execIsub (d a b : Spec) (m : BitVec 3) (s : State) : Out State :=
  runAlu (.isub d a b m) (semIsub d a b m) s

/-- IMUL (R315). Multiplies lanes and keeps the low w bits. -/
def execImul (d a b : Spec) (m : BitVec 3) (s : State) : Out State :=
  runAlu (.imul d a b m) (semImul d a b m) s

/-- IMULH (R315). Returns the high half of the signed lane product. -/
def execImulh (d a b : Spec) (m : BitVec 3) (s : State) : Out State :=
  runAlu (.imulh d a b m) (semImulh d a b m) s

/-- IMULHU (R315). Returns the high half of the unsigned lane product. -/
def execImulhu (d a b : Spec) (m : BitVec 3) (s : State) : Out State :=
  runAlu (.imulhu d a b m) (semImulhu d a b m) s

/-- IMIN (R315). Signed lane minimum. -/
def execImin (d a b : Spec) (m : BitVec 3) (s : State) : Out State :=
  runAlu (.imin d a b m) (semImin d a b m) s

/-- IMAX (R315). Signed lane maximum. -/
def execImax (d a b : Spec) (m : BitVec 3) (s : State) : Out State :=
  runAlu (.imax d a b m) (semImax d a b m) s

/-- IMINU (R315). Unsigned lane minimum. -/
def execIminu (d a b : Spec) (m : BitVec 3) (s : State) : Out State :=
  runAlu (.iminu d a b m) (semIminu d a b m) s

/-- IMAXU (R315). Unsigned lane maximum. -/
def execImaxu (d a b : Spec) (m : BitVec 3) (s : State) : Out State :=
  runAlu (.imaxu d a b m) (semImaxu d a b m) s

/-- IABS (R315). Signed absolute value of each lane modulo 2^w. -/
def execIabs (d a : Spec) (m : BitVec 3) (s : State) : Out State :=
  runAlu (.iabs d a m) (semIabs d a m) s

/-- AND (R315). Bitwise AND of lanes. -/
def execIand (d a b : Spec) (m : BitVec 3) (s : State) : Out State :=
  runAlu (.iand d a b m) (semIand d a b m) s

/-- OR (R315). Bitwise OR of lanes. -/
def execIor (d a b : Spec) (m : BitVec 3) (s : State) : Out State :=
  runAlu (.ior d a b m) (semIor d a b m) s

/-- XOR (R315). Bitwise XOR of lanes. -/
def execIxor (d a b : Spec) (m : BitVec 3) (s : State) : Out State :=
  runAlu (.ixor d a b m) (semIxor d a b m) s

/-- ANDN (R315). AND of a with the complement of b. -/
def execIandn (d a b : Spec) (m : BitVec 3) (s : State) : Out State :=
  runAlu (.iandn d a b m) (semIandn d a b m) s

/-- SHL (R315). Shifts lanes left by b mod w. -/
def execShl (d a b : Spec) (m : BitVec 3) (s : State) : Out State :=
  runAlu (.shl d a b m) (semShl d a b m) s

/-- SHR (R315). Logical right shift of lanes. -/
def execShr (d a b : Spec) (m : BitVec 3) (s : State) : Out State :=
  runAlu (.shr d a b m) (semShr d a b m) s

/-- SAR (R315). Arithmetic right shift of lanes. -/
def execSar (d a b : Spec) (m : BitVec 3) (s : State) : Out State :=
  runAlu (.sar d a b m) (semSar d a b m) s

/-- ROL (R315). Rotates lanes left. -/
def execRol (d a b : Spec) (m : BitVec 3) (s : State) : Out State :=
  runAlu (.rol d a b m) (semRol d a b m) s

/-- CLZ (R315). Counts leading zero bits of each lane. -/
def execClz (d a : Spec) (m : BitVec 3) (s : State) : Out State :=
  runAlu (.clz d a m) (semClz d a m) s

/-- POPC (R315). Counts one bits of each lane. -/
def execPopc (d a : Spec) (m : BitVec 3) (s : State) : Out State :=
  runAlu (.popc d a m) (semPopc d a m) s

/-- IADDI (R316). Adds a sign-extended immediate to each I32 lane. -/
def execIaddi (d a : Spec) (i : BitVec 11) (s : State) : Out State :=
  runAlu (.iaddi d a i) (semIaddi d a i) s

/-- ANDI (R316). ANDs each I32 lane with an immediate. -/
def execAndi (d a : Spec) (i : BitVec 11) (s : State) : Out State :=
  runAlu (.andi d a i) (semAndi d a i) s

/-- ORI (R316). ORs each I32 lane with an immediate. -/
def execOri (d a : Spec) (i : BitVec 11) (s : State) : Out State :=
  runAlu (.ori d a i) (semOri d a i) s

/-- XORI (R316). XORs each I32 lane with an immediate. -/
def execXori (d a : Spec) (i : BitVec 11) (s : State) : Out State :=
  runAlu (.xori d a i) (semXori d a i) s

/-- SHLI (R316). Shifts I32 lanes left by an immediate. -/
def execShli (d a : Spec) (i : BitVec 11) (s : State) : Out State :=
  runAlu (.shli d a i) (semShli d a i) s

/-- SHRI (R316). Logical right shift of I32 lanes by an immediate. -/
def execShri (d a : Spec) (i : BitVec 11) (s : State) : Out State :=
  runAlu (.shri d a i) (semShri d a i) s

/-- SARI (R316). Arithmetic right shift of I32 lanes by an immediate. -/
def execSari (d a : Spec) (i : BitVec 11) (s : State) : Out State :=
  runAlu (.sari d a i) (semSari d a i) s

/-- MOVI (R316). Writes a sign-extended immediate into every I32 lane. -/
def execMovi (d : Spec) (i : BitVec 11) (s : State) : Out State :=
  runAlu (.movi d i) (semMovi d i) s

/-- BFX (R321). Extracts a bit field from each lane. -/
def execBfx (d a b : Spec) (m : BitVec 3) (s : State) : Out State :=
  runAlu (.bfx d a b m) (semBfx d a b m) s

/-- BFX2 (R321). Extracts a bit field that may cross into the next lane. -/
def execBfx2 (d a b : Spec) (m : BitVec 3) (s : State) : Out State :=
  runAlu (.bfx2 d a b m) (semBfx2 d a b m) s

/-- BFI (R321). Inserts low bits of a into a field of d. -/
def execBfi (d a b : Spec) (m : BitVec 3) (s : State) : Out State :=
  runAlu (.bfi d a b m) (semBfi d a b m) s

/-- IOTA (R320). Writes a[0]+i into lane i. -/
def execIota (d a : Spec) (m : BitVec 3) (s : State) : Out State :=
  runAlu (.iota d a m) (semIota d a m) s

/-- SHUF (R320). Permutes lanes of a by the indices in b. -/
def execShuf (d a b : Spec) (m : BitVec 3) (s : State) : Out State :=
  runAlu (.shuf d a b m) (semShuf d a b m) s

/-- LANE (R320). Broadcasts one lane of a to every lane. -/
def execLane (d a b : Spec) (m : BitVec 3) (s : State) : Out State :=
  runAlu (.lane d a b m) (semLane d a b m) s

/-- PACK (R322). Truncates lanes of 2w bits from a and b into w-bit lanes. -/
def execPack (d a b : Spec) (m : BitVec 3) (s : State) : Out State :=
  runAlu (.pack d a b m) (semPack d a b m) s

/-- UNPK (R322). Widens w-bit lanes into 2w-bit lanes with sign or zero extension. -/
def execUnpk (d a b : Spec) (m : BitVec 3) (s : State) : Out State :=
  runAlu (.unpk d a b m) (semUnpk d a b m) s

/-- ICEQ (R318). Lane mask of equality. -/
def execIceq (d a b : Spec) (m : BitVec 3) (s : State) : Out State :=
  runAlu (.iceq d a b m) (semIceq d a b m) s

/-- ICNE (R318). Lane mask of inequality. -/
def execIcne (d a b : Spec) (m : BitVec 3) (s : State) : Out State :=
  runAlu (.icne d a b m) (semIcne d a b m) s

/-- ICLT (R318). Lane mask of signed less-than. -/
def execIclt (d a b : Spec) (m : BitVec 3) (s : State) : Out State :=
  runAlu (.iclt d a b m) (semIclt d a b m) s

/-- ICGE (R318). Lane mask of signed greater-or-equal. -/
def execIcge (d a b : Spec) (m : BitVec 3) (s : State) : Out State :=
  runAlu (.icge d a b m) (semIcge d a b m) s

/-- ICLTU (R318). Lane mask of unsigned less-than. -/
def execIcltu (d a b : Spec) (m : BitVec 3) (s : State) : Out State :=
  runAlu (.icltu d a b m) (semIcltu d a b m) s

/-- ICGEU (R318). Lane mask of unsigned greater-or-equal. -/
def execIcgeu (d a b : Spec) (m : BitVec 3) (s : State) : Out State :=
  runAlu (.icgeu d a b m) (semIcgeu d a b m) s

/-- SEL (R319). Selects a or b per lane by the mask in c. -/
def execSel (d a b c : Spec) (m : BitVec 2) (s : State) : Out State :=
  runAlu (.sel d a b c m) (semSel d a b c m) s

/-- MOVL (R317). Long form writing a 32-bit immediate into every lane. -/
def execMovl (d : Spec) (u : BitVec 32) (s : State) : Out State :=
  runAlu (.movl d u) (semMovl d u) s

/-- MOVL0 (R317). Long form writing a 32-bit immediate into lane 0, others 0. -/
def execMovl0 (d : Spec) (u : BitVec 32) (s : State) : Out State :=
  runAlu (.movl0 d u) (semMovl0 d u) s

/-- IADDL (R317). Long form adding a 32-bit immediate to each lane. -/
def execIaddl (d a : Spec) (u : BitVec 32) (s : State) : Out State :=
  runAlu (.iaddl d a u) (semIaddl d a u) s

/-- ANDL (R317). Long form ANDing each lane with a 32-bit immediate. -/
def execAndl (d a : Spec) (u : BitVec 32) (s : State) : Out State :=
  runAlu (.andl d a u) (semAndl d a u) s

/-- ORL (R317). Long form ORing each lane with a 32-bit immediate. -/
def execOrl (d a : Spec) (u : BitVec 32) (s : State) : Out State :=
  runAlu (.orl d a u) (semOrl d a u) s

end Sys2Proof.Machine
end

