-- ==== Sys2Proof/Machine/Red.lean ====
section
/-! DEFINITION. Reductions, scans and sorting within registers (R335 to R341).  Each meaning runs the description of Alu.lean on the unit that has the turn. -/

namespace Sys2Proof.Machine

/-- RSUM (R336). Tree sum of the lanes into lane 0. -/
def execRsum (d a : Spec) (m : BitVec 3) (s : State) : Out State :=
  runAlu (.rsum d a m) (semRed d a m .add) s

/-- RMAX (R336). Tree maximum of the lanes. -/
def execRmax (d a : Spec) (m : BitVec 3) (s : State) : Out State :=
  runAlu (.rmax d a m) (semRed d a m .max) s

/-- RMIN (R336). Tree minimum of the lanes. -/
def execRmin (d a : Spec) (m : BitVec 3) (s : State) : Out State :=
  runAlu (.rmin d a m) (semRed d a m .min) s

/-- SCAN (R337). Inclusive prefix sums in a chain. -/
def execScan (d a : Spec) (m : BitVec 3) (s : State) : Out State :=
  runAlu (.scan d a m) (semScan d a m) s

/-- VSORT (R339). Stable sort of 16 key-payload elements. -/
def execVsort (d a b : Spec) (m : BitVec 3) (s : State) : Out State :=
  runAlu (.vsort d a b m) (semVsort d a b m) s

/-- VTOPK (R340). Keeps the first k elements of a stable sort. -/
def execVtopk (d a b : Spec) (m : BitVec 3) (s : State) : Out State :=
  runAlu (.vtopk d a b m) (semVtopk d a b m) s

/-- VMERGE (R341). Stable merge of two 16-element pairs into a quad. -/
def execVmerge (d a b : Spec) (m : BitVec 3) (s : State) : Out State :=
  runAlu (.vmerge d a b m) (semVmerge d a b m) s

end Sys2Proof.Machine
end

