-- ==== Sys2Proof/Machine/Dispatch.lean ====
section
/-! DEFINITION. The meaning of every step: one arm for each constructor of Instr. -/

namespace Sys2Proof.Machine

open Sys2Proof

def exec (i : Instr) (s : State) : Host.Outcome State Fault Refusal :=
  match i with
  | .iadd d a b m => Sys2Proof.Machine.execIadd d a b m s
  | .isub d a b m => Sys2Proof.Machine.execIsub d a b m s
  | .imul d a b m => Sys2Proof.Machine.execImul d a b m s
  | .imulh d a b m => Sys2Proof.Machine.execImulh d a b m s
  | .imulhu d a b m => Sys2Proof.Machine.execImulhu d a b m s
  | .imin d a b m => Sys2Proof.Machine.execImin d a b m s
  | .imax d a b m => Sys2Proof.Machine.execImax d a b m s
  | .iminu d a b m => Sys2Proof.Machine.execIminu d a b m s
  | .imaxu d a b m => Sys2Proof.Machine.execImaxu d a b m s
  | .iabs d a m => Sys2Proof.Machine.execIabs d a m s
  | .iand d a b m => Sys2Proof.Machine.execIand d a b m s
  | .ior d a b m => Sys2Proof.Machine.execIor d a b m s
  | .ixor d a b m => Sys2Proof.Machine.execIxor d a b m s
  | .iandn d a b m => Sys2Proof.Machine.execIandn d a b m s
  | .shl d a b m => Sys2Proof.Machine.execShl d a b m s
  | .shr d a b m => Sys2Proof.Machine.execShr d a b m s
  | .sar d a b m => Sys2Proof.Machine.execSar d a b m s
  | .rol d a b m => Sys2Proof.Machine.execRol d a b m s
  | .clz d a m => Sys2Proof.Machine.execClz d a m s
  | .popc d a m => Sys2Proof.Machine.execPopc d a m s
  | .iaddi d a im => Sys2Proof.Machine.execIaddi d a im s
  | .andi d a im => Sys2Proof.Machine.execAndi d a im s
  | .ori d a im => Sys2Proof.Machine.execOri d a im s
  | .xori d a im => Sys2Proof.Machine.execXori d a im s
  | .shli d a im => Sys2Proof.Machine.execShli d a im s
  | .shri d a im => Sys2Proof.Machine.execShri d a im s
  | .sari d a im => Sys2Proof.Machine.execSari d a im s
  | .movi d im => Sys2Proof.Machine.execMovi d im s
  | .bfx d a b m => Sys2Proof.Machine.execBfx d a b m s
  | .bfx2 d a b m => Sys2Proof.Machine.execBfx2 d a b m s
  | .bfi d a b m => Sys2Proof.Machine.execBfi d a b m s
  | .iota d a m => Sys2Proof.Machine.execIota d a m s
  | .shuf d a b m => Sys2Proof.Machine.execShuf d a b m s
  | .lane d a b m => Sys2Proof.Machine.execLane d a b m s
  | .pack d a b m => Sys2Proof.Machine.execPack d a b m s
  | .unpk d a b m => Sys2Proof.Machine.execUnpk d a b m s
  | .iceq d a b m => Sys2Proof.Machine.execIceq d a b m s
  | .icne d a b m => Sys2Proof.Machine.execIcne d a b m s
  | .iclt d a b m => Sys2Proof.Machine.execIclt d a b m s
  | .icge d a b m => Sys2Proof.Machine.execIcge d a b m s
  | .icltu d a b m => Sys2Proof.Machine.execIcltu d a b m s
  | .icgeu d a b m => Sys2Proof.Machine.execIcgeu d a b m s
  | .sel d a b c m => Sys2Proof.Machine.execSel d a b c m s
  | .movl d u => Sys2Proof.Machine.execMovl d u s
  | .movl0 d u => Sys2Proof.Machine.execMovl0 d u s
  | .iaddl d a u => Sys2Proof.Machine.execIaddl d a u s
  | .andl d a u => Sys2Proof.Machine.execAndl d a u s
  | .orl d a u => Sys2Proof.Machine.execOrl d a u s
  | .fadd d a b f m => Sys2Proof.Machine.execFadd d a b f m s
  | .fsub d a b f m => Sys2Proof.Machine.execFsub d a b f m s
  | .fmul d a b f m => Sys2Proof.Machine.execFmul d a b f m s
  | .fmin d a b f => Sys2Proof.Machine.execFmin d a b f s
  | .fmax d a b f => Sys2Proof.Machine.execFmax d a b f s
  | .fscale d a b f m => Sys2Proof.Machine.execFscale d a b f m s
  | .ffma d a b c f => Sys2Proof.Machine.execFfma d a b c f s
  | .fabs d a f => Sys2Proof.Machine.execFabs d a f s
  | .fneg d a f => Sys2Proof.Machine.execFneg d a f s
  | .frcp d a f => Sys2Proof.Machine.execFrcp d a f s
  | .frsq d a f => Sys2Proof.Machine.execFrsq d a f s
  | .fsqrt d a f => Sys2Proof.Machine.execFsqrt d a f s
  | .fexp2 d a f => Sys2Proof.Machine.execFexp2 d a f s
  | .flog2 d a f => Sys2Proof.Machine.execFlog2 d a f s
  | .ftanh d a f => Sys2Proof.Machine.execFtanh d a f s
  | .fcvt d a sc t m => Sys2Proof.Machine.execFcvt d a sc t m s
  | .fceq d a b f => Sys2Proof.Machine.execFceq d a b f s
  | .fclt d a b f => Sys2Proof.Machine.execFclt d a b f s
  | .fcle d a b f => Sys2Proof.Machine.execFcle d a b f s
  | .fcun d a b f => Sys2Proof.Machine.execFcun d a b f s
  | .fcne d a b f => Sys2Proof.Machine.execFcne d a b f s
  | .fcgt d a b f => Sys2Proof.Machine.execFcgt d a b f s
  | .fcge d a b f => Sys2Proof.Machine.execFcge d a b f s
  | .fclass d a f => Sys2Proof.Machine.execFclass d a f s
  | .bdotE2m1 d a b m => Sys2Proof.Machine.execBdotE2m1 d a b m s
  | .bdotE4m3 d a b m => Sys2Proof.Machine.execBdotE4m3 d a b m s
  | .bdotE5m2 d a b m => Sys2Proof.Machine.execBdotE5m2 d a b m s
  | .bdotI8 d a b m => Sys2Proof.Machine.execBdotI8 d a b m s
  | .scacc d a b => Sys2Proof.Machine.execScacc d a b s
  | .qntE4m3 d a b m => Sys2Proof.Machine.execQntE4m3 d a b m s
  | .qntE5m2 d a b m => Sys2Proof.Machine.execQntE5m2 d a b m s
  | .qntE2m1 d a b m => Sys2Proof.Machine.execQntE2m1 d a b m s
  | .qntI8 d a b m => Sys2Proof.Machine.execQntI8 d a b m s
  | .deqE4m3 d a b => Sys2Proof.Machine.execDeqE4m3 d a b s
  | .deqE5m2 d a b => Sys2Proof.Machine.execDeqE5m2 d a b s
  | .deqE2m1 d a b => Sys2Proof.Machine.execDeqE2m1 d a b s
  | .deqI8 d a b => Sys2Proof.Machine.execDeqI8 d a b s
  | .vlutBf16 d a b => Sys2Proof.Machine.execVlutBf16 d a b s
  | .vlutF32 d a b => Sys2Proof.Machine.execVlutF32 d a b s
  | .rsum d a m => Sys2Proof.Machine.execRsum d a m s
  | .rmax d a m => Sys2Proof.Machine.execRmax d a m s
  | .rmin d a m => Sys2Proof.Machine.execRmin d a m s
  | .scan d a m => Sys2Proof.Machine.execScan d a m s
  | .vsort d a b m => Sys2Proof.Machine.execVsort d a b m s
  | .vtopk d a b m => Sys2Proof.Machine.execVtopk d a b m s
  | .vmerge d a b m => Sys2Proof.Machine.execVmerge d a b m s
  | .emit d a b m => Sys2Proof.Machine.execEmit d a b m s
  | .emitn d a b m => Sys2Proof.Machine.execEmitn d a b m s
  | .emitz d b m => Sys2Proof.Machine.execEmitz d b m s
  | .emitq d a b => Sys2Proof.Machine.execEmitq d a b s
  | .bound d a b => Sys2Proof.Machine.execBound d a b s
  | .endFiring => Sys2Proof.Machine.execEndFiring s
  | .nop => Sys2Proof.Machine.execNop s
  | .hrec d b => Sys2Proof.Machine.execHrec d b s
  | .hrecClr d => Sys2Proof.Machine.execHrecClr d s
  | .hdrop d => Sys2Proof.Machine.execHdrop d s
  | .hfill d => Sys2Proof.Machine.execHfill d s
  | .hstat d a => Sys2Proof.Machine.execHstat d a s
  | .hcap d => Sys2Proof.Machine.execHcap d s
  | .trap a b => Sys2Proof.Machine.execTrap a b s
  | .brkp b => Sys2Proof.Machine.execBrkp b s
  | .ld d a r o p sc => Sys2Proof.Machine.execLd d a r o p sc s
  | .st d a r o p sc => Sys2Proof.Machine.execSt d a r o p sc s
  | .ldb d a r o p sc => Sys2Proof.Machine.execLdb d a r o p sc s
  | .ldx d a r o p sc => Sys2Proof.Machine.execLdx d a r o p sc s
  | .stx d a r o p sc => Sys2Proof.Machine.execStx d a r o p sc s
  | .stnf d a r o p sc => Sys2Proof.Machine.execStnf d a r o p sc s
  | .seqcl a r o p sc => Sys2Proof.Machine.execSeqcl a r o p sc s
  | .ldg d a r o p sc => Sys2Proof.Machine.execLdg d a r o p sc s
  | .stg d a r o p sc => Sys2Proof.Machine.execStg d a r o p sc s
  | .ldgx d a r o p sc => Sys2Proof.Machine.execLdgx d a r o p sc s
  | .aadd d a r o p sc => Sys2Proof.Machine.execAadd d a r o p sc s
  | .amin d a r o p sc => Sys2Proof.Machine.execAmin d a r o p sc s
  | .amax d a r o p sc => Sys2Proof.Machine.execAmax d a r o p sc s
  | .axch d a r o p sc => Sys2Proof.Machine.execAxch d a r o p sc s
  | .acas d a r o p sc => Sys2Proof.Machine.execAcas d a r o p sc s
  | .aor d a r o p sc => Sys2Proof.Machine.execAor d a r o p sc s
  | .aand d a r o p sc => Sys2Proof.Machine.execAand d a r o p sc s
  | .ord o p sc => Sys2Proof.Machine.execOrd o p sc s
  | .ordw o p sc => Sys2Proof.Machine.execOrdw o p sc s
  | .scopyCell d a b => Sys2Proof.Machine.execScopyCell d a b s
  | .scopyCtrl a => Sys2Proof.Machine.execScopyCtrl a s
  | .sxformCell d a b => Sys2Proof.Machine.execSxformCell d a b s
  | .sxformCtrl a => Sys2Proof.Machine.execSxformCtrl a s
  | .sbind d a b => Sys2Proof.Machine.execSbind d a b s
  | .scancel a => Sys2Proof.Machine.execScancel a s
  | .twaita d a => Sys2Proof.Machine.execTwaita d a s
  | .twaitn d a => Sys2Proof.Machine.execTwaitn d a s
  | .tffr d a => Sys2Proof.Machine.execTffr d a s
  | .tclr a => Sys2Proof.Machine.execTclr a s
  | .tcnt d a => Sys2Proof.Machine.execTcnt d a s
  | .barinit a b => Sys2Proof.Machine.execBarinit a b s
  | .bararv a => Sys2Proof.Machine.execBararv a s
  | .baradd a b => Sys2Proof.Machine.execBaradd a b s
  | .barwait d a b => Sys2Proof.Machine.execBarwait d a b s
  | .bartest d a => Sys2Proof.Machine.execBartest d a s
  | .mlw a b => Sys2Proof.Machine.execMlw a b s
  | .mswp => Sys2Proof.Machine.execMswp s
  | .mstr d a b => Sys2Proof.Machine.execMstr d a b s
  | .mrd d a b l => Sys2Proof.Machine.execMrd d a b l s
  | .mrdH d a b l => Sys2Proof.Machine.execMrdH d a b l s
  | .mclr d => Sys2Proof.Machine.execMclr d s
  | .mchk d => Sys2Proof.Machine.execMchk d s
  | .mshp d a => Sys2Proof.Machine.execMshp d a s
  | .rdef a => Sys2Proof.Machine.execRdef a s
  | .rins a b => Sys2Proof.Machine.execRins a b s
  | .rjoin a => Sys2Proof.Machine.execRjoin a s
  | .ranti a => Sys2Proof.Machine.execRanti a s
  | .rrnd d a => Sys2Proof.Machine.execRrnd d a s
  | .rqck d a b g => Sys2Proof.Machine.execRqck d a b g s
  | .rdel a b => Sys2Proof.Machine.execRdel a b s
  | .rclr a => Sys2Proof.Machine.execRclr a s
  | .rlook d a b => Sys2Proof.Machine.execRlook d a b s
  | .rgrad a b => Sys2Proof.Machine.execRgrad a b s
  | .rsort d a b n => Sys2Proof.Machine.execRsort d a b n s
  | .rtopk d a b n => Sys2Proof.Machine.execRtopk d a b n s
  | .rmrg d a b n => Sys2Proof.Machine.execRmrg d a b n s
  | .pdef a b => Sys2Proof.Machine.execPdef a b s
  | .pldCell d a b => Sys2Proof.Machine.execPldCell d a b s
  | .pldCtrl d a => Sys2Proof.Machine.execPldCtrl d a s
  | .pconvCell a b => Sys2Proof.Machine.execPconvCell a b s
  | .pconvCtrl a => Sys2Proof.Machine.execPconvCtrl a s
  | .pqry d a => Sys2Proof.Machine.execPqry d a s
  | .cdef a b => Sys2Proof.Machine.execCdef a b s
  | .cstart d a => Sys2Proof.Machine.execCstart d a s
  | .cwait d a => Sys2Proof.Machine.execCwait d a s
  | .cpoll d a => Sys2Proof.Machine.execCpoll d a s
  | .beq a b o => Sys2Proof.Machine.execBeq a b o s
  | .bne a b o => Sys2Proof.Machine.execBne a b o s
  | .blt a b o => Sys2Proof.Machine.execBlt a b o s
  | .bge a b o => Sys2Proof.Machine.execBge a b o s
  | .bltu a b o => Sys2Proof.Machine.execBltu a b o s
  | .bgeu a b o => Sys2Proof.Machine.execBgeu a b o s
  | .jal l o => Sys2Proof.Machine.execJal l o s
  | .jalr l => Sys2Proof.Machine.execJalr l s
  | .ldc d a b m => Sys2Proof.Machine.execLdc d a b m s
  | .stc d a b m => Sys2Proof.Machine.execStc d a b m s
  | .crd d im => Sys2Proof.Machine.execCrd d im s
  | .cwr a im => Sys2Proof.Machine.execCwr a im s
  | .dispgo a => Sys2Proof.Machine.execDispgo a s
  | .pwreqStandby a => Sys2Proof.Machine.execPwreqStandby a s
  | .pwreqWithdraw a => Sys2Proof.Machine.execPwreqWithdraw a s
  | .launch d a b => Sys2Proof.Machine.execLaunch d a b s
  | .join d a => Sys2Proof.Machine.execJoin d a s
  | .conf d a => Sys2Proof.Machine.execConf d a s
  | .splice d a b => Sys2Proof.Machine.execSplice d a b s
  | .preempt d a => Sys2Proof.Machine.execPreempt d a s
  | .ctxsv d a b => Sys2Proof.Machine.execCtxsv d a b s
  | .ctxrs d a b => Sys2Proof.Machine.execCtxrs d a b s
  | .wfe d a => Sys2Proof.Machine.execWfe d a s
  | .sev a => Sys2Proof.Machine.execSev a s
  | .svc d a b => Sys2Proof.Machine.execSvc d a b s
  | .eret => Sys2Proof.Machine.execEret s
  | .fres a => Sys2Proof.Machine.execFres a s
  | .fskip => Sys2Proof.Machine.execFskip s
  | .escal => Sys2Proof.Machine.execEscal s
  | .tlbinv a b => Sys2Proof.Machine.execTlbinv a b s
  | .smcSetblk d a b => Sys2Proof.Machine.execSmcSetblk d a b s
  | .smcSetrgn d a b => Sys2Proof.Machine.execSmcSetrgn d a b s
  | .smcGetblk d a b => Sys2Proof.Machine.execSmcGetblk d a b s
  | .smcGetrgn d a b => Sys2Proof.Machine.execSmcGetrgn d a b s
  | .smcReply => Sys2Proof.Machine.execSmcReply s
  | .bbox d a b => Sys2Proof.Machine.execBbox d a b s
  | .bboxWr a b => Sys2Proof.Machine.execBboxWr a b s
  | .ckpt d a => Sys2Proof.Machine.execCkpt d a s
  | .ckptPoll d a => Sys2Proof.Machine.execCkptPoll d a s
  | .ckptWait d a => Sys2Proof.Machine.execCkptWait d a s
  | .ckptAbort d a => Sys2Proof.Machine.execCkptAbort d a s
  | .ckptRest d a => Sys2Proof.Machine.execCkptRest d a s
  | .tokenArrival => Sys2Proof.Machine.execTokenArrival s
  | .predicateArrival => Sys2Proof.Machine.execPredicateArrival s
  | .firing cell ctx frame itag => Sys2Proof.Machine.execFiring cell ctx frame itag s
  | .outputCommit => Sys2Proof.Machine.execOutputCommit s
  | .fillLand => Sys2Proof.Machine.execFillLand s
  | .steerFiring cell ctx frame itag => Sys2Proof.Machine.execSteerFiring cell ctx frame itag s
  | .mergeFiring cell ctx frame itag => Sys2Proof.Machine.execMergeFiring cell ctx frame itag s
  | .counterFiring cell ctx frame itag => Sys2Proof.Machine.execCounterFiring cell ctx frame itag s
  | .counterBound => Sys2Proof.Machine.execCounterBound s
  | .memoryNodeFiring cell ctx frame itag => Sys2Proof.Machine.execMemoryNodeFiring cell ctx frame itag s
  | .reductionNodeFiring cell ctx frame itag => Sys2Proof.Machine.execReductionNodeFiring cell ctx frame itag s
  | .arbitrationRound => Sys2Proof.Machine.execArbitrationRound s
  | .configCompletion => Sys2Proof.Machine.execConfigCompletion s
  | .cellRetire => Sys2Proof.Machine.execCellRetire s
  | .heldState => Sys2Proof.Machine.execHeldState s
  | .ownerCheck => Sys2Proof.Machine.execOwnerCheck s
  | .storePerform => Sys2Proof.Machine.execStorePerform s
  | .atomicApply => Sys2Proof.Machine.execAtomicApply s
  | .doneToken => Sys2Proof.Machine.execDoneToken s
  | .seqContribution => Sys2Proof.Machine.execSeqContribution s
  | .seqClose => Sys2Proof.Machine.execSeqClose s
  | .copyJobStart => Sys2Proof.Machine.execCopyJobStart s
  | .copyElement => Sys2Proof.Machine.execCopyElement s
  | .copyJobComplete => Sys2Proof.Machine.execCopyJobComplete s
  | .barrierUpdate => Sys2Proof.Machine.execBarrierUpdate s
  | .conversionDemand => Sys2Proof.Machine.execConversionDemand s
  | .conversionStart => Sys2Proof.Machine.execConversionStart s
  | .conversionPacket => Sys2Proof.Machine.execConversionPacket s
  | .conversionAbort => Sys2Proof.Machine.execConversionAbort s
  | .conversionComplete => Sys2Proof.Machine.execConversionComplete s
  | .collectiveComplete => Sys2Proof.Machine.execCollectiveComplete s
  | .mtxCommandAtHead => Sys2Proof.Machine.execMtxCommandAtHead s
  | .relationContribution => Sys2Proof.Machine.execRelationContribution s
  | .rrndRoundClose => Sys2Proof.Machine.execRrndRoundClose s
  | .pageWalk => Sys2Proof.Machine.execPageWalk s
  | .trapTake => Sys2Proof.Machine.execTrapTake s
  | .supervisorTrapTake => Sys2Proof.Machine.execSupervisorTrapTake s
  | .wfeTimeout => Sys2Proof.Machine.execWfeTimeout s
  | .ckptGranuleCopy => Sys2Proof.Machine.execCkptGranuleCopy s
  | .ckptComplete => Sys2Proof.Machine.execCkptComplete s
  | .launchDoorbell value => Sys2Proof.Machine.execLaunchDoorbell value s
  | .hostMemWrite addr data => Sys2Proof.Machine.execHostMemWrite addr data s
  | .hostMemRead addr len => Sys2Proof.Machine.execHostMemRead addr len s
  | .flitData port flit => Sys2Proof.Machine.execFlitData port flit s
  | .flitAck port flit => Sys2Proof.Machine.execFlitAck port flit s
  | .flitTimesync port flit => Sys2Proof.Machine.execFlitTimesync port flit s
  | .flitManagement port flit => Sys2Proof.Machine.execFlitManagement port flit s
  | .linkRetrain port => Sys2Proof.Machine.execLinkRetrain port s
  | .linkDown port => Sys2Proof.Machine.execLinkDown port s
  | .linkUp port => Sys2Proof.Machine.execLinkUp port s
  | .coldReset => Sys2Proof.Machine.execColdReset s
  | .warmReset => Sys2Proof.Machine.execWarmReset s
  | .spdmAttestation nonce => Sys2Proof.Machine.execSpdmAttestation nonce s
  | .mgmtStandbyRequest => Sys2Proof.Machine.execMgmtStandbyRequest s
  | .mgmtFirmwareImage image => Sys2Proof.Machine.execMgmtFirmwareImage image s
  | .pw1Entry => Sys2Proof.Machine.execPw1Entry s
  | .powerRemoval => Sys2Proof.Machine.execPowerRemoval s
  | .clockChange mhz temp => Sys2Proof.Machine.execClockChange mhz temp s
  | .thermalStop temp => Sys2Proof.Machine.execThermalStop temp s
  | .scrubPass hbm => Sys2Proof.Machine.execScrubPass hbm s
  | .serdesRecalibration port => Sys2Proof.Machine.execSerdesRecalibration port s
  | .telemetryWrite => Sys2Proof.Machine.execTelemetryWrite s
  | .hbmRowRemap stack row => Sys2Proof.Machine.execHbmRowRemap stack row s
  | .decodeDefect defect => Sys2Proof.Machine.execDecodeDefect defect s
  | .relationJobBlock => Sys2Proof.Machine.execRelationJobBlock s
  | .sortJobBlock => Sys2Proof.Machine.execSortJobBlock s
  | .pw2Exit => Sys2Proof.Machine.execPw2Exit s
  | .launchstRead => Sys2Proof.Machine.execLaunchstRead s

end Sys2Proof.Machine
end

