-- ==== Sys2Proof/Machine/Step.lean ====
section
/-! DEFINITION. One step of the machine: the agent with the turn makes its step, time passes and the next agent is
chosen. -/

namespace Sys2Proof.Machine

/-- The step after the agent's own. -/
def goOn : Out State → Out State
  | .next t => .next (afterStep t)
  | .fault r => .fault r
  | .refused r => .refused r

/-- One step. -/
def step (s : State) : Host.Outcome State Fault Refusal :=
  if unpowered s then .fault .poweredOff
  else match due s with
    | .run i => goOn (exec i s)
    | .go t => .next (afterStep t)

/-- The state in which the next step fetches and runs the given word or words. -/
def State.withFetchWord (s : State) (nbits w : Nat) : State := placeWord s nbits w

end Sys2Proof.Machine
end

