-- ==== Sys2Proof/Safety.lean ====
section
/-! DEFINITION. What counts as a good state and a good run, in the terms the statements use. -/

namespace Sys2Proof.Machine

/-- The memory is in its canonical form: addresses strictly rising, no byte listed that equals what an unlisted address
reads as. -/
abbrev Memory.wf (m : Table Byte) : Bool := twf 0 m

/-- The step completes: it ends in a next state. -/
def Completes (o : Out State) : Prop := ∃ t, o = .next t

end Sys2Proof.Machine
end

