-- ==== Sys2Proof/Certificates/Slice0/Obligations.lean ====
section
/-! DEFINITION. The statements for the provers, with the terms they are written in. -/

/-! ### Who runs, and what may change -/

namespace Sys2Proof.Claims
open Sys2Proof.Machine

/-- The byte at every physical address reads as before. -/
def SameMem (s t : State) : Prop := ∀ a, memByte t a = memByte s a

/-- Controller or core `u` has the turn and runs the well-formed instruction `i`. -/
abbrev CtlRuns (s : State) (u : Nat) (i : Instr) : Prop :=
  s.turn = .ctl u ∧ (getCtl s u).mode = .running ∧ WellFormed (unitKind u) i = true

/-- Firing `f` of cell `c` has the turn and runs the well-formed instruction `i`, whose held registers its context may use. -/
abbrev CellRuns (s : State) (c : Nat) (f : Firing) (i : Instr) : Prop :=
  s.turn = .cell c ∧ (getCell s c).firing = some f ∧ f.phase = .running ∧ WellFormed .cell i = true ∧
    specsUsable (getCell s c) f.ctx (regsOf i) = true

/-- The unit behind its instruction: its pc has moved by the words of `i`, and no instruction is under way. -/
def behind (s : State) (u : Nat) (i : Instr) : Ctl := { getCtl s u with pc := (getCtl s u).pc + 4 * sizeOf' i, midway := false }

/-- From `s` to `t` unit `u` became `x`, and nothing else changed. -/
def OnlyCtl (s t : State) (u : Nat) (x : Ctl) : Prop :=
  t = { s with ctls := t.ctls } ∧ getCtl t u = x ∧ (∀ v, v ≠ u → getCtl t v = getCtl s v) ∧ SameMem s t

/-- From `s` to `t` the firing of cell `c` became `f`, and nothing else changed. -/
def OnlyFiring (s t : State) (c : Nat) (f : Firing) : Prop :=
  t = { s with cells := t.cells } ∧ getCell t c = { getCell s c with firing := some f } ∧
    (∀ d, d ≠ c → getCell t d = getCell s d) ∧ SameMem s t

/-- The firing goes on as `g` behind `i`, and nothing else changed. -/
def FiringOn (s t : State) (c : Nat) (i : Instr) (g : Firing) : Prop := OnlyFiring s t c { g with word := g.word + sizeOf' i }

/-- As `FiringOn`, and the items `w` entered the pending work; identities were drawn and the cell's own translation entry may be
another. -/
def FiringSends (s t : State) (c : Nat) (i : Instr) (g : Firing) (w : List Work) : Prop :=
  t = { s with cells := t.cells, work := s.work ++ w, nextId := t.nextId, tlbs := t.tlbs } ∧
    getCell t c = { getCell s c with firing := some { g with word := g.word + sizeOf' i } } ∧
    (∀ d, d ≠ c → getCell t d = getCell s d) ∧ SameMem s t

/-- Lane `i` of width `w` of the one register an arithmetic instruction delivers on registers of `W` bits. -/
def laneOf (q : AluSem) (W : Nat) (vs : List Nat) (w i : Nat) : Option (BitVec w) :=
  match q.eval W {} vs with
  | .ok o => o.vals.head?.map fun v => BitVec.ofNat w (lane w v i)
  | .error _ => none

/-- The lane of an operand. -/
def bv (w x i : Nat) : BitVec w := BitVec.ofNat w (lane w x i)

/-- A register width and a lane of it: 64 bits on a controller or core, 512 on a cell. -/
abbrev LaneIn (W w i : Nat) : Prop := (W = 64 ∨ W = 512) ∧ i < W / w

end Sys2Proof.Claims

open Sys2Proof Sys2Proof.Machine Sys2Proof.Claims

/-! ### Encoding -/

/-- Decoding the words of a well-formed instruction gives back the row that its words stand for, with every operand, and leaves the words
after it (R54 to R75).

That row is the instruction itself, except where rows of the table share their words (log entry 49, DESIGN CHOICE): the words of SMC_SETRGN,
SMC_GETBLK and SMC_GETRGN decode to SMC_SETBLK, those of PWREQ_WITHDRAW to PWREQ_STANDBY, and those of a CWR of register 99 or 100 to
DISPGO and PWREQ_STANDBY (`wordRow`). -/
def Obligations.DecodeEncodeAgree : Prop :=
  ∀ (k : UnitKind) (i : Instr) (rest : List Nat), WellFormed k i = true → decodeWords k (encode i ++ rest) = .ok (wordRow i, rest)

/-- A word that decodes is the word its instruction encodes, with the second word of a long form: no bit of it is ignored (R70,
R71); and what decodes on a unit is well formed there. -/
def Obligations.EncodeDecodeAgree : Prop :=
  (∀ (k : UnitKind) (w : Nat) (u : BitVec 32) (i : Instr), w < 2 ^ 32 → decodeWord k w u = .ok i →
    encode i = if isLong w then [w, u.toNat] else [w]) ∧
  (∀ (k : UnitKind) (ws rest : List Nat) (i : Instr), decodeWords k ws = .ok (i, rest) → WellFormed k i = true)

/-- The words of END and NOP (R139), and one word of every format written out from R56 to R62. -/
def Obligations.DecodeKnownWords : Prop :=
  decodeWords .cell [0x40000028] = .ok (.endFiring, []) ∧ decodeWords .cell [0x40000030] = .ok (.nop, []) ∧
  decodeWords .cell [0b000001_000010_000011_000100_00000_010] = .ok (.iadd 2 3 4 2, []) ∧
  decodeWords .ctl [0b000101_000010_000011_000100_000101_00] = .ok (.sel 2 3 4 5 0, []) ∧
  decodeWords .ctl [0b000010_000001_000000_000_11111111111] = .ok (.iaddi 1 0 (-1), []) ∧
  decodeWords .cell [0b010100_000001_101000_101_01_1_011_00000] = .ok (.ld 1 40 5 1 1 3, []) ∧
  decodeWords .core [0b100000_001_00010_00011_1111111111110] = .ok (.bne 2 3 (-2), []) ∧
  decodeWords .ctl [0b100001_00001_000000000000000010000] = .ok (.jal 1 16, []) ∧
  decodeWords .cell [0b000110_001000_000000_000_00000000000, 0x12345678, 7] = .ok (.movl 8 0x12345678, [7])

/-! ### Steps -/

/-- A step of a running controller or core executes the row its words decode to, at the pc it has: `exec` moves the pc, and the
step only lets time pass and gives the next turn.

A step of a running firing executes the instruction at its word; only END may stand in the last word of the range (R104,
R105). -/
def Obligations.StepRunsDecoded : Prop :=
  (∀ (s : State) (u : Nat) (ws rest : List Nat) (i : Instr), unpowered s = false → s.turn = .ctl u → (getCtl s u).mode = .running →
    fetchWords s u (getCtl s u).pc = .ok ws → decodeWords (unitKind u) ws = .ok (i, rest) → step s = goOn (exec (rowOf s u i) s)) ∧
  (∀ (s : State) (c : Nat) (f : Firing) (i : Instr) (rest : List Nat), unpowered s = false → s.turn = .cell c →
    (getCell s c).firing = some f → f.phase = .running →
    decodeWords .cell [(tget 0 (getCell s c).store f.word).toNat, (tget 0 (getCell s c).store (f.word + 1)).toNat] = .ok (i, rest) →
    (i = .endFiring ∨ f.word + sizeOf' i ≤ bits ((getCell s c).field f.ctx 0) 16 8 + bits ((getCell s c).field f.ctx 0) 24 5) →
    step s = goOn (exec i s))

/-- A word that is no instruction faults with ILLOP DECODE, ILLREG or ILLOP NOEND before it changes anything (R73, R75, R104):
decodeDefect takes that trap on a unit and on a firing. -/
def Obligations.DefectTraps : Prop :=
  defectTrap .illop = { cause := cILLOP, detail := 1 } ∧ defectTrap .illreg = { cause := cILLREG } ∧
  defectTrap .noend = { cause := cILLOP, detail := 6 } ∧
  ∀ (s : State) (e : Defect),
    (∀ u, s.turn = .ctl u → (getCtl s u).mode = .running →
      exec (.decodeDefect e) s = .next (takeCtlTrap s u (getCtl s u).pc (defectTrap e))) ∧
    (∀ c f, s.turn = .cell c → (getCell s c).firing = some f → f.phase = .running →
      exec (.decodeDefect e) s = .next (firingFault s c f (defectTrap e)))

/-- A machine whose turn is one of the steps that may come next, given out by the machine itself, and whose first input may
happen. -/
def Sys2Proof.Claims.Ready (s : State) : Prop :=
  ∃ r : State, (s.turn = .idle ∨ s.turn ∈ agenda r) ∧ s = giveTurn r s.turn ∧ ∀ i ∈ r.inputs.head?, inputDue r i = true

/-- Every step of a ready machine completes in a machine that is ready again, or the module is without power: no instruction and
no event is refused (R20 to R24, R114, R212, R461).

That a stall or an unmet wait is a step that leaves the agent where it is, and that one agent moves in each step, is the model's choice (log
entry 2). -/
def Obligations.ReadyStepsComplete : Prop :=
  ∀ s : State, Ready s → (∃ t, step s = .next t ∧ Ready t) ∨ (unpowered s = true ∧ step s = .fault .poweredOff)

/-- The machine is ready after reset.

What reset leaves where the manual says so (R161, R402, R444, R458, R460): core 0 of basin 0 runs as supervisor in space 0,
every other unit is idle, no configuration is installed, every queue is empty, every block is normal and no region is secure, the
black box is empty and the module is in PW0; memory is in its canonical form.

That nothing else is under way is part of being ready; the values the manual does not give are no part of the statement (log entry 1). -/
def Obligations.ResetState : Prop :=
  (Ready State.reset) ∧
  ((getCtl State.reset 1024).mode = .running ∧ (getCtl State.reset 1024).user = false ∧ (getCtl State.reset 1024).asn = 0 ∧
  (∀ u, u ≠ 1024 → (getCtl State.reset u).mode = .idle) ∧ State.reset.cfgs = [] ∧ (∀ q, tget [] State.reset.queues q = []) ∧
  (∀ k n, blockSecure State.reset k n = false) ∧ (∀ a, byteSecure State.reset a = false) ∧
  (∀ b, (tget {} State.reset.bbox b).seq = 0) ∧ State.reset.power = .pw0 ∧ Memory.wf State.reset.mem = true)

/-! ### Memory -/

/-- A write is read back, the byte at the lowest address holding bits 7:0, and every other byte reads as before (R2).

A write of bits changes these bits and no other (R208). -/
def Obligations.MemoryReadsBack : Prop :=
  (∀ (s : State) (pa n v : Nat), readNat (writeNat s pa n v) pa n = v % 256 ^ n ∧
    (∀ i, i < n → memByte (writeNat s pa n v) (pa + i) = BitVec.ofNat 8 (v / 256 ^ i)) ∧
    ∀ a, ¬ (pa ≤ a ∧ a < pa + n) → memByte (writeNat s pa n v) a = memByte s a) ∧
  (∀ (s : State) (b len v : Nat), readBits (writeBits s b len v) b len = v % 2 ^ len ∧
    ∀ a, ¬ (b ≤ a ∧ a < b + len) → bit (memByte (writeBits s b len v) (a / 8)).toNat (a % 8) = bit (memByte s (a / 8)).toNat (a % 8))

/-- Every step keeps memory in its canonical form: addresses strictly rising, no byte listed that equals what an unlisted one reads
as.

The canonical form is the model's own way to hold memory; that an unlisted byte reads 0 is log entry 10. -/
def Obligations.MemoryStaysCanonical : Prop :=
  ∀ s t : State, Memory.wf s.mem = true → step s = .next t → Memory.wf t.mem = true

/-! ### Registers -/

/-- G registers (R63, R424): a write is read back, other registers keep their value, Z reads 0 and discards writes, and the bank of a
handler is not the bank of the code it interrupts. -/
def Obligations.GRegisters : Prop :=
  (∀ (x : Ctl) (i j : Nat) (v : Word), i < 32 → (x.setG i v).g j = if j = i then v else x.g j) ∧
  (∀ (x : Ctl) (v : Word), x.g 44 = 0 ∧ x.setG 44 v = x) ∧
  (∀ (x : Ctl) (i : Nat) (v : Word), x.handler = true → (x.setG i v).bank0 = x.bank0) ∧
  (∀ (x : Ctl) (i : Nat) (v : Word), x.handler = false → (x.setG i v).bank1 = x.bank1)

/-- Where a cell's result goes (R102, R117, R310): a temporary takes it at once; a held register takes an output-buffer entry, the 17th
of which faults with ILLOP, and waits while a value of an earlier firing is on its way into it; Z discards it; a read-only specifier
faults with ILLREG. -/
def Obligations.CellDestinations : Prop :=
  ∀ (s : State) (c : Nat) (f : Firing) (d : Spec) (v : Nat),
    (d.toNat ≤ 7 → ∃ g, writeSpec s c f d v = .ok g ∧ g = { f with temps := g.temps } ∧
      ∀ n, n < 8 → g.temps.getD n 0 = if n = d.toNat then BitVec.ofNat 512 v else f.temps.getD n 0) ∧
    (∀ k, d.toNat = k + 8 → k < 32 →
      ((heldView (getCell s c) f k).1.st ≠ .empty →
        (f.out.length < 16 → writeSpec s c f d v = .ok { f with out := f.out ++ [.held k (BitVec.ofNat 512 v)] }) ∧
        (16 ≤ f.out.length → writeSpec s c f d v = .error (.trap (tIllop 2)))) ∧
      ((heldView (getCell s c) f k).1.st = .empty → (heldView (getCell s c) f k).1.err = false → (heldView (getCell s c) f k).2 = .none →
        writeSpec s c f d v = .error .stall)) ∧
    (d.toNat = 44 → writeSpec s c f d v = .ok f) ∧
    (40 ≤ d.toNat → d.toNat ≠ 44 → writeSpec s c f d v = .error (.trap { cause := cILLREG }))

/-! ### Arithmetic -/

/-- Integer arithmetic on a controller or core (R309, R315 to R322): IADD, ISUB, IMUL, IMULH, IMULHU, IMIN, IMAX, IMINU, IMAXU, IABS, AND,
OR, XOR, ANDN, SHL, SHR, SAR, ROL, CLZ, POPC, IADDI, ANDI, ORI, XORI, SHLI, SHRI, SARI, MOVI, BFX, BFX2, BFI, IOTA, SHUF, LANE, PACK,
UNPK, ICEQ, ICNE, ICLT, ICGE, ICLTU, ICGEU, SEL, MOVL, MOVL0, IADDL, ANDL and ORL read their G registers, write the result to their
destination (Z discards it) and change nothing else; an operand that the instruction refuses takes its trap. -/
def Obligations.ControllerArithmetic : Prop :=
  ∀ (i : Instr) (q : AluSem) (s : State) (u : Nat), aluOf i = some q → CtlRuns s u i →
    (∀ o, q.eval 64 {} (q.srcs.map fun p => readG s u p.1) = .ok o →
      ∃ t, exec i s = .next t ∧ OnlyCtl s t u ((behind s u i).setG q.dst.toNat (BitVec.ofNat 64 (o.vals.getD 0 0)))) ∧
    (∀ e, q.eval 64 {} (q.srcs.map fun p => readG s u p.1) = .error e → exec i s = .next (takeCtlTrap s u (getCtl s u).pc e))

/-- Every arithmetic instruction on a cell (R309 to R312): the 48 of `ControllerArithmetic` and FADD, FSUB, FMUL, FMIN, FMAX, FSCALE,
FFMA, FABS, FNEG, FRCP, FRSQ, FSQRT, FEXP2, FLOG2, FTANH, FCVT, FCEQ, FCLT, FCLE, FCUN, FCNE, FCGT, FCGE, FCLASS, the four BDOT, SCACC,
the four QNT, the four DEQ, VLUT_BF16, VLUT_F32, RSUM, RMAX, RMIN, SCAN, VSORT, VTOPK and VMERGE read their sources in field order, deliver
the result to their destination registers, add what they report to the firing and change nothing else; an operand that the
instruction refuses takes its trap. -/
def Obligations.CellArithmetic : Prop :=
  ∀ (i : Instr) (q : AluSem) (s : State) (c : Nat) (f : Firing) (vs : List (List Nat)), aluOf i = some q → CellRuns s c f i →
    q.srcs.mapM (fun p => readSpecs s c f p.1 p.2) = .ok vs →
    (∀ o g, q.eval 512 (rndCtx s c f) vs.flatten = .ok o → writeSpecs s c f q.dst o.vals = .ok g →
      ∃ t, exec i s = .next t ∧ FiringOn s t c i (g.report o.rep)) ∧
    (∀ e, q.eval 512 (rndCtx s c f) vs.flatten = .error e → exec i s = .next (firingFault s c f e))

/-- The lanes of INT (R315), for every lane type, on registers of 64 and of 512 bits. -/
def Obligations.IntLanes : Prop :=
  ∀ (W : Nat) (d a b : Spec) (m : BitVec 3) (x y i : Nat), LaneIn W (laneW m) i →
    let w := laneW m
    let X := bv w x i
    let Y := bv w y i
    let r := fun q : AluSem => laneOf q W [x, y] w i
    r (semIadd d a b m) = some (X + Y) ∧ r (semIsub d a b m) = some (X - Y) ∧ r (semImul d a b m) = some (X * Y) ∧
    r (semImulh d a b m) = some ((X.signExtend (2 * w) * Y.signExtend (2 * w)).extractLsb' w w) ∧
    r (semImulhu d a b m) = some ((X.zeroExtend (2 * w) * Y.zeroExtend (2 * w)).extractLsb' w w) ∧
    r (semImin d a b m) = some (if X.sle Y then X else Y) ∧ r (semImax d a b m) = some (if X.sle Y then Y else X) ∧
    r (semIminu d a b m) = some (if X ≤ Y then X else Y) ∧ r (semImaxu d a b m) = some (if X ≤ Y then Y else X) ∧
    r (semIabs d a m) = some (if X.msb then -X else X) ∧ r (semIand d a b m) = some (X &&& Y) ∧ r (semIor d a b m) = some (X ||| Y) ∧
    r (semIxor d a b m) = some (X ^^^ Y) ∧ r (semIandn d a b m) = some (X &&& ~~~Y) ∧
    r (semShl d a b m) = some (X <<< (Y.toNat % w)) ∧ r (semShr d a b m) = some (X >>> (Y.toNat % w)) ∧
    r (semSar d a b m) = some (X.sshiftRight (Y.toNat % w)) ∧ r (semRol d a b m) = some (X.rotateLeft (Y.toNat % w)) ∧
    (∀ n, r (semClz d a m) = some n ↔ n.toNat ≤ w ∧ (∀ j, j < n.toNat → X.getMsbD j = false) ∧ (n.toNat < w → X.getMsbD n.toNat = true)) ∧
    r (semPopc d a m) = some (BitVec.ofNat w ((List.range w).countP fun j => X.getLsbD j))

/-- The 32-bit lanes of INTI and of the long forms (R316, R317): the immediate is sign-extended to a lane, and MOVL0 writes lane 0
alone.

The lane masks of ICMP (R318) and the choice of SEL (R319). -/
def Obligations.ImmediateAndCompareLanes : Prop :=
  (∀ (W : Nat) (d a : Spec) (k : BitVec 11) (u : BitVec 32) (x i : Nat), LaneIn W 32 i →
    let X := bv 32 x i
    let K := k.signExtend 32
    let r := fun q : AluSem => laneOf q W [x] 32 i
    r (semIaddi d a k) = some (X + K) ∧ r (semAndi d a k) = some (X &&& K) ∧ r (semOri d a k) = some (X ||| K) ∧
    r (semXori d a k) = some (X ^^^ K) ∧ r (semShli d a k) = some (X <<< (k.toNat % 32)) ∧ r (semShri d a k) = some (X >>> (k.toNat % 32)) ∧
    r (semSari d a k) = some (X.sshiftRight (k.toNat % 32)) ∧ r (semMovi d k) = some K ∧ r (semMovl d u) = some u ∧
    r (semMovl0 d u) = some (if i = 0 then u else 0) ∧ r (semIaddl d a u) = some (X + u) ∧ r (semAndl d a u) = some (X &&& u) ∧
    r (semOrl d a u) = some (X ||| u)) ∧
  ((∀ (W : Nat) (d a b : Spec) (m : BitVec 3) (x y i : Nat), LaneIn W (laneW m) i →
    let w := laneW m
    let X := bv w x i
    let Y := bv w y i
    let mask := fun p : Bool => some (if p then BitVec.allOnes w else 0)
    let r := fun q : AluSem => laneOf q W [x, y] w i
    r (semIceq d a b m) = mask (X == Y) ∧ r (semIcne d a b m) = mask (X != Y) ∧ r (semIclt d a b m) = mask (X.slt Y) ∧
    r (semIcge d a b m) = mask (Y.sle X) ∧ r (semIcltu d a b m) = mask (X.ult Y) ∧ r (semIcgeu d a b m) = mask (Y.ule X)) ∧
  ∀ (W : Nat) (d a b c : Spec) (m : BitVec 2) (x y z i : Nat), LaneIn W (bitsW m.toNat) i →
    let w := bitsW m.toNat
    laneOf (semSel d a b c m) W [x, y, z] w i = some (if bv w z i ≠ 0 then bv w x i else bv w y i))

/-- The bits of BFX, BFX2 and BFI (R320, R321) and the lanes of IOTA, SHUF, LANE, PACK and UNPK (R320, R322). -/
def Obligations.BitFieldLanes : Prop :=
  ∀ (W : Nat) (d a b : Spec) (m : BitVec 3) (x y z i : Nat), LaneIn W (bitsW m.toNat) i →
    let w := bitsW m.toNat
    let n := W / w
    let C := lane w y i
    let pos := C % w
    let len := C / w % w + 1
    let hi := if i + 1 < n then bv w x (i + 1) else 0
    (∃ r, laneOf (semBfx d a b m) W [x, y] w i = some r ∧ ∀ j, j < w → r.getLsbD j = (decide (j < len) && (bv w x i).getLsbD (pos + j))) ∧
    (∃ r, laneOf (semBfx2 d a b m) W [x, y] w i = some r ∧ ∀ j, j < w → r.getLsbD j = (decide (j < len) && (hi ++ bv w x i).getLsbD (pos + j))) ∧
    (∃ r, laneOf (semBfi d a b m) W [z, x, y] w i = some r ∧
      ∀ j, j < w → r.getLsbD j = if pos ≤ j ∧ j < pos + len then (bv w x i).getLsbD (j - pos) else (bv w z i).getLsbD j) ∧
    laneOf (semIota d a m) W [x] w i = some (bv w x 0 + BitVec.ofNat w i) ∧
    laneOf (semShuf d a b m) W [x, y] w i = some (if C < n then bv w x C else 0) ∧
    laneOf (semLane d a b m) W [x, y] w i = (if y % 2 ^ 32 < n then some (bv w x (y % 2 ^ 32)) else none) ∧
    laneOf (semPack d a b m) W [x, y] w i =
      some (if i < n / 2 then (bv (2 * w) x i).truncate w else (bv (2 * w) y (i - n / 2)).truncate w) ∧
    (i < W / (2 * w) →
      let v := bv w x ((if y.testBit 0 then W / (2 * w) else 0) + i)
      laneOf (semUnpk d a b m) W [x, y] (2 * w) i = some (if y.testBit 1 then v.signExtend (2 * w) else v.zeroExtend (2 * w)))

namespace Sys2Proof.Claims
open Sys2Proof.Machine

/-- A finite value in units of `2^u`, for a `u` that is not above its exponent. -/
def units (u : Int) : Val → Int
  | .fin neg m e => (if neg then -1 else 1) * ((m * 2 ^ (e - u).toNat : Nat) : Int)
  | _ => 0

/-- `x` is less than `y`; no NaN is less than anything, or greater.  `2^-149` divides every finite value of F32, BF16 and F16. -/
def valLess : Val → Val → Prop
  | .inf s, .inf t => s = true ∧ t = false
  | .inf s, .fin .. => s = true
  | .fin .., .inf t => t = false
  | .fin n1 m1 e1, .fin n2 m2 e2 => units (-149) (.fin n1 m1 e1) < units (-149) (.fin n2 m2 e2)
  | _, _ => False

/-- `x` equals `y`: -0 equals +0, and no NaN equals anything. -/
def valEqual : Val → Val → Prop
  | .inf s, .inf t => s = t
  | .fin n1 m1 e1, .fin n2 m2 e2 => units (-149) (.fin n1 m1 e1) = units (-149) (.fin n2 m2 e2)
  | _, _ => False

/-- The lane is a mask of ones where the condition holds, and of zeros where it does not. -/
def Masks {w : Nat} (r : Option (BitVec w)) (p : Prop) : Prop := (p → r = some (BitVec.allOnes w)) ∧ (¬ p → r = some 0)

/-- The magnitude `h`, in units of `2^b`, is a point of the format's grid with an unbounded exponent (R294): up to `2^(m+1)` units of an
exponent that is not below that of the least subnormal; `even` asks for one whose least significant mantissa bit is 0. -/
def OnGrid (f : FFmt) (b : Int) (even : Bool) (h : Nat) : Prop :=
  ∃ (k : Nat) (q : Int), f.qmin ≤ q ∧ k ≤ 2 ^ (f.m + 1) ∧ (even = true → k % 2 = 0 ∧ (q = f.qmin ∨ 2 ^ f.m ≤ k)) ∧ h = k * 2 ^ (q - b).toNat

/-- An integer in units of `2^b` (R294), for `b ≤ 0`. -/
def OnIntegers (b : Int) (even : Bool) (h : Nat) : Prop := ∃ k : Nat, (even = true → k % 2 = 0) ∧ h = k * 2 ^ (-b).toNat

/-- Step 1 of R294, and R300: `g` is the point of the grid that the mode takes for the magnitude `a` of a value of the given sign.  `lo` and `hi` are
the points of the grid around `a`. -/
def Takes (grid : Bool → Nat → Prop) (mode : RMode) (neg : Bool) (a g : Nat) : Prop :=
  ∃ lo hi, grid false lo ∧ grid false hi ∧ lo ≤ a ∧ a < hi ∧ (∀ h, grid false h → h ≤ lo ∨ hi ≤ h) ∧
    (a = lo → g = lo) ∧
    (a ≠ lo → match mode with
      | .rne => (2 * a < lo + hi → g = lo) ∧ (lo + hi < 2 * a → g = hi) ∧ (2 * a = lo + hi → (g = lo ∨ g = hi) ∧ grid true g)
      | .rna => g = if 2 * a < lo + hi then lo else hi
      | .rtz => g = lo
      | .rdn => g = if neg then hi else lo
      | .rup => g = if neg then lo else hi
      | .sr r => g = if 65536 ≤ (a - lo) * 65536 / (hi - lo) + r then hi else lo)

/-- Round(fmt, mode, v × 2^u) of R294 is the code `c`, for a value that is not 0: the point that the mode takes, with the value's sign, or beyond
the greatest finite value what R296 gives. -/
def Rounds (f : FFmt) (mode : RMode) (v u : Int) (c : Nat) : Prop :=
  let b := min u f.qmin
  let neg := decide (v < 0)
  let top := f.maxMant * 2 ^ (f.qmax - b).toNat
  ∃ g, Takes (OnGrid f b) mode neg (v.natAbs * 2 ^ (u - b).toNat) g ∧
    (g ≤ top → c < 2 ^ f.width ∧ ∃ m e, f.decode c = .fin neg m e ∧ m * 2 ^ (e - b).toNat = g) ∧
    (top < g → c = if f.ieee = true ∧ (mode = .rne ∨ mode = .rna ∨ (mode = .rdn ∧ neg = true) ∨ (mode = .rup ∧ neg = false)) then f.infCode neg
      else f.signBit neg + f.maxCode)

/-- As `Rounds`, with the zero of the given sign for the value 0. -/
def RoundsTo (f : FFmt) (mode : RMode) (v u : Int) (zero : Bool) (c : Nat) : Prop := if v = 0 then c = f.signBit zero else Rounds f mode v u c

/-- The integer format's code of the value `v × 2^u` (R294, R296): the integer that the mode takes, or the nearer bound of the range. -/
def RoundsToInt (f : IFmt) (mode : RMode) (v u : Int) (c : Nat) : Prop :=
  let b := min u 0
  ∃ g, Takes (OnIntegers b) mode (decide (v < 0)) (v.natAbs * 2 ^ (u - b).toNat) (g * 2 ^ (-b).toNat) ∧
    c = (BitVec.ofInt f.w (max f.lo (min f.hi (if v < 0 then -(g : Int) else g)))).toNat

/-- Lane `i` of width `w` of the one register an arithmetic instruction of a firing delivers. -/
def laneIn (q : AluSem) (W : Nat) (x : RndCtx) (vs : List Nat) (w i : Nat) : Option Nat := match q.eval W x vs with
  | .ok o => o.vals.head?.map fun v => lane w v i
  | .error _ => none

end Sys2Proof.Claims

/-- NaN in, canonical NaN out, in F32, BF16 and F16 (R291, R324, R325, R327): FADD, FSUB, FMUL, FFMA, FMIN, FMAX and every op of FUN.

FABS clears and FNEG flips the sign bit of a lane that is no NaN, and neither reports anything (R327).

FCMP (R328): the mask of each row is its condition on the values: FCEQ equal, FCLT less, FCLE less or equal, FCUN a NaN on either side, FCNE not equal,
FCGT greater, FCGE greater or equal; -0 equals +0, no NaN is less than, equal to or greater than anything, and exactly one of less, equal, greater and
unordered holds.

The value of a lane of FADD, FSUB, FMUL, FSCALE and FFMA on finite operands is the exact result rounded once under the lane's mode (R294, R296,
R299, R300), with the sign that R324 and R326 give a zero.  A lane of FCVT into a floating-point or integer format is the rounded value of its source
element, or what R302 gives for a NaN. -/
def Obligations.FloatLanes : Prop :=
  (∀ (f : BitVec 2) (x y z : Nat) (mode : RMode), f.toNat ≤ 2 → (fpFmt f).decode x = .nan →
    (opFadd (fpFmt f) mode x y).code = (fpFmt f).nanCode ∧ (opFadd (fpFmt f) mode y x).code = (fpFmt f).nanCode ∧
    (opFsub (fpFmt f) mode x y).code = (fpFmt f).nanCode ∧ (opFsub (fpFmt f) mode y x).code = (fpFmt f).nanCode ∧
    (opFmul (fpFmt f) mode x y).code = (fpFmt f).nanCode ∧ (opFmul (fpFmt f) mode y x).code = (fpFmt f).nanCode ∧
    (opFma (fpFmt f) x y z).code = (fpFmt f).nanCode ∧ (opFma (fpFmt f) y x z).code = (fpFmt f).nanCode ∧
    (opFma (fpFmt f) y z x).code = (fpFmt f).nanCode ∧
    (∀ up, minMaxCode (fpFmt f) up x y = (fpFmt f).nanCode ∧ minMaxCode (fpFmt f) up y x = (fpFmt f).nanCode) ∧
    ∀ op, (funCode (fpFmt f) op x).code = (fpFmt f).nanCode) ∧
  (∀ (f : BitVec 2) (x : Nat), f.toNat ≤ 2 → x < 2 ^ (fpFmt f).width → (fpFmt f).decode x ≠ .nan →
    funCode (fpFmt f) 0 x = ⟨x % 2 ^ ((fpFmt f).width - 1), {}⟩ ∧
    funCode (fpFmt f) 1 x = ⟨x ^^^ 2 ^ ((fpFmt f).width - 1), {}⟩) ∧
  (∀ (W : Nat) (d a b : Spec) (f : BitVec 2) (x y i : Nat), f.toNat ≤ 2 → LaneIn W (fpFmt f).width i →
    let w := (fpFmt f).width
    let X := (fpFmt f).decode (lane w x i)
    let Y := (fpFmt f).decode (lane w y i)
    let r := fun j : Instr => (aluOf j).bind fun q => laneOf q W [x, y] w i
    let less := valLess X Y
    let equal := valEqual X Y
    let greater := valLess Y X
    let unordered := X = .nan ∨ Y = .nan
    Masks (r (.fceq d a b f)) equal ∧ Masks (r (.fclt d a b f)) less ∧ Masks (r (.fcle d a b f)) (less ∨ equal) ∧
    Masks (r (.fcun d a b f)) unordered ∧ Masks (r (.fcne d a b f)) (¬ equal) ∧ Masks (r (.fcgt d a b f)) greater ∧
    Masks (r (.fcge d a b f)) (greater ∨ equal) ∧
    (less ∨ equal ∨ greater ∨ unordered) ∧ ¬ (less ∧ equal) ∧ ¬ (less ∧ greater) ∧ ¬ (equal ∧ greater) ∧
    (unordered → ¬ less ∧ ¬ equal ∧ ¬ greater)) ∧
  (∀ (W : Nat) (d a b e : Spec) (f : BitVec 2) (m : BitVec 3) (k : RndCtx) (x y z i : Nat), f.toNat ≤ 2 → LaneIn W (fpFmt f).width i →
    let F := fpFmt f
    let w := F.width
    let X := F.decode (lane w x i)
    let Y := F.decode (lane w y i)
    let Z := F.decode (lane w z i)
    let mode := modeOf k m.toNat i
    let one := units (-149)
    X.finite = true →
    (Y.finite = true →
      (∃ c, laneIn (semFadd d a b f m) W k [x, y] w i = some c ∧
        RoundsTo F mode (one X + one Y) (-149) (if X.neg = Y.neg then X.neg else mode == .rdn) c) ∧
      (∃ c, laneIn (semFsub d a b f m) W k [x, y] w i = some c ∧
        RoundsTo F mode (one X - one Y) (-149) (if X.neg ≠ Y.neg then X.neg else mode == .rdn) c) ∧
      (∃ c, laneIn (semFmul d a b f m) W k [x, y] w i = some c ∧ RoundsTo F mode (one X * one Y) (-298) (X.neg != Y.neg) c) ∧
      (Z.finite = true →
        ∃ c, laneIn (semFfma d a b e f) W k [x, y, z] w i = some c ∧
          RoundsTo F .rne (one X * one Y + one Z * 2 ^ 149) (-298) ((X.neg != Y.neg) && (one X * one Y == 0) && Z.neg && (one Z == 0)) c)) ∧
    ∃ c, laneIn (semFscale d a b f m) W k [x, y] w i = some c ∧ RoundsTo F mode (one X) (-149 + (bv w y i).toInt) X.neg c) ∧
  (∀ (d a : Spec) (from_ : BitVec 6) (dst : BitVec 5) (m : BitVec 3) (k : RndCtx) (x i : Nat) (S T : NumFmt),
    numFmt from_.toNat = some S → numFmt dst.toNat = some T → i < 512 / max (fmtBits from_.toNat) (fmtBits dst.toNat) →
    let X := S.decode (lane (fmtBits from_.toNat) x i)
    ∃ c, laneIn (semFcvt d a from_ dst m) 512 k [x] (fmtBits dst.toNat) i = some c ∧
      (X = .nan → c = match T with | .flt F => F.nanCode | .int _ => 0 | .e8 => 0xFF) ∧
      ∀ neg n e, X = .fin neg n e → (match T with
        | .flt F => RoundsTo F (modeOf k m.toNat i) (units e X) e neg c
        | .int F => RoundsToInt F (modeOf k m.toNat i) (units e X) e c
        | .e8 => True))

/-! ### Controllers and cores -/

namespace Sys2Proof.Claims
open Sys2Proof.Machine

/-- The state an instruction of a unit acts on: the pc is already behind it. -/
def past (s : State) (u : Nat) (i : Instr) : State := setCtl s u (behind s u i)

/-- A jump of `x` to `target`: outside a handler, target 0 ends the routine (R163). -/
def jumped (x : Ctl) (target : Nat) : Ctl :=
  if target = 0 ∧ x.handler = false then { x with mode := .idle, pc := 0 } else { x with pc := target }

/-- The address `off` words from `pc`, in 64 bits. -/
def pcRel {n : Nat} (pc : Nat) (off : BitVec n) : Nat := (BitVec.ofNat 64 pc + 4 * off.signExtend 64).toNat

/-- As `OnlyCtl`, but the unit's own translation entry may be another (R414). -/
def OnlyCtlTlb (s t : State) (u : Nat) (x : Ctl) : Prop :=
  t = { s with ctls := t.ctls, tlbs := t.tlbs } ∧ getCtl t u = x ∧ (∀ v, v ≠ u → getCtl t v = getCtl s v) ∧ SameMem s t

/-- The condition of a branch row on its two registers (R150). -/
def branches : Instr → Option (GSpec × GSpec × BitVec 13 × (Word → Word → Bool))
  | .beq a b o => some (a, b, o, fun x y => x == y)
  | .bne a b o => some (a, b, o, fun x y => x != y)
  | .blt a b o => some (a, b, o, fun x y => x.slt y)
  | .bge a b o => some (a, b, o, fun x y => y.sle x)
  | .bltu a b o => some (a, b, o, fun x y => x.ult y)
  | .bgeu a b o => some (a, b, o, fun x y => y.ule x)
  | _ => none

end Sys2Proof.Claims

/-- BEQ, BNE, BLT, BGE, BLTU and BGEU (R150): the branch is taken, relative to its own pc, when the comparison of the two G registers
holds, and falls through otherwise; only the pc changes, or the routine ends at target 0 (R163).

JAL and JALR (R72, R151): the link receives pc + 4 and the unit goes on at the target, which JALR reads before it writes the link; a
target that is no multiple of 4 faults with ALIGN and writes nothing. -/
def Obligations.BranchesAndJumps : Prop :=
  (∀ (i : Instr) (a b : GSpec) (o : BitVec 13) (p : Word → Word → Bool) (s : State) (u : Nat), branches i = some (a, b, o, p) → CtlRuns s u i →
    let x := getCtl s u
    ∃ t, exec i s = .next t ∧ OnlyCtl s t u (if p (x.g a.toNat) (x.g b.toNat) then jumped (behind s u i) (pcRel x.pc o) else behind s u i)) ∧
  (∀ (s : State) (u : Nat) (l : GSpec),
    let x := getCtl s u
    let link := BitVec.ofNat 64 (x.pc + 4)
    (∀ o, CtlRuns s u (.jal l o) → pcRel x.pc o % 4 = 0 →
      ∃ t, exec (.jal l o) s = .next t ∧ OnlyCtl s t u (jumped ((behind s u (.jal l o)).setG l.toNat link) (pcRel x.pc o))) ∧
    (CtlRuns s u (.jalr l) → (x.g l.toNat).toNat % 4 = 0 →
      ∃ t, exec (.jalr l) s = .next t ∧ OnlyCtl s t u (jumped ((behind s u (.jalr l)).setG l.toNat link) (x.g l.toNat).toNat)) ∧
    (CtlRuns s u (.jalr l) → (x.g l.toNat).toNat % 4 ≠ 0 →
      exec (.jalr l) s = .next (takeCtlTrap s u x.pc (cause cALIGN 0 (x.g l.toNat).toNat))))

/-- LDC (R153 to R155): the bytes at G[a] + G[b], little-endian and extended by the code's sign, reach G[d]; nothing else changes but the
unit's own translation entry.

STC (R153 to R155): the low bytes of G[d] are in memory at G[a] + G[b] before the next instruction; every other byte, every register and
every other unit is unchanged, while no checkpoint is active and the bytes lie in no uncorrectable granule.  What the loads of running cells need
not have seen yet takes the write in (log entry 63).

The address checks of LDC and STC (R153, R193): an address beyond 56 bits faults with TRANSL, one that is no multiple of the size with
ALIGN, and nothing is read or written. -/
def Obligations.ControllerMemory : Prop :=
  (∀ (s : State) (u : Nat) (d a b : Spec) (m : BitVec 3) (pa : Nat) (e : TlbEntry), CtlRuns s u (.ldc d a b m) →
    let p := past s u (.ldc d a b m)
    let n := 2 ^ (m.toNat % 4)
    let va := (readG s u a + readG s u b) % 2 ^ 64
    va < 2 ^ 56 → va % n = 0 → translate p (ctlStream u) (ctlSrc p u (getCtl s u).pc) .read va n = .ok (pa, e) →
    poisonedRange s pa n = false → raceOf p ⟨0, ctlSrc p u (getCtl s u).pc, .load, [⟨pa * 8, n * 8, false, va⟩], 3, 0, 0⟩ = none →
    ∃ t, exec (.ldc d a b m) s = .next t ∧
      OnlyCtlTlb s t u ((behind s u (.ldc d a b m)).setG d.toNat
        (if m.toNat < 4 then BitVec.ofNat 64 (readNat s pa n) else (BitVec.ofNat (8 * n) (readNat s pa n)).signExtend 64))) ∧
  (∀ (s : State) (u : Nat) (d a b : Spec) (m : BitVec 2) (pa : Nat) (e : TlbEntry), CtlRuns s u (.stc d a b m) →
    let p := past s u (.stc d a b m)
    let n := 2 ^ m.toNat
    let va := (readG s u a + readG s u b) % 2 ^ 64
    va < 2 ^ 56 → va % n = 0 → translate p (ctlStream u) (ctlSrc p u (getCtl s u).pc) .write va n = .ok (pa, e) → s.drains = [] →
    poisonedRange s pa n = false → raceOf p ⟨0, ctlSrc p u (getCtl s u).pc, .store, [⟨pa * 8, n * 8, true, va⟩], 3, 0, 0⟩ = none →
    ∃ t, exec (.stc d a b m) s = .next t ∧ t = { s with ctls := t.ctls, tlbs := t.tlbs, mem := t.mem, views := t.views } ∧
      getCtl t u = behind s u (.stc d a b m) ∧ (∀ v, v ≠ u → getCtl t v = getCtl s v) ∧
      readNat t pa n = readG s u d % 256 ^ n ∧ ∀ x, ¬ (pa ≤ x ∧ x < pa + n) → memByte t x = memByte s x) ∧
  (∀ (s : State) (u : Nat) (d a b : Spec),
    let va := (readG s u a + readG s u b) % 2 ^ 64
    (∀ m, CtlRuns s u (.ldc d a b m) →
      (2 ^ 56 ≤ va → exec (.ldc d a b m) s = .next (takeCtlTrap s u (getCtl s u).pc (cause cTRANSL 0 va))) ∧
      (va < 2 ^ 56 → va % 2 ^ (m.toNat % 4) ≠ 0 → exec (.ldc d a b m) s = .next (takeCtlTrap s u (getCtl s u).pc (cause cALIGN 0 va)))) ∧
    (∀ m, CtlRuns s u (.stc d a b m) →
      (2 ^ 56 ≤ va → exec (.stc d a b m) s = .next (takeCtlTrap s u (getCtl s u).pc (cause cTRANSL 0 va))) ∧
      (va < 2 ^ 56 → va % 2 ^ m.toNat ≠ 0 → exec (.stc d a b m) s = .next (takeCtlTrap s u (getCtl s u).pc (cause cALIGN 0 va)))))

/-- CRD and CWR (R156): a permitted CRD writes the control register's value to G[d] alone; a permitted CWR of a value without reserved bits
is read back, and no other control register, no G register and no other unit changes.

The checks of CRD and CWR (R156, R157, R160, R422, R461): in user mode a supervisor register faults with PERM, detail MODE; an
unassigned register, a write of a read-only one and a reserved bit fault with ILLOP; nothing is read or written.

R156 lists its faults in no order: that user mode's PERM comes before the refusal of the direction and of a reserved bit is the model's choice (log
entry 56). -/
def Obligations.ControlRegisters : Prop :=
  (∀ (s : State) (u n : Nat) (k : BitVec 11), k.toNat = n →
    (∀ d, CtlRuns s u (.crd d k) → crCheck s u n false = .ok () →
      ∃ t, exec (.crd d k) s = .next t ∧ OnlyCtl s t u ((behind s u (.crd d k)).setG d.toNat (BitVec.ofNat 64 (crRead s u n)))) ∧
    (∀ a, CtlRuns s u (.cwr a k) → n ≠ 99 → n ≠ 100 → crCheck s u n true = .ok () → crFits n (readG s u a) = true →
      ∃ t, exec (.cwr a k) s = .next t ∧ t = { s with ctls := t.ctls, ttbase := t.ttbase, telbase := t.telbase } ∧
        crRead t u n = readG s u a ∧ (∀ j, j ≠ n → crRead t u j = crRead s u j) ∧ (∀ r, (getCtl t u).g r = (getCtl s u).g r) ∧
        (getCtl t u).pc = (getCtl s u).pc + 4 ∧ (∀ v, v ≠ u → getCtl t v = getCtl s v) ∧ SameMem s t)) ∧
  (∀ (s : State) (u n : Nat) (k : BitVec 11), k.toNat = n →
    (∀ d, CtlRuns s u (.crd d k) →
      (crKind (isCore u) n = .none → exec (.crd d k) s = .next (takeCtlTrap s u (getCtl s u).pc (tIllop 0))) ∧
      (crKind (isCore u) n = .superRead ∨ crKind (isCore u) n = .superWrite → (getCtl s u).user = true →
        exec (.crd d k) s = .next (takeCtlTrap s u (getCtl s u).pc (cause cPERM dMODE)))) ∧
    (∀ a, CtlRuns s u (.cwr a k) →
      (crKind (isCore u) n = .none ∨ crKind (isCore u) n = .readOnly → exec (.cwr a k) s = .next (takeCtlTrap s u (getCtl s u).pc (tIllop 0))) ∧
      (crKind (isCore u) n = .superRead ∨ crKind (isCore u) n = .superWrite → (getCtl s u).user = true →
        exec (.cwr a k) s = .next (takeCtlTrap s u (getCtl s u).pc (cause cPERM dMODE))) ∧
      (crCheck s u n true = .ok () → crFits n (readG s u a) = false → exec (.cwr a k) s = .next (takeCtlTrap s u (getCtl s u).pc (tIllop 0)))))

/-- DISPGO (R162): written by a supervisor, it starts an idle target that is in no handler at DISPPC with an empty bank 0 and the mode
and space asked for, and clears bit 0 of DISPGO; a target that is not idle keeps its state and the bit is set.

PWREQ (R461): written by a supervisor, 2 enters standby at once from PW1 and waits otherwise, and 0 withdraws what waits. -/
def Obligations.CommandRegisters : Prop :=
  (∀ (s : State) (u : Nat) (a : Spec), CtlRuns s u (.dispgo a) → (getCtl s u).user = false → crFits 99 (readG s u a) = true →
    (bit (readG s u a) 14 = true → bit (readG s u a) 15 = false ∧ bits (readG s u a) 4 6 = 0) →
    let v := readG s u a
    let g := if bit v 14 then 1024 + bits v 0 4 else bits v 0 10
    (unitSecure s g = true → unitSecure s u = true) →
    (((getCtl s g).mode = .idle ∧ (getCtl s g).handler = false) →
      ∃ t, exec (.dispgo a) s = .next t ∧ t = { s with ctls := t.ctls } ∧ getCtl t u = { behind s u (.dispgo a) with dispFail := false } ∧
        getCtl t g = { getCtl s g with mode := .running, pc := (getCtl s u).disppc.toNat, bank0 := [], user := bit v 15
                                       asn := if bit v 15 then bits v 16 8 else 0 } ∧
        (∀ w, w ≠ u → w ≠ g → getCtl t w = getCtl s w) ∧ SameMem s t) ∧
    (¬ ((getCtl s g).mode = .idle ∧ (getCtl s g).handler = false) →
      ∃ t, exec (.dispgo a) s = .next t ∧ OnlyCtl s t u { behind s u (.dispgo a) with dispFail := true })) ∧
  (∀ (s : State) (u : Nat) (a : Spec), (getCtl s u).user = false →
    (CtlRuns s u (.pwreqStandby a) → readG s u a = 2 →
      ∃ t, exec (.pwreqStandby a) s = .next t ∧ t = { s with ctls := t.ctls, power := t.power, pwreq := t.pwreq } ∧
        getCtl t u = behind s u (.pwreqStandby a) ∧ (∀ v, v ≠ u → getCtl t v = getCtl s v) ∧
        (t.power, t.pwreq) = (if s.power = .pw1 then (.pw2, 0) else (s.power, 2))) ∧
    (CtlRuns s u (.pwreqWithdraw a) → readG s u a = 0 →
      ∃ t, exec (.pwreqWithdraw a) s = .next t ∧ t = { s with ctls := t.ctls, pwreq := 0 } ∧ getCtl t u = behind s u (.pwreqWithdraw a) ∧
        ∀ v, v ≠ u → getCtl t v = getCtl s v))

/-! ### Exceptions of units -/

namespace Sys2Proof.Claims
open Sys2Proof.Machine

/-- The queue of supervisor core `v` has room, and no record waits for it (R429). -/
abbrev RecordRoom (s : State) (v : Nat) : Prop := (getCtl s v).queue.length < 64 ∧ (getCtl s v).parked = []

/-- As `OnlyCtl`, and the unit waits at no barrier any more. -/
def OnlyCtlWait (s t : State) (u : Nat) (x : Ctl) : Prop :=
  t = { s with ctls := t.ctls, barWaits := t.barWaits } ∧ getCtl t u = x ∧ (∀ v, v ≠ u → getCtl t v = getCtl s v) ∧ SameMem s t ∧
    findWait t u 0 = none

end Sys2Proof.Claims

/-- Taking a trap on a unit (R431, R428): outside a handler the unit halts at the faulting pc and its supervisor core, whose queue has room
(R429), receives a CONTROL record with the cause; a core in its handler halts for good and raises vector 1; a controller in its user
handler returns to the interrupted code with no record in force, and the record it held reaches its supervisor core escalated, with the
cause, the pc and the address of the fault in its handler. -/
def Obligations.UnitTraps : Prop :=
  ∀ (s : State) (u pc : Nat) (e : Trap), e.cause < 256 → e.inner < 256 → e.detail < 256 →
    ((getCtl s u).handler = false → ∀ v, (if isCore u then some u else superCore s u (unitSecure s u)) = some v → RecordRoom s v →
      ∃ r, (getCtl (takeCtlTrap s u pc e) v).queue = (getCtl s v).queue ++ [r] ∧ r.kind = kCONTROL ∧ r.unit = u ∧
        bits (r.w 0).toNat 56 8 = e.cause ∧ bits (r.w 0).toNat 40 8 = e.detail ∧ r.w 3 = BitVec.ofNat 64 e.addr ∧
        (getCtl (takeCtlTrap s u pc e) u).mode = .halted ∧ (getCtl (takeCtlTrap s u pc e) u).pc = pc ∧ SameMem s (takeCtlTrap s u pc e)) ∧
    ((getCtl s u).handler = true → isCore u = true →
      (getCtl (takeCtlTrap s u pc e) u).mode = .dead ∧ tget 0 (takeCtlTrap s u pc e).msix 1 = tget 0 s.msix 1 + 1) ∧
    ((getCtl s u).handler = true → isCore u = false →
      (getCtl (takeCtlTrap s u pc e) u).handler = false ∧ (getCtl (takeCtlTrap s u pc e) u).rcd = none ∧
      (getCtl (takeCtlTrap s u pc e) u).pc = (getCtl s u).saved.pc ∧ (getCtl (takeCtlTrap s u pc e) u).user = (getCtl s u).saved.user ∧
      (getCtl (takeCtlTrap s u pc e) u).mode = (getCtl s u).saved.mode ∧
      ∀ r v, (getCtl s u).rcd = some r → r.words.length = 24 → superCore s u (getCfg s r.cfg).secure = some v → RecordRoom s v →
        ∃ q, (getCtl (takeCtlTrap s u pc e) v).queue = (getCtl s v).queue ++ [q] ∧ bits (q.w 0).toNat 36 1 = 1 ∧
          bits (q.w 7).toNat 48 8 = e.cause ∧ q.w 21 = BitVec.ofNat 64 pc ∧ q.w 22 = BitVec.ofNat 64 e.addr)

/-- TRAP_TAKE and SUPERVISOR_TRAP_TAKE (R424, R429): at a boundary the unit takes the oldest record of its queue, saves pc, mode and space,
clears bank 1 and enters its handler: a controller in user mode at W5 of the record's configuration, a core as supervisor at SVVEC
with EPC holding the interrupted pc.  A stall that the handler interrupts is given up: it starts anew behind the handler (R424). -/
def Obligations.HandlerEntry : Prop :=
  ∀ (s : State) (u : Nat) (r : TrapRec) (q : List TrapRec), (getCtl s u).queue = r :: q →
    (s.turn = .event .trapTake u → isCore u = false → trapReady (getCtl s u) = true → recordDue s r = true →
      ∃ t, exec .trapTake s = .next t ∧
        OnlyCtlWait s t u (enterHandler (getCtl s u) u r q ((getCfg s r.cfg).w 5) true (getCfg s r.cfg).asn) ∧
        (getCtl t u).bank0 = (getCtl s u).bank0 ∧ (∀ n, (getCtl t u).g n = 0) ∧ (getCtl t u).saved.pc = (getCtl s u).pc ∧
        (getCtl t u).pc = (getCfg s r.cfg).w 5 ∧ (getCtl t u).user = true ∧ (getCtl t u).deadline = none ∧ (getCtl t u).pld = none) ∧
    (s.turn = .event .supervisorTrapTake u → isCore u = true → superReady (getCtl s u) = true →
      ∃ t, exec .supervisorTrapTake s = .next t ∧
        OnlyCtlWait s t u { enterHandler (getCtl s u) u r q (getCtl s u).svvec.toNat false 0 with epc := BitVec.ofNat 64 (getCtl s u).pc } ∧
        (getCtl t u).bank0 = (getCtl s u).bank0 ∧ (∀ n, (getCtl t u).g n = 0) ∧ (getCtl t u).pc = (getCtl s u).svvec.toNat ∧ (getCtl t u).user = false)

/-- SVC (R433, R431): the unit halts at the SVC, and its supervisor core, whose queue has room, receives a record of kind SVC with W3 = b, W4 = G[a], word and cell 0
and the unit's grove; what resolves it (`svcResult`, which FRES and FSKIP apply) writes G[d] and lets the unit go on at pc + 4.  In a handler
SVC faults with ILLOP. -/
def Obligations.SupervisorCall : Prop :=
  ∀ (s : State) (u : Nat) (d a b : Spec), CtlRuns s u (.svc d a b) →
    ((getCtl s u).handler = false → ∀ v, (if isCore u then some u else superCore s u (unitSecure s u)) = some v → RecordRoom s v →
      ∃ t r, exec (.svc d a b) s = .next t ∧ t = { s with ctls := t.ctls } ∧ (getCtl t v).queue = (getCtl s v).queue ++ [r] ∧
        r.kind = kSVC ∧ r.unit = u ∧ r.w 3 = BitVec.ofNat 64 b.toNat ∧ r.w 4 = BitVec.ofNat 64 (readG s u a) ∧
        bits (r.w 0).toNat 16 8 = 0 ∧ bits (r.w 0).toNat 10 6 = 0 ∧ (isCore u = false → bits (r.w 1).toNat 26 10 = u) ∧
        (∀ w, (getCtl (svcResult t u w) u).mode = .running ∧ (getCtl (svcResult t u w) u).pc = (getCtl s u).pc + 4 ∧
          (d.toNat < 32 → (getCtl (svcResult t u w) u).g d.toNat = w)) ∧
        (getCtl t u).mode = .halted ∧ (getCtl t u).pc = (getCtl s u).pc ∧ (getCtl t u).svcDst = d.toNat ∧
        (∀ n, (getCtl t u).g n = (getCtl s u).g n) ∧ SameMem s t) ∧
    ((getCtl s u).handler = true → exec (.svc d a b) s = .next (takeCtlTrap s u (getCtl s u).pc (tIllop 0)))

/-- ERET (R437): in a supervisor handler it ends the handler and goes on at EPC with bank 0 as it was, every frame as it stands (R430), and the
core may take its next queued record; in user mode it faults with PERM, detail MODE, and elsewhere with ILLOP (R432). -/
def Obligations.ExceptionReturn : Prop :=
  ∀ (s : State) (u : Nat), CtlRuns s u .eret →
    ((getCtl s u).user = false → isCore u = true → (getCtl s u).handler = true →
      ∃ t, exec .eret s = .next t ∧ OnlyCtl s t u { endHandler (getCtl s u) with pc := (getCtl s u).epc.toNat, midway := false } ∧
        (∀ n, (getCtl t u).g n = if n < 32 then tget 0 (getCtl s u).bank0 n else 0) ∧
        ((getCtl s u).queue ≠ [] → (getCtl s u).svvec ≠ 0 → (getCtl s u).wait = none → (getCtl s u).saved.mode ≠ .dead → superReady (getCtl t u) = true)) ∧
    ((getCtl s u).user = true → exec .eret s = .next (takeCtlTrap s u (getCtl s u).pc (cause cPERM dMODE))) ∧
    ((getCtl s u).user = false → ¬ (isCore u = true ∧ (getCtl s u).handler = true) →
      exec .eret s = .next (takeCtlTrap s u (getCtl s u).pc (tIllop 0)))

/-- FRES, FSKIP and ESCAL (R427, R432 to R436).  On an unresolved frame record that a handler holds, FRES lets the frame go on and FSKIP
skips it, and either resolves the record; on an SVC record they give the issuer G[a] or all ones and let it go on behind its SVC;
on a CONTROL record the unit goes on at its instruction or behind it, and on the record of a job that a controller or core issued, for which
no frame stopped, either only resolves it.  ESCAL queues the record at the supervisor with esc set and
ends the user handler; the frame stays stopped.  With no record in force each faults with ILLOP.

What resolving does (R433 to R435): a resumed unit runs at the given pc; an SVC's result is in bank 0 of its issuer, which runs behind
its SVC; a skipped frame is no longer stopped, has no token and owns no accumulator set.

R434 speaks of a frame: that the record of a job without one is only resolved is the model's choice (log entries 47 and 65). -/
def Obligations.Resolution : Prop :=
  (∀ (s : State) (u : Nat) (a : Spec) (r : TrapRec),
    (CtlRuns s u (.fres a) → resolvable (past s u (.fres a)) u = .ok r →
      (r.frameless = true → exec (.fres a) s = .next (resolved (past s u (.fres a)) u)) ∧
      (r.kind ≤ 2 → r.frameless = false → exec (.fres a) s = .next (resolved (resumeFrame (past s u (.fres a)) r.cfg r.frame) u)) ∧
      (r.kind = kSVC → exec (.fres a) s = .next (resolved (svcResult (past s u (.fres a)) r.unit (BitVec.ofNat 64 (readG s u a))) u)) ∧
      (r.kind = kCONTROL →
        exec (.fres a) s = .next (resolved (resumeUnit (past s u (.fres a)) r.unit (haltedPc (past s u (.fres a)) r.unit)) u))) ∧
    (CtlRuns s u .fskip → resolvable (past s u .fskip) u = .ok r →
      (r.frameless = true → exec .fskip s = .next (resolved (past s u .fskip) u)) ∧
      (r.kind ≤ 2 → r.frameless = false → exec .fskip s = .next (resolved (skipFrame (past s u .fskip) r.cfg r.frame) u)) ∧
      (r.kind = kSVC → exec .fskip s = .next (resolved (svcResult (past s u .fskip) r.unit (BitVec.allOnes 64)) u)) ∧
      (r.kind = kCONTROL → exec .fskip s = .next (resolved (resumeUnit (past s u .fskip) r.unit
        (haltedPc (past s u .fskip) r.unit + (if longMajor (r.w 2).toNat then 8 else 4))) u))) ∧
    (CtlRuns s u .escal → isCore u = false → inForce (getCtl s u) = some r → ∀ v, superCore s u (getCfg s r.cfg).secure = some v →
      RecordRoom s v →
      ∃ t, exec .escal s = .next t ∧ t = { s with ctls := t.ctls, cfgs := t.cfgs } ∧ (getCtl t v).queue = (getCtl s v).queue ++ [r.escalated] ∧
        getCtl t u = endHandler (behind s u .escal) ∧ (getFrame t r.cfg r.frame).stopped.isSome = (getFrame s r.cfg r.frame).stopped.isSome) ∧
    (inForce (getCtl s u) = none →
      (CtlRuns s u (.fres a) → exec (.fres a) s = .next (takeCtlTrap s u (getCtl s u).pc (tIllop 0))) ∧
      (CtlRuns s u .fskip → exec .fskip s = .next (takeCtlTrap s u (getCtl s u).pc (tIllop 0))) ∧
      (CtlRuns s u .escal → exec .escal s = .next (takeCtlTrap s u (getCtl s u).pc (tIllop 0))))) ∧
  ((∀ (s : State) (v pc : Nat), (getCtl s v).handler = false →
    (getCtl (resumeUnit s v pc) v).mode = .running ∧ (getCtl (resumeUnit s v pc) v).pc = pc) ∧
  (∀ (s : State) (v : Nat) (w : Word), (getCtl s v).handler = false → (getCtl s v).svcDst < 32 →
    (getCtl (svcResult s v w) v).g (getCtl s v).svcDst = w ∧ (getCtl (svcResult s v w) v).pc = (getCtl s v).pc + 4) ∧
  (∀ (s : State) (cfg fr : Nat) (k : Cfg), findCfg s cfg = some k →
    (getFrame (skipFrame s cfg fr) cfg fr).stopped = none ∧ (getFrame (skipFrame s cfg fr) cfg fr).skipped = true ∧
    (∀ c t, t ∈ (getCell (skipFrame s cfg fr) c).tokens → ¬ (t.cfg = cfg ∧ t.frame = fr)) ∧
    ∀ g k', (tget {} (getGrove (skipFrame s cfg fr) g).sets k').owner ≠ some (cfg, fr)))

namespace Sys2Proof.Claims
open Sys2Proof.Machine

/-- The access of an issuer at a virtual address may have used a translation entry of the address and space named; none names every one.  A page is
at most 1 GiB. -/
def Uses (va asn : Option Nat) (x : Src) (v : Nat) : Prop := (∀ n, asn = some n → x.asn = n) ∧ ∀ a, va = some a → v / 2 ^ 30 = a / 2 ^ 30

/-- The walk may give an entry of the address and space. -/
def walksFor (va asn : Option Nat) : Work → Bool
  | .walk _ n v _ => asn.all (· == n) && va.all fun a => a / 2 ^ 30 == v / 2 ^ 30
  | _ => false

/-- Nothing that may have used an entry of the address and space is under way: no check, access, update of a barrier or checkpoint. -/
def NoneUses (s : State) (va asn : Option Nat) : Prop :=
  (∀ f, f ∈ s.inflight → ∀ r, r ∈ f.ranges → ¬ Uses va asn f.src r.va) ∧ (∀ b, b ∈ heldBars s → ¬ Uses va asn b.src b.va) ∧
  (∀ l, l ∈ s.drains → ∀ c, c ∈ l.2 → ¬ Uses va asn c.src c.blockVa) ∧
  ∀ w, w ∈ s.work → match w with
    | .check f => ∀ r, r ∈ f.ranges → ¬ Uses va asn f.src r.va
    | .store a | .atomic a | .contrib a _ => ∀ p, p ∈ a.pieces → ¬ Uses va asn a.src p.va
    | _ => True

end Sys2Proof.Claims

/-- TLBINV (R416): a supervisor's TLBINV of an address below 2^56 and a space below 256, or of every one, completes in every state in which nothing is
under way that may have used an entry of them; no holder keeps an entry of the address and space and every other entry stays, no walk for
them is left, all other work is kept in its order, and nothing else changes.  Where something is under way, the same is removed and the unit waits at
its TLBINV.

In user mode it faults with PERM, detail MODE; an address from 2^56 on and a space above 255 fault with BOUNDS. -/
def Obligations.TranslationInvalidate : Prop :=
  ∀ (s : State) (u : Nat) (a b : Spec), CtlRuns s u (.tlbinv a b) →
    let va := if a.toNat = 44 then none else some (readG s u a)
    let asn := if b.toNat = 44 then none else some (readG s u b)
    ((getCtl s u).user = false → va.getD 0 < 2 ^ 56 → asn.getD 0 ≤ 255 →
      ∃ t, exec (.tlbinv a b) s = .next t ∧ t = { s with ctls := t.ctls, tlbs := t.tlbs, work := t.work } ∧
        (NoneUses s va asn → getCtl t u = behind s u (.tlbinv a b)) ∧ (¬ NoneUses s va asn → getCtl t u = getCtl s u) ∧
        (∀ v, v ≠ u → getCtl t v = getCtl s v) ∧ (∀ l, l ∈ t.tlbs → ∀ e, e ∈ l.2 → tlbHit va asn e = false) ∧
        (∀ k l e, (k, l) ∈ s.tlbs → e ∈ l → tlbHit va asn e = false → ∃ r, (k, r) ∈ t.tlbs ∧ e ∈ r) ∧
        t.work = s.work.filter fun w => !walksFor va asn w) ∧
    ((getCtl s u).user = true → exec (.tlbinv a b) s = .next (takeCtlTrap s u (getCtl s u).pc (cause cPERM dMODE))) ∧
    ((getCtl s u).user = false → 2 ^ 56 ≤ va.getD 0 → exec (.tlbinv a b) s = .next (takeCtlTrap s u (getCtl s u).pc (tBounds (va.getD 0)))) ∧
    ((getCtl s u).user = false → va.getD 0 < 2 ^ 56 → 255 < asn.getD 0 →
      exec (.tlbinv a b) s = .next (takeCtlTrap s u (getCtl s u).pc (tBounds (asn.getD 0))))

/-- The four SMC rows (R407): the supervisor's unit first sends its request to Troira and waits at the instruction; once the reply has come,
the instruction writes it to G[d] and completes; in user mode it faults with PERM, detail MODE.

That Troira's answer is a step of its own is the model's choice (log entry 2). -/
def Obligations.SecureMonitorCalls : Prop :=
  ∀ (i : Instr) (d a b : Spec) (s : State) (u : Nat),
    (i = .smcSetblk d a b ∨ i = .smcSetrgn d a b ∨ i = .smcGetblk d a b ∨ i = .smcGetrgn d a b) → CtlRuns s u i →
    ((getCtl s u).user = false → ∀ n w, (getCtl s u).wait = some n → (getCtl s u).reply = some w →
      ∃ t, exec i s = .next t ∧ OnlyCtl s t u { (behind s u i).setG d.toNat w with wait := none, reply := none }) ∧
    ((getCtl s u).user = false → (getCtl s u).wait = none →
      ∃ t, exec i s = .next t ∧ t = { s with ctls := t.ctls, nextId := s.nextId + 1, work := s.work ++ [.smc u s.nextId (readG s u a) (readG s u b) (getCtl s u).asn] } ∧
        getCtl t u = { getCtl s u with wait := some s.nextId, reply := none, midway := true }) ∧
    ((getCtl s u).user = true → exec i s = .next (takeCtlTrap s u (getCtl s u).pc (cause cPERM dMODE)))

/-- BBOX and BBOX_WR (R446): a supervisor reads the four words of event G[a] of basin G[b] into the quad at d, zeros where the box no longer
or not yet holds it, and BBOX_WR appends a SOFT event to the basin of the unit. -/
def Obligations.BlackBoxAccess : Prop :=
  ∀ (s : State) (u : Nat) (d a b : Spec), (getCtl s u).user = false →
    (CtlRuns s u (.bbox d a b) → readG s u b ≤ 3 →
      let x := tget {} s.bbox (readG s u b)
      let n := readG s u a
      let e : BitVec 256 := if x.seq ≤ n ∨ n + 4096 < x.seq then 0 else tget 0 x.events (n % 4096)
      ∃ t, exec (.bbox d a b) s = .next t ∧ t = { s with ctls := t.ctls } ∧
        (∀ k, k < 4 → (getCtl t u).g (d.toNat + k) = e.extractLsb' (64 * k) 64) ∧
        (∀ r, r < d.toNat ∨ d.toNat + 4 ≤ r → (getCtl t u).g r = (getCtl s u).g r) ∧ (getCtl t u).pc = (getCtl s u).pc + 4 ∧
        ∀ v, v ≠ u → getCtl t v = getCtl s v) ∧
    (CtlRuns s u (.bboxWr a b) →
      ∃ t, exec (.bboxWr a b) s = .next t ∧ t = { s with ctls := t.ctls, bbox := t.bbox } ∧ getCtl t u = behind s u (.bboxWr a b) ∧
        (tget {} t.bbox (basinOfUnit u)).seq = (tget {} s.bbox (basinOfUnit u)).seq + 1 ∧
        ∃ e : BitVec 256, tget 0 (tget {} t.bbox (basinOfUnit u)).events ((tget {} s.bbox (basinOfUnit u)).seq % 4096) = e ∧
          bits e.toNat 120 8 = 8 ∧ bits e.toNat 128 64 = readG s u a ∧ bits e.toNat 192 64 = readG s u b)

/-- The CKPT rows (R451, R452).  CKPT and CKPT_REST pass the checks of their block, given here in R451's order, and answer 0 with the job entered last in the
basin's drain engine, 1 when the engine holds four, or 2 when regions overlap; CKPT_POLL and CKPT_WAIT return W3 of the header, CKPT_WAIT
once its state is not 1; CKPT_ABORT takes the block out of its engine with state 4 and returns W3, which is all it does where no engine
holds the block.

That a block which the issuer may not write is refused with the reads of it, and that BUSY is answered before OVERLAP, are the model's choices (log
entry 34). -/
def Obligations.Checkpoints : Prop :=
  ∀ (s : State) (u : Nat) (d a : Spec),
    (∀ i rest hd v b ps, (i = .ckpt d a ∧ rest = false) ∨ (i = .ckptRest d a ∧ rest = true) → CtlRuns s u i →
      let p := past s u i
      let pc := (getCtl s u).pc
      let x := ctlSrc p u pc
      let va := readG s u a
      let n := bits hd 0 7
      let es := ckptEntries v n
      let basin := basinOfUnit u
      let held := tget [] s.drains basin
      let busy := 4 ≤ held.length
      let meets := ckptOverlap ((ps.zipIdx).flatMap fun e => e.1.map fun q => (e.2, q)) = true ∨
        ∃ c, c ∈ held ∧ ∃ r, r ∈ c.regions ∧ ∃ q, q ∈ ps.flatten ∧ bytesMeet r.1 r.2.2 q.1 q.2.2 = true
      ctlBlock p u pc va 64 64 = .ok hd → translate p (ctlStream u) x .write va 64 = .ok b → 1 ≤ n → n ≤ 64 →
      ctlBlock p u pc va (64 + 32 * n) 64 = .ok v → bits v 7 57 = 0 → bits v 64 128 = 0 → bits v 228 4 = 0 → bits v 320 192 = 0 →
      (∀ e, e ∈ es → bits e.w0 56 8 = 0 ∧ bits e.w1 36 28 = 0 ∧ bits e.w2 56 8 = 0 ∧ e.w3 = 0 ∧ e.len ≠ 0 ∧ e.len % 4096 = 0 ∧
        e.src % 4096 = 0 ∧ e.dst % 4096 = 0 ∧ ckptMapped p x e.src e.len = .ok () ∧ ckptMapped p x e.dst e.len = .ok ()) →
      (es.map CkptEntry.len).sum < 2 ^ 36 →
      (x.secure = true ∨ blockSecure s 5 basin = false) → (∃ pa, walkCheck p (drainSrc p basin x) .write va 64 = .ok pa) →
      es.mapM (fun e => (ckptParts e.src e.dst e.len).mapM (ckptAllowed p (drainSrc p basin x) rest)) = .ok ps →
      (busy → exec i s = .next (writeG p u d 1)) ∧ (¬ busy → meets → exec i s = .next (writeG p u d 2)) ∧
      (¬ busy → ¬ meets → (rest = true → ∀ c, c.regions = ps.flatten → raceOf p ⟨0, x, .job, ckptFoot c, 3, 0, 0⟩ = none) →
        ∃ t l c, exec i s = .next t ∧ getCtl t u = (behind s u i).setG d.toNat 0 ∧ tget [] t.drains basin = l ++ [c] ∧ (s.drains = [] → l = []) ∧
          c.rest = rest ∧ c.bytes = 0 ∧ c.block = b.1 ∧ c.regions = ps.flatten ∧ c.pending = granulesOf ps.flatten)) ∧
    (∀ i, i = .ckptPoll d a ∨ i = .ckptWait d a → CtlRuns s u i →
      ∀ h, ctlBlock (past s u i) u (getCtl s u).pc (readG s u a) 64 64 = .ok h → (i = .ckptPoll d a ∨ bits h 240 16 ≠ 1) →
      ∃ t, exec i s = .next t ∧ OnlyCtl s t u ((behind s u i).setG d.toNat (BitVec.ofNat 64 (bits h 192 64)))) ∧
    (CtlRuns s u (.ckptWait d a) → ∀ h, ctlBlock (past s u (.ckptWait d a)) u (getCtl s u).pc (readG s u a) 64 64 = .ok h → bits h 240 16 = 1 →
      exec (.ckptWait d a) s = .next s) ∧
    (CtlRuns s u (.ckptAbort d a) → ∀ h pa e, ctlBlock (past s u (.ckptAbort d a)) u (getCtl s u).pc (readG s u a) 64 64 = .ok h →
      translate (past s u (.ckptAbort d a)) (ctlStream u) (ctlSrc (past s u (.ckptAbort d a)) u (getCtl s u).pc) .read (readG s u a) 64 = .ok (pa, e) →
      ((∀ l, l ∈ s.drains → ∀ c, c ∈ l.2 → c.block ≠ pa) →
        exec (.ckptAbort d a) s = .next (writeG (past s u (.ckptAbort d a)) u d (readWord s (pa + 24)))) ∧
      (∀ b c, (s.drains.findSome? fun l => (l.2.find? fun k => k.block == pa).map fun k => (l.1, k)) = some (b, c) →
        ∃ t, exec (.ckptAbort d a) s = .next t ∧ (∀ k, k ∈ tget [] t.drains b → k.id ≠ c.id) ∧
          (getCtl t u).pc = (getCtl s u).pc + 4 ∧ (getCtl t u).g d.toNat = (if d.toNat < 32 then BitVec.ofNat 64 (readWord t (pa + 24)) else 0) ∧
          (s.poison = [] → readWord t (pa + 24) = ckptWord 4 0 c.bytes)))

/-! ### Emission, held registers, END (cells) -/

namespace Sys2Proof.Claims
open Sys2Proof.Machine

/-- A usable route of the firing's context: enabled, and of the data or the predicate kind (R129). -/
abbrev Usable (s : State) (c : Nat) (f : Firing) (d : Nat) (pred : Bool) : Prop :=
  ((getCell s c).route f.ctx d).en = true ∧ (4 ≤ ((getCell s c).route f.ctx d).port ↔ pred = true)

/-- The iteration tag that operand `b` with value `w` gives (R130): the firing's own for Z. -/
def tagBy (f : Firing) (b : Spec) (w : Nat) : Nat := if b.toNat = 44 then f.itag else w % 2 ^ 32

/-- The firing after it has sent token `t` on its route `d` (R131): one entry more, one emission counted. -/
def emits (s : State) (c : Nat) (f : Firing) (d : Nat) (t : Token) : Firing :=
  { f with out := f.out ++ [.emit d (routeDest (getCfg s f.cfg) ((getCell s c).route f.ctx d)) t]
           emitted := f.emitted.set d (f.emitted.getD d 0 + 1) }

/-- The token of a route, as the firing stands (R131, R134). -/
def tokenOn (s : State) (c : Nat) (f : Firing) (d : Nat) : Token :=
  let r := (getCell s c).route f.ctx d
  { ctx := r.ctx, port := r.port, itag := f.itag, frame := f.frame, cfg := f.cfg, route := routeKey c f.ctx d }

/-- The firing with an entry more. -/
def adds (f : Firing) (e : Entry) : Firing := { f with out := f.out ++ [e] }

/-- The check message of a footprint (R227), with the sequence group or placement handle that it names; none for an empty one. -/
def footCheck (src : Src) (foot : List Range) (scope : Nat) (group : Nat := 0) (handle : Nat := 0) : List Work :=
  if foot = [] then [] else [.check ⟨0, src, .job, foot, scope, group, handle⟩]

/-- The instruction appends a command with footprint `foot`, whose check is sent at once. -/
def Queues (s t : State) (c : Nat) (f : Firing) (i : Instr) (k : Cmd) (held : Option Nat) (foot : List Range) (scope : Nat)
    (group : Nat := 0) (handle : Nat := 0) : Prop :=
  FiringSends s t c i (adds f (.cmd k held)) (footCheck (firingSrc s c f) foot scope group handle)

end Sys2Proof.Claims

/-- EMIT, EMITZ, EMITQ and BOUND (R131, R135, R137, R138): one entry with the payload captured now, the firing's frame, and the tag of
operand b (the firing's own for Z); nothing else changes.

EMITN (R136): lanes 0 to 2 of b give the count, the last flag, and on request the tag and the frame; the payload keeps the valid lanes
alone.

A 17th entry, a disabled route and a route of the other kind fault with ILLOP (R102, R129): EMIT takes that trap and sends nothing. -/
def Obligations.Emissions : Prop :=
  (∀ (s : State) (c : Nat) (f : Firing) (d a b : Spec) (m : BitVec 3) (v w : Nat), f.out.length < 16 →
    readSpec s c f b = .ok w → (b.toNat = 44 ∨ w % 2 ^ 32 < 2 ^ 24) →
    (CellRuns s c f (.emit d a b m) → Usable s c f d.toNat false → readSpec s c f a = .ok v →
      ∃ t, exec (.emit d a b m) s = .next t ∧ FiringOn s t c (.emit d a b m) (emits s c f d.toNat
        { tokenOn s c f d.toNat with itag := tagBy f b w, width := m.toNat, count := classCount m.toNat
                                     payload := BitVec.ofNat 512 (v % 2 ^ classBits m.toNat) })) ∧
    (CellRuns s c f (.emitz d b m) → Usable s c f d.toNat false →
      ∃ t, exec (.emitz d b m) s = .next t ∧ FiringOn s t c (.emitz d b m) (emits s c f d.toNat
        { tokenOn s c f d.toNat with itag := tagBy f b w, width := m.toNat, count := classCount m.toNat })) ∧
    (CellRuns s c f (.emitq d a b) → Usable s c f d.toNat true → readSpec s c f a = .ok v →
      ∃ t, exec (.emitq d a b) s = .next t ∧ FiringOn s t c (.emitq d a b) (emits s c f d.toNat
        { tokenOn s c f d.toNat with pred := true, itag := tagBy f b w, payload := if v % 2 ^ 32 ≠ 0 then 1 else 0 })) ∧
    (CellRuns s c f (.bound d a b) → Usable s c f d.toNat false → readSpec s c f a = .ok v → 1 ≤ v % 2 ^ 32 → v % 2 ^ 32 < 2 ^ 24 →
      ∃ t, exec (.bound d a b) s = .next t ∧ FiringOn s t c (.bound d a b) (emits s c f d.toNat
        { tokenOn s c f d.toNat with itag := tagBy f b w, payload := BitVec.ofNat 512 (v % 2 ^ 32) }))) ∧
  (∀ (s : State) (c : Nat) (f : Firing) (d a b : Spec) (m : BitVec 3) (v w : Nat), f.out.length < 16 → CellRuns s c f (.emitn d a b m) →
    Usable s c f d.toNat false → readSpec s c f a = .ok v → readSpec s c f b = .ok w →
    let n := bits w 0 8
    let k := classUnit m.toNat
    bits w 11 21 = 0 → 1 ≤ n → n ≤ k * (classCount m.toNat + 1) → n % k = 0 → (bit w 9 = true → bits w 56 8 = 0) →
    (bit w 10 = true → bits w 74 22 = 0) →
    ∃ t, exec (.emitn d a b m) s = .next t ∧ FiringOn s t c (.emitn d a b m) (emits s c f d.toNat
      { tokenOn s c f d.toNat with
          itag := if bit w 9 then bits w 32 24 else f.itag, frame := if bit w 10 then bits w 64 10 else f.frame, width := m.toNat
          last := bit w 8, count := n / k - 1, payload := BitVec.ofNat 512 (v % 2 ^ classBits m.toNat % 2 ^ (n * classLane m.toNat)) })) ∧
  (∀ (s : State) (c : Nat) (f : Firing) (d a b : Spec) (m : BitVec 3), CellRuns s c f (.emit d a b m) →
    (¬ Usable s c f d.toNat false → exec (.emit d a b m) s = .next (firingFault s c f (tIllop 0))) ∧
    (Usable s c f d.toNat false → 16 ≤ f.out.length → ∀ v w, readSpec s c f a = .ok v → readSpec s c f b = .ok w → b.toNat = 44 →
      exec (.emit d a b m) s = .next (firingFault s c f (tIllop 2))))

/-- END and NOP (R132, R139): END checks that every enabled route has sent as often as its rate says; where it has, the firing ends and
waits for its checks, and where it has not, it faults with ILLOP at END.  NOP only moves on. -/
def Obligations.EndAndNop : Prop :=
  ∀ (s : State) (c : Nat) (f : Firing),
    (CellRuns s c f .endFiring → f.race = none → f.fault = none →
      (∀ k, k < 4 → ((getCell s c).route f.ctx k).en = true → f.emitted.getD k 0 = ((getCell s c).route f.ctx k).rate) →
      ∃ t, exec .endFiring s = .next t ∧ OnlyFiring s t c { f with phase := .ending, word := f.word + 1 }) ∧
    (CellRuns s c f .endFiring →
      (∃ k, k < 4 ∧ ((getCell s c).route f.ctx k).en = true ∧ f.emitted.getD k 0 ≠ ((getCell s c).route f.ctx k).rate) →
      exec .endFiring s = .next (firingFault s c f (tIllop 3))) ∧
    (CellRuns s c f .nop → ∃ t, exec .nop s = .next t ∧ OnlyFiring s t c { f with word := f.word + 1 })

namespace Sys2Proof.Claims
open Sys2Proof.Machine

/-- The registers that an instruction of a recipe reads. -/
def recipeSrcs (q : AluSem) : List Nat := q.srcs.flatMap fun p => (List.range p.2).map fun j => (p.1.toNat + j) % 64

/-- What it reads: of register `k`, which the recipe rebuilds, the value `v` that the words before have given it; of another held register its value; of
Z zero (R120). -/
def recipeArgs (x : Cell) (f : Firing) (k v : Nat) (q : AluSem) : List Nat :=
  (recipeSrcs q).map fun n => if n < 8 ∨ 40 ≤ n then 0 else if n = k + 8 then v else (heldView x f (n - 8)).1.value.toNat

/-- The arithmetic words of a recipe rebuild register `k` from `v` to `r`, every other register they read being FULL (R120, R121). -/
def Rebuilds (s : State) (c : Nat) (f : Firing) (k : Nat) : List Instr → Nat → Nat → Prop
  | [], v, r => r = v
  | i :: is, v, r => ∃ q o, aluOf i = some q ∧ specsUsable (getCell s c) f.ctx (regsOf i) = true ∧
      (∀ n, n ∈ recipeSrcs q → 8 ≤ n → n < 40 → n ≠ k + 8 →
        (heldView (getCell s c) f (n - 8)).1.st = .full ∧ (heldView (getCell s c) f (n - 8)).1.err = false) ∧
      q.eval 512 (rndCtx s c f) (recipeArgs (getCell s c) f k v q) = .ok o ∧ Rebuilds s c f k is (o.vals.getD 0 0 % 2 ^ 512) r

end Sys2Proof.Claims

/-- HREC, HREC_CLR, HDROP and HFILL (R142 to R144): the tag, its clearing and the drop are entries of the output buffer; HDROP asks for a
tag and no producer of the same firing, and has no effect on a register that is DROPPED already; HFILL of a FULL register without fill
error does nothing, and of an EMPTY one waits, whatever the policy, or faults: ILLOP where the firing itself is the producer, ECCUNC on a fill error.

A read of a DROPPED register, and HFILL, replay its recipe first (R120): its words in order, its own register reading 0 at first; then the register is
FULL in the cell with the result and its tag, whatever becomes of the firing, nothing else changes, and the instruction, tried again,
reads the result.  Of a failing replay the fault is RECIPE (R121); inside one an EMPTY register fails with FULLEMPTY and a DROPPED one at depth 2
with RECIPE.  That the replay is a step before the instruction is log entry 55.

HSTAT and HCAP (R145, R146): HSTAT delivers the register's state in bits 1:0, the fill error in bit 3, the tag in bits 7:4 with bit 8,
and the policy in bit 9; HCAP delivers the cell's capacity. -/
def Obligations.HeldRegisters : Prop :=
  (∀ (s : State) (c : Nat) (f : Firing) (d b : Spec) (k : Nat), d.toNat = k + 8 → k < 32 → f.out.length < 16 →
    let h := (heldView (getCell s c) f k).1
    (CellRuns s c f (.hrec d b) → recipeFits (getCell s c) b.toNat k = true →
      ∃ t, exec (.hrec d b) s = .next t ∧ FiringOn s t c (.hrec d b) (adds f (.hrec k (some b.toNat)))) ∧
    (CellRuns s c f (.hrecClr d) → h.st ≠ .dropped →
      ∃ t, exec (.hrecClr d) s = .next t ∧ FiringOn s t c (.hrecClr d) (adds f (.hrec k none))) ∧
    (CellRuns s c f (.hdrop d) → h.tag.isSome = true → ownProducer f k = false → (h.st = .empty → h.err = true) →
      ∃ t, exec (.hdrop d) s = .next t ∧ FiringOn s t c (.hdrop d)
        (adds f (.hdrop k (h.st != .dropped)))) ∧
    (CellRuns s c f (.hfill d) →
      (h.st = .full → h.err = false → ∃ t, exec (.hfill d) s = .next t ∧ FiringOn s t c (.hfill d) f) ∧
      (h.st = .empty → (heldView (getCell s c) f k).2 = .none → h.err = false → exec (.hfill d) s = .next (stallCell s c f)) ∧
      (h.st = .empty → (heldView (getCell s c) f k).2 ≠ .none → exec (.hfill d) s = .next (firingFault s c f (tIllop 0))) ∧
      (h.err = true → h.st ≠ .dropped → (heldView (getCell s c) f k).2 = .none →
        exec (.hfill d) s = .next (firingFault s c f (cause cECCUNC))))) ∧
  (∀ (s : State) (c : Nat) (f : Firing) (k : Nat) (h : HeldReg) (own : Own), k < 32 → heldView (getCell s c) f k = (h, own) →
    (getCell s c).firing = some f →
    (h.st = .dropped → f.memo k = none →
      (∀ n w m is r, h.tag = some n → recipeOf (getCell s c) n = some (w, m) → recipeInstrs (getCell s c) m w = .ok is → Rebuilds s c f k is 0 r →
        ∃ t g, readHeld s c f k = .error (.redo t) ∧ (∀ d, d.toNat = k + 8 → CellRuns s c f (.hfill d) → exec (.hfill d) s = .next t) ∧
          t = { s with cells := t.cells } ∧ (∀ e, e ≠ c → getCell t e = getCell s e) ∧ SameMem s t ∧ g = { f with replayed := g.replayed } ∧
          getCell t c = { getCell s c with held := (getCell t c).held, firing := some g } ∧
          tget {} (getCell t c).held k = { tget {} (getCell s c).held k with value := BitVec.ofNat 512 r, st := .full, err := false } ∧
          (∀ j, j ≠ k → tget {} (getCell t c).held j = tget {} (getCell s c).held j) ∧ readHeld t c g k = .ok (BitVec.ofNat 512 r).toNat) ∧
      (∀ e, replayWith s c f (readInRecipe s c f 1) k h.tag = .error (.trap e) → e.cause = cRECIPE ∧ readHeld s c f k = .error (.trap e) ∧
        ∀ d, d.toNat = k + 8 → CellRuns s c f (.hfill d) → exec (.hfill d) s = .next (firingFault s c f e)) ∧
      readInRecipe s c f 0 k = .error (.trap (cause cRECIPE))) ∧
    (h.st = .empty → ∀ n, readInRecipe s c f n k = .error (.trap (cause cFULLEMPTY))) ∧
    (h.st = .empty → own = .none → h.err = false →
      readHeld s c f k = (if trapPolicy (getCell s c) f.ctx k then .error (.trap (cause cFULLEMPTY)) else .error .stall))) ∧
  (∀ (s : State) (c : Nat) (f g : Firing) (d a : Spec),
    (∀ k, a.toNat = k + 8 → k < 32 → CellRuns s c f (.hstat d a) →
      let h := (heldView (getCell s c) f k).1
      ∀ v, bits v 0 2 = (match h.st with | .full => 0 | .empty => 1 | .dropped => 2) → bit v 2 = false → bit v 3 = h.err →
        bits v 4 4 = h.tag.getD 0 % 16 → bit v 8 = h.tag.isSome → bit v 9 = trapPolicy (getCell s c) f.ctx k → v < 1024 →
        writeSpec s c f d v = .ok g → ∃ t, exec (.hstat d a) s = .next t ∧ FiringOn s t c (.hstat d a) g) ∧
    (CellRuns s c f (.hcap d) → writeSpec s c f d (getCell s c).hcap = .ok g →
      ∃ t, exec (.hcap d) s = .next t ∧ FiringOn s t c (.hcap d) g))

/-- Taking a trap on a firing (R106, R113, R421, R423): once its checks have returned the firing is withdrawn with no effect, its tokens
are back in front of the cell's others, its frame is stopped with a FIRING record of the cause, and the record is queued at the
cell's controller, which has room for it, when the configuration names a handler; memory is unchanged.

TRAP and BRKP (R148, R149): TRAP faults the firing with cause USER, b as code and the low 64 bits of a as value; BRKP faults with BRK
when BRKEN of the cell's controller is 1 and does nothing otherwise. -/
def Obligations.FiringTraps : Prop :=
  (∀ (s : State) (c : Nat) (f : Firing) (e : Trap) (k : Cfg), (getCell s c).firing = some f → f.race = none →
    checksPending s f.uid = false → findCfg s f.cfg = some k → k.st ≠ .saved → (k.frame f.frame).stopped = none → k.w 5 ≠ 0 → c < 65536 →
    (getCtl s (groveOf c)).queue.length < 32 → (getCtl s (groveOf c)).parked = [] → e.cause < 256 → e.inner < 256 → e.detail < 256 →
    let t := firingFault s c f e
    (getCell t c).firing = none ∧ (getCell t c).tokens = f.inputs ++ (getCell s c).tokens ∧ (getCell t c).held = (getCell s c).held ∧
    ∃ r, (getFrame t f.cfg f.frame).stopped = some r ∧ (getCtl t (groveOf c)).queue = insertRecord r (getCtl s (groveOf c)).queue ∧
      r.kind = kFIRING ∧ bits (r.w 0).toNat 56 8 = e.cause ∧ bits (r.w 0).toNat 40 8 = e.detail ∧ r.w 3 = BitVec.ofNat 64 e.addr ∧
      r.frame = f.frame ∧ r.cfg = f.cfg ∧ SameMem s t) ∧
  (∀ (s : State) (c : Nat) (f : Firing) (a b : Spec) (v : Nat),
    (CellRuns s c f (.trap a b) → readSpec s c f a = .ok v →
      exec (.trap a b) s = .next (firingFault s c f { cause := cUSER, addr := b.toNat, aux := v % 2 ^ 64 })) ∧
    (CellRuns s c f (.brkp b) → bit (getCtl s (groveOf c)).dbgctl.toNat 0 = true →
      exec (.brkp b) s = .next (firingFault s c f { cause := cBRK, addr := b.toNat })) ∧
    (CellRuns s c f (.brkp b) → bit (getCtl s (groveOf c)).dbgctl.toNat 0 = false →
      ∃ t, exec (.brkp b) s = .next t ∧ FiringOn s t c (.brkp b) f))

/-! ### Memory instructions (cells) -/

namespace Sys2Proof.Claims
open Sys2Proof.Machine

/-- The load rows with what they read. -/
def loads : Instr → Option (LoadOp × Spec × Spec × BitVec 3 × BitVec 2 × BitVec 1 × BitVec 3)
  | .ld d a r o p s => some (.ld, d, a, r, o, p, s)
  | .ldb d a r o p s => some (.ldb, d, a, r, o, p, s)
  | .ldx d a r o p s => some (.ldx, d, a, r, o, p, s)
  | .ldg d a r o p s => some (.ldg, d, a, r, o, p, s)
  | .ldgx d a r o p s => some (.ldgx, d, a, r, o, p, s)
  | _ => none

/-- The store rows with what they write. -/
def stores : Instr → Option (StoreOp × Spec × Spec × BitVec 3 × BitVec 2 × BitVec 1 × BitVec 3)
  | .st d a r o p s => some (.st, d, a, r, o, p, s)
  | .stx d a r o p s => some (.stx, d, a, r, o, p, s)
  | .stnf d a r o p s => some (.stnf, d, a, r, o, p, s)
  | .stg d a r o p s => some (.stg, d, a, r, o, p, s)
  | _ => none

/-- The atomic rows with their operations. -/
def atomics : Instr → Option (Nat × Spec × Spec × BitVec 3 × BitVec 2 × BitVec 1 × BitVec 3)
  | .aadd d a r o p s => some (1, d, a, r, o, p, s)
  | .amin d a r o p s => some (2, d, a, r, o, p, s)
  | .amax d a r o p s => some (3, d, a, r, o, p, s)
  | .axch d a r o p s => some (4, d, a, r, o, p, s)
  | .acas d a r o p s => some (5, d, a, r, o, p, s)
  | .aor d a r o p s => some (6, d, a, r, o, p, s)
  | .aand d a r o p s => some (7, d, a, r, o, p, s)
  | _ => none

/-- The firing after the done token that ordout = 1 appends (R233): width class `cls`, of the instruction's scope (R215), waiting for access
`acc`. -/
def withDone (s : State) (c : Nat) (f : Firing) (p : BitVec 1) (cls : Nat) (sc : BitVec 3) (acc : Option Nat) (ordw : Bool) : Firing :=
  if p = 1 then
    let r := (getCell s c).route f.ctx 3
    let t := { tokenOn s c f 3 with width := cls, count := classCount cls, scope := sc.toNat }
    { f with out := f.out ++ [.done (routeDest (getCfg s f.cfg) r) t acc ordw]
             emitted := f.emitted.set 3 (f.emitted.getD 3 0 + 1) }
  else f

/-- The ordering fields are usable: every ordering input has a port with a rate, and a done token a data route. -/
abbrev Ordered (s : State) (c : Nat) (f : Firing) (o : BitVec 2) (p : BitVec 1) : Prop :=
  ordinOk (getCell s c) f.ctx o.toNat = true ∧ (p = 1 → Usable s c f 3 false)

/-- The check message of a load, store, atomic or close of the firing (R227); none when it touches nothing. -/
def accessCheck (src : Src) (id : Nat) (k : AccKind) (ps : List Piece) (wr : Bool) (scope group : Nat) : List Work :=
  if ps = [] then [] else [.check ⟨id, src, k, rangesOf ps wr, scope, group, 0⟩]

/-- From `s` to `t` only cell `c` may have seen more of the write events of others. -/
abbrev OthersSee (s t : State) (c : Nat) : Prop := ∀ e, e ≠ c → getViews t e = getViews s e

/-- From `s` to `t` cell `c` has seen every write so far, and no other cell has. -/
abbrev SeesAll (s t : State) (c : Nat) : Prop := getViews t c = [] ∧ OthersSee s t c

/-- The element of `len` bits at virtual bit address `b` (R199) stands at the physical bits `l`: first bit, number, and offset in the element.  It is cut
where a page of 64 KiB ends, and each part is translated and checked for itself. -/
def ElemAt (s : State) (m : Mem) (k : Acs) (b len : Nat) (l : List (Nat × Nat × Nat)) : Prop :=
  let cut := (b / 524288 + 1) * 524288
  (b + len ≤ cut → ∃ q, translate s m.st m.src k (b / 8) (byteSpan b len) = .ok q ∧ l = [(q.1 * 8 + b % 8, len, 0)]) ∧
  (cut < b + len → ∃ q r, translate s m.st m.src k (b / 8) (byteSpan b (cut - b)) = .ok q ∧
    translate s m.st m.src k (cut / 8) (byteSpan cut (b + len - cut)) = .ok r ∧
    l = [(q.1 * 8 + b % 8, cut - b, 0), (r.1 * 8, b + len - cut, cut - b)])

/-- `v` is what the firing reads at the bits `l` (R103, R217): each bit as its latest own store so far leaves it, or as memory holds it. -/
def Reads (s : State) (f : Firing) (l : List (Nat × Nat × Nat)) (v : Nat) : Prop :=
  v < 2 ^ (l.map fun p => p.2.1).sum ∧ ∀ p, p ∈ l → ∀ n, n < p.2.1 →
    bit v (p.2.2 + n) = match (storePieces f).reverse.find? fun q => q.bit ≤ p.1 + n && p.1 + n < q.bit + q.len with
      | some q => bit q.val (p.1 + n - q.bit)
      | none => bit (memByte s ((p.1 + n) / 8)).toNat ((p.1 + n) % 8)

/-- The register value `r` of a load holds `x` where element `k` lies (R235, R237, R238, R242). -/
def Holds (l : LoadOp) (len r k x : Nat) : Prop := match l with
  | .ld => lane len r k = x
  | .ldb => ∀ j, j < 512 / len → lane len r j = x
  | .ldx | .ldg | .ldgx => lane 32 r k = x

end Sys2Proof.Claims

/-- LD, LDB, LDX, LDG and LDGX (R103, R231 to R238, R242): the elements at the offset are read now, under the firing's own stores; the value goes
to the destination at once, or lands in a held register after commit; with ordout a done token follows; the check leaves for the
owners, and no byte of memory changes.  An access that the watchpoint catches (R438) is the firing's WATCH fault instead.

Element `k` is read at the address of R199 for its offset, each part of a page translated for itself; an element OUTSIDE its record reads 0.  LD lays
the elements down as R235 says, LDB repeats the one, LDX and LDGX widen each into 32 bits (R238) and LDG extends it with zeros.  This is said
where no write event is left that the cell need not have seen, whose choice is log entry 63. -/
def Obligations.Loads : Prop :=
  (∀ (i : Instr) (l : LoadOp) (d a : Spec) (r : BitVec 3) (o : BitVec 2) (p : BitVec 1) (sc : BitVec 3) (s : State) (c : Nat) (f g : Firing)
    (rc : Rec) (off : Nat) (v : Loaded), loads i = some (l, d, a, r, o, p, sc) → CellRuns s c f i → f.out.length < 15 → Ordered s c f o p →
    useRecord (getCell s c) f.ctx r.toNat false = .ok rc → readSpec s c f a = .ok off → loadCore s (memOf s c f) l rc off = .ok v →
    v.err = none →
    (match heldIdx d with
      | some k => writeWait s c f k = .ok () ∧ g = adds f (.fill k (BitVec.ofNat 512 v.value) false)
      | none => writeSpec s c f d v.value = .ok g) →
    (watchHit s c false v.pieces = none →
      ∃ t id, exec i s = .next t ∧ s.nextId ≤ id ∧ getViews t c = v.views ∧ OthersSee s t c ∧
        FiringSends { s with views := t.views } t c i (withDone s c g p 0 sc (some s.nextId) false)
          (accessCheck (firingSrc s c f) id .load v.pieces false sc.toNat 0)) ∧
    (∀ b, watchHit s c false v.pieces = some b →
      ∃ t, exec i s = .next (firingFault t c (withDone s c g p 0 sc (some s.nextId) false) { cause := cWATCH, addr := b }) ∧ t.mem = s.mem)) ∧
  (∀ (l : LoadOp) (s : State) (c : Nat) (f : Firing) (rc : Rec) (off k e : Nat) (v : Loaded), getViews s c = [] →
    loadCore s (memOf s c f) l rc off = .ok v → (l.offs rc.bits off)[k]? = some e →
    (rc.elem e = .ok .outside → Holds l rc.bits v.value k 0) ∧
    ∀ b, rc.elem e = .ok (.at_ b) → ∃ q x, ElemAt s (memOf s c f) .read b rc.bits q ∧ Reads s f q x ∧
      Holds l rc.bits v.value k (match l with
        | .ld | .ldb => x
        | .ldg => x % 2 ^ 32
        | .ldx | .ldgx => widenLane rc.fmt x % 2 ^ 32)) ∧
  (∀ off k, (∀ n, k < n → (vecOffs n off)[k]? = some (off % 2 ^ 64 + k)) ∧ (k < 16 → (laneOffs off)[k]? = some (lane 32 off k)))

/-- ST, STX, STNF and STG (R239 to R242): value and addresses are captured in one entry, the report of the conversion goes to the firing, with
ordout a done token follows, the check leaves for the owners; no byte of memory changes before the commit.

AADD, AMIN, AMAX, AXCH, ACAS, AOR and AAND (R243 to R247): operands and addresses are captured in one entry (ACAS takes the pair at d), with
ordout a done token of 512 bits follows for the old values, and the check leaves for the owners.

Element `k` of the access is captured at the address of R199 for its offset, each part of a page translated for itself, with the part's bits
of its value; an element OUTSIDE its record has no piece.  ST's value is the lane of the element's width, STG's the low bits of its 32-bit
lane, STX's and STNF's the 32-bit lane rounded once into the format (R294, R301); a non-finite one is +0 for STNF, and under nf0 (R241).  An atomic's
operands are lanes `k` of its registers, of 64 bits for 64-bit elements and of 32 otherwise. -/
def Obligations.StoresAndAtomics : Prop :=
  (∀ (i : Instr) (l : StoreOp) (d a : Spec) (r : BitVec 3) (o : BitVec 2) (p : BitVec 1) (sc : BitVec 3) (s : State) (c : Nat) (f : Firing)
    (rc : Rec) (v off : Nat) (z : Stored), stores i = some (l, d, a, r, o, p, sc) → CellRuns s c f i → f.out.length < 15 →
    Ordered s c f o p → useRecord (getCell s c) f.ctx r.toNat true = .ok rc → readSpec s c f d = .ok v → readSpec s c f a = .ok off →
    storeCore s (memOf s c f) l rc ((getCell s c).record f.ctx r.toNat) v off sc.toNat s.nextId = .ok z →
    (watchHit s c true z.acc.pieces = none →
      ∃ t, exec i s = .next t ∧ z.acc.id = s.nextId ∧ z.acc.op = 0 ∧
        FiringSends s t c i ((withDone s c (adds f (.access z.acc)) p 0 sc (some s.nextId) false).report z.rep)
          (accessCheck (firingSrc s c f) s.nextId .store z.acc.pieces true sc.toNat rc.seq)) ∧
    (∀ b, watchHit s c true z.acc.pieces = some b →
      ∃ t, exec i s = .next (firingFault t c (withDone s c (adds f (.access z.acc)) p 0 sc (some s.nextId) false) { cause := cWATCH, addr := b }) ∧
        t.mem = s.mem)) ∧
  (∀ (i : Instr) (op : Nat) (d a : Spec) (r : BitVec 3) (o : BitVec 2) (p : BitVec 1) (sc : BitVec 3) (s : State) (c : Nat) (f : Firing)
    (rc : Rec) (vs : List Nat) (off : Nat) (z : Acc), atomics i = some (op, d, a, r, o, p, sc) → CellRuns s c f i → f.out.length < 15 →
    Ordered s c f o p → useRecord (getCell s c) f.ctx r.toNat true = .ok rc →
    readSpecs s c f d (if op = 5 then 2 else 1) = .ok vs → readSpec s c f a = .ok off →
    atomicCore s (memOf s c f) op rc ((getCell s c).record f.ctx r.toNat) (vs.getD 0 0) (vs.getD 1 0) off sc.toNat s.nextId = .ok z →
    (watchHit s c true z.pieces = none →
      ∃ t, exec i s = .next t ∧ z.id = s.nextId ∧ z.op = op ∧
        FiringSends s t c i (withDone s c (adds f (.access z)) p 2 sc (some s.nextId) false)
          (accessCheck (firingSrc s c f) s.nextId .atomic z.pieces true sc.toNat rc.seq)) ∧
    (∀ b, watchHit s c true z.pieces = some b →
      ∃ t, exec i s = .next (firingFault t c (withDone s c (adds f (.access z)) p 2 sc (some s.nextId) false) { cause := cWATCH, addr := b }) ∧
        t.mem = s.mem)) ∧
  (∀ (s : State) (c : Nat) (f : Firing) (rc : Rec) (raw : BitVec 256) (v w off scope id k e : Nat),
    (∀ (l : StoreOp) (z : Stored), storeCore s (memOf s c f) l rc raw v off scope id = .ok z → (l.offs rc.bits off)[k]? = some e →
      (rc.elem e = .ok .outside → ∀ p, p ∈ z.acc.pieces → p.k ≠ k) ∧
      ∀ b, rc.elem e = .ok (.at_ b) → ∃ q, ElemAt s (memOf s c f) .write b rc.bits q ∧
        (z.acc.pieces.filter fun p => p.k = k).map (fun p => (p.bit, p.len, p.val2)) = q ∧
        ∀ p, p ∈ z.acc.pieces → p.k = k → p.val = (l.elem rc f.itag v k (b / 8)).1 >>> p.val2 % 2 ^ p.len) ∧
    (∀ (op : Nat) (z : Acc), atomicCore s (memOf s c f) op rc raw v w off scope id = .ok z →
      let lw := if rc.bits = 64 then 64 else 32
      k < 512 / lw →
      (rc.elem (off % 2 ^ 64 + k) = .ok .outside → ∀ p, p ∈ z.pieces → p.k ≠ k) ∧
      ∀ b, rc.elem (off % 2 ^ 64 + k) = .ok (.at_ b) → ∃ q, ElemAt s (memOf s c f) .atomic b rc.bits q ∧
        (z.pieces.filter fun p => p.k = k).map (fun p => (p.bit, p.len)) = q.map (fun p => (p.1, p.2.1)) ∧
        ∀ p, p ∈ z.pieces → p.k = k → p.val = lane lw v k ∧ p.val2 = lane lw w k)) ∧
  (∀ (rc : Rec) (itag v k va : Nat),
    (rc.nf0 = false → (StoreOp.st.elem rc itag v k va).1 = lane rc.bits v k ∧ (StoreOp.stg.elem rc itag v k va).1 = lane 32 v k % 2 ^ rc.bits) ∧
    (∀ F, numFmt rc.fmt = some (.flt F) → rc.nf0 = true →
      (StoreOp.st.elem rc itag v k va).1 = (if (F.decode (lane rc.bits v k)).finite = false then 0 else lane rc.bits v k)) ∧
    ∀ l : StoreOp, l = .stx ∨ l = .stnf →
      let x := fF32.decode (lane 32 v k)
      let mode := modeOfRecord rc.round rc.seed va itag
      (∀ F, numFmt rc.fmt = some (.flt F) →
        (∀ neg n e, x = .fin neg n e → RoundsTo F mode (units e x) e neg (l.elem rc itag v k va).1) ∧
        (x.finite = false → l = .stnf ∨ rc.nf0 = true → (l.elem rc itag v k va).1 = 0) ∧
        (x = .nan → l = .stx → rc.nf0 = false → (l.elem rc itag v k va).1 = F.nanCode)) ∧
      ∀ F, numFmt rc.fmt = some (.int F) → RoundsToInt F mode (bv 32 v k).toInt 0 (l.elem rc itag v k va).1)

/-- SEQCL, ORD and ORDW (R250, R251): SEQCL appends the close of its record's group, with the barrier that register a names, and a done token of
128 bits, and the check of its region leaves for the owners (R227); ORD and ORDW append the done token that waits for the firing's earlier memory events, ORDW's for its earlier jobs too. -/
def Obligations.OrderingInstructions : Prop :=
  ∀ (s : State) (c : Nat) (f : Firing) (o : BitVec 2) (p : BitVec 1) (sc : BitVec 3), Ordered s c f o p → f.out.length < 15 →
    (∀ a r rc off z, CellRuns s c f (.seqcl a r o p sc) → useRecord (getCell s c) f.ctx r.toNat false = .ok rc →
      (a.toNat ≠ 0 → readSpec s c f a = .ok off) →
      seqclCore s (memOf s c f) rc ((getCell s c).record f.ctx r.toNat)
        (if a.toNat = 0 then none else some (off % 2 ^ 64)) sc.toNat s.nextId = .ok z →
      ∃ t, exec (.seqcl a r o p sc) s = .next t ∧ z.1.group = rc.seq ∧
        FiringSends s t c (.seqcl a r o p sc) (withDone s c (adds f (.close z.1 z.2)) p 1 sc (some s.nextId) false)
          (accessCheck (firingSrc s c f) s.nextId .close z.1.pieces true sc.toNat rc.seq)) ∧
    (p = 1 → CellRuns s c f (.ord o p sc) →
      ∃ t, exec (.ord o p sc) s = .next t ∧ FiringOn s t c (.ord o p sc) (withDone s c f p 0 sc none false)) ∧
    (p = 1 → CellRuns s c f (.ordw o p sc) →
      ∃ t, exec (.ordw o p sc) s = .next t ∧ FiringOn s t c (.ordw o p sc) (withDone s c f p 0 sc none true))

/-! ### Streams, tags, barriers -/

/-- SCOPY, SXFORM and SCANCEL on a cell (R253 to R256, R260): the checked copy job, or the mask, is an entry of the output buffer; a job that
names a token counts one emission on its route.

SCOPY, SXFORM, SBIND and SCANCEL on a controller (R253, R256, R257, R259, R260): a checked copy starts and waits for a port while the
dispatcher has room; SBIND answers 1 where the port holds a waiting job already and otherwise 0, the job running at once on an idle
port, and faults with PERM for a port of the other world (R403); SCANCEL cancels the controller's jobs on the masked tags. -/
def Obligations.CopyCommands : Prop :=
  (∀ (s : State) (c : Nat) (f : Firing) (d a b : Spec) (v : Nat), f.out.length < 16 →
    (∀ i x rs rd j, (i = .scopyCell d a b ∧ x = false) ∨ (i = .sxformCell d a b ∧ x = true) → CellRuns s c f i →
      useRecord (getCell s c) f.ctx a.toNat false = .ok rs → useRecord (getCell s c) f.ctx d.toNat x = .ok rd →
      readSpec s c f b = .ok v → bits v 256 256 = 0 →
      copyChecks s (firingSrc s c f) ((getCell s c).record f.ctx a.toNat) ((getCell s c).record f.ctx d.toNat) v x
        (fun k => if (checkRoute (getCell s c) f k false).isOk then some (routeToken c f k ((getCell s c).route f.ctx k)) else none)
        (fun k => routeDest (getCfg s f.cfg) ((getCell s c).route f.ctx k)) (ownOnTag f) = .ok j →
      ∃ t, exec i s = .next t ∧ j.xform = x ∧ j.count = bits v 128 40 ∧ j.sstart = bits v 0 64 ∧ j.dstart = bits v 64 64 ∧
        j.tag = bits v 168 6 ∧
        FiringSends s t c i
          (if j.tok.isSome then { adds f (.cmd (.copy { j with grove := groveOf c }) none) with
              emitted := f.emitted.set j.route (f.emitted.getD j.route 0 + 1) }
            else adds f (.cmd (.copy { j with grove := groveOf c }) none)) (footCheck (firingSrc s c f) j.foot j.scope)) ∧
    (CellRuns s c f (.scancel a) → readSpec s c f a = .ok v →
      ∃ t, exec (.scancel a) s = .next t ∧ FiringOn s t c (.scancel a) (adds f (.cmd (.scancel (v % 2 ^ 64)) none)))) ∧
  (∀ (s : State) (u : Nat) (d a b : Spec) (j : CopyJob),
    (∀ i x, (i = .scopyCtrl a ∧ x = false) ∨ (i = .sxformCtrl a ∧ x = true) → CtlRuns s u i →
      copyBlock (past s u i) u (getCtl s u).pc (readG s u a) x = .ok j → queuedJobs s u < 64 →
      ∃ t, exec i s = .next t ∧ t = enterJob (past s u i) j ∧ j.grove = u ∧ (getCtl t u).pc = (getCtl s u).pc + 4) ∧
    (CtlRuns s u (.sbind d a b) → copyBlock (past s u (.sbind d a b)) u (getCtl s u).pc (readG s u a) false = .ok j → readG s u b ≤ 3 →
      (portBarred s j.src u (readG s u b) = true →
        exec (.sbind d a b) s = .next (takeCtlTrap s u (getCtl s u).pc { cause := cPERM, detail := dWORLD })) ∧
      (portBarred s j.src u (readG s u b) = false → portBound s u (readG s u b) = true →
        ∃ t, exec (.sbind d a b) s = .next t ∧ OnlyCtl s t u ((behind s u (.sbind d a b)).setG d.toNat 1)) ∧
      (portBarred s j.src u (readG s u b) = false → portBound s u (readG s u b) = false → portRuns s u (readG s u b) = true →
        ∃ t, exec (.sbind d a b) s = .next t ∧ getCtl t u = (behind s u (.sbind d a b)).setG d.toNat 0 ∧
          t = { s with ctls := t.ctls, nextId := s.nextId + 1, work := s.work ++ [.copy { j with id := s.nextId, st := .bound (readG s u b) }] }) ∧
      (portBarred s j.src u (readG s u b) = false → portBound s u (readG s u b) = false → portRuns s u (readG s u b) = false →
        ∃ t, exec (.sbind d a b) s = .next t ∧
          t.work = s.work ++ [.copy { j with id := s.nextId, started := true, st := .running (readG s u b) }] ∧
          (getTag t j.src j.tag).count = (getTag s j.src j.tag).count + 1)) ∧
    (CtlRuns s u (.scancel a) →
      exec (.scancel a) s = .next (cancelJobs (past s u (.scancel a)) (ctlSrc (past s u (.scancel a)) u (getCtl s u).pc) (readG s u a))))

/-- The TAG rows (R261, R262), on a cell and on a controller: TWAITA answers the mask once every masked tag is complete, TWAITN the complete
ones once there is one, TFFR the lowest complete masked tag or 64, TCNT count and issued bit; after the first three a cell's loads see every write so
far (R215); TCLR clears the issued bits of masked tags
with count 0, a cell's at commit. -/
def Obligations.TagInstructions : Prop :=
  (∀ (i : Instr) (d a : Spec) (s : State) (v : Nat) (x : Src),
    let T := getTag s x
    let done := fun k => (T k).count = 0 ∧ (T k).issued = true
    ∀ r : Nat,
      ((i = .twaita d a ∧ (∀ k, k < 64 → bit v k = true → done k) ∧ r = v) ∨
       (i = .twaitn d a ∧ (∀ k, bit r k = true ↔ k < 64 ∧ bit v k = true ∧ done k) ∧ r ≠ 0) ∨
       (i = .tffr d a ∧ ((r < 64 ∧ bit v r = true ∧ done r ∧ ∀ k, k < r → bit v k = true → ¬ done k) ∨
          (r = 64 ∧ ∀ k, k < 64 → bit v k = true → ¬ done k))) ∨
       (i = .tcnt d a ∧ v ≤ 63 ∧ r = (T v).count % 65536 + if (T v).issued then 2 ^ 32 else 0)) →
      (∀ u, CtlRuns s u i → readG s u a = v → x = ctlSrc s u (getCtl s u).pc →
        ∃ t, exec i s = .next t ∧ OnlyCtl s t u ((behind s u i).setG d.toNat (BitVec.ofNat 64 r))) ∧
      (∀ c f w g, CellRuns s c f i → readSpec s c f a = .ok w → w % 2 ^ 64 = v → x = firingSrc s c f → writeSpec s c f d r = .ok g →
        ∃ t, exec i s = .next t ∧ FiringOn { s with views := t.views } t c i g ∧ (i = .tcnt d a → t.views = s.views) ∧
          (i ≠ .tcnt d a → SeesAll s t c))) ∧
  (∀ (a : Spec) (s : State),
    (∀ u, CtlRuns s u (.tclr a) → (∀ k, k < 64 → bit (readG s u a) k = true → (tget {} (getCtl s u).tags k).count = 0) →
      ∃ t, exec (.tclr a) s = .next t ∧ t = { s with ctls := t.ctls } ∧ (getCtl t u).pc = (getCtl s u).pc + 4 ∧
        (∀ v, v ≠ u → getCtl t v = getCtl s v) ∧ (∀ n, (getCtl t u).g n = (getCtl s u).g n) ∧
        ∀ k, k < 64 → tget {} (getCtl t u).tags k =
          { tget {} (getCtl s u).tags k with issued := if bit (readG s u a) k then false else (tget {} (getCtl s u).tags k).issued }) ∧
    (∀ c f v, CellRuns s c f (.tclr a) → readSpec s c f a = .ok v → f.out.length < 16 →
      (∀ k, k < 64 → bit v k = true → (tget {} (getFrame s f.cfg f.frame).tags k).count = 0 ∧ ownOnTag f k = 0) →
      ∃ t, exec (.tclr a) s = .next t ∧ FiringOn s t c (.tclr a) (adds f (.cmd (.tclr (v % 2 ^ 64)) none))))

/-- The BAR rows (R203, R264 to R266): BARINIT, BARARV and BARADD change the object at once on a unit and at commit on a cell; BARWAIT answers
the phase once it differs from the expected one or the owner has released it, and until then is entered among the object's waiters; BARTEST
reads the object, its reserved bits as 0 (R3).  After either a cell's loads see every write so far (R218).

The completion rule of barriers (R265): BARINIT sets the target and zeroes the rest; n arrivals with a target and nothing pending
advance the phase once for every full set and keep the remainder; while bytes are pending, or with target 0, the arrivals only count.
An operation changes the object's 16 bytes alone; BARINIT releases every waiter that expects another phase than 0, and a completed phase
every one that expects another than the new one, so that two completed phases leave none waiting.

That a waiter is released at the owner, and not when it looks again, is the spec's "released" read at the object (log entry 67). -/
def Obligations.BarrierInstructions : Prop :=
  (∀ (i : Instr) (op n : Nat) (d a b : Spec) (s : State),
    (∀ u pa, CtlRuns s u i →
      let p := past s u i
      ((i = .barinit a b ∧ op = 0 ∧ n = readG s u b ∧ 1 ≤ n ∧ n ≤ 65535) ∨ (i = .bararv a ∧ op = 1 ∧ n = 1) ∨
        (i = .baradd a b ∧ op = 1 ∧ n = readG s u b ∧ 1 ≤ n ∧ n ≤ 65535)) →
      ctlBar p u (getCtl s u).pc .barWrite (readG s u a) = .ok pa → barRoom s op pa n = true → s.poison = [] →
      exec i s = .next (barWrite p op pa n (ctlSrc p u (getCtl s u).pc).insn.toNat).1) ∧
    (∀ c f v w pa, CellRuns s c f i → f.out.length < 16 → readSpec s c f a = .ok v → (i ≠ .bararv a → readSpec s c f b = .ok w) →
      ((i = .barinit a b ∧ op = 0 ∧ n = w % 2 ^ 64 ∧ 1 ≤ n ∧ n ≤ 65535) ∨ (i = .bararv a ∧ op = 1 ∧ n = 1) ∨
        (i = .baradd a b ∧ op = 1 ∧ n = w % 2 ^ 64 ∧ 1 ≤ n ∧ n ≤ 65535)) →
      cellBar s c f .barWrite v = .ok pa →
      ∃ t, exec i s = .next t ∧ FiringOn s t c i (adds f (.cmd (.bar op pa n (v % 2 ^ 64)) none))) ∧
    (∀ u pa, CtlRuns s u (.bartest d a) → ctlBar (past s u (.bartest d a)) u (getCtl s u).pc .barRead (readG s u a) = .ok pa →
      poisonedRange s pa 16 = false →
      ∃ t, exec (.bartest d a) s = .next t ∧ OnlyCtl s t u ((behind s u (.bartest d a)).setG d.toNat (BitVec.ofNat 64 (readWord s pa % 2 ^ 40)))) ∧
    (∀ u pa, CtlRuns s u (.barwait d a b) → ctlBar (past s u (.barwait d a b)) u (getCtl s u).pc .barRead (readG s u a) = .ok pa →
      poisonedRange s pa 16 = false → readG s u b ≤ 255 →
      let phase := barPhase (readWord s pa)
      (∀ r, (findWait s u 0 = none ∧ phase ≠ readG s u b ∧ r = phase) ∨ (∃ w, findWait s u 0 = some w ∧ w.pa = pa ∧ w.got = some r) →
        ∃ t, exec (.barwait d a b) s = .next t ∧ OnlyCtlWait s t u ((behind s u (.barwait d a b)).setG d.toNat (BitVec.ofNat 64 r))) ∧
      (findWait s u 0 = none → phase = readG s u b →
        ∃ t, exec (.barwait d a b) s = .next t ∧
          t = { s with ctls := t.ctls, barWaits := s.barWaits ++ [{ pa := pa, who := u, uid := 0, expected := readG s u b }] } ∧
          ∀ v, getCtl t v = getCtl s v) ∧
      (∀ w, findWait s u 0 = some w → w.pa = pa → w.got = none → exec (.barwait d a b) s = .next s)) ∧
    (∀ c f g v pa, CellRuns s c f (.bartest d a) → readSpec s c f a = .ok v → cellBar s c f .barRead v = .ok pa →
      poisonedRange s pa 16 = false → writeSpec s c f d (readWord s pa % 2 ^ 40 + readWord s (pa + 8) % 2 ^ 36 * 2 ^ 64) = .ok g →
      ∃ t, exec (.bartest d a) s = .next t ∧ FiringOn { s with views := t.views } t c (.bartest d a) (sawBarrier s g pa) ∧ SeesAll s t c) ∧
    (∀ c f v w pa, CellRuns s c f (.barwait d a b) → readSpec s c f a = .ok v → readSpec s c f b = .ok w →
      cellBar s c f .barRead v = .ok pa → poisonedRange s pa 16 = false → w % 2 ^ 64 ≤ 255 →
      let phase := barPhase (readWord s pa)
      (∀ r g, (findWait s c f.uid = none ∧ phase ≠ w % 2 ^ 64 ∧ r = phase) ∨ (∃ q, findWait s c f.uid = some q ∧ q.pa = pa ∧ q.got = some r) →
        writeSpec s c f d r = .ok g →
        ∃ t, exec (.barwait d a b) s = .next t ∧ FiringOn { s with barWaits := t.barWaits, views := t.views } t c (.barwait d a b) (sawBarrier s g pa) ∧
          SeesAll s t c ∧ findWait t c f.uid = none) ∧
      (findWait s c f.uid = none → phase = w % 2 ^ 64 →
        exec (.barwait d a b) s =
          .next { s with barWaits := s.barWaits ++ [{ pa := pa, who := c, uid := f.uid, expected := w % 2 ^ 64 }] }))) ∧
  (∀ (s : State) (op pa n insn : Nat) (before : List Nat), s.drains = [] → s.poison = [] →
    let t := (barWrite s op pa n insn before).1
    let w0 := readWord s pa
    let w1 := readWord s (pa + 8)
    let phase := (barPhase w0 + 1) % 256
    let release := fun p : Nat => s.barWaits.map fun w => if w.pa = pa ∧ w.got = none ∧ w.expected ≠ p then { w with got := some p } else w
    t = { s with mem := t.mem, barWaits := t.barWaits, barPast := t.barPast, barNow := t.barNow, views := t.views } ∧
      (∀ q, q ≠ pa → tget [] t.barPast q = tget [] s.barPast q ∧ tget [] t.barNow q = tget [] s.barNow q) ∧ (readWord t pa, readWord t (pa + 8)) = barNext op n w0 w1 ∧
      (∀ y, ¬ (pa ≤ y ∧ y < pa + 16) → memByte t y = memByte s y) ∧ (op = 0 → t.barWaits = release 0) ∧
      (op ≠ 0 → barRounds op n w0 w1 = 0 → t.barWaits = s.barWaits) ∧ (op ≠ 0 → barRounds op n w0 w1 = 1 → t.barWaits = release phase) ∧
      (2 ≤ barRounds op n w0 w1 → ∀ w, w ∈ t.barWaits → w.pa = pa → w.got ≠ none)) ∧
  (∀ w0 w1 n : Nat, n < 65536 →
    barTarget (barNext 0 n w0 w1).1 = n ∧ barPhase (barNext 0 n w0 w1).1 = 0 ∧ barArrived (barNext 0 n w0 w1).1 = 0 ∧ (barNext 0 n w0 w1).2 = 0 ∧
    (barArrived w0 + n < 65536 →
      let t := barTarget w0
      let r := (barNext 1 n w0 w1).1
      (barNext 1 n w0 w1).2 = w1 ∧ barTarget r = t ∧
      (t ≠ 0 → barPending w1 = 0 → barPhase r = (barPhase w0 + (barArrived w0 + n) / t) % 256 ∧ barArrived r = (barArrived w0 + n) % t) ∧
      (t = 0 ∨ barPending w1 ≠ 0 → barPhase r = barPhase w0 ∧ barArrived r = barArrived w0 + n)))

/-! ### Matrix array, relations, sorting -/

/-- The MTX rows (R344 to R349, R356 to R359): a checked command is an entry of the output buffer with its footprint; MRD_H and MCHK make
their held register EMPTY at commit.

That MSTR and MRD find their elements by the shape and the bound which the commands ahead of them leave is log entry 40. -/
def Obligations.MatrixCommands : Prop :=
  ∀ (s : State) (c : Nat) (f : Firing) (d a b : Spec) (l : BitVec 1) (v k : Nat) (rc : Rec) (foot : List Range), f.out.length < 16 →
    let src := firingSrc s c f
    let raw := (getCell s c).record f.ctx b.toNat
    let z := setAhead s c f d.toNat
    let q := fun (t : State) (i : Instr) (o : MtxOp) (ft : List Range) (h : Option Nat) => Queues s t c f i (.mtx ⟨0, src, o, ft⟩) h ft 3 o.group
    (CellRuns s c f .mswp → ∃ t, exec .mswp s = .next t ∧ q t .mswp .mswp [] none) ∧
    (CellRuns s c f (.mclr d) → ∃ t, exec (.mclr d) s = .next t ∧ q t (.mclr d) (.mclr d.toNat) [] none) ∧
    (CellRuns s c f (.mchk d) → heldIdx d = some k → writeWait s c f k = .ok () →
      ∃ t, exec (.mchk d) s = .next t ∧ q t (.mchk d) (.mchk k) [] (some k)) ∧
    (readSpec s c f a = .ok v →
      (CellRuns s c f (.mshp d a) → 1 ≤ lane 32 v 0 → lane 32 v 0 ≤ 64 → 1 ≤ lane 32 v 1 → lane 32 v 1 ≤ 64 → 1 ≤ lane 32 v 2 → lane 32 v 2 ≤ 256 →
        ∃ t, exec (.mshp d a) s = .next t ∧ q t (.mshp d a) (.mshp d.toNat (lane 32 v 0) (lane 32 v 1) (lane 32 v 2)) [] none) ∧
      (CellRuns s c f (.mrdH d a b l) → heldIdx d = some k → writeWait s c f k = .ok () → lane 32 v 0 ≤ 63 → lane 32 v 1 ≤ 3 →
        ∃ t, exec (.mrdH d a b l) s = .next t ∧
          q t (.mrdH d a b l) (.mrdH k b.toNat (lane 32 v 0) (lane 32 v 1) (l == 1)) [] (some k)) ∧
      (CellRuns s c f (.mlw a b) → useRecord (getCell s c) f.ctx b.toNat false = .ok rc → mtxFmt rc.fmt = true → 1 ≤ bits v 96 32 →
        bits v 96 32 ≤ 64 → 1 ≤ bits v 64 32 → bits v 64 32 ≤ mtxDepth rc.fmt →
        blockElems rc (bits v 0 64) (bits v 64 32) (bits v 96 32) = .ok () → recFoot s src .mtxSrc rc = .ok foot →
        ∃ t, exec (.mlw a b) s = .next t ∧ q t (.mlw a b) (.mlw raw (bits v 0 64) (bits v 64 32) (bits v 96 32)) foot none) ∧
      (CellRuns s c f (.mstr d a b) → useRecord (getCell s c) f.ctx b.toNat false = .ok rc → mtxFmt rc.fmt = true →
        blockElems rc (bits v 0 64) z.m z.k = .ok () → recFoot s src .mtxSrc rc = .ok foot →
        ∃ t, exec (.mstr d a b) s = .next t ∧ q t (.mstr d a b) (.mstr d.toNat raw (bits v 0 64) 0 0 0) foot none) ∧
      (CellRuns s c f (.mrd d a b l) → useRecord (getCell s c) f.ctx b.toNat true = .ok rc → mrdFmt rc.fmt = true →
        blockElems rc (bits v 0 64) z.mb z.nb = .ok () → (rc.seq ≠ 0 → f.itag ≠ 0xFFFFFF) → recFoot s src .copyDst rc = .ok foot →
        rc.const = false →
        ∃ t, exec (.mrd d a b l) s = .next t ∧ q t (.mrd d a b l) (.mrd d.toNat raw (bits v 0 64) (l == 1)) foot none))

/-- The REL rows (R388, R391 to R397).  Where the checks of an instruction pass, which are the hypotheses in the order its entry gives them,
it completes: its command is the one new entry of the output buffer, for the relation unit of the cell's grove, with its relations, its
barrier and its footprint, whose check is sent; RRND, RQCK and RLOOK make their held register EMPTY at commit. -/
def Obligations.RelationCommands : Prop :=
  ∀ (s : State) (c : Nat) (f : Firing) (d a b : Spec) (g : BitVec 1) (v : Nat), f.out.length < 16 → readSpec s c f a = .ok v →
    let src := firingSrc s c f
    let va := v % 2 ^ 64
    let waits := ∀ k, heldIdx d = some k → writeWait s c f k = .ok ()
    let queued := fun (i : Instr) (op : RelOp) (bar : Option (Nat × Nat)) (held : Option Nat) (foot : List Range) =>
      ∃ t, exec i s = .next t ∧ Queues s t c f i (.rel { src := src, grove := groveOf c, op := op, bar := bar, foot := foot }) held foot 3
    (∀ r foot, CellRuns s c f (.rdef a) → relDesc s c f va false = .ok r → r.ok = true →
      (r.handle ≠ 0 → (getPlacement s r.handle).defd = true ∧ dFmt (getPlacement s r.handle).d = 17 ∧
        ∀ k, k < 4 → stateAt (dStates (getPlacement s r.handle).d) k = 0 ∨ stateAt (dStates (getPlacement s r.handle).d) k = 8 + r.index) →
      (∀ k, k < r.shards → (r.first + k) % 32 < (getCfg s f.cfg).width ∧ (r.first + k) / 32 < (getCfg s f.cfg).height) →
      r.size ≤ r.stride * 256 → shardFoot s src r (List.range r.shards) 0 r.size .copyDst = .ok foot →
      queued (.rdef a) (.rclr r true) none none foot) ∧
    (∀ r foot, CellRuns s c f (.rclr a) → relDesc s c f va true = .ok r →
      shardFoot s src r (List.range r.shards) 0 r.size .copyDst = .ok foot → queued (.rclr a) (.rclr r false) none none foot) ∧
    (∀ del i r w, (i = .rins a b ∧ del = false) ∨ (i = .rdel a b ∧ del = true) → CellRuns s c f i → relDesc s c f va true = .ok r →
      readSpec s c f b = .ok w →
      let ts := [bits w 0 256, bits w 256 256].filter fun x => tupState x != 0
      (∀ x, x ∈ ts → tupState x = 1 ∧ bits (slotW3 x) 0 62 = 0 ∧ (∀ y, y ∈ (tupKeys x).drop r.arity → y = 0) ∧ bit (tupId x) 31 = false ∧
        (del = true → slotWeight x ≠ 0)) →
      (del = true → r.algebra = 5) → queued i (.rins r (ts.map (BitVec.ofNat 256)) del) none none []) ∧
    (∀ anti i blk h x y bar k f1 f2, (i = .rjoin a ∧ anti = false) ∨ (i = .ranti a ∧ anti = true) → CellRuns s c f i →
      cellBlock s c f va 64 64 = .ok blk → ruleBad blk anti = false → relDesc s c f (bits blk 128 56) true = .ok h →
      relDesc s c f (bits blk 192 56) true = .ok x → relDesc s c f (bits blk 256 56) true = .ok y → ruleCols blk h x y = false →
      ruleJb blk = y.index → ruleJa blk = x.index → h.algebra = x.algebra → h.algebra = y.algebra →
      (anti = true → y.stratum < h.stratum ∧ y.quiescent = true) → (anti = false → x.stratum ≤ h.stratum ∧ y.stratum ≤ h.stratum) →
      relBarrier s src (ruleBar blk) = .ok bar → ownShard s src x = .ok k →
      shardFoot s src x (List.range x.shards) 256 (2 * x.part) .read = .ok f1 →
      shardFoot s src y (List.range y.shards) 256 (2 * y.part) .read = .ok f2 →
      queued i (.rjoin (BitVec.ofNat 512 blk) h x y anti) bar none (f1 ++ f2)) ∧
    (∀ r k hd foot, CellRuns s c f (.rrnd d a) → relDesc s c f va true = .ok r → ownShard s src r = .ok k → readHeader s src r k = .ok hd →
      (r.limit ≠ 0 → hd.rc + pendingRounds s r (groveOf c) < r.limit) → waits → shardFoot s src r [k] 0 r.size .copyDst = .ok foot →
      queued (.rrnd d a) (.rrnd r (heldIdx d)) none (heldIdx d) foot) ∧
    (∀ blk bar w, CellRuns s c f (.rqck d a b g) → cellBlock s c f va 64 64 = .ok blk → bits blk 56 8 = 0 → bits blk 120 8 = 0 →
      bits blk 0 56 % 16 = 0 → bits blk 64 56 % 8 = 0 → walkCheck s src .barWrite (bits blk 0 56) 16 = .ok bar → readSpec s c f b = .ok w → waits →
      queued (.rqck d a b g) (.rqck va bar (bits blk 0 56) (bits blk 64 56) (w % 2 ^ 64) (g == 1) (heldIdx d)) none (heldIdx d) []) ∧
    (∀ r w foot, CellRuns s c f (.rlook d a b) → relDesc s c f va true = .ok r → readSpec s c f b = .ok w →
      (∀ x, x ∈ (lanes 32 16 w).drop r.arity → x = 0) → waits →
      let ks := (List.range 4).map fun k => if k < r.arity then lane 32 w k else 0
      ((ownerShard s r (ks.getD r.index 0) = none ∧ foot = []) ∨
        ∃ k sl, ownerShard s r (ks.getD r.index 0) = some k ∧ readPart s src r k 0 = .ok sl ∧
          footRange s src .read (partVa r k 0 + 32 * ((findTup r sl ks).getD (firstSlot r ks)) : Nat) 32 = .ok foot) →
      queued (.rlook d a b) (.rlook r ks (heldIdx d)) none (heldIdx d) foot) ∧
    (∀ blk w h q k hd bar f1 f2, CellRuns s c f (.rgrad a b) → cellBlock s c f va 64 64 = .ok blk → bits blk 56 8 = 0 → bits blk 120 8 = 0 →
      bits blk 184 8 = 0 → bits blk 192 320 = 0 → readSpec s c f b = .ok w → bits (lane 32 w 0) 24 8 = 0 →
      relDesc s c f (bits blk 0 56) true = .ok h → relDesc s c f (bits blk 64 56) true = .ok q →
      q.algebra = 4 → q.arity = 1 → q.index = 0 → q.trace = false → h.algebra ≠ 0 → h.algebra ≠ 5 → h.trace = true →
      ownShard s src h = .ok k → readHeader s src h k = .ok hd → hd.tlost = 0 → relBarrier s src (bits blk 128 56) = .ok bar →
      shardFoot s src h (List.range h.shards) (256 + 3 * h.part) (32 * 2 ^ h.lt) .read = .ok f1 →
      shardFoot s src q (List.range q.shards) 256 q.part .read = .ok f2 →
      queued (.rgrad a b) (.rgrad h q (lane 32 w 0)) bar none (f1 ++ f2))

/-- RSORT, RTOPK and RMRG (R399 to R401).  Where the checks pass, which are the hypotheses, the instruction completes: its job is the one new
entry of the output buffer, for the unit of the cell's grove, with the operation, the control words, the key record and, unless the
modifier says no payload, the payload record; the check of the footprint, both records as read and written, is sent. -/
def Obligations.SortCommands : Prop :=
  ∀ (s : State) (c : Nat) (f : Firing) (d a b : Spec) (n : BitVec 1) (i : Instr) (op v : Nat) (kr : Rec) (f1 f2 : List Range),
    f.out.length < 16 → ((i = .rsort d a b n ∧ op = 0) ∨ (i = .rtopk d a b n ∧ op = 1) ∨ (i = .rmrg d a b n ∧ op = 2)) → CellRuns s c f i →
    useRecord (getCell s c) f.ctx d.toNat false = .ok kr → readSpec s c f a = .ok v → (sortKey kr.fmt).isSome = true → (op = 1 → kr.fmt = 8) →
    sortRange op v = none →
    let src := firingSrc s c f
    let pay := (getCell s c).record f.ctx b.toNat
    let j := sortJobOf op v ((getCell s c).record f.ctx d.toNat) (if n = 1 then none else some pay) src (groveOf c)
    j.meets = false → sortOffsets j kr = .ok () → sortFoot s src ((getCell s c).record f.ctx d.toNat) = .ok f1 →
    (n = 1 → f2 = []) →
    (n ≠ 1 → sortFoot s src pay = .ok f2 ∧ ∃ pr, useRecord (getCell s c) f.ctx b.toNat false = .ok pr ∧ payFmt pr.fmt = true ∧ sortOffsets j pr = .ok ()) →
    (∀ k, j.tag = some k → (getTag s src k).count + ownOnTag f k + 1 ≤ 65535) →
    ∃ t, exec i s = .next t ∧ Queues s t c f i (.sort { j with foot := f1 ++ f2 }) none (f1 ++ f2) 3

/-! ### Placement and collectives -/

namespace Sys2Proof.Claims
open Sys2Proof.Machine

/-- A block that the instruction of an issuer reads: address, bytes and alignment. -/
abbrev BlockRead := Nat → Nat → Nat → R Nat

/-- The block at `va` is a mesh record that follows R267 and names this device. -/
abbrev MeshAt (s : State) (rd : BlockRead) (va : Nat) (m : Mesh) : Prop :=
  ∃ w e, rd va 64 64 = .ok w ∧ meshOk w = true ∧ meshOf w = m ∧ rd (m.table + 4 * m.self) 4 4 = .ok e ∧ selfOk s e = true

/-- The block at `va` is a placement descriptor `w` that PDEF takes for handle `h` from an issuer of space `asn`, with its mesh (R268 to R270,
R285). -/
abbrev DescAt (s : State) (asn : Nat) (rd : BlockRead) (va h w : Nat) (m : Mesh) : Prop :=
  foreignHandle (getPlacement s h) asn = false ∧ rd va 64 64 = .ok w ∧ descBad w = false ∧ MeshAt s rd (dMesh w) m ∧ m.axes = dAxes w ∧
    placementRefused (dFmt w) m.axes (dExtents w) m.sizes (coordsOf m.sizes m.self) (dStates w) (dLeaves w) = false ∧
    dConv (getPlacement s h).d = false

/-- The block at `va` is one that CDEF takes, as the slot `x` (R280, R288): two records that pass checks 1 to 5 of R200, a control whose fields are
in range, a mesh record, counts that suit the collective, and records that are mapped. -/
abbrev CollAt (s : State) (src : Src) (rd : BlockRead) (va : Nat) (x : Slot) (m : Mesh) : Prop :=
  ∃ v f1 f2, rd va 128 32 = .ok v ∧ x = { block := BitVec.ofNat 1024 v } ∧
    (recOf x.srec).check false = .ok () ∧ (recOf x.drec).check false = .ok () ∧ bits x.c0 12 52 = 0 ∧ bits v 632 8 = 0 ∧ bits v 696 7 = 0 ∧
    bits v 640 56 % 32 = 0 ∧ bits v 704 320 = 0 ∧ x.op ≠ 3 ∧ 1 ≤ x.kind ∧ x.kind ≤ 4 ∧ x.mesh % 64 = 0 ∧ (recOf x.srec).fmt = (recOf x.drec).fmt ∧
    MeshAt s rd x.mesh m ∧ x.axis < m.axes ∧
    collCounts x.kind (recOf x.srec).count (recOf x.drec).count (m.sizes.getD x.axis 1) (2 ^ x.leaf) = true ∧
    (x.kind = 2 ∨ x.kind = 3 → 2 ^ Nat.log2 (m.sizes.getD x.axis 1) = m.sizes.getD x.axis 1 ∧ m.sizes.getD x.axis 1 ≤ 2 ^ x.leaf ∧
      (recOf x.srec).fmt ∈ [8, 9, 10, 4, 5, 6]) ∧
    recFoot s src .read (recOf x.srec) = .ok f1 ∧ recFoot s src .copyDst (recOf x.drec) = .ok f2

end Sys2Proof.Claims

/-- PDEF, PQRY, CDEF, CSTART, CWAIT and CPOLL (R281, R284, R285, R288).  On a unit PDEF and CDEF define the descriptor or slot and CSTART starts the
slot's next instance at once; on a cell each is an entry of the output buffer.  PQRY reads the first words of the descriptor, zeros for a
handle that no PDEF has defined; CWAIT and CPOLL read the slot's result, CWAIT once the slot is finished, and a cell that is told "done" sees
every write so far (R282).  A slot is free when it is finished and no firing under way starts it.

PLD and PCONV (R271, R274, R286, R287).  On a cell the demand is an entry of the output buffer with the check of a new version's footprint; a PLD
into a held register whose placement is met already loads at once, and one that is not makes the register EMPTY.  On a unit PCONV's
demand leaves at once; PLD loads at once where the placement is met, 0 for an element OUTSIDE its record, and otherwise sends its demand
and waits at the instruction, and loads once the demand is gone. -/
def Obligations.PlacementCommands : Prop :=
  (∀ (s : State) (h : Nat) (d a b : Spec),
    (∀ u w m, 1 ≤ h → h ≤ 4095 → readG s u b = h → CtlRuns s u (.pdef a b) →
      DescAt (past s u (.pdef a b)) (getCtl s u).asn (ctlBlock (past s u (.pdef a b)) u (getCtl s u).pc) (readG s u a) h w m →
      ∃ t, exec (.pdef a b) s = .next t ∧ t = { past s u (.pdef a b) with placement := t.placement } ∧
        (∀ k, getPlacement t k = if k = h then { defd := true, asn := (getCtl s u).asn, desc := BitVec.ofNat 512 w, sizes := m.sizes, self := m.self }
          else getPlacement s k)) ∧
    (∀ c f v x w m, 1 ≤ h → h ≤ 4095 → CellRuns s c f (.pdef a b) → readSpec s c f a = .ok v → readSpec s c f b = .ok x → x % 2 ^ 64 = h →
      DescAt s (firingSrc s c f).asn (cellBlock s c f) (v % 2 ^ 64) h w m → f.out.length < 16 →
      ∃ t, exec (.pdef a b) s = .next t ∧
        FiringOn s t c (.pdef a b) (adds f (.cmd (.pdef h (BitVec.ofNat 512 w) (firingSrc s c f).asn m.sizes m.self) none))) ∧
    (∀ u, 1 ≤ h → h ≤ 4095 → readG s u a = h → CtlRuns s u (.pqry d a) → foreignHandle (getPlacement s h) (getCtl s u).asn = false →
      ∃ t, exec (.pqry d a) s = .next t ∧
        OnlyCtl s t u ((behind s u (.pqry d a)).setG d.toNat
          (if (getPlacement s h).defd then (getPlacement s h).desc.extractLsb' 0 64 else 0))) ∧
    (∀ c f g v, 1 ≤ h → h ≤ 4095 → CellRuns s c f (.pqry d a) → readSpec s c f a = .ok v → v % 2 ^ 64 = h →
      foreignHandle (getPlacement s h) (firingSrc s c f).asn = false →
      writeSpec s c f d (if (getPlacement s h).defd then (getPlacement s h).desc.toNat % 2 ^ 128 else 0) = .ok g →
      ∃ t, exec (.pqry d a) s = .next t ∧ FiringOn s t c (.pqry d a) g) ∧
    (∀ u x m, h ≤ 255 → readG s u b = h → CtlRuns s u (.cdef a b) → (getSlot s h).finished = true → startPending s h = false →
      CollAt (past s u (.cdef a b)) (ctlSrc (past s u (.cdef a b)) u (getCtl s u).pc)
        (ctlBlock (past s u (.cdef a b)) u (getCtl s u).pc) (readG s u a) x m →
      ∃ t, exec (.cdef a b) s = .next t ∧ t = { past s u (.cdef a b) with slots := t.slots } ∧
        (getSlot t h).defd = true ∧ (getSlot t h).block = x.block ∧ (getSlot t h).finished = true ∧ ∀ k, k ≠ h → getSlot t k = getSlot s k) ∧
    (∀ c f v w x m, h ≤ 255 → CellRuns s c f (.cdef a b) → readSpec s c f a = .ok v → readSpec s c f b = .ok w → w % 2 ^ 64 = h →
      (getSlot s h).finished = true → startPending s h = false → CollAt s (firingSrc s c f) (cellBlock s c f) (v % 2 ^ 64) x m →
      f.out.length < 16 →
      ∃ t, exec (.cdef a b) s = .next t ∧ FiringOn s t c (.cdef a b) (adds f (.cmd (.cdef h x.block (firingSrc s c f).asn) none))) ∧
    (∀ u foot, h ≤ 255 → readG s u a = h → CtlRuns s u (.cstart d a) → (getSlot s h).finished = true → startPending s h = false →
      (getSlot s h).defd = true →
      let p := past s u (.cstart d a)
      let x := ctlSrc p u (getCtl s u).pc
      slotFoot p x (getSlot s h) = .ok foot → raceOf p ⟨0, x, .job, foot, 3, 0, 0⟩ = none →
      ∃ t, exec (.cstart d a) s = .next t ∧ getCtl t u = (behind s u (.cstart d a)).setG d.toNat (BitVec.ofNat 64 (((getSlot s h).inst + 1) % 65536)) ∧
        (getSlot t h).inst = ((getSlot s h).inst + 1) % 65536 ∧ (getSlot t h).finished = false ∧ (∀ k, k ≠ h → getSlot t k = getSlot s k) ∧
        ∃ j, t = { s with ctls := t.ctls, slots := t.slots, nextId := s.nextId + 1, work := s.work ++ [.coll j] } ∧ j.handle = h ∧
          j.version = ((getSlot s h).inst + 1) % 65536) ∧
    (∀ c f g v foot, h ≤ 255 → CellRuns s c f (.cstart d a) → readSpec s c f a = .ok v → v % 2 ^ 64 = h → (getSlot s h).finished = true →
      startPending s h = false → (getSlot s h).defd = true → slotFoot s (firingSrc s c f) (getSlot s h) = .ok foot →
      writeSpec s c f d (((getSlot s h).inst + 1) % 65536) = .ok g → g.out.length < 16 →
      ∃ t, exec (.cstart d a) s = .next t ∧
        FiringSends s t c (.cstart d a) (adds g (.cmd (.cstart h foot) none)) (footCheck (firingSrc s c f) foot 3)) ∧
    (∀ i, i = .cwait d a ∨ i = .cpoll d a → h ≤ 255 → (i = .cwait d a → (getSlot s h).finished = true) →
      (∀ u, readG s u a = h → CtlRuns s u i →
        ∃ t, exec i s = .next t ∧ OnlyCtl s t u ((behind s u i).setG d.toNat (BitVec.ofNat 64 (slotResult (getSlot s h))))) ∧
      (∀ c f g v, CellRuns s c f i → readSpec s c f a = .ok v → v % 2 ^ 64 = h → writeSpec s c f d (slotResult (getSlot s h)) = .ok g →
        ∃ t, exec i s = .next t ∧ FiringOn { s with views := t.views } t c i g ∧ OthersSee s t c ∧
          (bit (slotResult (getSlot s h)) 16 = true → getViews t c = []) ∧ (bit (slotResult (getSlot s h)) 16 = false → t.views = s.views)))) ∧
  (∀ (s : State) (d a b : Spec),
    (∀ c f v rc h fo l ps, CellRuns s c f (.pldCell d a b) → f.out.length < 16 → readSpec s c f a = .ok v → bits v 80 16 = 0 →
      useRecord (getCell s c) f.ctx b.toNat false = .ok rc →
      let src := firingSrc s c f
      let raw := (getCell s c).record f.ctx b.toNat
      demandHandle s src rc = .ok h → demandFoot s src h (bits v 64 16) rc = .ok fo → elemsAt rc (vecOffs (vecLen rc.bits) v) = .ok l →
      allPieces s (memOf s c f).st src .read rc.bits (fun _ => 0) l = .ok ps →
      (d.toNat = 44 →
        ∃ t, exec (.pldCell d a b) s = .next t ∧
          Queues s t c f (.pldCell d a b) (.demand { src := src, handle := h, states := bits v 64 16, rcd := raw, foot := fo.getD [] }) none
            (fo.getD []) 3 0 h) ∧
      (∀ k, heldIdx d = some k → writeWait s c f k = .ok () → metNow s h (bits v 64 16) rc.base = false → watchHit s c false ps = none →
        ∃ t, exec (.pldCell d a b) s = .next t ∧
          Queues s t c f (.pldCell d a b)
            (.demand { src := src, handle := h, states := bits v 64 16, rcd := raw, held := some k, load := true, e := bits v 0 64, foot := fo.getD [] })
            (some k) (fo.getD []) 3 0 h) ∧
      (∀ k z, heldIdx d = some k → writeWait s c f k = .ok () → metNow s h (bits v 64 16) rc.base = true →
        loadCore s (memOf s c f) .ld rc v = .ok z → z.err = none → watchHit s c false z.pieces = none →
        ∃ t id, exec (.pldCell d a b) s = .next t ∧ getViews t c = z.views ∧ OthersSee s t c ∧
          FiringSends { s with views := t.views } t c (.pldCell d a b) (adds f (.fill k (BitVec.ofNat 512 z.value) false))
            (accessCheck src id .load z.pieces false 3 0))) ∧
    (∀ c f v q rc h fo, CellRuns s c f (.pconvCell a b) → f.out.length < 16 → readSpec s c f a = .ok v → pconvControl v = .ok q →
      useRecord (getCell s c) f.ctx b.toNat false = .ok rc → demandHandle s (firingSrc s c f) rc = .ok h →
      demandFoot s (firingSrc s c f) h q.1 rc = .ok fo → tagRoom s (firingSrc s c f) q.2 (ownOnTag f) = .ok () →
      ∃ t, exec (.pconvCell a b) s = .next t ∧
        Queues s t c f (.pconvCell a b)
          (.demand { src := firingSrc s c f, handle := h, states := q.1, rcd := (getCell s c).record f.ctx b.toNat, tag := q.2, foot := fo.getD [] })
          none (fo.getD []) 3 0 h) ∧
    (∀ u v q h fo, CtlRuns s u (.pconvCtrl a) →
      let p := past s u (.pconvCtrl a)
      let x := ctlSrc p u (getCtl s u).pc
      let w := BitVec.ofNat 256 (bits v 0 256)
      ctlBlock p u (getCtl s u).pc (readG s u a) 48 32 = .ok v → blockRecord w false = .ok () → pconvControl (bits v 256 128) = .ok q →
      demandHandle p x (recOf w) = .ok h → demandFoot p x h q.1 (recOf w) = .ok fo → tagRoom p x q.2 (fun _ => 0) = .ok () →
      raceOf p ⟨0, x, .job, fo.getD [], 3, 0, h⟩ = none →
      ∃ t, exec (.pconvCtrl a) s = .next t ∧ t = { s with ctls := t.ctls, nextId := s.nextId + 1, work := s.work ++
        [.demand { id := s.nextId, src := x, handle := h, states := q.1, rcd := w, tag := q.2, foot := fo.getD [] }] } ∧
        (∀ k, k < 64 → (getTag t x k).count = (getTag s x k).count + if q.2 = some k then 1 else 0) ∧
        (getCtl t u).pc = (getCtl s u).pc + 4 ∧ ∀ y, y ≠ u → getCtl t y = getCtl s y) ∧
    (∀ u v, CtlRuns s u (.pldCtrl d a) →
      let p := past s u (.pldCtrl d a)
      let x := ctlSrc p u (getCtl s u).pc
      let w := BitVec.ofNat 256 (bits v 0 256)
      let rc := recOf w
      ctlBlock p u (getCtl s u).pc (readG s u a) 48 32 = .ok v → blockRecord w false = .ok () → bits v 336 48 = 0 → rc.bits ≤ 64 →
      let loads := fun r : Nat => ∃ t, exec (.pldCtrl d a) s = .next t ∧
        OnlyCtl s t u ({ behind s u (.pldCtrl d a) with pld := none }.setG d.toNat (BitVec.ofNat 64 r))
      let met := ∃ h fo, demandHandle p x rc = .ok h ∧ demandFoot p x h (bits v 320 16) rc = .ok fo ∧ metNow s h (bits v 320 16) rc.base = true
      ((∃ id, (getCtl s u).pld = some id ∧ demandPending s id = false) ∨ ((getCtl s u).pld = none ∧ met) →
        (rc.elem (bits v 256 64) = .ok .outside → loads 0) ∧
        (∀ e ps, rc.elem (bits v 256 64) = .ok (.at_ e) → elemPieces p (ctlStream u) x .read 0 e rc.bits 0 = .ok ps → anyPoison s ps = none →
          raceOf p ⟨0, x, .load, rangesOf ps false, 3, 0, 0⟩ = none → loads ((elemValues s [] 1 ps).getD 0 0))) ∧
      (∀ h fo, (getCtl s u).pld = none → demandHandle p x rc = .ok h → demandFoot p x h (bits v 320 16) rc = .ok fo →
        pldReach p u x rc (bits v 256 64) = .ok () → metNow s h (bits v 320 16) rc.base = false →
        raceOf p ⟨0, x, .job, fo.getD [], 3, 0, h⟩ = none →
        ∃ t, exec (.pldCtrl d a) s = .next t ∧ t = { s with ctls := t.ctls, nextId := s.nextId + 1, work := s.work ++
          [.demand { id := s.nextId, src := x, handle := h, states := bits v 320 16, rcd := w, load := true, foot := fo.getD [] }] } ∧
          getCtl t u = { getCtl s u with pld := some s.nextId } ∧ ∀ y, y ≠ u → getCtl t y = getCtl s y)))

/-! ### Scheduling instructions -/

/-- JOIN (R187): the join counter in W2 of the record falls by one and G[d] receives the new count in its bits 31:16, or JOINZERO where the counter
is 0 and nothing is written; a JOIN that takes it to 0 starts an arbitration round. -/
def Obligations.Joins : Prop :=
  ∀ (s : State) (u : Nat) (d a : Spec) (r : Nat × Nat) (pa : Nat) (e : TlbEntry), CtlRuns s u (.join d a) →
    let p := past s u (.join d a)
    let x := ctlSrc p u (getCtl s u).pc
    let va := readG s u a
    let n := readNat s (r.2 + 16) 2
    readRecord p u (getCtl s u).pc va = .ok r → translate p (ctlStream u) x .atomic (va + 16) 8 = .ok (pa, e) → s.drains = [] → s.poison = [] →
    (n = 0 → ∃ t, exec (.join d a) s = .next t ∧ OnlyCtl s t u ((behind s u (.join d a)).setG d.toNat 8)) ∧
    (n ≠ 0 → ∃ t, exec (.join d a) s = .next t ∧ t = { s with ctls := t.ctls, mem := t.mem, views := t.views, round := (s.round || n == 1) } ∧
      getCtl t u = (behind s u (.join d a)).setG d.toNat (BitVec.ofNat 64 ((n - 1) * 65536)) ∧ (∀ v, v ≠ u → getCtl t v = getCtl s v) ∧
      readNat t (r.2 + 16) 2 = n - 1 ∧ ∀ y, ¬ (r.2 + 16 ≤ y ∧ y < r.2 + 18) → memByte t y = memByte s y)

/-- LAUNCH and CTXRS (R164, R183, R186, R190): with status OK the record, or the save area, is the last entry of the queue and G[d] receives 0; with
any other status of the checks no queue changes and G[d] receives it; a LAUNCH takes the module from PW1 to PW0 (R460).

CONF, SPLICE, PREEMPT and CTXSV (R174, R179, R180, R188 to R190): each answers a status in G[d].  CONF of a controller outside every configuration
answers NOTINST, and of one whose cells are all between firings it applies the image and lets firing resume; SPLICE binds the successor
to the predecessor; PREEMPT starts to bring the configuration to its held state; CTXSV saves a held one and releases its glades.

The model's choices here: that CONF first quiesces the configuration and waits at the instruction for its firings (log entry 40), that a configuration is
named by the physical address of its record, of a saved one too (log entry 37), and the order of the checks of one instruction (log
entry 60). -/
def Obligations.Configurations : Prop :=
  (∀ (s : State) (u : Nat) (d a b : Spec) (r : Nat × Nat),
    (CtlRuns s u (.launch d a b) → readRecord (past s u (.launch d a b)) u (getCtl s u).pc (readG s u a) = .ok r →
      let st := launchStatus s r.1 (readG s u b) (getCtl s u).user (unitSecure s u) (getCtl s u).asn
      let woken := fun t : State => t.power = (if s.power = .pw1 then .pw0 else s.power) ∧ (s.power ≠ .pw1 → t.idleSince = s.idleSince)
      (st = stOK → ∃ t e, exec (.launch d a b) s = .next t ∧ woken t ∧
        t = { s with ctls := t.ctls, queues := t.queues, round := t.round, power := t.power, idleSince := t.idleSince } ∧
        getCtl t u = (behind s u (.launch d a b)).setG d.toNat 0 ∧ (∀ v, v ≠ u → getCtl t v = getCtl s v) ∧
        (∀ q, getQueue t q = if q = readG s u b then getQueue s q ++ [e] else getQueue s q) ∧ e.addr = readG s u a ∧ e.save = false ∧ e.issuer = u) ∧
      (st ≠ stOK → ∃ t, exec (.launch d a b) s = .next t ∧ woken t ∧ t = { s with ctls := t.ctls, power := t.power, idleSince := t.idleSince } ∧
        getCtl t u = (behind s u (.launch d a b)).setG d.toNat (BitVec.ofNat 64 st) ∧ ∀ v, v ≠ u → getCtl t v = getCtl s v)) ∧
    (CtlRuns s u (.ctxrs d a b) → (getCtl s u).user = false → readG s u a % 4096 = 0 →
      readRecord (past s u (.ctxrs d a b)) u (getCtl s u).pc (readG s u a) = .ok r → saveFormat r.1 = true → readG s u b ≤ 63 →
      (unitSecure s u = false → blockSecure s 4 (readG s u b) = false ∧ savedSecure s r.2 = false) → (getQueue s (readG s u b)).length < 4096 →
      ∃ t e, exec (.ctxrs d a b) s = .next t ∧ getCtl t u = (behind s u (.ctxrs d a b)).setG d.toNat 0 ∧
        (∀ q, getQueue t q = if q = readG s u b then getQueue s q ++ [e] else getQueue s q) ∧ e.addr = readG s u a ∧ e.save = true ∧ t.round = true)) ∧
  (∀ (s : State) (u : Nat) (d a b : Spec),
    (CtlRuns s u (.conf d a) → readG s u a % 64 = 0 → isCore u = false →
      (cfgOfGrove s u = none → ∃ t, exec (.conf d a) s = .next t ∧ OnlyCtl s t u ((behind s u (.conf d a)).setG d.toNat (BitVec.ofNat 64 stNOTINST))) ∧
      (∀ k, cfgOfGrove s u = some k → (getCtl s u).wait = some 0 → cfgFiring s k.id = false →
        exec (.conf d a) s = .next (confApply (past s u (.conf d a)) u (getCtl s u).pc (readG s u a) (getCfg s k.id) d)) ∧
      (∀ k, cfgOfGrove s u = some k → (getCtl s u).wait = none → splicing k = false → k.st = .running → k.quiesce = false → cfgFiring s k.id = true →
        ∃ t, exec (.conf d a) s = .next t ∧ getCtl t u = { getCtl s u with wait := some 0, midway := true } ∧ (∀ q, findCfg s k.id = some q → (getCfg t k.id).quiesce = true) ∧
          t = { s with ctls := t.ctls, cfgs := t.cfgs })) ∧
    (CtlRuns s u (.splice d a b) → readG s u a % 64 = 0 → readG s u b % 64 = 0 → ∀ r q k,
      readRecord (past s u (.splice d a b)) u (getCtl s u).pc (readG s u a) = .ok r →
      readRecord (past s u (.splice d a b)) u (getCtl s u).pc (readG s u b) = .ok q → cfgOfRecord s q.2 = some k → k.succ = none →
      recSplice r.1 = true → recJoin r.1 = 0 → recW r.1 = k.width → recH r.1 = k.height → recN r.1 = k.stages → findCfg s k.id = some k → k.id < s.nextId →
      ∃ t c, exec (.splice d a b) s = .next t ∧ t = { s with ctls := t.ctls, cfgs := t.cfgs, nextId := s.nextId + 1, free := s.free + 1 } ∧
        getCtl t u = (behind s u (.splice d a b)).setG d.toNat 0 ∧ (getCfg t k.id).succ = some s.nextId ∧ c ∈ t.cfgs ∧ c.id = s.nextId ∧
        c.pred = some k.id ∧ c.origins = k.origins ∧ c.rcd = readG s u a) ∧
    (CtlRuns s u (.preempt d a) → (getCtl s u).user = false → ∀ r k,
      readRecord (past s u (.preempt d a)) u (getCtl s u).pc (readG s u a) = .ok r → cfgOfRecord s r.2 = some k → k.preemptible = true →
      splicing k = false → k.st = .running → findCfg s k.id = some k →
      ∃ t, exec (.preempt d a) s = .next t ∧ t = { s with ctls := t.ctls, cfgs := t.cfgs } ∧
        getCtl t u = (behind s u (.preempt d a)).setG d.toNat 0 ∧ getCfg t k.id = { k with st := .preempting, preempters := [u] }) ∧
    (CtlRuns s u (.ctxsv d a b) → (getCtl s u).user = false → readG s u a % 64 = 0 → readG s u b % 4096 = 0 → ∀ r k ps,
      readRecord (past s u (.ctxsv d a b)) u (getCtl s u).pc (readG s u a) = .ok r → cfgOfRecord s r.2 = some k → k.st = .held →
      physParts (past s u (.ctxsv d a b)) (ctlStream u) (ctlSrc (past s u (.ctxsv d a b)) u (getCtl s u).pc) .write (readG s u b)
        (saveLength k.width k.height k.stages) = .ok ps → findCfg s k.id = some k → k.id ≠ 0 → (∀ z, z ∈ s.saves → z.2.cfg ≠ k.id) →
      ∃ t, exec (.ctxsv d a b) s = .next t ∧ (getCfg t k.id).st = .saved ∧ (∀ c, (getCell t c).cfg ≠ k.id) ∧
        (tget {} t.saves ((ps.head?.map (·.2.1)).getD 0)).cfg = k.id ∧ (getCtl t u).pc = (getCtl s u).pc + 4 ∧ t.round = true))

/-- WFE and SEV (R191, R192): WFE returns the event bits that are set and clears them, waits without them, and answers EVTIME at once for a timeout
of 0; SEV sets EVSEV of the named controller, or with Z of every controller of the issuer's configuration.

R191 says only that a timeout of 0 returns at once: that its answer is EVTIME is the model's choice (log entry 40). -/
def Obligations.Events : Prop :=
  ∀ (s : State) (u : Nat) (d a : Spec),
    (CtlRuns s u (.wfe d a) →
      ((getCtl s u).events ≠ 0 → ∃ t, exec (.wfe d a) s = .next t ∧
        OnlyCtl s t u ({ behind s u (.wfe d a) with events := 0, deadline := none }.setG d.toNat (BitVec.ofNat 64 ((getCtl s u).events % 32)))) ∧
      ((getCtl s u).events = 0 → a.toNat ≠ 44 → (getCtl s u).deadline = none → readG s u a = 0 → ∃ t, exec (.wfe d a) s = .next t ∧
        OnlyCtl s t u ({ behind s u (.wfe d a) with events := 0, deadline := none }.setG d.toNat 16)) ∧
      ((getCtl s u).events = 0 → a.toNat = 44 → exec (.wfe d a) s = .next s) ∧
      ((getCtl s u).events = 0 → a.toNat ≠ 44 → (getCtl s u).deadline = none → readG s u a ≠ 0 → ∃ t, exec (.wfe d a) s = .next t ∧
        OnlyCtl s t u { getCtl s u with deadline := some (s.timens.toNat + readG s u a) })) ∧
    (CtlRuns s u (.sev a) → a.toNat ≠ 44 → readG s u a < 1024 → unitSecure s (readG s u a) = unitSecure s u →
      ∃ t, exec (.sev a) s = .next t ∧ t = { s with ctls := t.ctls } ∧ bit (getCtl t (readG s u a)).events 0 = true ∧
        (getCtl t u).pc = (getCtl s u).pc + 4 ∧ ∀ v, v ≠ u → v ≠ readG s u a → getCtl t v = getCtl s v) ∧
    (CtlRuns s u (.sev a) → a.toNat = 44 → isCore u = false → ∀ k, cfgOfGrove s u = some k →
      ∃ t, exec (.sev a) s = .next t ∧ t = { s with ctls := t.ctls } ∧ (∀ g, g ∈ k.groves → bit (getCtl t g).events 0 = true) ∧
        ∀ v, v ≠ u → v ∉ k.groves → getCtl t v = getCtl s v)

/-! ### Events: tokens, firings, commit -/

namespace Sys2Proof.Claims
open Sys2Proof.Machine

/-- The event `i` with argument `k` has the turn. -/
abbrev Ev (s : State) (i : Instr) (k : Nat) : Prop := s.turn = .event i k

/-- Item `k` of the pending work is `w`, and the event `i` that handles it has the turn. -/
abbrev WorkDue (s : State) (i : Instr) (k : Nat) (w : Work) : Prop := Ev s i k ∧ workAt s k = some w

/-- From `s` to `t` cell `c` changed, and every other cell is as before. -/
def OtherCells (s t : State) (c : Nat) : Prop := ∀ d, d ≠ c → getCell t d = getCell s d

/-- The cell's tokens after the firing took its inputs, which are those of its own identity.  A source, a data or predicate token, or an ordering
token of a scope of 3 or more shows the cell every write so far (R213, R215, R219). -/
def TookInputs (s t : State) (c ctx fr tag : Nat) : Prop :=
  let q := takeInputs s c ctx fr tag
  (getCell t c).tokens = (getCell q.2.2 c).tokens ∧ (getCell t c).held = (getCell s c).held ∧
    q.1.length + (getCell t c).tokens.length = (getCell s c).tokens.length ∧
    (∀ k, k ∈ q.1 → k ∈ (getCell s c).tokens ∧ k.ctx = ctx ∧ k.frame = fr ∧ k.itag = tag ∧ k.cfg = (getCell s c).cfg) ∧
    OtherCells s t c ∧ SameMem s t ∧ OthersSee s t c ∧ ((getViews s c = [] ∨ q.2.1 = true ∨ ∃ k, k ∈ q.1 ∧ 3 ≤ k.scope) → getViews t c = [])

/-- A fixed node's firing: its inputs are gone and `l` left on its routes, a token on a disabled route being discarded (R92). -/
def NodeFires (s t : State) (c ctx fr tag : Nat) (l : List (Nat × Token)) : Prop :=
  t = { s with cells := t.cells, work := t.work, views := t.views } ∧ TookInputs s t c ctx fr tag ∧ (getCell t c).firing = none ∧
    t.work = s.work ++ (l.filter fun q => ((getCell s c).route ctx q.1).en).map fun q =>
      let r := (getCell s c).route ctx q.1
      .token (routeDest (getCfg s (getCell s c).cfg) r) { q.2 with ctx := r.ctx, port := r.port, cfg := (getCell s c).cfg, route := routeKey c ctx q.1 }

/-- The operations of a memory node by group and function (R252): loads, stores, atomics. -/
def nodeLoad (g fn : Nat) : Option LoadOp := match g, fn with
  | 0, 0 => some .ld
  | 0, 2 => some .ldb
  | 0, 3 => some .ldx
  | 1, 0 => some .ldg
  | 1, 2 => some .ldgx
  | _, _ => none
def nodeStore (g fn : Nat) : Option StoreOp := match g, fn with
  | 0, 1 => some .st
  | 0, 4 => some .stx
  | 0, 5 => some .stnf
  | 1, 1 => some .stg
  | _, _ => none
def nodeAtomic (g fn : Nat) : Option Nat := if g = 2 then (match fn with
  | 0 => some 1
  | 1 => some 2
  | 2 => some 3
  | 3 => some 4
  | 5 => some 6
  | 6 => some 7
  | _ => none) else none

end Sys2Proof.Claims

/-- TOKEN_ARRIVAL, PREDICATE_ARRIVAL, COUNTER_BOUND and FILL_LAND (R95 to R97, R99, R109, R116, R118).  A token of a live frame joins the
tokens of its cell; a malformed one stops its frame with a TOKEN record of ILLOP; a bound token sets its counter's pending trip count
and is gone, its last flag noted, or stops its frame with BOUNDS; a value that lands makes its register FULL, or with an error leaves it EMPTY with
the fill-error bit, and the cell sees every write so far (R213). -/
def Obligations.Arrivals : Prop :=
  (∀ (s : State) (k c : Nat) (x : Token) (q : Cfg),
    let y := getCell s c
    routeFree s k x.route = true → tokenRoom s c x = true → y.cfg = x.cfg → findCfg s x.cfg = some q → q.st = .running →
    (q.frame x.frame).skipped = false → (q.frame x.frame).stopped = none →
    (∀ i w, (i = .tokenArrival ∧ w = .token c x) ∨ (i = .predicateArrival ∧ w = .predicate c x) → WorkDue s i k w →
      (malformed y x = false → isBound y x = false →
        ∃ t, exec i s = .next t ∧ t = { s with cells := t.cells, work := s.work.eraseIdx k } ∧ (getCell t c).tokens = y.tokens ++ [x] ∧
          (getCell t c).held = y.held ∧ (getCell t c).firing = y.firing ∧ OtherCells s t c) ∧
      (malformed y x = true →
        ∃ t r, exec i s = .next t ∧ (getFrame t x.cfg x.frame).stopped = some r ∧ r.kind = kTOKEN ∧ bits (r.w 0).toNat 56 8 = cILLOP ∧
          bits (r.w 0).toNat 40 8 = 4 ∧ t.cells = s.cells ∧ SameMem s t)) ∧
    (WorkDue s .counterBound k (.token c x) → malformed y x = false → isBound y x = true →
      let v := lane 32 x.payload.toNat 0
      (1 ≤ v → v < 2 ^ 24 →
        ∃ t, exec .counterBound s = .next t ∧ t = { s with cells := t.cells, work := s.work.eraseIdx k } ∧ (getCell t c).tokens = y.tokens ∧
          tget {} (getCell t c).counters (x.ctx * 1024 + x.frame) = { counterOf y x.ctx x.frame with pending := v } ∧
          (x.last = true → (x.ctx, x.frame, 1) ∈ (getCell t c).lasts) ∧ OtherCells s t c) ∧
      (v = 0 ∨ 2 ^ 24 ≤ v →
        ∃ t r, exec .counterBound s = .next t ∧ (getFrame t x.cfg x.frame).stopped = some r ∧ bits (r.w 0).toNat 56 8 = cBOUNDS ∧ SameMem s t ∧
          (getCell t c).counters = y.counters))) ∧
  ∀ (s : State) (k c j : Nat) (v : Reg) (e : Bool), WorkDue s .fillLand k (.fill c j v e) →
    ∃ t, exec .fillLand s = .next t ∧ t = { s with cells := t.cells, work := s.work.eraseIdx k, views := t.views } ∧ SeesAll s t c ∧ OtherCells s t c ∧
      (getCell t c).tokens = (getCell s c).tokens ∧
      ∀ n, tget {} (getCell t c).held n =
        if n = j then (if e then { tget {} (getCell s c).held j with err := true }
          else { tget {} (getCell s c).held j with value := v, st := .full, err := false })
        else tget {} (getCell s c).held n

/-- FIRING and MEMORY_NODE_FIRING (R94, R97, R98, R100, R107, R252).  A ready firing takes its inputs and starts at its entry word with an
empty buffer, the value of every input port, and a source its record's W1 as I0; with a false predicate it only takes its inputs.  A
memory node performs its operation at once, as R252 numbers them: its entries wait for their checks, and no byte of memory changes before
the commit.

STEER_FIRING, MERGE_FIRING, COUNTER_FIRING and REDUCTION_NODE_FIRING (R107 to R111).  A steer forwards its token on O0, or on O1 where
its predicate is false; a merge forwards the token it took on O0; a counter forwards its trigger on O0 with the running count as tag
and last at the end of a row, sends the row on O1 and at the end of K the count on O2, and steps its state; a reduction node sends the
lanes of its two tokens combined, or nothing where a predicate is false; where its adders differ, a free value (log entry 15), its frame
stops with SDC.  A token that a steer, a merge or a reduction node sends carries what precedes its predicate too (R213), and the widest scope. -/
def Obligations.FiringsStart : Prop :=
  (∀ (s : State) (c ctx fr tag : Nat),
    let x := getCell s c
    let q := takeInputs s c ctx fr tag
    (mayFire s c ctx fr tag 1 = true → anyFalse q.1 = false →
      ∃ t f, exec (.firing c ctx fr tag) s = .next t ∧ t = { s with cells := t.cells, nextId := s.nextId + 1, views := t.views } ∧ TookInputs s t c ctx fr tag ∧
        (getCell t c).firing = some f ∧ f.cfg = x.cfg ∧ f.ctx = ctx ∧ f.frame = fr ∧ f.itag = tag ∧ f.phase = .running ∧
        f.word = bits (x.field ctx 0) 16 8 ∧ f.inputs = q.1 ∧ f.out = [] ∧ f.uid = s.nextId ∧
        (∀ p, p < 4 → f.ivals.getD p 0 = if p = 0 ∧ q.2.1 = true then BitVec.ofNat 512 ((getCfg s x.cfg).w 1) else portValue p q.1)) ∧
    (∀ i k, (i = .firing c ctx fr tag ∧ k = 1) ∨ (i = .memoryNodeFiring c ctx fr tag ∧ k = 5) → mayFire s c ctx fr tag k = true →
      anyFalse q.1 = true →
      ∃ t, exec i s = .next t ∧ t = { s with cells := t.cells, views := t.views } ∧ TookInputs s t c ctx fr tag ∧ (getCell t c).firing = none) ∧
    (mayFire s c ctx fr tag 5 = true → anyFalse q.1 = false →
      let n := newFiring q.2.2 c ctx fr tag q.1 q.2.1
      let g : Firing := { n.1 with phase := .ending }
      let m := memNode n.2 c g
      let k7 := x.field ctx 7
      let r := bits k7 7 3
      let i0 := (g.ivals.getD 0 0).toNat
      let i1 := (g.ivals.getD 1 0).toNat
      let id := n.2.nextId
      let ends := fun h : Firing => ∃ t, exec (.memoryNodeFiring c ctx fr tag) s = .next t ∧ TookInputs s t c ctx fr tag ∧ (getCell t c).firing = some h
      let told := fun (h : Firing) (cls : Nat) => if bit k7 12 then nodeEntry n.2 c h cls 0 (some id) true (bits k7 13 3) else h
      (∀ op rc v, nodeLoad (bits k7 0 2) (bits k7 2 5) = some op → useRecord x ctx r false = .ok rc → loadCore n.2 m op rc i0 = .ok v → v.err = none →
        watchHit n.2 c false v.pieces = none → ends (nodeEntry n.2 c g 2 v.value none false)) ∧
      (∀ op rc z, nodeStore (bits k7 0 2) (bits k7 2 5) = some op → useRecord x ctx r true = .ok rc →
        storeCore n.2 m op rc (x.record ctx r) i1 i0 (bits k7 13 3) id = .ok z → watchHit n.2 c true z.acc.pieces = none →
        ends (told (({ g with out := [.access z.acc] } : Firing).report z.rep) 0)) ∧
      (∀ op rc z, nodeAtomic (bits k7 0 2) (bits k7 2 5) = some op → useRecord x ctx r true = .ok rc →
        atomicCore n.2 m op rc (x.record ctx r) i1 0 i0 (bits k7 13 3) id = .ok z → watchHit n.2 c true z.pieces = none →
        ends (told { g with out := [.access z] } 2)) ∧
      (∀ rc z, bits k7 0 2 = 0 → bits k7 2 5 = 6 → useRecord x ctx r false = .ok rc →
        seqclCore n.2 m rc (x.record ctx r) none (bits k7 13 3) id = .ok z → ends (told { g with out := [.close z.1 none] } 1)))) ∧
  (∀ (s : State) (c ctx fr tag : Nat) (a : Token),
    let x := getCell s c
    let q := takeInputs s c ctx fr tag
    let word := fun v : Nat => { a with width := 0, count := 0, last := false, payload := BitVec.ofNat 512 (v % 2 ^ 32) }
    (mayFire s c ctx fr tag 2 = true → q.1.find? (fun t => !t.pred) = some a →
      ∃ t, exec (.steerFiring c ctx fr tag) s = .next t ∧ NodeFires s t c ctx fr tag [(if anyFalse q.1 then 1 else 0, joined s q.1 a)]) ∧
    (mayFire s c ctx fr tag 3 = true → q.1.find? (fun t => !t.pred) = some a →
      ∃ t, exec (.mergeFiring c ctx fr tag) s = .next t ∧ NodeFires s t c ctx fr tag [(0, joined s q.1 a)]) ∧
    (mayFire s c ctx fr tag 4 = true → q.1.head? = some a →
      let z := counterOf x ctx fr
      let outer := bits (x.field ctx 7) 24 24
      let row := z.i + 1 = z.inner
      let k := row ∧ z.j + 1 = outer
      ∃ t, exec (.counterFiring c ctx fr tag) s = .next t ∧
        NodeFires s t c ctx fr tag ((0, { a with itag := z.n % 2 ^ 24, last := decide row }) ::
          (if row then [(1, word z.j)] else []) ++ if k then [(2, word (z.n + 1))] else []) ∧
        tget {} (getCell t c).counters (ctx * 1024 + fr) =
          { z with i := if row then 0 else z.i + 1, j := if k then 0 else if row then z.j + 1 else z.j, n := z.n + 1
                   inner := if row then z.pending else z.inner }) ∧
    (mayFire s c ctx fr tag 6 = true →
      (anyFalse q.1 = true → ∃ t, exec (.reductionNodeFiring c ctx fr tag) s = .next t ∧ NodeFires s t c ctx fr tag []) ∧
      (anyFalse q.1 = false → q.1.find? (fun t => !t.pred && t.port == 0) = some a → ∀ b,
        q.1.find? (fun t => !t.pred && t.port == 1) = some b →
        (Config.adderFault s.tick = true → exec (.reductionNodeFiring c ctx fr tag) s = .next (reductionSdc s c ctx fr tag)) ∧
        (Config.adderFault s.tick = false → ∃ t, exec (.reductionNodeFiring c ctx fr tag) s = .next t ∧
          NodeFires s t c ctx fr tag [(0, { joined s q.1 a with
            last := a.last && b.last, count := max a.count b.count
            payload := BitVec.ofNat 512 (reduceLanes (bits (x.field ctx 7) 3 3) (bits (x.field ctx 7) 0 3) (validPayload a) (validPayload b)) })]))))

namespace Sys2Proof.Claims
open Sys2Proof.Machine

/-- The words of barrier `bar` after operation `op` with `n` (R265). -/
def BarTakes (s t : State) (bar : Option (Nat × Nat)) (op n : Nat) : Prop := match bar with
  | some b => (readWord t b.1, readWord t (b.1 + 8)) = barNext op n (readWord s b.1) (readWord s (b.1 + 8))
  | none => SameMem s t

/-- One more job of the issuer is counted on the tag (R257, R274, R400). -/
def TagTakes (s t : State) (x : Src) (tag : Option Nat) : Prop := match tag with
  | some k => (x.kind = 3 ∨ (findCfg s x.cfg).isSome = true) → getTag t x k = { count := (getTag s x k).count + 1, issued := true }
  | none => ∀ k, getTag t x k = getTag s x k

/-- The command of issuer `x` has entered its engine (R102): `w` is the pending work without it.  A copy is queued at its dispatcher, counted on tag
and barrier (R257); SCANCEL leaves of the issuer's jobs on its tags only running ones, cancelled (R260); TCLR clears its tags (R262); a barrier
operation, a relation, sorting, placement or collective job is pending work (R265, R274, R281, R391, R400); a matrix command is the last of
its array's queue (R345); PDEF and CDEF define what they name (R281, R285). -/
def Entered (s t : State) (x : Src) (w : List Work) : Cmd → Prop
  | .copy j => t.work = w ++ [.copy { j with id := s.nextId, started := true, st := .queued }] ∧ TagTakes s t j.src (some j.tag) ∧
      BarTakes s t j.bar 2 ((j.count * (recOf j.drec).bits + 7) / 8)
  | .scancel m =>
      let hit := fun y : Work => match y with | .copy j => sameIssuer x j.src && bit m j.tag | _ => false
      t.work.filter (fun y => !hit y) = w.filter (fun y => !hit y) ∧
      ∀ j, .copy j ∈ t.work → hit (.copy j) = true → j.cancelled = true ∧ ∃ p i, j.st = .running p ∧ .copy i ∈ w ∧ j = { i with cancelled := true }
  | .tclr m => t.work = w ∧ ∀ k, k < 64 → (findCfg s x.cfg).isSome = true →
      getTag t x k = if bit m k then { getTag s x k with issued := false } else getTag s x k
  | .bar op pa n va => t.work = w ++ [.bar x op pa n va]
  | .mtx m => t.work = w ∧ (getGrove t (groveOf m.src.who)).queue = (getGrove s (groveOf m.src.who)).queue ++ [{ m with id := s.nextId }] ∧
      ∀ g, g ≠ groveOf m.src.who → getGrove t g = getGrove s g
  | .rel j => t.work = w ++ [.rel { j with id := s.nextId }] ∧ if relPending j.op then BarTakes s t j.bar 2 32 else SameMem s t
  | .sort j => t.work = w ++ [.sort { j with id := s.nextId }] ∧ TagTakes s t j.src j.tag
  | .pdef h d asn sizes self => t.work = w ∧
      ∀ k, getPlacement t k = if k = h then { defd := true, asn := asn, desc := d, sizes := sizes, self := self } else getPlacement s k
  | .demand d => t.work = w ++ [.demand { d with id := s.nextId }] ∧ TagTakes s t d.src d.tag
  | .cdef h b asn => t.work = w ∧
      ∀ k, getSlot t k = if k = h then { defd := true, asn := asn, block := b, inst := 65535, finished := true } else getSlot s k
  | .cstart h foot =>
      let n := ((getSlot s h).inst + 1) % 65536
      (∀ k, getSlot t k = if k = h then { getSlot s h with inst := n, finished := false, done := false, nf := 0 } else getSlot s k) ∧
      t.work = w ++ [.coll { id := s.nextId, src := { x with asn := (getSlot s h).asn }, handle := h, version := n, asn := (getSlot s h).asn, foot := foot }]

/-- What an entry at place `n` of the firing's buffer puts into the pending work, where it is neither a command nor a close and writes no
register: a store or atomic whole; a sequenced access as one contribution for each element, a store's cut where the owner of its bytes
changes (R197, R248); a token; a done token. -/
def entryWork (s : State) (c : Nat) (f : Firing) (e : Entry × Nat) : List Work := match e.1 with
  | .access a =>
    if a.group ≠ 0 then
      (if a.op = 0 then byOwner a.pieces else a.pieces).map fun p =>
        .contrib { a with pieces := [p], cnt := a.cnt.filter fun q => p.val2 = 0 ∧ q.1 = p.k } (ownerOf (p.bit / 8))
    else if a.pieces = [] then []
    else [if a.op = 0 then .store a else .atomic a]
  | .emit _ d y => [if y.pred then .predicate d (y.stamp (pastOut s c f)) else .token d (y.stamp (pastOut s c f))]
  | .done d y a o => [.done d { firingSrc s c f with pos := e.2, past := pastOut s c f } (y.stamp (pastOut s c f)) a o]
  | _ => []

/-- An entry of the kinds that `entryWork` covers; a token stays in the frame of its firing. -/
def sends (f : Firing) (e : Entry) : Bool := match e with
  | .access _ | .done .. | .hrec .. | .hdrop .. => true
  | .emit _ _ y => y.cfg == f.cfg && y.frame == f.frame
  | _ => false

end Sys2Proof.Claims

/-- OUTPUT_COMMIT (R102, R116, R133, R142, R143, R233, R239, R244, R248, R250, R314).  A firing that has ended, with every check returned, commits its
buffer; it leaves its cell once nothing it committed waits to enter.  Of a buffer with one entry: a register becomes FULL, EMPTY, tagged or
DROPPED, and a value that was on its way to one written anew is gone; a token, a value on its way, a store, an atomic or a done token enters
the pending work, with what precedes its consumer (R213); a command enters its engine and its held result becomes EMPTY; a close leaves for
every owner of its region, whose bytes become pending on its barrier.

Of a buffer with any number of entries: a register ends as they, in their order, leave it; and where they write no register and hold no
command and no close, what they send enters the pending work in their order, sequenced contributions among it.

That the entries of one buffer commit in one step is the model's choice (log entry 2). -/
def Obligations.Commits : Prop :=
  ∀ (s : State) (c : Nat) (f : Firing), Ev s .outputCommit c → (getCell s c).firing = some f → mayCommit s c f = true →
    (∃ t, exec .outputCommit s = .next t ∧ ((getCell t c).firing = none ∨ commitWaits t f.uid = true)) ∧
    (commitWaits s f.uid = false → ∀ (e : Option Entry) (w : List Work) (h : Table HeldReg), f.out = e.toList →
      let H := (getCell s c).held
      let past := pastOut s c f
      let due := fun k => s.work.filter fun x => match x with | .fill d j _ _ => !(d == c && j == k) | _ => true
      let put := fun (k : Nat) (r : HeldReg → HeldReg) => h = tset {} H k { r (tget {} H k) with past := past }
      ((e = none ∧ w = s.work ∧ h = H) ∨
       (∃ k v, e = some (.held k v) ∧ w = due k ∧ put k fun r => { r with value := v, st := .full, err := false }) ∨
       (∃ k v b, e = some (.fill k v b) ∧ w = due k ++ [.fill c k v b] ∧ put k fun r => { r with st := .empty, err := false }) ∨
       (∃ k r, e = some (.hrec k r) ∧ w = s.work ∧ h = tset {} H k { tget {} H k with tag := r }) ∨
       (∃ k, e = some (.hdrop k true) ∧ w = s.work ∧
         h = tset {} H k { tget {} H k with value := 0, st := .dropped, err := false }) ∨
       (∃ k, e = some (.hdrop k false) ∧ w = s.work ∧ h = H) ∨
       (∃ a, e = some (.access a) ∧ a.group = 0 ∧ a.pieces ≠ [] ∧ a.cnt = [] ∧ w = s.work ++ [if a.op = 0 then .store a else .atomic a] ∧ h = H) ∨
       (∃ r d x, e = some (.emit r d x) ∧ x.cfg = f.cfg ∧ x.frame = f.frame ∧ (getFrame s f.cfg f.frame).skipped = false ∧
         w = s.work ++ [if x.pred then .predicate d (x.stamp past) else .token d (x.stamp past)] ∧ h = H) ∨
       (∃ d x a o, e = some (.done d x a o) ∧ (getFrame s f.cfg f.frame).skipped = false ∧
         w = s.work ++ [.done d { firingSrc s c f with pos := 0, past := past } (x.stamp past) a o] ∧ h = H)) →
      ∃ t, exec .outputCommit s = .next t ∧ t = { s with cells := t.cells, cfgs := t.cfgs, work := w, views := t.views } ∧ OthersSee s t c ∧
        (t.views = s.views ∨ ((∃ k v, e = some (.held k v)) ∧ getViews t c = [])) ∧ (getCell t c).firing = none ∧ (getCell t c).held = h ∧ (getCell t c).tokens = (getCell s c).tokens ∧ OtherCells s t c ∧
        ∀ k, findCfg s f.cfg = some k → getFrame t f.cfg f.frame = (getFrame s f.cfg f.frame).report f.rep) ∧
    (s.poison = [] → s.drains = [] →
      let past := pastOut s c f
      let x := { firingSrc s c f with past := past }
      let due := fun k => s.work.filter fun y => match y with | .fill d j _ _ => !(d == c && j == k) | _ => true
      (∀ k h, f.out = [.cmd k h] →
        ∃ t, exec .outputCommit s = .next t ∧ Entered s t { x with pos := 0 } (match h with | some n => due n | none => s.work) (k.stamp past) ∧
          (getCell t c).tokens = (getCell s c).tokens ∧ OtherCells s t c ∧ (getCell t c).held = match h with
            | some n => tset {} (getCell s c).held n { tget {} (getCell s c).held n with st := .empty, err := false, past := past }
            | none => (getCell s c).held) ∧
      (∀ a bar, f.out = [.close a bar] →
        ∃ t, exec .outputCommit s = .next t ∧ BarTakes s t bar 2 (pieceBytes a.pieces) ∧ OtherCells s t c ∧
          t.work = s.work ++ (ownersOf a.pieces).map fun o =>
            .close a o a.src.itag bar (pieceBytes ((byOwner a.pieces).filter fun p => ownerOf (p.bit / 8) == o))) ∧
      (∀ k h, heldView (getCell s c) f k = h → (h.2 = .none ∨ h.2 = .write ∨ h.2 = .drop) →
        ∃ t, exec .outputCommit s = .next t ∧ { tget {} (getCell t c).held k with past := [] } = { h.1 with past := [] }) ∧
      ((∀ e, e ∈ f.out → sends f e = true) → (getFrame s f.cfg f.frame).skipped = false →
        ∃ t, exec .outputCommit s = .next t ∧ t = { s with cells := t.cells, cfgs := t.cfgs, placement := t.placement, work := t.work } ∧
          t.work = s.work ++ f.out.zipIdx.flatMap (entryWork s c f) ∧ OtherCells s t c))

/-! ### Events: owners -/

/-- OWNER_CHECK, STORE_PERFORM, ATOMIC_APPLY, DONE_TOKEN, SEQ_CONTRIBUTION, SEQ_CLOSE, BARRIER_UPDATE and PAGE_WALK (R207, R208, R212, R217, R226 to
R228, R233, R239, R243 to R250, R265, R413).  A check that meets nothing puts a store or atomic in flight, and a race withdraws its firing.
A step of a store writes one event of it and no other bit, and a step of an atomic replaces one element by its result, the last returning the
old values; a done token enters the network; a contribution is staged, or discarded once its sequence is applied; a close out of turn is
recorded, and one in turn applies what is staged; a barrier takes its words; a walk refills its holder.  While no checkpoint is active, no
granule is uncorrectable and no port that is needed is down.

The events of a store: a naturally aligned access or vector is one (R226), and any other has one for each naturally aligned piece of an element;
the next is any that shares no bit with one before it.  Which, is a free value (log entry 63). -/
def Obligations.OwnersAct : Prop :=
  ((∀ (a : Acc) (n : Nat), a.pieces ≠ [] →
    let l := if a.begun then a.pieces else a.pieces.flatMap fun y => splitPiece (y.len / 8 + 2) y
    (a.begun = false → wholeAccess a.pieces = true → a.split n = (a.pieces, [])) ∧
    (a.begun = true ∨ wholeAccess a.pieces = false → ∃ i y, l[i]? = some y ∧ a.split n = ([y], l.eraseIdx i) ∧
      ∀ j z, j < i → l[j]? = some z → piecesMeet [z] [y] = false)) ∧
  (∀ x y : Piece, y ∈ splitPiece (x.len / 8 + 2) x →
    y.len = alignedBits y.bit y.len ∧ x.bit ≤ y.bit ∧ y.bit + y.len ≤ x.bit + x.len ∧ ∀ n, n < y.len → bit y.val n = bit x.val (y.bit - x.bit + n)) ∧
  (∀ (x : Piece) (n : Nat), n < x.len → ∃ y, y ∈ splitPiece (x.len / 8 + 2) x ∧ y.bit ≤ x.bit + n ∧ x.bit + n < y.bit + y.len)) ∧
  ∀ (s : State) (k : Nat),
    let p := dropWork s k
    let outside := fun (t : State) (b len : Nat) => ∀ y, ¬ (b ≤ y ∧ y < b + len) →
      bit (memByte t (y / 8)).toNat (y % 8) = bit (memByte s (y / 8)).toNat (y % 8)
    (∀ me, WorkDue s .ownerCheck k (.check me) →
      (raceOf p (checkPast p me) = none → (∀ g, (getCell s me.src.who).firing = some g → g.race = none ∧ g.fault = none) →
        ∃ t, exec .ownerCheck s = .next t ∧
          t = { p with inflight := s.inflight ++ if me.kind = .store ∨ me.kind = .atomic then [me] else [] }) ∧
      (∀ r g, raceOf p (checkPast p me) = some r → (getCell s me.src.who).firing = some g → g.uid = me.src.uid → g.race = none → g.phase ≠ .committing →
        checksBefore p me.src.uid me.src.word = false →
        ∃ t, exec .ownerCheck s = .next t ∧ (getCell t me.src.who).firing = none ∧
          (getCell t me.src.who).tokens = g.inputs ++ (getCell s me.src.who).tokens ∧ SameMem s t)) ∧
    (s.drains = [] → s.poison = [] →
      (∀ a q, WorkDue s .storePerform k (.store a) → inTurn s k a = true → a.pieces ≠ [] → a.drop = none → a.split s.tick = q →
        (∀ y, y ∈ q.1 → unreachable s (y.bit / 8) = false) →
        ∃ t, exec .storePerform s = .next t ∧ (∀ y, y ∈ q.1 → readBits t y.bit y.len = y.val % 2 ^ y.len) ∧
          (∀ b, (∀ y, y ∈ q.1 → ¬ (y.bit ≤ b ∧ b < y.bit + y.len)) → bit (memByte t (b / 8)).toNat (b % 8) = bit (memByte s (b / 8)).toNat (b % 8)) ∧
          (q.2 = [] → t = { p with mem := t.mem, views := t.views, inflight := s.inflight.filter fun f => f.id ≠ a.id }) ∧
          (q.2 ≠ [] → t = { s with
            mem := t.mem, views := t.views, inflight := t.inflight, work := s.work.set k (.store { a with pieces := q.2, begun := true }) })) ∧
      (∀ a i x, WorkDue s .atomicApply k (.atomic a) → inTurn s k a = true → nextEvent s.tick (a.pieces.map fun y => [y]) = i →
        a.pieces[i]? = some x → a.drop = none → unreachable s (x.bit / 8) = false →
        let l := a.pieces.eraseIdx i
        let old := readBits s x.bit x.len
        let olds := a.olds ++ [(x.k, old)]
        let lw := if (recOf a.rcd).bits = 64 then 64 else 32
        ∃ t, exec .atomicApply s = .next t ∧
          readBits t x.bit x.len = (atomicElem a.op (recOf a.rcd) a.src.itag x.va old x.val x.val2).1 % 2 ^ x.len ∧ outside t x.bit x.len ∧
          (l ≠ [] → t.work = s.work.set k (.atomic { a with pieces := l, olds := olds })) ∧
          (l = [] → t.inflight = (s.inflight.filter fun f => f.id ≠ a.id) ∧ ∀ d y r o, .done d y r (some a.id) o ∈ p.work →
            .done d y { r with payload := BitVec.ofNat 512 (ofLanes lw ((List.range (512 / lw)).map fun j => ((olds.find? fun e => e.1 == j).map (·.2)).getD 0)) }
              (some a.id) o ∈ t.work)) ∧
      (∀ y op pa n va, WorkDue s .barrierUpdate k (.bar y op pa n va) → barReady s k = true →
        ∃ t, exec .barrierUpdate s = .next t ∧
          t = { p with mem := t.mem, barWaits := t.barWaits, barPast := t.barPast, barNow := t.barNow, views := t.views } ∧
          (readWord t pa, readWord t (pa + 8)) = barNext op n (readWord s pa) (readWord s (pa + 8)) ∧ outside t (pa * 8) 128)) ∧
    (∀ d y x a o, WorkDue s .doneToken k (.done d y x a o) → doneReady s k = true →
      ∃ t, exec .doneToken s = .next t ∧ t = { s with work := s.work.set k (.token d x) }) ∧
    (∀ i d y x os, WorkDue s .doneToken k (.closeDone i d y x os) → doneReady s k = true →
      ∃ t, exec .doneToken s = .next t ∧ t = { s with work := s.work.set k (.token d x) }) ∧
    (∀ a o x l, WorkDue s .seqContribution k (.contrib a o) → contribReady s k = true → a.pieces = x :: l →
      (∀ y, y ∈ a.pieces → unreachable s (y.bit / 8) = false) → closedGroups s o = [] →
      let g := getGroup s o a.group
      ∃ t, exec .seqContribution s = .next t ∧ SameMem s t ∧ t.work = s.work.eraseIdx k ∧ (getGroup t o a.group).held = true ∧
        (∀ h, h ≠ groupKey o a.group → tget {} t.groups h = tget {} s.groups h) ∧
        (g.past a.src.itag = true → (getGroup t o a.group).staged = g.staged ∧ (getGroup t o a.group).discarded = satAdd g.discarded 1) ∧
        (g.past a.src.itag = false →
          let key := seqKey p a x.bit
          let same := fun e : Staged => e.seq == a.src.itag && e.key == key
          let olds := (g.staged.filter same).flatMap fun e => (e.acc.id, e.acc.src.uid, e.acc.src.pos) :: e.olds
          (getGroup t o a.group).staged = (g.staged.filter fun e => !same e) ++ [{ seq := a.src.itag, key := key, acc := a, olds := olds }])) ∧
    (∀ a o q b n, WorkDue s .seqClose k (.close a o q b n) → closeReady s k = true → ownerDown s o = false → q ≠ 0xFFFFFF → a.group < 65536 →
      (getGroup s o a.group).past q = false → (∀ h, h ∈ closedGroups s o → h = a.group) →
      let c : Closing := { seq := q, id := a.id, src := a.src, bar := b, bytes := n }
      let g := getGroup s o a.group
      let next := match g.applied with | some c => c + 1 | none => 0
      (q ≠ next → (∀ z, z ∈ g.closes → z.seq ≠ next) →
        ∃ t, exec .seqClose s = .next t ∧ SameMem s t ∧ getGroup t o a.group = { g with held := true, closes := g.closes ++ [c] }) ∧
      (q = next → g.closes = [] → (∀ e, e ∈ g.staged → e.seq ≠ q) → b = none →
        ∃ t, exec .seqClose s = .next t ∧ SameMem s t ∧ getGroup t o a.group = { g with held := true, applied := some q }) ∧
      (q = next → g.closes = [] → b = none → s.drains = [] → s.poison = [] →
        (∀ e, e ∈ g.staged → e.seq = q → contribBefore (setGroup p o a.group { g with held := true, closes := [c] }) e.acc = false) →
        ∃ t, exec .seqClose s = .next t ∧ (getGroup t o a.group).applied = some q ∧ (getGroup t o a.group).closes = [] ∧
          (getGroup t o a.group).staged = g.staged.filter (fun e => e.seq ≠ q) ∧
          ∀ e y, g.staged.filter (fun z => z.seq = q) = [e] → e.acc.op = 0 → e.acc.pieces = [y] →
            readBits t y.bit y.len = y.val % 2 ^ y.len ∧ outside t y.bit y.len)) ∧
    (∀ h n va w, WorkDue s .pageWalk k (.walk h n va w) →
      (walk p n va w = none → exec .pageWalk s = .next p) ∧
      (∀ e, walk p n va w = some e →
        ∃ t, exec .pageWalk s = .next t ∧ t = { p with tlbs := t.tlbs } ∧ (tget [] t.tlbs h).head? = some e ∧
          ∀ j, j ≠ h → tget [] t.tlbs j = tget [] s.tlbs j))

/-! ### Events: engines -/

/-- COPY_JOB_START, COPY_ELEMENT and COPY_JOB_COMPLETE (R255, R257, R258, R259, R403).  The next job of a port starts, one not yet started being
counted on its tag; one that has no port of a world it may use stops with PERM; a running job copies its next element, whose bits the destination then has; an element that the record of its source
refuses stops the job; a job that has moved everything leaves its port and its tag, and its completion token enters the network. -/
def Obligations.CopyJobsRun : Prop :=
  ∀ (s : State) (k : Nat) (j : CopyJob), (j.src.kind = 3 ∨ (findCfg s j.src.cfg).isSome = true) →
    let x := portSrc s j
    let a := recOf j.srec
    let b := recOf j.drec
    (∀ p, WorkDue s .copyJobStart k (.copy j) → startPort s k = some p → portBarred s j.src j.grove p = true →
      exec .copyJobStart s = .next (jobTrap (jobSettle (dropWork (if j.started then s else jobStart s j) k) { j with started := true })
        { cause := cPERM, detail := dWORLD } j.src (some j.tag))) ∧
    (∀ p, WorkDue s .copyJobStart k (.copy j) → startPort s k = some p → portBarred s j.src j.grove p = false → (j.bar = none ∨ s.poison = []) →
      ∃ t, exec .copyJobStart s = .next t ∧ t.work = s.work.set k (.copy { j with started := true, st := .running p }) ∧ t.cells = s.cells ∧
        (j.started = true → t = { s with work := t.work }) ∧
        (j.started = false → getTag t j.src j.tag = { count := (getTag s j.src j.tag).count + 1, issued := true } ∧ (j.bar = none → SameMem s t))) ∧
    (WorkDue s .copyElement k (.copy j) → copyRuns s k = true →
      (∃ t, exec .copyElement s = .next t) ∧
      (∀ e f va pa m s₁ vb pb n s₂, a.elem (j.sstart + j.moved) = .ok (.at_ e) → jobParts s j.stream x .read e a.bits = .ok ([(va, pa, m, 0)], s₁) →
        b.elem (j.dstart + j.moved) = .ok (.at_ f) → jobParts s₁ j.stream x .copyDst f b.bits = .ok ([(vb, pb, n, 0)], s₂) →
        j.xform = false → b.nf0 = false → s.drains = [] → s.poison = [] →
        ∃ t i, exec .copyElement s = .next t ∧ t = { s with mem := t.mem, views := t.views, tlbs := t.tlbs, work := s.work.set k (.copy i) } ∧ i.moved = j.moved + 1 ∧
          i.count = j.count ∧ i.st = j.st ∧ readBits t pb n = readBits s pa m % 2 ^ n ∧
          ∀ y, ¬ (pb ≤ y ∧ y < pb + n) → bit (memByte t (y / 8)).toNat (y % 8) = bit (memByte s (y / 8)).toNat (y % 8)) ∧
      (∀ e, a.elem (j.sstart + j.moved) = .error e →
        exec .copyElement s = .next (jobTrap (jobSettle (dropWork s k) j) e j.src (some j.tag)))) ∧
    (WorkDue s .copyJobComplete k (.copy j) → copyEnds s k = true →
      ∃ t, exec .copyJobComplete s = .next t ∧
        (j.started = true → (getTag t j.src j.tag).count = (getTag s j.src j.tag).count - 1) ∧
        (j.cancelled = false → j.drop = none → ∀ d y, j.tok = some (d, y) → (getFrame s y.cfg y.frame).skipped = false →
          t.work = s.work.eraseIdx k ++ [.token d y]) ∧
        (j.tok = none ∨ j.cancelled = true ∨ j.drop ≠ none → t.work = s.work.eraseIdx k))

/-- MTX_COMMAND_AT_HEAD (R345 to R359).  The command at the head leaves the queue with its effect: MSWP exchanges the planes, MCLR clears and
binds a set, MSHP shapes it, MLW fills the shadow plane, MRD.H and MCHK send a value to their register, and an MSTR's last K-block adds
its block sums; a command that its set or plane refuses stops its frame, and the frame's other commands are gone.

Which blocks mismatch is a matter of hardware errors, a free value (log entry 15): the last clause assumes none. -/
def Obligations.ArrayActs : Prop :=
  ∀ (s : State) (g : Nat) (m : MtxCmd), Ev s .mtxCommandAtHead g → mtxReady s g = some m →
    let x := getGrove s g
    let own := some (m.src.cfg, m.src.frame)
    let does := fun (y : Grove) (w : List Work) => ∃ t, exec .mtxCommandAtHead s = .next t ∧
      t = { s with groves := t.groves, work := s.work ++ w } ∧ getGrove t g = { y with queue := x.queue.drop 1 } ∧
      ∀ h, h ≠ g → getGrove t h = getGrove s h
    (∃ t, exec .mtxCommandAtHead s = .next t) ∧
    (∀ e k, mtxArrival s g m = some e → findCfg s m.src.cfg = some k → (k.frame m.src.frame).stopped = none → m.src.kind ≠ 3 →
      e.cause < 256 → e.inner < 256 → e.detail < 256 → ∃ t r, exec .mtxCommandAtHead s = .next t ∧
        (getFrame t m.src.cfg m.src.frame).stopped = some r ∧ r.kind = kJOB ∧ bits (r.w 0).toNat 56 8 = e.cause ∧
        (getGrove t g).queue = x.queue.filter fun q => !(q.src.cfg == m.src.cfg && q.src.frame == m.src.frame)) ∧
    (mtxArrival s g m = none →
      (m.op = .mswp → does { x with active := x.shadow, shadow := x.active } []) ∧
      (∀ k, m.op = .mclr k → does { x with sets := tset {} x.sets k { getSet s g k with acc := [], mb := 0, nb := 0, owner := own } } []) ∧
      (∀ k a b c, m.op = .mshp k a b c → does { x with sets := tset {} x.sets k { getSet s g k with m := a, n := b, k := c } } []) ∧
      (∀ r e a b rows, m.op = .mlw r e a b → mlwRows s m.src (recOf r) e a b = .ok rows →
        does { x with shadow := loadPlane (recOf r).fmt rows } []) ∧
      (∀ h k r q, m.op = .mrdH h k r q false → does x [.fill m.src.who h (BitVec.ofNat 512 (mrdValue (getSet s g k) r q)) false]) ∧
      (∀ h, m.op = .mchk h → does x [.fill m.src.who h (BitVec.ofNat 512 (mchkValue x)) false]) ∧
      (∀ k r e j fl nf pf af rows, m.op = .mstr k r e j fl nf → numFmt (x.active.fmt.getD 0) = some pf → numFmt (recOf r).fmt = some af →
        let a := getSet s g k
        mstrRows s m.src (recOf r) e a.m a.k j = .ok rows →
          mstrMismatch s a (x.active.fmt == some 9) (mstrBlock a x.active pf af rows j).2.2 x.bc k j = none → a.k ≤ 32 * (j + 1) → a.n ≤ 64 → a.m ≤ 64 →
        ∃ t, exec .mtxCommandAtHead s = .next t ∧ (getGrove t g).queue = x.queue.drop 1 ∧ SameMem s t ∧
          ∀ u n, u < a.m → n < a.n → (getSet t g k).at_ u n =
            (opFadd fF32 .rne (a.at_ u n) (mstrSum x.active pf af (rows.getD u []) j n).code).code % 2 ^ 32))

namespace Sys2Proof.Claims
open Sys2Proof.Machine

/-- From `s` to `t` the writes of the issuer, address, bytes and value, are performed in order, and none of them is dropped (R441). -/
def PutAll (x : Src) : State → List (Nat × Nat × Nat) → State → Prop
  | s, [], t => t = s
  | s, w :: l, t => ∃ u, jobPut s x w.1 w.2.1 w.2.2 = .ok (u, none) ∧ PutAll x u l t

/-- From `s` to `t` the bit QUIESCENT of the descriptor at `va` is `v` (R378, R397); it is written where it was another. -/
def Quiet (x : Src) (v : Nat) (s : State) (va : Nat) (t : State) : Prop := ∃ w, jobBytes s x va 8 = .ok w ∧
  if bits w 63 1 = v then t = s else jobPut s x va 8 (putBits w 63 1 v) = .ok (t, none)

/-- From `s` to `t` each descriptor that a word of the list names has QUIESCENT set (R397). -/
def QuietAll (x : Src) : State → List Nat → State → Prop
  | s, [], t => t = s
  | s, a :: l, t => ∃ e u, jobBytes s x a 8 = .ok e ∧ Quiet x 1 s (e % 2 ^ 56) u ∧ QuietAll x u l t

/-- In the order of a sorting job `a` need not stand behind `b` (R338, R400). -/
def SortLe (j : SortJob) (ty : RedTy) (a b : Elem) : Prop := (if j.descends then keyLt ty a.lane b.lane else keyLt ty b.lane a.lane) = false

end Sys2Proof.Claims

/-- RELATION_JOB_BLOCK, RELATION_CONTRIBUTION, RRND_ROUND_CLOSE and SORT_JOB_BLOCK (R373, R376 to R380, R388, R393, R394, R396, R397, R401).  The
oldest job of a grove's unit performs its next block: RINS and RDEL send a base fact, RJOIN, RANTI and RGRAD their contributions for each of
64 tuples; RDEF and RCLR clear every shard; RLOOK sends what it found; RQCK arrives at its barrier, and once released sums, clears and sends
its result; a contribution that its algebra discards changes nothing, and another takes its slot in NEXT; RRND closes its round, or stops its
frame where FULL has no room; a sorting job reads or writes its next element, and settles its tag after the last.  Each where what it reads and
writes can be reached.

The rows that sorting writes: a permutation of the entries in key order, stable for RSORT, of which RTOPK keeps the first k; RMRG's, of two runs in
order, are in order (R401).

The model's choices: that one step performs up to 64 tuples (log entry 2); that a contribution owned by another device leaves this one, since
nothing of that device is state here (log entry 17); and that a row of RTOPK with fewer than k entries has no further ones (log entry 42). -/
def Obligations.RelationUnitActs : Prop :=
  (∀ (s : State) (k : Nat) (j : RelJob), workAt s k = some (.rel j) → j.drop = none →
    let x := j.src
    let land := fun (h : Option Nat) (v : Nat) => h.toList.map fun r => Work.fill x.who r (BitVec.ofNat 512 v) false
    (Ev s .relationJobBlock k → relReady s k false = true →
      let sends := fun (p : State) (n : Nat) (cs : List RelContrib) => ∃ t, exec .relationJobBlock s = .next t ∧ t = { p with
        work := (if n ≤ j.progress + 64 then s.work.eraseIdx k else s.work.set k (.rel { j with progress := j.progress + 64 })) ++ cs.map .relContrib,
        barWaits := t.barWaits }
      let ends := fun (p : State) (w : List Work) => ∃ t, exec .relationJobBlock s = .next t ∧
        t = { p with work := p.work.eraseIdx k ++ w, barWaits := t.barWaits }
      (∃ t, exec .relationJobBlock s = .next t) ∧
      (∀ d ts del, j.op = .rins d ts del → j.bar = none → sends s ts.length (((ts.drop j.progress).take 64).map fun y => baseFact j d del y.toNat)) ∧
      (∀ w h a b anti l cs, j.op = .rjoin w h a b anti → j.bar = none → joinProbes s j a b anti = .ok l →
        ((l.drop j.progress).take 64).mapM (fun q => if q.1 then probeDeltaB s j w.toNat h a q.2 else probeDeltaA s j w.toNat h b anti q.2) = .ok cs →
        sends s l.length cs.flatten) ∧
      (∀ h g r l cs, j.op = .rgrad h g r → j.bar = none → roundTraces s x h r = .ok l → ((l.drop j.progress).take 64).mapM (gradOne s j h g) = .ok cs →
        sends s l.length cs.flatten) ∧
      (∀ d use p w q, j.op = .rclr d use → PutAll x s ((List.range d.shards).map fun n => (d.shard n, d.size, 0)) p →
        jobBytes p x d.va 16 = .ok w → jobPut p x d.va 16 (putBits (putBits w 63 1 0) 104 24 0) = .ok (q, none) →
        ends { q with rels := if use && !q.rels.contains d.pa then q.rels ++ [d.pa] else q.rels } []) ∧
      (∀ d ks h n l, j.op = .rlook d ks h → ownerShard s d (ks.getD d.index 0) = some n → readPart s x d n 0 = .ok l →
        ends s (land h (((l.find? fun y => tupState y == 1 && tupKeys y == ks).map fun y => putBits y 249 5 0).getD 0))) ∧
      (∀ b bar va l n g h p, j.op = .rqck b bar va l n g h → s.poison = [] → s.drains = [] →
        let ph := bits (readWord s bar) 32 8
        let sum := b + 16 + 8 * (ph % 4)
        (j.arrived = false → (g = true ∧ p = s ∨ g = false ∧ ∃ v, jobBytes s x sum 8 = .ok v ∧ jobPut s x sum 8 ((v + n) % 2 ^ 64) = .ok (p, none)) →
          exec .relationJobBlock s = .next (setWork (barWrite
            { p with barWaits := p.barWaits ++ [{ pa := bar, who := x.who, uid := j.id, expected := ph }] } 1 bar 1 x.insn.toNat x.before).1 k
            (.rel { j with arrived := true, phase := ph }))) ∧
        (∀ c q, j.arrived = true → (g = true ∧ c = n ∨ g = false ∧ jobBytes s x (b + 16 + 8 * (j.phase % 4)) 8 = .ok c) →
          jobPut s x (b + 16 + 8 * ((j.phase + 3) % 4)) 8 0 = .ok (p, none) →
          (c ≠ 0 ∧ q = p ∨ c = 0 ∧ ∃ m, jobBytes p x l 8 = .ok m ∧ QuietAll x p ((List.range (m % 256)).map fun i => l + 8 + 8 * i) q) →
          let now := ((findWait s x.who j.id).bind fun w => w.got).getD 0
          ends q (land h (c + now * 2 ^ 64 + if c = 0 then 2 ^ 96 else 0))))) ∧
    (Ev s .rrndRoundClose k → relReady s k true = true → ∀ d h n hd full next, j.op = .rrnd d h → groveShard s x d = some n →
      readHeader s x d n = .ok hd → readPart s x d n 0 = .ok full → readPart s x d n 2 = .ok next →
      let all := (nextKeys next).foldlM (closeTuple d hd.rc next) { full := full, delta := List.replicate d.slots 0 }
      (all = none → exec .rrndRoundClose s =
        .next (jobTrap (relEnd (relLand s j h (roundResult 0 0 hd.rc)) k j) (nextFull s d n 2) x none)) ∧
      (∀ r p q w, all = some r →
        (let live := (r.full.filter fun y => tupState y == 1).length
         PutAll x s [(partVa d n 0, d.part, partValue r.full), (partVa d n 1, d.part, partValue r.delta), (partVa d n 2, d.part, 0),
           (d.shard n, 40, ({ hd with rc := hd.rc + 1, nfull := live, nnext := 0, ndelta := r.n, dups := 0, sat := satAdd hd.sat r.sat } : Header).value)] p) →
        jobBytes p x (d.va + 8) 8 = .ok w →
        (if bits w 40 24 < hd.rc + 1 then jobPut p x (d.va + 8) 8 (putBits w 40 24 (hd.rc + 1)) = .ok (q, none) else q = p) →
        ∃ t, exec .rrndRoundClose s = .next t ∧
          t = { q with work := q.work.eraseIdx k ++ land h (roundResult r.n (hd.dups + r.dups) (hd.rc + 1)), barWaits := t.barWaits }))) ∧
  (∀ (s : State) (k : Nat) (c : RelContrib), WorkDue s .relationContribution k (.relContrib c) → c.bar = none →
    let p := dropWork s k
    let d := c.desc
    let a := d.algebra
    (∃ t, exec .relationContribution s = .next t) ∧
    (ownerShard p d (c.keys.getD d.index 0) = none → exec .relationContribution s =
      .next (if indexDown p c.src d (c.keys.getD d.index 0) then jobTrap p (cause cLINK 0 d.va) c.src none else p)) ∧
    (∀ n h, ownerShard p d (c.keys.getD d.index 0) = some n → contribRace p c n = none → readHeader p c.src d n = .ok h → c.clamped = false →
      (discard a c.weight = 2 → exec .relationContribution s = .next p) ∧
      (∀ q, discard a c.weight = 1 → jobPut p c.src (d.shard n) 40 ({ h with nonfin := satAdd h.nonfin 1 } : Header).value = .ok (q, none) →
        exec .relationContribution s = .next (if d.handle = 0 then q else countHandle q d.handle 1)) ∧
      (∀ full next i q r v, discard a c.weight = 0 → d.trace = false → readPart p c.src d n 0 = .ok full → readPart p c.src d n 2 = .ok next →
        freeSlot d next c.keys [] = some i →
        (algIdem a = true ∧ findTup d full c.keys = none ∧ findTup d next c.keys = none ∧ v = mkSlot c.keys c.tid c.weight (liveW3 0 0xFFFFFFFF) ∨
          algIdem a = false ∧ v = mkSlot c.keys c.ida c.weight
            (2 ^ 62 + c.rule % 65536 * 2 ^ 46 + (if c.neg then 2 ^ 33 else 0) + c.side % 2 * 2 ^ 32 + c.idb % 2 ^ 32)) →
        PutAll c.src p [(partVa d n 2 + 32 * i, 32, v), (d.shard n, 40, ({ h with nnext := h.nnext + 1 } : Header).value)] q →
        Quiet c.src 0 q d.va r → exec .relationContribution s = .next r))) ∧
  (∀ (s : State) (k : Nat) (j : SortJob), WorkDue s .sortJobBlock k (.sort j) → sortReady s k = true →
    (∃ t, exec .sortJobBlock s = .next t) ∧
    (j.reads = true →
      let i := j.read.length
      let at_ := jobRead s none j.src (j.recAt i) (j.e + j.row * j.rowIn + i / j.per)
      (∀ e, at_ = .error e → exec .sortJobBlock s = .next (jobTrap (sortEnd s k j) e j.src j.tag)) ∧
      ∀ v u, at_ = .ok (v, u) → ∃ t, exec .sortJobBlock s = .next t ∧
        let j := { j with read := j.read ++ [v.getD 0] }
        t = { s with work := s.work.set k (.sort (if j.reads then j else { j with out := j.output })) }) ∧
    (∀ v l, j.reads = false → j.out = v :: l →
      let i := j.outLen - j.out.length
      ∀ p d, jobWrite s none j.src (j.recAt i) (j.o + j.row * j.rowOut + i / j.per) v = .ok (p, d) →
        let y := { j with out := l, drop := j.drop.orElse fun _ => d }
        (l ≠ [] → ∃ t, exec .sortJobBlock s = .next t ∧ t = { p with work := p.work.set k (.sort y) }) ∧
        (l = [] → j.row + 1 < j.rows →
          ∃ t, exec .sortJobBlock s = .next t ∧ t = { p with work := p.work.set k (.sort { y with row := j.row + 1, read := [] }) }) ∧
        (l = [] → j.rows ≤ j.row + 1 → y.drop = none → ∃ t, exec .sortJobBlock s = .next t ∧ t.work = p.work.eraseIdx k ∧ SameMem p t ∧
          ∀ n, j.tag = some n → (j.src.kind = 3 ∨ (findCfg p j.src.cfg).isSome = true) →
            (getTag t j.src n).count = (getTag p j.src n).count - 1))) ∧
  ∀ (j : SortJob) (ty : RedTy) (l : List Elem),
    let r := j.arrange ty l
    (j.op ≠ 1 → r.Perm l) ∧ (j.op = 1 → ∃ q : List Elem, q.Perm l ∧ q.Pairwise (SortLe j ty) ∧ r = q.take j.k) ∧
    (j.op = 0 → r.Pairwise (SortLe j ty) ∧ ∀ a b, [a, b].Sublist l → SortLe j ty a b → [a, b].Sublist r) ∧
    (j.op = 2 → (l.take j.n).Pairwise (SortLe j ty) → (l.drop j.n).Pairwise (SortLe j ty) → r.Pairwise (SortLe j ty))

/-- CONVERSION_DEMAND, CONVERSION_START, CONVERSION_PACKET, CONVERSION_ABORT, CONVERSION_COMPLETE and COLLECTIVE_COMPLETE (R271 to R287, R466).  A
demand fails on a barred handle, joins the version it needs or makes the next one, which sets conv; a job reads its view element by element, and
then sends its first packets; a packet goes on by its route, is combined with its sibling in a node, or its job takes it; a packet of another
signature sets ordf and ends the conversion with every later one; a conversion writes its target element by element, and then updates its
descriptor to the new state, version and view; a collective instance does the same and finishes its slot; a demand whose version is current
lands.  Each where what it reads and writes can be reached.

What a conversion's steps exchange on the wire is log entry 16; a free value says whether adders differ (log entry 15). -/
def Obligations.PlacementUnitActs : Prop :=
  ∀ (s : State) (k : Nat),
    (∀ d, WorkDue s .conversionDemand k (.demand d) → demandTaken s k = true →
      let barred := dOrdf (getPlacement s d.handle).d
      let met := joins s d.handle d.states (recOf d.rcd).base
      let v := (lastVersion s d.handle).2.2
      (∃ t, exec .conversionDemand s = .next t) ∧
      (barred = true → exec .conversionDemand s = .next (finishCommit (failDemand
        { s with work := s.work.eraseIdx k ++ d.held.toList.map fun h => .fill d.src.who h 0 false } d (cause cPLACE 0 0 d.handle) 0 0) d.src.who)) ∧
      (barred = false → met = true →
        ∃ t, exec .conversionDemand s = .next t ∧ t = { s with cells := t.cells, work := s.work.set k (.waiting { d with version := v }) }) ∧
      (∀ foot, barred = false → met = false → demandCheck s d.src d.handle d.states (recOf d.rcd) = .ok foot →
        let v := (v + 1) % 65536
        ∃ t j, exec .conversionDemand s = .next t ∧
          t = { s with cells := t.cells, placement := t.placement, work := s.work.set k (.waiting { d with version := v }) ++ [.conv j] } ∧
          j.id = d.id ∧ j.handle = d.handle ∧ j.version = v ∧ j.newStates = d.states ∧ j.foot = foot ∧ j.target = (recOf d.rcd).base ∧
          j.started = false ∧ (getPlacement t d.handle).d.testBit 48 = true)) ∧
    (∀ w coll j, (w = .conv j ∧ coll = false ∨ w = .coll j ∧ coll = true) → WorkDue s .conversionStart k w → convStarts s k = true →
      let at_ := if coll then (getSlot s j.handle).mesh else j.mesh
      let begins := fun (p : State) (y : ConvJob) =>
        let z : ConvJob := { y with started := true }
        convAdvance coll (z.steps.length + 1) (sendStep p z) z
      let reads := fun y : ConvJob =>
        let n := y.data.length
        ((jobSource y).count ≤ n → exec .conversionStart s = .next (begins s y)) ∧
        (∀ v p, n < (jobSource y).count → jobRead s (edgeStream s coll y) (edgeSrc s coll y) (jobSource y) n = .ok (v, p) →
          let z : ConvJob := { y with data := y.data ++ [if reducing y 0 then leafOf y.fmt (v.getD 0) else (v.getD 0, 0)] }
          exec .conversionStart s = .next (if n + 1 < (jobSource y).count then putJob p coll z else begins p z))
      (∃ t, exec .conversionStart s = .next t) ∧ (j.begun = true → reads j) ∧
      (∀ m ds, j.begun = false → jobMesh s j.src at_ = .ok (some (m, ds)) →
        let y := if coll then collJob (getSlot s j.handle) j m ds else { j with sizes := m.sizes, self := m.self, devs := ds }
        let barred := j.src.secure = false ∧ blockSecure s 3 (jobPort s coll y) = true
        (∀ d, d ∈ y.devs → d ≠ ownDev s → peerReach s d = true) → (¬ barred → reads { y with begun := true }) ∧
          (barred → exec .conversionStart s = .next (jobFails s coll y { cause := cPERM, detail := dWORLD }))) ∧
      (j.begun = false → jobMesh s j.src at_ = .ok none →
        (coll = true → ∃ t, exec .conversionStart s = .next t ∧ (getSlot t j.handle).finished = true ∧ (getSlot t j.handle).done = false ∧
          .coll j ∉ t.work) ∧
        (coll = false → ∃ t, exec .conversionStart s = .next t ∧ (getPlacement t j.handle).d.testBit 63 = true ∧ ∀ i, .conv i ∈ t.work → i.id ≠ j.id))) ∧
    (∀ x, WorkDue s .conversionPacket k (.packet x) → packetTaken s k = true →
      let port := if x.hop.1 = 0 then x.hop.2 % 32 else Config.portOf x.final % 32
      (∃ t, exec .conversionPacket s = .next t) ∧
      (packetPasses s x = true → (getLink s port).up = true → ∃ t y, exec .conversionPacket s = .next t ∧
        t = { s with work := s.work.eraseIdx k, links := t.links, egress := s.egress ++ [y] } ∧ y.port = port ∧ y.payload = x.payload ∧
        bits y.header.toNat 0 256 = bits x.header.toNat 0 256 ∧ bits y.header.toNat 256 256 = bits x.header.toNat 256 256 / 65536) ∧
      (∀ coll j, packetJob (dropWork s k) x = some (coll, j) →
        (packetPasses s x = true → (getLink s port).up = false → exec .conversionPacket s = .next (jobFails (takePacket s k x) coll j { cause := cLINK })) ∧
        (packetPasses s x = false → x.combines = false → exec .conversionPacket s =
          .next (convAdvance coll (j.steps.length + 1) (takePacket s k x) { j with got := j.got ++ [gotOf j x] }))) ∧
      (packetJob s x = none → packetPasses s x = false → x.combines = false →
        ∃ t, exec .conversionPacket s = .next t ∧ t = { s with links := t.links, work := s.work.set k (.packet { x with parked := true }) }) ∧
      (∀ i q, packetPasses s x = false → x.combines = true → siblingOf s k x = some (i, q) → Config.adderFault s.tick = false →
        let w := fmtBits x.fmt
        let a := ofBytes (x.payload.map (·.toNat))
        let b := ofBytes (q.payload.map (·.toNat))
        let both := fun n : Nat => if x.leaf < q.leaf then combine x.fmt (packetOp s x) (lane w a n, 0) (lane w b n, 0)
          else combine x.fmt (packetOp s x) (lane w b n, 0) (lane w a n, 0)
        ∃ t y, exec .conversionPacket s = .next t ∧ t = { s with links := t.links, work := (s.work.eraseIdx i).eraseIdx k ++ [.packet y] } ∧
          y.final = x.final ∧ y.leaf = min x.leaf q.leaf ∧ y.span = (x.span + 1) % 16 ∧
          ∀ n, n < x.payload.length * 8 / w → lane w (ofBytes (y.payload.map (·.toNat))) n = (both n).1 % 2 ^ w)) ∧
    (∀ x, WorkDue s .conversionAbort k (.packet x) → packetAborts s k = true →
      (∃ t, exec .conversionAbort s = .next t) ∧
      (packetJob s x = none → exec .conversionAbort s = .next (takePacket s k x)) ∧
      ∀ coll j, packetJob s x = some (coll, j) →
        (coll = true → ∃ t, exec .conversionAbort s = .next t ∧ (getSlot t j.handle).finished = true ∧ (getSlot t j.handle).done = false ∧
          ∀ i, .coll i ∈ t.work → i.id ≠ j.id) ∧
        (coll = false →
          ∃ t, exec .conversionAbort s = .next t ∧ (x.w 1 ≠ j.sig ∨ x.payload = [] → (getPlacement t j.handle).d.testBit 63 = true) ∧
            ∀ i, .conv i ∈ t.work → ∀ q, q ∈ (convsOf s j.handle).dropWhile (·.id != j.id) → i.id ≠ q.id)) ∧
    (∀ j, WorkDue s .conversionComplete k (.conv j) → convEnds s k = true →
      (∃ t, exec .conversionComplete s = .next t) ∧
      (∀ p d, j.written < j.data.length →
        jobWrite s (edgeStream s false j) (edgeSrc s false j) (jobTarget j) j.written (j.data.getD j.written (0, 0)).1 = .ok (p, d) →
        exec .conversionComplete s = .next (putJob p false { j with written := j.written + 1, drop := j.drop.orElse fun _ => d })) ∧
      (j.data.length ≤ j.written →
        ∃ t, exec .conversionComplete s = .next t ∧ bits (getPlacement t j.handle).d 0 16 = j.newStates % 2 ^ 16 ∧
          bits (getPlacement t j.handle).d 32 16 = j.version % 2 ^ 16 ∧ bits (getPlacement t j.handle).d 256 56 = j.target % 2 ^ 56 ∧
          bits (getPlacement t j.handle).d 64 32 = satAdd (bits (getPlacement s j.handle).d 64 32) j.extra ∧
          ∀ i, .conv i ∈ t.work → i.id ≠ j.id)) ∧
    (∀ d, WorkDue s .conversionComplete k (.waiting d) → landable s d = true →
      (d.tag = none → d.held = none → exec .conversionComplete s = .next (dropWork s k)) ∧
      (∀ n, d.tag = some n → (d.src.kind = 3 ∨ (findCfg s d.src.cfg).isSome = true) →
        ∃ t, exec .conversionComplete s = .next t ∧ t.work = s.work.eraseIdx k ∧ (getTag t d.src n).count = (getTag s d.src n).count - 1) ∧
      (∀ h v, d.tag = none → d.held = some h → demandLoad s d = .ok (v, false) →
        exec .conversionComplete s = .next (addWork (dropWork s k) (.fill d.src.who h (BitVec.ofNat 512 v) false)))) ∧
    (∀ j, WorkDue s .collectiveComplete k (.coll j) → collEnds s k = true →
      (∃ t, exec .collectiveComplete s = .next t) ∧
      (∀ p d, j.written < j.data.length →
        jobWrite s (edgeStream s true j) (edgeSrc s true j) (jobTarget j) j.written (j.data.getD j.written (0, 0)).1 = .ok (p, d) →
        exec .collectiveComplete s = .next (putJob p true { j with written := j.written + 1, drop := j.drop.orElse fun _ => d })) ∧
      (j.data.length ≤ j.written →
        ∃ t, exec .collectiveComplete s = .next t ∧ (getSlot t j.handle).finished = true ∧ (getSlot t j.handle).done = true ∧
          (getSlot t j.handle).nf = min j.extra 0xFFFFFFFF ∧ ∀ i, .coll i ∈ t.work → i.id ≠ j.id))

/-! ### Events: scheduling, Troira, checkpoints -/

namespace Sys2Proof.Claims
open Sys2Proof.Machine

/-- How far a queue lies after the one whose turn it is at a rank (R172). -/
def turnOf (s : State) (h : Head) : Nat := (h.q + 64 - tget 0 s.rr (recRank h.v)) % 64

/-- The heads in the order of R172 that may be admitted. -/
def roundOrder (s : State) (hs : List Head) : List Head := hs.foldr (insertHead s) []

/-- The head that a round admits, those before it in its order, and where it is placed: a starved one first, else the first that can be
placed (R172). -/
def Admits (s : State) (hs before : List Head) (h : Head) (o : List Nat) : Prop :=
  ∃ after, roundOrder s hs = before ++ h :: after ∧ placeHead s h = some o ∧
    ((8 ≤ h.e.bypass ∧ ∀ x, x ∈ before → x.e.bypass < 8) ∨
      ((∀ x, x ∈ hs → x.e.bypass < 8) ∧ ∀ x, x ∈ before → placeHead s x = none))

/-- The state in which the image of an admitted record is read: the record has left its queue. -/
def leaving (s : State) (h : Head) : State :=
  leaveQueue { s with round := false, rr := tset 0 s.rr (recRank h.v) ((h.q + 1) % 64) } h.q h.e

/-- The image of an admitted record, as it is read then. -/
def imageFor (s : State) (h : Head) : Except Trap (Option Image) :=
  readImage (leaving s h) (spaceSrc h.e.issuer (recAsn h.v) (recSecure h.v)) (rw h.v 0) (recW h.v) (recH h.v) (recN h.v) fun _ _ _ => 0

/-- What an image leaves in device cell `d` of the configuration `c` that it installs (R85): each field as the last of its commands leaves
it, the words, records, recipes and tags of its section, its held registers reset; no token, no firing, its sources to fire. -/
def Installed (c : Cfg) (im : Image) (d : Nat) (x : Cell) : Prop :=
  x.cfg = c.id ∧ x.tokens = [] ∧ x.firing = none ∧ x.sources = (x.sourceCtxs.map fun k => (k, 0)) ∧
  (∀ n, tget 0 x.fields n = match im.writes.reverse.find? fun w => c.cellAt w.pos w.cell == d && w.field == n with
    | some w => BitVec.ofNat 64 w.value
    | none => 0) ∧
  ((im.sections.filter fun q => c.cellAt q.pos q.cell == d) = [] → x.store = [] ∧ x.records = [] ∧ x.recipes = [] ∧ x.held = []) ∧
  ∀ q, (im.sections.filter fun q => c.cellAt q.pos q.cell == d) = [q] →
    x.store = (q.on {}).store ∧ x.records = (q.on {}).records ∧ x.recipes = (q.on {}).recipes ∧ x.held = sectionHeld q true {}

/-- A firing that runs next in deterministic order among those that are ready (R115). -/
def DetFirst (x : Cell) (r : List (Nat × Nat × Nat)) (a : Nat × Nat × Nat) : Prop :=
  a ∈ r ∧ ∀ b, b ∈ r → a.2.2 < b.2.2 ∨ (a.2.2 = b.2.2 ∧ (nodeNo x a.1 < nodeNo x b.1 ∨ (nodeNo x a.1 = nodeNo x b.1 ∧ a.2.1 ≤ b.2.1)))

/-- How far a frame lies from the one at which the search of R114 starts. -/
def frameDist (x : Cell) (fr : Nat) : Nat := (fr + 1024 - (match x.lastFrame with | some f => f + 1 | none => 0) % 1024) % 1024

end Sys2Proof.Claims

/-- ARBITRATION_ROUND, CONFIG_COMPLETION, CELL_RETIRE, HELD_STATE and WFE_TIMEOUT (R85, R86, R167, R172, R175, R179, R189, R191), and which of its
ready firings a cell may start (R114, R115).  A round goes through the heads by rank, and within a rank from the queue after the last one
admitted; it admits none when a starved head finds no place, or no head does; else it admits a starved head, or the first that finds a
place: the head leaves its queue, the heads before it are passed over unless one is starved, and the image is installed in every cell of
the placement with frame 0 live, or the record completes without running where its image is refused.  A configuration with nothing live
completes: it is gone, its cells belong to none, a round follows and its issuer is told when its record asks; a retired cell belongs to
the successor, and a refused image ends the successor; a held configuration tells the pre-empter; an expired timeout sets EVTIME.

That heads leave one after the other, each change of one ending the round, is the model's choice (log entry 76); the clauses of an admission
assume that no checkpoint waits for a granule that the machine's own writes would change. -/
def Obligations.SchedulerActs : Prop :=
  ∀ (s : State),
    (Ev s .arbitrationRound 0 → s.round = true →
      (∃ t, exec .arbitrationRound s = .next t) ∧ (s.queues = [] → exec .arbitrationRound s = .next { s with round := false }) ∧
      ∀ hs, considerAll s (queueHeads s) = .ok hs → s.drains = [] → twf [] s.queues = true →
        (roundOrder s hs).Perm hs ∧
        (roundOrder s hs).Pairwise (fun a b => recRank b.v < recRank a.v ∨ (recRank a.v = recRank b.v ∧ turnOf s a ≤ turnOf s b)) ∧
        ((∀ h, h ∈ hs → placeHead s h = none) ∨ (∃ h, ((roundOrder s hs).find? fun h => 8 ≤ h.e.bypass) = some h ∧ placeHead s h = none) →
          ∃ t, exec .arbitrationRound s = .next t ∧ t.queues = s.queues ∧ t.cfgs = s.cfgs ∧ t.cells = s.cells ∧ t.round = false ∧
            ((∀ h, h ∈ hs → h.saved = none) → t = { s with round := false })) ∧
        ∀ before h o, Admits s hs before h o →
          ∃ t, exec .arbitrationRound s = .next t ∧ t.round = true ∧ getQueue t h.q = (getQueue s h.q).drop 1 ∧
            tget 0 t.rr (recRank h.v) = (h.q + 1) % 64 ∧
            (∀ q, q ≠ h.q → (∀ x, x ∈ before → x.q ≠ q) → getQueue t q = getQueue s q) ∧
            (∀ x, x ∈ before → getQueue t x.q =
              { x.e with bypass := if 8 ≤ h.e.bypass then x.e.bypass else min (x.e.bypass + 1) 8 } :: (getQueue s x.q).drop 1) ∧
            (h.saved = none → s.nextId ≠ 0 → findCfg s s.nextId = none → twf {} s.cells = true →
              (∀ im, imageFor s h = .ok (some im) →
                ∃ c, findCfg t s.nextId = some c ∧ c.id = s.nextId ∧ c.rcd = h.e.addr ∧ c.queue = h.q ∧ c.issuer = h.e.issuer ∧ c.origins = o ∧
                  c.st = .running ∧ (c.frame 0).live = true ∧ ∀ d, d ∈ c.cells → Installed c im d (getCell t d)) ∧
              ((∀ im, imageFor s h ≠ .ok (some im)) → t.cfgs = s.cfgs ∧ t.cells = s.cells ∧
                (bit (rw h.v 4) 62 = true → h.e.issuer < 2000 → bit (getCtl t h.e.issuer).events 1 = true)))) ∧
    (∀ d, let x := getCell s d
      let r := readyAt s x
      let old := fun (p : Nat × Nat × Nat × Nat) => 64 ≤ p.2.2.2 ∧ (p.1, p.2.1, p.2.2.1) ∈ r
      (x.firing.isSome = true → firingChoices s d = []) ∧
      (x.firing = none → (getCfg s x.cfg).det = true → ∀ a, a ∈ firingChoices s d ↔ DetFirst x r a) ∧
      (x.firing = none → (getCfg s x.cfg).det = false → (∃ p, p ∈ x.passed ∧ old p) →
        ∃ p, p ∈ x.passed ∧ old p ∧ firingChoices s d = [(p.1, p.2.1, p.2.2.1)]) ∧
      (x.firing = none → (getCfg s x.cfg).det = false → (¬ ∃ p, p ∈ x.passed ∧ old p) → (∀ a, a ∈ r → a.2.1 < 1024) →
        ∀ a, a ∈ firingChoices s d ↔ a ∈ r ∧ ∀ b, b ∈ r → frameDist x a.2.1 ≤ frameDist x b.2.1)) ∧
    (∀ c, Ev s .configCompletion c.id → findCfg s c.id = some c → mayComplete s c = true →
      (∃ t, exec .configCompletion s = .next t) ∧
      (c.succ = none → c.id ≠ 0 →
        ∃ t, exec .configCompletion s = .next t ∧ findCfg t c.id = none ∧ (∀ d, (getCell t d).cfg ≠ c.id) ∧ t.round = true ∧
          (bit (c.w 4) 62 = true → c.issuer < 2000 → bit (getCtl t c.issuer).events 1 = true))) ∧
    (∀ d p c, Ev s .cellRetire d → retiring s d = some (p, c) →
      (∃ t, exec .cellRetire s = .next t) ∧
      (∀ im, c.image = some im → c.checkedStages.contains ((c.stageOf (groveOf d)).getD 0) = true →
        ∃ t, exec .cellRetire s = .next t ∧ (getCell t d).cfg = c.id) ∧
      (∀ e, c.image = none → readImage s (spaceSrc c.issuer c.spaceAsn c.secure) (c.w 0) c.width c.height c.stages (fieldNow s c) = .error e →
        ∃ t, exec .cellRetire s = .next t ∧ findCfg t c.id = none)) ∧
    (∀ c, Ev s .heldState c.id → findCfg s c.id = some c → mayHold s c = true →
      ∃ t, exec .heldState s = .next t ∧ t = { s with ctls := t.ctls, cfgs := t.cfgs } ∧ getCfg t c.id = { c with st := .held, preempters := [] } ∧
        ∀ u, u ∈ c.preempters → u < 2000 → bit (getCtl t u).events 2 = true) ∧
    (∀ u, Ev s .wfeTimeout u → timeoutDue s u = true → u < 2000 →
      ∃ t, exec .wfeTimeout s = .next t ∧ OnlyCtl s t u { getCtl s u with deadline := none, events := (getCtl s u).events ||| 16 })

/-- SMC_REPLY, CKPT_GRANULE_COPY and CKPT_COMPLETE (R407, R408, R447, R448, R450).  Troira answers once no access to the affected bytes is under way,
or the operand block's uncorrectable error is the issuer's fault; an unknown code is answered with BADREQ, GETBLK with the world of the block
where the policy grants it (a free value: log entry 5), and SETBLK by its refusals, or with the block in its new world and every byte that
leaves the secure one reading 0.  The drain engine copies the next 4 KiB of its oldest checkpoint and counts them in the header; where a
side is no longer mapped or permitted, the checkpoint fails; one with nothing left is complete and leaves the engine.

The order BADREQ, DENIED, BUSY of the refusals is the model's choice (log entries 5 and 34).  So is what is checked again before each copy:
the destination of a checkpoint and both sides of a restore (log entry 35, DEDUCED); R450 names ECCUNC for the source, and TRANSL, PERM and
LINK for the destination. -/
def Obligations.TroiraAndDrainsAct : Prop :=
  ∀ (s : State),
    (∀ k u id code op asn, WorkDue s .smcReply k (.smc u id code op asn) → smcDrained s u code op asn = true →
      let answered := fun (t : State) (v : Word) => getCtl t u = { getCtl s u with reply := some v }
      (∀ e, smcAnswer (dropWork s k) u code op asn = .error e →
        exec .smcReply s = .next (takeCtlTrap (dropWork s k) u (getCtl s u).pc e)) ∧
      (∀ a, smcAnswer (dropWork s k) u code op asn = .ok a → ∃ t, exec .smcReply s = .next t ∧ ∃ v, (getCtl t u).reply = some v) ∧
      (code ≠ 2 → code ≠ 4 → ∃ a, smcAnswer (dropWork s k) u code op asn = .ok a) ∧
      (code = 1 → s.drains = [] →
        let kind := bits op 16 4
        let i := bits op 0 14
        let want := bit op 63
        let denied := Config.smcPolicy 1 op = false ∨ (unitSecure s u = false ∧ (want = true ∨ blockSecure s kind i = true))
        let busy := blockBusy (dropWork s k) kind i
        ∃ t v, exec .smcReply s = .next t ∧ answered t v ∧
          t = { s with ctls := t.ctls, work := s.work.eraseIdx k, blocks := t.blocks, mem := t.mem, poison := t.poison, views := t.views } ∧
          v = (if blockCount kind ≤ i then 3 else if denied then 1 else if busy = true then 2 else 0) ∧
          (v ≠ 0 → t.blocks = s.blocks ∧ SameMem s t) ∧
          (v = 0 → blockSecure t kind i = want ∧
            ∀ a, memByte t a = if byteSecure s a = true ∧ byteSecure t a = false then 0 else memByte s a)) ∧
      (code = 0 ∨ 4 < code → ∃ t, exec .smcReply s = .next t ∧ t = { s with ctls := t.ctls, work := s.work.eraseIdx k } ∧
        getCtl t u = { getCtl s u with reply := some 3 }) ∧
      (code = 3 → bits op 0 14 < blockCount (bits op 16 4) →
        ∃ t, exec .smcReply s = .next t ∧ t = { s with ctls := t.ctls, work := s.work.eraseIdx k } ∧
          getCtl t u = { getCtl s u with reply := some (
            if Config.smcPolicy code op then (if blockSecure s (bits op 16 4) (bits op 0 14) then 65536 else 0) else 1) })) ∧
    (∀ b c g, Ev s .ckptGranuleCopy b → ckptNext s b = some (c, g) →
      (∃ t, exec .ckptGranuleCopy s = .next t) ∧
      (∀ e, ckptSides s b c g = .error e → exec .ckptGranuleCopy s = .next (ckptFail drainAll s b c e)) ∧
      (∀ x y, ckptSides s b c g = .ok (x, y) → poisonedRange s x 4096 = true → ∃ e, e.cause = cECCUNC ∧
        exec .ckptGranuleCopy s = .next (ckptFail drainAll s b c e)) ∧
      (∀ x y, ckptSides s b c g = .ok (x, y) → s.poison = [] → drainHits s (y * 8) 32768 = [] → drainHits s ((c.block + 24) * 8) 64 = [] →
        (c.block + 32 ≤ y ∨ y + 4096 ≤ c.block + 24) →
        ∃ t, exec .ckptGranuleCopy s = .next t ∧ t = { s with mem := t.mem, drains := t.drains, views := [] } ∧
          (∀ i, i < 4096 → memByte t (y + i) = memByte s (x + i)) ∧ readWord t (c.block + 24) = ckptWord 1 0 (c.bytes + 4096) ∧
          (∀ z, ¬ (y ≤ z ∧ z < y + 4096) → ¬ (c.block + 24 ≤ z ∧ z < c.block + 32) → memByte t z = memByte s z) ∧
          ckptHead t b = some { c with pending := c.pending.filter (· ≠ g), bytes := c.bytes + 4096 })) ∧
    (∀ b c, Ev s .ckptComplete b → ckptHead s b = some c → c.pending = [] → s.poison = [] → drainHits s ((c.block + 24) * 8) 64 = [] →
      ∃ t, exec .ckptComplete s = .next t ∧ t = { s with mem := t.mem, drains := t.drains, views := [] } ∧ readWord t (c.block + 24) = ckptWord 2 0 c.bytes ∧
        tget [] t.drains b = (tget [] s.drains b).filter (fun q => q.id ≠ c.id) ∧
        ∀ y, ¬ (c.block + 24 ≤ y ∧ y < c.block + 32) → memByte t y = memByte s y)

/-! ### Events: the host, the fabric, power -/

/-- LAUNCH_DOORBELL, LAUNCHST_READ, HOST_MEM_WRITE, HOST_MEM_READ, SPDM_ATTESTATION, MGMT_FIRMWARE_IMAGE and MGMT_STANDBY_REQUEST (R403, R404, R454, R455,
R204, R459 to R461).  A doorbell acts as LAUNCH, takes the module from PW1 to PW0, and its status is read back; in standby it waits behind those
before it; without verified firmware it does nothing, a host write is aborted, and a standby request is not taken.  Host writes and reads reach
normal HBM, and anything else, a write to a barrier page among it, is answered with an abort and changes no memory.  A new firmware image waits.

Of this the model chooses: that a host address is a physical one within the HBM that bring-up made host-managed, and that a read of a secure or
uncorrectable byte is aborted (log entries 31 and 62); that a doorbell waits in standby, with those after it, and that no doorbell, standby
request or host write is taken without firmware (log entries 6 and 43); and the contents of an attestation, a free value of the nonce, the
firmware's digest and version and the world map (log entry 6). -/
def Obligations.HostPort : Prop :=
  ∀ (s : State),
    (∀ v, Completes (exec (.launchDoorbell v) s) ∧ (s.fwOk = false → exec (.launchDoorbell v) s = .next s) ∧
      (s.fwOk = true → s.power = .pw2 → exec (.launchDoorbell v) s = .next { s with doorbells := s.doorbells ++ [v] }) ∧
      (s.fwOk = true → s.power ≠ .pw2 →
        let va := bits v.toNat 6 50 * 64
        let e : QEntry := { addr := va, issuer := 2000 }
        let woken := fun t : State => t.power = if s.power = .pw1 then .pw0 else s.power
        (∀ f, jobBytes s (entrySrc e) va 64 = .error f →
          ∃ t, exec (.launchDoorbell v) s = .next t ∧ t.launchst = stBADREC ∧ t.queues = s.queues ∧ woken t ∧ SameMem s t) ∧
        (∀ r, jobBytes s (entrySrc e) va 64 = .ok r →
          let q := bits v.toNat 0 6
          let st := launchStatus s r q false false 0
          ∃ t, exec (.launchDoorbell v) s = .next t ∧ t.launchst = st ∧ woken t ∧ SameMem s t ∧
            getQueue t q = if st = stOK then getQueue s q ++ [e] else getQueue s q))) ∧
    (s.doorbells = [] → exec .launchstRead s = .next { s with reply := .word (BitVec.ofNat 64 (if s.fwOk then s.launchst else 16)) }) ∧
    (∀ a bs, Completes (exec (.hostMemWrite a bs) s) ∧
      (s.fwOk = false ∨ hostReach s a bs.length = false ∨ onBarrierPage s a bs.length = true →
        exec (.hostMemWrite a bs) s = .next { s with reply := .abort }) ∧
      (s.fwOk = true → hostReach s a bs.length = true → onBarrierPage s a bs.length = false → s.poison = [] → s.drains = [] →
        ∃ t, exec (.hostMemWrite a bs) s = .next t ∧ t = { s with mem := t.mem, views := t.views, reply := .none } ∧
          (∀ i, i < bs.length → memByte t (a + i) = bs.getD i 0) ∧ ∀ y, ¬ (a ≤ y ∧ y < a + bs.length) → memByte t y = memByte s y)) ∧
    (∀ a n, (hostReach s a n = false ∨ poisonedRange s a n = true → exec (.hostMemRead a n) s = .next { s with reply := .abort }) ∧
      (hostReach s a n = true → poisonedRange s a n = false →
        exec (.hostMemRead a n) s = .next { s with reply := .bytes ((List.range n).map fun i => memByte s (a + i)) })) ∧
    (∀ n (p : State), fwDigest p.fw = fwDigest s.fw → p.fw.version = s.fw.version → p.regions = s.regions → p.blocks = s.blocks →
      ∃ r, exec (.spdmAttestation n) s = .next { s with reply := .attestation r } ∧
        exec (.spdmAttestation n) p = .next { p with reply := .attestation r }) ∧
    (∀ i, exec (.mgmtFirmwareImage i) s = .next { s with fwNew := some i }) ∧
    exec .mgmtStandbyRequest s =
      .next (if s.fwOk then (if s.power = .pw1 then { s with power := .pw2, pwreq := 0 } else { s with pwreq := 2 }) else s)

/-- FLIT_DATA, FLIT_ACK, FLIT_TIMESYNC, FLIT_MANAGEMENT, LINK_RETRAIN, LINK_DOWN and LINK_UP (R442, R444, R457).  A flit with a bad CRC is asked for
again; one out of order is dropped and acknowledged; the last flit of a packet delivers it, its first 64 bytes the header, and takes the
module from PW1 to PW0; an acknowledgement frees what needs no replay, and on request the rest is sent again from the flit that it names; a
partner's times are kept; a management flit reaches Troira.  A link that failed 17
times in a row retrains, goes down when it does not come back, and comes up with its counters cleared, each with a LINK entry.

That each flit in order is acknowledged by a flit of its own, and that 17 bad flits in a row are one failure and 16 failed replays, are the
model's choices (log entry 19). -/
def Obligations.LinksAct : Prop :=
  ∀ (s : State) (p : Nat) (f : BitVec 2048),
    let l := getLink s p
    let only := fun (t : State) => ∀ q, q ≠ p → getLink t q = getLink s q
    let logged := fun (t : State) => (tget {} t.bbox (p / 8)).seq = (tget {} s.bbox (p / 8)).seq + 1
    (∀ i n, (i = .flitData p f ∧ n = 0) ∨ (i = .flitAck p f ∧ n = 1) ∨ (i = .flitTimesync p f ∧ n = 2) ∨ (i = .flitManagement p f ∧ n = 3) →
      flitDue s p n f = true →
      (flitGood f = false → ∃ t, exec i s = .next t ∧ t = { s with links := t.links, retries := s.retries + 1 } ∧ only t ∧
        (getLink t p).rxSeq = l.rxSeq ∧ (getLink t p).failed = l.failed + 1 ∧ (getLink t p).replays = l.replays + 1) ∧
      (flitGood f = true → flitSeq f ≠ l.rxSeq → ∃ t, exec i s = .next t ∧ t = { s with links := t.links } ∧ only t ∧
        (getLink t p).rxSeq = l.rxSeq ∧ (getLink t p).partialPkt = l.partialPkt) ∧
      (flitGood f = true → flitSeq f = l.rxSeq → ∃ t, exec i s = .next t ∧ only t ∧ (getLink t p).rxSeq = (l.rxSeq + 1) % 2 ^ 20 ∧
        (getLink t p).failed = 0 ∧ (getLink t p).slots = l.slots + flitSlots f ∧ SameMem s t ∧
        (i = .flitData p f →
          let bytes := (if flitSop f then [] else l.partialPkt) ++ flitBytes f
          (flitEop f = false → (getLink t p).partialPkt = bytes ∧ t.work = s.work ∧ t.power = s.power) ∧
          (flitEop f = true → (getLink t p).partialPkt = [] ∧ t.power = (if s.power = .pw1 then .pw0 else s.power) ∧ t.work = s.work ++
            [.packet { port := p, header := BitVec.ofNat 512 (ofBytes ((bytes.take 64).map (·.toNat))), payload := bytes.drop 64
                       wakes := s.power == .pw2 }])) ∧
        (i = .flitAck p f →
          let ack := bits (flitWord f 1) 0 20
          let kept := l.replayBuf.filter fun g => decide (seqDist ack (flitSeq g) < 2 ^ 19) && flitSeq g != ack
          (getLink t p).acked = ack ∧ t.work = s.work ∧ (l.waiting = [] → seqDist l.ackSent ((l.rxSeq + 1) % 2 ^ 20) < 128 →
            (getLink t p).replayBuf = kept ∧ (getLink t p).wire = l.wire ++ (if bit (flitWord f 1) 63 = true then
              kept.filter fun g => decide (seqDist (bits (flitWord f 1) 32 20) (flitSeq g) < 2 ^ 19) else []))) ∧
        (i = .flitTimesync p f → (getLink t p).partnerSent = flitWord f 1 ∧ (getLink t p).partnerRecv = s.timens.toNat ∧ t.work = s.work) ∧
        (i = .flitManagement p f → (getLink t p).managed = l.managed ++ [f] ∧ t.work = s.work ∧ (∀ d, s.devnum = some d → t.devnum = some d)))) ∧
    (retrainDue s p = true → ∃ t, exec (.linkRetrain p) s = .next t ∧ t = { s with links := t.links, bbox := t.bbox } ∧ only t ∧ logged t ∧
      getLink t p = { l with retraining := true, failed := 0 }) ∧
    (p < 32 → l.retraining = true →
      (∃ t, exec (.linkDown p) s = .next t) ∧
      (s.work = [] → ∃ t, exec (.linkDown p) s = .next t ∧ t = { s with links := t.links, bbox := t.bbox } ∧ only t ∧ logged t ∧
        getLink t p = { l with up := false, retraining := false })) ∧
    (upDue s p = true → ∃ t, exec (.linkUp p) s = .next t ∧ t = { s with links := t.links, bbox := t.bbox } ∧ only t ∧ logged t ∧
      getLink t p = { l with up := true, retraining := false, failed := 0, replays := 0 })

/-- COLD_RESET, WARM_RESET, PW1_ENTRY, PW2_EXIT, POWER_REMOVAL, CLOCK_CHANGE, THERMAL_STOP, SCRUB_PASS, SERDES_RECALIBRATION, TELEMETRY_WRITE and
HBM_ROW_REMAP (R157, R161, R453, R458 to R462).  Either reset ends every configuration and empties every queue, and core 0 starts where verified
firmware begins; a cold reset verifies the image that came last and leaves no byte of the device written and no block secure; a warm one keeps
memory, worlds, firmware and the black box, and CYCLES starts again.  A cell's capacity only falls, where SRAM is repaired (log entry 15).  The
clock steps down at 105 °C or above 2,800 W, and up below 100 °C and 2,700 W.

Of this the model chooses: which inputs arrive, and when (log entry 2); that the device's memory reads 0 after a cold reset (log entry 10); what
an image holds and that a cold reset takes it by digest, key, signature and counter (log entry 6); that a THERMAL entry is recorded in basin
0 (log entries 7 and 27); what a warm reset keeps and where telemetry is written (log entry 43); and the bound on the host's HBM (log entry 62). -/
def Obligations.ResetsAndPower : Prop :=
  ∀ (s : State),
    (let fw := s.fwNew.getD s.fw
      let ok := match s.fwNew with | some i => fwAccepted i | none => s.fwOk
      ∃ t, exec .coldReset s = .next t ∧ t.cfgs = [] ∧ t.queues = [] ∧ t.blocks = [] ∧ t.regions = [] ∧ t.power = .pw0 ∧ t.fw = fw ∧ t.fwNew = none ∧
      t.hdm ≤ 512 * 2 ^ 30 ∧ (∀ a, isLocal a = true → memByte t a = 0) ∧ (∀ a, placeOf a = .host → memByte t a = memByte s a) ∧
      (∀ c, (getCell t c).hcap ≤ (getCell s c).hcap ∧ (Config.repairs s.tick = [] → (getCell t c).hcap = (getCell s c).hcap) ∧ (getCell t c).cfg = 0) ∧
      (∀ u, u ≠ 1024 → (getCtl t u).mode = .idle) ∧
      t.fwOk = ok ∧ (ok = true → (getCtl t 1024).mode = .running ∧ (getCtl t 1024).pc = fw.entry.toNat) ∧
      (ok = false → (getCtl t 1024).mode = .idle)) ∧
    (∀ i, fwAccepted i = true ↔ sha256 (i.body.map (·.toNat)) = i.digest.toNat ∧
      sha256 (Config.keyBytes i.modulus.toNat i.exponent) = Config.keyDigest ∧
      rsaVerifies i.modulus.toNat i.exponent i.signature.toNat i.digest.toNat = true ∧ Config.rollback ≤ i.version.toNat) ∧
    (s.power ≠ .pw3 → s.power ≠ .hot →
      ∃ t, exec .warmReset s = .next t ∧ t.cfgs = [] ∧ t.queues = [] ∧ t.placement = [] ∧ t.drains = [] ∧ t.power = .pw0 ∧ t.cycles = 0 ∧
        t.regions = s.regions ∧ t.blocks = s.blocks ∧ t.timens = s.timens ∧ t.fw = s.fw ∧ t.fwOk = s.fwOk ∧ t.fwNew = s.fwNew ∧
        (∀ u, u ≠ 1024 → (getCtl t u).mode = .idle) ∧
        (s.fwOk = true → (getCtl t 1024).mode = .running ∧ (getCtl t 1024).pc = s.fw.entry.toNat) ∧ (s.drains = [] → t.mem = s.mem) ∧
        (s.drains = [] → Config.repairs s.tick = [] → (∀ e, e ∈ s.cells → e.2.hcap = 32) → t.bbox = s.bbox)) ∧
    (pw1Due s = true →
      exec .pw1Entry s = .next (if s.pwreq = 2 then { fullClock s with power := .pw2, pwreq := 0 } else { fullClock s with power := .pw1 })) ∧
    (wakeDue s = true → ∃ t, exec .pw2Exit s = .next t ∧ t.power = .pw0 ∧ t.pwreq = 0 ∧ t.doorbells = [] ∧ t.ctls = s.ctls ∧ SameMem s t ∧
      t.work = s.work.map awake ∧ (s.doorbells = [] → t.queues = s.queues)) ∧
    exec .powerRemoval s = .next { s with power := .pw3 } ∧
    (∀ m d, s.power = .pw0 → 525 ≤ m → m ≤ 1050 →
      (m + 25 = s.clock ∧ (840 ≤ d ∨ 2800 < Config.power s.tick) ∨ m = s.clock + 25 ∧ d < 800 ∧ Config.power s.tick < 2700) →
      ∃ t, exec (.clockChange m d) s = .next t ∧ t = { s with clock := m, bbox := t.bbox, msix := t.msix } ∧ tget 0 t.msix 2 = tget 0 s.msix 2 + 1 ∧
        (tget {} t.bbox 0).seq = (tget {} s.bbox 0).seq + 1) ∧
    (∀ d, 944 ≤ d → ∃ t, exec (.thermalStop d) s = .next t ∧ t = { s with power := .hot, bbox := t.bbox, msix := t.msix } ∧
      (tget {} t.bbox 0).seq = (tget {} s.bbox 0).seq + 1 ∧ tget 0 t.msix 2 = tget 0 s.msix 2 + 1) ∧
    (∀ h, ∃ t, exec (.scrubPass h) s = .next t ∧ t = { s with bbox := t.bbox, passes := t.passes, passesHbm := t.passesHbm } ∧
      t.passes = (if h then s.passes else s.passes + 1) ∧ t.passesHbm = (if h then s.passesHbm + 1 else s.passesHbm) ∧ (s.poison = [] → t.bbox = s.bbox)) ∧
    (∀ p, exec (.serdesRecalibration p) s = .next s) ∧
    (∀ b, Ev s .telemetryWrite b → b < 4 → s.telbase ≠ 0 →
      exec .telemetryWrite s = .next (putRecord s (spaceSrc 2000 0 false) (s.telbase.toNat + 64 * b) (telemetryWords s b))) ∧
    ∀ k r, ∃ t, exec (.hbmRowRemap k r) s = .next t ∧ t = { s with bbox := t.bbox }
end

