-- ==== Sys2Proof/Laws/Table.lean ====
section
/-! SUPPORT. Laws of tables: a key reads what was last written to it and every other key reads as before, whatever
the table; the canonical form is kept by every operation; canonical tables with equal contents are equal. -/

namespace Sys2Proof.Machine

variable {α : Type}

@[simp] theorem tget_nil (d : α) (k : Nat) : tget d [] k = d := rfl

theorem tget_tdel (d : α) (t : Table α) (k i : Nat) : tget d (tdel t k) i = if i = k then d else tget d t i := by
  induction t with
  | nil => simp [tdel]
  | cons e t ih =>
    obtain ⟨j, v⟩ := e
    by_cases h : j = k
    · subst h
      simp only [tdel, if_true, ih, tget]
      by_cases hi : i = j
      · simp [hi]
      · simp [hi, Ne.symm hi]
    · simp only [tdel, h, if_false, tget, ih]
      by_cases hj : j = i
      · subst hj; simp [h]
      · simp [hj]

theorem tget_tins (d : α) (t : Table α) (k i : Nat) (v : α) :
    tget d (tins k v (tdel t k)) i = if i = k then v else tget d t i := by
  rw [← show (if i = k then v else tget d (tdel t k) i) = (if i = k then v else tget d t i) by
    rw [tget_tdel]; split <;> rfl]
  have hk : ∀ e ∈ tdel t k, e.1 ≠ k := by
    induction t with
    | nil => simp [tdel]
    | cons e t ih =>
      obtain ⟨j, w⟩ := e
      by_cases h : j = k
      · simpa [tdel, h] using ih
      · simp only [tdel, h, if_false, List.mem_cons, forall_eq_or_imp]
        exact ⟨h, ih⟩
  generalize tdel t k = u at hk ⊢
  induction u with
  | nil => simp [tins, tget, eq_comm]
  | cons e u ih =>
    obtain ⟨j, w⟩ := e
    have hj : j ≠ k := hk (j, w) (by simp)
    have ih := ih fun e he => hk e (by simp [he])
    by_cases h : k < j
    · simp only [tins, h, if_true, tget]
      by_cases hi : k = i
      · simp [hi]
      · simp [hi, Ne.symm hi]
    · simp only [tins, h, if_false, tget, ih]
      by_cases hji : j = i
      · subst hji; simp [hj]
      · simp [hji]

/-- Read after write: the key written reads the value, every other key reads as before. -/
theorem tget_tset [DecidableEq α] (d : α) (t : Table α) (k i : Nat) (v : α) :
    tget d (tset d t k v) i = if i = k then v else tget d t i := by
  unfold tset
  split
  · subst v; exact tget_tdel d t k i
  · exact tget_tins d t k i v

@[simp] theorem tget_tset_self [DecidableEq α] (d : α) (t : Table α) (k : Nat) (v : α) : tget d (tset d t k v) k = v := by
  simp [tget_tset]

@[simp] theorem tget_tset_ne [DecidableEq α] (d : α) (t : Table α) (k i : Nat) (v : α) (h : i ≠ k) :
    tget d (tset d t k v) i = tget d t i := by
  simp [tget_tset, h]

@[simp] theorem tget_tmod_self [DecidableEq α] (d : α) (t : Table α) (k : Nat) (f : α → α) : tget d (tmod d t k f) k = f (tget d t k) := by
  simp [tmod]

@[simp] theorem tget_tmod_ne [DecidableEq α] (d : α) (t : Table α) (k i : Nat) (f : α → α) (h : i ≠ k) :
    tget d (tmod d t k f) i = tget d t i := by
  simp [tmod, h]

theorem tdel_tdel (t : Table α) (k : Nat) : tdel (tdel t k) k = tdel t k := by
  induction t with
  | nil => rfl
  | cons e t ih =>
    obtain ⟨j, v⟩ := e
    by_cases h : j = k <;> simp [tdel, h, ih]

theorem tdel_tins (u : Table α) (k : Nat) (v : α) : tdel (tins k v u) k = tdel u k := by
  induction u with
  | nil => simp [tins, tdel]
  | cons e u ih =>
    obtain ⟨j, w⟩ := e
    by_cases h : k < j
    · simp [tins, h, tdel]
    · by_cases hj : j = k <;> simp [tins, h, tdel, hj, ih]

/-- Two writes of one key: the second remains. -/
@[simp] theorem tset_tset [DecidableEq α] (d : α) (t : Table α) (k : Nat) (v w : α) : tset d (tset d t k v) k w = tset d t k w := by
  have h : tdel (tset d t k v) k = tdel t k := by
    unfold tset; split <;> simp [tdel_tins, tdel_tdel]
  simp only [tset] at h ⊢
  rw [h]

/-- The value of a key after every listed value was changed; `f` leaves the value of unlisted keys. -/
theorem tget_tmap [DecidableEq α] (d : α) (f : α → α) (hf : f d = d) (t : Table α) (k : Nat) :
    tget d (tmap d f t) k = f (tget d t k) := by
  induction t with
  | nil => simp [tmap, hf]
  | cons e t ih =>
    obtain ⟨j, v⟩ := e
    unfold tmap
    by_cases h : f v = d
    · rw [if_pos h, tget_tdel, ih]
      by_cases hk : k = j
      · simp [hk, tget, h]
      · simp [hk, tget, Ne.symm hk]
    · rw [if_neg h]
      by_cases hk : j = k <;> simp [tget, hk, ih]

/-! ### The canonical form -/

theorem twfFrom_mono [DecidableEq α] {d : α} {lo lo' : Nat} {t : Table α} (h : twfFrom d lo t = true) (hl : lo' ≤ lo) :
    twfFrom d lo' t = true := by
  cases t with
  | nil => rfl
  | cons e t =>
    obtain ⟨j, v⟩ := e
    simp only [twfFrom, Bool.and_eq_true, decide_eq_true_eq] at h ⊢
    exact ⟨⟨by omega, h.1.2⟩, h.2⟩

theorem twfFrom_tdel [DecidableEq α] {d : α} {lo : Nat} {t : Table α} (k : Nat) (h : twfFrom d lo t = true) :
    twfFrom d lo (tdel t k) = true := by
  induction t generalizing lo with
  | nil => rfl
  | cons e t ih =>
    obtain ⟨j, v⟩ := e
    simp only [twfFrom, Bool.and_eq_true, decide_eq_true_eq] at h
    by_cases hj : j = k
    · simp only [tdel, hj, if_true]
      exact ih (twfFrom_mono h.2 (by omega))
    · simp only [tdel, hj, if_false, twfFrom, Bool.and_eq_true, decide_eq_true_eq]
      exact ⟨h.1, ih h.2⟩

theorem twfFrom_tins [DecidableEq α] {d : α} {lo : Nat} {t : Table α} {k : Nat} {v : α} (hk : lo ≤ k) (hv : v ≠ d)
    (h : twfFrom d lo (tdel t k) = true) : twfFrom d lo (tins k v (tdel t k)) = true := by
  have hn : ∀ e ∈ tdel t k, e.1 ≠ k := by
    clear h
    induction t with
    | nil => simp [tdel]
    | cons e t ih =>
      obtain ⟨j, w⟩ := e
      by_cases h : j = k
      · simpa [tdel, h] using ih
      · simp only [tdel, h, if_false, List.mem_cons, forall_eq_or_imp]
        exact ⟨h, ih⟩
  generalize tdel t k = u at h hn ⊢
  induction u generalizing lo with
  | nil => simp [tins, twfFrom, hk, hv]
  | cons e u ih =>
    obtain ⟨j, w⟩ := e
    simp only [twfFrom, Bool.and_eq_true, decide_eq_true_eq] at h
    have hj : j ≠ k := hn (j, w) (by simp)
    by_cases hl : k < j
    · simp only [tins, hl, if_true, twfFrom, Bool.and_eq_true, decide_eq_true_eq]
      exact ⟨⟨hk, hv⟩, ⟨by omega, h.1.2⟩, h.2⟩
    · simp only [tins, hl, if_false, twfFrom, Bool.and_eq_true, decide_eq_true_eq]
      exact ⟨h.1, ih (by omega) h.2 fun e he => hn e (by simp [he])⟩

/-- A write keeps the canonical form. -/
theorem twf_tset [DecidableEq α] {d : α} {t : Table α} (k : Nat) (v : α) (h : twf d t = true) : twf d (tset d t k v) = true := by
  unfold twf tset at *
  split
  · exact twfFrom_tdel k h
  · exact twfFrom_tins (by omega) ‹_› (twfFrom_tdel k h)

theorem twf_tmod [DecidableEq α] {d : α} {t : Table α} (k : Nat) (f : α → α) (h : twf d t = true) : twf d (tmod d t k f) = true :=
  twf_tset k _ h

/-- Changing every listed value keeps the canonical form. -/
theorem twfFrom_tmap [DecidableEq α] {d : α} (f : α → α) {lo : Nat} {t : Table α} (h : twfFrom d lo t = true) :
    twfFrom d lo (tmap d f t) = true := by
  induction t generalizing lo with
  | nil => rfl
  | cons e t ih =>
    obtain ⟨j, v⟩ := e
    simp only [twfFrom, Bool.and_eq_true, decide_eq_true_eq] at h
    unfold tmap
    split
    · exact twfFrom_tdel j (twfFrom_mono (ih h.2) (by omega))
    · simp only [twfFrom, Bool.and_eq_true, decide_eq_true_eq]
      exact ⟨⟨h.1.1, ‹_›⟩, ih h.2⟩

/-- Leaving entries out keeps the canonical form. -/
theorem twfFrom_filter [DecidableEq α] {d : α} (p : Nat × α → Bool) {lo : Nat} {t : Table α} (h : twfFrom d lo t = true) :
    twfFrom d lo (t.filter p) = true := by
  induction t generalizing lo with
  | nil => rfl
  | cons e t ih =>
    obtain ⟨j, v⟩ := e
    simp only [twfFrom, Bool.and_eq_true, decide_eq_true_eq] at h
    by_cases hp : p (j, v) = true
    · rw [List.filter_cons_of_pos hp]
      simp only [twfFrom, Bool.and_eq_true, decide_eq_true_eq]
      exact ⟨h.1, ih h.2⟩
    · rw [List.filter_cons_of_neg hp]
      exact twfFrom_mono (ih h.2) (by omega)

theorem twf_filter [DecidableEq α] {d : α} (p : Nat × α → Bool) {t : Table α} (h : twf d t = true) : twf d (t.filter p) = true :=
  twfFrom_filter p h

theorem tget_lt [DecidableEq α] {d : α} {lo k : Nat} {t : Table α} (h : twfFrom d lo t = true) (hk : k < lo) : tget d t k = d := by
  induction t generalizing lo with
  | nil => rfl
  | cons e t ih =>
    obtain ⟨j, v⟩ := e
    simp only [twfFrom, Bool.and_eq_true, decide_eq_true_eq] at h
    have : j ≠ k := by omega
    simp only [tget, this, if_false]
    exact ih h.2 (by omega)

theorem twfFrom_ext [DecidableEq α] {d : α} {lo : Nat} {t u : Table α} (ht : twfFrom d lo t = true) (hu : twfFrom d lo u = true)
    (h : ∀ k, tget d t k = tget d u k) : t = u := by
  induction t generalizing lo u with
  | nil =>
    cases u with
    | nil => rfl
    | cons e u =>
      obtain ⟨j, v⟩ := e
      simp only [twfFrom, Bool.and_eq_true, decide_eq_true_eq] at hu
      have := h j
      simp only [tget, if_true] at this
      exact absurd this.symm hu.1.2
  | cons e t ih =>
    obtain ⟨j, v⟩ := e
    simp only [twfFrom, Bool.and_eq_true, decide_eq_true_eq] at ht
    cases u with
    | nil =>
      have := h j
      simp only [tget, if_true] at this
      exact absurd this ht.1.2
    | cons e u =>
      obtain ⟨i, w⟩ := e
      simp only [twfFrom, Bool.and_eq_true, decide_eq_true_eq] at hu
      have hij : i = j := by
        rcases Nat.lt_trichotomy i j with hl | he | hg
        · have := h i
          have ne : j ≠ i := by omega
          simp only [tget, if_true, ne, if_false] at this
          rw [tget_lt ht.2 (by omega)] at this
          exact absurd this.symm hu.1.2
        · exact he
        · have := h j
          have ne : i ≠ j := by omega
          simp only [tget, if_true, ne, if_false] at this
          rw [tget_lt hu.2 (by omega)] at this
          exact absurd this ht.1.2
      subst hij
      have hv : v = w := by simpa [tget] using h i
      subst hv
      congr 1
      refine ih ht.2 hu.2 fun k => ?_
      by_cases hk : i = k
      · subst hk
        rw [tget_lt ht.2 (by omega), tget_lt hu.2 (by omega)]
      · simpa [tget, hk] using h k

/-- Canonical tables of equal contents are equal. -/
theorem twf_ext [DecidableEq α] {d : α} {t u : Table α} (ht : twf d t = true) (hu : twf d u = true)
    (h : ∀ k, tget d t k = tget d u k) : t = u := twfFrom_ext ht hu h

end Sys2Proof.Machine
end

