-- ==== Sys2Proof/Laws/State.lean ====
section
/-! SUPPORT. Laws of the state's updates: each changes the one field it names (one lemma for each other field), and
what it names reads as written, so that no later proof unfolds a record update. -/

namespace Sys2Proof.Machine

/-! ### Reading what was written -/

@[simp] theorem getCell_setCell (s : State) (c e : Nat) (x : Cell) : getCell (setCell s c x) e = if e = c then x else getCell s e := by
  simp [getCell, setCell, tget_tset]
@[simp] theorem getCtl_setCtl (s : State) (u v : Nat) (x : Ctl) : getCtl (setCtl s u x) v = if v = u then x else getCtl s v := by
  simp [getCtl, setCtl, tget_tset]
@[simp] theorem getGrove_modGrove (s : State) (g h : Nat) (f : Grove → Grove) :
    getGrove (modGrove s g f) h = if h = g then f (getGrove s g) else getGrove s h := by
  simp [getGrove, modGrove, tget_tset]
@[simp] theorem getCell_modCell (s : State) (c e : Nat) (f : Cell → Cell) :
    getCell (modCell s c f) e = if e = c then f (getCell s c) else getCell s e := by
  simp [modCell]
@[simp] theorem getCtl_modCtl (s : State) (u v : Nat) (f : Ctl → Ctl) :
    getCtl (modCtl s u f) v = if v = u then f (getCtl s u) else getCtl s v := by
  simp [modCtl]
@[simp] theorem memByte_setByte (s : State) (a p : Nat) (b : Byte) : memByte (setByte s a b) p = if p = a then b else memByte s p := by
  simp [memByte, setByte, tget_tset]

theorem setCell_setCell (s : State) (c : Nat) (x y : Cell) : setCell (setCell s c x) c y = setCell s c y := by simp [setCell]
theorem setCtl_setCtl (s : State) (u : Nat) (x y : Ctl) : setCtl (setCtl s u x) u y = setCtl s u y := by simp [setCtl]

/-- A write keeps memory in its canonical form. -/
theorem setByte_wf (s : State) (a : Nat) (b : Byte) (h : twf 0 s.mem = true) : twf 0 (setByte s a b).mem = true := twf_tset a b h

/-! ### What an update leaves alone -/

@[simp] theorem setCell_turn (s : State) (c : Nat) (x : Cell) : (setCell s c x).turn = s.turn := rfl
@[simp] theorem setCell_tick (s : State) (c : Nat) (x : Cell) : (setCell s c x).tick = s.tick := rfl
@[simp] theorem setCell_free (s : State) (c : Nat) (x : Cell) : (setCell s c x).free = s.free := rfl
@[simp] theorem setCell_nextId (s : State) (c : Nat) (x : Cell) : (setCell s c x).nextId = s.nextId := rfl
@[simp] theorem setCell_timens (s : State) (c : Nat) (x : Cell) : (setCell s c x).timens = s.timens := rfl
@[simp] theorem setCell_cycles (s : State) (c : Nat) (x : Cell) : (setCell s c x).cycles = s.cycles := rfl
@[simp] theorem setCell_inputs (s : State) (c : Nat) (x : Cell) : (setCell s c x).inputs = s.inputs := rfl
@[simp] theorem setCell_mem (s : State) (c : Nat) (x : Cell) : (setCell s c x).mem = s.mem := rfl
@[simp] theorem setCell_poison (s : State) (c : Nat) (x : Cell) : (setCell s c x).poison = s.poison := rfl
@[simp] theorem setCell_groves (s : State) (c : Nat) (x : Cell) : (setCell s c x).groves = s.groves := rfl
@[simp] theorem setCell_ctls (s : State) (c : Nat) (x : Cell) : (setCell s c x).ctls = s.ctls := rfl
@[simp] theorem setCell_cfgs (s : State) (c : Nat) (x : Cell) : (setCell s c x).cfgs = s.cfgs := rfl
@[simp] theorem setCell_work (s : State) (c : Nat) (x : Cell) : (setCell s c x).work = s.work := rfl
@[simp] theorem setCell_inflight (s : State) (c : Nat) (x : Cell) : (setCell s c x).inflight = s.inflight := rfl
@[simp] theorem setCell_queues (s : State) (c : Nat) (x : Cell) : (setCell s c x).queues = s.queues := rfl
@[simp] theorem setCell_rr (s : State) (c : Nat) (x : Cell) : (setCell s c x).rr = s.rr := rfl
@[simp] theorem setCell_round (s : State) (c : Nat) (x : Cell) : (setCell s c x).round = s.round := rfl
@[simp] theorem setCell_saves (s : State) (c : Nat) (x : Cell) : (setCell s c x).saves = s.saves := rfl
@[simp] theorem setCell_groups (s : State) (c : Nat) (x : Cell) : (setCell s c x).groups = s.groups := rfl
@[simp] theorem setCell_placement (s : State) (c : Nat) (x : Cell) : (setCell s c x).placement = s.placement := rfl
@[simp] theorem setCell_slots (s : State) (c : Nat) (x : Cell) : (setCell s c x).slots = s.slots := rfl
@[simp] theorem setCell_rels (s : State) (c : Nat) (x : Cell) : (setCell s c x).rels = s.rels := rfl
@[simp] theorem setCell_regions (s : State) (c : Nat) (x : Cell) : (setCell s c x).regions = s.regions := rfl
@[simp] theorem setCell_blocks (s : State) (c : Nat) (x : Cell) : (setCell s c x).blocks = s.blocks := rfl
@[simp] theorem setCell_ttbase (s : State) (c : Nat) (x : Cell) : (setCell s c x).ttbase = s.ttbase := rfl
@[simp] theorem setCell_tlbs (s : State) (c : Nat) (x : Cell) : (setCell s c x).tlbs = s.tlbs := rfl
@[simp] theorem setCell_bbox (s : State) (c : Nat) (x : Cell) : (setCell s c x).bbox = s.bbox := rfl
@[simp] theorem setCell_drains (s : State) (c : Nat) (x : Cell) : (setCell s c x).drains = s.drains := rfl
@[simp] theorem setCell_links (s : State) (c : Nat) (x : Cell) : (setCell s c x).links = s.links := rfl
@[simp] theorem setCell_egress (s : State) (c : Nat) (x : Cell) : (setCell s c x).egress = s.egress := rfl
@[simp] theorem setCell_devnum (s : State) (c : Nat) (x : Cell) : (setCell s c x).devnum = s.devnum := rfl
@[simp] theorem setCell_launchst (s : State) (c : Nat) (x : Cell) : (setCell s c x).launchst = s.launchst := rfl
@[simp] theorem setCell_doorbells (s : State) (c : Nat) (x : Cell) : (setCell s c x).doorbells = s.doorbells := rfl
@[simp] theorem setCell_msix (s : State) (c : Nat) (x : Cell) : (setCell s c x).msix = s.msix := rfl
@[simp] theorem setCell_reply (s : State) (c : Nat) (x : Cell) : (setCell s c x).reply = s.reply := rfl
@[simp] theorem setCell_power (s : State) (c : Nat) (x : Cell) : (setCell s c x).power = s.power := rfl
@[simp] theorem setCell_idleSince (s : State) (c : Nat) (x : Cell) : (setCell s c x).idleSince = s.idleSince := rfl
@[simp] theorem setCell_clock (s : State) (c : Nat) (x : Cell) : (setCell s c x).clock = s.clock := rfl
@[simp] theorem setCell_pwreq (s : State) (c : Nat) (x : Cell) : (setCell s c x).pwreq = s.pwreq := rfl
@[simp] theorem setCell_telbase (s : State) (c : Nat) (x : Cell) : (setCell s c x).telbase = s.telbase := rfl
@[simp] theorem setCell_corrected (s : State) (c : Nat) (x : Cell) : (setCell s c x).corrected = s.corrected := rfl
@[simp] theorem setCell_correctedHbm (s : State) (c : Nat) (x : Cell) : (setCell s c x).correctedHbm = s.correctedHbm := rfl
@[simp] theorem setCell_sdcs (s : State) (c : Nat) (x : Cell) : (setCell s c x).sdcs = s.sdcs := rfl
@[simp] theorem setCell_retries (s : State) (c : Nat) (x : Cell) : (setCell s c x).retries = s.retries := rfl
@[simp] theorem setCell_passes (s : State) (c : Nat) (x : Cell) : (setCell s c x).passes = s.passes := rfl
@[simp] theorem setCell_passesHbm (s : State) (c : Nat) (x : Cell) : (setCell s c x).passesHbm = s.passesHbm := rfl
@[simp] theorem setCell_fw (s : State) (c : Nat) (x : Cell) : (setCell s c x).fw = s.fw := rfl
@[simp] theorem setCell_fwOk (s : State) (c : Nat) (x : Cell) : (setCell s c x).fwOk = s.fwOk := rfl
@[simp] theorem setCell_fwNew (s : State) (c : Nat) (x : Cell) : (setCell s c x).fwNew = s.fwNew := rfl
@[simp] theorem setCell_barWaits (s : State) (c : Nat) (x : Cell) : (setCell s c x).barWaits = s.barWaits := rfl
@[simp] theorem setCell_barPast (s : State) (c : Nat) (x : Cell) : (setCell s c x).barPast = s.barPast := rfl
@[simp] theorem setCell_barNow (s : State) (c : Nat) (x : Cell) : (setCell s c x).barNow = s.barNow := rfl
@[simp] theorem setCell_views (s : State) (c : Nat) (x : Cell) : (setCell s c x).views = s.views := rfl
@[simp] theorem setCell_hdm (s : State) (c : Nat) (x : Cell) : (setCell s c x).hdm = s.hdm := rfl
@[simp] theorem setCell_cyclePart (s : State) (c : Nat) (x : Cell) : (setCell s c x).cyclePart = s.cyclePart := rfl

@[simp] theorem modCell_turn (s : State) (c : Nat) (f : Cell → Cell) : (modCell s c f).turn = s.turn := rfl
@[simp] theorem modCell_tick (s : State) (c : Nat) (f : Cell → Cell) : (modCell s c f).tick = s.tick := rfl
@[simp] theorem modCell_free (s : State) (c : Nat) (f : Cell → Cell) : (modCell s c f).free = s.free := rfl
@[simp] theorem modCell_nextId (s : State) (c : Nat) (f : Cell → Cell) : (modCell s c f).nextId = s.nextId := rfl
@[simp] theorem modCell_timens (s : State) (c : Nat) (f : Cell → Cell) : (modCell s c f).timens = s.timens := rfl
@[simp] theorem modCell_cycles (s : State) (c : Nat) (f : Cell → Cell) : (modCell s c f).cycles = s.cycles := rfl
@[simp] theorem modCell_inputs (s : State) (c : Nat) (f : Cell → Cell) : (modCell s c f).inputs = s.inputs := rfl
@[simp] theorem modCell_mem (s : State) (c : Nat) (f : Cell → Cell) : (modCell s c f).mem = s.mem := rfl
@[simp] theorem modCell_poison (s : State) (c : Nat) (f : Cell → Cell) : (modCell s c f).poison = s.poison := rfl
@[simp] theorem modCell_groves (s : State) (c : Nat) (f : Cell → Cell) : (modCell s c f).groves = s.groves := rfl
@[simp] theorem modCell_ctls (s : State) (c : Nat) (f : Cell → Cell) : (modCell s c f).ctls = s.ctls := rfl
@[simp] theorem modCell_cfgs (s : State) (c : Nat) (f : Cell → Cell) : (modCell s c f).cfgs = s.cfgs := rfl
@[simp] theorem modCell_work (s : State) (c : Nat) (f : Cell → Cell) : (modCell s c f).work = s.work := rfl
@[simp] theorem modCell_inflight (s : State) (c : Nat) (f : Cell → Cell) : (modCell s c f).inflight = s.inflight := rfl
@[simp] theorem modCell_queues (s : State) (c : Nat) (f : Cell → Cell) : (modCell s c f).queues = s.queues := rfl
@[simp] theorem modCell_rr (s : State) (c : Nat) (f : Cell → Cell) : (modCell s c f).rr = s.rr := rfl
@[simp] theorem modCell_round (s : State) (c : Nat) (f : Cell → Cell) : (modCell s c f).round = s.round := rfl
@[simp] theorem modCell_saves (s : State) (c : Nat) (f : Cell → Cell) : (modCell s c f).saves = s.saves := rfl
@[simp] theorem modCell_groups (s : State) (c : Nat) (f : Cell → Cell) : (modCell s c f).groups = s.groups := rfl
@[simp] theorem modCell_placement (s : State) (c : Nat) (f : Cell → Cell) : (modCell s c f).placement = s.placement := rfl
@[simp] theorem modCell_slots (s : State) (c : Nat) (f : Cell → Cell) : (modCell s c f).slots = s.slots := rfl
@[simp] theorem modCell_rels (s : State) (c : Nat) (f : Cell → Cell) : (modCell s c f).rels = s.rels := rfl
@[simp] theorem modCell_regions (s : State) (c : Nat) (f : Cell → Cell) : (modCell s c f).regions = s.regions := rfl
@[simp] theorem modCell_blocks (s : State) (c : Nat) (f : Cell → Cell) : (modCell s c f).blocks = s.blocks := rfl
@[simp] theorem modCell_ttbase (s : State) (c : Nat) (f : Cell → Cell) : (modCell s c f).ttbase = s.ttbase := rfl
@[simp] theorem modCell_tlbs (s : State) (c : Nat) (f : Cell → Cell) : (modCell s c f).tlbs = s.tlbs := rfl
@[simp] theorem modCell_bbox (s : State) (c : Nat) (f : Cell → Cell) : (modCell s c f).bbox = s.bbox := rfl
@[simp] theorem modCell_drains (s : State) (c : Nat) (f : Cell → Cell) : (modCell s c f).drains = s.drains := rfl
@[simp] theorem modCell_links (s : State) (c : Nat) (f : Cell → Cell) : (modCell s c f).links = s.links := rfl
@[simp] theorem modCell_egress (s : State) (c : Nat) (f : Cell → Cell) : (modCell s c f).egress = s.egress := rfl
@[simp] theorem modCell_devnum (s : State) (c : Nat) (f : Cell → Cell) : (modCell s c f).devnum = s.devnum := rfl
@[simp] theorem modCell_launchst (s : State) (c : Nat) (f : Cell → Cell) : (modCell s c f).launchst = s.launchst := rfl
@[simp] theorem modCell_doorbells (s : State) (c : Nat) (f : Cell → Cell) : (modCell s c f).doorbells = s.doorbells := rfl
@[simp] theorem modCell_msix (s : State) (c : Nat) (f : Cell → Cell) : (modCell s c f).msix = s.msix := rfl
@[simp] theorem modCell_reply (s : State) (c : Nat) (f : Cell → Cell) : (modCell s c f).reply = s.reply := rfl
@[simp] theorem modCell_power (s : State) (c : Nat) (f : Cell → Cell) : (modCell s c f).power = s.power := rfl
@[simp] theorem modCell_idleSince (s : State) (c : Nat) (f : Cell → Cell) : (modCell s c f).idleSince = s.idleSince := rfl
@[simp] theorem modCell_clock (s : State) (c : Nat) (f : Cell → Cell) : (modCell s c f).clock = s.clock := rfl
@[simp] theorem modCell_pwreq (s : State) (c : Nat) (f : Cell → Cell) : (modCell s c f).pwreq = s.pwreq := rfl
@[simp] theorem modCell_telbase (s : State) (c : Nat) (f : Cell → Cell) : (modCell s c f).telbase = s.telbase := rfl
@[simp] theorem modCell_corrected (s : State) (c : Nat) (f : Cell → Cell) : (modCell s c f).corrected = s.corrected := rfl
@[simp] theorem modCell_correctedHbm (s : State) (c : Nat) (f : Cell → Cell) : (modCell s c f).correctedHbm = s.correctedHbm := rfl
@[simp] theorem modCell_sdcs (s : State) (c : Nat) (f : Cell → Cell) : (modCell s c f).sdcs = s.sdcs := rfl
@[simp] theorem modCell_retries (s : State) (c : Nat) (f : Cell → Cell) : (modCell s c f).retries = s.retries := rfl
@[simp] theorem modCell_passes (s : State) (c : Nat) (f : Cell → Cell) : (modCell s c f).passes = s.passes := rfl
@[simp] theorem modCell_passesHbm (s : State) (c : Nat) (f : Cell → Cell) : (modCell s c f).passesHbm = s.passesHbm := rfl
@[simp] theorem modCell_fw (s : State) (c : Nat) (f : Cell → Cell) : (modCell s c f).fw = s.fw := rfl
@[simp] theorem modCell_fwOk (s : State) (c : Nat) (f : Cell → Cell) : (modCell s c f).fwOk = s.fwOk := rfl
@[simp] theorem modCell_fwNew (s : State) (c : Nat) (f : Cell → Cell) : (modCell s c f).fwNew = s.fwNew := rfl
@[simp] theorem modCell_barWaits (s : State) (c : Nat) (f : Cell → Cell) : (modCell s c f).barWaits = s.barWaits := rfl
@[simp] theorem modCell_barPast (s : State) (c : Nat) (f : Cell → Cell) : (modCell s c f).barPast = s.barPast := rfl
@[simp] theorem modCell_barNow (s : State) (c : Nat) (f : Cell → Cell) : (modCell s c f).barNow = s.barNow := rfl
@[simp] theorem modCell_views (s : State) (c : Nat) (f : Cell → Cell) : (modCell s c f).views = s.views := rfl
@[simp] theorem modCell_hdm (s : State) (c : Nat) (f : Cell → Cell) : (modCell s c f).hdm = s.hdm := rfl
@[simp] theorem modCell_cyclePart (s : State) (c : Nat) (f : Cell → Cell) : (modCell s c f).cyclePart = s.cyclePart := rfl

@[simp] theorem setCtl_turn (s : State) (u : Nat) (x : Ctl) : (setCtl s u x).turn = s.turn := rfl
@[simp] theorem setCtl_tick (s : State) (u : Nat) (x : Ctl) : (setCtl s u x).tick = s.tick := rfl
@[simp] theorem setCtl_free (s : State) (u : Nat) (x : Ctl) : (setCtl s u x).free = s.free := rfl
@[simp] theorem setCtl_nextId (s : State) (u : Nat) (x : Ctl) : (setCtl s u x).nextId = s.nextId := rfl
@[simp] theorem setCtl_timens (s : State) (u : Nat) (x : Ctl) : (setCtl s u x).timens = s.timens := rfl
@[simp] theorem setCtl_cycles (s : State) (u : Nat) (x : Ctl) : (setCtl s u x).cycles = s.cycles := rfl
@[simp] theorem setCtl_inputs (s : State) (u : Nat) (x : Ctl) : (setCtl s u x).inputs = s.inputs := rfl
@[simp] theorem setCtl_mem (s : State) (u : Nat) (x : Ctl) : (setCtl s u x).mem = s.mem := rfl
@[simp] theorem setCtl_poison (s : State) (u : Nat) (x : Ctl) : (setCtl s u x).poison = s.poison := rfl
@[simp] theorem setCtl_cells (s : State) (u : Nat) (x : Ctl) : (setCtl s u x).cells = s.cells := rfl
@[simp] theorem setCtl_groves (s : State) (u : Nat) (x : Ctl) : (setCtl s u x).groves = s.groves := rfl
@[simp] theorem setCtl_cfgs (s : State) (u : Nat) (x : Ctl) : (setCtl s u x).cfgs = s.cfgs := rfl
@[simp] theorem setCtl_work (s : State) (u : Nat) (x : Ctl) : (setCtl s u x).work = s.work := rfl
@[simp] theorem setCtl_inflight (s : State) (u : Nat) (x : Ctl) : (setCtl s u x).inflight = s.inflight := rfl
@[simp] theorem setCtl_queues (s : State) (u : Nat) (x : Ctl) : (setCtl s u x).queues = s.queues := rfl
@[simp] theorem setCtl_rr (s : State) (u : Nat) (x : Ctl) : (setCtl s u x).rr = s.rr := rfl
@[simp] theorem setCtl_round (s : State) (u : Nat) (x : Ctl) : (setCtl s u x).round = s.round := rfl
@[simp] theorem setCtl_saves (s : State) (u : Nat) (x : Ctl) : (setCtl s u x).saves = s.saves := rfl
@[simp] theorem setCtl_groups (s : State) (u : Nat) (x : Ctl) : (setCtl s u x).groups = s.groups := rfl
@[simp] theorem setCtl_placement (s : State) (u : Nat) (x : Ctl) : (setCtl s u x).placement = s.placement := rfl
@[simp] theorem setCtl_slots (s : State) (u : Nat) (x : Ctl) : (setCtl s u x).slots = s.slots := rfl
@[simp] theorem setCtl_rels (s : State) (u : Nat) (x : Ctl) : (setCtl s u x).rels = s.rels := rfl
@[simp] theorem setCtl_regions (s : State) (u : Nat) (x : Ctl) : (setCtl s u x).regions = s.regions := rfl
@[simp] theorem setCtl_blocks (s : State) (u : Nat) (x : Ctl) : (setCtl s u x).blocks = s.blocks := rfl
@[simp] theorem setCtl_ttbase (s : State) (u : Nat) (x : Ctl) : (setCtl s u x).ttbase = s.ttbase := rfl
@[simp] theorem setCtl_tlbs (s : State) (u : Nat) (x : Ctl) : (setCtl s u x).tlbs = s.tlbs := rfl
@[simp] theorem setCtl_bbox (s : State) (u : Nat) (x : Ctl) : (setCtl s u x).bbox = s.bbox := rfl
@[simp] theorem setCtl_drains (s : State) (u : Nat) (x : Ctl) : (setCtl s u x).drains = s.drains := rfl
@[simp] theorem setCtl_links (s : State) (u : Nat) (x : Ctl) : (setCtl s u x).links = s.links := rfl
@[simp] theorem setCtl_egress (s : State) (u : Nat) (x : Ctl) : (setCtl s u x).egress = s.egress := rfl
@[simp] theorem setCtl_devnum (s : State) (u : Nat) (x : Ctl) : (setCtl s u x).devnum = s.devnum := rfl
@[simp] theorem setCtl_launchst (s : State) (u : Nat) (x : Ctl) : (setCtl s u x).launchst = s.launchst := rfl
@[simp] theorem setCtl_doorbells (s : State) (u : Nat) (x : Ctl) : (setCtl s u x).doorbells = s.doorbells := rfl
@[simp] theorem setCtl_msix (s : State) (u : Nat) (x : Ctl) : (setCtl s u x).msix = s.msix := rfl
@[simp] theorem setCtl_reply (s : State) (u : Nat) (x : Ctl) : (setCtl s u x).reply = s.reply := rfl
@[simp] theorem setCtl_power (s : State) (u : Nat) (x : Ctl) : (setCtl s u x).power = s.power := rfl
@[simp] theorem setCtl_idleSince (s : State) (u : Nat) (x : Ctl) : (setCtl s u x).idleSince = s.idleSince := rfl
@[simp] theorem setCtl_clock (s : State) (u : Nat) (x : Ctl) : (setCtl s u x).clock = s.clock := rfl
@[simp] theorem setCtl_pwreq (s : State) (u : Nat) (x : Ctl) : (setCtl s u x).pwreq = s.pwreq := rfl
@[simp] theorem setCtl_telbase (s : State) (u : Nat) (x : Ctl) : (setCtl s u x).telbase = s.telbase := rfl
@[simp] theorem setCtl_corrected (s : State) (u : Nat) (x : Ctl) : (setCtl s u x).corrected = s.corrected := rfl
@[simp] theorem setCtl_correctedHbm (s : State) (u : Nat) (x : Ctl) : (setCtl s u x).correctedHbm = s.correctedHbm := rfl
@[simp] theorem setCtl_sdcs (s : State) (u : Nat) (x : Ctl) : (setCtl s u x).sdcs = s.sdcs := rfl
@[simp] theorem setCtl_retries (s : State) (u : Nat) (x : Ctl) : (setCtl s u x).retries = s.retries := rfl
@[simp] theorem setCtl_passes (s : State) (u : Nat) (x : Ctl) : (setCtl s u x).passes = s.passes := rfl
@[simp] theorem setCtl_passesHbm (s : State) (u : Nat) (x : Ctl) : (setCtl s u x).passesHbm = s.passesHbm := rfl
@[simp] theorem setCtl_fw (s : State) (u : Nat) (x : Ctl) : (setCtl s u x).fw = s.fw := rfl
@[simp] theorem setCtl_fwOk (s : State) (u : Nat) (x : Ctl) : (setCtl s u x).fwOk = s.fwOk := rfl
@[simp] theorem setCtl_fwNew (s : State) (u : Nat) (x : Ctl) : (setCtl s u x).fwNew = s.fwNew := rfl
@[simp] theorem setCtl_barWaits (s : State) (u : Nat) (x : Ctl) : (setCtl s u x).barWaits = s.barWaits := rfl
@[simp] theorem setCtl_barPast (s : State) (u : Nat) (x : Ctl) : (setCtl s u x).barPast = s.barPast := rfl
@[simp] theorem setCtl_barNow (s : State) (u : Nat) (x : Ctl) : (setCtl s u x).barNow = s.barNow := rfl
@[simp] theorem setCtl_views (s : State) (u : Nat) (x : Ctl) : (setCtl s u x).views = s.views := rfl
@[simp] theorem setCtl_hdm (s : State) (u : Nat) (x : Ctl) : (setCtl s u x).hdm = s.hdm := rfl
@[simp] theorem setCtl_cyclePart (s : State) (u : Nat) (x : Ctl) : (setCtl s u x).cyclePart = s.cyclePart := rfl

@[simp] theorem modCtl_turn (s : State) (u : Nat) (f : Ctl → Ctl) : (modCtl s u f).turn = s.turn := rfl
@[simp] theorem modCtl_tick (s : State) (u : Nat) (f : Ctl → Ctl) : (modCtl s u f).tick = s.tick := rfl
@[simp] theorem modCtl_free (s : State) (u : Nat) (f : Ctl → Ctl) : (modCtl s u f).free = s.free := rfl
@[simp] theorem modCtl_nextId (s : State) (u : Nat) (f : Ctl → Ctl) : (modCtl s u f).nextId = s.nextId := rfl
@[simp] theorem modCtl_timens (s : State) (u : Nat) (f : Ctl → Ctl) : (modCtl s u f).timens = s.timens := rfl
@[simp] theorem modCtl_cycles (s : State) (u : Nat) (f : Ctl → Ctl) : (modCtl s u f).cycles = s.cycles := rfl
@[simp] theorem modCtl_inputs (s : State) (u : Nat) (f : Ctl → Ctl) : (modCtl s u f).inputs = s.inputs := rfl
@[simp] theorem modCtl_mem (s : State) (u : Nat) (f : Ctl → Ctl) : (modCtl s u f).mem = s.mem := rfl
@[simp] theorem modCtl_poison (s : State) (u : Nat) (f : Ctl → Ctl) : (modCtl s u f).poison = s.poison := rfl
@[simp] theorem modCtl_cells (s : State) (u : Nat) (f : Ctl → Ctl) : (modCtl s u f).cells = s.cells := rfl
@[simp] theorem modCtl_groves (s : State) (u : Nat) (f : Ctl → Ctl) : (modCtl s u f).groves = s.groves := rfl
@[simp] theorem modCtl_cfgs (s : State) (u : Nat) (f : Ctl → Ctl) : (modCtl s u f).cfgs = s.cfgs := rfl
@[simp] theorem modCtl_work (s : State) (u : Nat) (f : Ctl → Ctl) : (modCtl s u f).work = s.work := rfl
@[simp] theorem modCtl_inflight (s : State) (u : Nat) (f : Ctl → Ctl) : (modCtl s u f).inflight = s.inflight := rfl
@[simp] theorem modCtl_queues (s : State) (u : Nat) (f : Ctl → Ctl) : (modCtl s u f).queues = s.queues := rfl
@[simp] theorem modCtl_rr (s : State) (u : Nat) (f : Ctl → Ctl) : (modCtl s u f).rr = s.rr := rfl
@[simp] theorem modCtl_round (s : State) (u : Nat) (f : Ctl → Ctl) : (modCtl s u f).round = s.round := rfl
@[simp] theorem modCtl_saves (s : State) (u : Nat) (f : Ctl → Ctl) : (modCtl s u f).saves = s.saves := rfl
@[simp] theorem modCtl_groups (s : State) (u : Nat) (f : Ctl → Ctl) : (modCtl s u f).groups = s.groups := rfl
@[simp] theorem modCtl_placement (s : State) (u : Nat) (f : Ctl → Ctl) : (modCtl s u f).placement = s.placement := rfl
@[simp] theorem modCtl_slots (s : State) (u : Nat) (f : Ctl → Ctl) : (modCtl s u f).slots = s.slots := rfl
@[simp] theorem modCtl_rels (s : State) (u : Nat) (f : Ctl → Ctl) : (modCtl s u f).rels = s.rels := rfl
@[simp] theorem modCtl_regions (s : State) (u : Nat) (f : Ctl → Ctl) : (modCtl s u f).regions = s.regions := rfl
@[simp] theorem modCtl_blocks (s : State) (u : Nat) (f : Ctl → Ctl) : (modCtl s u f).blocks = s.blocks := rfl
@[simp] theorem modCtl_ttbase (s : State) (u : Nat) (f : Ctl → Ctl) : (modCtl s u f).ttbase = s.ttbase := rfl
@[simp] theorem modCtl_tlbs (s : State) (u : Nat) (f : Ctl → Ctl) : (modCtl s u f).tlbs = s.tlbs := rfl
@[simp] theorem modCtl_bbox (s : State) (u : Nat) (f : Ctl → Ctl) : (modCtl s u f).bbox = s.bbox := rfl
@[simp] theorem modCtl_drains (s : State) (u : Nat) (f : Ctl → Ctl) : (modCtl s u f).drains = s.drains := rfl
@[simp] theorem modCtl_links (s : State) (u : Nat) (f : Ctl → Ctl) : (modCtl s u f).links = s.links := rfl
@[simp] theorem modCtl_egress (s : State) (u : Nat) (f : Ctl → Ctl) : (modCtl s u f).egress = s.egress := rfl
@[simp] theorem modCtl_devnum (s : State) (u : Nat) (f : Ctl → Ctl) : (modCtl s u f).devnum = s.devnum := rfl
@[simp] theorem modCtl_launchst (s : State) (u : Nat) (f : Ctl → Ctl) : (modCtl s u f).launchst = s.launchst := rfl
@[simp] theorem modCtl_doorbells (s : State) (u : Nat) (f : Ctl → Ctl) : (modCtl s u f).doorbells = s.doorbells := rfl
@[simp] theorem modCtl_msix (s : State) (u : Nat) (f : Ctl → Ctl) : (modCtl s u f).msix = s.msix := rfl
@[simp] theorem modCtl_reply (s : State) (u : Nat) (f : Ctl → Ctl) : (modCtl s u f).reply = s.reply := rfl
@[simp] theorem modCtl_power (s : State) (u : Nat) (f : Ctl → Ctl) : (modCtl s u f).power = s.power := rfl
@[simp] theorem modCtl_idleSince (s : State) (u : Nat) (f : Ctl → Ctl) : (modCtl s u f).idleSince = s.idleSince := rfl
@[simp] theorem modCtl_clock (s : State) (u : Nat) (f : Ctl → Ctl) : (modCtl s u f).clock = s.clock := rfl
@[simp] theorem modCtl_pwreq (s : State) (u : Nat) (f : Ctl → Ctl) : (modCtl s u f).pwreq = s.pwreq := rfl
@[simp] theorem modCtl_telbase (s : State) (u : Nat) (f : Ctl → Ctl) : (modCtl s u f).telbase = s.telbase := rfl
@[simp] theorem modCtl_corrected (s : State) (u : Nat) (f : Ctl → Ctl) : (modCtl s u f).corrected = s.corrected := rfl
@[simp] theorem modCtl_correctedHbm (s : State) (u : Nat) (f : Ctl → Ctl) : (modCtl s u f).correctedHbm = s.correctedHbm := rfl
@[simp] theorem modCtl_sdcs (s : State) (u : Nat) (f : Ctl → Ctl) : (modCtl s u f).sdcs = s.sdcs := rfl
@[simp] theorem modCtl_retries (s : State) (u : Nat) (f : Ctl → Ctl) : (modCtl s u f).retries = s.retries := rfl
@[simp] theorem modCtl_passes (s : State) (u : Nat) (f : Ctl → Ctl) : (modCtl s u f).passes = s.passes := rfl
@[simp] theorem modCtl_passesHbm (s : State) (u : Nat) (f : Ctl → Ctl) : (modCtl s u f).passesHbm = s.passesHbm := rfl
@[simp] theorem modCtl_fw (s : State) (u : Nat) (f : Ctl → Ctl) : (modCtl s u f).fw = s.fw := rfl
@[simp] theorem modCtl_fwOk (s : State) (u : Nat) (f : Ctl → Ctl) : (modCtl s u f).fwOk = s.fwOk := rfl
@[simp] theorem modCtl_fwNew (s : State) (u : Nat) (f : Ctl → Ctl) : (modCtl s u f).fwNew = s.fwNew := rfl
@[simp] theorem modCtl_barWaits (s : State) (u : Nat) (f : Ctl → Ctl) : (modCtl s u f).barWaits = s.barWaits := rfl
@[simp] theorem modCtl_barPast (s : State) (u : Nat) (f : Ctl → Ctl) : (modCtl s u f).barPast = s.barPast := rfl
@[simp] theorem modCtl_barNow (s : State) (u : Nat) (f : Ctl → Ctl) : (modCtl s u f).barNow = s.barNow := rfl
@[simp] theorem modCtl_views (s : State) (u : Nat) (f : Ctl → Ctl) : (modCtl s u f).views = s.views := rfl
@[simp] theorem modCtl_hdm (s : State) (u : Nat) (f : Ctl → Ctl) : (modCtl s u f).hdm = s.hdm := rfl
@[simp] theorem modCtl_cyclePart (s : State) (u : Nat) (f : Ctl → Ctl) : (modCtl s u f).cyclePart = s.cyclePart := rfl

@[simp] theorem modGrove_turn (s : State) (g : Nat) (f : Grove → Grove) : (modGrove s g f).turn = s.turn := rfl
@[simp] theorem modGrove_tick (s : State) (g : Nat) (f : Grove → Grove) : (modGrove s g f).tick = s.tick := rfl
@[simp] theorem modGrove_free (s : State) (g : Nat) (f : Grove → Grove) : (modGrove s g f).free = s.free := rfl
@[simp] theorem modGrove_nextId (s : State) (g : Nat) (f : Grove → Grove) : (modGrove s g f).nextId = s.nextId := rfl
@[simp] theorem modGrove_timens (s : State) (g : Nat) (f : Grove → Grove) : (modGrove s g f).timens = s.timens := rfl
@[simp] theorem modGrove_cycles (s : State) (g : Nat) (f : Grove → Grove) : (modGrove s g f).cycles = s.cycles := rfl
@[simp] theorem modGrove_inputs (s : State) (g : Nat) (f : Grove → Grove) : (modGrove s g f).inputs = s.inputs := rfl
@[simp] theorem modGrove_mem (s : State) (g : Nat) (f : Grove → Grove) : (modGrove s g f).mem = s.mem := rfl
@[simp] theorem modGrove_poison (s : State) (g : Nat) (f : Grove → Grove) : (modGrove s g f).poison = s.poison := rfl
@[simp] theorem modGrove_cells (s : State) (g : Nat) (f : Grove → Grove) : (modGrove s g f).cells = s.cells := rfl
@[simp] theorem modGrove_ctls (s : State) (g : Nat) (f : Grove → Grove) : (modGrove s g f).ctls = s.ctls := rfl
@[simp] theorem modGrove_cfgs (s : State) (g : Nat) (f : Grove → Grove) : (modGrove s g f).cfgs = s.cfgs := rfl
@[simp] theorem modGrove_work (s : State) (g : Nat) (f : Grove → Grove) : (modGrove s g f).work = s.work := rfl
@[simp] theorem modGrove_inflight (s : State) (g : Nat) (f : Grove → Grove) : (modGrove s g f).inflight = s.inflight := rfl
@[simp] theorem modGrove_queues (s : State) (g : Nat) (f : Grove → Grove) : (modGrove s g f).queues = s.queues := rfl
@[simp] theorem modGrove_rr (s : State) (g : Nat) (f : Grove → Grove) : (modGrove s g f).rr = s.rr := rfl
@[simp] theorem modGrove_round (s : State) (g : Nat) (f : Grove → Grove) : (modGrove s g f).round = s.round := rfl
@[simp] theorem modGrove_saves (s : State) (g : Nat) (f : Grove → Grove) : (modGrove s g f).saves = s.saves := rfl
@[simp] theorem modGrove_groups (s : State) (g : Nat) (f : Grove → Grove) : (modGrove s g f).groups = s.groups := rfl
@[simp] theorem modGrove_placement (s : State) (g : Nat) (f : Grove → Grove) : (modGrove s g f).placement = s.placement := rfl
@[simp] theorem modGrove_slots (s : State) (g : Nat) (f : Grove → Grove) : (modGrove s g f).slots = s.slots := rfl
@[simp] theorem modGrove_rels (s : State) (g : Nat) (f : Grove → Grove) : (modGrove s g f).rels = s.rels := rfl
@[simp] theorem modGrove_regions (s : State) (g : Nat) (f : Grove → Grove) : (modGrove s g f).regions = s.regions := rfl
@[simp] theorem modGrove_blocks (s : State) (g : Nat) (f : Grove → Grove) : (modGrove s g f).blocks = s.blocks := rfl
@[simp] theorem modGrove_ttbase (s : State) (g : Nat) (f : Grove → Grove) : (modGrove s g f).ttbase = s.ttbase := rfl
@[simp] theorem modGrove_tlbs (s : State) (g : Nat) (f : Grove → Grove) : (modGrove s g f).tlbs = s.tlbs := rfl
@[simp] theorem modGrove_bbox (s : State) (g : Nat) (f : Grove → Grove) : (modGrove s g f).bbox = s.bbox := rfl
@[simp] theorem modGrove_drains (s : State) (g : Nat) (f : Grove → Grove) : (modGrove s g f).drains = s.drains := rfl
@[simp] theorem modGrove_links (s : State) (g : Nat) (f : Grove → Grove) : (modGrove s g f).links = s.links := rfl
@[simp] theorem modGrove_egress (s : State) (g : Nat) (f : Grove → Grove) : (modGrove s g f).egress = s.egress := rfl
@[simp] theorem modGrove_devnum (s : State) (g : Nat) (f : Grove → Grove) : (modGrove s g f).devnum = s.devnum := rfl
@[simp] theorem modGrove_launchst (s : State) (g : Nat) (f : Grove → Grove) : (modGrove s g f).launchst = s.launchst := rfl
@[simp] theorem modGrove_doorbells (s : State) (g : Nat) (f : Grove → Grove) : (modGrove s g f).doorbells = s.doorbells := rfl
@[simp] theorem modGrove_msix (s : State) (g : Nat) (f : Grove → Grove) : (modGrove s g f).msix = s.msix := rfl
@[simp] theorem modGrove_reply (s : State) (g : Nat) (f : Grove → Grove) : (modGrove s g f).reply = s.reply := rfl
@[simp] theorem modGrove_power (s : State) (g : Nat) (f : Grove → Grove) : (modGrove s g f).power = s.power := rfl
@[simp] theorem modGrove_idleSince (s : State) (g : Nat) (f : Grove → Grove) : (modGrove s g f).idleSince = s.idleSince := rfl
@[simp] theorem modGrove_clock (s : State) (g : Nat) (f : Grove → Grove) : (modGrove s g f).clock = s.clock := rfl
@[simp] theorem modGrove_pwreq (s : State) (g : Nat) (f : Grove → Grove) : (modGrove s g f).pwreq = s.pwreq := rfl
@[simp] theorem modGrove_telbase (s : State) (g : Nat) (f : Grove → Grove) : (modGrove s g f).telbase = s.telbase := rfl
@[simp] theorem modGrove_corrected (s : State) (g : Nat) (f : Grove → Grove) : (modGrove s g f).corrected = s.corrected := rfl
@[simp] theorem modGrove_correctedHbm (s : State) (g : Nat) (f : Grove → Grove) : (modGrove s g f).correctedHbm = s.correctedHbm := rfl
@[simp] theorem modGrove_sdcs (s : State) (g : Nat) (f : Grove → Grove) : (modGrove s g f).sdcs = s.sdcs := rfl
@[simp] theorem modGrove_retries (s : State) (g : Nat) (f : Grove → Grove) : (modGrove s g f).retries = s.retries := rfl
@[simp] theorem modGrove_passes (s : State) (g : Nat) (f : Grove → Grove) : (modGrove s g f).passes = s.passes := rfl
@[simp] theorem modGrove_passesHbm (s : State) (g : Nat) (f : Grove → Grove) : (modGrove s g f).passesHbm = s.passesHbm := rfl
@[simp] theorem modGrove_fw (s : State) (g : Nat) (f : Grove → Grove) : (modGrove s g f).fw = s.fw := rfl
@[simp] theorem modGrove_fwOk (s : State) (g : Nat) (f : Grove → Grove) : (modGrove s g f).fwOk = s.fwOk := rfl
@[simp] theorem modGrove_fwNew (s : State) (g : Nat) (f : Grove → Grove) : (modGrove s g f).fwNew = s.fwNew := rfl
@[simp] theorem modGrove_barWaits (s : State) (g : Nat) (f : Grove → Grove) : (modGrove s g f).barWaits = s.barWaits := rfl
@[simp] theorem modGrove_barPast (s : State) (g : Nat) (f : Grove → Grove) : (modGrove s g f).barPast = s.barPast := rfl
@[simp] theorem modGrove_barNow (s : State) (g : Nat) (f : Grove → Grove) : (modGrove s g f).barNow = s.barNow := rfl
@[simp] theorem modGrove_views (s : State) (g : Nat) (f : Grove → Grove) : (modGrove s g f).views = s.views := rfl
@[simp] theorem modGrove_hdm (s : State) (g : Nat) (f : Grove → Grove) : (modGrove s g f).hdm = s.hdm := rfl
@[simp] theorem modGrove_cyclePart (s : State) (g : Nat) (f : Grove → Grove) : (modGrove s g f).cyclePart = s.cyclePart := rfl

@[simp] theorem modCfg_turn (s : State) (i : Nat) (f : Cfg → Cfg) : (modCfg s i f).turn = s.turn := rfl
@[simp] theorem modCfg_tick (s : State) (i : Nat) (f : Cfg → Cfg) : (modCfg s i f).tick = s.tick := rfl
@[simp] theorem modCfg_free (s : State) (i : Nat) (f : Cfg → Cfg) : (modCfg s i f).free = s.free := rfl
@[simp] theorem modCfg_nextId (s : State) (i : Nat) (f : Cfg → Cfg) : (modCfg s i f).nextId = s.nextId := rfl
@[simp] theorem modCfg_timens (s : State) (i : Nat) (f : Cfg → Cfg) : (modCfg s i f).timens = s.timens := rfl
@[simp] theorem modCfg_cycles (s : State) (i : Nat) (f : Cfg → Cfg) : (modCfg s i f).cycles = s.cycles := rfl
@[simp] theorem modCfg_inputs (s : State) (i : Nat) (f : Cfg → Cfg) : (modCfg s i f).inputs = s.inputs := rfl
@[simp] theorem modCfg_mem (s : State) (i : Nat) (f : Cfg → Cfg) : (modCfg s i f).mem = s.mem := rfl
@[simp] theorem modCfg_poison (s : State) (i : Nat) (f : Cfg → Cfg) : (modCfg s i f).poison = s.poison := rfl
@[simp] theorem modCfg_cells (s : State) (i : Nat) (f : Cfg → Cfg) : (modCfg s i f).cells = s.cells := rfl
@[simp] theorem modCfg_groves (s : State) (i : Nat) (f : Cfg → Cfg) : (modCfg s i f).groves = s.groves := rfl
@[simp] theorem modCfg_ctls (s : State) (i : Nat) (f : Cfg → Cfg) : (modCfg s i f).ctls = s.ctls := rfl
@[simp] theorem modCfg_work (s : State) (i : Nat) (f : Cfg → Cfg) : (modCfg s i f).work = s.work := rfl
@[simp] theorem modCfg_inflight (s : State) (i : Nat) (f : Cfg → Cfg) : (modCfg s i f).inflight = s.inflight := rfl
@[simp] theorem modCfg_queues (s : State) (i : Nat) (f : Cfg → Cfg) : (modCfg s i f).queues = s.queues := rfl
@[simp] theorem modCfg_rr (s : State) (i : Nat) (f : Cfg → Cfg) : (modCfg s i f).rr = s.rr := rfl
@[simp] theorem modCfg_round (s : State) (i : Nat) (f : Cfg → Cfg) : (modCfg s i f).round = s.round := rfl
@[simp] theorem modCfg_saves (s : State) (i : Nat) (f : Cfg → Cfg) : (modCfg s i f).saves = s.saves := rfl
@[simp] theorem modCfg_groups (s : State) (i : Nat) (f : Cfg → Cfg) : (modCfg s i f).groups = s.groups := rfl
@[simp] theorem modCfg_placement (s : State) (i : Nat) (f : Cfg → Cfg) : (modCfg s i f).placement = s.placement := rfl
@[simp] theorem modCfg_slots (s : State) (i : Nat) (f : Cfg → Cfg) : (modCfg s i f).slots = s.slots := rfl
@[simp] theorem modCfg_rels (s : State) (i : Nat) (f : Cfg → Cfg) : (modCfg s i f).rels = s.rels := rfl
@[simp] theorem modCfg_regions (s : State) (i : Nat) (f : Cfg → Cfg) : (modCfg s i f).regions = s.regions := rfl
@[simp] theorem modCfg_blocks (s : State) (i : Nat) (f : Cfg → Cfg) : (modCfg s i f).blocks = s.blocks := rfl
@[simp] theorem modCfg_ttbase (s : State) (i : Nat) (f : Cfg → Cfg) : (modCfg s i f).ttbase = s.ttbase := rfl
@[simp] theorem modCfg_tlbs (s : State) (i : Nat) (f : Cfg → Cfg) : (modCfg s i f).tlbs = s.tlbs := rfl
@[simp] theorem modCfg_bbox (s : State) (i : Nat) (f : Cfg → Cfg) : (modCfg s i f).bbox = s.bbox := rfl
@[simp] theorem modCfg_drains (s : State) (i : Nat) (f : Cfg → Cfg) : (modCfg s i f).drains = s.drains := rfl
@[simp] theorem modCfg_links (s : State) (i : Nat) (f : Cfg → Cfg) : (modCfg s i f).links = s.links := rfl
@[simp] theorem modCfg_egress (s : State) (i : Nat) (f : Cfg → Cfg) : (modCfg s i f).egress = s.egress := rfl
@[simp] theorem modCfg_devnum (s : State) (i : Nat) (f : Cfg → Cfg) : (modCfg s i f).devnum = s.devnum := rfl
@[simp] theorem modCfg_launchst (s : State) (i : Nat) (f : Cfg → Cfg) : (modCfg s i f).launchst = s.launchst := rfl
@[simp] theorem modCfg_doorbells (s : State) (i : Nat) (f : Cfg → Cfg) : (modCfg s i f).doorbells = s.doorbells := rfl
@[simp] theorem modCfg_msix (s : State) (i : Nat) (f : Cfg → Cfg) : (modCfg s i f).msix = s.msix := rfl
@[simp] theorem modCfg_reply (s : State) (i : Nat) (f : Cfg → Cfg) : (modCfg s i f).reply = s.reply := rfl
@[simp] theorem modCfg_power (s : State) (i : Nat) (f : Cfg → Cfg) : (modCfg s i f).power = s.power := rfl
@[simp] theorem modCfg_idleSince (s : State) (i : Nat) (f : Cfg → Cfg) : (modCfg s i f).idleSince = s.idleSince := rfl
@[simp] theorem modCfg_clock (s : State) (i : Nat) (f : Cfg → Cfg) : (modCfg s i f).clock = s.clock := rfl
@[simp] theorem modCfg_pwreq (s : State) (i : Nat) (f : Cfg → Cfg) : (modCfg s i f).pwreq = s.pwreq := rfl
@[simp] theorem modCfg_telbase (s : State) (i : Nat) (f : Cfg → Cfg) : (modCfg s i f).telbase = s.telbase := rfl
@[simp] theorem modCfg_corrected (s : State) (i : Nat) (f : Cfg → Cfg) : (modCfg s i f).corrected = s.corrected := rfl
@[simp] theorem modCfg_correctedHbm (s : State) (i : Nat) (f : Cfg → Cfg) : (modCfg s i f).correctedHbm = s.correctedHbm := rfl
@[simp] theorem modCfg_sdcs (s : State) (i : Nat) (f : Cfg → Cfg) : (modCfg s i f).sdcs = s.sdcs := rfl
@[simp] theorem modCfg_retries (s : State) (i : Nat) (f : Cfg → Cfg) : (modCfg s i f).retries = s.retries := rfl
@[simp] theorem modCfg_passes (s : State) (i : Nat) (f : Cfg → Cfg) : (modCfg s i f).passes = s.passes := rfl
@[simp] theorem modCfg_passesHbm (s : State) (i : Nat) (f : Cfg → Cfg) : (modCfg s i f).passesHbm = s.passesHbm := rfl
@[simp] theorem modCfg_fw (s : State) (i : Nat) (f : Cfg → Cfg) : (modCfg s i f).fw = s.fw := rfl
@[simp] theorem modCfg_fwOk (s : State) (i : Nat) (f : Cfg → Cfg) : (modCfg s i f).fwOk = s.fwOk := rfl
@[simp] theorem modCfg_fwNew (s : State) (i : Nat) (f : Cfg → Cfg) : (modCfg s i f).fwNew = s.fwNew := rfl
@[simp] theorem modCfg_barWaits (s : State) (i : Nat) (f : Cfg → Cfg) : (modCfg s i f).barWaits = s.barWaits := rfl
@[simp] theorem modCfg_barPast (s : State) (i : Nat) (f : Cfg → Cfg) : (modCfg s i f).barPast = s.barPast := rfl
@[simp] theorem modCfg_barNow (s : State) (i : Nat) (f : Cfg → Cfg) : (modCfg s i f).barNow = s.barNow := rfl
@[simp] theorem modCfg_views (s : State) (i : Nat) (f : Cfg → Cfg) : (modCfg s i f).views = s.views := rfl
@[simp] theorem modCfg_hdm (s : State) (i : Nat) (f : Cfg → Cfg) : (modCfg s i f).hdm = s.hdm := rfl
@[simp] theorem modCfg_cyclePart (s : State) (i : Nat) (f : Cfg → Cfg) : (modCfg s i f).cyclePart = s.cyclePart := rfl

@[simp] theorem modFrame_turn (s : State) (i n : Nat) (f : Frame → Frame) : (modFrame s i n f).turn = s.turn := rfl
@[simp] theorem modFrame_tick (s : State) (i n : Nat) (f : Frame → Frame) : (modFrame s i n f).tick = s.tick := rfl
@[simp] theorem modFrame_free (s : State) (i n : Nat) (f : Frame → Frame) : (modFrame s i n f).free = s.free := rfl
@[simp] theorem modFrame_nextId (s : State) (i n : Nat) (f : Frame → Frame) : (modFrame s i n f).nextId = s.nextId := rfl
@[simp] theorem modFrame_timens (s : State) (i n : Nat) (f : Frame → Frame) : (modFrame s i n f).timens = s.timens := rfl
@[simp] theorem modFrame_cycles (s : State) (i n : Nat) (f : Frame → Frame) : (modFrame s i n f).cycles = s.cycles := rfl
@[simp] theorem modFrame_inputs (s : State) (i n : Nat) (f : Frame → Frame) : (modFrame s i n f).inputs = s.inputs := rfl
@[simp] theorem modFrame_mem (s : State) (i n : Nat) (f : Frame → Frame) : (modFrame s i n f).mem = s.mem := rfl
@[simp] theorem modFrame_poison (s : State) (i n : Nat) (f : Frame → Frame) : (modFrame s i n f).poison = s.poison := rfl
@[simp] theorem modFrame_cells (s : State) (i n : Nat) (f : Frame → Frame) : (modFrame s i n f).cells = s.cells := rfl
@[simp] theorem modFrame_groves (s : State) (i n : Nat) (f : Frame → Frame) : (modFrame s i n f).groves = s.groves := rfl
@[simp] theorem modFrame_ctls (s : State) (i n : Nat) (f : Frame → Frame) : (modFrame s i n f).ctls = s.ctls := rfl
@[simp] theorem modFrame_work (s : State) (i n : Nat) (f : Frame → Frame) : (modFrame s i n f).work = s.work := rfl
@[simp] theorem modFrame_inflight (s : State) (i n : Nat) (f : Frame → Frame) : (modFrame s i n f).inflight = s.inflight := rfl
@[simp] theorem modFrame_queues (s : State) (i n : Nat) (f : Frame → Frame) : (modFrame s i n f).queues = s.queues := rfl
@[simp] theorem modFrame_rr (s : State) (i n : Nat) (f : Frame → Frame) : (modFrame s i n f).rr = s.rr := rfl
@[simp] theorem modFrame_round (s : State) (i n : Nat) (f : Frame → Frame) : (modFrame s i n f).round = s.round := rfl
@[simp] theorem modFrame_saves (s : State) (i n : Nat) (f : Frame → Frame) : (modFrame s i n f).saves = s.saves := rfl
@[simp] theorem modFrame_groups (s : State) (i n : Nat) (f : Frame → Frame) : (modFrame s i n f).groups = s.groups := rfl
@[simp] theorem modFrame_placement (s : State) (i n : Nat) (f : Frame → Frame) : (modFrame s i n f).placement = s.placement := rfl
@[simp] theorem modFrame_slots (s : State) (i n : Nat) (f : Frame → Frame) : (modFrame s i n f).slots = s.slots := rfl
@[simp] theorem modFrame_rels (s : State) (i n : Nat) (f : Frame → Frame) : (modFrame s i n f).rels = s.rels := rfl
@[simp] theorem modFrame_regions (s : State) (i n : Nat) (f : Frame → Frame) : (modFrame s i n f).regions = s.regions := rfl
@[simp] theorem modFrame_blocks (s : State) (i n : Nat) (f : Frame → Frame) : (modFrame s i n f).blocks = s.blocks := rfl
@[simp] theorem modFrame_ttbase (s : State) (i n : Nat) (f : Frame → Frame) : (modFrame s i n f).ttbase = s.ttbase := rfl
@[simp] theorem modFrame_tlbs (s : State) (i n : Nat) (f : Frame → Frame) : (modFrame s i n f).tlbs = s.tlbs := rfl
@[simp] theorem modFrame_bbox (s : State) (i n : Nat) (f : Frame → Frame) : (modFrame s i n f).bbox = s.bbox := rfl
@[simp] theorem modFrame_drains (s : State) (i n : Nat) (f : Frame → Frame) : (modFrame s i n f).drains = s.drains := rfl
@[simp] theorem modFrame_links (s : State) (i n : Nat) (f : Frame → Frame) : (modFrame s i n f).links = s.links := rfl
@[simp] theorem modFrame_egress (s : State) (i n : Nat) (f : Frame → Frame) : (modFrame s i n f).egress = s.egress := rfl
@[simp] theorem modFrame_devnum (s : State) (i n : Nat) (f : Frame → Frame) : (modFrame s i n f).devnum = s.devnum := rfl
@[simp] theorem modFrame_launchst (s : State) (i n : Nat) (f : Frame → Frame) : (modFrame s i n f).launchst = s.launchst := rfl
@[simp] theorem modFrame_doorbells (s : State) (i n : Nat) (f : Frame → Frame) : (modFrame s i n f).doorbells = s.doorbells := rfl
@[simp] theorem modFrame_msix (s : State) (i n : Nat) (f : Frame → Frame) : (modFrame s i n f).msix = s.msix := rfl
@[simp] theorem modFrame_reply (s : State) (i n : Nat) (f : Frame → Frame) : (modFrame s i n f).reply = s.reply := rfl
@[simp] theorem modFrame_power (s : State) (i n : Nat) (f : Frame → Frame) : (modFrame s i n f).power = s.power := rfl
@[simp] theorem modFrame_idleSince (s : State) (i n : Nat) (f : Frame → Frame) : (modFrame s i n f).idleSince = s.idleSince := rfl
@[simp] theorem modFrame_clock (s : State) (i n : Nat) (f : Frame → Frame) : (modFrame s i n f).clock = s.clock := rfl
@[simp] theorem modFrame_pwreq (s : State) (i n : Nat) (f : Frame → Frame) : (modFrame s i n f).pwreq = s.pwreq := rfl
@[simp] theorem modFrame_telbase (s : State) (i n : Nat) (f : Frame → Frame) : (modFrame s i n f).telbase = s.telbase := rfl
@[simp] theorem modFrame_corrected (s : State) (i n : Nat) (f : Frame → Frame) : (modFrame s i n f).corrected = s.corrected := rfl
@[simp] theorem modFrame_correctedHbm (s : State) (i n : Nat) (f : Frame → Frame) : (modFrame s i n f).correctedHbm = s.correctedHbm := rfl
@[simp] theorem modFrame_sdcs (s : State) (i n : Nat) (f : Frame → Frame) : (modFrame s i n f).sdcs = s.sdcs := rfl
@[simp] theorem modFrame_retries (s : State) (i n : Nat) (f : Frame → Frame) : (modFrame s i n f).retries = s.retries := rfl
@[simp] theorem modFrame_passes (s : State) (i n : Nat) (f : Frame → Frame) : (modFrame s i n f).passes = s.passes := rfl
@[simp] theorem modFrame_passesHbm (s : State) (i n : Nat) (f : Frame → Frame) : (modFrame s i n f).passesHbm = s.passesHbm := rfl
@[simp] theorem modFrame_fw (s : State) (i n : Nat) (f : Frame → Frame) : (modFrame s i n f).fw = s.fw := rfl
@[simp] theorem modFrame_fwOk (s : State) (i n : Nat) (f : Frame → Frame) : (modFrame s i n f).fwOk = s.fwOk := rfl
@[simp] theorem modFrame_fwNew (s : State) (i n : Nat) (f : Frame → Frame) : (modFrame s i n f).fwNew = s.fwNew := rfl
@[simp] theorem modFrame_barWaits (s : State) (i n : Nat) (f : Frame → Frame) : (modFrame s i n f).barWaits = s.barWaits := rfl
@[simp] theorem modFrame_barPast (s : State) (i n : Nat) (f : Frame → Frame) : (modFrame s i n f).barPast = s.barPast := rfl
@[simp] theorem modFrame_barNow (s : State) (i n : Nat) (f : Frame → Frame) : (modFrame s i n f).barNow = s.barNow := rfl
@[simp] theorem modFrame_views (s : State) (i n : Nat) (f : Frame → Frame) : (modFrame s i n f).views = s.views := rfl
@[simp] theorem modFrame_hdm (s : State) (i n : Nat) (f : Frame → Frame) : (modFrame s i n f).hdm = s.hdm := rfl
@[simp] theorem modFrame_cyclePart (s : State) (i n : Nat) (f : Frame → Frame) : (modFrame s i n f).cyclePart = s.cyclePart := rfl

@[simp] theorem addWork_turn (s : State) (w : Work) : (addWork s w).turn = s.turn := rfl
@[simp] theorem addWork_tick (s : State) (w : Work) : (addWork s w).tick = s.tick := rfl
@[simp] theorem addWork_free (s : State) (w : Work) : (addWork s w).free = s.free := rfl
@[simp] theorem addWork_nextId (s : State) (w : Work) : (addWork s w).nextId = s.nextId := rfl
@[simp] theorem addWork_timens (s : State) (w : Work) : (addWork s w).timens = s.timens := rfl
@[simp] theorem addWork_cycles (s : State) (w : Work) : (addWork s w).cycles = s.cycles := rfl
@[simp] theorem addWork_inputs (s : State) (w : Work) : (addWork s w).inputs = s.inputs := rfl
@[simp] theorem addWork_mem (s : State) (w : Work) : (addWork s w).mem = s.mem := rfl
@[simp] theorem addWork_poison (s : State) (w : Work) : (addWork s w).poison = s.poison := rfl
@[simp] theorem addWork_cells (s : State) (w : Work) : (addWork s w).cells = s.cells := rfl
@[simp] theorem addWork_groves (s : State) (w : Work) : (addWork s w).groves = s.groves := rfl
@[simp] theorem addWork_ctls (s : State) (w : Work) : (addWork s w).ctls = s.ctls := rfl
@[simp] theorem addWork_cfgs (s : State) (w : Work) : (addWork s w).cfgs = s.cfgs := rfl
@[simp] theorem addWork_inflight (s : State) (w : Work) : (addWork s w).inflight = s.inflight := rfl
@[simp] theorem addWork_queues (s : State) (w : Work) : (addWork s w).queues = s.queues := rfl
@[simp] theorem addWork_rr (s : State) (w : Work) : (addWork s w).rr = s.rr := rfl
@[simp] theorem addWork_round (s : State) (w : Work) : (addWork s w).round = s.round := rfl
@[simp] theorem addWork_saves (s : State) (w : Work) : (addWork s w).saves = s.saves := rfl
@[simp] theorem addWork_groups (s : State) (w : Work) : (addWork s w).groups = s.groups := rfl
@[simp] theorem addWork_placement (s : State) (w : Work) : (addWork s w).placement = s.placement := rfl
@[simp] theorem addWork_slots (s : State) (w : Work) : (addWork s w).slots = s.slots := rfl
@[simp] theorem addWork_rels (s : State) (w : Work) : (addWork s w).rels = s.rels := rfl
@[simp] theorem addWork_regions (s : State) (w : Work) : (addWork s w).regions = s.regions := rfl
@[simp] theorem addWork_blocks (s : State) (w : Work) : (addWork s w).blocks = s.blocks := rfl
@[simp] theorem addWork_ttbase (s : State) (w : Work) : (addWork s w).ttbase = s.ttbase := rfl
@[simp] theorem addWork_tlbs (s : State) (w : Work) : (addWork s w).tlbs = s.tlbs := rfl
@[simp] theorem addWork_bbox (s : State) (w : Work) : (addWork s w).bbox = s.bbox := rfl
@[simp] theorem addWork_drains (s : State) (w : Work) : (addWork s w).drains = s.drains := rfl
@[simp] theorem addWork_links (s : State) (w : Work) : (addWork s w).links = s.links := rfl
@[simp] theorem addWork_egress (s : State) (w : Work) : (addWork s w).egress = s.egress := rfl
@[simp] theorem addWork_devnum (s : State) (w : Work) : (addWork s w).devnum = s.devnum := rfl
@[simp] theorem addWork_launchst (s : State) (w : Work) : (addWork s w).launchst = s.launchst := rfl
@[simp] theorem addWork_doorbells (s : State) (w : Work) : (addWork s w).doorbells = s.doorbells := rfl
@[simp] theorem addWork_msix (s : State) (w : Work) : (addWork s w).msix = s.msix := rfl
@[simp] theorem addWork_reply (s : State) (w : Work) : (addWork s w).reply = s.reply := rfl
@[simp] theorem addWork_power (s : State) (w : Work) : (addWork s w).power = s.power := rfl
@[simp] theorem addWork_idleSince (s : State) (w : Work) : (addWork s w).idleSince = s.idleSince := rfl
@[simp] theorem addWork_clock (s : State) (w : Work) : (addWork s w).clock = s.clock := rfl
@[simp] theorem addWork_pwreq (s : State) (w : Work) : (addWork s w).pwreq = s.pwreq := rfl
@[simp] theorem addWork_telbase (s : State) (w : Work) : (addWork s w).telbase = s.telbase := rfl
@[simp] theorem addWork_corrected (s : State) (w : Work) : (addWork s w).corrected = s.corrected := rfl
@[simp] theorem addWork_correctedHbm (s : State) (w : Work) : (addWork s w).correctedHbm = s.correctedHbm := rfl
@[simp] theorem addWork_sdcs (s : State) (w : Work) : (addWork s w).sdcs = s.sdcs := rfl
@[simp] theorem addWork_retries (s : State) (w : Work) : (addWork s w).retries = s.retries := rfl
@[simp] theorem addWork_passes (s : State) (w : Work) : (addWork s w).passes = s.passes := rfl
@[simp] theorem addWork_passesHbm (s : State) (w : Work) : (addWork s w).passesHbm = s.passesHbm := rfl
@[simp] theorem addWork_fw (s : State) (w : Work) : (addWork s w).fw = s.fw := rfl
@[simp] theorem addWork_fwOk (s : State) (w : Work) : (addWork s w).fwOk = s.fwOk := rfl
@[simp] theorem addWork_fwNew (s : State) (w : Work) : (addWork s w).fwNew = s.fwNew := rfl
@[simp] theorem addWork_barWaits (s : State) (w : Work) : (addWork s w).barWaits = s.barWaits := rfl
@[simp] theorem addWork_barPast (s : State) (w : Work) : (addWork s w).barPast = s.barPast := rfl
@[simp] theorem addWork_barNow (s : State) (w : Work) : (addWork s w).barNow = s.barNow := rfl
@[simp] theorem addWork_views (s : State) (w : Work) : (addWork s w).views = s.views := rfl
@[simp] theorem addWork_hdm (s : State) (w : Work) : (addWork s w).hdm = s.hdm := rfl
@[simp] theorem addWork_cyclePart (s : State) (w : Work) : (addWork s w).cyclePart = s.cyclePart := rfl

@[simp] theorem dropWork_turn (s : State) (k : Nat) : (dropWork s k).turn = s.turn := rfl
@[simp] theorem dropWork_tick (s : State) (k : Nat) : (dropWork s k).tick = s.tick := rfl
@[simp] theorem dropWork_free (s : State) (k : Nat) : (dropWork s k).free = s.free := rfl
@[simp] theorem dropWork_nextId (s : State) (k : Nat) : (dropWork s k).nextId = s.nextId := rfl
@[simp] theorem dropWork_timens (s : State) (k : Nat) : (dropWork s k).timens = s.timens := rfl
@[simp] theorem dropWork_cycles (s : State) (k : Nat) : (dropWork s k).cycles = s.cycles := rfl
@[simp] theorem dropWork_inputs (s : State) (k : Nat) : (dropWork s k).inputs = s.inputs := rfl
@[simp] theorem dropWork_mem (s : State) (k : Nat) : (dropWork s k).mem = s.mem := rfl
@[simp] theorem dropWork_poison (s : State) (k : Nat) : (dropWork s k).poison = s.poison := rfl
@[simp] theorem dropWork_cells (s : State) (k : Nat) : (dropWork s k).cells = s.cells := rfl
@[simp] theorem dropWork_groves (s : State) (k : Nat) : (dropWork s k).groves = s.groves := rfl
@[simp] theorem dropWork_ctls (s : State) (k : Nat) : (dropWork s k).ctls = s.ctls := rfl
@[simp] theorem dropWork_cfgs (s : State) (k : Nat) : (dropWork s k).cfgs = s.cfgs := rfl
@[simp] theorem dropWork_inflight (s : State) (k : Nat) : (dropWork s k).inflight = s.inflight := rfl
@[simp] theorem dropWork_queues (s : State) (k : Nat) : (dropWork s k).queues = s.queues := rfl
@[simp] theorem dropWork_rr (s : State) (k : Nat) : (dropWork s k).rr = s.rr := rfl
@[simp] theorem dropWork_round (s : State) (k : Nat) : (dropWork s k).round = s.round := rfl
@[simp] theorem dropWork_saves (s : State) (k : Nat) : (dropWork s k).saves = s.saves := rfl
@[simp] theorem dropWork_groups (s : State) (k : Nat) : (dropWork s k).groups = s.groups := rfl
@[simp] theorem dropWork_placement (s : State) (k : Nat) : (dropWork s k).placement = s.placement := rfl
@[simp] theorem dropWork_slots (s : State) (k : Nat) : (dropWork s k).slots = s.slots := rfl
@[simp] theorem dropWork_rels (s : State) (k : Nat) : (dropWork s k).rels = s.rels := rfl
@[simp] theorem dropWork_regions (s : State) (k : Nat) : (dropWork s k).regions = s.regions := rfl
@[simp] theorem dropWork_blocks (s : State) (k : Nat) : (dropWork s k).blocks = s.blocks := rfl
@[simp] theorem dropWork_ttbase (s : State) (k : Nat) : (dropWork s k).ttbase = s.ttbase := rfl
@[simp] theorem dropWork_tlbs (s : State) (k : Nat) : (dropWork s k).tlbs = s.tlbs := rfl
@[simp] theorem dropWork_bbox (s : State) (k : Nat) : (dropWork s k).bbox = s.bbox := rfl
@[simp] theorem dropWork_drains (s : State) (k : Nat) : (dropWork s k).drains = s.drains := rfl
@[simp] theorem dropWork_links (s : State) (k : Nat) : (dropWork s k).links = s.links := rfl
@[simp] theorem dropWork_egress (s : State) (k : Nat) : (dropWork s k).egress = s.egress := rfl
@[simp] theorem dropWork_devnum (s : State) (k : Nat) : (dropWork s k).devnum = s.devnum := rfl
@[simp] theorem dropWork_launchst (s : State) (k : Nat) : (dropWork s k).launchst = s.launchst := rfl
@[simp] theorem dropWork_doorbells (s : State) (k : Nat) : (dropWork s k).doorbells = s.doorbells := rfl
@[simp] theorem dropWork_msix (s : State) (k : Nat) : (dropWork s k).msix = s.msix := rfl
@[simp] theorem dropWork_reply (s : State) (k : Nat) : (dropWork s k).reply = s.reply := rfl
@[simp] theorem dropWork_power (s : State) (k : Nat) : (dropWork s k).power = s.power := rfl
@[simp] theorem dropWork_idleSince (s : State) (k : Nat) : (dropWork s k).idleSince = s.idleSince := rfl
@[simp] theorem dropWork_clock (s : State) (k : Nat) : (dropWork s k).clock = s.clock := rfl
@[simp] theorem dropWork_pwreq (s : State) (k : Nat) : (dropWork s k).pwreq = s.pwreq := rfl
@[simp] theorem dropWork_telbase (s : State) (k : Nat) : (dropWork s k).telbase = s.telbase := rfl
@[simp] theorem dropWork_corrected (s : State) (k : Nat) : (dropWork s k).corrected = s.corrected := rfl
@[simp] theorem dropWork_correctedHbm (s : State) (k : Nat) : (dropWork s k).correctedHbm = s.correctedHbm := rfl
@[simp] theorem dropWork_sdcs (s : State) (k : Nat) : (dropWork s k).sdcs = s.sdcs := rfl
@[simp] theorem dropWork_retries (s : State) (k : Nat) : (dropWork s k).retries = s.retries := rfl
@[simp] theorem dropWork_passes (s : State) (k : Nat) : (dropWork s k).passes = s.passes := rfl
@[simp] theorem dropWork_passesHbm (s : State) (k : Nat) : (dropWork s k).passesHbm = s.passesHbm := rfl
@[simp] theorem dropWork_fw (s : State) (k : Nat) : (dropWork s k).fw = s.fw := rfl
@[simp] theorem dropWork_fwOk (s : State) (k : Nat) : (dropWork s k).fwOk = s.fwOk := rfl
@[simp] theorem dropWork_fwNew (s : State) (k : Nat) : (dropWork s k).fwNew = s.fwNew := rfl
@[simp] theorem dropWork_barWaits (s : State) (k : Nat) : (dropWork s k).barWaits = s.barWaits := rfl
@[simp] theorem dropWork_barPast (s : State) (k : Nat) : (dropWork s k).barPast = s.barPast := rfl
@[simp] theorem dropWork_barNow (s : State) (k : Nat) : (dropWork s k).barNow = s.barNow := rfl
@[simp] theorem dropWork_views (s : State) (k : Nat) : (dropWork s k).views = s.views := rfl
@[simp] theorem dropWork_hdm (s : State) (k : Nat) : (dropWork s k).hdm = s.hdm := rfl
@[simp] theorem dropWork_cyclePart (s : State) (k : Nat) : (dropWork s k).cyclePart = s.cyclePart := rfl

@[simp] theorem setWork_turn (s : State) (k : Nat) (w : Work) : (setWork s k w).turn = s.turn := rfl
@[simp] theorem setWork_tick (s : State) (k : Nat) (w : Work) : (setWork s k w).tick = s.tick := rfl
@[simp] theorem setWork_free (s : State) (k : Nat) (w : Work) : (setWork s k w).free = s.free := rfl
@[simp] theorem setWork_nextId (s : State) (k : Nat) (w : Work) : (setWork s k w).nextId = s.nextId := rfl
@[simp] theorem setWork_timens (s : State) (k : Nat) (w : Work) : (setWork s k w).timens = s.timens := rfl
@[simp] theorem setWork_cycles (s : State) (k : Nat) (w : Work) : (setWork s k w).cycles = s.cycles := rfl
@[simp] theorem setWork_inputs (s : State) (k : Nat) (w : Work) : (setWork s k w).inputs = s.inputs := rfl
@[simp] theorem setWork_mem (s : State) (k : Nat) (w : Work) : (setWork s k w).mem = s.mem := rfl
@[simp] theorem setWork_poison (s : State) (k : Nat) (w : Work) : (setWork s k w).poison = s.poison := rfl
@[simp] theorem setWork_cells (s : State) (k : Nat) (w : Work) : (setWork s k w).cells = s.cells := rfl
@[simp] theorem setWork_groves (s : State) (k : Nat) (w : Work) : (setWork s k w).groves = s.groves := rfl
@[simp] theorem setWork_ctls (s : State) (k : Nat) (w : Work) : (setWork s k w).ctls = s.ctls := rfl
@[simp] theorem setWork_cfgs (s : State) (k : Nat) (w : Work) : (setWork s k w).cfgs = s.cfgs := rfl
@[simp] theorem setWork_inflight (s : State) (k : Nat) (w : Work) : (setWork s k w).inflight = s.inflight := rfl
@[simp] theorem setWork_queues (s : State) (k : Nat) (w : Work) : (setWork s k w).queues = s.queues := rfl
@[simp] theorem setWork_rr (s : State) (k : Nat) (w : Work) : (setWork s k w).rr = s.rr := rfl
@[simp] theorem setWork_round (s : State) (k : Nat) (w : Work) : (setWork s k w).round = s.round := rfl
@[simp] theorem setWork_saves (s : State) (k : Nat) (w : Work) : (setWork s k w).saves = s.saves := rfl
@[simp] theorem setWork_groups (s : State) (k : Nat) (w : Work) : (setWork s k w).groups = s.groups := rfl
@[simp] theorem setWork_placement (s : State) (k : Nat) (w : Work) : (setWork s k w).placement = s.placement := rfl
@[simp] theorem setWork_slots (s : State) (k : Nat) (w : Work) : (setWork s k w).slots = s.slots := rfl
@[simp] theorem setWork_rels (s : State) (k : Nat) (w : Work) : (setWork s k w).rels = s.rels := rfl
@[simp] theorem setWork_regions (s : State) (k : Nat) (w : Work) : (setWork s k w).regions = s.regions := rfl
@[simp] theorem setWork_blocks (s : State) (k : Nat) (w : Work) : (setWork s k w).blocks = s.blocks := rfl
@[simp] theorem setWork_ttbase (s : State) (k : Nat) (w : Work) : (setWork s k w).ttbase = s.ttbase := rfl
@[simp] theorem setWork_tlbs (s : State) (k : Nat) (w : Work) : (setWork s k w).tlbs = s.tlbs := rfl
@[simp] theorem setWork_bbox (s : State) (k : Nat) (w : Work) : (setWork s k w).bbox = s.bbox := rfl
@[simp] theorem setWork_drains (s : State) (k : Nat) (w : Work) : (setWork s k w).drains = s.drains := rfl
@[simp] theorem setWork_links (s : State) (k : Nat) (w : Work) : (setWork s k w).links = s.links := rfl
@[simp] theorem setWork_egress (s : State) (k : Nat) (w : Work) : (setWork s k w).egress = s.egress := rfl
@[simp] theorem setWork_devnum (s : State) (k : Nat) (w : Work) : (setWork s k w).devnum = s.devnum := rfl
@[simp] theorem setWork_launchst (s : State) (k : Nat) (w : Work) : (setWork s k w).launchst = s.launchst := rfl
@[simp] theorem setWork_doorbells (s : State) (k : Nat) (w : Work) : (setWork s k w).doorbells = s.doorbells := rfl
@[simp] theorem setWork_msix (s : State) (k : Nat) (w : Work) : (setWork s k w).msix = s.msix := rfl
@[simp] theorem setWork_reply (s : State) (k : Nat) (w : Work) : (setWork s k w).reply = s.reply := rfl
@[simp] theorem setWork_power (s : State) (k : Nat) (w : Work) : (setWork s k w).power = s.power := rfl
@[simp] theorem setWork_idleSince (s : State) (k : Nat) (w : Work) : (setWork s k w).idleSince = s.idleSince := rfl
@[simp] theorem setWork_clock (s : State) (k : Nat) (w : Work) : (setWork s k w).clock = s.clock := rfl
@[simp] theorem setWork_pwreq (s : State) (k : Nat) (w : Work) : (setWork s k w).pwreq = s.pwreq := rfl
@[simp] theorem setWork_telbase (s : State) (k : Nat) (w : Work) : (setWork s k w).telbase = s.telbase := rfl
@[simp] theorem setWork_corrected (s : State) (k : Nat) (w : Work) : (setWork s k w).corrected = s.corrected := rfl
@[simp] theorem setWork_correctedHbm (s : State) (k : Nat) (w : Work) : (setWork s k w).correctedHbm = s.correctedHbm := rfl
@[simp] theorem setWork_sdcs (s : State) (k : Nat) (w : Work) : (setWork s k w).sdcs = s.sdcs := rfl
@[simp] theorem setWork_retries (s : State) (k : Nat) (w : Work) : (setWork s k w).retries = s.retries := rfl
@[simp] theorem setWork_passes (s : State) (k : Nat) (w : Work) : (setWork s k w).passes = s.passes := rfl
@[simp] theorem setWork_passesHbm (s : State) (k : Nat) (w : Work) : (setWork s k w).passesHbm = s.passesHbm := rfl
@[simp] theorem setWork_fw (s : State) (k : Nat) (w : Work) : (setWork s k w).fw = s.fw := rfl
@[simp] theorem setWork_fwOk (s : State) (k : Nat) (w : Work) : (setWork s k w).fwOk = s.fwOk := rfl
@[simp] theorem setWork_fwNew (s : State) (k : Nat) (w : Work) : (setWork s k w).fwNew = s.fwNew := rfl
@[simp] theorem setWork_barWaits (s : State) (k : Nat) (w : Work) : (setWork s k w).barWaits = s.barWaits := rfl
@[simp] theorem setWork_barPast (s : State) (k : Nat) (w : Work) : (setWork s k w).barPast = s.barPast := rfl
@[simp] theorem setWork_barNow (s : State) (k : Nat) (w : Work) : (setWork s k w).barNow = s.barNow := rfl
@[simp] theorem setWork_views (s : State) (k : Nat) (w : Work) : (setWork s k w).views = s.views := rfl
@[simp] theorem setWork_hdm (s : State) (k : Nat) (w : Work) : (setWork s k w).hdm = s.hdm := rfl
@[simp] theorem setWork_cyclePart (s : State) (k : Nat) (w : Work) : (setWork s k w).cyclePart = s.cyclePart := rfl

@[simp] theorem writeG_turn (s : State) (u : Nat) (r : Spec) (v : Nat) : (writeG s u r v).turn = s.turn := rfl
@[simp] theorem writeG_tick (s : State) (u : Nat) (r : Spec) (v : Nat) : (writeG s u r v).tick = s.tick := rfl
@[simp] theorem writeG_free (s : State) (u : Nat) (r : Spec) (v : Nat) : (writeG s u r v).free = s.free := rfl
@[simp] theorem writeG_nextId (s : State) (u : Nat) (r : Spec) (v : Nat) : (writeG s u r v).nextId = s.nextId := rfl
@[simp] theorem writeG_timens (s : State) (u : Nat) (r : Spec) (v : Nat) : (writeG s u r v).timens = s.timens := rfl
@[simp] theorem writeG_cycles (s : State) (u : Nat) (r : Spec) (v : Nat) : (writeG s u r v).cycles = s.cycles := rfl
@[simp] theorem writeG_inputs (s : State) (u : Nat) (r : Spec) (v : Nat) : (writeG s u r v).inputs = s.inputs := rfl
@[simp] theorem writeG_mem (s : State) (u : Nat) (r : Spec) (v : Nat) : (writeG s u r v).mem = s.mem := rfl
@[simp] theorem writeG_poison (s : State) (u : Nat) (r : Spec) (v : Nat) : (writeG s u r v).poison = s.poison := rfl
@[simp] theorem writeG_cells (s : State) (u : Nat) (r : Spec) (v : Nat) : (writeG s u r v).cells = s.cells := rfl
@[simp] theorem writeG_groves (s : State) (u : Nat) (r : Spec) (v : Nat) : (writeG s u r v).groves = s.groves := rfl
@[simp] theorem writeG_cfgs (s : State) (u : Nat) (r : Spec) (v : Nat) : (writeG s u r v).cfgs = s.cfgs := rfl
@[simp] theorem writeG_work (s : State) (u : Nat) (r : Spec) (v : Nat) : (writeG s u r v).work = s.work := rfl
@[simp] theorem writeG_inflight (s : State) (u : Nat) (r : Spec) (v : Nat) : (writeG s u r v).inflight = s.inflight := rfl
@[simp] theorem writeG_queues (s : State) (u : Nat) (r : Spec) (v : Nat) : (writeG s u r v).queues = s.queues := rfl
@[simp] theorem writeG_rr (s : State) (u : Nat) (r : Spec) (v : Nat) : (writeG s u r v).rr = s.rr := rfl
@[simp] theorem writeG_round (s : State) (u : Nat) (r : Spec) (v : Nat) : (writeG s u r v).round = s.round := rfl
@[simp] theorem writeG_saves (s : State) (u : Nat) (r : Spec) (v : Nat) : (writeG s u r v).saves = s.saves := rfl
@[simp] theorem writeG_groups (s : State) (u : Nat) (r : Spec) (v : Nat) : (writeG s u r v).groups = s.groups := rfl
@[simp] theorem writeG_placement (s : State) (u : Nat) (r : Spec) (v : Nat) : (writeG s u r v).placement = s.placement := rfl
@[simp] theorem writeG_slots (s : State) (u : Nat) (r : Spec) (v : Nat) : (writeG s u r v).slots = s.slots := rfl
@[simp] theorem writeG_rels (s : State) (u : Nat) (r : Spec) (v : Nat) : (writeG s u r v).rels = s.rels := rfl
@[simp] theorem writeG_regions (s : State) (u : Nat) (r : Spec) (v : Nat) : (writeG s u r v).regions = s.regions := rfl
@[simp] theorem writeG_blocks (s : State) (u : Nat) (r : Spec) (v : Nat) : (writeG s u r v).blocks = s.blocks := rfl
@[simp] theorem writeG_ttbase (s : State) (u : Nat) (r : Spec) (v : Nat) : (writeG s u r v).ttbase = s.ttbase := rfl
@[simp] theorem writeG_tlbs (s : State) (u : Nat) (r : Spec) (v : Nat) : (writeG s u r v).tlbs = s.tlbs := rfl
@[simp] theorem writeG_bbox (s : State) (u : Nat) (r : Spec) (v : Nat) : (writeG s u r v).bbox = s.bbox := rfl
@[simp] theorem writeG_drains (s : State) (u : Nat) (r : Spec) (v : Nat) : (writeG s u r v).drains = s.drains := rfl
@[simp] theorem writeG_links (s : State) (u : Nat) (r : Spec) (v : Nat) : (writeG s u r v).links = s.links := rfl
@[simp] theorem writeG_egress (s : State) (u : Nat) (r : Spec) (v : Nat) : (writeG s u r v).egress = s.egress := rfl
@[simp] theorem writeG_devnum (s : State) (u : Nat) (r : Spec) (v : Nat) : (writeG s u r v).devnum = s.devnum := rfl
@[simp] theorem writeG_launchst (s : State) (u : Nat) (r : Spec) (v : Nat) : (writeG s u r v).launchst = s.launchst := rfl
@[simp] theorem writeG_doorbells (s : State) (u : Nat) (r : Spec) (v : Nat) : (writeG s u r v).doorbells = s.doorbells := rfl
@[simp] theorem writeG_msix (s : State) (u : Nat) (r : Spec) (v : Nat) : (writeG s u r v).msix = s.msix := rfl
@[simp] theorem writeG_reply (s : State) (u : Nat) (r : Spec) (v : Nat) : (writeG s u r v).reply = s.reply := rfl
@[simp] theorem writeG_power (s : State) (u : Nat) (r : Spec) (v : Nat) : (writeG s u r v).power = s.power := rfl
@[simp] theorem writeG_idleSince (s : State) (u : Nat) (r : Spec) (v : Nat) : (writeG s u r v).idleSince = s.idleSince := rfl
@[simp] theorem writeG_clock (s : State) (u : Nat) (r : Spec) (v : Nat) : (writeG s u r v).clock = s.clock := rfl
@[simp] theorem writeG_pwreq (s : State) (u : Nat) (r : Spec) (v : Nat) : (writeG s u r v).pwreq = s.pwreq := rfl
@[simp] theorem writeG_telbase (s : State) (u : Nat) (r : Spec) (v : Nat) : (writeG s u r v).telbase = s.telbase := rfl
@[simp] theorem writeG_corrected (s : State) (u : Nat) (r : Spec) (v : Nat) : (writeG s u r v).corrected = s.corrected := rfl
@[simp] theorem writeG_correctedHbm (s : State) (u : Nat) (r : Spec) (v : Nat) : (writeG s u r v).correctedHbm = s.correctedHbm := rfl
@[simp] theorem writeG_sdcs (s : State) (u : Nat) (r : Spec) (v : Nat) : (writeG s u r v).sdcs = s.sdcs := rfl
@[simp] theorem writeG_retries (s : State) (u : Nat) (r : Spec) (v : Nat) : (writeG s u r v).retries = s.retries := rfl
@[simp] theorem writeG_passes (s : State) (u : Nat) (r : Spec) (v : Nat) : (writeG s u r v).passes = s.passes := rfl
@[simp] theorem writeG_passesHbm (s : State) (u : Nat) (r : Spec) (v : Nat) : (writeG s u r v).passesHbm = s.passesHbm := rfl
@[simp] theorem writeG_fw (s : State) (u : Nat) (r : Spec) (v : Nat) : (writeG s u r v).fw = s.fw := rfl
@[simp] theorem writeG_fwOk (s : State) (u : Nat) (r : Spec) (v : Nat) : (writeG s u r v).fwOk = s.fwOk := rfl
@[simp] theorem writeG_fwNew (s : State) (u : Nat) (r : Spec) (v : Nat) : (writeG s u r v).fwNew = s.fwNew := rfl
@[simp] theorem writeG_barWaits (s : State) (u : Nat) (r : Spec) (v : Nat) : (writeG s u r v).barWaits = s.barWaits := rfl
@[simp] theorem writeG_barPast (s : State) (u : Nat) (r : Spec) (v : Nat) : (writeG s u r v).barPast = s.barPast := rfl
@[simp] theorem writeG_barNow (s : State) (u : Nat) (r : Spec) (v : Nat) : (writeG s u r v).barNow = s.barNow := rfl
@[simp] theorem writeG_views (s : State) (u : Nat) (r : Spec) (v : Nat) : (writeG s u r v).views = s.views := rfl
@[simp] theorem writeG_hdm (s : State) (u : Nat) (r : Spec) (v : Nat) : (writeG s u r v).hdm = s.hdm := rfl
@[simp] theorem writeG_cyclePart (s : State) (u : Nat) (r : Spec) (v : Nat) : (writeG s u r v).cyclePart = s.cyclePart := rfl

@[simp] theorem putFiring_turn (s : State) (c : Nat) (f : Firing) : (putFiring s c f).turn = s.turn := rfl
@[simp] theorem putFiring_tick (s : State) (c : Nat) (f : Firing) : (putFiring s c f).tick = s.tick := rfl
@[simp] theorem putFiring_free (s : State) (c : Nat) (f : Firing) : (putFiring s c f).free = s.free := rfl
@[simp] theorem putFiring_nextId (s : State) (c : Nat) (f : Firing) : (putFiring s c f).nextId = s.nextId := rfl
@[simp] theorem putFiring_timens (s : State) (c : Nat) (f : Firing) : (putFiring s c f).timens = s.timens := rfl
@[simp] theorem putFiring_cycles (s : State) (c : Nat) (f : Firing) : (putFiring s c f).cycles = s.cycles := rfl
@[simp] theorem putFiring_inputs (s : State) (c : Nat) (f : Firing) : (putFiring s c f).inputs = s.inputs := rfl
@[simp] theorem putFiring_mem (s : State) (c : Nat) (f : Firing) : (putFiring s c f).mem = s.mem := rfl
@[simp] theorem putFiring_poison (s : State) (c : Nat) (f : Firing) : (putFiring s c f).poison = s.poison := rfl
@[simp] theorem putFiring_groves (s : State) (c : Nat) (f : Firing) : (putFiring s c f).groves = s.groves := rfl
@[simp] theorem putFiring_ctls (s : State) (c : Nat) (f : Firing) : (putFiring s c f).ctls = s.ctls := rfl
@[simp] theorem putFiring_cfgs (s : State) (c : Nat) (f : Firing) : (putFiring s c f).cfgs = s.cfgs := rfl
@[simp] theorem putFiring_work (s : State) (c : Nat) (f : Firing) : (putFiring s c f).work = s.work := rfl
@[simp] theorem putFiring_inflight (s : State) (c : Nat) (f : Firing) : (putFiring s c f).inflight = s.inflight := rfl
@[simp] theorem putFiring_queues (s : State) (c : Nat) (f : Firing) : (putFiring s c f).queues = s.queues := rfl
@[simp] theorem putFiring_rr (s : State) (c : Nat) (f : Firing) : (putFiring s c f).rr = s.rr := rfl
@[simp] theorem putFiring_round (s : State) (c : Nat) (f : Firing) : (putFiring s c f).round = s.round := rfl
@[simp] theorem putFiring_saves (s : State) (c : Nat) (f : Firing) : (putFiring s c f).saves = s.saves := rfl
@[simp] theorem putFiring_groups (s : State) (c : Nat) (f : Firing) : (putFiring s c f).groups = s.groups := rfl
@[simp] theorem putFiring_placement (s : State) (c : Nat) (f : Firing) : (putFiring s c f).placement = s.placement := rfl
@[simp] theorem putFiring_slots (s : State) (c : Nat) (f : Firing) : (putFiring s c f).slots = s.slots := rfl
@[simp] theorem putFiring_rels (s : State) (c : Nat) (f : Firing) : (putFiring s c f).rels = s.rels := rfl
@[simp] theorem putFiring_regions (s : State) (c : Nat) (f : Firing) : (putFiring s c f).regions = s.regions := rfl
@[simp] theorem putFiring_blocks (s : State) (c : Nat) (f : Firing) : (putFiring s c f).blocks = s.blocks := rfl
@[simp] theorem putFiring_ttbase (s : State) (c : Nat) (f : Firing) : (putFiring s c f).ttbase = s.ttbase := rfl
@[simp] theorem putFiring_tlbs (s : State) (c : Nat) (f : Firing) : (putFiring s c f).tlbs = s.tlbs := rfl
@[simp] theorem putFiring_bbox (s : State) (c : Nat) (f : Firing) : (putFiring s c f).bbox = s.bbox := rfl
@[simp] theorem putFiring_drains (s : State) (c : Nat) (f : Firing) : (putFiring s c f).drains = s.drains := rfl
@[simp] theorem putFiring_links (s : State) (c : Nat) (f : Firing) : (putFiring s c f).links = s.links := rfl
@[simp] theorem putFiring_egress (s : State) (c : Nat) (f : Firing) : (putFiring s c f).egress = s.egress := rfl
@[simp] theorem putFiring_devnum (s : State) (c : Nat) (f : Firing) : (putFiring s c f).devnum = s.devnum := rfl
@[simp] theorem putFiring_launchst (s : State) (c : Nat) (f : Firing) : (putFiring s c f).launchst = s.launchst := rfl
@[simp] theorem putFiring_doorbells (s : State) (c : Nat) (f : Firing) : (putFiring s c f).doorbells = s.doorbells := rfl
@[simp] theorem putFiring_msix (s : State) (c : Nat) (f : Firing) : (putFiring s c f).msix = s.msix := rfl
@[simp] theorem putFiring_reply (s : State) (c : Nat) (f : Firing) : (putFiring s c f).reply = s.reply := rfl
@[simp] theorem putFiring_power (s : State) (c : Nat) (f : Firing) : (putFiring s c f).power = s.power := rfl
@[simp] theorem putFiring_idleSince (s : State) (c : Nat) (f : Firing) : (putFiring s c f).idleSince = s.idleSince := rfl
@[simp] theorem putFiring_clock (s : State) (c : Nat) (f : Firing) : (putFiring s c f).clock = s.clock := rfl
@[simp] theorem putFiring_pwreq (s : State) (c : Nat) (f : Firing) : (putFiring s c f).pwreq = s.pwreq := rfl
@[simp] theorem putFiring_telbase (s : State) (c : Nat) (f : Firing) : (putFiring s c f).telbase = s.telbase := rfl
@[simp] theorem putFiring_corrected (s : State) (c : Nat) (f : Firing) : (putFiring s c f).corrected = s.corrected := rfl
@[simp] theorem putFiring_correctedHbm (s : State) (c : Nat) (f : Firing) : (putFiring s c f).correctedHbm = s.correctedHbm := rfl
@[simp] theorem putFiring_sdcs (s : State) (c : Nat) (f : Firing) : (putFiring s c f).sdcs = s.sdcs := rfl
@[simp] theorem putFiring_retries (s : State) (c : Nat) (f : Firing) : (putFiring s c f).retries = s.retries := rfl
@[simp] theorem putFiring_passes (s : State) (c : Nat) (f : Firing) : (putFiring s c f).passes = s.passes := rfl
@[simp] theorem putFiring_passesHbm (s : State) (c : Nat) (f : Firing) : (putFiring s c f).passesHbm = s.passesHbm := rfl
@[simp] theorem putFiring_fw (s : State) (c : Nat) (f : Firing) : (putFiring s c f).fw = s.fw := rfl
@[simp] theorem putFiring_fwOk (s : State) (c : Nat) (f : Firing) : (putFiring s c f).fwOk = s.fwOk := rfl
@[simp] theorem putFiring_fwNew (s : State) (c : Nat) (f : Firing) : (putFiring s c f).fwNew = s.fwNew := rfl
@[simp] theorem putFiring_barWaits (s : State) (c : Nat) (f : Firing) : (putFiring s c f).barWaits = s.barWaits := rfl
@[simp] theorem putFiring_barPast (s : State) (c : Nat) (f : Firing) : (putFiring s c f).barPast = s.barPast := rfl
@[simp] theorem putFiring_barNow (s : State) (c : Nat) (f : Firing) : (putFiring s c f).barNow = s.barNow := rfl
@[simp] theorem putFiring_views (s : State) (c : Nat) (f : Firing) : (putFiring s c f).views = s.views := rfl
@[simp] theorem putFiring_hdm (s : State) (c : Nat) (f : Firing) : (putFiring s c f).hdm = s.hdm := rfl
@[simp] theorem putFiring_cyclePart (s : State) (c : Nat) (f : Firing) : (putFiring s c f).cyclePart = s.cyclePart := rfl

@[simp] theorem advance_turn (s : State) (c n : Nat) : (advance s c n).turn = s.turn := rfl
@[simp] theorem advance_tick (s : State) (c n : Nat) : (advance s c n).tick = s.tick := rfl
@[simp] theorem advance_free (s : State) (c n : Nat) : (advance s c n).free = s.free := rfl
@[simp] theorem advance_nextId (s : State) (c n : Nat) : (advance s c n).nextId = s.nextId := rfl
@[simp] theorem advance_timens (s : State) (c n : Nat) : (advance s c n).timens = s.timens := rfl
@[simp] theorem advance_cycles (s : State) (c n : Nat) : (advance s c n).cycles = s.cycles := rfl
@[simp] theorem advance_inputs (s : State) (c n : Nat) : (advance s c n).inputs = s.inputs := rfl
@[simp] theorem advance_mem (s : State) (c n : Nat) : (advance s c n).mem = s.mem := rfl
@[simp] theorem advance_poison (s : State) (c n : Nat) : (advance s c n).poison = s.poison := rfl
@[simp] theorem advance_groves (s : State) (c n : Nat) : (advance s c n).groves = s.groves := rfl
@[simp] theorem advance_ctls (s : State) (c n : Nat) : (advance s c n).ctls = s.ctls := rfl
@[simp] theorem advance_cfgs (s : State) (c n : Nat) : (advance s c n).cfgs = s.cfgs := rfl
@[simp] theorem advance_work (s : State) (c n : Nat) : (advance s c n).work = s.work := rfl
@[simp] theorem advance_inflight (s : State) (c n : Nat) : (advance s c n).inflight = s.inflight := rfl
@[simp] theorem advance_queues (s : State) (c n : Nat) : (advance s c n).queues = s.queues := rfl
@[simp] theorem advance_rr (s : State) (c n : Nat) : (advance s c n).rr = s.rr := rfl
@[simp] theorem advance_round (s : State) (c n : Nat) : (advance s c n).round = s.round := rfl
@[simp] theorem advance_saves (s : State) (c n : Nat) : (advance s c n).saves = s.saves := rfl
@[simp] theorem advance_groups (s : State) (c n : Nat) : (advance s c n).groups = s.groups := rfl
@[simp] theorem advance_placement (s : State) (c n : Nat) : (advance s c n).placement = s.placement := rfl
@[simp] theorem advance_slots (s : State) (c n : Nat) : (advance s c n).slots = s.slots := rfl
@[simp] theorem advance_rels (s : State) (c n : Nat) : (advance s c n).rels = s.rels := rfl
@[simp] theorem advance_regions (s : State) (c n : Nat) : (advance s c n).regions = s.regions := rfl
@[simp] theorem advance_blocks (s : State) (c n : Nat) : (advance s c n).blocks = s.blocks := rfl
@[simp] theorem advance_ttbase (s : State) (c n : Nat) : (advance s c n).ttbase = s.ttbase := rfl
@[simp] theorem advance_tlbs (s : State) (c n : Nat) : (advance s c n).tlbs = s.tlbs := rfl
@[simp] theorem advance_bbox (s : State) (c n : Nat) : (advance s c n).bbox = s.bbox := rfl
@[simp] theorem advance_drains (s : State) (c n : Nat) : (advance s c n).drains = s.drains := rfl
@[simp] theorem advance_links (s : State) (c n : Nat) : (advance s c n).links = s.links := rfl
@[simp] theorem advance_egress (s : State) (c n : Nat) : (advance s c n).egress = s.egress := rfl
@[simp] theorem advance_devnum (s : State) (c n : Nat) : (advance s c n).devnum = s.devnum := rfl
@[simp] theorem advance_launchst (s : State) (c n : Nat) : (advance s c n).launchst = s.launchst := rfl
@[simp] theorem advance_doorbells (s : State) (c n : Nat) : (advance s c n).doorbells = s.doorbells := rfl
@[simp] theorem advance_msix (s : State) (c n : Nat) : (advance s c n).msix = s.msix := rfl
@[simp] theorem advance_reply (s : State) (c n : Nat) : (advance s c n).reply = s.reply := rfl
@[simp] theorem advance_power (s : State) (c n : Nat) : (advance s c n).power = s.power := rfl
@[simp] theorem advance_idleSince (s : State) (c n : Nat) : (advance s c n).idleSince = s.idleSince := rfl
@[simp] theorem advance_clock (s : State) (c n : Nat) : (advance s c n).clock = s.clock := rfl
@[simp] theorem advance_pwreq (s : State) (c n : Nat) : (advance s c n).pwreq = s.pwreq := rfl
@[simp] theorem advance_telbase (s : State) (c n : Nat) : (advance s c n).telbase = s.telbase := rfl
@[simp] theorem advance_corrected (s : State) (c n : Nat) : (advance s c n).corrected = s.corrected := rfl
@[simp] theorem advance_correctedHbm (s : State) (c n : Nat) : (advance s c n).correctedHbm = s.correctedHbm := rfl
@[simp] theorem advance_sdcs (s : State) (c n : Nat) : (advance s c n).sdcs = s.sdcs := rfl
@[simp] theorem advance_retries (s : State) (c n : Nat) : (advance s c n).retries = s.retries := rfl
@[simp] theorem advance_passes (s : State) (c n : Nat) : (advance s c n).passes = s.passes := rfl
@[simp] theorem advance_passesHbm (s : State) (c n : Nat) : (advance s c n).passesHbm = s.passesHbm := rfl
@[simp] theorem advance_fw (s : State) (c n : Nat) : (advance s c n).fw = s.fw := rfl
@[simp] theorem advance_fwOk (s : State) (c n : Nat) : (advance s c n).fwOk = s.fwOk := rfl
@[simp] theorem advance_fwNew (s : State) (c n : Nat) : (advance s c n).fwNew = s.fwNew := rfl
@[simp] theorem advance_barWaits (s : State) (c n : Nat) : (advance s c n).barWaits = s.barWaits := rfl
@[simp] theorem advance_barPast (s : State) (c n : Nat) : (advance s c n).barPast = s.barPast := rfl
@[simp] theorem advance_barNow (s : State) (c n : Nat) : (advance s c n).barNow = s.barNow := rfl
@[simp] theorem advance_views (s : State) (c n : Nat) : (advance s c n).views = s.views := rfl
@[simp] theorem advance_hdm (s : State) (c n : Nat) : (advance s c n).hdm = s.hdm := rfl
@[simp] theorem advance_cyclePart (s : State) (c n : Nat) : (advance s c n).cyclePart = s.cyclePart := rfl

@[simp] theorem setByte_turn (s : State) (a : Nat) (b : Byte) : (setByte s a b).turn = s.turn := rfl
@[simp] theorem setByte_tick (s : State) (a : Nat) (b : Byte) : (setByte s a b).tick = s.tick := rfl
@[simp] theorem setByte_free (s : State) (a : Nat) (b : Byte) : (setByte s a b).free = s.free := rfl
@[simp] theorem setByte_nextId (s : State) (a : Nat) (b : Byte) : (setByte s a b).nextId = s.nextId := rfl
@[simp] theorem setByte_timens (s : State) (a : Nat) (b : Byte) : (setByte s a b).timens = s.timens := rfl
@[simp] theorem setByte_cycles (s : State) (a : Nat) (b : Byte) : (setByte s a b).cycles = s.cycles := rfl
@[simp] theorem setByte_inputs (s : State) (a : Nat) (b : Byte) : (setByte s a b).inputs = s.inputs := rfl
@[simp] theorem setByte_poison (s : State) (a : Nat) (b : Byte) : (setByte s a b).poison = s.poison := rfl
@[simp] theorem setByte_cells (s : State) (a : Nat) (b : Byte) : (setByte s a b).cells = s.cells := rfl
@[simp] theorem setByte_groves (s : State) (a : Nat) (b : Byte) : (setByte s a b).groves = s.groves := rfl
@[simp] theorem setByte_ctls (s : State) (a : Nat) (b : Byte) : (setByte s a b).ctls = s.ctls := rfl
@[simp] theorem setByte_cfgs (s : State) (a : Nat) (b : Byte) : (setByte s a b).cfgs = s.cfgs := rfl
@[simp] theorem setByte_work (s : State) (a : Nat) (b : Byte) : (setByte s a b).work = s.work := rfl
@[simp] theorem setByte_inflight (s : State) (a : Nat) (b : Byte) : (setByte s a b).inflight = s.inflight := rfl
@[simp] theorem setByte_queues (s : State) (a : Nat) (b : Byte) : (setByte s a b).queues = s.queues := rfl
@[simp] theorem setByte_rr (s : State) (a : Nat) (b : Byte) : (setByte s a b).rr = s.rr := rfl
@[simp] theorem setByte_round (s : State) (a : Nat) (b : Byte) : (setByte s a b).round = s.round := rfl
@[simp] theorem setByte_saves (s : State) (a : Nat) (b : Byte) : (setByte s a b).saves = s.saves := rfl
@[simp] theorem setByte_groups (s : State) (a : Nat) (b : Byte) : (setByte s a b).groups = s.groups := rfl
@[simp] theorem setByte_placement (s : State) (a : Nat) (b : Byte) : (setByte s a b).placement = s.placement := rfl
@[simp] theorem setByte_slots (s : State) (a : Nat) (b : Byte) : (setByte s a b).slots = s.slots := rfl
@[simp] theorem setByte_rels (s : State) (a : Nat) (b : Byte) : (setByte s a b).rels = s.rels := rfl
@[simp] theorem setByte_regions (s : State) (a : Nat) (b : Byte) : (setByte s a b).regions = s.regions := rfl
@[simp] theorem setByte_blocks (s : State) (a : Nat) (b : Byte) : (setByte s a b).blocks = s.blocks := rfl
@[simp] theorem setByte_ttbase (s : State) (a : Nat) (b : Byte) : (setByte s a b).ttbase = s.ttbase := rfl
@[simp] theorem setByte_tlbs (s : State) (a : Nat) (b : Byte) : (setByte s a b).tlbs = s.tlbs := rfl
@[simp] theorem setByte_bbox (s : State) (a : Nat) (b : Byte) : (setByte s a b).bbox = s.bbox := rfl
@[simp] theorem setByte_drains (s : State) (a : Nat) (b : Byte) : (setByte s a b).drains = s.drains := rfl
@[simp] theorem setByte_links (s : State) (a : Nat) (b : Byte) : (setByte s a b).links = s.links := rfl
@[simp] theorem setByte_egress (s : State) (a : Nat) (b : Byte) : (setByte s a b).egress = s.egress := rfl
@[simp] theorem setByte_devnum (s : State) (a : Nat) (b : Byte) : (setByte s a b).devnum = s.devnum := rfl
@[simp] theorem setByte_launchst (s : State) (a : Nat) (b : Byte) : (setByte s a b).launchst = s.launchst := rfl
@[simp] theorem setByte_doorbells (s : State) (a : Nat) (b : Byte) : (setByte s a b).doorbells = s.doorbells := rfl
@[simp] theorem setByte_msix (s : State) (a : Nat) (b : Byte) : (setByte s a b).msix = s.msix := rfl
@[simp] theorem setByte_reply (s : State) (a : Nat) (b : Byte) : (setByte s a b).reply = s.reply := rfl
@[simp] theorem setByte_power (s : State) (a : Nat) (b : Byte) : (setByte s a b).power = s.power := rfl
@[simp] theorem setByte_idleSince (s : State) (a : Nat) (b : Byte) : (setByte s a b).idleSince = s.idleSince := rfl
@[simp] theorem setByte_clock (s : State) (a : Nat) (b : Byte) : (setByte s a b).clock = s.clock := rfl
@[simp] theorem setByte_pwreq (s : State) (a : Nat) (b : Byte) : (setByte s a b).pwreq = s.pwreq := rfl
@[simp] theorem setByte_telbase (s : State) (a : Nat) (b : Byte) : (setByte s a b).telbase = s.telbase := rfl
@[simp] theorem setByte_corrected (s : State) (a : Nat) (b : Byte) : (setByte s a b).corrected = s.corrected := rfl
@[simp] theorem setByte_correctedHbm (s : State) (a : Nat) (b : Byte) : (setByte s a b).correctedHbm = s.correctedHbm := rfl
@[simp] theorem setByte_sdcs (s : State) (a : Nat) (b : Byte) : (setByte s a b).sdcs = s.sdcs := rfl
@[simp] theorem setByte_retries (s : State) (a : Nat) (b : Byte) : (setByte s a b).retries = s.retries := rfl
@[simp] theorem setByte_passes (s : State) (a : Nat) (b : Byte) : (setByte s a b).passes = s.passes := rfl
@[simp] theorem setByte_passesHbm (s : State) (a : Nat) (b : Byte) : (setByte s a b).passesHbm = s.passesHbm := rfl
@[simp] theorem setByte_fw (s : State) (a : Nat) (b : Byte) : (setByte s a b).fw = s.fw := rfl
@[simp] theorem setByte_fwOk (s : State) (a : Nat) (b : Byte) : (setByte s a b).fwOk = s.fwOk := rfl
@[simp] theorem setByte_fwNew (s : State) (a : Nat) (b : Byte) : (setByte s a b).fwNew = s.fwNew := rfl
@[simp] theorem setByte_barWaits (s : State) (a : Nat) (b : Byte) : (setByte s a b).barWaits = s.barWaits := rfl
@[simp] theorem setByte_barPast (s : State) (a : Nat) (b : Byte) : (setByte s a b).barPast = s.barPast := rfl
@[simp] theorem setByte_barNow (s : State) (a : Nat) (b : Byte) : (setByte s a b).barNow = s.barNow := rfl
@[simp] theorem setByte_views (s : State) (a : Nat) (b : Byte) : (setByte s a b).views = s.views := rfl
@[simp] theorem setByte_hdm (s : State) (a : Nat) (b : Byte) : (setByte s a b).hdm = s.hdm := rfl
@[simp] theorem setByte_cyclePart (s : State) (a : Nat) (b : Byte) : (setByte s a b).cyclePart = s.cyclePart := rfl

@[simp] theorem queueRecord_turn (s : State) (u : Nat) (r : TrapRec) : (queueRecord s u r).turn = s.turn := rfl
@[simp] theorem queueRecord_tick (s : State) (u : Nat) (r : TrapRec) : (queueRecord s u r).tick = s.tick := rfl
@[simp] theorem queueRecord_free (s : State) (u : Nat) (r : TrapRec) : (queueRecord s u r).free = s.free := rfl
@[simp] theorem queueRecord_nextId (s : State) (u : Nat) (r : TrapRec) : (queueRecord s u r).nextId = s.nextId := rfl
@[simp] theorem queueRecord_timens (s : State) (u : Nat) (r : TrapRec) : (queueRecord s u r).timens = s.timens := rfl
@[simp] theorem queueRecord_cycles (s : State) (u : Nat) (r : TrapRec) : (queueRecord s u r).cycles = s.cycles := rfl
@[simp] theorem queueRecord_inputs (s : State) (u : Nat) (r : TrapRec) : (queueRecord s u r).inputs = s.inputs := rfl
@[simp] theorem queueRecord_mem (s : State) (u : Nat) (r : TrapRec) : (queueRecord s u r).mem = s.mem := rfl
@[simp] theorem queueRecord_poison (s : State) (u : Nat) (r : TrapRec) : (queueRecord s u r).poison = s.poison := rfl
@[simp] theorem queueRecord_cells (s : State) (u : Nat) (r : TrapRec) : (queueRecord s u r).cells = s.cells := rfl
@[simp] theorem queueRecord_groves (s : State) (u : Nat) (r : TrapRec) : (queueRecord s u r).groves = s.groves := rfl
@[simp] theorem queueRecord_cfgs (s : State) (u : Nat) (r : TrapRec) : (queueRecord s u r).cfgs = s.cfgs := rfl
@[simp] theorem queueRecord_work (s : State) (u : Nat) (r : TrapRec) : (queueRecord s u r).work = s.work := rfl
@[simp] theorem queueRecord_inflight (s : State) (u : Nat) (r : TrapRec) : (queueRecord s u r).inflight = s.inflight := rfl
@[simp] theorem queueRecord_queues (s : State) (u : Nat) (r : TrapRec) : (queueRecord s u r).queues = s.queues := rfl
@[simp] theorem queueRecord_rr (s : State) (u : Nat) (r : TrapRec) : (queueRecord s u r).rr = s.rr := rfl
@[simp] theorem queueRecord_round (s : State) (u : Nat) (r : TrapRec) : (queueRecord s u r).round = s.round := rfl
@[simp] theorem queueRecord_saves (s : State) (u : Nat) (r : TrapRec) : (queueRecord s u r).saves = s.saves := rfl
@[simp] theorem queueRecord_groups (s : State) (u : Nat) (r : TrapRec) : (queueRecord s u r).groups = s.groups := rfl
@[simp] theorem queueRecord_placement (s : State) (u : Nat) (r : TrapRec) : (queueRecord s u r).placement = s.placement := rfl
@[simp] theorem queueRecord_slots (s : State) (u : Nat) (r : TrapRec) : (queueRecord s u r).slots = s.slots := rfl
@[simp] theorem queueRecord_rels (s : State) (u : Nat) (r : TrapRec) : (queueRecord s u r).rels = s.rels := rfl
@[simp] theorem queueRecord_regions (s : State) (u : Nat) (r : TrapRec) : (queueRecord s u r).regions = s.regions := rfl
@[simp] theorem queueRecord_blocks (s : State) (u : Nat) (r : TrapRec) : (queueRecord s u r).blocks = s.blocks := rfl
@[simp] theorem queueRecord_ttbase (s : State) (u : Nat) (r : TrapRec) : (queueRecord s u r).ttbase = s.ttbase := rfl
@[simp] theorem queueRecord_tlbs (s : State) (u : Nat) (r : TrapRec) : (queueRecord s u r).tlbs = s.tlbs := rfl
@[simp] theorem queueRecord_bbox (s : State) (u : Nat) (r : TrapRec) : (queueRecord s u r).bbox = s.bbox := rfl
@[simp] theorem queueRecord_drains (s : State) (u : Nat) (r : TrapRec) : (queueRecord s u r).drains = s.drains := rfl
@[simp] theorem queueRecord_links (s : State) (u : Nat) (r : TrapRec) : (queueRecord s u r).links = s.links := rfl
@[simp] theorem queueRecord_egress (s : State) (u : Nat) (r : TrapRec) : (queueRecord s u r).egress = s.egress := rfl
@[simp] theorem queueRecord_devnum (s : State) (u : Nat) (r : TrapRec) : (queueRecord s u r).devnum = s.devnum := rfl
@[simp] theorem queueRecord_launchst (s : State) (u : Nat) (r : TrapRec) : (queueRecord s u r).launchst = s.launchst := rfl
@[simp] theorem queueRecord_doorbells (s : State) (u : Nat) (r : TrapRec) : (queueRecord s u r).doorbells = s.doorbells := rfl
@[simp] theorem queueRecord_msix (s : State) (u : Nat) (r : TrapRec) : (queueRecord s u r).msix = s.msix := rfl
@[simp] theorem queueRecord_reply (s : State) (u : Nat) (r : TrapRec) : (queueRecord s u r).reply = s.reply := rfl
@[simp] theorem queueRecord_power (s : State) (u : Nat) (r : TrapRec) : (queueRecord s u r).power = s.power := rfl
@[simp] theorem queueRecord_idleSince (s : State) (u : Nat) (r : TrapRec) : (queueRecord s u r).idleSince = s.idleSince := rfl
@[simp] theorem queueRecord_clock (s : State) (u : Nat) (r : TrapRec) : (queueRecord s u r).clock = s.clock := rfl
@[simp] theorem queueRecord_pwreq (s : State) (u : Nat) (r : TrapRec) : (queueRecord s u r).pwreq = s.pwreq := rfl
@[simp] theorem queueRecord_telbase (s : State) (u : Nat) (r : TrapRec) : (queueRecord s u r).telbase = s.telbase := rfl
@[simp] theorem queueRecord_corrected (s : State) (u : Nat) (r : TrapRec) : (queueRecord s u r).corrected = s.corrected := rfl
@[simp] theorem queueRecord_correctedHbm (s : State) (u : Nat) (r : TrapRec) : (queueRecord s u r).correctedHbm = s.correctedHbm := rfl
@[simp] theorem queueRecord_sdcs (s : State) (u : Nat) (r : TrapRec) : (queueRecord s u r).sdcs = s.sdcs := rfl
@[simp] theorem queueRecord_retries (s : State) (u : Nat) (r : TrapRec) : (queueRecord s u r).retries = s.retries := rfl
@[simp] theorem queueRecord_passes (s : State) (u : Nat) (r : TrapRec) : (queueRecord s u r).passes = s.passes := rfl
@[simp] theorem queueRecord_passesHbm (s : State) (u : Nat) (r : TrapRec) : (queueRecord s u r).passesHbm = s.passesHbm := rfl
@[simp] theorem queueRecord_fw (s : State) (u : Nat) (r : TrapRec) : (queueRecord s u r).fw = s.fw := rfl
@[simp] theorem queueRecord_fwOk (s : State) (u : Nat) (r : TrapRec) : (queueRecord s u r).fwOk = s.fwOk := rfl
@[simp] theorem queueRecord_fwNew (s : State) (u : Nat) (r : TrapRec) : (queueRecord s u r).fwNew = s.fwNew := rfl
@[simp] theorem queueRecord_barWaits (s : State) (u : Nat) (r : TrapRec) : (queueRecord s u r).barWaits = s.barWaits := rfl
@[simp] theorem queueRecord_barPast (s : State) (u : Nat) (r : TrapRec) : (queueRecord s u r).barPast = s.barPast := rfl
@[simp] theorem queueRecord_barNow (s : State) (u : Nat) (r : TrapRec) : (queueRecord s u r).barNow = s.barNow := rfl
@[simp] theorem queueRecord_views (s : State) (u : Nat) (r : TrapRec) : (queueRecord s u r).views = s.views := rfl
@[simp] theorem queueRecord_hdm (s : State) (u : Nat) (r : TrapRec) : (queueRecord s u r).hdm = s.hdm := rfl
@[simp] theorem queueRecord_cyclePart (s : State) (u : Nat) (r : TrapRec) : (queueRecord s u r).cyclePart = s.cyclePart := rfl

@[simp] theorem getCtl_setCell (s : State) (w' : Nat) (c : Nat) (x : Cell) : getCtl (setCell s c x) w' = getCtl s w' := rfl
@[simp] theorem getGrove_setCell (s : State) (w' : Nat) (c : Nat) (x : Cell) : getGrove (setCell s c x) w' = getGrove s w' := rfl
@[simp] theorem findCfg_setCell (s : State) (w' : Nat) (c : Nat) (x : Cell) : findCfg (setCell s c x) w' = findCfg s w' := rfl
@[simp] theorem memByte_setCell (s : State) (w' : Nat) (c : Nat) (x : Cell) : memByte (setCell s c x) w' = memByte s w' := rfl
@[simp] theorem getCtl_modCell (s : State) (w' : Nat) (c : Nat) (f : Cell → Cell) : getCtl (modCell s c f) w' = getCtl s w' := rfl
@[simp] theorem getGrove_modCell (s : State) (w' : Nat) (c : Nat) (f : Cell → Cell) : getGrove (modCell s c f) w' = getGrove s w' := rfl
@[simp] theorem findCfg_modCell (s : State) (w' : Nat) (c : Nat) (f : Cell → Cell) : findCfg (modCell s c f) w' = findCfg s w' := rfl
@[simp] theorem memByte_modCell (s : State) (w' : Nat) (c : Nat) (f : Cell → Cell) : memByte (modCell s c f) w' = memByte s w' := rfl
@[simp] theorem getCell_setCtl (s : State) (w' : Nat) (u : Nat) (x : Ctl) : getCell (setCtl s u x) w' = getCell s w' := rfl
@[simp] theorem getGrove_setCtl (s : State) (w' : Nat) (u : Nat) (x : Ctl) : getGrove (setCtl s u x) w' = getGrove s w' := rfl
@[simp] theorem findCfg_setCtl (s : State) (w' : Nat) (u : Nat) (x : Ctl) : findCfg (setCtl s u x) w' = findCfg s w' := rfl
@[simp] theorem memByte_setCtl (s : State) (w' : Nat) (u : Nat) (x : Ctl) : memByte (setCtl s u x) w' = memByte s w' := rfl
@[simp] theorem getCell_modCtl (s : State) (w' : Nat) (u : Nat) (f : Ctl → Ctl) : getCell (modCtl s u f) w' = getCell s w' := rfl
@[simp] theorem getGrove_modCtl (s : State) (w' : Nat) (u : Nat) (f : Ctl → Ctl) : getGrove (modCtl s u f) w' = getGrove s w' := rfl
@[simp] theorem findCfg_modCtl (s : State) (w' : Nat) (u : Nat) (f : Ctl → Ctl) : findCfg (modCtl s u f) w' = findCfg s w' := rfl
@[simp] theorem memByte_modCtl (s : State) (w' : Nat) (u : Nat) (f : Ctl → Ctl) : memByte (modCtl s u f) w' = memByte s w' := rfl
@[simp] theorem getCtl_modGrove (s : State) (w' : Nat) (g : Nat) (f : Grove → Grove) : getCtl (modGrove s g f) w' = getCtl s w' := rfl
@[simp] theorem getCell_modGrove (s : State) (w' : Nat) (g : Nat) (f : Grove → Grove) : getCell (modGrove s g f) w' = getCell s w' := rfl
@[simp] theorem findCfg_modGrove (s : State) (w' : Nat) (g : Nat) (f : Grove → Grove) : findCfg (modGrove s g f) w' = findCfg s w' := rfl
@[simp] theorem memByte_modGrove (s : State) (w' : Nat) (g : Nat) (f : Grove → Grove) : memByte (modGrove s g f) w' = memByte s w' := rfl
@[simp] theorem getCtl_modCfg (s : State) (w' : Nat) (i : Nat) (f : Cfg → Cfg) : getCtl (modCfg s i f) w' = getCtl s w' := rfl
@[simp] theorem getCell_modCfg (s : State) (w' : Nat) (i : Nat) (f : Cfg → Cfg) : getCell (modCfg s i f) w' = getCell s w' := rfl
@[simp] theorem getGrove_modCfg (s : State) (w' : Nat) (i : Nat) (f : Cfg → Cfg) : getGrove (modCfg s i f) w' = getGrove s w' := rfl
@[simp] theorem memByte_modCfg (s : State) (w' : Nat) (i : Nat) (f : Cfg → Cfg) : memByte (modCfg s i f) w' = memByte s w' := rfl
@[simp] theorem getCtl_modFrame (s : State) (w' : Nat) (i n : Nat) (f : Frame → Frame) : getCtl (modFrame s i n f) w' = getCtl s w' := rfl
@[simp] theorem getCell_modFrame (s : State) (w' : Nat) (i n : Nat) (f : Frame → Frame) : getCell (modFrame s i n f) w' = getCell s w' := rfl
@[simp] theorem getGrove_modFrame (s : State) (w' : Nat) (i n : Nat) (f : Frame → Frame) : getGrove (modFrame s i n f) w' = getGrove s w' := rfl
@[simp] theorem memByte_modFrame (s : State) (w' : Nat) (i n : Nat) (f : Frame → Frame) : memByte (modFrame s i n f) w' = memByte s w' := rfl
@[simp] theorem getCtl_addWork (s : State) (w' : Nat) (w : Work) : getCtl (addWork s w) w' = getCtl s w' := rfl
@[simp] theorem getCell_addWork (s : State) (w' : Nat) (w : Work) : getCell (addWork s w) w' = getCell s w' := rfl
@[simp] theorem getGrove_addWork (s : State) (w' : Nat) (w : Work) : getGrove (addWork s w) w' = getGrove s w' := rfl
@[simp] theorem findCfg_addWork (s : State) (w' : Nat) (w : Work) : findCfg (addWork s w) w' = findCfg s w' := rfl
@[simp] theorem memByte_addWork (s : State) (w' : Nat) (w : Work) : memByte (addWork s w) w' = memByte s w' := rfl
@[simp] theorem getCtl_dropWork (s : State) (w' : Nat) (k : Nat) : getCtl (dropWork s k) w' = getCtl s w' := rfl
@[simp] theorem getCell_dropWork (s : State) (w' : Nat) (k : Nat) : getCell (dropWork s k) w' = getCell s w' := rfl
@[simp] theorem getGrove_dropWork (s : State) (w' : Nat) (k : Nat) : getGrove (dropWork s k) w' = getGrove s w' := rfl
@[simp] theorem findCfg_dropWork (s : State) (w' : Nat) (k : Nat) : findCfg (dropWork s k) w' = findCfg s w' := rfl
@[simp] theorem memByte_dropWork (s : State) (w' : Nat) (k : Nat) : memByte (dropWork s k) w' = memByte s w' := rfl
@[simp] theorem getCtl_setWork (s : State) (w' : Nat) (k : Nat) (w : Work) : getCtl (setWork s k w) w' = getCtl s w' := rfl
@[simp] theorem getCell_setWork (s : State) (w' : Nat) (k : Nat) (w : Work) : getCell (setWork s k w) w' = getCell s w' := rfl
@[simp] theorem getGrove_setWork (s : State) (w' : Nat) (k : Nat) (w : Work) : getGrove (setWork s k w) w' = getGrove s w' := rfl
@[simp] theorem findCfg_setWork (s : State) (w' : Nat) (k : Nat) (w : Work) : findCfg (setWork s k w) w' = findCfg s w' := rfl
@[simp] theorem memByte_setWork (s : State) (w' : Nat) (k : Nat) (w : Work) : memByte (setWork s k w) w' = memByte s w' := rfl
@[simp] theorem getCell_writeG (s : State) (w' : Nat) (u : Nat) (r : Spec) (v : Nat) : getCell (writeG s u r v) w' = getCell s w' := rfl
@[simp] theorem getGrove_writeG (s : State) (w' : Nat) (u : Nat) (r : Spec) (v : Nat) : getGrove (writeG s u r v) w' = getGrove s w' := rfl
@[simp] theorem findCfg_writeG (s : State) (w' : Nat) (u : Nat) (r : Spec) (v : Nat) : findCfg (writeG s u r v) w' = findCfg s w' := rfl
@[simp] theorem memByte_writeG (s : State) (w' : Nat) (u : Nat) (r : Spec) (v : Nat) : memByte (writeG s u r v) w' = memByte s w' := rfl
@[simp] theorem getCtl_putFiring (s : State) (w' : Nat) (c : Nat) (f : Firing) : getCtl (putFiring s c f) w' = getCtl s w' := rfl
@[simp] theorem getGrove_putFiring (s : State) (w' : Nat) (c : Nat) (f : Firing) : getGrove (putFiring s c f) w' = getGrove s w' := rfl
@[simp] theorem findCfg_putFiring (s : State) (w' : Nat) (c : Nat) (f : Firing) : findCfg (putFiring s c f) w' = findCfg s w' := rfl
@[simp] theorem memByte_putFiring (s : State) (w' : Nat) (c : Nat) (f : Firing) : memByte (putFiring s c f) w' = memByte s w' := rfl
@[simp] theorem getCtl_advance (s : State) (w' : Nat) (c n : Nat) : getCtl (advance s c n) w' = getCtl s w' := rfl
@[simp] theorem getGrove_advance (s : State) (w' : Nat) (c n : Nat) : getGrove (advance s c n) w' = getGrove s w' := rfl
@[simp] theorem findCfg_advance (s : State) (w' : Nat) (c n : Nat) : findCfg (advance s c n) w' = findCfg s w' := rfl
@[simp] theorem memByte_advance (s : State) (w' : Nat) (c n : Nat) : memByte (advance s c n) w' = memByte s w' := rfl
@[simp] theorem getCtl_setByte (s : State) (w' : Nat) (a : Nat) (b : Byte) : getCtl (setByte s a b) w' = getCtl s w' := rfl
@[simp] theorem getCell_setByte (s : State) (w' : Nat) (a : Nat) (b : Byte) : getCell (setByte s a b) w' = getCell s w' := rfl
@[simp] theorem getGrove_setByte (s : State) (w' : Nat) (a : Nat) (b : Byte) : getGrove (setByte s a b) w' = getGrove s w' := rfl
@[simp] theorem findCfg_setByte (s : State) (w' : Nat) (a : Nat) (b : Byte) : findCfg (setByte s a b) w' = findCfg s w' := rfl
@[simp] theorem getCell_queueRecord (s : State) (w' : Nat) (u : Nat) (r : TrapRec) : getCell (queueRecord s u r) w' = getCell s w' := rfl
@[simp] theorem getGrove_queueRecord (s : State) (w' : Nat) (u : Nat) (r : TrapRec) : getGrove (queueRecord s u r) w' = getGrove s w' := rfl
@[simp] theorem findCfg_queueRecord (s : State) (w' : Nat) (u : Nat) (r : TrapRec) : findCfg (queueRecord s u r) w' = findCfg s w' := rfl
@[simp] theorem memByte_queueRecord (s : State) (w' : Nat) (u : Nat) (r : TrapRec) : memByte (queueRecord s u r) w' = memByte s w' := rfl

/-! ### What the loads of a cell have yet to see -/

@[simp] theorem setViews_turn (s : State) (c : Nat) (l : List View) : (setViews s c l).turn = s.turn := rfl
@[simp] theorem setViews_tick (s : State) (c : Nat) (l : List View) : (setViews s c l).tick = s.tick := rfl
@[simp] theorem setViews_free (s : State) (c : Nat) (l : List View) : (setViews s c l).free = s.free := rfl
@[simp] theorem setViews_nextId (s : State) (c : Nat) (l : List View) : (setViews s c l).nextId = s.nextId := rfl
@[simp] theorem setViews_timens (s : State) (c : Nat) (l : List View) : (setViews s c l).timens = s.timens := rfl
@[simp] theorem setViews_cycles (s : State) (c : Nat) (l : List View) : (setViews s c l).cycles = s.cycles := rfl
@[simp] theorem setViews_inputs (s : State) (c : Nat) (l : List View) : (setViews s c l).inputs = s.inputs := rfl
@[simp] theorem setViews_mem (s : State) (c : Nat) (l : List View) : (setViews s c l).mem = s.mem := rfl
@[simp] theorem setViews_poison (s : State) (c : Nat) (l : List View) : (setViews s c l).poison = s.poison := rfl
@[simp] theorem setViews_cells (s : State) (c : Nat) (l : List View) : (setViews s c l).cells = s.cells := rfl
@[simp] theorem setViews_groves (s : State) (c : Nat) (l : List View) : (setViews s c l).groves = s.groves := rfl
@[simp] theorem setViews_cfgs (s : State) (c : Nat) (l : List View) : (setViews s c l).cfgs = s.cfgs := rfl
@[simp] theorem setViews_work (s : State) (c : Nat) (l : List View) : (setViews s c l).work = s.work := rfl
@[simp] theorem setViews_inflight (s : State) (c : Nat) (l : List View) : (setViews s c l).inflight = s.inflight := rfl
@[simp] theorem setViews_queues (s : State) (c : Nat) (l : List View) : (setViews s c l).queues = s.queues := rfl
@[simp] theorem setViews_rr (s : State) (c : Nat) (l : List View) : (setViews s c l).rr = s.rr := rfl
@[simp] theorem setViews_round (s : State) (c : Nat) (l : List View) : (setViews s c l).round = s.round := rfl
@[simp] theorem setViews_saves (s : State) (c : Nat) (l : List View) : (setViews s c l).saves = s.saves := rfl
@[simp] theorem setViews_groups (s : State) (c : Nat) (l : List View) : (setViews s c l).groups = s.groups := rfl
@[simp] theorem setViews_placement (s : State) (c : Nat) (l : List View) : (setViews s c l).placement = s.placement := rfl
@[simp] theorem setViews_slots (s : State) (c : Nat) (l : List View) : (setViews s c l).slots = s.slots := rfl
@[simp] theorem setViews_rels (s : State) (c : Nat) (l : List View) : (setViews s c l).rels = s.rels := rfl
@[simp] theorem setViews_regions (s : State) (c : Nat) (l : List View) : (setViews s c l).regions = s.regions := rfl
@[simp] theorem setViews_blocks (s : State) (c : Nat) (l : List View) : (setViews s c l).blocks = s.blocks := rfl
@[simp] theorem setViews_ttbase (s : State) (c : Nat) (l : List View) : (setViews s c l).ttbase = s.ttbase := rfl
@[simp] theorem setViews_tlbs (s : State) (c : Nat) (l : List View) : (setViews s c l).tlbs = s.tlbs := rfl
@[simp] theorem setViews_bbox (s : State) (c : Nat) (l : List View) : (setViews s c l).bbox = s.bbox := rfl
@[simp] theorem setViews_drains (s : State) (c : Nat) (l : List View) : (setViews s c l).drains = s.drains := rfl
@[simp] theorem setViews_links (s : State) (c : Nat) (l : List View) : (setViews s c l).links = s.links := rfl
@[simp] theorem setViews_egress (s : State) (c : Nat) (l : List View) : (setViews s c l).egress = s.egress := rfl
@[simp] theorem setViews_devnum (s : State) (c : Nat) (l : List View) : (setViews s c l).devnum = s.devnum := rfl
@[simp] theorem setViews_launchst (s : State) (c : Nat) (l : List View) : (setViews s c l).launchst = s.launchst := rfl
@[simp] theorem setViews_doorbells (s : State) (c : Nat) (l : List View) : (setViews s c l).doorbells = s.doorbells := rfl
@[simp] theorem setViews_msix (s : State) (c : Nat) (l : List View) : (setViews s c l).msix = s.msix := rfl
@[simp] theorem setViews_reply (s : State) (c : Nat) (l : List View) : (setViews s c l).reply = s.reply := rfl
@[simp] theorem setViews_power (s : State) (c : Nat) (l : List View) : (setViews s c l).power = s.power := rfl
@[simp] theorem setViews_idleSince (s : State) (c : Nat) (l : List View) : (setViews s c l).idleSince = s.idleSince := rfl
@[simp] theorem setViews_clock (s : State) (c : Nat) (l : List View) : (setViews s c l).clock = s.clock := rfl
@[simp] theorem setViews_pwreq (s : State) (c : Nat) (l : List View) : (setViews s c l).pwreq = s.pwreq := rfl
@[simp] theorem setViews_telbase (s : State) (c : Nat) (l : List View) : (setViews s c l).telbase = s.telbase := rfl
@[simp] theorem setViews_corrected (s : State) (c : Nat) (l : List View) : (setViews s c l).corrected = s.corrected := rfl
@[simp] theorem setViews_correctedHbm (s : State) (c : Nat) (l : List View) : (setViews s c l).correctedHbm = s.correctedHbm := rfl
@[simp] theorem setViews_sdcs (s : State) (c : Nat) (l : List View) : (setViews s c l).sdcs = s.sdcs := rfl
@[simp] theorem setViews_retries (s : State) (c : Nat) (l : List View) : (setViews s c l).retries = s.retries := rfl
@[simp] theorem setViews_passes (s : State) (c : Nat) (l : List View) : (setViews s c l).passes = s.passes := rfl
@[simp] theorem setViews_passesHbm (s : State) (c : Nat) (l : List View) : (setViews s c l).passesHbm = s.passesHbm := rfl
@[simp] theorem setViews_fw (s : State) (c : Nat) (l : List View) : (setViews s c l).fw = s.fw := rfl
@[simp] theorem setViews_fwOk (s : State) (c : Nat) (l : List View) : (setViews s c l).fwOk = s.fwOk := rfl
@[simp] theorem setViews_fwNew (s : State) (c : Nat) (l : List View) : (setViews s c l).fwNew = s.fwNew := rfl
@[simp] theorem setViews_barWaits (s : State) (c : Nat) (l : List View) : (setViews s c l).barWaits = s.barWaits := rfl
@[simp] theorem setViews_barPast (s : State) (c : Nat) (l : List View) : (setViews s c l).barPast = s.barPast := rfl
@[simp] theorem setViews_barNow (s : State) (c : Nat) (l : List View) : (setViews s c l).barNow = s.barNow := rfl
@[simp] theorem setViews_hdm (s : State) (c : Nat) (l : List View) : (setViews s c l).hdm = s.hdm := rfl
@[simp] theorem setViews_cyclePart (s : State) (c : Nat) (l : List View) : (setViews s c l).cyclePart = s.cyclePart := rfl
@[simp] theorem setViews_ctls (s : State) (c : Nat) (l : List View) : (setViews s c l).ctls = s.ctls := rfl

/-- Seeing every write changes what the cell has yet to see, and nothing else. -/
theorem seeAll_frame (s : State) (c : Nat) : seeAll s c = { s with views := (seeAll s c).views } := by
  unfold seeAll setViews
  split <;> rfl

/-- A cell that has seen every write has none to see. -/
@[simp] theorem getViews_seeAll (s : State) (c : Nat) : getViews (seeAll s c) c = [] := by
  unfold seeAll
  split
  · assumption
  · simp [getViews, setViews, tget_tset]

end Sys2Proof.Machine
end

