-- ==== Sys2Proof/Laws/Run.lean ====
section
/-! SUPPORT. What the shared way of running an instruction can do, on a cell and on a controller or core, and what taking
a trap leaves alone. -/

namespace Sys2Proof.Machine

variable {i : Instr} {s t p : State} {onCell : Nat → Firing → State → R State} {onCtl : Nat → Nat → State → R State}

/-! ### An instruction on a cell -/

theorem runInstr_cell_ok {c : Nat} {f : Firing} (ht : s.turn = .cell c) (hf : (getCell s c).firing = some f) (hp : f.phase = .running)
    (hw : WellFormed .cell i = true) (h : onCell c f s = .ok p) : runInstr i s onCell onCtl = .next (advance p c (sizeOf' i)) := by
  simp only [runInstr, ht, hf, hp, hw, if_true, h]

theorem runInstr_cell_trap {c : Nat} {f : Firing} {e : Trap} (ht : s.turn = .cell c) (hf : (getCell s c).firing = some f)
    (hp : f.phase = .running) (hw : WellFormed .cell i = true) (h : onCell c f s = .error (.trap e)) :
    runInstr i s onCell onCtl = .next (firingFault s c f e) := by
  simp only [runInstr, ht, hf, hp, hw, if_true, h]

theorem runInstr_cell_stall {c : Nat} {f : Firing} (ht : s.turn = .cell c) (hf : (getCell s c).firing = some f) (hp : f.phase = .running)
    (hw : WellFormed .cell i = true) (h : onCell c f s = .error .stall) : runInstr i s onCell onCtl = .next (stallCell s c f) := by
  simp only [runInstr, ht, hf, hp, hw, if_true, h]

theorem runInstr_cell_redo {c : Nat} {f : Firing} (ht : s.turn = .cell c) (hf : (getCell s c).firing = some f) (hp : f.phase = .running)
    (hw : WellFormed .cell i = true) (h : onCell c f s = .error (.redo p)) : runInstr i s onCell onCtl = .next p := by
  simp only [runInstr, ht, hf, hp, hw, if_true, h]

/-! ### An instruction on a controller or core -/

/-- The state in which the body of an instruction of unit `u` runs: the pc is behind it. -/
def pastInstr (s : State) (u : Nat) (i : Instr) : State :=
  setCtl s u { getCtl s u with pc := (getCtl s u).pc + 4 * sizeOf' i, midway := false }

/-- The state before another try of an instruction of unit `u`, after a step `t` of the machine. -/
def retryInstr (s : State) (u : Nat) (i : Instr) (t : State) : State :=
  stallCtl (modCtl t u fun y => { y with pc := (getCtl s u).pc, midway := (getCtl s u).midway }) u i

/-- The outcome of an instruction of unit `u` that its body `r` gives. -/
def ctlOutcome (s : State) (u : Nat) (i : Instr) (r : R State) : Out State := match r with
  | .ok t => .next t
  | .error (.trap e) => .next (takeCtlTrap s u (getCtl s u).pc e)
  | .error .stall => .next (stallCtl s u i)
  | .error (.redo t) => .next (retryInstr s u i t)

theorem runInstr_ctl {u : Nat} (ht : s.turn = .ctl u) (hm : (getCtl s u).mode = .running) (hw : WellFormed (unitKind u) i = true) :
    runInstr i s onCell onCtl =
      ctlOutcome s u i (onCtl u (getCtl s u).pc (pastInstr s u i)) := by
  unfold runInstr
  rw [ht]
  simp only [hw, if_true]
  exact if_pos hm

theorem runInstr_ctl_ok {u : Nat} (ht : s.turn = .ctl u) (hm : (getCtl s u).mode = .running) (hw : WellFormed (unitKind u) i = true)
    (h : onCtl u (getCtl s u).pc (pastInstr s u i) = .ok p) :
    runInstr i s onCell onCtl = .next p := by
  rw [runInstr_ctl ht hm hw, h]
  rfl

theorem runInstr_ctl_trap {u : Nat} {e : Trap} (ht : s.turn = .ctl u) (hm : (getCtl s u).mode = .running)
    (hw : WellFormed (unitKind u) i = true)
    (h : onCtl u (getCtl s u).pc (pastInstr s u i) = .error (.trap e)) :
    runInstr i s onCell onCtl = .next (takeCtlTrap s u (getCtl s u).pc e) := by
  rw [runInstr_ctl ht hm hw, h]
  rfl

theorem runInstr_ctl_stall {u : Nat} (ht : s.turn = .ctl u) (hm : (getCtl s u).mode = .running) (hw : WellFormed (unitKind u) i = true)
    (h : onCtl u (getCtl s u).pc (pastInstr s u i) = .error .stall) :
    runInstr i s onCell onCtl = .next (stallCtl s u i) := by
  rw [runInstr_ctl ht hm hw, h]
  rfl

theorem runInstr_ctl_redo {u : Nat} (ht : s.turn = .ctl u) (hm : (getCtl s u).mode = .running) (hw : WellFormed (unitKind u) i = true)
    (h : onCtl u (getCtl s u).pc (pastInstr s u i) = .error (.redo p)) :
    runInstr i s onCell onCtl = .next (retryInstr s u i p) := by
  rw [runInstr_ctl ht hm hw, h]
  rfl

/-- Everything an instruction can do when it answers a next state: on a cell its body's effect, a trap, a wait or a step of the
machine before another try; on a controller or core the same. -/
theorem runInstr_next (h : runInstr i s onCell onCtl = .next t) :
    (∃ c f, s.turn = .cell c ∧ (getCell s c).firing = some f ∧ f.phase = .running ∧
      ((∃ p, onCell c f s = .ok p ∧ t = advance p c (sizeOf' i)) ∨ (∃ e, t = firingFault s c f e) ∨ t = stallCell s c f ∨
        onCell c f s = .error (.redo t))) ∨
    (∃ u, s.turn = .ctl u ∧ (getCtl s u).mode = .running ∧
      let r := onCtl u (getCtl s u).pc (pastInstr s u i)
      (r = .ok t ∨ (∃ e, t = takeCtlTrap s u (getCtl s u).pc e) ∨ t = stallCtl s u i ∨
        ∃ p, r = .error (.redo p) ∧ t = retryInstr s u i p)) := by
  unfold runInstr at h
  split at h
  · rename_i c hc
    split at h
    · rename_i f hf
      split at h
      · rename_i hp
        refine .inl ⟨c, f, hc, hf, hp, ?_⟩
        by_cases hw : WellFormed .cell i = true
        · simp only [hw, if_true] at h
          split at h <;> cases h
          · rename_i q hq; exact .inl ⟨q, hq, rfl⟩
          · exact .inr (.inl ⟨_, rfl⟩)
          · exact .inr (.inr (.inl rfl))
          · rename_i hq; exact .inr (.inr (.inr hq))
        · simp only [hw] at h
          cases h
          exact .inr (.inl ⟨_, rfl⟩)
      · cases h
    · cases h
  · rename_i u hu
    dsimp only at h
    split at h
    · rename_i hm
      refine .inr ⟨u, hu, hm, ?_⟩
      split at h <;> cases h
      · rename_i q hq
        split at hq
        · exact .inl hq
        · cases hq
      · exact .inr (.inl ⟨_, rfl⟩)
      · exact .inr (.inr (.inl rfl))
      · rename_i q hq
        split at hq
        · exact .inr (.inr (.inr ⟨q, hq, rfl⟩))
        · cases hq
    · cases h
  · cases h

/-- The held registers an instruction names are usable: the check before its body passes. -/
theorem withRegs_usable {body : Nat → Firing → State → R State} {c : Nat} {f : Firing}
    (h : specsUsable (getCell s c) f.ctx (regsOf i) = true) : withRegs i body c f s = body c f s := by
  simp only [withRegs, h, if_true]

/-! ### What taking a trap leaves alone -/

/-- Queueing, routing and escalating a record change no memory and no cell. -/
theorem queueRecord_same (s : State) (u : Nat) (r : TrapRec) : (queueRecord s u r).mem = s.mem ∧ (queueRecord s u r).cells = s.cells := ⟨rfl, rfl⟩

theorem dropWait_same (s : State) (who uid : Nat) : (dropWait s who uid).mem = s.mem ∧ (dropWait s who uid).cells = s.cells := by
  unfold dropWait
  split <;> exact ⟨rfl, rfl⟩

theorem toSupervisor_mem (s : State) (n : Nat) (b : Bool) (r : TrapRec) :
    (toSupervisor s n b r).mem = s.mem ∧ (toSupervisor s n b r).cells = s.cells := by
  unfold toSupervisor
  split
  · exact queueRecord_same _ _ _
  · exact ⟨rfl, rfl⟩

theorem routeRecord_mem (s : State) (r : TrapRec) : (routeRecord s r).mem = s.mem ∧ (routeRecord s r).cells = s.cells := by
  unfold routeRecord escalate
  dsimp only
  split
  · exact ⟨rfl, rfl⟩
  · split
    · exact toSupervisor_mem _ _ _ _
    · exact queueRecord_same _ _ _

theorem stopFrame_mem (s : State) (r : TrapRec) : (stopFrame s r).mem = s.mem ∧ (stopFrame s r).cells = s.cells := by
  unfold stopFrame
  split
  · exact ⟨rfl, rfl⟩
  · split
    · exact ⟨rfl, rfl⟩
    · have h := routeRecord_mem (modFrame s r.cfg r.frame fun f => { f with live := true, stopped := some r }) r
      exact ⟨h.1, h.2⟩

theorem jobTrap_mem (s : State) (e : Trap) (x : Src) (k : Option Nat) : (jobTrap s e x k).mem = s.mem ∧ (jobTrap s e x k).cells = s.cells := by
  unfold jobTrap
  split
  · dsimp only
    split
    · exact queueRecord_same _ _ _
    · exact toSupervisor_mem _ _ _ _
  · exact stopFrame_mem _ _

theorem withdrawFiring_mem (s : State) (c : Nat) (f : Firing) : (withdrawFiring s c f).mem = s.mem := (dropWait_same _ _ _).1

theorem takeFiringTrap_mem (s : State) (c : Nat) (f : Firing) (e : Trap) (x : Src) : (takeFiringTrap s c f e x).mem = s.mem :=
  (stopFrame_mem _ _).1.trans (withdrawFiring_mem s c f)

theorem settleFiring_mem (s : State) (c : Nat) : (settleFiring s c).mem = s.mem := by
  unfold settleFiring
  split
  · rfl
  · split
    · split
      · rfl
      · exact takeFiringTrap_mem _ _ _ _ _
    · split
      · rfl
      · exact takeFiringTrap_mem _ _ _ _ _
    · rfl

/-- A firing's fault changes no memory (R106). -/
theorem firingFault_mem (s : State) (c : Nat) (f : Firing) (e : Trap) : (firingFault s c f e).mem = s.mem := settleFiring_mem _ _

theorem takeCtlTrap_mem (s : State) (u pc : Nat) (e : Trap) : (takeCtlTrap s u pc e).mem = s.mem ∧ (takeCtlTrap s u pc e).cells = s.cells := by
  have hd := dropWait_same s u 0
  unfold takeCtlTrap sendControl escalate
  dsimp only
  generalize dropWait s u 0 = d at hd ⊢
  rw [← hd.1, ← hd.2]
  split
  · split
    · exact ⟨rfl, rfl⟩
    · split
      · have h := toSupervisor_mem
        exact ⟨(h _ _ _ _).1.trans rfl, (h _ _ _ _).2.trans rfl⟩
      · exact ⟨rfl, rfl⟩
  · split
    · exact ⟨rfl, rfl⟩
    · exact ⟨(toSupervisor_mem _ _ _ _).1.trans rfl, (toSupervisor_mem _ _ _ _).2.trans rfl⟩

/-! ### Configurations and frames -/

theorem findCfg_modCfg (s : State) (a b : Nat) (g : Cfg → Cfg) (hg : ∀ c, (g c).id = c.id) :
    findCfg (modCfg s a g) b = (findCfg s b).map fun c => if c.id = a then g c else c := by
  have hid : ∀ c : Cfg, (if c.id = a then g c else c).id = c.id := fun c => by split <;> simp [hg]
  change List.find? _ (s.cfgs.map fun c => if c.id = a then g c else c) = (s.cfgs.find? _).map _
  rw [List.find?_map]
  congr 2
  funext c
  simp only [Function.comp, hid]

/-- A frame reads what was last written to it. -/
theorem getFrame_modFrame (s : State) (a n : Nat) (g : Frame → Frame) {c : Cfg} (hc : findCfg s a = some c) :
    getFrame (modFrame s a n g) a n = g (getFrame s a n) := by
  have hid : c.id = a := by simpa using List.find?_some hc
  have h := findCfg_modCfg s a a (fun c => { c with frames := tmod {} c.frames n g }) fun _ => rfl
  rw [hc, Option.map_some, if_pos hid] at h
  simp only [getFrame, getCfg, modFrame, h, hc, Option.getD_some, Cfg.frame, tget_tmod_self]

end Sys2Proof.Machine
end

