-- ==== Sys2Proof/Laws/Memory.lean ====
section
/-! SUPPORT. Every operation that writes memory keeps its canonical form, and the memory after reset has it. -/

namespace Sys2Proof.Machine

theorem reset_mem_wf : Memory.wf State.reset.mem = true := rfl

/-- A fold keeps what each of its steps keeps. -/
theorem foldl_keeps {α β : Type} (P : α → Prop) (f : α → β → α) (hf : ∀ a b, P a → P (f a b)) (l : List β) (a : α) (h : P a) :
    P (l.foldl f a) := by
  induction l generalizing a with
  | nil => exact h
  | cons b l ih => exact ih _ (hf a b h)

theorem writeNat_wf (s : State) (pa n v : Nat) (h : Memory.wf s.mem = true) : Memory.wf (writeNat s pa n v).mem = true := by
  induction n generalizing s pa v with
  | zero => exact h
  | succ n ih => exact ih _ _ _ (setByte_wf s pa _ h)

theorem writeBits_wf (s : State) (b len v : Nat) (h : Memory.wf s.mem = true) : Memory.wf (writeBits s b len v).mem = true :=
  writeNat_wf s _ _ _ h

/-- What comes before a write keeps the canonical form. -/
def Before.Keeps (bf : Before) : Prop := ∀ s b len, Memory.wf s.mem = true → Memory.wf (bf s b len).mem = true

/-- An update that leaves memory alone keeps its form. -/
theorem allSeen_mem (s : State) : (allSeen s).mem = s.mem := by unfold allSeen; split <;> rfl

/-- A choice has what both its branches have. -/
theorem ite_keeps {α : Type} (P : α → Prop) (p : Prop) [Decidable p] {a b : α} (ha : P a) (hb : P b) : P (if p then a else b) := by
  split <;> assumption

theorem modCkpt_mem (s : State) (b id : Nat) (f : Ckpt → Option Ckpt) : (modCkpt s b id f).mem = s.mem := rfl

@[simp] theorem bboxEvent_mem (s : State) (b k c d g e n f x y : Nat) : (bboxEvent s b k c d g e n f x y).mem = s.mem := rfl

theorem landPieces_wf (s : State) (ps : List (Nat × Nat × Nat)) (w : Nat) (h : Memory.wf s.mem = true) :
    Memory.wf (landPieces s ps w).1.mem = true := by
  refine foldl_keeps (fun a : State × List (Nat × Nat × Nat) => Memory.wf a.1.mem = true) _ (fun a p ha => ?_) ps _
    (ite_keeps (fun s : State => Memory.wf s.mem = true) _ h h)
  exact ite_keeps (fun a : State × List (Nat × Nat × Nat) => Memory.wf a.1.mem = true) _ ha (writeBits_wf _ _ _ _ ha)

theorem ckptPut_wf {bf : Before} (hb : bf.Keeps) (s : State) (c : Ckpt) (off v : Nat) (h : Memory.wf s.mem = true) :
    Memory.wf (ckptPut bf s c off v).mem = true := by
  rw [ckptPut, allSeen_mem]
  exact landPieces_wf _ _ _ (hb _ _ _ h)

theorem ckptHeader_wf {bf : Before} (hb : bf.Keeps) (s : State) (c : Ckpt) (st k : Nat) (h : Memory.wf s.mem = true) :
    Memory.wf (ckptHeader bf s c st k).mem = true := ckptPut_wf hb _ _ _ _ h

theorem ckptUndefined_wf {bf : Before} (hb : bf.Keeps) (s : State) (c : Ckpt) (h : Memory.wf s.mem = true) :
    Memory.wf (ckptUndefined bf s c).mem = true := by
  unfold ckptUndefined
  refine foldl_keeps (fun s : State => Memory.wf s.mem = true) _ (fun t r ht => ?_) _ s h
  refine writeNat_wf _ _ _ _ ?_
  rw [allSeen_mem]
  exact hb _ _ _ ht

theorem ckptFail_wf {bf : Before} (hb : bf.Keeps) (s : State) (b : Nat) (c : Ckpt) (e : Trap) (h : Memory.wf s.mem = true) :
    Memory.wf (ckptFail bf s b c e).mem = true := by
  have hf : Memory.wf (ckptLeave bf s b c 3 e.cause).mem = true := ckptHeader_wf hb _ _ _ _ (ckptUndefined_wf hb _ c h)
  unfold ckptFail
  refine ite_keeps (fun s : State => Memory.wf s.mem = true) _ ?_ hf
  rw [(jobTrap_mem _ _ _ _).1]
  exact hf

theorem ckptProgress_wf {bf : Before} (hb : bf.Keeps) (s : State) (b id : Nat) (h : Memory.wf s.mem = true) :
    Memory.wf (ckptProgress bf s b id).mem = true := by
  unfold ckptProgress
  split
  · exact h
  · dsimp only
    split
    · exact hb _ _ _ h
    · exact ckptHeader_wf (bf := fun s _ _ => s) (fun _ _ _ h => h) _ _ _ _ (hb _ _ _ h)

theorem ckptCopy_wf {bf : Before} (hb : bf.Keeps) (s : State) (b id : Nat) (g : Nat × Nat) (h : Memory.wf s.mem = true) :
    Memory.wf (ckptCopy bf s b id g).mem = true := by
  unfold ckptCopy
  split
  · exact h
  · split
    · exact h
    · split
      · exact ckptFail_wf hb _ _ _ _ h
      · split
        · exact ckptFail_wf hb _ _ _ _ h
        · rename_i src dst _ _
          have hd : ∀ f : Ckpt → Option Ckpt, Memory.wf (bf (modCkpt s b id f) (dst * 8) 32768).mem = true := fun f => hb _ _ _ h
          dsimp only
          generalize hu : bf (modCkpt s b id _) (dst * 8) 32768 = u
          have hw : Memory.wf u.mem = true := hu ▸ hd _
          split
          · exact hw
          · refine ckptProgress_wf hb _ _ _ ?_
            rw [modCkpt_mem]
            refine writeNat_wf _ _ _ _ ?_
            rw [allSeen_mem]
            split <;> exact hw

theorem drainFor_keeps (n : Nat) : (drainFor n).Keeps := by
  induction n with
  | zero => exact fun _ _ _ h => h
  | succ n ih => exact fun s b len h => foldl_keeps (fun s : State => Memory.wf s.mem = true) _ (fun t g ht => ckptCopy_wf ih t g.1 g.2.1 g.2.2 ht) _ s h

theorem drainAll_wf (s : State) (b len : Nat) (h : Memory.wf s.mem = true) : Memory.wf (drainAll s b len).mem = true :=
  ite_keeps (fun s : State => Memory.wf s.mem = true) _ h (drainFor_keeps _ s b len h)

theorem writePieces_wf (s : State) (ps : List (Nat × Nat × Nat)) (w : Nat) (x : Src) (h : Memory.wf s.mem = true) :
    Memory.wf (writePieces s ps w x).1.mem = true :=
  landPieces_wf _ _ _ (foldl_keeps (fun s : State => Memory.wf s.mem = true) _ (fun t p ht => drainAll_wf t p.1 p.2.1 ht) ps s h)

theorem putBytes_wf (s : State) (pa n v insn : Nat) (h : Memory.wf s.mem = true) : Memory.wf (putBytes s pa n v insn).mem = true :=
  writePieces_wf _ _ _ _ h

theorem zeroNormal_wf (s t : State) (lo n : Nat) (h : Memory.wf t.mem = true) : Memory.wf (zeroNormal s t lo n).mem = true :=
  twf_filter _ (drainAll_wf _ _ _ h)

theorem changeMap_wf (s t : State) (rs : List (Nat × Nat)) (h : Memory.wf t.mem = true) : Memory.wf (changeMap s t rs).mem = true :=
  foldl_keeps (fun s : State => Memory.wf s.mem = true) _ (fun _ _ h => zeroNormal_wf _ _ _ _ h) rs t h

end Sys2Proof.Machine
end

