-- ==== Sys2Proof/Tests/Slice0.lean ====
section
/-! SUPPORT. Tests: what the manual's worked tables say of words and of single steps, and for every statement with
hypotheses a state that meets them. -/

-- Kernel evaluation one theorem after the other: side by side they would each take a thread of their own.
set_option Elab.async false

open Sys2Proof Sys2Proof.Machine Sys2Proof.Claims

/-! ### Well-formedness: a term each check refuses, beside one it accepts -/

/-- Groups (R69, R160): FP on a unit, BR on a cell, STRM on a core, SBIND on a cell, an event nowhere. -/
theorem test_wf_groups :
    WellFormed .cell (.fadd 0 1 2 0 0) = true ∧ WellFormed .ctl (.fadd 0 1 2 0 0) = false ∧
    WellFormed .ctl (.beq 0 1 4) = true ∧ WellFormed .cell (.beq 0 1 4) = false ∧
    WellFormed .ctl (.twaita 1 2) = true ∧ WellFormed .core (.twaita 1 2) = false ∧
    WellFormed .ctl (.sbind 1 2 3) = true ∧ WellFormed .core (.sbind 1 2 3) = false ∧ WellFormed .cell (.sbind 1 2 3) = false ∧
    WellFormed .core (.svc 1 2 3) = true ∧ WellFormed .cell .ownerCheck = false ∧ WellFormed .core .coldReset = false := by decide +kernel

/-- Code fields (R70): lane type 4, shift 32, format 3, rounding 7, FCVT within one format, block size 3, QNT mode 7, element type 6,
route 4, width class 6, recipe 16, a held register that is none, scope 5, record 8, set 4, a result into T0 and Z, NOPAY with a payload
record, a jump of offset 0, CMEM size 7, control register 1024. -/
theorem test_wf_codes :
    codesOk (.iadd 0 1 2 3) = true ∧ codesOk (.iadd 0 1 2 4) = false ∧ codesOk (.shli 0 1 31) = true ∧ codesOk (.shli 0 1 32) = false ∧
    codesOk (.fadd 0 1 2 2 6) = true ∧ codesOk (.fadd 0 1 2 3 0) = false ∧ codesOk (.fadd 0 1 2 0 7) = false ∧
    codesOk (.ffma 0 1 2 3 3) = false ∧ codesOk (.fcvt 1 0 8 11 0) = true ∧ codesOk (.fcvt 1 0 8 8 0) = false ∧ codesOk (.fcvt 1 0 7 8 0) = false ∧
    codesOk (.bdotI8 0 1 2 3) = false ∧ codesOk (.qntI8 0 1 2 7) = false ∧ codesOk (.rsum 0 1 6) = false ∧
    codesOk (.emit 3 1 2 5) = true ∧ codesOk (.emit 4 1 2 0) = false ∧ codesOk (.emit 0 1 2 6) = false ∧ codesOk (.bound 4 1 2) = false ∧
    codesOk (.hrec 8 15) = true ∧ codesOk (.hrec 8 16) = false ∧ codesOk (.hdrop 0) = false ∧ codesOk (.hstat 0 44) = false ∧
    codesOk (.ld 0 1 0 0 0 4) = true ∧ codesOk (.ld 0 1 0 0 0 5) = false ∧ codesOk (.scopyCell 8 0 1) = false ∧ codesOk (.mlw 0 8) = false ∧
    codesOk (.mstr 4 0 0) = false ∧ codesOk (.mrdH 0 0 0 0) = false ∧ codesOk (.mrdH 8 0 4 0) = false ∧ codesOk (.mclr 4) = false ∧
    codesOk (.mchk 44) = false ∧ codesOk (.rrnd 44 0) = true ∧ codesOk (.rrnd 0 0) = false ∧ codesOk (.rsort 1 0 2 0) = true ∧
    codesOk (.rsort 1 0 2 1) = false ∧ codesOk (.rsort 9 0 2 0) = false ∧ codesOk (.pconvCell 0 8) = false ∧ codesOk (.jal 1 0) = false ∧
    codesOk (.ldc 0 1 2 6) = true ∧ codesOk (.ldc 0 1 2 7) = false ∧ codesOk (.crd 0 1023) = true ∧ codesOk (.cwr 0 1024) = false := by
  decide +kernel

/-- Specifiers (R63, R65): one of 48 on, a unit's G32, a write of I0 or ITAG, pairs that start at T7, H31, I3 or G31, quads at T5 and
G29. -/
theorem test_wf_specs :
    specsOk .cell (.iadd 39 47 40 0) = true ∧ specsOk .cell (.iadd 0 48 1 0) = false ∧ specsOk .cell (.iadd 40 1 1 0) = false ∧
    specsOk .cell (.iadd 45 1 1 0) = false ∧ specsOk .cell (.iadd 44 1 1 0) = true ∧ specsOk .ctl (.iadd 32 1 1 0) = false ∧
    specsOk .ctl (.iadd 31 44 1 0) = true ∧ specsOk .ctl (.iabs 1 45 0) = false ∧ specsOk .cell (.movi 47 0) = false ∧
    specsOk .cell (.sel 0 1 2 63 0) = false ∧ specsOk .cell (.scacc 0 1 7) = false ∧ specsOk .cell (.qntI8 0 39 1 0) = false ∧
    specsOk .cell (.qntI8 0 42 1 0) = true ∧ specsOk .cell (.qntI8 0 43 1 0) = false ∧ specsOk .cell (.deqI8 7 1 1) = false ∧
    specsOk .cell (.deqI8 40 1 1) = false ∧ specsOk .cell (.vsort 6 6 0 0) = true ∧ specsOk .cell (.vmerge 5 0 2 0) = false ∧
    specsOk .cell (.emit 0 48 0 0) = false ∧ specsOk .cell (.emitz 0 63 0) = false ∧ specsOk .cell (.hdrop 48) = false ∧
    specsOk .cell (.hstat 0 48) = false ∧ specsOk .cell (.trap 48 0) = false ∧ specsOk .cell (.seqcl 48 0 0 0 0) = false ∧
    specsOk .cell (.st 48 0 0 0 0 0) = false ∧ specsOk .cell (.acas 7 0 0 0 0 0) = false ∧ specsOk .cell (.scopyCell 0 0 48) = false ∧
    specsOk .ctl (.tlbinv 32 44) = false ∧ specsOk .core (.bbox 29 1 2) = false ∧ specsOk .core (.bbox 28 1 2) = true := by decide +kernel

/-- The words decode to the instruction, and none is left. -/
def decodesTo (k : UnitKind) (ws : List Nat) (i : Instr) : Bool := match decodeWords k ws with
  | .ok (j, []) => j == i
  | _ => false

/-- The words are refused with the defect. -/
def refusedAs (k : UnitKind) (ws : List Nat) (d : Defect) : Bool := match decodeWords k ws with
  | .ok _ => false
  | .error e => e == d

/-! ### Decoding: words that the manual works out from its tables -/

/-- INT, INTI, BITS, ICMP, SEL, MOVL (chapter 12, "Encodings worked from the tables"). -/
theorem test_decode_int :
    decodesTo .cell [0b000001_000001_000010_001011_00000_000] (.iadd 1 2 11 0) ∧
    decodesTo .cell [0x040A057A] (.shr 0 40 5 2) ∧ decodesTo .ctl [0x04310099] (.popc 3 4 1) ∧
    decodesTo .cell [0x08208807] (.andi 2 2 7) ∧ decodesTo .cell [0x08803FFB] (.movi 8 (-5)) ∧
    decodesTo .cell [0x0C3A0908] (.bfx2 3 40 9 0) ∧ decodesTo .cell [0x10404210] (.iclt 4 1 2 0) ∧
    decodesTo .cell [0b000101_000000_000001_000010_000011_01] (.sel 0 1 2 3 1) ∧
    decodesTo .core [0x18105000, 0x00010000] (.iaddl 1 1 0x10000) := by decide +kernel

/-- FP, FFMA, FUN, FCVT, FCMP, BLK, RED (chapters 11, 12 and 13). -/
theorem test_decode_float :
    decodesTo .cell [0b001000_000001_000010_000011_01000_001] (.fmul 1 2 3 0 1) ∧
    decodesTo .cell [0x2400420D] (.ffma 0 1 2 3 1) ∧ decodesTo .cell [0x282300E8] (.ftanh 2 12 1) ∧
    decodesTo .cell [0b001011_000001_000000_001000_01011_000] (.fcvt 1 0 8 11 0) ∧
    decodesTo .cell [0x30108350] (.fcle 1 2 3 2) ∧ decodesTo .cell [0x38028528] (.qntE4m3 0 10 5 0) ∧
    decodesTo .cell [0x38C00548] (.deqE4m3 12 0 5) ∧ decodesTo .cell [0x38205168] (.vlutBf16 2 1 17) ∧
    decodesTo .cell [0x38028B0A] (.bdotE4m3 0 10 11 2) ∧ decodesTo .cell [0x38804C20] (.scacc 8 1 12) ∧
    decodesTo .cell [0b001111_000000_001010_000000_00000_001] (.rsum 0 10 1) ∧
    decodesTo .cell [0x3C028528] (.vtopk 0 10 5 0) ∧ decodesTo .cell [0x3C020A33] (.vmerge 0 8 10 3) := by
  decide +kernel

/-- FLOW, HELD, TRAPU, BR, CMEM, CREG (chapter 5). -/
theorem test_decode_flow :
    decodesTo .cell [0b010000_000001_001011_101100_00000_010] (.emit 1 11 44 2) ∧
    decodesTo .cell [0x40302C10] (.emitz 3 44 0) ∧ decodesTo .cell [0x40006C18] (.emitq 0 1 44) ∧
    decodesTo .cell [0x40222C20] (.bound 2 8 44) ∧ decodesTo .cell [0x40000030] .nop ∧
    decodesTo .cell [0b010001_001101_000000_000011_00000_000] (.hrec 13 3) ∧
    decodesTo .cell [0x44D00008] (.hdrop 13) ∧ decodesTo .cell [0x45100010] (.hfill 17) ∧
    decodesTo .cell [0x44034018] (.hstat 0 13) ∧ decodesTo .cell [0x44100020] (.hcap 1) ∧
    decodesTo .cell [0x4800D100] (.trap 3 17) ∧ decodesTo .cell [0x48000508] (.brkp 5) ∧
    decodesTo .ctl [0b100000_100_00101_00110_0000000001000] (.bltu 5 6 8) ∧
    decodesTo .ctl [0x88406C02] (.ldc 4 1 44 2) ∧ decodesTo .core [0x8850420B] (.stc 5 1 2 3) ∧
    decodesTo .ctl [0b100011_000100_000000_000_00000000010] (.crd 4 2) ∧ decodesTo .ctl [0x8C024807] (.cwr 9 7) := by
  decide +kernel

/-- MEM, GS, ATOM, ORD, STRM, TAG, BAR (chapter 9). -/
theorem test_decode_memory :
    decodesTo .cell [0b010100_001010_000001_011_00_1_001_00100] (.stx 10 1 3 0 1 1) ∧
    decodesTo .cell [0x50039066] (.seqcl 14 2 0 0 3) ∧ decodesTo .cell [0x54220820] (.ldg 2 8 1 0 0 1) ∧
    decodesTo .cell [0x58C02960] (.aadd 12 0 5 0 1 3) ∧ decodesTo .cell [0x5C000360] (.ord 1 1 3) ∧
    decodesTo .cell [0x60204C00] (.scopyCell 2 1 12) ∧ decodesTo .ctl [0x60014000] (.scopyCtrl 5) ∧
    decodesTo .ctl [0x60114610] (.sbind 1 5 6) ∧ decodesTo .cell [0x60028018] (.scancel 10) ∧
    decodesTo .cell [0b011001_000001_001010_000000_00000_000] (.twaita 1 10) ∧
    decodesTo .ctl [0x64310010] (.tffr 3 4) ∧ decodesTo .cell [0x68038008] (.bararv 14) ∧
    decodesTo .cell [0b011010_000010_001110_000011_00011_000] (.barwait 2 14 3) ∧
    decodesTo .cell [0x60014000] (.scopyCell 0 5 0) := by decide +kernel

/-- MTX, REL, SRT, PLC (chapters 13, 14 and 10). -/
theorem test_decode_engines :
    decodesTo .cell [0b011100_000000_001100_000010_00000_000] (.mlw 12 2) ∧ decodesTo .cell [0x70000008] .mswp ∧
    decodesTo .cell [0x70008110] (.mstr 0 2 1) ∧ decodesTo .cell [0x7010031A] (.mrd 1 0 3 1) ∧
    decodesTo .cell [0x70D04219] (.mrdH 13 1 2 0) ∧ decodesTo .cell [0x70300020] (.mclr 3) ∧
    decodesTo .cell [0x70F00028] (.mchk 15) ∧ decodesTo .cell [0x7000C030] (.mshp 0 3) ∧
    decodesTo .cell [0x7402C000] (.rdef 11) ∧ decodesTo .cell [0x7402C408] (.rins 11 4) ∧
    decodesTo .cell [0x7512C020] (.rrnd 17 11) ∧ decodesTo .cell [0x75239129] (.rqck 18 14 17 1) ∧
    decodesTo .cell [0x7532C240] (.rlook 19 11 2) ∧ decodesTo .cell [0x7403C148] (.rgrad 15 1) ∧
    decodesTo .cell [0b011110_000001_000000_000010_00000_000] (.rsort 1 0 2 0) ∧
    decodesTo .cell [0x78100001] (.rsort 1 0 0 1) ∧ decodesTo .cell [0x78328410] (.rmrg 3 10 4 0) ∧
    decodesTo .ctl [0x7C00C400] (.pdef 3 4) ∧ decodesTo .cell [0x7CD04208] (.pldCell 13 1 2) ∧
    decodesTo .cell [0x7C028310] (.pconvCell 10 3) ∧ decodesTo .cell [0x7C424018] (.pqry 4 9) ∧
    decodesTo .core [0x7C218028] (.cstart 2 6) := by decide +kernel

/-- SCHED, SYS (chapters 6, 15, 16 and 17). -/
theorem test_decode_units :
    decodesTo .ctl [0b100100_000001_000010_000011_00000_000] (.launch 1 2 3) ∧ decodesTo .ctl [0x90408008] (.join 4 2) ∧
    decodesTo .ctl [0x907B0038] (.wfe 7 44) ∧ decodesTo .ctl [0x90008040] (.sev 2) ∧
    decodesTo .ctl [0x90108328] (.ctxsv 1 2 3) ∧ decodesTo .core [0x94108330] (.smcSetblk 1 2 3) ∧
    decodesTo .core [0x940B2C28] (.tlbinv 44 44) ∧ decodesTo .ctl [0x94414C00] (.svc 4 5 12) ∧
    decodesTo .core [0x94000008] .eret ∧ decodesTo .ctl [0x940B0010] (.fres 44) ∧
    decodesTo .ctl [0x94000018] .fskip ∧ decodesTo .ctl [0x94000020] .escal ∧
    decodesTo .core [0x94404238] (.bbox 4 1 2) ∧ decodesTo .core [0x94004239] (.bboxWr 1 2) ∧
    decodesTo .core [0x94314042] (.ckptWait 3 5) ∧ decodesTo .core [0x94314044] (.ckptRest 3 5) := by decide +kernel

/-- Every word that the manual's tables refuse is refused with the defect it names (R73, R74). -/
theorem test_decode_refusals :
    (∀ w ∈ [0x4042EC02, 0x4012EC06, 0x44000008, 0x44D01000, 0x50039087, 0x500390E6, 0x60A14000, 0x7CD04808, 0x7C000040, 0x7CD04209,
      0x2C100840, 0x2C100888, 0x2C10085F, 0x2C102058, 0x040000A0, 0x04108148, 0x08002020, 0x201083C0, 0x20108361, 0x2400420F, 0x3C028006,
      0x70000038, 0x70000009, 0x70400020, 0x70008810, 0x70004219, 0x38028B0B, 0x74000050, 0x7523912A, 0x7402C020, 0x78000018, 0x78900200,
      0x78100201, 0x20232818, 0x94000020], refusedAs .cell [w, 0] .illop) ∧
    (∀ w ∈ [0x20108341, 0x70000008, 0x7402C000, 0x94000048, 0x94000019, 0x94100020, 0x94314045, 0x9440423A, 0x94104239],
      refusedAs .ctl [w, 0] .illop) ∧
    (∀ w ∈ [0x3C620A33, 0x22832808], refusedAs .cell [w, 0] .illreg) ∧
    refusedAs .core [0x95D04238, 0] .illreg := by decide +kernel

/-! ### A small world -/

namespace Sys2Proof.World

/-- The outcome is a value that meets `p`. -/
def okAnd {ε α : Type} (x : Except ε α) (p : α → Bool) : Bool := match x with
  | .ok v => p v
  | .error _ => false

theorem of_okAnd {ε α : Type} {x : Except ε α} {p : α → Bool} (h : okAnd x p = true) : ∃ v, x = .ok v ∧ p v = true := by
  cases x with
  | ok v => exact ⟨v, rfl, h⟩
  | error _ => exact absurd h Bool.false_ne_true

/-- The outcome is an error. -/
def isErr {ε α : Type} (x : Except ε α) : Bool := match x with
  | .ok _ => false
  | .error _ => true

/-- The bytes of little-endian values: address, length and value of each. -/
def bytesOf (l : List (Nat × Nat × Nat)) : Table Byte :=
  l.flatMap fun e => (List.range e.2.1).filterMap fun i => if bits e.2.2 (8 * i) 8 = 0 then none else some (e.1 + i, BitVec.ofNat 8 (bits e.2.2 (8 * i) 8))

/-- Page tables of address space 0 (R411, R412): 1 GiB of SRAM at 0, 1 GiB of HBM behind it, and 1 GiB of barrier pages behind that. -/
def tables : Table Byte :=
  bytesOf [(0x4000, 8, 2 ^ 63 + 0x8000), (0x8000, 8, 0x9001), (0x9000, 8, 0xA001), (0xA000, 8, 0x3F), (0xA008, 8, 0x10000000000 + 0x3F),
    (0xA010, 8, 0x10040000000 + 0x7F)]

/-- The entries that the walks of these tables give. -/
def entries : List TlbEntry :=
  [⟨0, false, 0, 0, 2 ^ 30, 15, false⟩, ⟨0, false, 2 ^ 30, 0x10000000000, 2 ^ 30, 15, false⟩,
   ⟨0, false, 2 ^ 31, 0x10040000000, 2 ^ 30, 31, false⟩]

/-- A configuration of 1 by 1 grove at grove 0 with frame 0 live (R50). -/
def cfg1 : Cfg :=
  { id := 1, words := [0x30000, 7, BitVec.ofNat 64 (2 ^ 24 + 2 ^ 30 + 2 ^ 42), 0, 0, 0x2000, 0, 0], origins := [0]
    frames := [(0, { live := true })], rcd := 0x30000, rcdPa := 0x30000 }

/-- Record 0: 16 by 4 elements of F32 at 0x20000; record 1: the same at 0x21000 as the target of copies; record 2: BF16 for the
array; record 3: sequence group 5; record 4: U32 (R198). -/
def rec0 : BitVec 256 := BitVec.ofNat 256 (0x20000 + 16 * 2 ^ 64 + 4 * 2 ^ 96 + 4 * 2 ^ 128 + 64 * 2 ^ 160 + 8 * 2 ^ 192)
def rec1 : BitVec 256 := BitVec.ofNat 256 (0x21000 + 16 * 2 ^ 64 + 4 * 2 ^ 96 + 4 * 2 ^ 128 + 64 * 2 ^ 160 + 8 * 2 ^ 192)
def rec2 : BitVec 256 := BitVec.ofNat 256 (0x22000 + 16 * 2 ^ 64 + 4 * 2 ^ 96 + 2 * 2 ^ 128 + 32 * 2 ^ 160 + 9 * 2 ^ 192)
def rec3 : BitVec 256 := BitVec.ofNat 256 (0x23000 + 16 * 2 ^ 64 + 4 * 2 ^ 96 + 4 * 2 ^ 128 + 64 * 2 ^ 160 + 8 * 2 ^ 192 + 5 * 2 ^ 212)
def rec4 : BitVec 256 := BitVec.ofNat 256 (0x24000 + 16 * 2 ^ 64 + 4 * 2 ^ 96 + 4 * 2 ^ 128 + 64 * 2 ^ 160 + 5 * 2 ^ 192)

/-- Cell 0: a compute context with 31 words from 0 on, data routes O0 and O3 and a predicate route O1 of rate 1 to context 0 of cell 1,
every held register allotted, records 0 to 4. -/
def cell0 : Cell :=
  { cfg := 1
    store := [(0, 0x40000030), (1, 0x40000028)]
    fields := [(0, BitVec.ofNat 64 (1 + 31 * 2 ^ 24 + 31 * 2 ^ 32)), (2, BitVec.ofNat 64 (2 ^ 29 + 2 ^ 9 + 1)),
      (3, BitVec.ofNat 64 (2 ^ 29 + 2 ^ 9 + 4 * 8 + 1)), (5, BitVec.ofNat 64 (2 ^ 29 + 2 ^ 9 + 2 * 8 + 1)), (6, 0xFFFFFFFF)]
    records := [(0, rec0), (1, rec1), (2, rec2), (3, rec3), (4, rec4)] }

/-- The machine with these tables and this configuration, nobody's turn. -/
def base : State :=
  { State.reset with
    turn := .idle, ttbase := 0x4000, mem := tables, nextId := 100, cfgs := [cfg1], cells := [(0, cell0)]
    tlbs := [(0, entries), (1024, entries)] }

/-- Unit `u` runs at 0x1000, as supervisor, with bank 0 as given, and has the turn. -/
def unit (u : Nat) (g : Table Word) : State := setCtl { base with turn := .ctl u } u { mode := .running, pc := 0x1000, bank0 := g }

/-- The same with the unit changed. -/
def unit' (u : Nat) (x : Ctl) : State := setCtl { base with turn := .ctl u } u { x with mode := .running, pc := 0x1000 }

/-- A firing on cell 0 with T0, T1 and so on as given. -/
def fire (l : List Nat) : Firing := { uid := 50, cfg := 1, temps := l.map (BitVec.ofNat 512) }

/-- Cell 0 is in the firing and has the turn. -/
def cell (f : Firing) : State := setCell { base with turn := .cell 0 } 0 { cell0 with firing := some f }

/-- The same on a cell changed. -/
def cell' (x : Cell) (f : Firing) : State := setCell { base with turn := .cell 0 } 0 { x with firing := some f }

/-- An event has the turn. -/
def event (s : State) (i : Instr) (k : Nat) : State := { s with turn := .event i k }

/-- One item of work, whose event has the turn. -/
def due1 (s : State) (i : Instr) (w : Work) : State := { s with turn := .event i 0, work := [w] }

end Sys2Proof.World

open Sys2Proof.World

/-! ### Witnesses: what the statements ask for is met -/

theorem witness_DecodeEncodeAgree : WellFormed .cell (.iadd 39 47 44 3) = true ∧ WellFormed .core (.jal 31 (-1)) = true := by decide +kernel

theorem witness_EncodeDecodeAgree :
    0x18105000 < 2 ^ 32 ∧ (okAnd (decodeWord .cell 0x18105000 0xFFFFFFFF) fun i => i == .iaddl 1 1 0xFFFFFFFF) = true ∧
    decodesTo .cell [0x5C000360] (.ord 1 1 3) = true := by decide +kernel

theorem witness_StepRunsDecoded :
    (let s := { unit 1024 [] with mem := bytesOf [(0x1000, 8, 0x18105000 + 7 * 2 ^ 32)] ++ tables }
     unpowered s = false ∧ s.turn = .ctl 1024 ∧ (getCtl s 1024).mode = .running ∧
      (okAnd (fetchWords s 1024 0x1000) fun ws => okAnd (decodeWords .core ws) fun q => q.1 == .iaddl 1 1 7) = true) ∧
    (let f := { fire [] with word := 30 }
     let s := cell' { cell0 with store := [(30, 0x40000030), (31, 0x40000028)] } f
     unpowered s = false ∧ (getCell s 0).firing = some f ∧ f.phase = .running ∧
      (okAnd (decodeWords .cell [(tget 0 (getCell s 0).store 30).toNat, (tget 0 (getCell s 0).store 31).toNat]) fun q => q.1 == .nop) = true ∧
      30 + sizeOf' .nop ≤ bits ((getCell s 0).field 0 0) 16 8 + bits ((getCell s 0).field 0 0) 24 5) := by decide +kernel

theorem witness_DefectTraps :
    ((unit 5 []).turn = .ctl 5 ∧ (getCtl (unit 5 []) 5).mode = .running) ∧
    ((cell (fire [])).turn = .cell 0 ∧ (getCell (cell (fire [])) 0).firing = some (fire []) ∧ (fire []).phase = .running) := by decide +kernel

/-- A state that is ready, one with an input under way, and one without power. -/
theorem witness_ReadyStepsComplete :
    Ready base ∧ Ready (event base .launchstRead 0) ∧ Ready { base with power := .pw3 } ∧ unpowered { base with power := .pw3 } = true :=
  ⟨⟨base, .inl rfl, rfl, by decide +kernel⟩,
   ⟨{ base with inputs := [.launchstRead] }, .inr (by decide +kernel), by decide +kernel, by decide +kernel⟩,
   ⟨{ base with power := .pw3 }, .inl rfl, rfl, by decide +kernel⟩, by decide +kernel⟩

theorem witness_MemoryStaysCanonical : Memory.wf base.mem = true ∧ step base = .next (afterStep base) := ⟨by decide +kernel, rfl⟩

theorem witness_GRegisters : 31 < 32 ∧ ({ handler := true } : Ctl).handler = true ∧ ({} : Ctl).handler = false := by decide +kernel

theorem witness_CellDestinations :
    (7 : Spec).toNat ≤ 7 ∧
    ((39 : Spec).toNat = 31 + 8 ∧ (heldView cell0 (fire []) 31).1.st ≠ .empty ∧ (fire []).out.length < 16 ∧
      16 ≤ ({ fire [] with out := List.replicate 16 (.hdrop 0 true) } : Firing).out.length) ∧
    (let v := heldView { cell0 with held := [(0, { st := .empty })] } (fire []) 0
     v.1.st = .empty ∧ v.1.err = false ∧ v.2 = .none) ∧
    (44 : Spec).toNat = 44 ∧ (40 ≤ (63 : Spec).toNat ∧ (63 : Spec).toNat ≠ 44) := by decide +kernel

theorem witness_ControllerArithmetic :
    ((aluOf (.iadd 3 1 44 1)).isSome ∧ CtlRuns (unit 1024 [(1, 5)]) 1024 (.iadd 3 1 44 1) ∧
      ((aluOf (.iadd 3 1 44 1)).any fun q => okAnd (q.eval 64 {} (q.srcs.map fun p => readG (unit 1024 [(1, 5)]) 1024 p.1)) fun _ => true) = true) ∧
    (CtlRuns (unit 0 [(2, 64)]) 0 (.lane 3 1 2 0) ∧
      ((aluOf (.lane 3 1 2 0)).any fun q => isErr (q.eval 64 {} (q.srcs.map fun p => readG (unit 0 [(2, 64)]) 0 p.1))) = true) := by decide +kernel

theorem witness_CellArithmetic :
    (let s := cell (fire [1, 2])
     CellRuns s 0 (fire [1, 2]) (.fadd 2 0 1 0 0) ∧
      ((aluOf (.fadd 2 0 1 0 0)).any fun q => okAnd (q.srcs.mapM fun p => readSpecs s 0 (fire [1, 2]) p.1 p.2) fun vs =>
        okAnd (q.eval 512 (rndCtx s 0 (fire [1, 2])) vs.flatten) fun o => okAnd (writeSpecs s 0 (fire [1, 2]) q.dst o.vals) fun _ => true) = true) ∧
    (let s := cell (fire [1, 512])
     CellRuns s 0 (fire [1, 512]) (.lane 2 0 1 0) ∧
      ((aluOf (.lane 2 0 1 0)).any fun q => okAnd (q.srcs.mapM fun p => readSpecs s 0 (fire [1, 512]) p.1 p.2) fun vs =>
        isErr (q.eval 512 (rndCtx s 0 (fire [1, 512])) vs.flatten)) = true) := by decide +kernel

theorem witness_LaneIn : LaneIn 512 64 7 ∧ LaneIn 64 32 1 ∧ LaneIn 512 8 63 ∧ (0 < 512 / (2 * 64)) := by decide +kernel

theorem witness_FloatLanes :
    (fpFmt 2).decode 0x7E01 = .nan ∧ (fpFmt 2).decode 0x3C00 ≠ .nan ∧ 0x3C00 < 2 ^ (fpFmt 2).width ∧
    (fpFmt 0).decode 0xFFC00001 = .nan ∧ (fpFmt 0).decode 0x80000000 ≠ .nan ∧ 0x80000000 < 2 ^ (fpFmt 0).width ∧
    (∀ f ∈ [(0 : BitVec 2), 1, 2], f.toNat ≤ 2 ∧ LaneIn 512 (fpFmt f).width (512 / (fpFmt f).width - 1) ∧
      ∀ v ∈ [0, 1, 2 ^ ((fpFmt f).width - 1) + 5], ((fpFmt f).decode (lane (fpFmt f).width v 0)).finite = true) ∧
    (∀ q ∈ [(8, 13), (13, 8), (9, 10), (8, 4), (10, 16)], (numFmt q.1).isSome = true ∧ (numFmt q.2).isSome = true ∧
      15 < 512 / max (fmtBits q.1) (fmtBits q.2)) := by decide +kernel

/-! ### Witnesses: controllers and cores -/

theorem witness_BranchesAndJumps :
    ((branches (.bltu 1 2 4095)).isSome ∧ CtlRuns (unit 0 [(1, 3), (2, 4)]) 0 (.bltu 1 2 4095) ∧
      (branches (.beq 1 44 (-4096))).isSome ∧ CtlRuns (unit 1024 []) 1024 (.beq 1 31 (-4096))) ∧
    (CtlRuns (unit 0 []) 0 (.jal 31 (-1)) ∧ pcRel 0x1000 (-1 : BitVec 21) % 4 = 0) ∧
    (CtlRuns (unit 0 [(5, 0x2000)]) 0 (.jalr 5) ∧ ((getCtl (unit 0 [(5, 0x2000)]) 0).g 5).toNat % 4 = 0) ∧
    (CtlRuns (unit 0 [(5, 2)]) 0 (.jalr 5) ∧ ((getCtl (unit 0 [(5, 2)]) 0).g 5).toNat % 4 ≠ 0) := by decide +kernel

theorem witness_ControllerMemory :
    (let s := unit 1024 [(1, 0x20007), (2, 5)]
     let p := past s 1024 (.ldc 2 1 44 4)
     CtlRuns s 1024 (.ldc 2 1 44 4) ∧ 0x20007 < 2 ^ 56 ∧ 0x20007 % 1 = 0 ∧
      (okAnd (translate p (ctlStream 1024) (ctlSrc p 1024 0x1000) .read 0x20007 1) fun q => q.1 == 0x20007) = true ∧ poisonedRange s 0x20007 1 = false ∧
      raceOf p ⟨0, ctlSrc p 1024 0x1000, .load, [⟨0x20007 * 8, 8, false, 0x20007⟩], 3, 0, 0⟩ = none) ∧
    (let s := unit 0 [(1, 0x20000), (2, 8), (3, 5)]
     let p := past s 0 (.stc 3 1 2 3)
     CtlRuns s 0 (.stc 3 1 2 3) ∧ (readG s 0 1 + readG s 0 2) % 8 = 0 ∧ s.drains = [] ∧
      (okAnd (translate p (ctlStream 0) (ctlSrc p 0 0x1000) .write 0x20008 8) fun q => q.1 == 0x20008) = true ∧ poisonedRange s 0x20008 8 = false ∧
      raceOf p ⟨0, ctlSrc p 0 0x1000, .store, [⟨0x20008 * 8, 64, true, 0x20008⟩], 3, 0, 0⟩ = none) ∧
    (2 ^ 56 ≤ (readG (unit 0 [(1, 2 ^ 56)]) 0 1 + readG (unit 0 [(1, 2 ^ 56)]) 0 44) % 2 ^ 64 ∧ CtlRuns (unit 0 [(1, 2 ^ 56)]) 0 (.ldc 2 1 44 0) ∧
      CtlRuns (unit 0 [(1, 2 ^ 56)]) 0 (.stc 2 1 44 0)) ∧
    ((readG (unit 0 [(1, 1)]) 0 1 + readG (unit 0 [(1, 1)]) 0 44) % 2 ^ 64 % 2 ^ ((1 : BitVec 3).toNat % 4) ≠ 0 ∧
      CtlRuns (unit 0 [(1, 1)]) 0 (.ldc 2 1 44 1) ∧ CtlRuns (unit 0 [(1, 1)]) 0 (.stc 2 1 44 1)) := by decide +kernel

theorem witness_ControlRegisters :
    (CtlRuns (unit 0 []) 0 (.crd 2 59) ∧ (okAnd (crCheck (unit 0 []) 0 59 false) fun _ => true) = true) ∧
    (CtlRuns (unit 0 [(1, 7)]) 0 (.cwr 1 58) ∧ (okAnd (crCheck (unit 0 [(1, 7)]) 0 58 true) fun _ => true) = true ∧
      crFits 58 (readG (unit 0 [(1, 7)]) 0 1) = true) ∧
    (crKind false 63 = .none ∧ crKind false 59 = .readOnly ∧ CtlRuns (unit 0 []) 0 (.crd 2 63) ∧ CtlRuns (unit 0 []) 0 (.cwr 2 59)) ∧
    (crKind false 96 = .superRead ∧ crKind false 64 = .superWrite ∧ CtlRuns (unit' 0 { user := true }) 0 (.crd 2 96) ∧
      CtlRuns (unit' 0 { user := true }) 0 (.cwr 2 64) ∧ (getCtl (unit' 0 { user := true }) 0).user = true) ∧
    (crFits 58 (readG (unit 0 [(1, 8)]) 0 1) = false ∧ CtlRuns (unit 0 [(1, 8)]) 0 (.cwr 1 58)) := by decide +kernel

theorem witness_CommandRegisters :
    (let s := unit' 1024 { bank0 := [(1, 3)], disppc := 0x2000 }
     CtlRuns s 1024 (.dispgo 1) ∧ (getCtl s 1024).user = false ∧ crFits 99 (readG s 1024 1) = true ∧ bit (readG s 1024 1) 14 = false ∧
      unitSecure s 3 = false ∧ (getCtl s 3).mode = .idle ∧ (getCtl s 3).handler = false) ∧
    (let s := unit 1024 [(1, BitVec.ofNat 64 (2 ^ 14))]
     CtlRuns s 1024 (.dispgo 1) ∧ crFits 99 (readG s 1024 1) = true ∧ bit (readG s 1024 1) 14 = true ∧ bit (readG s 1024 1) 15 = false ∧
      bits (readG s 1024 1) 4 6 = 0 ∧ unitSecure s 1024 = false ∧ (getCtl s 1024).mode ≠ .idle) ∧
    (CtlRuns (unit 1024 [(1, 2)]) 1024 (.pwreqStandby 1) ∧ readG (unit 1024 [(1, 2)]) 1024 1 = 2) ∧
    (CtlRuns (unit 1024 []) 1024 (.pwreqWithdraw 1) ∧ readG (unit 1024 []) 1024 1 = 0) := by decide +kernel

/-- A frame record of cell 0's frame 0, a CONTROL record and an SVC record of unit 7. -/
def Sys2Proof.World.frameRec : TrapRec := { words := [BitVec.ofNat 64 (9 * 2 ^ 56)], cfg := 1 }
def Sys2Proof.World.unitRec (kind : Nat) : TrapRec := { words := [BitVec.ofNat 64 (9 * 2 ^ 56 + kind * 2 ^ 37)], unit := 7 }

theorem witness_UnitTraps :
    (255 < 256 ∧ (getCtl (unit 0 []) 0).handler = false ∧ superCore (unit 0 []) 0 (unitSecure (unit 0 []) 0) = some 1024 ∧ RecordRoom (unit 0 []) 1024) ∧
    (let r : TrapRec := { words := List.replicate 24 0, cfg := 1 }
     let s := unit' 0 { handler := true, rcd := some r }
     (getCtl s 0).handler = true ∧ isCore 0 = false ∧ (getCtl s 0).rcd = some r ∧ r.words.length = 24 ∧
      superCore s 0 (getCfg s r.cfg).secure = some 1024 ∧ RecordRoom s 1024) ∧
    ((getCtl (unit' 1024 { handler := true }) 1024).handler = true ∧ isCore 1024 = true) ∧
    ((getCtl (unit' 1023 { handler := true }) 1023).handler = true ∧ isCore 1023 = false ∧ (getCtl (unit' 1023 { handler := true }) 1023).rcd = none) := by
  decide +kernel

theorem witness_HandlerEntry :
    (let s := event (unit' 0 { queue := [frameRec] }) .trapTake 0
     (getCtl s 0).queue = [frameRec] ∧ s.turn = .event .trapTake 0 ∧ isCore 0 = false ∧ trapReady (getCtl s 0) = true ∧ recordDue s frameRec = true) ∧
    (let s := event (unit' 1024 { queue := [frameRec], svvec := 0x3000 }) .supervisorTrapTake 1024
     (getCtl s 1024).queue = [frameRec] ∧ isCore 1024 = true ∧ superReady (getCtl s 1024) = true) := by decide +kernel

theorem witness_SupervisorCall :
    (CtlRuns (unit 0 [(5, 8)]) 0 (.svc 4 5 63) ∧ (getCtl (unit 0 [(5, 8)]) 0).handler = false ∧
      superCore (unit 0 [(5, 8)]) 0 (unitSecure (unit 0 [(5, 8)]) 0) = some 1024 ∧ RecordRoom (unit 0 [(5, 8)]) 1024) ∧
    (CtlRuns (unit' 0 { handler := true }) 0 (.svc 4 5 12) ∧ (getCtl (unit' 0 { handler := true }) 0).handler = true) := by decide +kernel

theorem witness_ExceptionReturn :
    (let s := unit' 1024 { handler := true, queue := [frameRec], svvec := 0x3000, saved := { mode := .running } }
     CtlRuns s 1024 .eret ∧ (getCtl s 1024).user = false ∧ (getCtl s 1024).handler = true ∧ isCore 1024 = true ∧ (getCtl s 1024).queue ≠ [] ∧
      (getCtl s 1024).svvec ≠ 0 ∧ (getCtl s 1024).wait = none ∧ (getCtl s 1024).saved.mode ≠ .dead) ∧
    (CtlRuns (unit' 0 { user := true }) 0 .eret ∧ (getCtl (unit' 0 { user := true }) 0).user = true) ∧
    (CtlRuns (unit 1024 []) 1024 .eret ∧ ¬ (isCore 1024 = true ∧ (getCtl (unit 1024 []) 1024).handler = true)) := by decide +kernel

/-- A unit in its handler, with the record in force; frame 0 is stopped, unit 7 halted. -/
def Sys2Proof.World.inHandler (u : Nat) (r : TrapRec) : State :=
  let s := unit' u { handler := true, rcd := some r }
  setCtl { s with cfgs := [{ cfg1 with frames := [(0, { live := true, stopped := some frameRec })] }] } 7 { mode := .halted, pc := 0x100, svcDst := 31 }

theorem witness_Resolution :
    (∀ i : Instr, i = .fres 5 ∨ i = .fskip →
      CtlRuns (inHandler 0 frameRec) 0 i ∧ (okAnd (resolvable (past (inHandler 0 frameRec) 0 i) 0) fun r => r == frameRec && decide (r.kind ≤ 2)) = true ∧
      CtlRuns (inHandler 1024 (unitRec 4)) 1024 i ∧
      (okAnd (resolvable (past (inHandler 1024 (unitRec 4)) 1024 i) 1024) fun r => r.kind == kSVC) = true ∧
      CtlRuns (inHandler 1024 (unitRec 3)) 1024 i ∧
      (okAnd (resolvable (past (inHandler 1024 (unitRec 3)) 1024 i) 1024) fun r => r.kind == kCONTROL) = true ∧
      CtlRuns (unit 0 []) 0 i) ∧
    (let r : TrapRec := { words := [BitVec.ofNat 64 (9 * 2 ^ 56 + 2 ^ 37)], cfg := 0 }
     CtlRuns (inHandler 1024 r) 1024 (.fres 5) ∧ CtlRuns (inHandler 1024 r) 1024 .fskip ∧
      (okAnd (resolvable (past (inHandler 1024 r) 1024 .fskip) 1024) fun q => q == r && r.frameless) = true) ∧
    (CtlRuns (inHandler 0 frameRec) 0 .escal ∧ isCore 0 = false ∧ inForce (getCtl (inHandler 0 frameRec) 0) = some frameRec ∧
      superCore (inHandler 0 frameRec) 0 (getCfg (inHandler 0 frameRec) 1).secure = some 1024 ∧ RecordRoom (inHandler 0 frameRec) 1024) ∧
    (inForce (getCtl (unit 0 []) 0) = none ∧ CtlRuns (unit 0 []) 0 .escal) ∧
    ((getCtl (inHandler 0 frameRec) 7).handler = false ∧ (getCtl (inHandler 0 frameRec) 7).svcDst < 32 ∧ (findCfg (inHandler 0 frameRec) 1).isSome = true ∧
      (∀ t ∈ [({ cfg := 1, frame := 0 } : Token)], t.cfg = 1 ∧ t.frame = 0)) := by
  refine ⟨fun i h => ?_, by decide +kernel, by decide +kernel, by decide +kernel, by decide +kernel⟩
  rcases h with rfl | rfl <;> decide +kernel

theorem witness_TranslationInvalidate :
    (let s := unit 1024 [(1, BitVec.ofNat 64 (2 ^ 56 - 1)), (2, 255)]
     CtlRuns s 1024 (.tlbinv 1 2) ∧ (getCtl s 1024).user = false ∧ readG s 1024 1 < 2 ^ 56 ∧ readG s 1024 2 ≤ 255) ∧
    (let s := unit 1024 []
     CtlRuns s 1024 (.tlbinv 44 44) ∧ (getCtl s 1024).user = false) ∧
    (CtlRuns (unit' 0 { user := true }) 0 (.tlbinv 1 2) ∧ (getCtl (unit' 0 { user := true }) 0).user = true) ∧
    (let s := unit 0 [(1, BitVec.ofNat 64 (2 ^ 56)), (2, 256)]
     CtlRuns s 0 (.tlbinv 1 44) ∧ 2 ^ 56 ≤ readG s 0 1 ∧ CtlRuns s 0 (.tlbinv 44 2) ∧ 255 < readG s 0 2) := by decide +kernel

/-- With nothing under way nothing uses an entry; a check of an access to the page does. -/
theorem witness_TranslationInvalidate_uses :
    NoneUses (unit 1024 []) (some 5) (some 0) ∧
    ¬ NoneUses { unit 1024 [] with inflight := [⟨60, {}, .store, [⟨40, 8, true, 5⟩], 3, 0, 0⟩] } (some 5) (some 0) := by
  refine ⟨?_, fun h => h.1 _ (List.mem_singleton_self _) _ (List.mem_singleton_self _) ?_⟩
  · have a : (unit 1024 []).inflight = [] := by decide +kernel
    have b : heldBars (unit 1024 []) = [] := by decide +kernel
    have c : (unit 1024 []).drains = [] := by decide +kernel
    have d : (unit 1024 []).work = [] := by decide +kernel
    simp [NoneUses, a, b, c, d]
  · simp [Uses]

theorem witness_SecureMonitorCalls :
    (CtlRuns (unit' 1024 { wait := some 9, reply := some 3 }) 1024 (.smcGetrgn 1 2 3) ∧
      (getCtl (unit' 1024 { wait := some 9, reply := some 3 }) 1024).wait = some 9 ∧
      (getCtl (unit' 1024 { wait := some 9, reply := some 3 }) 1024).reply = some 3) ∧
    (CtlRuns (unit 1024 []) 1024 (.smcSetblk 1 2 3) ∧ (getCtl (unit 1024 []) 1024).user = false ∧ (getCtl (unit 1024 []) 1024).wait = none) ∧
    (CtlRuns (unit' 0 { user := true }) 0 (.smcSetrgn 1 2 3) ∧ CtlRuns (unit' 0 { user := true }) 0 (.smcGetblk 1 2 3) ∧
      (getCtl (unit' 0 { user := true }) 0).user = true) := by decide +kernel

theorem witness_BlackBoxAccess :
    (getCtl (unit 1024 [(2, 3)]) 1024).user = false ∧ CtlRuns (unit 1024 [(2, 3)]) 1024 (.bbox 28 1 2) ∧ readG (unit 1024 [(2, 3)]) 1024 2 ≤ 3 ∧
    CtlRuns (unit 1024 []) 1024 (.bboxWr 1 2) := by decide +kernel

/-- A block at 0x15000: one region of 4 KiB from 0x40000 to HBM; its header W3 as given (R447). -/
def Sys2Proof.World.ckptBlock (s : State) (st : Nat) : State :=
  { s with mem := tables ++ bytesOf [(0x15000, 8, 1), (0x15018, 8, st), (0x15040, 8, 0x40000), (0x15048, 8, 0x1000), (0x15050, 8, 2 ^ 30 + 0x50000)] }

theorem witness_Checkpoints :
    (let s := ckptBlock (unit 1024 [(5, 0x15000)]) 0
     ∀ rest ∈ [false, true], CtlRuns s 1024 (if rest then .ckptRest 3 5 else .ckpt 3 5) ∧
      (okAnd (ckptStart (past s 1024 (if rest then .ckptRest 3 5 else .ckpt 3 5)) 1024 0x1000 0x15000 rest) fun q => q.2 == 0) = true) ∧
    (let s := { ckptBlock (unit 1024 [(5, 0x15000)]) 0 with drains := [(0, List.replicate 4 {})] }
     (okAnd (ckptStart (past s 1024 (.ckpt 3 5)) 1024 0x1000 0x15000 false) fun q => q.2 == 1) = true) ∧
    (let s := { ckptBlock (unit 1024 [(5, 0x15000)]) 0 with drains := [(0, [{ regions := [(0x40000, 0x10000060000, 0x1000)] }])] }
     (okAnd (ckptStart (past s 1024 (.ckpt 3 5)) 1024 0x1000 0x15000 false) fun q => q.2 == 2) = true) ∧
    (let s := ckptBlock (unit 1024 [(5, 0x15000)]) (2 * 2 ^ 48)
     ∀ i ∈ [.ckptPoll 3 5, .ckptWait 3 5], CtlRuns s 1024 i ∧
      (okAnd (ckptState (past s 1024 i) 1024 0x1000 0x15000) fun w => bits w 48 16 == 2) = true) ∧
    (let s := ckptBlock (unit 1024 [(5, 0x15000)]) (2 ^ 48)
     CtlRuns s 1024 (.ckptWait 3 5) ∧ (okAnd (ckptState (past s 1024 (.ckptWait 3 5)) 1024 0x1000 0x15000) fun w => bits w 48 16 == 1) = true ∧
      CtlRuns s 1024 (.ckptAbort 3 5) ∧ (okAnd (ckptState (past s 1024 (.ckptAbort 3 5)) 1024 0x1000 0x15000) fun _ =>
        okAnd (translate (past s 1024 (.ckptAbort 3 5)) (ctlStream 1024) (ctlSrc (past s 1024 (.ckptAbort 3 5)) 1024 0x1000) .read 0x15000 64) fun _ =>
          true) = true) := by decide +kernel

/-! ### Witnesses: cells -/

theorem witness_Emissions :
    (let f := fire [5]
     let s := cell f
     f.out.length < 16 ∧ (okAnd (readSpec s 0 f 44) fun _ => true) = true ∧ (okAnd (readSpec s 0 f 0) fun v => v == 5) = true ∧
      CellRuns s 0 f (.emit 3 0 44 5) ∧ Usable s 0 f 3 false ∧ CellRuns s 0 f (.emitz 0 44 0) ∧ Usable s 0 f 0 false ∧
      CellRuns s 0 f (.emitq 1 0 44) ∧ Usable s 0 f 1 true ∧ CellRuns s 0 f (.bound 0 0 44) ∧ 1 ≤ 5 % 2 ^ 32 ∧ 5 % 2 ^ 32 < 2 ^ 24) := by decide +kernel

theorem witness_Emissions_tag_count_trap :
    (let f := fire [5, 2 ^ 24 - 1]
     (okAnd (readSpec (cell f) 0 f 1) fun w => w % 2 ^ 32 == 2 ^ 24 - 1) = true ∧ CellRuns (cell f) 0 f (.emit 0 0 1 0)) ∧
    (let w := 4 + 2 ^ 8 + 2 ^ 9 + 2 ^ 10 + 0xFFFFFF * 2 ^ 32 + 1023 * 2 ^ 64
     let f := fire [5, w]
     let s := cell f
     CellRuns s 0 f (.emitn 0 0 1 2) ∧ Usable s 0 f 0 false ∧ (okAnd (readSpec s 0 f 1) fun v => v == w) = true ∧ bits w 11 21 = 0 ∧ 1 ≤ bits w 0 8 ∧
      bits w 0 8 ≤ classUnit 2 * (classCount 2 + 1) ∧ bits w 0 8 % classUnit 2 = 0 ∧ bits w 56 8 = 0 ∧ bits w 74 22 = 0) ∧
    (let f := { fire [5] with out := List.replicate 16 (.hdrop 0 true) }
     CellRuns (cell f) 0 f (.emit 2 0 44 0) ∧ ¬ Usable (cell f) 0 f 2 false ∧ ¬ Usable (cell f) 0 f 1 false ∧ Usable (cell f) 0 f 0 false ∧
      16 ≤ f.out.length ∧ (okAnd (readSpec (cell f) 0 f 0) fun _ => true) = true) := by decide +kernel

theorem witness_EndAndNop :
    (let f := { fire [] with emitted := [1, 1, 0, 1] }
     CellRuns (cell f) 0 f .endFiring ∧ f.race = none ∧ f.fault = none ∧
      ∀ k, k < 4 → ((getCell (cell f) 0).route f.ctx k).en = true → f.emitted.getD k 0 = ((getCell (cell f) 0).route f.ctx k).rate) ∧
    (let f := { fire [] with emitted := [1, 1, 0, 2] }
     CellRuns (cell f) 0 f .endFiring ∧ ((getCell (cell f) 0).route f.ctx 3).en = true ∧
      f.emitted.getD 3 0 ≠ ((getCell (cell f) 0).route f.ctx 3).rate) ∧
    CellRuns (cell (fire [])) 0 (fire []) .nop := by decide +kernel

theorem witness_HeldRegisters :
    (let x := { cell0 with recipes := [(15, 0x8000)], store := [(0, 0x067B2C00)], held := [(31, { tag := some 15 })] }
     let f := fire []
     let s := cell' x f
     let h := (heldView (getCell s 0) f 31).1
     (39 : Spec).toNat = 31 + 8 ∧ CellRuns s 0 f (.hrec 39 15) ∧ recipeFits (getCell s 0) 15 31 = true ∧ CellRuns s 0 f (.hrecClr 39) ∧ h.st ≠ .dropped ∧
      CellRuns s 0 f (.hdrop 39) ∧ h.tag.isSome = true ∧ ownProducer f 31 = false ∧ CellRuns s 0 f (.hfill 39) ∧ h.st = .full ∧ h.err = false ∧
      CellRuns s 0 f (.hstat 0 39) ∧ bits 0x1F0 0 2 = 0 ∧ bit 0x1F0 2 = false ∧ bit 0x1F0 3 = h.err ∧ bits 0x1F0 4 4 = h.tag.getD 0 % 16 ∧
      bit 0x1F0 8 = h.tag.isSome ∧ bit 0x1F0 9 = trapPolicy (getCell s 0) f.ctx 31 ∧ (okAnd (writeSpec s 0 f 0 0x1F0) fun _ => true) = true ∧
      CellRuns s 0 f (.hcap 44) ∧ (okAnd (writeSpec s 0 f 44 (getCell s 0).hcap) fun _ => true) = true) := by decide +kernel

theorem witness_HeldRegisters_states :
    (∀ h ∈ [({ st := .empty } : HeldReg), { st := .empty, err := true }, { err := true }], let s := cell' { cell0 with held := [(31, h)] } (fire [])
     CellRuns s 0 (fire []) (.hfill 39) ∧ heldView (getCell s 0) (fire []) 31 = (h, .none)) ∧
    (∀ e ∈ [Entry.fill 31 5 false, .cmd (.tclr 1) (some 31)], let f := { fire [] with out := [e] }
     (heldView (getCell (cell f) 0) f 31).1.st = .empty ∧ (heldView (getCell (cell f) 0) f 31).2 ≠ .none ∧ CellRuns (cell f) 0 f (.hfill 39)) ∧
    (let f := { fire [] with out := [.hdrop 31 true] }
     let s := cell' { cell0 with held := [(31, { tag := some 15 })] } f
     (heldView (getCell s 0) f 31) = ({ st := .dropped, tag := some 15 }, .drop) ∧ f.memo 31 = none ∧ CellRuns s 0 f (.hfill 39) ∧
      (match replayWith s 0 f (readInRecipe s 0 f 1) 31 (some 15) with | .error (.trap e) => e.cause == cRECIPE | _ => false) = true) := by decide +kernel

/-- Register 31 is DROPPED, and recipe 15 rebuilds it from one word, IADD of Z and Z. -/
theorem witness_HeldRegisters_replay :
    let f := fire []
    let s := cell' { cell0 with recipes := [(15, 0x8000)], store := [(0, 0x067B2C00)], held := [(31, { st := .dropped, tag := some 15 })] } f
    heldView (getCell s 0) f 31 = ({ st := .dropped, tag := some 15 }, .none) ∧ f.memo 31 = none ∧ CellRuns s 0 f (.hfill 39) ∧
      recipeOf (getCell s 0) 15 = some (0, 1) ∧ (okAnd (recipeInstrs (getCell s 0) 1 0) fun is => is == [.iadd 39 44 44 0]) = true ∧
      Rebuilds s 0 f 31 [.iadd 39 44 44 0] 0 0 := by
  intro f s
  have e : (okAnd ((semIadd 39 44 44 0).eval 512 (rndCtx s 0 f) (recipeArgs (getCell s 0) f 31 0 (semIadd 39 44 44 0))) fun o =>
      o.vals.getD 0 0 % 2 ^ 512 == 0) = true := by decide +kernel
  obtain ⟨o, ho, hv⟩ := of_okAnd e
  refine ⟨by decide +kernel, by decide +kernel, by decide +kernel, by decide +kernel, by decide +kernel, _, o, rfl, by decide +kernel, by decide +kernel,
    ho, (beq_iff_eq.mp hv).symm⟩

theorem witness_FiringTraps :
    (let f := fire [7]
     let s := cell f
     0 < 65536 ∧ (getCtl s (groveOf 0)).queue.length < 32 ∧ (getCtl s (groveOf 0)).parked = [] ∧ (getCell s 0).firing = some f ∧ f.race = none ∧ checksPending s f.uid = false ∧ findCfg s f.cfg = some cfg1 ∧ cfg1.st ≠ .saved ∧
      (cfg1.frame f.frame).stopped = none ∧ cfg1.w 5 ≠ 0 ∧ CellRuns s 0 f (.trap 0 63) ∧ (okAnd (readSpec s 0 f 0) fun _ => true) = true ∧
      CellRuns s 0 f (.brkp 5) ∧ bit (getCtl s (groveOf 0)).dbgctl.toNat 0 = false) ∧
    (let s := setCtl (cell (fire [])) 0 { dbgctl := 1 }
     CellRuns s 0 (fire []) (.brkp 0) ∧ bit (getCtl s (groveOf 0)).dbgctl.toNat 0 = true) := by decide +kernel

theorem witness_Loads :
    (let f := fire [48]
     let s := cell f
     (loads (.ld 1 0 0 0 1 4)).isSome ∧ CellRuns s 0 f (.ld 1 0 0 0 1 4) ∧ f.out.length < 15 ∧ Ordered s 0 f 0 1 ∧
      (okAnd (useRecord (getCell s 0) 0 0 false) fun rc => okAnd (readSpec s 0 f 0) fun o => okAnd (loadCore s (memOf s 0 f) .ld rc o) fun v =>
        v.err.isNone && watchHit s 0 false v.pieces == none && okAnd (writeSpec s 0 f 1 v.value) fun _ => true) = true) ∧
    (let f := fire [15]
     let s := cell f
     (loads (.ldg 39 0 0 0 0 0)).isSome ∧ CellRuns s 0 f (.ldg 39 0 0 0 0 0) ∧ heldIdx 39 = some 31 ∧ Ordered s 0 f 0 0 ∧
      (okAnd (useRecord (getCell s 0) 0 0 false) fun rc => okAnd (readSpec s 0 f 0) fun o => okAnd (loadCore s (memOf s 0 f) .ldg rc o) fun v =>
        v.err.isNone && watchHit s 0 false v.pieces == none && okAnd (writeWait s 0 f 31) fun _ => true) = true) ∧
    (let f := fire [15]
     let s := setCtl (cell f) 0 { wlen := 0xFFFFFFFF, wctl := 3 }
     CellRuns s 0 f (.ldg 1 0 0 0 0 0) ∧
      (okAnd (useRecord (getCell s 0) 0 0 false) fun rc => okAnd (loadCore s (memOf s 0 f) .ldg rc 15) fun v =>
        v.err.isNone && (watchHit s 0 false v.pieces).isSome && okAnd (writeSpec s 0 f 1 v.value) fun _ => true) = true) := by decide +kernel

/-- Element 63 of record 0 lies at its last word, and element 64 OUTSIDE a record with pad. -/
theorem witness_Loads_elements :
    let f := fire [60, lane 512 (ofLanes 32 [3, 4]) 0]
    let s := cell f
    getViews s 0 = [] ∧
    (∀ l ∈ [LoadOp.ld, .ldb, .ldx, .ldg, .ldgx], (okAnd (loadCore s (memOf s 0 f) l (recOf rec0) (if l = .ldg ∨ l = .ldgx then ofLanes 32 [3, 63] else 48)) fun v =>
      v.err.isNone) = true ∧ ((l.offs 32 (if l = .ldg ∨ l = .ldgx then ofLanes 32 [3, 63] else 48))[0]?).isSome = true) ∧
    (okAnd ((recOf rec0).elem 63) fun e => e == .at_ (0x20000 * 8 + 63 * 32)) = true ∧
    (let r := recOf (rec0 ||| BitVec.ofNat 256 (2 ^ 56))
     (okAnd (r.elem 64) fun e => e == .outside) = true ∧ (okAnd (loadCore s (memOf s 0 f) .ld r 60) fun v => v.err.isNone) = true ∧
      (LoadOp.ld.offs 32 60)[4]? = some 64) := by decide +kernel

theorem witness_StoresAndAtomics_elements :
    let f := fire [3]
    let s := cell f
    (∀ q ∈ [(StoreOp.st, rec0), (.stg, rec0), (.stx, rec2), (.stnf, rec2)],
      (okAnd (storeCore s (memOf s 0 f) q.1 (recOf q.2) q.2 7 48 3 60) fun z => z.acc.pieces.length == 16) = true ∧ ((q.1.offs 32 48)[15]?).isSome = true) ∧
    (∀ op ∈ [1, 5, 7], (okAnd (atomicCore s (memOf s 0 f) op (recOf rec4) rec4 7 8 48 3 60) fun z => z.pieces.length == 16) = true) ∧
    (let r := rec0 ||| BitVec.ofNat 256 (2 ^ 56)
     (okAnd ((recOf r).elem 64) fun e => e == .outside) = true ∧ (okAnd (storeCore s (memOf s 0 f) .st (recOf r) r 7 60 3 60) fun z => z.acc.pieces.length == 4) = true ∧
      (okAnd (atomicCore s (memOf s 0 f) 1 (recOf (rec4 ||| BitVec.ofNat 256 (2 ^ 56))) rec4 7 8 60 3 60) fun z => z.pieces.length == 4) = true) ∧
    15 < 512 / (if (recOf rec4).bits = 64 then 64 else 32) ∧ (numFmt (recOf rec2).fmt).isSome = true ∧ (recOf rec2).nf0 = false ∧
    (match numFmt 4 with | some (.int _) => true | _ => false) = true ∧ (fF32.decode (lane 32 0x7FC00000 0)).finite = false ∧ (fF32.decode (lane 32 0x3F800000 0)).finite = true ∧
    (recOf (rec0 ||| BitVec.ofNat 256 (2 ^ 60))).nf0 = true := by decide +kernel

theorem witness_StoresAndAtomics :
    (let f := fire [3, 16]
     let s := cell f
     (stores (.stg 0 1 0 0 1 3)).isSome ∧ CellRuns s 0 f (.stg 0 1 0 0 1 3) ∧ f.out.length < 15 ∧ Ordered s 0 f 0 1 ∧
      (okAnd (useRecord (getCell s 0) 0 0 true) fun rc => okAnd (readSpec s 0 f 0) fun v => okAnd (readSpec s 0 f 1) fun o =>
        okAnd (storeCore s (memOf s 0 f) .stg rc rec0 v o 3 s.nextId) fun z => watchHit s 0 true z.acc.pieces == none) = true) ∧
    (let f := fire [3, 4, 16]
     let s := cell f
     (atomics (.aadd 0 2 4 0 1 4)).isSome ∧ CellRuns s 0 f (.aadd 0 2 4 0 1 4) ∧ (atomics (.acas 0 2 4 0 0 0)).isSome ∧
      CellRuns s 0 f (.acas 0 2 4 0 0 0) ∧ Ordered s 0 f 0 1 ∧
      (∀ op ∈ [1, 5], (okAnd (useRecord (getCell s 0) 0 4 true) fun rc => okAnd (readSpecs s 0 f 0 (if op = 5 then 2 else 1)) fun vs =>
        okAnd (readSpec s 0 f 2) fun o => okAnd (atomicCore s (memOf s 0 f) op rc rec4 (vs.getD 0 0) (vs.getD 1 0) o 0 s.nextId) fun z => watchHit s 0 true z.pieces == none) = true)) ∧
    (let f := fire [3, 16]
     let s := setCtl (cell f) 0 { wlen := 0xFFFFFFFF, wctl := 5 }
     CellRuns s 0 f (.stg 0 1 0 0 1 3) ∧ CellRuns s 0 f (.aadd 0 1 4 0 0 4) ∧
      (okAnd (useRecord (getCell s 0) 0 0 true) fun rc => okAnd (storeCore s (memOf s 0 f) .stg rc rec0 3 16 3 s.nextId) fun z =>
        (watchHit s 0 true z.acc.pieces).isSome) = true ∧
      (okAnd (useRecord (getCell s 0) 0 4 true) fun rc => okAnd (atomicCore s (memOf s 0 f) 1 rc rec4 3 0 16 0 s.nextId) fun z =>
        (watchHit s 0 true z.pieces).isSome) = true) := by
  decide +kernel

theorem witness_OrderingInstructions :
    (let f := fire [BitVec.toNat (2 ^ 31 : BitVec 64)]
     let s := cell f
     Ordered s 0 f 0 1 ∧ f.out.length < 15 ∧ CellRuns s 0 f (.seqcl 0 3 0 1 4) ∧
      (okAnd (useRecord (getCell s 0) 0 3 false) fun rc => okAnd (seqclCore s (memOf s 0 f) rc rec3 none 4 s.nextId) fun _ => true) = true ∧
      CellRuns s 0 f (.ord 0 1 0) ∧ CellRuns s 0 f (.ordw 0 1 4)) ∧
    (let f := fire [0, 2 ^ 31]
     let s := cell f
     Ordered s 0 f 0 0 ∧ CellRuns s 0 f (.seqcl 1 3 0 0 0) ∧ (okAnd (readSpec s 0 f 1) fun v => v == 2 ^ 31) = true ∧
      (okAnd (useRecord (getCell s 0) 0 3 false) fun rc => okAnd (seqclCore s (memOf s 0 f) rc rec3 (some (2 ^ 31)) 0 s.nextId) fun _ => true) = true) := by
  decide +kernel

/-- A copy of 64 elements on tag 63 that counts on the barrier at the start of the barrier pages (R253), with or without a token. -/
def Sys2Proof.World.copyCtl4 (tok : Nat) : Nat := (64 + 63 * 2 ^ 40 + 2 ^ 46 + tok * 2 ^ 47 + 3 * 2 ^ 50) * 2 ^ 128 + 2 ^ 31 * 2 ^ 192

/-- The block of a controller's copy at 0x15000: source record, destination record, control (R255). -/
def Sys2Proof.World.copyWorld (u : Nat) (g : Table Word) : State :=
  { unit u g with mem := tables ++ bytesOf [(0x15000, 32, rec0.toNat), (0x15020, 32, rec1.toNat), (0x15040, 32, copyCtl4 0)] }

theorem witness_CopyCommands :
    (let f := fire [copyCtl4 0, 5]
     let s := cell f
     f.out.length < 16 ∧ CellRuns s 0 f (.scopyCell 1 0 0) ∧ CellRuns s 0 f (.sxformCell 1 0 0) ∧ bits (copyCtl4 0) 256 256 = 0 ∧
      (∀ x ∈ [false, true], (okAnd (useRecord (getCell s 0) 0 0 false) fun _ => okAnd (useRecord (getCell s 0) 0 1 x) fun _ =>
        okAnd (readSpec s 0 f 0) fun v => okAnd (copyChecks s (firingSrc s 0 f) rec0 (if x then rec2 else rec1) v x (fun _ => none) (fun _ => 0) (ownOnTag f)) fun _ =>
          true) = true) ∧
      CellRuns s 0 f (.scancel 1)) ∧
    (let s := copyWorld 0 [(5, 0x15000), (6, 3)]
     (CellRuns (cell (fire [])) 0 (fire []) .nop ∧ CtlRuns s 0 (.scopyCtrl 5) ∧ CtlRuns s 0 (.sxformCtrl 5) ∧ CtlRuns s 0 (.sbind 1 5 6) ∧ CtlRuns s 0 (.scancel 6) ∧
      (∀ i ∈ [.scopyCtrl 5, .sbind 1 5 6], (okAnd (copyBlock (past s 0 i) 0 0x1000 0x15000 false) fun _ => true) = true) ∧ queuedJobs s 0 < 64 ∧
      portBarred s {} 0 3 = false ∧ portBarred { s with blocks := [(blockKey 2 3, true)] } {} 0 3 = true ∧
      readG s 0 6 ≤ 3 ∧ portBound s 0 3 = false ∧ portRuns s 0 3 = false) ∧
     portRuns { s with work := [.copy { grove := 0, started := true, st := .running 3 }] } 0 3 = true ∧
     portBound { s with work := [.copy { grove := 0, st := .bound 3 }] } 0 3 = true) := by decide +kernel

theorem witness_TagInstructions :
    (let s := unit' 0 { bank0 := [(1, BitVec.ofNat 64 (2 ^ 63 + 2)), (2, 63)], tags := [(63, { count := 0, issued := true }), (1, { count := 1, issued := true })] }
     CtlRuns s 0 (.twaitn 3 1) ∧ CtlRuns s 0 (.tffr 3 1) ∧ CtlRuns s 0 (.tcnt 3 2) ∧ (getTag s (ctlSrc s 0 0x1000) 63).count = 0 ∧
      (getTag s (ctlSrc s 0 0x1000) 63).issued = true ∧ (getTag s (ctlSrc s 0 0x1000) 1).count = 1 ∧ readG s 0 2 ≤ 63) ∧
    (let s := unit' 0 { bank0 := [(1, BitVec.ofNat 64 (2 ^ 63))], tags := [(63, { count := 0, issued := true })] }
     CtlRuns s 0 (.twaita 3 1) ∧ (∀ k, k < 64 → bit (readG s 0 1) k = true → (getTag s (ctlSrc s 0 0x1000) k).count = 0) ∧ CtlRuns s 0 (.tclr 1) ∧
      (∀ k, k < 64 → bit (readG s 0 1) k = true → (tget {} (getCtl s 0).tags k).count = 0)) ∧
    (let f := fire [2 ^ 63]
     let s := { cell f with cfgs := [{ cfg1 with frames := [(0, { live := true, tags := [(63, { count := 0, issued := true })] })] }] }
     CellRuns s 0 f (.twaita 2 0) ∧ CellRuns s 0 f (.twaitn 2 0) ∧ CellRuns s 0 f (.tffr 2 0) ∧ CellRuns s 0 f (.tclr 0) ∧
      (okAnd (readSpec s 0 f 0) fun v => v == 2 ^ 63) = true ∧ (okAnd (writeSpec s 0 f 2 (2 ^ 63)) fun _ => true) = true ∧ f.out.length < 16 ∧
      (getTag s (firingSrc s 0 f) 63).issued = true ∧ (∀ k, k < 64 → (tget {} (getFrame s 1 0).tags k).count = 0 ∧ ownOnTag f k = 0)) := by decide +kernel

theorem witness_BarrierInstructions :
    (let s := unit 1024 [(1, BitVec.ofNat 64 (2 ^ 31)), (2, 65535), (3, 1)]
     (∀ i ∈ [.barinit 1 2, .bararv 1, .baradd 1 3], CtlRuns s 1024 i ∧
        (okAnd (ctlBar (past s 1024 i) 1024 0x1000 .barWrite (readG s 1024 1)) fun pa => pa == 0x10040000000) = true) ∧
      (∀ op ∈ [0, 1], barRoom s op 0x10040000000 65535 = true) ∧
      (∀ i ∈ [.barwait 4 1 3, .bartest 4 1], CtlRuns s 1024 i ∧
        (okAnd (ctlBar (past s 1024 i) 1024 0x1000 .barRead (readG s 1024 1)) fun pa => pa == 0x10040000000) = true) ∧
      s.poison = [] ∧ poisonedRange s 0x10040000000 16 = false ∧ readG s 1024 3 ≤ 255 ∧ barPhase (readWord s 0x10040000000) ≠ readG s 1024 3 ∧
      barPhase (readWord s 0x10040000000) = readG s 1024 4 ∧ findWait s 1024 0 = none) ∧
    (∀ g ∈ [none, some 1], let w : BarWait := { pa := 0x10040000000, who := 1024, uid := 0, expected := 0, got := g }
      let s := { unit 1024 [(1, BitVec.ofNat 64 (2 ^ 31))] with barWaits := [w] }
      CtlRuns s 1024 (.barwait 4 1 3) ∧ findWait s 1024 0 = some w ∧
        (okAnd (ctlBar (past s 1024 (.barwait 4 1 3)) 1024 0x1000 .barRead (readG s 1024 1)) fun pa => pa == w.pa) = true) ∧
    (∀ g ∈ [some 1], let w : BarWait := { pa := 0x10040000000, who := 0, uid := 50, expected := 0, got := g }
      let f := fire [2 ^ 31]
      let s := { cell f with barWaits := [w] }
      CellRuns s 0 f (.barwait 3 0 44) ∧ findWait s 0 50 = some w ∧ (okAnd (cellBar s 0 f .barRead (2 ^ 31)) fun pa => pa == w.pa) = true ∧
        (okAnd (writeSpec s 0 f 3 1) fun _ => true) = true) ∧
    (base.drains = [] ∧ base.poison = [] ∧ barRounds 1 1 2 0 = 0 ∧ barRounds 1 2 2 0 = 1 ∧ barRounds 1 5 2 0 = 2) ∧
    (let f := fire [2 ^ 31, 65535, 1]
     let s := cell f
     (∀ i ∈ [.barinit 0 1, .bararv 0, .baradd 0 2, .barwait 3 0 2, .bartest 3 0], CellRuns s 0 f i) ∧ f.out.length < 16 ∧
      (okAnd (readSpec s 0 f 0) fun v => okAnd (cellBar s 0 f .barWrite v) fun pa => pa == 0x10040000000) = true ∧
      (okAnd (readSpec s 0 f 0) fun v => okAnd (cellBar s 0 f .barRead v) fun pa => pa == 0x10040000000) = true ∧
      barPhase (readWord s 0x10040000000) ≠ 1 ∧ barPhase (readWord s 0x10040000000) = 0 ∧ findWait s 0 f.uid = none ∧
      (okAnd (writeSpec s 0 f 3 0) fun _ => true) = true) ∧
    (65535 < 65536 ∧ barArrived (65534 * 2 ^ 16 + 3) + 1 < 65536 ∧ barPending 0 = 0 ∧ barTarget (65534 * 2 ^ 16 + 3) ≠ 0 ∧ barTarget 0 = 0) := by decide +kernel

/-! ### Witnesses: commands of a cell to the engines -/

theorem witness_MatrixCommands :
    (let v := 64 + 64 * 2 ^ 32 + 256 * 2 ^ 64
     let f := fire [0, v, 63 + 3 * 2 ^ 32, 64 * 2 ^ 64 + 16 * 2 ^ 96, 8]
     let s := cell f
     (∀ i ∈ [.mswp, .mclr 3, .mchk 39, .mshp 3 1, .mrdH 39 2 3 1, .mlw 3 2, .mstr 3 4 2, .mrd 3 4 0 1], CellRuns s 0 f i) ∧ f.out.length < 16 ∧
      heldIdx 39 = some 31 ∧ (okAnd (writeWait s 0 f 31) fun _ => true) = true ∧ (okAnd (readSpec s 0 f 1) fun x => x == v) = true ∧
      1 ≤ lane 32 v 0 ∧ lane 32 v 0 ≤ 64 ∧ lane 32 v 1 = 64 ∧ 1 ≤ lane 32 v 2 ∧ lane 32 v 2 ≤ 256 ∧
      lane 32 (63 + 3 * 2 ^ 32) 0 ≤ 63 ∧ lane 32 (63 + 3 * 2 ^ 32) 1 ≤ 3) := by decide +kernel

theorem witness_MatrixCommands_records :
    (let v := 4 * 2 ^ 64 + 16 * 2 ^ 96
     let f := fire [v, 0]
     let s := cell f
     (okAnd (useRecord (getCell s 0) 0 2 false) fun rc => mtxFmt rc.fmt && decide (1 ≤ bits v 96 32 ∧ bits v 96 32 ≤ 64 ∧ 1 ≤ bits v 64 32 ∧
        bits v 64 32 ≤ mtxDepth rc.fmt) && (okAnd (blockElems rc (bits v 0 64) (bits v 64 32) (bits v 96 32)) fun _ => true) &&
        okAnd (recFoot s (firingSrc s 0 f) .read rc) fun _ => true) = true ∧
     (okAnd (useRecord (getCell s 0) 0 0 true) fun rc => mrdFmt rc.fmt && !rc.const && rc.seq == 0 &&
        okAnd (recFoot s (firingSrc s 0 f) .copyDst rc) fun _ => true) = true ∧
     (okAnd (useRecord (getCell s 0) 0 3 true) fun rc => rc.seq != 0 && mrdFmt rc.fmt) = true ∧ f.itag ≠ 0xFFFFFF) := by decide +kernel

/-- The W0 to W3 of a relation descriptor (R371): algebra, stratum, flags of bits 62 and 63, base, stride; one key, one shard, one
bucket, round limit 1. -/
def Sys2Proof.World.descriptor (alg stratum fl base stride : Nat) : Nat :=
  (if alg = 0 ∨ alg = 5 then 2 ^ 20 else 0) + alg * 2 ^ 24 + stratum * 2 ^ 48 + fl * 2 ^ 62 + 2 ^ 16 * 2 ^ 64 + base * 2 ^ 128 + stride * 2 ^ 32 * 2 ^ 192

/-- Relations in use, a rule block, a barrier block and a gradient block (R395, R397, R388). -/
def Sys2Proof.World.relWorld (f : Firing) : State :=
  let s := cell f
  { s with
    mem := tables ++ bytesOf [(0x16000, 29, descriptor 5 0 0 0x60000 4), (0x16040, 29, descriptor 5 0 2 0x61000 4),
      (0x16080, 29, descriptor 5 1 0 0x62000 4), (0x160C0, 29, descriptor 1 0 1 0x63000 5), (0x16100, 29, descriptor 4 0 0 0x65000 4),
      (0x16200, 44, 2 ^ 48 + 2 ^ 16 + 0x16080 * 2 ^ 128 + 0x16000 * 2 ^ 192 + 0x16040 * 2 ^ 256 + 2 ^ 31 * 2 ^ 320),
      (0x16300, 11, 2 ^ 31 + 0x16400 * 2 ^ 64), (0x16500, 20, 0x160C0 + 0x16100 * 2 ^ 64 + 2 ^ 31 * 2 ^ 128)]
    rels := [0x16000, 0x16040, 0x16080, 0x160C0, 0x16100] }

/-- A live tuple with key 7, id 1 and weight 3 (R369). -/
def Sys2Proof.World.tuple : Nat := 7 + 3 * 2 ^ 128 + 2 ^ 160 + 2 ^ 62 * 2 ^ 192

theorem witness_RelationCommands_sets :
    (let f := fire [0x16000, tuple]
     let s := relWorld f
     let x := firingSrc s 0 f
     f.out.length < 16 ∧ (okAnd (readSpec s 0 f 0) fun v => v == 0x16000) = true ∧
      (∀ i ∈ [.rdef 0, .rclr 0, .rins 0 1, .rdel 0 1], CellRuns s 0 f i) ∧
      (∀ use ∈ [false, true], (okAnd (relDesc s 0 f 0x16000 use) fun r => r.ok && r.handle == 0 && decide (r.size ≤ r.stride * 256) && r.shards == 1 &&
        decide ((r.first + 0) % 32 < (getCfg s f.cfg).width ∧ (r.first + 0) / 32 < (getCfg s f.cfg).height) &&
        okAnd (shardFoot s x r (List.range r.shards) 0 r.size .copyDst) fun _ => true) = true) ∧
      (okAnd (relDesc s 0 f 0x16000 true) fun r => r.algebra == 5 && tupState tuple == 1 && bits (slotW3 tuple) 0 62 == 0 &&
        ((tupKeys tuple).drop r.arity).all (· == 0) && !bit (tupId tuple) 31 && slotWeight tuple != 0 && bits tuple 256 256 == 0) = true) ∧
    (let f := fire [0x16200]
     let s := relWorld f
     let x := firingSrc s 0 f
     (∀ i ∈ [.rjoin 0, .ranti 0], CellRuns s 0 f i) ∧ (∀ anti ∈ [false, true], (okAnd (cellBlock s 0 f 0x16200 64 64) fun blk => !ruleBad blk anti &&
        okAnd (relDesc s 0 f (bits blk 128 56) true) fun h => okAnd (relDesc s 0 f (bits blk 192 56) true) fun a =>
        okAnd (relDesc s 0 f (bits blk 256 56) true) fun b => !ruleCols blk h a b && ruleJb blk == b.index && ruleJa blk == a.index &&
        h.algebra == a.algebra && h.algebra == b.algebra && decide (b.stratum < h.stratum) && b.quiescent && decide (a.stratum ≤ h.stratum) &&
        (okAnd (relBarrier s x (ruleBar blk)) fun _ => true) && (okAnd (ownShard s x a) fun _ => true) &&
        (okAnd (shardFoot s x a (List.range a.shards) 256 (2 * a.part) .read) fun _ => true) &&
        okAnd (shardFoot s x b (List.range b.shards) 256 (2 * b.part) .read) fun _ => true) = true)) := by decide +kernel

theorem witness_RelationCommands_rounds :
    (let f := fire [0x16000]
     let s := relWorld f
     let x := firingSrc s 0 f
     CellRuns s 0 f (.rrnd 39 0) ∧ (okAnd (relDesc s 0 f 0x16000 true) fun r => okAnd (ownShard s x r) fun k => okAnd (readHeader s x r k) fun h =>
        decide (r.limit ≠ 0 ∧ h.rc + pendingRounds s r (groveOf 0) < r.limit) && (okAnd (relDest s 0 f 39) fun h => h == some 31) &&
        okAnd (shardFoot s x r [k] 0 r.size .copyDst) fun _ => true) = true) ∧
    (let f := fire [0x16300, 5]
     let s := relWorld f
     let x := firingSrc s 0 f
     CellRuns s 0 f (.rqck 44 0 1 1) ∧ (okAnd (cellBlock s 0 f 0x16300 64 64) fun b => bits b 56 8 == 0 && bits b 120 8 == 0 && bits b 384 128 == 0 &&
        bits b 0 56 % 16 == 0 && bits b 64 56 % 8 == 0 && (okAnd (walkCheck s x .barWrite (bits b 0 56) 16) fun _ => true) &&
        okAnd (relDest s 0 f 44) fun h => h == none) = true) ∧
    (let f := fire [0x16000, 7]
     let s := relWorld f
     CellRuns s 0 f (.rlook 8 0 1) ∧ (okAnd (relDesc s 0 f 0x16000 true) fun r => okAnd (readSpec s 0 f 1) fun w => ((lanes 32 16 w).drop r.arity).all (· == 0) &&
        (match ownerShard s r 7 with
          | none => true
          | some k => okAnd (readPart s (firingSrc s 0 f) r k 0) fun sl =>
            okAnd (footRange s (firingSrc s 0 f) .read (partVa r k 0 + 32 * ((findTup r sl [7, 0, 0, 0]).getD (firstSlot r [7, 0, 0, 0])) : Nat) 32) fun _ => true)) = true) ∧
    (let f := fire [0x16500, 2 ^ 24 - 1]
     let s := relWorld f
     let x := firingSrc s 0 f
     CellRuns s 0 f (.rgrad 0 1) ∧ (okAnd (cellBlock s 0 f 0x16500 64 64) fun b => bits b 56 8 == 0 && bits b 120 8 == 0 && bits b 184 8 == 0 && bits b 192 320 == 0 &&
        okAnd (readSpec s 0 f 1) fun w => bits w 24 8 == 0 && okAnd (relDesc s 0 f (bits b 0 56) true) fun h => okAnd (relDesc s 0 f (bits b 64 56) true) fun q =>
        q.algebra == 4 && q.arity == 1 && q.index == 0 && !q.trace && h.algebra != 0 && h.algebra != 5 && h.trace && okAnd (ownShard s x h) fun k =>
        okAnd (readHeader s x h k) fun hd => hd.tlost == 0 && (okAnd (relBarrier s x (bits b 128 56)) fun _ => true) &&
        (okAnd (shardFoot s x h (List.range h.shards) (256 + 3 * h.part) (32 * 2 ^ h.lt) .read) fun _ => true) &&
        okAnd (shardFoot s x q (List.range q.shards) 256 q.part .read) fun _ => true) = true) := by decide +kernel

theorem witness_SortCommands :
    (let v := fun k n2 : Nat => 16 * 2 ^ 64 + (8 + n2 * 2 ^ 32) * 2 ^ 128 + (1 + k * 2 ^ 32 + 2 ^ 47) * 2 ^ 192
     let f := fire [v 0 0, v 4 0, v 0 8]
     let s := cell f
     f.out.length < 16 ∧ (∀ i ∈ [.rsort 0 0 4 0, .rtopk 0 1 0 1, .rmrg 0 2 4 0], CellRuns s 0 f i) ∧
      ∀ q ∈ [(0, v 0 0, some rec4), (1, v 4 0, none), (2, v 0 8, some rec4)], sortRange q.1 q.2.1 = none ∧
        (let j := sortJobOf q.1 q.2.1 rec0 q.2.2 (firingSrc s 0 f) 0
         j.meets = false ∧ (okAnd (useRecord (getCell s 0) 0 0 false) fun kr => (sortKey kr.fmt).isSome && kr.fmt == 8 && (okAnd (sortOffsets j kr) fun _ => true) &&
          (okAnd (sortFoot s (firingSrc s 0 f) rec0) fun _ => true) && (okAnd (sortFoot s (firingSrc s 0 f) rec4) fun _ => true) &&
          okAnd (useRecord (getCell s 0) 0 4 false) fun pr => payFmt pr.fmt && okAnd (sortOffsets j pr) fun _ => true) = true ∧
         (j.tag.all fun k => decide ((getTag s (firingSrc s 0 f) k).count + ownOnTag f k + 1 ≤ 65535)) = true)) := by decide +kernel

/-- A placement descriptor (R268): F32, 64 elements, one axis, the view at 0x20000, the mesh record at 0x17040. -/
def Sys2Proof.World.placed : Nat := 8 * 2 ^ 51 + 64 * 2 ^ 128 + 2 ^ 160 + 2 ^ 192 + 2 ^ 224 + 0x20000 * 2 ^ 256 + 0x17040 * 2 ^ 320

/-- A record of the handle (R198), with the base as given: 64 by 1 elements of F32. -/
def Sys2Proof.World.view (base : Nat) : BitVec 256 :=
  BitVec.ofNat 256 (base + 64 * 2 ^ 64 + 2 ^ 96 + 4 * 2 ^ 128 + 256 * 2 ^ 160 + 8 * 2 ^ 192 + 4095 * 2 ^ 200)

/-- Device 3, alone in its mesh (R267); a descriptor block, a collective's block, the blocks of PCONV and PLD; handle 4095 and slot 255 are
defined. -/
def Sys2Proof.World.placeWorld (s : State) (base : Nat) : State :=
  let coll := rec0.toNat + rec1.toNat * 2 ^ 256 + 4 * 2 ^ 512 + 0x17040 * 2 ^ 576
  { s with
    mem := tables ++ bytesOf [(0x17040, 20, (1 + 2 ^ 16 + 2 ^ 32 + 2 ^ 48) * 2 ^ 64 + 0x17080 * 2 ^ 128), (0x17080, 1, 3), (0x17100, 43, placed),
      (0x17180, 75, coll), (0x17200, 48, (view base).toNat + 2 ^ 38 * 2 ^ 256), (0x17240, 48, (view base).toNat + 63 * 2 ^ 256)]
    devnum := some 3, placement := [(4095, { defd := true, desc := BitVec.ofNat 512 placed, sizes := [1, 1, 1, 1] })]
    slots := [(255, { defd := true, block := BitVec.ofNat 1024 coll })] }

/-- Records 0 to 2 of cell 0: the view of the handle, another view, and one of the array. -/
def Sys2Proof.World.placeCell (l : List Nat) : State :=
  placeWorld (cell' { cell0 with records := [(0, view 0x20000), (1, view 0x28000)] } (fire l)) 0x20000

/-- The block at `va` is a mesh record of this device, a descriptor that PDEF takes, or a block that CDEF takes. -/
def Sys2Proof.World.meshAt (s : State) (rd : BlockRead) (va : Nat) (p : Mesh → Bool) : Bool :=
  okAnd (rd va 64 64) fun w => meshOk w && okAnd (rd ((meshOf w).table + 4 * (meshOf w).self) 4 4) fun e => selfOk s e && p (meshOf w)
def Sys2Proof.World.descAt (s : State) (asn : Nat) (rd : BlockRead) (va h : Nat) : Bool :=
  !foreignHandle (getPlacement s h) asn && okAnd (rd va 64 64) fun w => !descBad w && meshAt s rd (dMesh w) fun m => m.axes == dAxes w &&
    !placementRefused (dFmt w) m.axes (dExtents w) m.sizes (coordsOf m.sizes m.self) (dStates w) (dLeaves w) && !dConv (getPlacement s h).d
def Sys2Proof.World.collAt (s : State) (src : Src) (rd : BlockRead) (va : Nat) : Bool :=
  okAnd (rd va 128 32) fun v =>
    let x : Slot := { block := BitVec.ofNat 1024 v }
    (okAnd ((recOf x.srec).check false) fun _ => true) && (okAnd ((recOf x.drec).check false) fun _ => true) && bits x.c0 12 52 == 0 &&
    bits v 632 8 == 0 && bits v 696 7 == 0 && bits v 640 56 % 32 == 0 && bits v 704 320 == 0 && x.op != 3 && x.kind == 4 && x.mesh % 64 == 0 &&
    (recOf x.srec).fmt == (recOf x.drec).fmt && (meshAt s rd x.mesh fun m => decide (x.axis < m.axes) &&
      collCounts x.kind (recOf x.srec).count (recOf x.drec).count (m.sizes.getD x.axis 1) (2 ^ x.leaf)) &&
    (okAnd (recFoot s src .read (recOf x.srec)) fun _ => true) && okAnd (recFoot s src .copyDst (recOf x.drec)) fun _ => true

theorem witness_PlacementCommands_definitions :
    (let s := placeWorld (unit 1024 [(1, 0x17100), (2, 4095), (3, 0x17180), (4, 255)]) 0x20000
     1 ≤ 4095 ∧ CtlRuns s 1024 (.pdef 1 2) ∧ readG s 1024 2 = 4095 ∧
      descAt (past s 1024 (.pdef 1 2)) 0 (ctlBlock (past s 1024 (.pdef 1 2)) 1024 0x1000) 0x17100 4095 = true ∧
      CtlRuns s 1024 (.pqry 5 2) ∧ foreignHandle (getPlacement s 4095) 0 = false ∧ CtlRuns s 1024 (.cdef 3 4) ∧ readG s 1024 4 = 255 ∧
      (getSlot s 255).finished = true ∧ startPending s 255 = false ∧ (getSlot s 255).defd = true ∧
      (let p := past s 1024 (.cdef 3 4)
       collAt p (ctlSrc p 1024 0x1000) (ctlBlock p 1024 0x1000) 0x17180 = true) ∧
      CtlRuns s 1024 (.cstart 5 4) ∧ (let p := past s 1024 (.cstart 5 4)
       (okAnd (slotFoot p (ctlSrc p 1024 0x1000) (getSlot s 255)) fun ft => (raceOf p ⟨0, ctlSrc p 1024 0x1000, .job, ft, 3, 0, 0⟩).isNone) = true) ∧
      CtlRuns s 1024 (.cwait 5 4) ∧ CtlRuns s 1024 (.cpoll 5 4)) ∧
    (let f := fire [0x17100, 4095, 0x17180, 255]
     let s := placeWorld (cell f) 0x20000
     (∀ i ∈ [.pdef 0 1, .pqry 5 1, .cdef 2 3, .cstart 5 3, .cwait 5 3, .cpoll 5 3], CellRuns s 0 f i) ∧ f.out.length < 16 ∧ startPending s 255 = false ∧
      descAt s (firingSrc s 0 f).asn (cellBlock s 0 f) 0x17100 4095 = true ∧ collAt s (firingSrc s 0 f) (cellBlock s 0 f) 0x17180 = true ∧
      (okAnd (slotFoot s (firingSrc s 0 f) (getSlot s 255)) fun _ => okAnd (writeSpec s 0 f 5 1) fun g => decide (g.out.length < 16)) = true) := by decide +kernel

theorem witness_PlacementCommands_demands :
    (let f := fire [15, 2 ^ 38 + 63 * 2 ^ 32]
     let s := placeCell [15, 2 ^ 38 + 63 * 2 ^ 32]
     (∀ i ∈ [.pldCell 39 0 0, .pldCell 44 0 1, .pconvCell 1 1], CellRuns s 0 f i) ∧ f.out.length < 16 ∧ bits 15 80 16 = 0 ∧
      (∀ r ∈ [0, 1], (okAnd (useRecord (getCell s 0) 0 r false) fun rc => okAnd (demandHandle s (firingSrc s 0 f) rc) fun h =>
        okAnd (demandFoot s (firingSrc s 0 f) h 0 rc) fun _ => okAnd (elemsAt rc (vecOffs (vecLen rc.bits) 15)) fun l =>
        okAnd (allPieces s (memOf s 0 f).st (firingSrc s 0 f) .read rc.bits (fun _ => 0) l) fun _ => h == 4095 && (metNow s h 0 rc.base == (r == 0)) &&
        okAnd (loadCore s (memOf s 0 f) .ld rc 15) fun z => z.err.isNone && watchHit s 0 false z.pieces == none) = true) ∧
      (okAnd (writeWait s 0 f 31) fun _ => true) = true ∧
      (okAnd (pconvControl (2 ^ 38 + 63 * 2 ^ 32)) fun q => q == (0, some 63)) = true ∧
      (okAnd (tagRoom s (firingSrc s 0 f) (some 63) (ownOnTag f)) fun _ => true) = true) := by decide +kernel

theorem witness_PlacementCommands_unit_demands :
    (let s := placeWorld (unit 0 [(1, 0x17200), (2, 0x17240)]) 0x28000
     let p := past s 0 (.pconvCtrl 1)
     let x := ctlSrc p 0 0x1000
     CtlRuns s 0 (.pconvCtrl 1) ∧ (okAnd (ctlBlock p 0 0x1000 0x17200 48 32) fun v => (okAnd (blockRecord (BitVec.ofNat 256 (bits v 0 256)) false) fun _ => true) &&
        okAnd (pconvControl (bits v 256 128)) fun q => okAnd (demandHandle p x (recOf (BitVec.ofNat 256 (bits v 0 256)))) fun h =>
        okAnd (demandFoot p x h q.1 (recOf (BitVec.ofNat 256 (bits v 0 256)))) fun fo => okAnd (tagRoom p x q.2 fun _ => 0) fun _ =>
        (raceOf p ⟨0, x, .job, fo.getD [], 3, 0, 4095⟩).isNone) = true ∧
      CtlRuns s 0 (.pldCtrl 3 2) ∧ (okAnd (ctlBlock p 0 0x1000 0x17240 48 32) fun v => decide (bits v 336 48 = 0) && decide ((view 0x28000).toNat = bits v 0 256) &&
        okAnd (demandFoot p x 4095 (bits v 320 16) (recOf (view 0x28000))) fun fo => (okAnd (pldReach p 0 x (recOf (view 0x28000)) (bits v 256 64)) fun _ => true) &&
        !metNow s 4095 (bits v 320 16) 0x28000 && (raceOf p ⟨0, x, .job, fo.getD [], 3, 0, 4095⟩).isNone) = true ∧ (getCtl s 0).pld = none) ∧
    (let s := placeWorld (unit' 0 { bank0 := [(2, 0x17240)], pld := some 90 }) 0x20000
     let p := past s 0 (.pldCtrl 3 2)
     let x := ctlSrc p 0 0x1000
     CtlRuns s 0 (.pldCtrl 3 2) ∧ (getCtl s 0).pld = some 90 ∧ demandPending s 90 = false ∧
      (okAnd ((recOf (view 0x20000)).elem 63) fun e => match e with
        | .at_ b => okAnd (elemPieces p (ctlStream 0) x .read 0 b 32 0) fun ps => (anyPoison s ps).isNone && (raceOf p ⟨0, x, .load, rangesOf ps false, 3, 0, 0⟩).isNone
        | .outside => false) = true) ∧
    (∀ q ∈ [none, some 90], let r := view 0x20000 ||| BitVec.ofNat 256 (2 ^ 56)
     let s := { placeWorld (unit' 0 { bank0 := [(2, 0x17300)], pld := q }) 0x20000 with
       mem := (placeWorld base 0x20000).mem ++ bytesOf [(0x17300, 48, r.toNat + 64 * 2 ^ 256)] }
     let p := past s 0 (.pldCtrl 3 2)
     let x := ctlSrc p 0 0x1000
     CtlRuns s 0 (.pldCtrl 3 2) ∧ (getCtl s 0).pld = q ∧ demandPending s 90 = false ∧ (recOf r).bits ≤ 64 ∧
      (match (recOf r).elem 64 with | .ok .outside => true | _ => false) = true ∧
      (okAnd (ctlBlock p 0 0x1000 0x17300 48 32) fun v => bits v 336 48 == 0 && bits v 256 64 == 64 && (okAnd (blockRecord (BitVec.ofNat 256 (bits v 0 256)) false) fun _ => true) &&
        okAnd (demandHandle p x (recOf r)) fun h => okAnd (demandFoot p x h 0 (recOf r)) fun _ => metNow s h 0 (recOf r).base) = true) := by decide +kernel

/-! ### Witnesses: scheduling -/

/-- Memory with a record at 0x30000, with join count 0, and a splice successor's at 0x30040 (R50), the header of a save area (R182), and
the entries of bytes `l` behind them. -/
def Sys2Proof.World.records (l : List (Nat × Nat × Nat)) : Table Byte :=
  tables ++ bytesOf ([(0x30008, 8, 7), (0x30010, 8, 2 ^ 24 + 2 ^ 30 + 2 ^ 42), (0x30028, 8, 0x2000), (0x30050, 8, 2 ^ 24 + 2 ^ 30 + 2 ^ 41),
    (0x31000, 8, 2 ^ 32 + 0x5A534156), (0x31010, 8, 659456), (0x31018, 8, 65)] ++ l)

/-- The unit runs with those records. -/
def Sys2Proof.World.sched (u : Nat) (x : Ctl) : State := { unit' u x with mem := records [] }

theorem witness_Joins : ∀ n ∈ [0, 1, 65535],
    (let s := { unit 1024 [(1, 0x30000)] with mem := tables ++ bytesOf [(0x30010, 2, n)] }
     let p := past s 1024 (.join 2 1)
     let x := ctlSrc p 1024 0x1000
     CtlRuns s 1024 (.join 2 1) ∧ readNat s 0x30010 2 = n ∧ (okAnd (readRecord p 1024 0x1000 0x30000) fun r => r.2 == 0x30000) = true ∧
      (okAnd (translate p (ctlStream 1024) x .atomic 0x30010 8) fun q => q.1 == 0x30010) = true ∧
      s.drains = [] ∧ s.poison = []) := by decide +kernel

theorem witness_Configurations_queues :
    (∀ q ∈ [0, 63, 64],
      (let s := sched 1024 { bank0 := [(1, 0x30000), (2, BitVec.ofNat 64 q)] }
       CtlRuns s 1024 (.launch 3 1 2) ∧ readG s 1024 2 = q ∧ (okAnd (readRecord (past s 1024 (.launch 3 1 2)) 1024 0x1000 0x30000) fun r =>
        launchStatus s r.1 q false false 0 == if q = 64 then stBADQUEUE else stOK) = true)) ∧
    (let s := sched 1024 { bank0 := [(1, 0x31000), (2, 63)] }
     CtlRuns s 1024 (.ctxrs 3 1 2) ∧ (getCtl s 1024).user = false ∧ readG s 1024 1 % 4096 = 0 ∧ readG s 1024 2 ≤ 63 ∧
      (okAnd (readRecord (past s 1024 (.ctxrs 3 1 2)) 1024 0x1000 0x31000) fun r => saveFormat r.1 && !savedSecure s r.2) = true ∧
      blockSecure s 4 63 = false ∧ (getQueue s 63).length < 4096) := by decide +kernel

theorem witness_Configurations_running :
    (let s := sched 5 { bank0 := [(1, 0x33000)] }
     CtlRuns s 5 (.conf 2 1) ∧ readG s 5 1 % 64 = 0 ∧ isCore 5 = false ∧ cfgOfGrove s 5 = none) ∧
    (let s := sched 0 { bank0 := [(1, 0x33000)], wait := some 0 }
     CtlRuns s 0 (.conf 2 1) ∧ cfgOfGrove s 0 = some cfg1 ∧ (getCtl s 0).wait = some 0 ∧ cfgFiring s 1 = false) ∧
    (let s := setCell (sched 0 { bank0 := [(1, 0x33000)] }) 0 { cell0 with firing := some (fire []) }
     CtlRuns s 0 (.conf 2 1) ∧ cfgOfGrove s 0 = some cfg1 ∧ (getCtl s 0).wait = none ∧ splicing cfg1 = false ∧ cfg1.st = .running ∧
      cfg1.quiesce = false ∧ cfgFiring s 1 = true) ∧
    (let s := sched 0 { bank0 := [(1, 0x30040), (2, 0x30000)] }
     let p := past s 0 (.splice 3 1 2)
     CtlRuns s 0 (.splice 3 1 2) ∧ cfgOfRecord s 0x30000 = some cfg1 ∧ cfg1.succ = none ∧ findCfg s 1 = some cfg1 ∧ 1 < s.nextId ∧
      (okAnd (readRecord p 0 0x1000 0x30040) fun r => recSplice r.1 && recJoin r.1 == 0 && recW r.1 == cfg1.width && recH r.1 == cfg1.height &&
        recN r.1 == cfg1.stages) = true ∧ (okAnd (readRecord p 0 0x1000 0x30000) fun r => r.2 == 0x30000) = true) ∧
    (let s := sched 1024 { bank0 := [(1, 0x30000)] }
     CtlRuns s 1024 (.preempt 2 1) ∧ (getCtl s 1024).user = false ∧ cfg1.preemptible = true ∧ cfgOfRecord s 0x30000 = some cfg1 ∧
      (okAnd (readRecord (past s 1024 (.preempt 2 1)) 1024 0x1000 0x30000) fun r => r.2 == 0x30000) = true) ∧
    (let k := { cfg1 with st := .held }
     let s := { sched 1024 { bank0 := [(1, 0x30000), (2, 0x200000)] } with cfgs := [k] }
     let p := past s 1024 (.ctxsv 3 1 2)
     CtlRuns s 1024 (.ctxsv 3 1 2) ∧ readG s 1024 2 % 4096 = 0 ∧ cfgOfRecord s 0x30000 = some k ∧ findCfg s 1 = some k ∧ k.id ≠ 0 ∧ s.saves = [] ∧
      (okAnd (readRecord p 1024 0x1000 0x30000) fun r => r.2 == 0x30000) = true ∧
      (okAnd (physParts p (ctlStream 1024) (ctlSrc p 1024 0x1000) .write 0x200000 (saveLength k.width k.height k.stages)) fun _ => true) = true) := by
  decide +kernel

theorem witness_Events :
    (CtlRuns (unit' 0 { events := 31 }) 0 (.wfe 2 44) ∧ (getCtl (unit' 0 { events := 31 }) 0).events ≠ 0) ∧
    (CtlRuns (unit 0 []) 0 (.wfe 2 1) ∧ (getCtl (unit 0 []) 0).events = 0 ∧ (getCtl (unit 0 []) 0).deadline = none ∧ readG (unit 0 []) 0 1 = 0 ∧
      CtlRuns (unit 0 []) 0 (.wfe 2 44) ∧ CtlRuns (unit 0 [(1, 9)]) 0 (.wfe 2 1) ∧ readG (unit 0 [(1, 9)]) 0 1 ≠ 0) ∧
    (∀ v ∈ [0, 7, 1023], CtlRuns (unit 0 [(1, BitVec.ofNat 64 v)]) 0 (.sev 1) ∧ readG (unit 0 [(1, BitVec.ofNat 64 v)]) 0 1 = v ∧
      unitSecure (unit 0 [(1, BitVec.ofNat 64 v)]) v = unitSecure (unit 0 [(1, BitVec.ofNat 64 v)]) 0) ∧
    (CtlRuns (unit 0 []) 0 (.sev 44) ∧ isCore 0 = false ∧ cfgOfGrove (unit 0 []) 0 = some cfg1) := by decide +kernel

/-! ### Witnesses: tokens, firings, commit -/

/-- Cell 0 with context 0 of a kind, fields k1 and k7, and routes O0, O1 and O2 to cell 1. -/
def Sys2Proof.World.node (kind k1 k7 : Nat) (ts : List Token) : Cell :=
  { cell0 with
    fields := [(0, BitVec.ofNat 64 kind), (1, BitVec.ofNat 64 k1)] ++ [(2, BitVec.ofNat 64 (2 ^ 29 + 2 ^ 9 + 1)), (3, BitVec.ofNat 64 (2 ^ 29 + 2 ^ 9 + 1)),
      (4, BitVec.ofNat 64 (2 ^ 29 + 2 ^ 9 + 1))] ++ (if k7 = 0 then [] else [(7, BitVec.ofNat 64 k7)])
    tokens := ts }

/-- A data token for a port of context 0, and a predicate for Q0. -/
def Sys2Proof.World.data (port payload : Nat) : Token := { cfg := 1, port := port, payload := BitVec.ofNat 512 payload }
def Sys2Proof.World.predicate (b : Nat) : Token := { cfg := 1, port := 4, pred := true, payload := BitVec.ofNat 512 b }

/-- The machine with cell 0 as given. -/
def Sys2Proof.World.withCell (x : Cell) : State := setCell base 0 x

theorem witness_Arrivals :
    (findCfg base 1 = some cfg1 ∧ cfg1.st = .running ∧ (cfg1.frame 0).skipped = false ∧ (cfg1.frame 0).stopped = none) ∧
    (∀ p ∈ [0, 1], let x := data p 5
      let s := due1 (withCell (node 1 1 0 [])) .tokenArrival (.token 0 x)
      routeFree s 0 x.route = true ∧ tokenRoom s 0 x = true ∧ workAt s 0 = some (.token 0 x) ∧ malformed (getCell s 0) x = (p == 1) ∧
        isBound (getCell s 0) x = false) ∧
    (∀ k1 ∈ [1, 1 + 2 ^ 32], let x := predicate 1
      let s := due1 (withCell (node 1 k1 0 [])) .predicateArrival (.predicate 0 x)
      routeFree s 0 x.route = true ∧ tokenRoom s 0 x = true ∧ workAt s 0 = some (.predicate 0 x) ∧ malformed (getCell s 0) x = (k1 == 1) ∧
        isBound (getCell s 0) x = false) ∧
    (∀ v ∈ [0, 1, 2 ^ 24 - 1, 2 ^ 24], let x := data 1 v
      let s := due1 (withCell (node 4 257 (3 + 2 * 2 ^ 24) [])) .counterBound (.token 0 x)
      routeFree s 0 x.route = true ∧ tokenRoom s 0 x = true ∧ workAt s 0 = some (.token 0 x) ∧ malformed (getCell s 0) x = false ∧
        isBound (getCell s 0) x = true ∧ lane 32 x.payload.toNat 0 = v) ∧
    (∀ e ∈ [false, true], workAt (due1 base .fillLand (.fill 0 31 7 e)) 0 = some (.fill 0 31 7 e)) := by decide +kernel

theorem witness_FiringsStart :
    (let s := withCell (node 1 1 0 [data 0 5])
     mayFire s 0 0 0 0 1 = true ∧ anyFalse (takeInputs s 0 0 0 0).1 = false) ∧
    (let s := withCell { node 1 0 0 [] with sources := [(0, 0)] }
     mayFire s 0 0 0 0 1 = true ∧ (takeInputs s 0 0 0 0).2.1 = true) ∧
    (∀ k ∈ [1, 5], let s := withCell (node k (1 + 2 ^ 32) 0 [data 0 5, predicate 0])
      mayFire s 0 0 0 0 k = true ∧ anyFalse (takeInputs s 0 0 0 0).1 = true) := by decide +kernel

/-- A memory node of cell 0 with k7 as given (R112, R252) and an offset and an operand of 0; its firing and what it makes of it. -/
def Sys2Proof.World.memory (k7 : Nat) (p : State → Mem → Rec → Cell → Bool) : Bool :=
  let s := withCell (node (5 + 31 * 2 ^ 32) 257 k7 [data 0 0, data 1 0])
  let q := takeInputs s 0 0 0 0
  let n := newFiring q.2.2 0 0 0 0 q.1 q.2.1
  mayFire s 0 0 0 0 5 && !anyFalse q.1 && okAnd (useRecord (getCell s 0) 0 (bits k7 7 3) (k7 % 128 ≠ 0 ∧ k7 % 128 ≠ 24)) fun rc =>
    p n.2 (memNode n.2 0 { n.1 with phase := .ending }) rc (getCell s 0)

theorem witness_FiringsStart_memory :
    memory 0 (fun s m rc _ => okAnd (loadCore s m .ld rc 0) fun v => v.err.isNone && watchHit s 0 false v.pieces == none) = true ∧
    (∀ o ∈ [0, 4096], memory (4 + o) (fun s m rc x => okAnd (storeCore s m .st rc (x.record 0 0) 0 0 0 s.nextId) fun z =>
        watchHit s 0 true z.acc.pieces == none) = true ∧
      memory (2 + 4 * 128 + o) (fun s m rc x => okAnd (atomicCore s m 1 rc (x.record 0 4) 0 0 0 0 s.nextId) fun z =>
        watchHit s 0 true z.pieces == none) = true ∧
      memory (24 + 3 * 128 + o) (fun s m rc x => okAnd (seqclCore s m rc (x.record 0 3) none 0 s.nextId) fun _ => true) = true) := by decide +kernel

theorem witness_FiringsStart_nodes :
    (∀ b ∈ [0, 1], let s := withCell (node 2 (1 + 2 ^ 32) 0 [data 0 5, predicate b])
      let q := takeInputs s 0 0 0 0
      mayFire s 0 0 0 0 2 = true ∧ q.1.find? (fun t => !t.pred) = some (data 0 5) ∧ anyFalse q.1 = (b == 0)) ∧
    (∀ b ∈ [0, 1], let s := withCell (node 3 (257 + 2 ^ 32) 0 [data (1 - b) 5, predicate b])
      mayFire s 0 0 0 0 3 = true ∧ (takeInputs s 0 0 0 0).1.find? (fun t => !t.pred) = some (data (1 - b) 5)) ∧
    (∀ z ∈ [({} : CounterSt), { i := 2, j := 0, n := 2, inner := 3, pending := 4 }, { i := 2, j := 1, n := 2 ^ 24, inner := 3, pending := 4 }],
      let s := withCell { node 4 1 (3 + 2 * 2 ^ 24) [data 0 5] with counters := [(0, z)] }
      mayFire s 0 0 0 0 4 = true ∧ (takeInputs s 0 0 0 0).1.head? = some (data 0 5)) ∧
    (let s := withCell (node 6 257 (3 * 8) [data 0 5, data 1 6])
     let q := takeInputs s 0 0 0 0
     mayFire s 0 0 0 0 6 = true ∧ anyFalse q.1 = false ∧ q.1.find? (fun t => !t.pred && t.port == 0) = some (data 0 5) ∧
      q.1.find? (fun t => !t.pred && t.port == 1) = some (data 1 6)) ∧
    (let s := withCell (node 6 (257 + 2 ^ 32) (3 * 8) [data 0 5, data 1 6, predicate 0])
     mayFire s 0 0 0 0 6 = true ∧ anyFalse (takeInputs s 0 0 0 0).1 = true) := by decide +kernel

/-- A store and an atomic of one word at 0x20000. -/
def Sys2Proof.World.acc (op group : Nat) : Acc :=
  { id := 60, src := { cfg := 1, uid := 50 }, pieces := [⟨0x100000, 32, 0x20000, 9, 0, 0⟩], scope := 3, group := group, op := op, rcd := rec4 }

theorem witness_Commits :
    ∀ e ∈ [none, some (.held 31 7), some (.fill 31 7 false), some (.hrec 31 (some 3)), some (.hdrop 31 true), some (.hdrop 31 false), some (.access (acc 0 0)),
      some (.access (acc 1 0)), some (.emit 0 1 (data 0 5)), some (.emit 1 1 (predicate 0)), some (.done 1 (data 0 0) none true)],
      let f := { fire [] with phase := .ending, out := e.toList }
      let s := event (cell f) .outputCommit 0
      (getCell s 0).firing = some f ∧ mayCommit s 0 f = true ∧ commitWaits s f.uid = false ∧
        (getFrame s 1 0).skipped = false ∧ findCfg s f.cfg = some cfg1 := by decide +kernel

/-- A command of each kind, a close, and buffers of several entries: what is sent, and a register written, dropped and written again. -/
theorem witness_Commits_buffers :
    base.poison = [] ∧ base.drains = [] ∧
    (∀ k ∈ [Cmd.copy { src := { cfg := 1, uid := 50 }, drec := rec1, count := 64, tag := 63, bar := some (0x10040000000, 2 ^ 31) }, .scancel 1, .tclr 1,
        .bar 1 0x10040000000 1 (2 ^ 31), .mtx ⟨0, { cfg := 1, uid := 50 }, .mswp, []⟩, .rel { src := { cfg := 1, uid := 50 }, op := .rlook {} [0] none },
        .sort { src := { cfg := 1, uid := 50 }, tag := some 5 }, .pdef 4095 0 0 [1, 1, 1, 1] 0, .demand { src := { cfg := 1, uid := 50 } },
        .cdef 255 0 0, .cstart 255 []], ∀ h ∈ [none, some 31],
      let f := { fire [] with phase := .ending, out := [.cmd k h] }
      let s := event (cell f) .outputCommit 0
      (getCell s 0).firing = some f ∧ mayCommit s 0 f = true) ∧
    (∀ b ∈ [none, some (0x10040000000, 2 ^ 31)], let f := { fire [] with phase := .ending, out := [.close (acc 0 5) b] }
      mayCommit (event (cell f) .outputCommit 0) 0 f = true) ∧
    (let f := { fire [] with phase := .ending, out := [.access (acc 0 0), .access (acc 1 5), .emit 0 1 (data 0 5), .done 1 (data 0 0) (some 60) true] }
     mayCommit (event (cell f) .outputCommit 0) 0 f = true ∧ f.out.all (sends f) = true) ∧
    (∀ l ∈ [[Entry.held 31 7], [.held 31 7, .hdrop 31 true], [.hdrop 31 true, .held 31 8, .hrec 31 (some 3)]],
      let f := { fire [] with phase := .ending, out := l }
      let s := event (cell f) .outputCommit 0
      mayCommit s 0 f = true ∧ ((heldView (getCell s 0) f 31).2 = .write ∨ (heldView (getCell s 0) f 31).2 = .drop)) := by decide +kernel

/-! ### Witnesses: owners -/

theorem witness_OwnersAct_checks :
    (∀ k ∈ [AccKind.load, .store, .atomic, .job], let me : InFlight := ⟨60, { cfg := 1, uid := 50 }, k, [⟨0x100000, 32, true, 0x20000⟩], 3, 0, 0⟩
      let s := due1 base .ownerCheck (.check me)
      workAt s 0 = some (.check me) ∧ raceOf (dropWork s 0) (checkPast (dropWork s 0) me) = none ∧ (getCell s 0).firing = none) ∧
    (let me : InFlight := ⟨60, { cfg := 1, uid := 50 }, .store, [⟨0x100000, 32, true, 0x20000⟩], 3, 0, 0⟩
     let s := due1 { cell (fire []) with inflight := [⟨7, { cfg := 1, frame := 1, uid := 49 }, .store, [⟨0x100010, 8, true, 0x20002⟩], 3, 0, 0⟩] }
       .ownerCheck (.check me)
     (raceOf (dropWork s 0) (checkPast (dropWork s 0) me)).isSome = true ∧ (getCell s 0).firing = some (fire []) ∧ (fire []).uid = me.src.uid ∧ (fire []).race = none ∧
      (fire []).phase ≠ .committing ∧ checksBefore (dropWork s 0) 50 me.src.word = false) := by decide +kernel

theorem witness_OwnersAct_accesses :
    (base.drains = [] ∧ base.poison = [] ∧ unreachable base 0x20000 = false) ∧
    (∀ a ∈ [acc 0 0, { acc 0 0 with pieces := [⟨0x100008, 32, 0x20001, 9, 0, 0⟩] }, { acc 0 0 with pieces := (acc 0 0).pieces ++ [⟨0x100040, 32, 0x20008, 7, 0, 1⟩] }],
      inTurn (due1 base .storePerform (.store a)) 0 a = true ∧ a.drop = none ∧ a.pieces ≠ [] ∧
        (a.begun = false ∧ wholeAccess a.pieces = (a.pieces == (acc 0 0).pieces)) ∧ wholeAccess { a with begun := true }.pieces = wholeAccess a.pieces) ∧
    (let a := { acc 0 0 with pieces := (List.range 16).map fun i => ⟨0x100000 + 32 * i, 32, 0x20000 + 4 * i, i, 0, i⟩ }
     inTurn (due1 base .storePerform (.store a)) 0 a = true ∧ a.drop = none ∧ wholeAccess a.pieces = true ∧
      ∀ y ∈ a.pieces, unreachable base (y.bit / 8) = false) ∧
    (let a := { acc 1 0 with pieces := (acc 1 0).pieces ++ [⟨0x100040, 32, 0x20008, 7, 0, 1⟩] }
     inTurn (due1 base .atomicApply (.atomic a)) 0 a = true ∧ a.drop = none ∧ a.pieces.length = 2) ∧
    (let r := data 0 0
     let s := { due1 base .atomicApply (.atomic (acc 1 0)) with work := [.atomic (acc 1 0), .done 1 { cfg := 1 } r (some 60) false] }
     inTurn s 0 (acc 1 0) = true ∧ (acc 1 0).pieces.length = 1 ∧ (acc 1 0).drop = none ∧ .done 1 { cfg := 1 } r (some 60) false ∈ (dropWork s 0).work ∧ (recOf rec4).bits = 32) ∧
    (∀ op ∈ [0, 1, 2, 3], let s := due1 { base with mem := tables ++ bytesOf [(0x16000, 2, 1)] } .barrierUpdate (.bar {} op 0x16000 1 0x16000)
      barReady s 0 = true) ∧
    (∀ a ∈ [none, some 60], ∀ o ∈ [false, true], doneReady (due1 base .doneToken (.done 1 { cfg := 1, uid := 50 } (data 0 0) a o)) 0 = true) ∧
    (∀ n ∈ [none, some 0], let s := due1 { base with groups := [(groupKey 3 5, { applied := n })] } .seqContribution (.contrib (acc 0 5) 3)
      contribReady s 0 = true ∧ (acc 0 5).pieces.length = 1 ∧ (getGroup s 3 5).past (acc 0 5).src.itag = (n == some 0)) ∧
    (∀ q ∈ [0, 1, 0xFFFFFE], let s := due1 base .seqClose (.close (acc 0 5) 3 q none 4)
      closeReady s 0 = true ∧ q ≠ 0xFFFFFF ∧ (getGroup s 3 5).past q = false ∧ (getGroup s 3 5).closes = [] ∧ (getGroup s 3 5).staged = [] ∧
        ownerDown s 3 = false ∧ closedGroups s 3 = []) ∧
    (let e : Staged := { seq := 0, key := [], acc := acc 0 5 }
     let c : Closing := { seq := 0, id := 60, src := (acc 0 5).src, bar := none, bytes := 4 }
     let s := due1 { base with groups := [(groupKey 3 5, { staged := [e] })] } .seqClose (.close (acc 0 5) 3 0 none 4)
     closeReady s 0 = true ∧ (getGroup s 3 5).staged = [e] ∧ e.acc.pieces.length = 1 ∧
      contribBefore (setGroup (dropWork s 0) 3 5 { getGroup s 3 5 with held := true, closes := [c] }) e.acc = false) ∧
    (doneReady (due1 base .doneToken (.closeDone 60 1 { cfg := 1, uid := 50 } (data 0 0) [])) 0 = true) ∧
    (∀ va ∈ [0, 2 ^ 40], let s := due1 base .pageWalk (.walk 0 0 va false)
      (walk (dropWork s 0) 0 va false).isSome = (va == 0)) := by decide +kernel

/-! ### Witnesses: engines -/

/-- A job that copies four elements of record 0 to record 1. -/
def Sys2Proof.World.copyJob (st : JobSt) (started : Bool) (moved : Nat) : CopyJob :=
  { id := 70, src := { cfg := 1, uid := 50 }, srec := rec0, drec := rec1, count := 4, tag := 5, st := st, started := started, moved := moved
    tok := some (1, data 0 0) }

theorem witness_CopyJobsRun :
    (findCfg base 1).isSome = true ∧
    (let j := copyJob (.bound 3) true 0
     portBarred base j.src j.grove 3 = false ∧ portBarred { base with blocks := [(blockKey 2 3, true)] } j.src j.grove 3 = true ∧
      startPort (due1 { base with blocks := [(blockKey 2 3, true)] } .copyJobStart (.copy j)) 0 = some 3) ∧
    (∀ b ∈ [false, true], startPort (due1 base .copyJobStart (.copy (copyJob .queued b 0))) 0 = some 0 ∧
      startPort (due1 base .copyJobStart (.copy (copyJob (.bound 3) b 0))) 0 = some 3) ∧
    (∀ p ∈ [0, 3], ∀ n ∈ [0, 3], let j := copyJob (.running p) true n
      let s := due1 base .copyElement (.copy j)
      copyRuns s 0 = true ∧ j.xform = false ∧ (recOf j.drec).nf0 = false ∧ s.poison = [] ∧ s.drains = [] ∧
        (okAnd ((recOf j.srec).elem n) fun x => match x with
          | .outside => false
          | .at_ e => okAnd (jobParts s j.stream (portSrc s j) .read e 32) fun q => q.1 == [(0x20000 + 4 * n, 0x100000 + 32 * n, 32, 0)] &&
            okAnd ((recOf j.drec).elem n) fun y => match y with
              | .outside => false
              | .at_ d => okAnd (jobParts q.2 j.stream (portSrc s j) .copyDst d 32) fun l => l.1 == [(0x21000 + 4 * n, 0x108000 + 32 * n, 32, 0)]) = true) ∧
    (let j := { copyJob (.running 3) true 1 with sstart := 63 }
     copyRuns (due1 base .copyElement (.copy j)) 0 = true ∧ isErr ((recOf j.srec).elem 64) = true) ∧
    (∀ j ∈ [copyJob (.running 3) true 4, { copyJob (.running 0) true 1024 with count := 2000, cancelled := true }, { copyJob (.running 0) true 4 with tok := none }],
      copyEnds (due1 base .copyJobComplete (.copy j)) 0 = true) ∧ (getFrame base 1 0).skipped = false := by decide +kernel

/-- A grove with a command at its head, a BF16 plane, and a set of 2 by 2 by 3 with the owner given; 10 of its blocks were checked. -/
def Sys2Proof.World.array (op : MtxOp) (owner : Option (Nat × Nat)) : State :=
  let m : MtxCmd := ⟨70, { cfg := 1, uid := 50 }, op, []⟩
  event { base with groves := [(0, { active := { fmt := some 9 }, sets := [(3, { m := 2, n := 2, k := 3, owner := owner })], queue := [m], bc := 10 })] }
    .mtxCommandAtHead 0

theorem witness_ArrayActs :
    (∀ op ∈ [MtxOp.mswp, .mclr 3, .mshp 3 64 64 256, .mlw rec2 0 2 2, .mrdH 31 3 63 3 false, .mchk 31, .mstr 3 rec2 0 0 0 0],
      let s := array op (some (1, 0))
      let m : MtxCmd := ⟨70, { cfg := 1, uid := 50 }, op, []⟩
      mtxReady s 0 = some m ∧ mtxArrival s 0 m = none) ∧
    (∀ op ∈ [MtxOp.mrdH 31 3 0 0 false, .mstr 3 rec2 0 0 0 0, .mshp 3 1 1 1],
      let s := array op none
      let m : MtxCmd := ⟨70, { cfg := 1, uid := 50 }, op, []⟩
      mtxReady s 0 = some m ∧ mtxArrival s 0 m = some (tIllop 7) ∧ (findCfg s 1).isSome = true ∧ (cfg1.frame 0).stopped = none) ∧
    (okAnd (mlwRows (array .mswp none) { cfg := 1 } (recOf rec2) 0 2 2) fun _ => true) = true ∧
    (okAnd (mstrRows (array .mswp none) { cfg := 1 } (recOf rec2) 0 2 3 0) fun _ => true) = true ∧
    (numFmt 9).isSome = true ∧ (numFmt (recOf rec2).fmt).isSome = true := by decide +kernel

/-- The block whose checked column lies outside the set has no mismatch, whatever errors strike. -/
theorem witness_ArrayActs_match (s : State) (a : MSet) (b : List (List Bool)) (k j : Nat) (h : a.n ≤ 10) : mstrMismatch s a true b 10 k j = none := by
  unfold mstrMismatch
  split
  · rfl
  · simp [show ¬ 10 < a.n by omega]

/-- A relation job of cell 0; a descriptor (R371) of an algebra at 0x60000, with TRACE or not, spread over two devices where it names
handle 9; a tuple in the FULL, DELTA and NEXT parts of the shard, and one trace record of round 0. -/
def Sys2Proof.World.desc (alg fl handle : Nat) : RelDesc :=
  { va := 0x16000, pa := 0x16000, w := BitVec.ofNat 512 (descriptor alg 0 fl 0x60000 5 + handle) }
def Sys2Proof.World.relJob (op : RelOp) : RelJob := { id := 70, src := { cfg := 1, uid := 50 }, op := op }
def Sys2Proof.World.relBase (l : List (Nat × Nat × Nat)) : State :=
  { base with
    mem := tables ++ bytesOf ([(0x16000, 29, descriptor 5 0 0 0x60000 5), (0x16600, 9, 1 + 0x16000 * 2 ^ 64)] ++ l)
    placement := [(9, { defd := true, desc := 8, sizes := [2, 1, 1, 1] })] }
def Sys2Proof.World.shardOf (k : Nat) : List (Nat × Nat × Nat) :=
  [(0x60010, 4, 1), (0x60100 + 256 * k, 32, tuple), (0x60400, 32, 2 ^ 24 + 1 + 7 * 2 ^ 64 + 3 * 2 ^ 96 + 1 * 2 ^ 128 + 0xFFFFFFFF * 2 ^ 160)]

/-- Writes in order, none where one is refused or dropped. -/
def Sys2Proof.World.puts (x : Src) : State → List (Nat × Nat × Nat) → Option State
  | s, [] => some s
  | s, w :: l => match jobPut s x w.1 w.2.1 w.2.2 with
    | .ok (u, none) => puts x u l
    | _ => none

theorem putAll_of_puts {x : Src} : ∀ {l : List (Nat × Nat × Nat)} {s t : State}, puts x s l = some t → PutAll x s l t
  | [], _, _, h => (Option.some.inj h).symm
  | w :: l, s, t, h => by
    unfold puts at h
    split at h
    · exact ⟨_, ‹_›, putAll_of_puts h⟩
    · exact absurd h (by simp)

theorem witness_RelationUnitActs_jobs :
    (∀ n ∈ [1, 64, 65], ∀ del ∈ [false, true],
      relReady (due1 (relBase []) .relationJobBlock (.rel (relJob (.rins (desc 5 0 0) (List.replicate n (BitVec.ofNat 256 tuple)) del)))) 0 false = true) ∧
    (∀ anti ∈ [false, true],
      let j := relJob (.rjoin (BitVec.ofNat 512 (2 ^ 48 + 2 ^ 16)) (desc 5 0 0) (desc 5 0 0) (desc 5 0 0) anti)
      let s := due1 (relBase (shardOf 1)) .relationJobBlock (.rel j)
      relReady s 0 false = true ∧ (okAnd (joinProbes s j (desc 5 0 0) (desc 5 0 0) anti) fun l => (l.length == if anti then 1 else 2) &&
        okAnd (((l.drop j.progress).take 64).mapM fun q =>
          if q.1 then probeDeltaB s j (2 ^ 48 + 2 ^ 16) (desc 5 0 0) (desc 5 0 0) q.2 else probeDeltaA s j (2 ^ 48 + 2 ^ 16) (desc 5 0 0) (desc 5 0 0) anti q.2)
          fun _ => true) = true) ∧
    (let j := relJob (.rgrad (desc 1 1 0) (desc 4 0 0) 0)
     let s := due1 (relBase (shardOf 0)) .relationJobBlock (.rel j)
     relReady s 0 false = true ∧ (okAnd (roundTraces s j.src (desc 1 1 0) 0) fun l => l.length == 1 &&
       okAnd (((l.drop j.progress).take 64).mapM (gradOne s j (desc 1 1 0) (desc 4 0 0))) fun cs => cs.flatten.length == 1) = true) ∧
    (∀ use ∈ [false, true], let d := desc 5 0 0
      let j := relJob (.rclr d use)
      let s := due1 (relBase []) .relationJobBlock (.rel j)
      relReady s 0 false = true ∧ ((puts j.src s ((List.range d.shards).map fun n => (d.shard n, d.size, 0))).any fun p =>
        okAnd (jobBytes p j.src d.va 16) fun w => (puts j.src p [(d.va, 16, putBits (putBits w 63 1 0) 104 24 0)]).isSome) = true) ∧
    (let j := relJob (.rlook (desc 5 0 0) [7, 0, 0, 0] (some 31))
     let s := due1 (relBase (shardOf 0)) .relationJobBlock (.rel j)
     relReady s 0 false = true ∧ ownerShard s (desc 5 0 0) 7 = some 0 ∧ (okAnd (readPart s j.src (desc 5 0 0) 0 0) fun _ => true) = true) := by
  decide +kernel

theorem witness_RelationUnitActs_rqck :
    (∀ g ∈ [false, true], let j := relJob (.rqck 0x16300 0x16700 0x16700 0x16600 1 g (some 31))
      let s := due1 (relBase []) .relationJobBlock (.rel j)
      relReady s 0 false = true ∧ s.poison = [] ∧ s.drains = [] ∧
        (okAnd (jobBytes s j.src 0x16310 8) fun v => (puts j.src s [(0x16310, 8, (v + 1) % 2 ^ 64)]).isSome) = true) ∧
    (∀ g ∈ [false, true], ∀ n ∈ [0, 1], let j := { relJob (.rqck 0x16300 0x16700 0x16700 0x16600 n g (some 31)) with arrived := true }
      let s := { due1 (relBase (if n = 0 then [] else [(0x16310, 8, n)])) .relationJobBlock (.rel j) with
        barWaits := [{ pa := 0x16700, who := 0, uid := 70, expected := 0, got := some 1 }] }
      relReady s 0 false = true ∧ (okAnd (jobBytes s j.src 0x16310 8) fun c => (c == n) && (puts j.src s [(0x16328, 8, 0)]).any fun p =>
        okAnd (jobBytes p j.src 0x16600 8) fun m => m % 256 == 1 && okAnd (jobBytes p j.src 0x16608 8) fun e => okAnd (jobBytes p j.src (e % 2 ^ 56) 8) fun w =>
          (puts j.src p [(e % 2 ^ 56, 8, putBits w 63 1 1)]).isSome) = true) := by decide +kernel

theorem witness_RelationUnitActs_rounds :
    let d := desc 5 0 0
    let j := relJob (.rrnd d (some 31))
    (∀ l ∈ [[], shardOf 2], let s := due1 (relBase l) .rrndRoundClose (.rel j)
      relReady s 0 true = true ∧ groveShard s j.src d = some 0 ∧ (okAnd (readHeader s j.src d 0) fun hd => okAnd (readPart s j.src d 0 0) fun full =>
        okAnd (readPart s j.src d 0 2) fun next =>
        match (nextKeys next).foldlM (closeTuple d hd.rc next) { full := full, delta := List.replicate d.slots 0 } with
        | none => false
        | some r => (puts j.src s [(partVa d 0 0, d.part, partValue r.full), (partVa d 0 1, d.part, partValue r.delta), (partVa d 0 2, d.part, 0),
            (d.shard 0, 40, ({ hd with rc := hd.rc + 1 } : Header).value)]).any fun p =>
          okAnd (jobBytes p j.src (d.va + 8) 8) fun w => (puts j.src p [(d.va + 8, 8, putBits w 40 24 (hd.rc + 1))]).isSome) = true) ∧
    (let s := due1 (relBase (shardOf 2 ++ (List.range 8).map fun i => (0x60100 + 32 * i, 32, tuple + 1 + i))) .rrndRoundClose (.rel j)
     relReady s 0 true = true ∧ (okAnd (readHeader s j.src d 0) fun hd => okAnd (readPart s j.src d 0 0) fun full =>
        okAnd (readPart s j.src d 0 2) fun next =>
        ((nextKeys next).foldlM (closeTuple d hd.rc next) { full := full, delta := List.replicate d.slots 0 }).isNone) = true) := by decide +kernel

theorem witness_RelationUnitActs_contributions :
    (let c : RelContrib := { src := { cfg := 1 }, desc := desc 5 0 9, keys := [1, 0, 0, 0], weight := 3 }
     workAt (due1 (relBase []) .relationContribution (.relContrib c)) 0 = some (.relContrib c) ∧
      ownerShard (dropWork (due1 (relBase []) .relationContribution (.relContrib c)) 0) c.desc 1 = none) ∧
    (∀ q ∈ [(5, 0), (5, 3), (0, 1), (1, 0x7FC00000)], let c : RelContrib := { src := { cfg := 1 }, desc := desc q.1 0 0, keys := [7, 0, 0, 0], weight := q.2 }
      let p := dropWork (due1 (relBase []) .relationContribution (.relContrib c)) 0
      ownerShard p c.desc 7 = some 0 ∧ contribRace p c 0 = none ∧ c.bar = none ∧ c.clamped = false ∧ c.desc.trace = false ∧
        discard c.desc.algebra c.weight = (if q.2 = 0 then 2 else if q.1 = 1 then 1 else 0) ∧
        (okAnd (readHeader p c.src c.desc 0) fun h => (puts c.src p [(c.desc.shard 0, 40, h.value)]).isSome && okAnd (readPart p c.src c.desc 0 0) fun full =>
          okAnd (readPart p c.src c.desc 0 2) fun next => (findTup c.desc full c.keys).isNone && (findTup c.desc next c.keys).isNone &&
          freeSlot c.desc next c.keys [] == some 0 &&
          (puts c.src p [(partVa c.desc 0 2, 32, tuple), (c.desc.shard 0, 40, ({ h with nnext := h.nnext + 1 } : Header).value)]).any fun q =>
            okAnd (jobBytes q c.src c.desc.va 8) fun w => bits w 63 1 == 0 || (puts c.src q [(c.desc.va, 8, putBits w 63 1 0)]).isSome) = true) := by decide +kernel

theorem witness_RelationUnitActs_sorts :
    (∀ q ∈ [[], [9, 8, 7]], let j : SortJob := { id := 70, src := { cfg := 1 }, krec := rec0, e := 0, o := 32, n := 4, rows := 2, tag := some 5, read := q }
      let s := due1 (relBase []) .sortJobBlock (.sort j)
      sortReady s 0 = true ∧ j.reads = true ∧ (okAnd (jobRead s none j.src (j.recAt q.length) (j.e + q.length)) fun _ => true) = true) ∧
    (let j : SortJob := { id := 70, src := { cfg := 1 }, krec := rec0, e := 64, n := 4, rows := 1 }
     j.reads = true ∧ isErr (jobRead base none j.src (j.recAt 0) 64) = true) ∧
    (∀ q ∈ [(2, 0), (1, 0), (1, 1)], let j : SortJob := { id := 70, src := { cfg := 1 }, krec := rec0, e := 0, o := 32, n := 4, rows := 2, row := q.2, tag := some 5, read := [9, 8, 7, 6], out := (List.range 4).drop (4 - q.1) }
      let s := due1 (relBase []) .sortJobBlock (.sort j)
      sortReady s 0 = true ∧ j.reads = false ∧ j.out ≠ [] ∧ j.drop = none ∧ (findCfg s 1).isSome = true ∧
        (okAnd (jobWrite s none j.src (j.recAt (4 - q.1)) (j.o + j.row * 4 + (4 - q.1)) 5) fun r => r.2.isNone) = true) := by decide +kernel

/-- Entries of two runs in order, and of one that is not. -/
theorem witness_RelationUnitActs_order :
    let j : SortJob := { op := 2, n := 2, n2 := 2 }
    [⟨1, 0⟩, ⟨3, 0⟩].Pairwise (SortLe j (.int 32)) ∧ [⟨2, 0⟩, ⟨2, 1⟩].Pairwise (SortLe j (.int 32)) ∧ ¬ [⟨3, 0⟩, ⟨1, 0⟩].Pairwise (SortLe j (.int 32)) ∧
      SortLe { op := 0 } (.int 32) ⟨2, 0⟩ ⟨2, 1⟩ := by
  intro j
  have a : ∀ x, x < 4 → ∀ y, y < 4 → ∀ p q, SortLe j (.int 32) ⟨x, p⟩ ⟨y, q⟩ ↔ x ≤ y := by
    intro x hx y hy p q
    unfold SortLe
    revert x y
    show ∀ x, x < 4 → ∀ y, y < 4 → (keyLt (.int 32) y x = false ↔ x ≤ y)
    decide +kernel
  refine ⟨by simp [a], by simp [a], by simp [a], ?_⟩
  show keyLt (.int 32) 2 2 = false
  decide +kernel

/-! ### Witnesses: the placement unit -/

/-- Device 3 with the handle 4095 and the slot 255 defined. -/
def Sys2Proof.World.placeBase : State := placeWorld base 0x20000

/-- A demand for state R on every axis, with the view at `b`; a conversion of the handle, or an instance of a slot, whose steps are
done. -/
def Sys2Proof.World.dem (b : Nat) : Demand := { id := 70, src := { cfg := 1, uid := 50 }, handle := 4095, rcd := view b }
def Sys2Proof.World.conv (h : Nat) (started : Bool) : ConvJob :=
  { id := 70, src := { cfg := 1 }, handle := h, version := 1, sig := 5, fmt := 8, view := 0x20000, target := 0x28000, mesh := 0x17040
    extents := [2, 1, 1, 1], started := started, data := [(1, 0), (2, 0)] }

/-- A packet for device `final` with a signature and a class, which goes to its destination, or on link 5. -/
def Sys2Proof.World.pack (final id sig cls : Nat) : Packet := { header := packetHeader 1 id final 2 sig 0 cls 8 0 0 0 }
def Sys2Proof.World.hop5 (x : Packet) : Packet := { x with header := BitVec.ofNat 512 (putBits x.header.toNat 256 16 5) }

/-- The mesh that a job reads as it starts. -/
def Sys2Proof.World.meshIs (s : State) (va : Nat) (p : Mesh → List Nat → Bool) : Bool := okAnd (jobMesh s { cfg := 1 } va) fun q => match q with
  | some (m, ds) => p m ds
  | none => false

theorem witness_PlacementUnitActs_demands :
    (let s := due1 { placeBase with placement := [(4095, { desc := BitVec.ofNat 512 (2 ^ 63) })] } .conversionDemand (.demand (dem 0x28000))
     demandTaken s 0 = true ∧ dOrdf (getPlacement s 4095).d = true) ∧
    (let s := due1 placeBase .conversionDemand (.demand (dem 0x20000))
     demandTaken s 0 = true ∧ dOrdf (getPlacement s 4095).d = false ∧ joins s 4095 0 (recOf (dem 0x20000).rcd).base = true) ∧
    (let s := due1 placeBase .conversionDemand (.demand (dem 0x28000))
     demandTaken s 0 = true ∧ dOrdf (getPlacement s 4095).d = false ∧ joins s 4095 0 (recOf (dem 0x28000).rcd).base = false ∧
      (okAnd (demandCheck s (dem 0x28000).src 4095 0 (recOf (dem 0x28000).rcd)) fun _ => true) = true) ∧
    (∀ d ∈ [dem 0x20000, { dem 0x20000 with tag := some 5 }, { dem 0x20000 with held := some 31 }],
      let s := due1 placeBase .conversionComplete (.waiting d)
      convEnds s 0 = true ∧ landable s d = true ∧ (findCfg s d.src.cfg).isSome = true ∧ (okAnd (demandLoad s d) fun v => !v.2) = true) := by decide +kernel

/-- The job reads element `n` of its source view. -/
def Sys2Proof.World.reads (s : State) (coll : Bool) (y : ConvJob) (n : Nat) : Bool :=
  decide (y.data.length = n ∧ n < (jobSource y).count) && okAnd (jobRead s (edgeStream s coll y) (edgeSrc s coll y) (jobSource y) n) fun _ => true

/-- The bars of R403: the job is a normal issuer's and its port's streamer is secure. -/
def Sys2Proof.World.barredJob (s : State) (coll : Bool) (y : ConvJob) : Bool := !y.src.secure && blockSecure s 3 (jobPort s coll y)

theorem witness_PlacementUnitActs_starts :
    (∀ sec ∈ [false, true], let j := { conv 4095 false with data := [] }
     let s := due1 { placeBase with blocks := [(blockKey 3 0, sec)] } .conversionStart (.conv j)
     convStarts s 0 = true ∧ j.begun = false ∧ meshIs s j.mesh (fun m ds =>
      let y := { j with sizes := m.sizes, self := m.self, devs := ds }
      ds.all (fun d => d == ownDev s) && barredJob s false y == sec && (sec || reads s false { y with begun := true } 0)) = true) ∧
    (∀ sec ∈ [false, true], let j := { conv 255 false with data := [] }
     let s := due1 { placeBase with blocks := [(blockKey 3 0, sec)] } .conversionStart (.coll j)
     convStarts s 0 = true ∧ j.begun = false ∧ meshIs s (getSlot s 255).mesh (fun m ds =>
      let y := collJob (getSlot s 255) j m ds
      ds.all (fun d => d == ownDev s) && barredJob s true y == sec && (sec || reads s true { y with begun := true } 0)) = true) ∧
    (∀ coll ∈ [false, true], let j := { conv 7 false with mesh := 0 }
      let s := due1 placeBase .conversionStart (if coll then .coll j else .conv j)
      convStarts s 0 = true ∧ (okAnd (jobMesh s { cfg := 1 } (if coll then (getSlot s 7).mesh else j.mesh)) fun m => m.isNone) = true) := by decide +kernel

/-- A conversion under way: its last element, and its source view read whole. -/
theorem witness_PlacementUnitActs_reads :
    (let j := { conv 4095 false with data := [(1, 0)], begun := true }
     let s := due1 placeBase .conversionStart (.conv j)
     convStarts s 0 = true ∧ reads s false j 1 = true ∧ (jobSource j).count = 2) ∧
    (let j := { conv 4095 false with begun := true }
     convStarts (due1 placeBase .conversionStart (.conv j)) 0 = true ∧ (jobSource j).count ≤ j.data.length) := by decide +kernel

/-- A packet of a collective that a node combines, with a leaf. -/
def Sys2Proof.World.nodePack (leaf : Nat) : Packet :=
  { header := BitVec.ofNat 512 (putBits (packetHeader 1 255 3 2 0 0 1 8 0 1 leaf).toNat 256 16 0x1007), payload := [1, 2, 3, 4] }

/-- A packet on link 5 of the instance after that of slot 255, which is parked; two sibling subtrees at one node. -/
theorem witness_PlacementUnitActs_nodes :
    (let x := { hop5 (pack 3 255 0 0) with port := 5, header := BitVec.ofNat 512 (putBits (pack 3 255 0 0).header.toNat 256 16 0x1000) }
     let s := due1 placeBase .conversionPacket (.packet x)
     packetTaken s 0 = true ∧ packetJob s x = none ∧ packetPasses s x = false ∧ x.combines = false) ∧
    (∀ l ∈ [(4, 6), (6, 4)], let x := nodePack l.1
     let s := { due1 placeBase .conversionPacket (.packet x) with work := [.packet x, .packet (nodePack l.2)] }
     packetTaken s 0 = true ∧ packetPasses s x = false ∧ x.combines = true ∧ siblingOf s 0 x = some (1, nodePack l.2)) := by decide +kernel

theorem witness_PlacementUnitActs_conversions :
    (∀ x ∈ [pack 9 4095 5 0, hop5 (pack 9 4095 5 0), hop5 (pack 3 4095 5 0)], let s := due1 placeBase .conversionPacket (.packet x)
     packetTaken s 0 = true ∧ packetPasses s x = true ∧ (getLink s 5).up = true) ∧
    (let x := hop5 (pack 9 4095 5 0)
     let s := { due1 { placeBase with links := [(5, { up := false })] } .conversionPacket (.packet x) with work := [.packet x, .conv (conv 4095 true)] }
     packetTaken s 0 = true ∧ packetPasses s x = true ∧ x.hop = (0, 5) ∧ (getLink s 5).up = false ∧
      packetJob (dropWork s 0) x = some (false, conv 4095 true)) ∧
    (let s := { due1 placeBase .conversionPacket (.packet (pack 3 4095 5 0)) with work := [.packet (pack 3 4095 5 0), .conv (conv 4095 true)] }
     packetTaken s 0 = true ∧ packetPasses s (pack 3 4095 5 0) = false ∧ (pack 3 4095 5 0).combines = false ∧
      packetJob (dropWork s 0) (pack 3 4095 5 0) = some (false, conv 4095 true)) ∧
    (let s := due1 { placeBase with placement := [(4095, { desc := BitVec.ofNat 512 (2 ^ 63) })] } .conversionAbort (.packet (pack 3 4095 5 2))
     packetAborts s 0 = true ∧ packetJob s (pack 3 4095 5 2) = none) ∧
    (let s := { due1 placeBase .conversionAbort (.packet (pack 3 4095 6 0)) with work := [.packet (pack 3 4095 6 0), .conv (conv 4095 true)] }
     packetAborts s 0 = true ∧ packetJob s (pack 3 4095 6 0) = some (false, conv 4095 true) ∧ (pack 3 4095 6 0).w 1 ≠ (conv 4095 true).sig) ∧
    (let j := { conv 255 true with sig := 0 }
     let s := { due1 placeBase .conversionAbort (.packet (pack 3 255 0 2)) with work := [.packet (pack 3 255 0 2), .coll j] }
     packetAborts s 0 = true ∧ packetJob s (pack 3 255 0 2) = some (true, j)) ∧
    (let j := { conv 4095 true with written := 1 }
     let s := due1 placeBase .conversionComplete (.conv j)
     convEnds s 0 = true ∧ j.written < j.data.length ∧ (okAnd (jobWrite s (edgeStream s false j) (edgeSrc s false j) (jobTarget j) j.written 2) fun q => q.2.isNone) = true ∧
      convEnds { s with work := [.conv { j with written := 2 }] } 0 = true ∧ j.data.length ≤ 2) ∧
    (let j := { conv 255 true with written := 1 }
     let s := due1 placeBase .collectiveComplete (.coll j)
     collEnds s 0 = true ∧ j.written < j.data.length ∧ (okAnd (jobWrite s (edgeStream s true j) (edgeSrc s true j) (jobTarget j) j.written 2) fun q => q.2.isNone) = true ∧
      collEnds { s with work := [.coll { j with written := 2 }] } 0 = true ∧ j.data.length ≤ 2) := by decide +kernel

/-! ### Witnesses: scheduling, Troira, the host, the fabric, power -/

/-- A successor that waits for the cells of configuration 1, and configuration 1 with that successor. -/
def Sys2Proof.World.succ2 (im : Option Image) : Cfg :=
  { cfg1 with id := 2, pred := some 1, image := im, checkedStages := [0], words := [BitVec.ofNat 64 (2 ^ 40), 7, BitVec.ofNat 64 (2 ^ 24 + 2 ^ 30 + 2 ^ 41), 0, 0, 0x2000, 0, 0] }
def Sys2Proof.World.splice (im : Option Image) : State :=
  { base with cfgs := [{ cfg1 with succ := some 2 }, succ2 im], cells := [(0, { cfg := 1 })] }

theorem witness_SchedulerActs :
    { event base .arbitrationRound 0 with round := true }.round = true ∧
    (findCfg base 1 = some cfg1 ∧ mayComplete base cfg1 = true ∧ cfg1.succ = none ∧ cfg1.issuer = 2000) ∧
    (let c := { cfg1 with issuer := 7, words := [0, 0, BitVec.ofNat 64 (2 ^ 24 + 2 ^ 30), 0, BitVec.ofNat 64 (2 ^ 62), 0, 0, 0] }
     mayComplete { base with cfgs := [c] } c = true ∧ bit (c.w 4) 62 = true ∧ c.issuer < 2000) ∧
    (∀ im ∈ [none, some (⟨[], true, []⟩ : Image)], (retiring (splice im) 0).map (·.2) = some (succ2 im) ∧
      (succ2 im).checkedStages.contains (((succ2 im).stageOf (groveOf 0)).getD 0) = true) ∧
    isErr (readImage (splice none) (spaceSrc 2000 0 false) ((succ2 none).w 0) 1 1 1 (fieldNow (splice none) (succ2 none))) = true ∧
    (let c := { cfg1 with st := .preempting, preempters := [1024] }
     findCfg { base with cfgs := [c] } 1 = some c ∧ mayHold { base with cfgs := [c] } c = true) ∧
    timeoutDue (event (unit' 7 { deadline := some 0 }) .wfeTimeout 7) 7 = true := by
  decide +kernel

/-- Memory with a record of 32 by 32 groves at 0x30040 and one of 1 by 1 at 0x30080, whose image at 0x34000 holds START and its
checksum alone. -/
def Sys2Proof.World.schedMem : Table Byte :=
  tables ++ bytesOf [(0x30050, 8, 2 ^ 29 + 2 ^ 35), (0x30080, 8, 0x34000), (0x30090, 8, 2 ^ 24 + 2 ^ 30),
    (0x34000, 8, 0x15A534B31), (0x34008, 8, 64 + 4 * 2 ^ 32), (0x34010, 8, 128), (0x34018, 8, 65), (0x34020, 8, 80),
    (0x34040, 8, 0xC0000000 + 0xCC001DAC * 2 ^ 32), (0x34048, 8, 0xD000BA20 + 0xC8000000 * 2 ^ 32)]

/-- The two records as heads of queues 5 and 9, passed over `m` and `n` times; grove 0 is taken. -/
def Sys2Proof.World.bigHead (m : Nat) : Head :=
  { q := 5, e := { addr := 0x30040, bypass := m, cap := some [] }, v := (2 ^ 29 + 2 ^ 35) * 2 ^ 128, fit := ⟨32, 32, 1, false, []⟩, saved := none }
def Sys2Proof.World.smallHead (n : Nat) : Head :=
  { q := 9, e := { addr := 0x30080, bypass := n, cap := some [] }, v := 0x34000 + (2 ^ 24 + 2 ^ 30) * 2 ^ 128, fit := ⟨1, 1, 1, false, []⟩, saved := none }
def Sys2Proof.World.heads (hs : List Head) : State :=
  { event base .arbitrationRound 0 with round := true, mem := schedMem, queues := hs.map fun h => (h.q, [h.e]) }

/-- With room in the parking pool a head is placed as its rectangles allow. -/
theorem place_room {s : State} {e r : Bool} {f : Fit} (h : parkingUsed s + 64 * f.w * f.h * f.n ≤ Config.parkingPool) :
    place s e r f = placeStages s e f f.n 0 [] := by
  have : (if e then 0 else parkingUsed s) ≤ parkingUsed s := by cases e <;> simp
  simp only [place, Bool.and_eq_true, decide_eq_true_eq, ite_eq_right_iff, and_imp]
  intro _ h'
  omega

/-- A record that is in order is a head that may be admitted. -/
theorem consider_ready {s : State} {h : Head} (hs : h.e.save = false) (h1 : jobBytes s (entrySrc h.e) h.e.addr 64 = .ok h.v)
    (h2 : badShape (recW h.v) (recH h.v) (recN h.v) = false) (h3 : recJoin h.v = 0)
    (h4 : h.e.cap = some h.fit.cap) (h5 : h.fit = ⟨recW h.v, recH h.v, recN h.v, recSecure h.v, h.fit.cap⟩) (h6 : h.saved = none)
    (h7 : (place s true false h.fit).isSome = true) : consider s h.q h.e = .ready h := by
  have h8 : (place s true false ⟨recW h.v, recH h.v, recN h.v, recSecure h.v, h.fit.cap⟩).isNone = false := by rw [← h5]; simpa using h7
  simp only [consider, hs, Bool.false_eq_true, if_false, considerRecord, h1, h2, h3, ne_eq, not_true_eq_false, h4]
  rw [h8, ← h5]
  simp only [Bool.false_eq_true, if_false, ← h6]

/-- A head's conditions, but for the room in the parking pool, and the origins that it finds. -/
def Sys2Proof.World.InOrder (s : State) (h : Head) (o : Option (List Nat)) : Prop :=
  (okAnd (jobBytes s (entrySrc h.e) h.e.addr 64) fun v => v == h.v) = true ∧ badShape (recW h.v) (recH h.v) (recN h.v) = false ∧ recJoin h.v = 0 ∧
    h.fit = ⟨recW h.v, recH h.v, recN h.v, recSecure h.v, h.fit.cap⟩ ∧ (placeStages s true h.fit h.fit.n 0 []).isSome = true ∧
    parkingUsed s + 64 * h.fit.w * h.fit.h * h.fit.n ≤ 65600 ∧ placeStages s false h.fit h.fit.n 0 [] = o ∧ h.saved = none ∧ h.e.save = false ∧
    h.e.cap = some h.fit.cap

theorem inOrder_consider {s : State} {h : Head} {o : Option (List Nat)} (i : InOrder s h o) (hp : 65600 ≤ Config.parkingPool) :
    consider s h.q h.e = .ready h ∧ placeHead s h = o := by
  obtain ⟨h1, h2, h3, h5, h7, hr, ho, h6, hs, h4⟩ := i
  obtain ⟨v, hv, e⟩ := of_okAnd h1
  rw [beq_iff_eq.mp e] at hv
  have room : ∀ e r, place s e r h.fit = placeStages s e h.fit h.fit.n 0 [] := fun _ _ => place_room (Nat.le_trans hr hp)
  exact ⟨consider_ready hs hv h2 h3 h4 h5 h6 (by rw [room]; exact h7), by rw [placeHead, room, ho]⟩

theorem heads_inOrder (m n : Nat) (hm : m = 0 ∨ m = 8) (hn : n = 0 ∨ n = 8) :
    InOrder (heads [bigHead m]) (bigHead m) none ∧ InOrder (heads [bigHead m, smallHead n]) (bigHead m) none ∧
    InOrder (heads [bigHead m, smallHead n]) (smallHead n) (some [1]) := by
  unfold InOrder
  rcases hm with rfl | rfl <;> rcases hn with rfl | rfl <;> decide +kernel

/-- A head that finds no place; a starved one that finds none beside one that does; the small head admitted behind the large one, starved
or not; its image installed, or refused where there is none. -/
theorem witness_SchedulerActs_admission (hp : 65600 ≤ Config.parkingPool) :
    (considerAll (heads [bigHead 0]) (queueHeads (heads [bigHead 0])) = .ok [bigHead 0] ∧ placeHead (heads [bigHead 0]) (bigHead 0) = none) ∧
    (let s := heads [bigHead 8, smallHead 0]
     considerAll s (queueHeads s) = .ok [bigHead 8, smallHead 0] ∧ placeHead s (bigHead 8) = none ∧
      ((roundOrder s [bigHead 8, smallHead 0]).find? fun h => 8 ≤ h.e.bypass) = some (bigHead 8)) ∧
    (∀ n, n = 0 ∨ n = 8 → let s := heads [bigHead 0, smallHead n]
      considerAll s (queueHeads s) = .ok [bigHead 0, smallHead n] ∧ Admits s [bigHead 0, smallHead n] [bigHead 0] (smallHead n) [1]) := by
  refine ⟨?_, ?_, ?_⟩
  · have a := inOrder_consider (heads_inOrder 0 0 (.inl rfl) (.inl rfl)).1 hp
    refine ⟨?_, a.2⟩
    show considerAll _ [((bigHead 0).q, (bigHead 0).e)] = _
    simp only [considerAll, a.1, Except.map]
  · have a := inOrder_consider (heads_inOrder 8 0 (.inr rfl) (.inl rfl)).2.1 hp
    have b := inOrder_consider (heads_inOrder 8 0 (.inr rfl) (.inl rfl)).2.2 hp
    refine ⟨?_, a.2, by decide +kernel⟩
    show considerAll _ [((bigHead 8).q, (bigHead 8).e), ((smallHead 0).q, (smallHead 0).e)] = _
    simp only [considerAll, a.1, b.1, Except.map]
  · intro n hn
    have a := inOrder_consider (heads_inOrder 0 n (.inl rfl) hn).2.1 hp
    have b := inOrder_consider (heads_inOrder 0 n (.inl rfl) hn).2.2 hp
    refine ⟨?_, [], ?_, b.2, ?_⟩
    · show considerAll _ [((bigHead 0).q, (bigHead 0).e), ((smallHead n).q, (smallHead n).e)] = _
      simp only [considerAll, a.1, b.1, Except.map]
    · rcases hn with rfl | rfl <;> decide +kernel
    · rcases hn with rfl | rfl
      · exact .inr ⟨by decide +kernel, by simpa using a.2⟩
      · exact .inl ⟨by decide +kernel, by decide +kernel⟩

theorem witness_SchedulerActs_images :
    (let s := heads [bigHead 0, smallHead 0]
     s.drains = [] ∧ twf [] s.queues = true ∧ s.nextId ≠ 0 ∧ findCfg s s.nextId = none ∧ twf {} s.cells = true ∧
      (okAnd (imageFor s (smallHead 0)) fun im => im == some ⟨[], false, []⟩) = true) ∧
    (let h : Head := { smallHead 0 with v := (2 ^ 24 + 2 ^ 30) * 2 ^ 128 + 2 ^ 62 * 2 ^ 256, e := { (smallHead 0).e with issuer := 7 } }
     (okAnd (imageFor (heads [h]) h) fun im => im.isNone) = true ∧ bit (rw h.v 4) 62 = true) := by decide +kernel

/-- A cell's choice: none beside a firing; the first in deterministic order; one that 64 others have passed; else the next frame's. -/
theorem witness_SchedulerActs_choices :
    (let t := fun fr : Nat => ({ cfg := 1, ctx := 0, frame := fr, port := 0, payload := 1 } : Token)
     let x : Cell := { cell0 with fields := [(0, 1), (1, 1)], tokens := [t 0, t 1023] }
     let c : Cfg := { cfg1 with frames := [(0, { live := true }), (1023, { live := true })] }
     let at_ := fun (x : Cell) (d : Nat) =>
       ({ base with cells := [(0, x)], cfgs := [{ c with words := [0x30000, 7, BitVec.ofNat 64 (2 ^ 24 + 2 ^ 30 + d * 2 ^ 40), 0, 0, 0x2000, 0, 0] }] } : State)
     (getCell (at_ { x with firing := some (fire []) } 0) 0).firing.isSome = true ∧
     ((getCfg (at_ x 1) 1).det = true ∧ readyAt (at_ x 1) x = [(0, 0, 0), (0, 1023, 0)] ∧ firingChoices (at_ x 1) 0 = [(0, 0, 0), (0, 1023, 0)].take 1) ∧
     (let y : Cell := { x with passed := [(0, 0, 0, 63), (0, 1023, 0, 64)] }
      firingChoices (at_ y 0) 0 = [(0, 1023, 0)] ∧ y.firing = none ∧ (getCfg (at_ y 0) 1).det = false) ∧
     ∀ f ∈ [1022, 1023], firingChoices (at_ { x with lastFrame := some f } 0) 0 = (if f = 1022 then [(0, 1023, 0)] else [(0, 0, 0)])) := by decide +kernel

theorem witness_TroiraAndDrainsAct :
    (∀ q ∈ [(0, 0), (5, 0), (3, 0x40000), (3, 0x4003F), (1, 0x4003F), (1, 2 ^ 63 + 0x10005)], smcDrained base 7 q.1 q.2 0 = true) ∧
    bits 0x4003F 0 14 < blockCount (bits 0x4003F 16 4) ∧ base.drains = [] ∧
    (∀ c ∈ [2, 4], let s := { base with poison := [0x30000] }
     smcDrained s 7 c 0x30000 0 = true ∧ isErr (smcAnswer (dropWork s 0) 7 c 0x30000 0) = true ∧
      (okAnd (smcAnswer (dropWork base 0) 7 c 8 0) fun a => a.1 == 3) = true) ∧
    (let g := (0x20000, 0x10000000000)
     let c : Ckpt := { block := 0x30000, pending := [g], regions := [(0x20000, 0x10000000000, 4096)], vas := [(0x10000000000, 2 ^ 30, 4096)] }
     let s := event { base with drains := [(0, [c])], poison := [0x20FC0] } .ckptGranuleCopy 0
     ckptNext s 0 = some (c, g) ∧ (okAnd (ckptSides s 0 c g) fun q => poisonedRange s q.1 4096) = true) ∧
    (∀ d ∈ [2 ^ 30, 2 ^ 40], let g := (0x20000, 0x10000000000)
     let c : Ckpt := { block := 0x30000, pending := [g], regions := [(0x20000, 0x10000000000, 4096)], vas := [(0x10000000000, d, 4096)] }
     let s := event { base with drains := [(0, [c])] } .ckptGranuleCopy 0
     ckptNext s 0 = some (c, g) ∧ s.poison = [] ∧ drainHits s (0x10000000000 * 8) 32768 = [] ∧ drainHits s ((c.block + 24) * 8) 64 = [] ∧
      (match ckptSides s 0 c g with
        | .ok q => d == 2 ^ 30 && q == g
        | .error e => d == 2 ^ 40 && e.cause == cTRANSL) = true ∧ c.block + 32 ≤ 0x10000000000) ∧
    (let c : Ckpt := { block := 0x30000 }
     let s := event { base with drains := [(3, [c])] } .ckptComplete 3
     ckptHead s 3 = some c ∧ c.pending = [] ∧ s.poison = [] ∧ drainHits s ((c.block + 24) * 8) 64 = []) := by decide +kernel

theorem witness_HostPort :
    (∀ pw ∈ [Power.pw0, .pw1], let s := { base with mem := records [], power := pw }
      s.fwOk = true ∧ s.power ≠ .pw2 ∧ (okAnd (jobBytes s (entrySrc { addr := 0x30000, issuer := 2000 }) 0x30000 64)
      fun r => launchStatus s r 5 false false 0 == stOK) = true ∧ bits (0x30000 + 5) 6 50 * 64 = 0x30000 ∧
      isErr (jobBytes s (entrySrc { addr := 2 ^ 40, issuer := 2000 }) (2 ^ 40) 64) = true ∧ bits (2 ^ 40) 6 50 * 64 = 2 ^ 40) ∧
    ({ base with fwOk := false }.fwOk = false ∧ { base with power := .pw2 }.power = .pw2 ∧ base.doorbells = []) ∧
    (hostReach base 0x10000000000 1 = true ∧ hostReach base 0x17FFFFFFFFF 1 = true ∧ hostReach base 0x17FFFFFFFFF 2 = false ∧
      hostReach base 0xFFFFFFFFFF 1 = false ∧ onBarrierPage base 0x1003FFFFFFF 1 = false ∧ onBarrierPage base 0x1003FFFFFFF 2 = true ∧
      base.poison = [] ∧ base.drains = [] ∧ poisonedRange base 0x10000000000 1 = false ∧
      poisonedRange { base with poison := [0x10000000000] } 0x10000000000 1 = true) := by decide +kernel

theorem witness_LinksAct :
    let s := { base with devnum := some 3 }
    (∀ vc ∈ [0, 1, 2, 3], let f := mkFlit vc true (vc == 0) 0 1 100 7
      flitDue s 31 vc f = true ∧ flitGood f = true ∧ flitSeq f = (getLink s 31).rxSeq ∧ flitEop f = (vc == 0)) ∧
    (let l := getLink s 31
     l.waiting = [] ∧ seqDist l.ackSent ((l.rxSeq + 1) % 2 ^ 20) < 128 ∧ base.devnum = none ∧ flitDue base 31 3 (mkFlit 3 true false 0 1 100 7) = true) ∧
    (let f := mkFlit 0 true false 5 1 100 7
     flitDue s 31 0 f = true ∧ flitGood f = true ∧ flitSeq f ≠ (getLink s 31).rxSeq) ∧
    (let f : BitVec 2048 := BitVec.ofNat 2048 (2 ^ 64)
     flitDue s 0 0 f = true ∧ flitDue s 0 3 f = true ∧ flitGood f = false) ∧
    (retrainDue { base with links := [(31, { failed := 17 })] } 31 = true ∧ (getLink { base with links := [(31, { retraining := true })] } 31).retraining = true ∧
      base.work = [] ∧ upDue { base with links := [(31, { up := false })] } 31 = true) := by decide +kernel

theorem witness_ResetsAndPower :
    (base.fwNew = none ∧ base.fwOk = true ∧ { base with fwOk := false }.fwOk = false ∧
      fwAccepted { body := [0x61, 0x62, 0x63], digest := 0, entry := 0 } = false) ∧
    (base.power ≠ .pw3 ∧ base.power ≠ .hot ∧ base.fwOk = true ∧ base.drains = [] ∧ ∀ e ∈ base.cells, e.2.hcap = 32) ∧
    (∀ q ∈ [0, 2], pw1Due { base with cfgs := [], idleSince := some 0, timens := 1000000, pwreq := q } = true) ∧
    (wakeDue { base with power := .pw2, doorbells := [0, 5] } = true ∧ wakeDue { base with power := .pw2, work := [.packet { wakes := true }] } = true) ∧
    (base.power = .pw0 ∧ 1025 + 25 = base.clock ∧ 840 ≤ 840 ∧ 525 ≤ 525 ∧ 550 = { base with clock := 525 }.clock + 25 ∧ 799 < 800 ∧ 944 ≤ 944) ∧
    { base with telbase := 0x40000 }.telbase ≠ 0 := by decide +kernel

/-- A clock step up needs the power draw below 2,700 W, a step down on power one above 2,800 W: the draw is free, and either way a
step of the clock is due. -/
theorem witness_ResetsAndPower_clock (s : State) (h : s.power = .pw0) (c : s.clock = 1050) : clockDue s 1025 840 = true := by
  simp [clockDue, h, c]

/-! ### Values worked in the manual -/

/-- The conversions of R293's table under RNE: -2.5, 1,000, 300 and 2^-8 into BF16, F16, E4M3, E5M2, E2M1 and E8M0, with their flags. -/
theorem test_conversions :
    ([9, 10, 11, 12, 13, 16].map fun n => [0xC0200000, 0x447A0000, 0x43960000, 0x3B800000].map fun v =>
      (numFmt n).map fun f => let r := convert f .rne ((fpFmt 0).decode v); (r.code, r.rep.flags)) =
    [[some (0xC020, 0), some (0x447A, 0), some (0x4396, 0), some (0x3B80, 0)],
     [some (0xC100, 0), some (0x63D0, 0), some (0x5CB0, 0), some (0x1C00, 0)],
     [some (0xC2, 0), some (0x7E, flOF + flNX), some (0x79, flNX), some (0x02, 0)],
     [some (0xC1, 0), some (0x64, flNX), some (0x5D, flNX), some (0x1C, 0)],
     [some (0xC, flNX), some (0x7, flOF + flNX), some (0x7, flOF + flNX), some (0x0, flUF + flNX)],
     [some (0xFF, flNV), some (0x89, flNX), some (0x87, flNX), some (0x77, 0)]] := by decide +kernel

/-- The stochastic rounding worked under R300: seed 0x000101, address 0x100, tag 0x000200, into BF16. -/
theorem test_stochastic :
    ([0x3F804000, 0x3F80C000, 0x3F810000].map fun v => (numFmt 9).map fun f =>
      let r := convert f (modeOfRecord 1 0x101 0x100 0x200) ((fpFmt 0).decode v); (r.code, r.rep.flags)) =
    [some (0x3F80, flNX), some (0x3F81, flNX), some (0x3F81, 0)] := by decide +kernel

/-- The result and flags of an arithmetic instruction on operand values of 512 bits. -/
def Sys2Proof.World.result (i : Instr) (vs : List Nat) : Option (Nat × Nat) :=
  (aluOf i).bind fun q => match q.eval 512 {} vs with
    | .ok o => some (o.vals.headD 0, o.rep.flags)
    | .error _ => none

/-- RSUM and SCAN of 2^24, 1, 1 and -2^24: another order, another sum. -/
theorem test_sum_orders :
    result (.rsum 0 10 0) [ofLanes 32 [0x4B800000, 0x3F800000, 0x3F800000, 0xCB800000]] = some (0x3F800000, flNX) ∧
    result (.scan 1 10 0) [ofLanes 32 [0x4B800000, 0x3F800000, 0x3F800000, 0xCB800000]] =
      some (ofLanes 32 [0x4B800000, 0x4B800000, 0x4B800000], flNX) := by decide +kernel

/-- BDOT.E4M3.K32 on the block worked under R355. -/
theorem test_bdot :
    result (.bdotE4m3 0 10 11 2) [ofLanes 8 (0x78 :: List.replicate 30 0x10 ++ [0xF8]), ofLanes 8 (0x78 :: List.replicate 30 0x10 ++ [0x78])] =
      some (0x3CF00000, 0) := by decide +kernel

/-- A configuration of three stages, 4 by 2 groves, stage 2 at grove (16, 4) (R12). -/
def Sys2Proof.World.cfg3 : Cfg := { id := 1, words := [0, 0, BitVec.ofNat 64 (4 * 2 ^ 24 + 2 * 2 ^ 30 + 2 * 2 ^ 36)], origins := [0, 4, 4 * 32 + 16] }

/-- CTLPOS, GLADE and CELLID at grove (19, 5), cell (6, 3). -/
theorem test_positions :
    (let s := { State.reset with cfgs := [cfg3] }
     cfg3.width = 4 ∧ cfg3.height = 2 ∧ cfg3.stages = 3 ∧ crRead s (5 * 32 + 19) 0 = 0x0000000120008CB3 ∧
      crRead s (5 * 32 + 19) 4 = 0x0000000000821090 ∧
      cellId s ((5 * 32 + 19) * 64 + 3 * 8 + 6) { cfg := 1 } = 0x200008DE) := by decide +kernel

/-- The walk worked after R416. -/
theorem test_walk :
    (let s := { State.reset with
       ttbase := 0x10000000000
       mem := bytesOf [(0x10000000028, 8, 0x8000010000001000), (0x10000001000, 8, 0x0000010000002001), (0x10000002000, 8, 0x0000010000003001),
         (0x10000003008, 8, 0x0000010000004001), (0x10000004048, 8, 0x0000010000005001), (0x10000005018, 8, 0x000001100003002F)] }
     walk s 5 0x41234567 false = some ⟨5, false, 0x41230000, 0x11000030000, 65536, 11, false⟩ ∧ walk s 6 0x41234567 false = none) := by decide +kernel
end

section
/-! Memory byte by byte and bit by bit (R2, R199, R208): what a read finds, and what a write changes and leaves alone. -/

namespace Sys2Proof.Machine

/-! ### Bytes -/

/-- A byte after a write: inside the range a base-256 digit of the number written, elsewhere what it was (R2). -/
theorem memByte_writeNat (s : State) (pa n v a : Nat) :
    memByte (writeNat s pa n v) a = if pa ≤ a ∧ a < pa + n then BitVec.ofNat 8 (v / 256 ^ (a - pa)) else memByte s a := by
  induction n generalizing s pa v with
  | zero => rw [if_neg (by omega)]; rfl
  | succ n ih =>
    rw [writeNat, ih, memByte_setByte]
    rcases Nat.lt_trichotomy a pa with h | rfl | h
    · rw [if_neg (by omega), if_neg (by omega), if_neg (by omega)]
    · simp
    · have hd : a - pa = a - (pa + 1) + 1 := by omega
      have hr : (pa + 1 ≤ a ∧ a < pa + 1 + n) ↔ (pa ≤ a ∧ a < pa + (n + 1)) := by omega
      simp only [hr, if_neg (show a ≠ pa by omega), hd, Nat.div_div_eq_div_mul, Nat.pow_succ']

/-- A write is read back, up to the bytes it has. -/
theorem readNat_writeNat (s : State) (pa n v : Nat) : readNat (writeNat s pa n v) pa n = v % 256 ^ n := by
  induction n generalizing s pa v with
  | zero => simp [readNat, Nat.mod_one]
  | succ n ih =>
    have hfirst : memByte (writeNat s pa (n + 1) v) pa = BitVec.ofNat 8 v := by simp [memByte_writeNat]
    have hrest : readNat (writeNat s pa (n + 1) v) (pa + 1) n = v / 256 % 256 ^ n := ih _ _ _
    rw [Nat.pow_succ', Nat.mod_mul, readNat, hfirst, hrest, BitVec.toNat_ofNat]

/-! ### Bits -/

/-- The bit of memory at a bit address (R199). -/
def memBit (s : State) (a : Nat) : Bool := bit (memByte s (a / 8)).toNat (a % 8)

/-- Bit `i` of a number read is the bit of memory `i` bits on. -/
theorem testBit_readNat (s : State) (pa n i : Nat) : (readNat s pa n).testBit i = (decide (i < 8 * n) && memBit s (8 * pa + i)) := by
  induction n generalizing pa i with
  | zero => simp [readNat]
  | succ n ih =>
    rw [readNat, Nat.add_comm, Nat.testBit_two_pow_mul_add (i := 8) _ (memByte s pa).isLt]
    split
    case isTrue h =>
      have ha : (8 * pa + i) / 8 = pa ∧ (8 * pa + i) % 8 = i := by omega
      simp [memBit, bit, ha, show i < 8 * (n + 1) by omega]
    case isFalse h =>
      have hi : i - 8 < 8 * n ↔ i < 8 * (n + 1) := by omega
      rw [ih, show 8 * (pa + 1) + (i - 8) = 8 * pa + i by omega, decide_eq_decide.mpr hi]

/-- A bit of memory after a write: inside the range a bit of the number written, elsewhere what it was. -/
theorem memBit_writeNat (s : State) (pa n v a : Nat) :
    memBit (writeNat s pa n v) a = if 8 * pa ≤ a ∧ a < 8 * (pa + n) then v.testBit (a - 8 * pa) else memBit s a := by
  have hr : (pa ≤ a / 8 ∧ a / 8 < pa + n) ↔ (8 * pa ≤ a ∧ a < 8 * (pa + n)) := by omega
  simp only [memBit, memByte_writeNat, hr]
  split
  case isTrue h =>
    have hp : 256 ^ (a / 8 - pa) = 2 ^ (8 * (a / 8 - pa)) := by rw [Nat.pow_mul]
    rw [bit, BitVec.toNat_ofNat, hp, Nat.testBit_mod_two_pow, Nat.testBit_div_two_pow, decide_eq_true (Nat.mod_lt a (by decide)),
      Bool.true_and]
    congr 1
    omega
  case isFalse => rfl

/-- A number that keeps `old` but for `len` bits from `sh` on, which are those of `v`: its bits. -/
theorem testBit_splice (old v sh len i : Nat) :
    (old % 2 ^ sh + (v % 2 ^ len) <<< sh + (old >>> (sh + len)) <<< (sh + len)).testBit i =
      if sh ≤ i ∧ i < sh + len then v.testBit (i - sh) else old.testBit i := by
  have hlo : old % 2 ^ sh < 2 ^ sh := Nat.mod_lt _ (Nat.two_pow_pos sh)
  have hmid : v % 2 ^ len < 2 ^ len := Nat.mod_lt _ (Nat.two_pow_pos len)
  have hsum : old % 2 ^ sh + (v % 2 ^ len) <<< sh + (old >>> (sh + len)) <<< (sh + len) =
      2 ^ sh * (2 ^ len * (old >>> (sh + len)) + v % 2 ^ len) + old % 2 ^ sh := by
    simp only [Nat.shiftLeft_eq, Nat.pow_add]
    ring
  rw [hsum, Nat.testBit_two_pow_mul_add _ hlo, Nat.testBit_two_pow_mul_add _ hmid, Nat.testBit_mod_two_pow, Nat.testBit_mod_two_pow,
    Nat.testBit_shiftRight]
  rcases Nat.lt_or_ge i sh with h | h
  · simp [h]
  · rcases Nat.lt_or_ge i (sh + len) with h' | h'
    · simp [show ¬ i < sh by omega, show i - sh < len by omega, h, h']
    · rw [if_neg (by omega), if_neg (by omega), if_neg (by omega), show sh + len + (i - sh - len) = i by omega]

/-- The bytes a bit range touches contain it. -/
theorem bitRange_in_byteSpan {b len a : Nat} (h : b ≤ a ∧ a < b + len) : 8 * (b / 8) ≤ a ∧ a < 8 * (b / 8 + byteSpan b len) := by
  unfold byteSpan
  omega

/-- Bit `i` of a bit range read is the bit of memory `i` bits on (R199). -/
theorem testBit_readBits (s : State) (b len i : Nat) : (readBits s b len).testBit i = (decide (i < len) && memBit s (b + i)) := by
  rw [readBits, Nat.testBit_mod_two_pow, Nat.testBit_shiftRight, testBit_readNat, show 8 * (b / 8) + (b % 8 + i) = b + i by omega]
  by_cases hi : i < len
  · obtain ⟨-, hin⟩ := bitRange_in_byteSpan (b := b) (len := len) (a := b + i) (by omega)
    simp [hi, show b % 8 + i < 8 * byteSpan b len by omega]
  · simp [hi]

/-- A bit of memory after a write of bits: inside the range a bit of the number written, elsewhere what it was (R208). -/
theorem memBit_writeBits (s : State) (b len v a : Nat) :
    memBit (writeBits s b len v) a = if b ≤ a ∧ a < b + len then v.testBit (a - b) else memBit s a := by
  rw [writeBits, memBit_writeNat, testBit_splice]
  by_cases hspan : 8 * (b / 8) ≤ a ∧ a < 8 * (b / 8 + byteSpan b len)
  · have hr : (b % 8 ≤ a - 8 * (b / 8) ∧ a - 8 * (b / 8) < b % 8 + len) ↔ (b ≤ a ∧ a < b + len) := by omega
    have hold : (readNat s (b / 8) (byteSpan b len)).testBit (a - 8 * (b / 8)) = memBit s a := by
      rw [testBit_readNat, decide_eq_true (by omega), Bool.true_and, show 8 * (b / 8) + (a - 8 * (b / 8)) = a by omega]
    simp only [if_pos hspan, hr, hold, show a - 8 * (b / 8) - b % 8 = a - b by omega]
  · rw [if_neg hspan, if_neg (fun h => hspan (bitRange_in_byteSpan h))]

/-- A write of bits is read back, up to the bits it has. -/
theorem readBits_writeBits (s : State) (b len v : Nat) : readBits (writeBits s b len v) b len = v % 2 ^ len := by
  refine Nat.eq_of_testBit_eq fun i => ?_
  rw [testBit_readBits, memBit_writeBits, Nat.testBit_mod_two_pow]
  by_cases hi : i < len
  · rw [if_pos (by omega), Nat.add_sub_cancel_left]
  · simp [hi]

/-! ### The obligation -/

/-- Settles O8: the bytes after a write are the base-256 digits of the number, and the bits after a write of bits are its binary
digits; everything outside the range is as before. -/
theorem memoryReadsBack : Obligations.MemoryReadsBack := by
  refine ⟨fun s pa n v => ⟨readNat_writeNat s pa n v, fun i hi => ?_, fun a ha => ?_⟩,
    fun s b len v => ⟨readBits_writeBits s b len v, fun a ha => ?_⟩⟩
  · rw [memByte_writeNat, if_pos (by omega), Nat.add_sub_cancel_left]
  · rw [memByte_writeNat, if_neg ha]
  · exact (memBit_writeBits s b len v a).trans (if_neg ha)

end Sys2Proof.Machine
end

section
/-! The formats of R56 to R62: what a field of a packed word is, and that a word is its fields packed again. -/

namespace Sys2Proof

/-! ### A packed field is read back -/

theorem packR3_fields {maj d a b fn m : Nat} (hj : maj < 64) (hd : d < 64) (ha : a < 64) (hb : b < 64) (hf : fn < 32) (hm : m < 8) :
    fMaj (packR3 maj d a b fn m) = maj ∧ fD (packR3 maj d a b fn m) = d ∧ fA (packR3 maj d a b fn m) = a ∧
      fB (packR3 maj d a b fn m) = b ∧ fFn (packR3 maj d a b fn m) = fn ∧ fM (packR3 maj d a b fn m) = m := by
  simp only [packR3, fMaj, fD, fA, fB, fFn, fM]
  omega

theorem packR4_fields {maj d a b c m : Nat} (hj : maj < 64) (hd : d < 64) (ha : a < 64) (hb : b < 64) (hc : c < 64) (hm : m < 4) :
    fMaj (packR4 maj d a b c m) = maj ∧ fD (packR4 maj d a b c m) = d ∧ fA (packR4 maj d a b c m) = a ∧
      fB (packR4 maj d a b c m) = b ∧ fC (packR4 maj d a b c m) = c ∧ fM2 (packR4 maj d a b c m) = m := by
  simp only [packR4, fMaj, fD, fA, fB, fC, fM2]
  omega

theorem packI_fields {maj d a fn i : Nat} (hj : maj < 64) (hd : d < 64) (ha : a < 64) (hf : fn < 8) (hi : i < 2048) :
    fMaj (packI maj d a fn i) = maj ∧ fD (packI maj d a fn i) = d ∧ fA (packI maj d a fn i) = a ∧
      fFn3 (packI maj d a fn i) = fn ∧ fImm (packI maj d a fn i) = i := by
  simp only [packI, fMaj, fD, fA, fFn3, fImm]
  omega

theorem packM_fields {maj d a r o p s fn : Nat} (hj : maj < 64) (hd : d < 64) (ha : a < 64) (hr : r < 8) (ho : o < 4) (hp : p < 2)
    (hs : s < 8) (hf : fn < 32) :
    fMaj (packM maj d a r o p s fn) = maj ∧ fD (packM maj d a r o p s fn) = d ∧ fA (packM maj d a r o p s fn) = a ∧
      fFn3 (packM maj d a r o p s fn) = r ∧ fO (packM maj d a r o p s fn) = o ∧ fP (packM maj d a r o p s fn) = p ∧
      fS (packM maj d a r o p s fn) = s ∧ fFn5 (packM maj d a r o p s fn) = fn := by
  simp only [packM, fMaj, fD, fA, fFn3, fO, fP, fS, fFn5]
  omega

theorem packB_fields {maj c a b o : Nat} (hj : maj < 64) (hc : c < 8) (ha : a < 32) (hb : b < 32) (ho : o < 8192) :
    fMaj (packB maj c a b o) = maj ∧ fCond (packB maj c a b o) = c ∧ fBa (packB maj c a b o) = a ∧ fBb (packB maj c a b o) = b ∧
      fOff13 (packB maj c a b o) = o := by
  simp only [packB, fMaj, fCond, fBa, fBb, fOff13]
  omega

theorem packJ_fields {maj l o : Nat} (hj : maj < 64) (hl : l < 32) (ho : o < 2097152) :
    fMaj (packJ maj l o) = maj ∧ fLink (packJ maj l o) = l ∧ fOff21 (packJ maj l o) = o := by
  simp only [packJ, fMaj, fLink, fOff21]
  omega

/-! ### A word is its fields packed again -/

section
variable {w maj d a b c m fn i r o p s l : Nat}

theorem packR3_of_fields (hw : w < 2 ^ 32) (hj : fMaj w = maj) (hd : fD w = d) (ha : fA w = a) (hb : fB w = b) (hf : fFn w = fn)
    (hm : fM w = m) : packR3 maj d a b fn m = w := by
  subst_vars
  simp only [packR3, fMaj, fD, fA, fB, fFn, fM]
  omega

/-- The function field of FP, FUN and FCMP is the operation, in steps of 4, and the float format (R323, R327, R328). -/
theorem packR3_of_format {n : Nat} (hw : w < 2 ^ 32) (hj : fMaj w = maj) (hd : fD w = d) (ha : fA w = a) (hb : fB w = b)
    (hn : 4 * (fFn w / 4) = n) (hm : fM w = m) : packR3 maj d a b (n + fFn w % 4) m = w :=
  packR3_of_fields hw hj hd ha hb (hn ▸ (Nat.div_add_mod _ 4).symm) hm

/-- The first operation of these groups is 0. -/
theorem packR3_of_format_zero (hw : w < 2 ^ 32) (hj : fMaj w = maj) (hd : fD w = d) (ha : fA w = a) (hb : fB w = b)
    (hn : fFn w / 4 = 0) (hm : fM w = m) : packR3 maj d a b (fFn w % 4) m = w :=
  packR3_of_fields hw hj hd ha hb (by omega) hm

theorem packR4_of_fields (hw : w < 2 ^ 32) (hj : fMaj w = maj) (hd : fD w = d) (ha : fA w = a) (hb : fB w = b) (hc : fC w = c)
    (hm : fM2 w = m) : packR4 maj d a b c m = w := by
  subst_vars
  simp only [packR4, fMaj, fD, fA, fB, fC, fM2]
  omega

theorem packI_of_fields (hw : w < 2 ^ 32) (hj : fMaj w = maj) (hd : fD w = d) (ha : fA w = a) (hf : fFn3 w = fn) (hi : fImm w = i) :
    packI maj d a fn i = w := by
  subst_vars
  simp only [packI, fMaj, fD, fA, fFn3, fImm]
  omega

theorem packM_of_fields (hw : w < 2 ^ 32) (hj : fMaj w = maj) (hd : fD w = d) (ha : fA w = a) (hr : fFn3 w = r) (ho : fO w = o)
    (hp : fP w = p) (hs : fS w = s) (hf : fFn5 w = fn) : packM maj d a r o p s fn = w := by
  subst_vars
  simp only [packM, fMaj, fD, fA, fFn3, fO, fP, fS, fFn5]
  omega

theorem packB_of_fields (hw : w < 2 ^ 32) (hj : fMaj w = maj) (hc : fCond w = c) (ha : fBa w = a) (hb : fBb w = b) (ho : fOff13 w = o) :
    packB maj c a b o = w := by
  subst_vars
  simp only [packB, fMaj, fCond, fBa, fBb, fOff13]
  omega

theorem packJ_of_fields (hw : w < 2 ^ 32) (hj : fMaj w = maj) (hl : fLink w = l) (ho : fOff21 w = o) : packJ maj l o = w := by
  subst_vars
  simp only [packJ, fMaj, fLink, fOff21]
  omega

end

/-! ### A field fits the operand that holds it -/

@[simp] theorem fD_mod (w : Nat) : fD w % 64 = fD w := Nat.mod_mod _ _
@[simp] theorem fA_mod (w : Nat) : fA w % 64 = fA w := Nat.mod_mod _ _
@[simp] theorem fB_mod (w : Nat) : fB w % 64 = fB w := Nat.mod_mod _ _
@[simp] theorem fC_mod (w : Nat) : fC w % 64 = fC w := Nat.mod_mod _ _
@[simp] theorem fFn_mod (w : Nat) : fFn w % 32 = fFn w := Nat.mod_mod _ _
@[simp] theorem fM_mod (w : Nat) : fM w % 8 = fM w := Nat.mod_mod _ _
@[simp] theorem fM2_mod (w : Nat) : fM2 w % 4 = fM2 w := Nat.mod_mod _ _
@[simp] theorem fFn3_mod (w : Nat) : fFn3 w % 8 = fFn3 w := Nat.mod_mod _ _
@[simp] theorem fImm_mod (w : Nat) : fImm w % 2048 = fImm w := Nat.mod_mod _ _
@[simp] theorem fO_mod (w : Nat) : fO w % 4 = fO w := Nat.mod_mod _ _
@[simp] theorem fP_mod (w : Nat) : fP w % 2 = fP w := Nat.mod_mod _ _
@[simp] theorem fS_mod (w : Nat) : fS w % 8 = fS w := Nat.mod_mod _ _
@[simp] theorem fBa_mod (w : Nat) : fBa w % 32 = fBa w := Nat.mod_mod _ _
@[simp] theorem fBb_mod (w : Nat) : fBb w % 32 = fBb w := Nat.mod_mod _ _
@[simp] theorem fOff13_mod (w : Nat) : fOff13 w % 8192 = fOff13 w := Nat.mod_mod _ _
@[simp] theorem fLink_mod (w : Nat) : fLink w % 32 = fLink w := Nat.mod_mod _ _
@[simp] theorem fOff21_mod (w : Nat) : fOff21 w % 2097152 = fOff21 w := Nat.mod_mod _ _

end Sys2Proof
end

section
/-! What the decoder answers: an instruction is what the opcode map names, if it is well formed on the unit (R74). -/

namespace Sys2Proof

variable {k : UnitKind} {w : Nat} {u : BitVec 32} {i : Instr}

theorem decodeWord_eq_ok_iff : decodeWord k w u = .ok i ↔ rawWord k w u = some i ∧ WellFormed k i = true := by
  unfold decodeWord WellFormed
  constructor
  · intro h
    split at h
    · cases h
    · split_ifs at h with hc hs
      cases h
      exact ⟨‹_›, by rw [hc, hs]; rfl⟩
  · rintro ⟨hr, hi⟩
    obtain ⟨hc, hs⟩ := Bool.and_eq_true_iff.1 hi
    simp only [hr, hc, hs, if_true]

/-- Whatever a list of words decodes to, some word of it decodes to. -/
theorem decodeWord_of_decodeWords {ws rest : List Nat} (h : decodeWords k ws = .ok (i, rest)) : ∃ w u, decodeWord k w u = .ok i := by
  have ok_of_map {x : Except Defect Instr} {r : List Nat} (h : x.map (·, r) = .ok (i, rest)) : x = .ok i := by
    cases x <;> simp_all [Except.map]
  unfold decodeWords at h
  split at h
  · cases h
  · split at h
    · split at h
      · cases h
      · exact ⟨_, _, ok_of_map h⟩
    · exact ⟨_, _, ok_of_map h⟩

/-- The words of one instruction, in either length, name it, before its codes and specifiers are asked for. -/
def ReadsAs (k : UnitKind) (i : Instr) : List Nat → Prop
  | [w] => isLong w = false ∧ rawWord k w 0 = some i
  | [w, u] => isLong w = true ∧ rawWord k w (BitVec.ofNat 32 u) = some i
  | _ => False

theorem decodeWords_of_readsAs {ws : List Nat} (rest : List Nat) (h : ReadsAs k i ws) (hi : WellFormed k i = true) :
    decodeWords k (ws ++ rest) = .ok (i, rest) := by
  match ws, h with
  | [w], ⟨hl, hr⟩ => simp only [decodeWords, List.cons_append, List.nil_append, hl, decodeWord_eq_ok_iff.2 ⟨hr, hi⟩]; rfl
  | [w, u], ⟨hl, hr⟩ => simp only [decodeWords, List.cons_append, List.nil_append, hl, decodeWord_eq_ok_iff.2 ⟨hr, hi⟩]; rfl

end Sys2Proof
end

section
/-! The words of every instruction name its row (R56 to R75): one lemma for each format, and the encoder's rows by the
fields they have. -/

namespace Sys2Proof

variable {k : UnitKind} {i : Instr}

/-! ### The opcode map on packed words, format by format

Each `group…` is the part of the opcode map (R69) that reads words of one format, on operands; the lemma after it ties
it to the map. -/

/-- The groups of the R3 format, but for those whose function field holds a float format. -/
def groupR3 (k : UnitKind) (maj fn : Nat) (d a b : Spec) (m : BitVec 3) : Option Instr :=
  match maj with
  | 0x01 => rawInt fn b.toNat d a b m
  | 0x03 => rawBits fn b.toNat d a b m
  | 0x04 => rawIcmp fn d a b m
  | 0x0B => some (.fcvt d a b (BitVec.ofNat 5 fn) m)
  | 0x0E => rawBlk fn m.toNat d a b m
  | 0x0F => rawRed fn b.toNat d a b m
  | 0x10 => rawFlow fn d.toNat a.toNat b.toNat m.toNat d a b m
  | 0x11 => rawHeld fn a.toNat b.toNat m.toNat d a b
  | 0x12 => rawTrapu fn d.toNat a.toNat m.toNat a b
  | 0x18 => rawStrm k fn d.toNat b.toNat m.toNat d a b
  | 0x19 => rawTag fn d.toNat b.toNat m.toNat d a
  | 0x1A => rawBar fn d.toNat b.toNat m.toNat d a b
  | 0x1C => rawMtx fn d.toNat a.toNat b.toNat m.toNat d a b
  | 0x1D => rawRel fn d.toNat b.toNat m.toNat d a b
  | 0x1E => rawSrt fn m.toNat d a b (m.setWidth 1)
  | 0x1F => rawPlc k fn d.toNat b.toNat m.toNat d a b
  | 0x22 => rawCmem fn m.toNat d a b m (m.setWidth 2)
  | 0x24 => rawSched fn d.toNat b.toNat m.toNat d a b
  | 0x25 => rawSys fn d.toNat a.toNat b.toNat m.toNat d a b
  | _ => none

theorem readsAs_packR3 {maj fn : Nat} (d a b : Spec) (m : BitVec 3) (h : groupR3 k maj fn d a b m = some i)
    (hj : maj < 64 := by decide) (hf : fn < 32 := by decide) : ReadsAs k i [packR3 maj d.toNat a.toNat b.toNat fn m.toNat] := by
  obtain ⟨wj, wd, wa, wb, wf, wm⟩ := packR3_fields hj d.isLt a.isLt b.isLt hf m.isLt
  unfold groupR3 at h
  split at h
  case h_20 => cases h
  all_goals simp [ReadsAs, isLong, rawWord, wj, wd, wa, wb, wf, wm, h]

/-- The groups whose function field is the operation, in steps of 4, and the float format: FP, FUN and FCMP. -/
def groupFmt (maj op : Nat) (d a b : Spec) (f : BitVec 2) (m : BitVec 3) : Option Instr :=
  match maj with
  | 0x08 => rawFp op m.toNat d a b f m
  | 0x0A => rawFun op b.toNat m.toNat d a f
  | 0x0C => rawFcmp op b.toNat m.toNat d a b f
  | _ => none

theorem readsAs_packR3_format {maj n : Nat} (d a b : Spec) (f : BitVec 2) (m : BitVec 3) (h : groupFmt maj (n / 4) d a b f m = some i)
    (hj : maj < 64 := by decide) (hn : n % 4 = 0 ∧ n < 32 := by decide) :
    ReadsAs k i [packR3 maj d.toNat a.toNat b.toNat (n + f.toNat) m.toNat] := by
  have hf := f.isLt
  obtain ⟨wj, wd, wa, wb, wf, wm⟩ := packR3_fields hj d.isLt a.isLt b.isLt (fn := n + f.toNat) (by omega) m.isLt
  have hop : (n + f.toNat) / 4 = n / 4 := by omega
  have hfmt : (n + f.toNat) % 4 = f.toNat := by omega
  unfold groupFmt at h
  split at h
  case h_4 => cases h
  all_goals simp [ReadsAs, isLong, rawWord, wj, wd, wa, wb, wf, wm, hop, hfmt, h]

/-- The groups of the I format. -/
def groupI (maj fn : Nat) (d a : Spec) (i : BitVec 11) : Option Instr :=
  match maj with
  | 0x02 => rawInti fn a.toNat d a i
  | 0x23 => rawCreg fn d.toNat a.toNat i.toNat d a i
  | _ => none

theorem readsAs_packI {maj fn : Nat} (d a : Spec) (x : BitVec 11) (h : groupI maj fn d a x = some i)
    (hj : maj < 64 := by decide) (hf : fn < 8 := by decide) : ReadsAs k i [packI maj d.toNat a.toNat fn x.toNat] := by
  obtain ⟨wj, wd, wa, wf, wi⟩ := packI_fields hj d.isLt a.isLt hf x.isLt
  unfold groupI at h
  split at h
  case h_3 => cases h
  all_goals simp [ReadsAs, isLong, rawWord, wj, wd, wa, wf, wi, h]

/-- The two words of a long form (R62). -/
theorem readsAs_packL {fn : Nat} (d a : Spec) (u : BitVec 32) (h : rawMovl fn a.toNat 0 d a u = some i) (hf : fn < 8 := by decide) :
    ReadsAs k i [packI 0x06 d.toNat a.toNat fn 0, u.toNat] := by
  obtain ⟨wj, wd, wa, wf, wi⟩ := packI_fields (by decide : 0x06 < 64) d.isLt a.isLt hf (by decide : 0 < 2048)
  simp [ReadsAs, isLong, rawWord, wj, wd, wa, wf, wi, h]

/-- The groups of the M format. -/
def groupM (maj fn : Nat) (d a : Spec) (r : BitVec 3) (o : BitVec 2) (p : BitVec 1) (s : BitVec 3) : Option Instr :=
  match maj with
  | 0x14 => rawMem fn d.toNat d a r o p s
  | 0x15 => rawGs fn d a r o p s
  | 0x16 => rawAtom fn d a r o p s
  | 0x17 => rawOrd fn d.toNat a.toNat r.toNat o p s
  | _ => none

theorem readsAs_packM {maj fn : Nat} (d a : Spec) (r : BitVec 3) (o : BitVec 2) (p : BitVec 1) (s : BitVec 3)
    (h : groupM maj fn d a r o p s = some i) (hj : maj < 64 := by decide) (hf : fn < 32 := by decide) :
    ReadsAs k i [packM maj d.toNat a.toNat r.toNat o.toNat p.toNat s.toNat fn] := by
  obtain ⟨wj, wd, wa, wr, wo, wp, ws, wf⟩ := packM_fields hj d.isLt a.isLt r.isLt o.isLt p.isLt s.isLt hf
  unfold groupM at h
  split at h
  case h_5 => cases h
  all_goals simp [ReadsAs, isLong, rawWord, wj, wd, wa, wr, wo, wp, ws, wf, h]

theorem readsAs_packB {c : Nat} (a b : GSpec) (o : BitVec 13) (h : rawBr c a b o = some i) (hc : c < 8 := by decide) :
    ReadsAs k i [packB 0x20 c a.toNat b.toNat o.toNat] := by
  obtain ⟨wj, wc, wa, wb, wo⟩ := packB_fields (by decide : 0x20 < 64) hc a.isLt b.isLt o.isLt
  simp [ReadsAs, isLong, rawWord, wj, wc, wa, wb, wo, h]

/-- A J word is JALR if its offset is 0, else JAL (R72). -/
theorem readsAs_packJ (l : GSpec) (o : BitVec 21) : ReadsAs k (if o.toNat = 0 then .jalr l else .jal l o) [packJ 0x21 l.toNat o.toNat] := by
  obtain ⟨wj, wl, wo⟩ := packJ_fields (by decide : 0x21 < 64) l.isLt o.isLt
  simp only [ReadsAs, isLong, rawWord, wj, wl, wo, BitVec.ofNat_toNat, BitVec.setWidth_eq]
  exact ⟨rfl, by split <;> rfl⟩

theorem readsAs_sel (d a b c : Spec) (m : BitVec 2) : ReadsAs k (.sel d a b c m) [packR4 0x05 d.toNat a.toNat b.toNat c.toNat m.toNat] := by
  obtain ⟨wj, wd, wa, wb, wc, wm⟩ := packR4_fields (by decide : 0x05 < 64) d.isLt a.isLt b.isLt c.isLt m.isLt
  simp [ReadsAs, isLong, rawWord, wj, wd, wa, wb, wc, wm]

theorem readsAs_ffma (d a b c : Spec) (f : BitVec 2) : ReadsAs k (.ffma d a b c f) [packR4 0x09 d.toNat a.toNat b.toNat c.toNat f.toNat] := by
  obtain ⟨wj, wd, wa, wb, wc, wm⟩ := packR4_fields (by decide : 0x09 < 64) d.isLt a.isLt b.isLt c.isLt f.isLt
  simp [ReadsAs, isLong, rawWord, wj, wd, wa, wb, wc, wm]

/-- STC has two bits of modifier, and the third bit of the field is 0 (R153). -/
theorem readsAs_stc (d a b : Spec) (m : BitVec 2) : ReadsAs k (.stc d a b m) [packR3 0x22 d.toNat a.toNat b.toNat 1 m.toNat] := by
  have hm : (m.setWidth 3).toNat = m.toNat := BitVec.toNat_setWidth_of_le (by decide)
  have hn : m.toNat < 4 := m.isLt
  have h : groupR3 k 0x22 1 d a b (m.setWidth 3) = some (.stc d a b m) := by simp [groupR3, rawCmem, hm, hn]
  exact hm ▸ readsAs_packR3 d a b (m.setWidth 3) h

/-! ### Every row, by the operands it has -/

/-- The words of an instruction that some unit runs name its row. The arms collect the rows whose words have the same
fields; what the word does not carry is 0. -/
theorem encode_readsAs (hr : runsOn k i = true) (hc : codesOk i = true) : ReadsAs k (wordRow i) (encode i) := by
  cases i with
  | iadd d a b m | isub d a b m | imul d a b m | imulh d a b m | imulhu d a b m | imin d a b m | imax d a b m | iminu d a b m
  | imaxu d a b m | iand d a b m | ior d a b m | ixor d a b m | iandn d a b m | shl d a b m | shr d a b m | sar d a b m
  | rol d a b m | bfx d a b m | bfx2 d a b m | bfi d a b m | shuf d a b m | lane d a b m | pack d a b m | unpk d a b m
  | iceq d a b m | icne d a b m | iclt d a b m | icge d a b m | icltu d a b m | icgeu d a b m | bdotE2m1 d a b m | bdotE4m3 d a b m
  | bdotE5m2 d a b m | bdotI8 d a b m | qntE4m3 d a b m | qntE5m2 d a b m | qntE2m1 d a b m | qntI8 d a b m | vsort d a b m
  | vtopk d a b m | vmerge d a b m | emit d a b m | emitn d a b m | ldc d a b m =>
    exact readsAs_packR3 d a b m rfl
  | iabs d a m | clz d a m | popc d a m | iota d a m | rsum d a m | rmax d a m | rmin d a m | scan d a m =>
    exact readsAs_packR3 d a 0 m rfl
  | iaddi d a i | andi d a i | ori d a i | xori d a i | shli d a i | shri d a i | sari d a i =>
    exact readsAs_packI d a i rfl
  | movi d i | crd d i =>
    exact readsAs_packI d 0 i rfl
  | fadd d a b f m | fsub d a b f m | fmul d a b f m | fscale d a b f m =>
    exact readsAs_packR3_format d a b f m rfl
  | fmin d a b f | fmax d a b f | fceq d a b f | fclt d a b f | fcle d a b f | fcun d a b f | fcne d a b f | fcgt d a b f
  | fcge d a b f =>
    exact readsAs_packR3_format d a b f 0 rfl
  | fabs d a f | fneg d a f | frcp d a f | frsq d a f | fsqrt d a f | fexp2 d a f | flog2 d a f | ftanh d a f | fclass d a f =>
    exact readsAs_packR3_format d a 0 f 0 rfl
  | scacc d a b | deqE4m3 d a b | deqE5m2 d a b | deqE2m1 d a b | deqI8 d a b | vlutBf16 d a b | vlutF32 d a b | emitq d a b
  | bound d a b | barwait d a b | mstr d a b | rlook d a b | launch d a b | splice d a b | ctxsv d a b | ctxrs d a b | svc d a b
  | smcSetblk d a b | smcSetrgn d a b | smcGetblk d a b | smcGetrgn d a b | bbox d a b =>
    exact readsAs_packR3 d a b 0 rfl
  | emitz d b m =>
    exact readsAs_packR3 d 0 b m rfl
  | endFiring | nop | mswp | eret | fskip | escal =>
    exact readsAs_packR3 0 0 0 0 rfl
  | hrec d b =>
    exact readsAs_packR3 d 0 b 0 rfl
  | hrecClr d =>
    exact readsAs_packR3 d 0 0 1 rfl
  | hdrop d | hfill d | hcap d | mclr d | mchk d =>
    exact readsAs_packR3 d 0 0 0 rfl
  | hstat d a | twaita d a | twaitn d a | tffr d a | tcnt d a | bartest d a | mshp d a | rrnd d a | pqry d a | cstart d a
  | cwait d a | cpoll d a | join d a | conf d a | preempt d a | wfe d a | ckpt d a =>
    exact readsAs_packR3 d a 0 0 rfl
  | trap a b | barinit a b | baradd a b | mlw a b | rins a b | rdel a b | rgrad a b | pdef a b | cdef a b | tlbinv a b =>
    exact readsAs_packR3 0 a b 0 rfl
  | brkp b =>
    exact readsAs_packR3 0 0 b 0 rfl
  | ld d a r o p s | st d a r o p s | ldb d a r o p s | ldx d a r o p s | stx d a r o p s | stnf d a r o p s | ldg d a r o p s
  | stg d a r o p s | ldgx d a r o p s | aadd d a r o p s | amin d a r o p s | amax d a r o p s | axch d a r o p s
  | acas d a r o p s | aor d a r o p s | aand d a r o p s =>
    exact readsAs_packM d a r o p s rfl
  | seqcl a r o p s =>
    exact readsAs_packM 0 a r o p s rfl
  | ord o p s | ordw o p s =>
    exact readsAs_packM 0 0 0 o p s rfl
  | scopyCell d a b | sxformCell d a b | pldCell d a b =>
    obtain rfl : k = .cell := eq_of_beq hr
    exact readsAs_packR3 d a b 0 rfl
  | sbind d a b =>
    obtain rfl : k = .ctl := eq_of_beq hr
    exact readsAs_packR3 d a b 0 rfl
  | scopyCtrl a | sxformCtrl a =>
    obtain rfl : k = .ctl := eq_of_beq hr
    exact readsAs_packR3 0 a 0 0 rfl
  | pconvCtrl a =>
    cases k with
    | cell => cases hr
    | ctl | core => exact readsAs_packR3 0 a 0 0 rfl
  | tclr a | bararv a | rdef a | rjoin a | ranti a | rclr a | sev a | fres a =>
    exact readsAs_packR3 0 a 0 0 rfl
  | pldCtrl d a =>
    cases k with
    | cell => cases hr
    | ctl | core => exact readsAs_packR3 d a 0 0 rfl
  | pconvCell a b =>
    obtain rfl : k = .cell := eq_of_beq hr
    exact readsAs_packR3 0 a b 0 rfl
  | beq a b o | bne a b o | blt a b o | bge a b o | bltu a b o | bgeu a b o =>
    exact readsAs_packB a b o rfl
  | cwr a i =>
    exact readsAs_packI 0 a i rfl
  | bboxWr a b =>
    exact readsAs_packR3 0 a b 1 rfl
  | ckptPoll d a =>
    exact readsAs_packR3 d a 0 1 rfl
  | ckptWait d a =>
    exact readsAs_packR3 d a 0 2 rfl
  | ckptAbort d a =>
    exact readsAs_packR3 d a 0 3 rfl
  | ckptRest d a =>
    exact readsAs_packR3 d a 0 4 rfl
  | movl d u | movl0 d u =>
    exact readsAs_packL d 0 u rfl
  | iaddl d a u | andl d a u | orl d a u =>
    exact readsAs_packL d a u rfl
  | dispgo a =>
    exact readsAs_packI 0 a 99 rfl
  | pwreqStandby a | pwreqWithdraw a =>
    exact readsAs_packI 0 a 100 rfl
  | scancel a =>
    cases k with
    | core => cases hr
    | cell | ctl => exact readsAs_packR3 0 a 0 0 rfl
  | sel d a b c m => exact readsAs_sel d a b c m
  | ffma d a b c f => exact readsAs_ffma d a b c f
  | fcvt d a s t m => exact readsAs_packR3 d a s m (by simp [groupR3]; rfl) (hf := t.isLt)
  | stc d a b m => exact readsAs_stc d a b m
  | mrd d a b l =>
    obtain rfl | rfl := l.eq_zero_or_eq_one
    · exact readsAs_packR3 d a b 0 rfl
    · exact readsAs_packR3 d a b 2 rfl
  | mrdH d a b l =>
    obtain rfl | rfl := l.eq_zero_or_eq_one
    · exact readsAs_packR3 d a b 1 rfl
    · exact readsAs_packR3 d a b 3 rfl
  | rqck d a b n | rsort d a b n | rtopk d a b n | rmrg d a b n =>
    obtain rfl | rfl := n.eq_zero_or_eq_one
    · exact readsAs_packR3 d a b 0 rfl
    · exact readsAs_packR3 d a b 1 rfl
  | jal l o =>
    have h := readsAs_packJ (k := k) l o
    rw [if_neg (bne_iff_ne.1 hc)] at h
    exact h
  | jalr l => exact readsAs_packJ l 0
  | _ => cases hr

/-- Rows that share their words have the same specifiers and run on the same units. -/
theorem wellFormed_wordRow (h : WellFormed k i = true) : WellFormed k (wordRow i) = true := by
  unfold wordRow
  split
  case h_5 a n =>
    obtain ⟨hrc, hs⟩ := Bool.and_eq_true_iff.1 h
    obtain ⟨hr, -⟩ := Bool.and_eq_true_iff.1 hrc
    have hw : (k != .cell && true && srcOk k a) = true := by rw [Bool.and_true]; exact Bool.and_eq_true_iff.2 ⟨hr, hs⟩
    split_ifs
    · exact hw
    · exact hw
    · exact h
  all_goals exact h

/-! ### The obligation -/

/-- Settles O1: the words of an instruction name its row (`encode_readsAs`), which is well formed as the instruction is, so the
decoder answers it and leaves the words after it. -/
theorem decodeEncodeAgree : Obligations.DecodeEncodeAgree := by
  intro k i rest hi
  obtain ⟨hrc, -⟩ := Bool.and_eq_true_iff.1 hi
  obtain ⟨hr, hc⟩ := Bool.and_eq_true_iff.1 hrc
  exact decodeWords_of_readsAs rest (encode_readsAs hr hc) (wellFormed_wordRow hi)

end Sys2Proof
end

section
/-! The converse: a word that the opcode map names is the word of that instruction, so that no bit of it is ignored (R70, R71). One
lemma says it for each group of the map; each case of the group's function code gives the fields that the instruction's word has. -/

namespace Sys2Proof

/-! ### The words of what a group names -/

/-- Every instruction that a part of the opcode map names has the words `ws`. -/
def Encodes (o : Option Instr) (ws : List Nat) : Prop := ∀ i, o = some i → encode i = ws

@[simp] theorem encodes_none (ws : List Nat) : Encodes none ws := fun _ h => nomatch h

@[simp] theorem encodes_some (i : Instr) (ws : List Nat) : Encodes (some i) ws ↔ encode i = ws := by simp [Encodes]

@[simp] theorem encodes_ite (p : Prop) [Decidable p] (x y : Option Instr) (ws : List Nat) :
    Encodes (if p then x else y) ws ↔ (p → Encodes x ws) ∧ (¬p → Encodes y ws) := by
  split <;> simp [*]

@[simp] theorem encodes_zeroThen (x : Nat) (i : Instr) (ws : List Nat) : Encodes (zeroThen x i) ws ↔ (x = 0 → encode i = ws) := by
  simp [zeroThen]

theorem encodes_zeroThen_of {x : Nat} {i : Instr} {ws : List Nat} (h : x = 0 → encode i = ws) : Encodes (zeroThen x i) ws :=
  (encodes_zeroThen x i ws).2 h

theorem encodes_guard {p : Prop} [Decidable p] {x : Option Instr} {ws : List Nat} (h : p → Encodes x ws) :
    Encodes (if p then x else none) ws :=
  (encodes_ite p x none ws).2 ⟨h, fun _ => encodes_none ws⟩

/-! ### The operands that the opcode map reads off a word

They spell out what `rawWord` binds, so that the lemma of a group states its very call. -/

abbrev wD (w : Nat) : Spec := BitVec.ofNat 6 (fD w)
abbrev wA (w : Nat) : Spec := BitVec.ofNat 6 (fA w)
abbrev wB (w : Nat) : Spec := BitVec.ofNat 6 (fB w)
abbrev wM (w : Nat) : BitVec 3 := BitVec.ofNat 3 (fM w)
abbrev wF (w : Nat) : BitVec 2 := BitVec.ofNat 2 (fFn w % 4)
abbrev wImm (w : Nat) : BitVec 11 := BitVec.ofNat 11 (fImm w)
abbrev wR (w : Nat) : BitVec 3 := BitVec.ofNat 3 (fFn3 w)
abbrev wO (w : Nat) : BitVec 2 := BitVec.ofNat 2 (fO w)
abbrev wP (w : Nat) : BitVec 1 := BitVec.ofNat 1 (fP w)
abbrev wS (w : Nat) : BitVec 3 := BitVec.ofNat 3 (fS w)
abbrev wBa (w : Nat) : GSpec := BitVec.ofNat 5 (fBa w)
abbrev wBb (w : Nat) : GSpec := BitVec.ofNat 5 (fBb w)
abbrev wOff (w : Nat) : BitVec 13 := BitVec.ofNat 13 (fOff13 w)

/-! ### The groups (R69) -/

section
variable {k : UnitKind} {w : Nat} (hw : w < 2 ^ 32)
include hw

theorem encodes_rawInt (hj : fMaj w = 0x01) : Encodes (rawInt (fFn w) (fB w) (wD w) (wA w) (wB w) (wM w)) [w] := by
  unfold rawInt
  split <;> simp +contextual [encode.eq_def, packR3_of_fields hw, *]

theorem encodes_rawInti (hj : fMaj w = 0x02) : Encodes (rawInti (fFn3 w) (fA w) (wD w) (wA w) (wImm w)) [w] := by
  unfold rawInti
  split <;> simp +contextual [encode.eq_def, packI_of_fields hw, *]

theorem encodes_rawBits (hj : fMaj w = 0x03) : Encodes (rawBits (fFn w) (fB w) (wD w) (wA w) (wB w) (wM w)) [w] := by
  unfold rawBits
  split <;> simp +contextual [encode.eq_def, packR3_of_fields hw, *]

theorem encodes_rawIcmp (hj : fMaj w = 0x04) : Encodes (rawIcmp (fFn w) (wD w) (wA w) (wB w) (wM w)) [w] := by
  unfold rawIcmp
  split <;> simp +contextual [encode.eq_def, packR3_of_fields hw, *]

theorem encodes_rawFp (hj : fMaj w = 0x08) : Encodes (rawFp (fFn w / 4) (fM w) (wD w) (wA w) (wB w) (wF w) (wM w)) [w] := by
  unfold rawFp
  split <;> simp +contextual [encode.eq_def, packR3_of_format hw, packR3_of_format_zero hw, *]

theorem encodes_rawFun (hj : fMaj w = 0x0A) : Encodes (rawFun (fFn w / 4) (fB w) (fM w) (wD w) (wA w) (wF w)) [w] := by
  unfold rawFun
  refine encodes_guard fun h => ?_
  split <;> simp +contextual [encode.eq_def, packR3_of_format hw, packR3_of_format_zero hw, *]

theorem encodes_rawFcmp (hj : fMaj w = 0x0C) : Encodes (rawFcmp (fFn w / 4) (fB w) (fM w) (wD w) (wA w) (wB w) (wF w)) [w] := by
  unfold rawFcmp
  refine encodes_guard fun h => ?_
  split <;> simp +contextual [encode.eq_def, packR3_of_format hw, packR3_of_format_zero hw, *]

theorem encodes_rawBlk (hj : fMaj w = 0x0E) : Encodes (rawBlk (fFn w) (fM w) (wD w) (wA w) (wB w) (wM w)) [w] := by
  unfold rawBlk
  split <;> simp +contextual [encode.eq_def, packR3_of_fields hw, *]

theorem encodes_rawRed (hj : fMaj w = 0x0F) : Encodes (rawRed (fFn w) (fB w) (wD w) (wA w) (wB w) (wM w)) [w] := by
  unfold rawRed
  split <;> simp +contextual [encode.eq_def, packR3_of_fields hw, *]

theorem encodes_rawFlow (hj : fMaj w = 0x10) : Encodes (rawFlow (fFn w) (fD w) (fA w) (fB w) (fM w) (wD w) (wA w) (wB w) (wM w)) [w] := by
  unfold rawFlow
  split <;> simp +contextual [encode.eq_def, packR3_of_fields hw, *]

theorem encodes_rawHeld (hj : fMaj w = 0x11) : Encodes (rawHeld (fFn w) (fA w) (fB w) (fM w) (wD w) (wA w) (wB w)) [w] := by
  unfold rawHeld
  split <;> simp +contextual [encode.eq_def, packR3_of_fields hw, *]

theorem encodes_rawTrapu (hj : fMaj w = 0x12) : Encodes (rawTrapu (fFn w) (fD w) (fA w) (fM w) (wA w) (wB w)) [w] := by
  unfold rawTrapu
  split <;> simp +contextual [encode.eq_def, packR3_of_fields hw, *]

theorem encodes_rawMem (hj : fMaj w = 0x14) : Encodes (rawMem (fFn5 w) (fD w) (wD w) (wA w) (wR w) (wO w) (wP w) (wS w)) [w] := by
  unfold rawMem
  split <;> simp +contextual [encode.eq_def, packM_of_fields hw, *]

theorem encodes_rawGs (hj : fMaj w = 0x15) : Encodes (rawGs (fFn5 w) (wD w) (wA w) (wR w) (wO w) (wP w) (wS w)) [w] := by
  unfold rawGs
  split <;> simp +contextual [encode.eq_def, packM_of_fields hw, *]

theorem encodes_rawAtom (hj : fMaj w = 0x16) : Encodes (rawAtom (fFn5 w) (wD w) (wA w) (wR w) (wO w) (wP w) (wS w)) [w] := by
  unfold rawAtom
  split <;> simp +contextual [encode.eq_def, packM_of_fields hw, *]

theorem encodes_rawOrd (hj : fMaj w = 0x17) : Encodes (rawOrd (fFn5 w) (fD w) (fA w) (fFn3 w) (wO w) (wP w) (wS w)) [w] := by
  unfold rawOrd
  refine encodes_guard fun h => ?_
  simp only [Nat.add_eq_zero_iff] at h
  split <;> simp +contextual [encode.eq_def, packM_of_fields hw, *]

theorem encodes_rawStrm (hj : fMaj w = 0x18) : Encodes (rawStrm k (fFn w) (fD w) (fB w) (fM w) (wD w) (wA w) (wB w)) [w] := by
  unfold rawStrm
  refine encodes_guard fun h => ?_
  split <;> simp +contextual [encode.eq_def, packR3_of_fields hw, *]

theorem encodes_rawTag (hj : fMaj w = 0x19) : Encodes (rawTag (fFn w) (fD w) (fB w) (fM w) (wD w) (wA w)) [w] := by
  unfold rawTag
  refine encodes_guard fun h => ?_
  simp only [Nat.add_eq_zero_iff] at h
  split <;> simp +contextual [encode.eq_def, packR3_of_fields hw, *]

theorem encodes_rawBar (hj : fMaj w = 0x1A) : Encodes (rawBar (fFn w) (fD w) (fB w) (fM w) (wD w) (wA w) (wB w)) [w] := by
  unfold rawBar
  refine encodes_guard fun h => ?_
  split <;> simp +contextual [encode.eq_def, packR3_of_fields hw, *]

theorem encodes_rawMtx (hj : fMaj w = 0x1C) : Encodes (rawMtx (fFn w) (fD w) (fA w) (fB w) (fM w) (wD w) (wA w) (wB w)) [w] := by
  unfold rawMtx
  split
  case h_4 => split <;> simp +contextual [encode.eq_def, packR3_of_fields hw, *]
  all_goals simp +contextual [encode.eq_def, packR3_of_fields hw, *]

theorem encodes_rawRel (hj : fMaj w = 0x1D) : Encodes (rawRel (fFn w) (fD w) (fB w) (fM w) (wD w) (wA w) (wB w)) [w] := by
  unfold rawRel
  split
  case h_6 => split <;> simp +contextual [encode.eq_def, packR3_of_fields hw, *]
  all_goals simp +contextual [encode.eq_def, packR3_of_fields hw, *]

theorem encodes_rawSrt (hj : fMaj w = 0x1E) : Encodes (rawSrt (fFn w) (fM w) (wD w) (wA w) (wB w) (BitVec.ofNat 1 (fM w))) [w] := by
  unfold rawSrt
  refine encodes_guard fun h => ?_
  have hm : fM w % 2 = fM w := Nat.mod_eq_of_lt h
  split <;> simp +contextual [encode.eq_def, packR3_of_fields hw, *]

theorem encodes_rawPlc (hj : fMaj w = 0x1F) : Encodes (rawPlc k (fFn w) (fD w) (fB w) (fM w) (wD w) (wA w) (wB w)) [w] := by
  unfold rawPlc
  refine encodes_guard fun h => ?_
  split
  case h_2 | h_3 => cases k <;> simp +contextual [encode.eq_def, packR3_of_fields hw, *]
  all_goals simp +contextual [encode.eq_def, packR3_of_fields hw, *]

theorem encodes_rawBr (hj : fMaj w = 0x20) : Encodes (rawBr (fCond w) (wBa w) (wBb w) (wOff w)) [w] := by
  unfold rawBr
  split <;> simp +contextual [encode.eq_def, packB_of_fields hw, *]

theorem encodes_rawCmem (hj : fMaj w = 0x22) :
    Encodes (rawCmem (fFn w) (fM w) (wD w) (wA w) (wB w) (wM w) (BitVec.ofNat 2 (fM w))) [w] := by
  unfold rawCmem
  split
  case h_2 =>
    refine encodes_guard fun h => ?_
    have hm : fM w % 4 = fM w := Nat.mod_eq_of_lt h
    simp +contextual [encode.eq_def, packR3_of_fields hw, *]
  all_goals simp +contextual [encode.eq_def, packR3_of_fields hw, *]

theorem encodes_rawCreg (hj : fMaj w = 0x23) : Encodes (rawCreg (fFn3 w) (fD w) (fA w) (fImm w) (wD w) (wA w) (wImm w)) [w] := by
  unfold rawCreg
  split
  case h_2 =>
    refine encodes_zeroThen_of fun h => ?_
    split_ifs <;> simp +contextual [encode.eq_def, packI_of_fields hw, *]
  all_goals simp +contextual [encode.eq_def, packI_of_fields hw, *]

theorem encodes_rawSched (hj : fMaj w = 0x24) : Encodes (rawSched (fFn w) (fD w) (fB w) (fM w) (wD w) (wA w) (wB w)) [w] := by
  unfold rawSched
  refine encodes_guard fun h => ?_
  split <;> simp +contextual [encode.eq_def, packR3_of_fields hw, *]

theorem encodes_rawSys (hj : fMaj w = 0x25) : Encodes (rawSys (fFn w) (fD w) (fA w) (fB w) (fM w) (wD w) (wA w) (wB w)) [w] := by
  unfold rawSys
  split
  case h_8 | h_9 => split <;> simp +contextual [encode.eq_def, packR3_of_fields hw, *]
  all_goals simp +contextual [encode.eq_def, packR3_of_fields hw, *]

/-- MOVL: the second word is the immediate, and the field behind the function code must be 0 (R62). -/
theorem encodes_rawMovl (u : BitVec 32) (hj : fMaj w = 0x06) : Encodes (rawMovl (fFn3 w) (fA w) (fImm w) (wD w) (wA w) u) [w, u.toNat] := by
  unfold rawMovl
  refine encodes_guard fun h => ?_
  split <;> simp +contextual [encode.eq_def, packI_of_fields hw, *]

/-! ### The opcode map -/

/-- What the opcode map names of a short form has that one word. -/
theorem encodes_rawWord_short (u : BitVec 32) (hl : isLong w = false) : Encodes (rawWord k w u) [w] := by
  unfold rawWord
  split
  case h_1 hj => exact encodes_rawInt hw hj
  case h_2 hj => exact encodes_rawInti hw hj
  case h_3 hj => exact encodes_rawBits hw hj
  case h_4 hj => exact encodes_rawIcmp hw hj
  case h_5 hj => simp [encode.eq_def, packR4_of_fields hw hj]
  case h_6 hj => simp [isLong, hj] at hl
  case h_7 hj => exact encodes_rawFp hw hj
  case h_8 hj => simp [encode.eq_def, packR4_of_fields hw hj]
  case h_9 hj => exact encodes_rawFun hw hj
  case h_10 hj => simp [encode.eq_def, packR3_of_fields hw hj]
  case h_11 hj => exact encodes_rawFcmp hw hj
  case h_12 hj => exact encodes_rawBlk hw hj
  case h_13 hj => exact encodes_rawRed hw hj
  case h_14 hj => exact encodes_rawFlow hw hj
  case h_15 hj => exact encodes_rawHeld hw hj
  case h_16 hj => exact encodes_rawTrapu hw hj
  case h_17 hj => exact encodes_rawMem hw hj
  case h_18 hj => exact encodes_rawGs hw hj
  case h_19 hj => exact encodes_rawAtom hw hj
  case h_20 hj => exact encodes_rawOrd hw hj
  case h_21 hj => exact encodes_rawStrm hw hj
  case h_22 hj => exact encodes_rawTag hw hj
  case h_23 hj => exact encodes_rawBar hw hj
  case h_24 hj => exact encodes_rawMtx hw hj
  case h_25 hj => exact encodes_rawRel hw hj
  case h_26 hj => exact encodes_rawSrt hw hj
  case h_27 hj => exact encodes_rawPlc hw hj
  case h_28 hj => exact encodes_rawBr hw hj
  case h_29 hj => simp +contextual [encode.eq_def, packJ_of_fields hw hj]
  case h_30 hj => exact encodes_rawCmem hw hj
  case h_31 hj => exact encodes_rawCreg hw hj
  case h_32 hj => exact encodes_rawSched hw hj
  case h_33 hj => exact encodes_rawSys hw hj
  case h_34 => exact encodes_none [w]

/-- What it names of a long form has the first word and the immediate behind it. -/
theorem encodes_rawWord_long (u : BitVec 32) (hl : isLong w = true) : Encodes (rawWord k w u) [w, u.toNat] := by
  have hj : fMaj w = 0x06 := eq_of_beq hl
  simp only [rawWord, hj]
  exact encodes_rawMovl hw u hj

end

/-! ### The obligation -/

/-- Settles O2: what a word decodes to is what the opcode map names, so it has that word; and the decoder answers only what is well
formed. -/
theorem encodeDecodeAgree : Obligations.EncodeDecodeAgree := by
  refine ⟨fun k w u i hw h => ?_, fun k ws rest i h => ?_⟩
  · obtain ⟨hr, -⟩ := decodeWord_eq_ok_iff.1 h
    cases hl : isLong w with
    | false => exact encodes_rawWord_short hw u hl i hr
    | true => exact encodes_rawWord_long hw u hl i hr
  · obtain ⟨w, u, hd⟩ := decodeWord_of_decodeWords h
    exact (decodeWord_eq_ok_iff.1 hd).2

end Sys2Proof
end

section
/-! The words of the manual's examples, what a word that is no instruction does, and the G registers. -/

namespace Sys2Proof

/-- Settles O3: each word is the one its instruction encodes, and decodes by O1. -/
theorem decodeKnownWords : Obligations.DecodeKnownWords :=
  ⟨decodeEncodeAgree .cell .endFiring [] rfl, decodeEncodeAgree .cell .nop [] rfl, decodeEncodeAgree .cell (.iadd 2 3 4 2) [] rfl,
    decodeEncodeAgree .ctl (.sel 2 3 4 5 0) [] rfl, decodeEncodeAgree .ctl (.iaddi 1 0 (-1)) [] rfl,
    decodeEncodeAgree .cell (.ld 1 40 5 1 1 3) [] rfl, decodeEncodeAgree .core (.bne 2 3 (-2)) [] rfl,
    decodeEncodeAgree .ctl (.jal 1 16) [] rfl, decodeEncodeAgree .cell (.movl 8 0x12345678) [7] rfl⟩

end Sys2Proof

namespace Sys2Proof.Machine

/-! ### A word that is no instruction (R73, R104) -/

variable {s : State}

theorem exec_decodeDefect_ctl {u : Nat} (e : Defect) (ht : s.turn = .ctl u) (hm : (getCtl s u).mode = .running) :
    exec (.decodeDefect e) s = .next (takeCtlTrap s u (getCtl s u).pc (defectTrap e)) := by
  change execDecodeDefect e s = _
  simp only [execDecodeDefect, ht, hm, if_true]

theorem exec_decodeDefect_cell {c : Nat} {f : Firing} (e : Defect) (ht : s.turn = .cell c) (hf : (getCell s c).firing = some f)
    (hp : f.phase = .running) : exec (.decodeDefect e) s = .next (firingFault s c f (defectTrap e)) := by
  change execDecodeDefect e s = _
  simp only [execDecodeDefect, ht, hf, hp, if_true]

/-- Settles O5: the trap of each defect, and that a running unit and a running firing take it in the state they stand in. -/
theorem defectTraps : Obligations.DefectTraps :=
  ⟨rfl, rfl, rfl, fun _ e => ⟨fun _ ht hm => exec_decodeDefect_ctl e ht hm, fun _ _ ht hf hp => exec_decodeDefect_cell e ht hf hp⟩⟩

/-! ### G registers (R63, R424) -/

/-- Read after write, in the bank in use. -/
theorem Ctl.g_setG (x : Ctl) {i : Nat} (hi : i < 32) (v : Word) (j : Nat) : (x.setG i v).g j = if j = i then v else x.g j := by
  unfold Ctl.g Ctl.setG
  by_cases hj : j < 32
  · cases x.handler <;> simp [hi, hj, tget_tset]
  · rw [if_neg hj, if_neg hj, if_neg (by omega)]

/-- A handler's writes go to bank 1 (R424). -/
theorem Ctl.bank0_setG {x : Ctl} (hh : x.handler = true) (i : Nat) (v : Word) : (x.setG i v).bank0 = x.bank0 := by
  rw [Ctl.setG, if_pos hh]
  split <;> rfl

/-- Writes outside a handler go to bank 0 (R424). -/
theorem Ctl.bank1_setG {x : Ctl} (hh : x.handler = false) (i : Nat) (v : Word) : (x.setG i v).bank1 = x.bank1 := by
  rw [Ctl.setG, hh]
  split <;> rfl

/-- Settles O10: read after write is `Ctl.g_setG`; Z, number 44, is in neither bank; and a write changes the bank in use only. -/
theorem gRegisters : Obligations.GRegisters :=
  ⟨fun x _ j v hi => Ctl.g_setG x hi v j, fun _ _ => ⟨rfl, rfl⟩, fun _ i v hh => Ctl.bank0_setG hh i v,
    fun _ i v hh => Ctl.bank1_setG hh i v⟩

end Sys2Proof.Machine
end

section
/-! A step runs the word that the agent with the turn has reached (R54, R104, R105), and where the result of a cell's instruction goes
(R102, R117, R310). -/

namespace Sys2Proof.Machine

/-! ### What a step runs -/

/-- Where the agent with the turn has an instruction to run, the step is that instruction and what follows every agent's step. -/
theorem step_of_due_run {s : State} {i : Instr} (hp : unpowered s = false) (h : due s = .run i) : step s = goOn (exec i s) := by
  simp [step, hp, h]

theorem due_ctl {s : State} {u : Nat} (ht : s.turn = .ctl u) : due s = ctlDue s u := by simp only [due, ht]

theorem due_cell {s : State} {c : Nat} (ht : s.turn = .cell c) : due s = cellDue s c := by simp only [due, ht]

/-- A running unit fetches the row that the words at its pc decode to. -/
theorem fetchCtl_of_decodes {s : State} {u : Nat} {ws rest : List Nat} {i : Instr} (hf : fetchWords s u (getCtl s u).pc = .ok ws)
    (hd : decodeWords (unitKind u) ws = .ok (i, rest)) : fetchCtl s u = .run (rowOf s u i) := by
  simp only [fetchCtl, hf, hd]

theorem one_le_sizeOf' (i : Instr) : 1 ≤ sizeOf' i := by
  unfold sizeOf'
  split <;> decide

/-- A running firing fetches the instruction its words decode to, where it is END or ends before the last word of the range (R104). -/
theorem fetchCell_of_decodes {s : State} {c : Nat} {f : Firing} {i : Instr} {rest : List Nat}
    (hd : decodeWords .cell [(tget 0 (getCell s c).store f.word).toNat, (tget 0 (getCell s c).store (f.word + 1)).toNat] = .ok (i, rest))
    (hr : i = .endFiring ∨ f.word + sizeOf' i ≤ bits ((getCell s c).field f.ctx 0) 16 8 + bits ((getCell s c).field f.ctx 0) 24 5) :
    fetchCell s c f = .run i := by
  have hin : ¬ (i ≠ .endFiring ∧ bits ((getCell s c).field f.ctx 0) 16 8 + bits ((getCell s c).field f.ctx 0) 24 5 ≤ f.word + sizeOf' i - 1) := by
    have hs := one_le_sizeOf' i
    rintro ⟨hne, hle⟩
    rcases hr with h | h
    · exact hne h
    · omega
  simp only [fetchCell, hd, if_neg hin]

/-- Settles O4: the fetch answers the decoded row, and the step runs what was fetched. -/
theorem stepRunsDecoded : Obligations.StepRunsDecoded := by
  refine ⟨fun s u ws rest i hp ht hm hf hd => step_of_due_run hp ?_, fun s c f i rest hp ht hf hph hd hr => step_of_due_run hp ?_⟩
  · rw [due_ctl ht]
    simp only [ctlDue, if_pos hm, fetchCtl_of_decodes hf hd]
  · rw [due_cell ht]
    simp only [cellDue, hf, if_pos hph, fetchCell_of_decodes hd hr]

end Sys2Proof.Machine
end

section
namespace Sys2Proof.Machine

/-! ### Where a cell's result goes -/

/-- A temporary takes the value at once (R310). -/
theorem writeSpec_temp {s : State} {c : Nat} {f : Firing} {d : Spec} (v : Nat) (hd : d.toNat ≤ 7) :
    writeSpec s c f d v = .ok (f.setTemp d.toNat v) := if_pos hd

theorem Firing.getD_setTemp (f : Firing) (n v j : Nat) (hj : j < 8) :
    (f.setTemp n v).temps.getD j 0 = if j = n then BitVec.ofNat 512 v else f.temps.getD j 0 := by
  simp only [Firing.setTemp, List.getD_eq_getElem?_getD, List.getElem?_map, List.getElem?_range hj, Option.map_some, Option.getD_some]

/-- A held register takes an entry of the buffer, once no value of an earlier firing is on its way into it (R102, R117). -/
theorem writeSpec_held {s : State} {c : Nat} {f : Firing} {d : Spec} {k : Nat} (v : Nat) (hd : d.toNat = k + 8) (hk : k < 32) :
    writeSpec s c f d v = writeWait s c f k >>= fun _ => addEntry f (.held k (BitVec.ofNat 512 v)) := by
  have h7 : ¬ d.toNat ≤ 7 := by omega
  have h39 : d.toNat ≤ 39 := by omega
  have hn : d.toNat - 8 = k := by omega
  simp only [writeSpec, if_neg h7, if_pos h39, hn]

theorem writeSpec_Z {s : State} {c : Nat} {f : Firing} {d : Spec} (v : Nat) (hd : d.toNat = 44) : writeSpec s c f d v = .ok f := by
  simp [writeSpec, hd]

/-- I0 to I3 and the firing's other specifiers are read-only (R63). -/
theorem writeSpec_readOnly {s : State} {c : Nat} {f : Firing} {d : Spec} (v : Nat) (hd : 40 ≤ d.toNat) (hz : d.toNat ≠ 44) :
    writeSpec s c f d v = .error (.trap { cause := cILLREG }) := by
  have h7 : ¬ d.toNat ≤ 7 := by omega
  have h39 : ¬ d.toNat ≤ 39 := by omega
  simp only [writeSpec, if_neg h7, if_neg h39, if_neg hz]
  rfl

/-- The buffer has room for 16 entries (R102). -/
theorem addEntry_room {f : Firing} (e : Entry) (h : f.out.length < 16) : addEntry f e = .ok { f with out := f.out ++ [e] } :=
  if_neg (Nat.not_le.mpr h)

theorem addEntry_full {f : Firing} (e : Entry) (h : 16 ≤ f.out.length) : addEntry f e = .error (.trap (tIllop 2)) := if_pos h

/-- A write waits for a register that is EMPTY by an earlier firing, no fill error set, or by a command of its own firing (R117; log
entry 13). -/
theorem writeWait_eq (s : State) (c : Nat) (f : Firing) (k : Nat) :
    writeWait s c f k =
      if (heldView (getCell s c) f k).1.st = .empty ∧
          ((heldView (getCell s c) f k).1.err = false ∧ (heldView (getCell s c) f k).2 = .none ∨ (heldView (getCell s c) f k).2 = .cmd)
      then .error .stall else .ok () := by
  unfold writeWait
  obtain ⟨⟨v, st, tag, err, past⟩, own⟩ := heldView (getCell s c) f k
  cases st <;> cases err <;> cases own <;> rfl

/-- Settles O11: by the specifier's number, one case for each kind of destination. -/
theorem cellDestinations : Obligations.CellDestinations := by
  refine fun s c f d v => ⟨fun hd => ⟨_, writeSpec_temp v hd, rfl, fun n hn => Firing.getD_setTemp f _ v n hn⟩, fun k hd hk => ⟨fun hst => ?_, ?_⟩,
    writeSpec_Z v, writeSpec_readOnly v⟩
  · rw [writeSpec_held v hd hk, writeWait_eq, if_neg fun h => hst h.1]
    exact ⟨addEntry_room _, addEntry_full _⟩
  · intro hst herr hown
    rw [writeSpec_held v hd hk, writeWait_eq, if_pos ⟨hst, .inl ⟨herr, hown⟩⟩]
    rfl

end Sys2Proof.Machine
end

section
/-! How a firing goes on behind its instruction, and how it ends by a trap (R106, R113, R421, R423): the rules that the proofs about
cells use. -/

namespace Sys2Proof.Machine
open Sys2Proof.Claims

variable {s : State} {c : Nat} {f g : Firing} {i : Instr}

/-! ### A firing goes on -/

@[simp] theorem getCell_putFiring (s : State) (c e : Nat) (f : Firing) :
    getCell (putFiring s c f) e = if e = c then { getCell s c with firing := some f } else getCell s e := getCell_modCell s c e _

@[simp] theorem getCell_advance (s : State) (c e n : Nat) :
    getCell (advance s c n) e =
      if e = c then { getCell s c with firing := (getCell s c).firing.map fun f => { f with word := f.word + n } } else getCell s e :=
  getCell_modCell s c e _

/-- An instruction whose body puts `g` back leaves `g` behind it and nothing else changed. -/
theorem firingOn_put (s : State) (c : Nat) (i : Instr) (g : Firing) : FiringOn s (advance (putFiring s c g) c (sizeOf' i)) c i g :=
  ⟨rfl, by simp, fun d hd => by simp [hd], fun _ => rfl⟩

/-- An instruction whose body changes nothing leaves the firing behind it. -/
theorem firingOn_same (hf : (getCell s c).firing = some f) (i : Instr) : FiringOn s (advance s c (sizeOf' i)) c i f :=
  ⟨rfl, by simp [hf], fun d hd => by simp [hd], fun _ => rfl⟩

/-- The outcome of an instruction of the firing that its body `r` gives. -/
def cellOutcome (s : State) (c : Nat) (f : Firing) (i : Instr) (r : R State) : Out State := match r with
  | .ok t => .next (advance t c (sizeOf' i))
  | .error (.trap e) => .next (firingFault s c f e)
  | .error .stall => .next (stallCell s c f)
  | .error (.redo t) => .next t

theorem onCells_runs {body : Nat → Firing → State → R State} (h : CellRuns s c f i) :
    onCells i s body = cellOutcome s c f i (body c f s) := by
  obtain ⟨ht, hf, hp, hw, -⟩ := h
  simp only [onCells, runInstr, ht, hf, hp, hw, if_true]
  rfl

theorem onCells_ok {t : State} {body : Nat → Firing → State → R State} (h : CellRuns s c f i) (hb : body c f s = .ok t) :
    onCells i s body = .next (advance t c (sizeOf' i)) := by rw [onCells_runs h, hb]; rfl

theorem onCells_trap {e : Trap} {body : Nat → Firing → State → R State} (h : CellRuns s c f i) (hb : body c f s = .error (.trap e)) :
    onCells i s body = .next (firingFault s c f e) := by rw [onCells_runs h, hb]; rfl

theorem withRegs_runs {body : Nat → Firing → State → R State} (h : CellRuns s c f i) : withRegs i body c f s = body c f s :=
  withRegs_usable h.2.2.2.2

/-- An instruction whose body puts `g` back goes on as `g`. -/
theorem onCells_put {body : Nat → Firing → State → R State} (h : CellRuns s c f i) (hb : body c f s = .ok (putFiring s c g)) :
    ∃ t, onCells i s body = .next t ∧ FiringOn s t c i g := ⟨_, onCells_ok h hb, firingOn_put s c i g⟩

/-! ### Fields of a record (R421) -/

theorem bits_mod (x n lo len : Nat) (h : lo + len ≤ n) : bits (x % 2 ^ n) lo len = bits x lo len := by
  refine Nat.eq_of_testBit_eq fun j => ?_
  simp only [bits, Nat.testBit_mod_two_pow, Nat.testBit_shiftRight]
  by_cases hj : j < len
  · simp [hj, show lo + j < n by omega]
  · simp [hj]

/-- The cause, the detail and the kind that W0 of a record carries. -/
theorem recordWords_w0 (kind : Nat) (e : Trap) (x : Src) (cell stage grove : Nat) (fr : Frame) (time : Nat) (ex : RecExtra) (hk : kind < 8)
    (hc : e.cause < 256) (hi : e.inner < 256) (hd : e.detail < 256) :
    let w := ((recordWords kind e x cell stage grove fr time ex).getD 0 0).toNat
    bits w 56 8 = e.cause ∧ bits w 40 8 = e.detail ∧ bits w 37 3 = kind := by
  have hw : ((recordWords kind e x cell stage grove fr time ex).getD 0 0).toNat =
      (e.cause * 2 ^ 56 + e.inner * 2 ^ 48 + e.detail * 2 ^ 40 + kind * 2 ^ 37 + x.ctx % 8 * 2 ^ 29 + x.word % 256 * 2 ^ 16 +
        cell % 64 * 2 ^ 10 + x.frame % 1024) % 2 ^ 64 := by simp [recordWords]
  rw [hw]
  refine ⟨?_, ?_, ?_⟩ <;> rw [bits_mod _ _ _ _ (by decide), bits, Nat.shiftRight_eq_div_pow] <;> omega

/-- The words of a frame trap's record. -/
theorem frameRecord_w0 (s : State) {kind : Nat} {e : Trap} (x : Src) (ex : RecExtra) (hk : kind < 8)
    (hc : e.cause < 256) (hi : e.inner < 256) (hd : e.detail < 256) :
    let r := frameRecord s kind e x ex
    r.kind = kind ∧ bits (r.w 0).toNat 56 8 = e.cause ∧ bits (r.w 0).toNat 40 8 = e.detail ∧ r.w 3 = BitVec.ofNat 64 e.addr := by
  obtain ⟨h1, h2, h3⟩ := recordWords_w0 kind e x (cellNo x.who) (((getCfg s x.cfg).stageOf (groveOf x.who)).getD 0)
    ((getCfg s x.cfg).relGrove (groveOf x.who)) ((getCfg s x.cfg).frame x.frame) s.timens.toNat ex hk hc hi hd
  exact ⟨h3, h1, h2, rfl⟩

/-! ### A frame stops (R113, R423) -/

theorem getCfg_of_find {k : Cfg} {n : Nat} (h : findCfg s n = some k) : getCfg s n = k := by rw [getCfg, h]; rfl

theorem findCfg_modFrame (s : State) (a n : Nat) (g : Frame → Frame) {k : Cfg} (hk : findCfg s a = some k) :
    findCfg (modFrame s a n g) a = some { k with frames := tmod {} k.frames n g } := by
  have hid : k.id = a := by simpa using List.find?_some hk
  have h := findCfg_modCfg s a a (fun c => { c with frames := tmod {} c.frames n g }) fun _ => rfl
  rwa [hk, Option.map_some, if_pos hid] at h

/-- A frame that stops takes the record, and the record is queued at the cell's controller where the configuration names a handler. -/
theorem stopFrame_handled {r : TrapRec} {k : Cfg} (hk : findCfg s r.cfg = some k) (hst : k.st ≠ .saved) (hr : (k.frame r.frame).stopped = none)
    (hw : k.w 5 ≠ 0) :
    stopFrame s r = queueRecord (modFrame s r.cfg r.frame fun f => { f with live := true, stopped := some r }) (groveOf r.cell) r := by
  have hg := getCfg_of_find (findCfg_modFrame s r.cfg r.frame (fun f => { f with live := true, stopped := some r }) hk)
  have hw' : Cfg.w { k with frames := tmod {} k.frames r.frame fun f => { f with live := true, stopped := some r } } 5 ≠ 0 := hw
  simp only [stopFrame, hk, hr, routeRecord, hg, if_neg hst, if_neg hw']

/-- Whatever becomes of the record, a frame that stops holds it. -/
theorem getFrame_routeRecord (s : State) (r : TrapRec) (n fr : Nat) : getFrame (routeRecord s r) n fr = getFrame s n fr := by
  unfold routeRecord escalate toSupervisor
  dsimp only
  split
  · rfl
  · split
    · split <;> rfl
    · rfl

theorem stopFrame_holds {r : TrapRec} {k : Cfg} (hk : findCfg s r.cfg = some k) (hr : (k.frame r.frame).stopped = none) :
    (getFrame (stopFrame s r) r.cfg r.frame).stopped = some r := by
  simp only [stopFrame, hk, hr, getFrame_routeRecord, getFrame_modFrame s r.cfg r.frame _ hk]

/-- What a frame's trap leaves: the frame holds the record of its cause, and no cell and no memory has changed. -/
theorem stopFrame_record {kind : Nat} {e : Trap} (x : Src) (ex : RecExtra) {k : Cfg} (hk : findCfg s x.cfg = some k)
    (hr : (k.frame x.frame).stopped = none) (hkind : kind < 8) (hc : e.cause < 256) (hi : e.inner < 256) (hd : e.detail < 256) :
    ∃ r, (getFrame (stopFrame s (frameRecord s kind e x ex)) x.cfg x.frame).stopped = some r ∧ r.kind = kind ∧
      bits (r.w 0).toNat 56 8 = e.cause ∧ bits (r.w 0).toNat 40 8 = e.detail ∧
      (stopFrame s (frameRecord s kind e x ex)).cells = s.cells ∧ SameMem s (stopFrame s (frameRecord s kind e x ex)) := by
  obtain ⟨hk', hc', hd', -⟩ := frameRecord_w0 s x ex hkind hc hi hd
  obtain ⟨hmem, hcells⟩ := stopFrame_mem s (frameRecord s kind e x ex)
  exact ⟨_, stopFrame_holds hk hr, hk', hc', hd', hcells, fun a => congrArg (fun m => tget 0 m a) hmem⟩

/-- A record is queued in its order at a controller that has room for it (R423). -/
theorem queue_queueRecord {u : Nat} {r : TrapRec} (hu : isCore u = false) (hl : (getCtl s u).queue.length < 32)
    (hp : (getCtl s u).parked = []) : (getCtl (queueRecord s u r) u).queue = insertRecord r (getCtl s u).queue := by
  simp [queueRecord, Ctl.enqueue, queueSize, hu, hl, hp]

/-! ### A firing is withdrawn (R106) -/

theorem dropWait_frame (s : State) (who uid : Nat) : dropWait s who uid = { s with barWaits := (dropWait s who uid).barWaits } := by
  unfold dropWait
  split <;> rfl

/-- Withdrawing a firing changes its cell, its accesses under way and its waits at barriers. -/
theorem withdrawFiring_frame (s : State) (c : Nat) (f : Firing) :
    withdrawFiring s c f = { s with cells := (withdrawFiring s c f).cells, work := (withdrawFiring s c f).work
                                    inflight := (withdrawFiring s c f).inflight, barWaits := (withdrawFiring s c f).barWaits } := by
  unfold withdrawFiring
  rw [dropWait_frame]
  rfl

theorem findCfg_withdrawFiring (s : State) (c : Nat) (f : Firing) (n : Nat) : findCfg (withdrawFiring s c f) n = findCfg s n := by
  rw [withdrawFiring_frame]
  rfl

theorem getCtl_withdrawFiring (s : State) (c : Nat) (f : Firing) (u : Nat) : getCtl (withdrawFiring s c f) u = getCtl s u := by
  rw [withdrawFiring_frame]
  rfl

/-- Its tokens return in front of the cell's others. -/
theorem getCell_withdrawFiring (s : State) (c : Nat) (f : Firing) :
    getCell (withdrawFiring s c f) c = { getCell s c with
      firing := none, tokens := f.inputs ++ (getCell s c).tokens
      sources := if f.source then (f.ctx, f.frame) :: (getCell s c).sources else (getCell s c).sources } := by
  have hc : getCell (dropWait (withdrawAccesses s f.uid) c f.uid) c = getCell s c := by rw [dropWait_frame]; rfl
  rw [withdrawFiring, getCell_modCell, if_pos rfl, hc]

/-! ### A firing faults (R420) -/

/-- The firing with a fault at its instruction. -/
def Firing.faulted (f : Firing) (e : Trap) : Firing := { f with phase := .ending, fault := some (e, f.word) }

/-- Once no check is out, a fault of a firing withdraws it and stops its frame. -/
theorem firingFault_settles {e : Trap} (hr : f.race = none) (hc : checksPending s f.uid = false) :
    firingFault s c f e = takeFiringTrap (putFiring s c (f.faulted e)) c (f.faulted e) e (firingSrc (putFiring s c (f.faulted e)) c (f.faulted e)) := by
  have hf : (getCell (putFiring s c (f.faulted e)) c).firing = some (f.faulted e) := by simp
  have hc' : checksPending (putFiring s c (f.faulted e)) (f.faulted e).uid = false := hc
  have hr' : (f.faulted e).race = none := hr
  have hx : (f.faulted e).fault = some (e, f.word) := rfl
  have hp : (f.faulted e).phase = .ending := rfl
  change settleFiring (putFiring s c (f.faulted e)) c = _
  simp only [settleFiring, hf, hr', hx, hp, hc']
  exact if_neg (by simp)

/-! ### The obligation -/

/-- TRAP (R148) and BRKP (R149). -/
theorem exec_trap {a b : Spec} {v : Nat} (h : CellRuns s c f (.trap a b)) (hv : readSpec s c f a = .ok v) :
    exec (.trap a b) s = .next (firingFault s c f { cause := cUSER, addr := b.toNat, aux := v % 2 ^ 64 }) := by
  refine onCells_trap h ?_
  rw [withRegs_runs h, hv]
  rfl

theorem exec_brkp_enabled {b : Spec} (h : CellRuns s c f (.brkp b)) (hb : bit (getCtl s (groveOf c)).dbgctl.toNat 0 = true) :
    exec (.brkp b) s = .next (firingFault s c f { cause := cBRK, addr := b.toNat }) := by
  change execBrkp b s = _
  exact onCells_trap h (if_pos hb)

theorem exec_brkp_disabled {b : Spec} (h : CellRuns s c f (.brkp b)) (hb : bit (getCtl s (groveOf c)).dbgctl.toNat 0 = false) :
    ∃ t, exec (.brkp b) s = .next t ∧ FiringOn s t c (.brkp b) f := by
  change ∃ t, execBrkp b s = .next t ∧ _
  exact ⟨_, onCells_ok h (if_neg (by simp [hb])), firingOn_same h.2.1 _⟩

/-- Settles O34: the fault withdraws the firing (`firingFault_settles`, `getCell_withdrawFiring`) and stops its frame with the record, which
goes to the handler's controller (`stopFrame_handled`). -/
theorem firingTraps : Obligations.FiringTraps := by
  refine ⟨fun s c f e k hf hrace hchk hk hst hrun hw hc hlen hpark hcause hinner hdetail => ?_, fun s c f a b v =>
    ⟨exec_trap, exec_brkp_enabled, exec_brkp_disabled⟩⟩
  intro t
  have hmem : t.mem = s.mem := firingFault_mem s c f e
  have ht : t = _ := firingFault_settles hrace hchk
  set f' : Firing := f.faulted e
  set s' := putFiring s c f' with hs'
  set r := frameRecord s' kFIRING e (firingSrc s' c f') {} with hr
  set w := withdrawFiring s' c f' with hw'
  have hkw : findCfg w r.cfg = some k := (findCfg_withdrawFiring _ _ _ _).trans hk
  have hcell : getCell w c = { getCell s c with firing := none, tokens := f.inputs ++ (getCell s c).tokens, sources := (getCell w c).sources } := by
    rw [hw', getCell_withdrawFiring, hs', getCell_putFiring, if_pos rfl]
    rfl
  have hctl : getCtl w (groveOf c) = getCtl s (groveOf c) := by rw [hw', getCtl_withdrawFiring, hs', getCtl_putFiring]
  have htake : t = queueRecord (modFrame w r.cfg r.frame fun x => { x with live := true, stopped := some r }) (groveOf c) r :=
    ht.trans (stopFrame_handled hkw hst hrun hw)
  have htcell : getCell t c = getCell w c := by rw [htake]; rfl
  have hnc : isCore (groveOf c) = false := by
    have : groveOf c < 1024 := by unfold groveOf; omega
    simp [isCore, this]
  obtain ⟨hkind, hca, hde, had⟩ := frameRecord_w0 s' (firingSrc s' c f') {} (show kFIRING < 8 by decide) hcause hinner hdetail
  rw [htcell, hcell]
  refine ⟨rfl, rfl, rfl, r, ht ▸ stopFrame_holds hkw hrun, ?_, hkind, hca, hde, had, rfl, rfl, fun a => ?_⟩
  · have hg : getCtl (modFrame w r.cfg r.frame fun x => { x with live := true, stopped := some r }) (groveOf c) = getCtl s (groveOf c) := hctl
    rw [htake, queue_queueRecord hnc (by rwa [hg]) (by rwa [hg]), hg]
  · exact congrArg (fun m => tget 0 m a) hmem

end Sys2Proof.Machine
end

section
/-! Tokens, predicates, bounds and values arrive at a cell (R95 to R99, R109, R116). -/

namespace Sys2Proof.Machine
open Sys2Proof.Claims

variable {s : State} {k c : Nat} {x : Token} {q : Cfg}

/-! ### What the firings that are ready are noted in (R114) -/

/-- Noting what is ready changes the cell alone. -/
theorem noteReady_frame (s : State) (c : Nat) : noteReady s c = { s with cells := (noteReady s c).cells } := by
  unfold noteReady
  dsimp only
  split <;> rfl

/-- Of the cell it changes how often its ready firings were passed over. -/
theorem getCell_noteReady (s : State) (c d : Nat) :
    getCell (noteReady s c) d =
      if d = c then { getCell s c with passed := (getCell (noteReady s c) c).passed } else getCell s d := by
  unfold noteReady
  dsimp only
  split
  · split
    · subst d; rfl
    · rfl
  · simp only [getCell_setCell, if_true]

theorem getCell_noteReady_ne (s : State) {c d : Nat} (h : d ≠ c) : getCell (noteReady s c) d = getCell s d := by
  rw [getCell_noteReady, if_neg h]

theorem getCell_noteReady_self (s : State) (c : Nat) :
    getCell (noteReady s c) c = { getCell s c with passed := (getCell (noteReady s c) c).passed } := by
  conv_lhs => rw [getCell_noteReady, if_pos rfl]

@[simp] theorem tokens_noteReady (s : State) (c d : Nat) : (getCell (noteReady s c) d).tokens = (getCell s d).tokens := by
  rw [getCell_noteReady]; split
  · subst d; rfl
  · rfl

@[simp] theorem held_noteReady (s : State) (c d : Nat) : (getCell (noteReady s c) d).held = (getCell s d).held := by
  rw [getCell_noteReady]; split
  · subst d; rfl
  · rfl

@[simp] theorem firing_noteReady (s : State) (c d : Nat) : (getCell (noteReady s c) d).firing = (getCell s d).firing := by
  rw [getCell_noteReady]; split
  · subst d; rfl
  · rfl

@[simp] theorem counters_noteReady (s : State) (c d : Nat) : (getCell (noteReady s c) d).counters = (getCell s d).counters := by
  rw [getCell_noteReady]; split
  · subst d; rfl
  · rfl

/-- A token placed at a cell joins its tokens; the cell's held registers and firing stay, and so does every other cell. -/
theorem placeToken_cells (s : State) (c : Nat) (x : Token) :
    (getCell (placeToken s c x) c).tokens = (getCell s c).tokens ++ [x] ∧ (getCell (placeToken s c x) c).held = (getCell s c).held ∧
      (getCell (placeToken s c x) c).firing = (getCell s c).firing ∧ OtherCells s (placeToken s c x) c := by
  refine ⟨?_, ?_, ?_, fun d hd => ?_⟩ <;> simp only [placeToken, tokens_noteReady, held_noteReady, firing_noteReady, getCell_modCell, if_true]
  rw [getCell_noteReady_ne _ hd, getCell_modCell, if_neg hd]

theorem placeToken_frame (s : State) (c : Nat) (x : Token) : placeToken s c x = { s with cells := (placeToken s c x).cells } := by
  rw [placeToken, noteReady_frame]
  rfl

/-! ### A token of a live frame of a running configuration arrives at its own cell -/

/-- The token is let in by the order of its route and the room at its cell. -/
theorem exec_arrival {i : Instr} {w : Work} (hi : (i = .tokenArrival ∧ w = .token c x) ∨ (i = .predicateArrival ∧ w = .predicate c x))
    (hw : WorkDue s i k w) (hr : routeFree s k x.route = true) (hm : tokenRoom s c x = true) :
    exec i s = .next (arrive (dropWork s k) c x) := by
  obtain ⟨hev, hat⟩ := hw
  have harg : turnArg s = some k := by simp only [turnArg, hev]
  rcases hi with ⟨rfl, rfl⟩ | ⟨rfl, rfl⟩
  · change execTokenArrival s = _
    simp [execTokenArrival, harg, hat, hr, hm]
  · change execPredicateArrival s = _
    simp [execPredicateArrival, harg, hat, hr, hm]

theorem exec_counterBound (hw : WorkDue s .counterBound k (.token c x)) (hr : routeFree s k x.route = true) (hm : tokenRoom s c x = true)
    (hb : isBound (getCell s c) x = true) : exec .counterBound s = .next (arrive (dropWork s k) c x) := by
  have harg : turnArg s = some k := by simp only [turnArg, hw.1]
  change execCounterBound s = _
  simp [execCounterBound, harg, hw.2, hr, hm, hb]

/-- What becomes of a token that arrives in a live, unstopped frame: a malformed one stops it, a bound one goes to its counter, another
joins the tokens of the cell (R96, R109). -/
theorem arrive_live (hcfg : (getCell s c).cfg = x.cfg) (hq : findCfg s x.cfg = some q) (hst : q.st = .running)
    (hsk : (q.frame x.frame).skipped = false) (hstop : (q.frame x.frame).stopped = none) :
    arrive s c x = if malformed (getCell s c) x then stopMalformed s c x else if isBound (getCell s c) x then takeBound s c x
      else placeToken s c x := by
  have hg : getCfg s x.cfg = q := getCfg_of_find hq
  simp [arrive, getFrame, frameStopped, hg, hcfg, hst, hsk, hstop]

/-- A malformed token stops its frame with a TOKEN record of ILLOP. -/
theorem stopMalformed_record (s : State) (c : Nat) (x : Token) (hq : findCfg s x.cfg = some q) (hstop : (q.frame x.frame).stopped = none) :
    ∃ r, (getFrame (stopMalformed s c x) x.cfg x.frame).stopped = some r ∧ r.kind = kTOKEN ∧ bits (r.w 0).toNat 56 8 = cILLOP ∧
      bits (r.w 0).toNat 40 8 = 4 ∧ (stopMalformed s c x).cells = s.cells ∧ SameMem s (stopMalformed s c x) :=
  stopFrame_record { kind := 0, who := c, cfg := x.cfg, frame := x.frame, ctx := x.ctx, itag := x.itag, asn := (getCfg s x.cfg).asn }
    { header := headerOf x, payload := x.payload.toNat } hq hstop (by decide) (by decide) (by decide) (by decide)

/-- A bound of 1 to 2^24 - 1 sets the pending trip count of its counter, and notes its last flag (R109, R175). -/
theorem takeBound_inRange (h1 : 1 ≤ lane 32 x.payload.toNat 0) (h2 : lane 32 x.payload.toNat 0 < 2 ^ 24) :
    takeBound s c x = modCell s c fun y =>
      { y with counters := tset {} y.counters (x.ctx * 1024 + x.frame) { counterOf y x.ctx x.frame with pending := lane 32 x.payload.toNat 0 }
               lasts := if x.last && !y.lasts.contains (x.ctx, x.frame, 1) then y.lasts ++ [(x.ctx, x.frame, 1)] else y.lasts } := by
  have h : ¬ (lane 32 x.payload.toNat 0 = 0 ∨ 0xFFFFFF < lane 32 x.payload.toNat 0) := by omega
  simp only [takeBound, if_neg h]

/-- Another bound stops the frame with BOUNDS, and changes no counter. -/
theorem takeBound_outOfRange (hq : findCfg s x.cfg = some q) (hstop : (q.frame x.frame).stopped = none)
    (h : lane 32 x.payload.toNat 0 = 0 ∨ 2 ^ 24 ≤ lane 32 x.payload.toNat 0) :
    ∃ r, (getFrame (takeBound s c x) x.cfg x.frame).stopped = some r ∧ bits (r.w 0).toNat 56 8 = cBOUNDS ∧ SameMem s (takeBound s c x) ∧
      (getCell (takeBound s c x) c).counters = (getCell s c).counters := by
  have h' : lane 32 x.payload.toNat 0 = 0 ∨ 0xFFFFFF < lane 32 x.payload.toNat 0 := by omega
  rw [takeBound, if_pos h']
  dsimp only
  generalize hs' : (modCell s c fun y => { y with tokens := x :: y.tokens }) = s'
  have hq' : findCfg s' x.cfg = some q := by rw [← hs', findCfg_modCell, hq]
  obtain ⟨r, hr, -, hc, -, hcells, hmem⟩ := stopFrame_record
    { kind := 0, who := c, cfg := x.cfg, frame := x.frame, ctx := x.ctx, itag := x.itag, asn := (getCfg s' x.cfg).asn } {} hq' hstop
    (show kFIRING < 8 by decide) (show cBOUNDS < 256 by decide) (e := tBounds (lane 32 x.payload.toNat 0)) (Nat.zero_lt_succ _) (Nat.zero_lt_succ _)
  refine ⟨r, hr, hc, fun a => (hmem a).trans (hs' ▸ rfl), ?_⟩
  rw [getCell, hcells, ← hs']
  simp [modCell, setCell]

/-! ### A value lands (R116, R118) -/

theorem exec_fillLand {j : Nat} {v : Reg} {e : Bool} (hw : WorkDue s .fillLand k (.fill c j v e)) :
    exec .fillLand s = .next (modCell (seeAll (dropWork s k) c) c fun x =>
      { x with held := tmod {} x.held j fun h => if e then { h with err := true } else { h with value := v, st := .full, err := false } }) := by
  have harg : turnArg s = some k := by simp only [turnArg, hw.1]
  change execFillLand s = _
  simp only [execFillLand, harg, Option.bind_some, hw.2, Option.map_some]

@[simp] theorem getCell_seeAll (s : State) (c d : Nat) : getCell (seeAll s c) d = getCell s d := by
  rw [seeAll_frame]
  rfl

theorem getViews_seeAll_ne (s : State) {c d : Nat} (h : d ≠ c) : getViews (seeAll s c) d = getViews s d := by
  unfold seeAll
  split
  · rfl
  · exact tget_tset_ne [] s.views c d [] h

/-! ### The obligation -/

/-- Settles O48: the event lets the token in (`exec_arrival`), and `arrive_live` gives its three outcomes; a value that lands is written to its
register alone. -/
theorem arrivals : Obligations.Arrivals := by
  refine ⟨?_, fun s k c j v e hw => ?_⟩
  · intro s k c x q y hroute hroom hcfg hq hst hsk hstop
    have harr := arrive_live (s := dropWork s k) (c := c) hcfg hq hst hsk hstop
    have hfalse : ∀ {b : Bool}, b = false → ¬ b = true := fun h => by simp [h]
    refine ⟨fun i w hi hw => ⟨fun hm hb => ?_, fun hm => ?_⟩, fun hw hm hb => ⟨fun h1 h2 => ?_, fun hv => ?_⟩⟩
    · obtain ⟨htok, hheld, hfir, hoth⟩ := placeToken_cells (dropWork s k) c x
      have ht := harr.trans ((if_neg (hfalse hm)).trans (if_neg (hfalse hb)))
      exact ⟨_, ht ▸ exec_arrival hi hw hroute hroom, placeToken_frame _ _ _, htok, hheld, hfir, hoth⟩
    · have ht := harr.trans (if_pos hm)
      obtain ⟨r, hr⟩ := stopMalformed_record (dropWork s k) c x hq hstop
      exact ⟨_, r, ht ▸ exec_arrival hi hw hroute hroom, hr⟩
    · have ht := harr.trans ((if_neg (hfalse hm)).trans ((if_pos hb).trans (takeBound_inRange h1 h2)))
      refine ⟨_, ht ▸ exec_counterBound hw hroute hroom hb, rfl, by simp [y], by simp only [getCell_modCell, if_true, tget_tset_self]; rfl, fun hl => ?_, fun d hd => by simp [hd]⟩
      by_cases hin : (x.ctx, x.frame, 1) ∈ (getCell s c).lasts <;> simp [hl, hin]
    · have ht := harr.trans ((if_neg (hfalse hm)).trans (if_pos hb))
      obtain ⟨r, hr⟩ := takeBound_outOfRange (s := dropWork s k) (c := c) hq hstop hv
      exact ⟨_, r, ht ▸ exec_counterBound hw hroute hroom hb, hr⟩
  · refine ⟨_, exec_fillLand hw, ?_, ⟨getViews_seeAll _ _, fun d hd => getViews_seeAll_ne _ hd⟩, fun d hd => ?_, ?_, fun n => ?_⟩
    · rw [seeAll_frame]
      rfl
    · simp [hd]
    · simp
    · simp only [getCell_modCell, getCell_seeAll, getCell_dropWork, if_true, tmod, tget_tset]

end Sys2Proof.Machine
end

section
/-! Held registers (R116 to R121, R140 to R146): what a register's view is under the output buffer, the replay of a recipe, and the
instructions of the group HELD. -/

namespace Sys2Proof.Machine
open Sys2Proof.Claims

variable {s : State} {c k : Nat} {f g : Firing}

/-! ### The view of a register under the output buffer (R103, R141) -/

/-- The state that the firing's own latest entry leaves, where it has one. -/
def OwnFits (v : HeldReg × Own) : Prop := match v.2 with
  | .none => True
  | .write => v.1.st = .full
  | .fill | .cmd => v.1.st = .empty
  | .drop => v.1.st = .dropped

theorem ownFits_viewEntry {v : HeldReg × Own} (e : Entry) (h : OwnFits v) : OwnFits (viewEntry k v e) := by
  cases e with
  | held j x => rw [viewEntry]; split; exacts [rfl, h]
  | fill j x e => rw [viewEntry]; split; exacts [rfl, h]
  | hrec j t => rw [viewEntry]; split; exacts [h, h]
  | hdrop j eff => rw [viewEntry]; split; exacts [rfl, h]
  | cmd m j => cases j with
    | none => exact h
    | some j => rw [viewEntry]; split; exacts [rfl, h]
  | access => exact h
  | emit => exact h
  | done => exact h
  | close => exact h

theorem ownFits_foldl (l : List Entry) {v : HeldReg × Own} (h : OwnFits v) : OwnFits (l.foldl (viewEntry k) v) := by
  induction l generalizing v with
  | nil => exact h
  | cons e l ih => exact ih (ownFits_viewEntry e h)

/-- A register that is DROPPED in the view was dropped by the firing itself, or the firing has written nothing to it. -/
theorem own_of_dropped {x : Cell} {h : HeldReg} {own : Own} (hv : heldView x f k = (h, own)) (hst : h.st = .dropped) :
    own = .drop ∨ own = .none := by
  have hfit : OwnFits (h, own) := hv ▸ ownFits_foldl f.out (v := (tget {} x.held k, .none)) trivial
  cases own <;> simp_all [OwnFits]

/-- Entries that leave no state of their own set at most the tag, whatever the register was. -/
theorem viewEntry_none {v w : HeldReg × Own} {e : Entry} (h : viewEntry k v e = w) (hw : w.2 = .none) :
    v.2 = .none ∧ ∃ T : Option Nat → Option Nat, ∀ r, viewEntry k (r, .none) e = ({ r with tag := T r.tag }, .none) := by
  subst h
  have same : viewEntry k v e = v → (∀ r, viewEntry k (r, .none) e = (r, .none)) →
      v.2 = .none ∧ ∃ T : Option Nat → Option Nat, ∀ r, viewEntry k (r, .none) e = ({ r with tag := T r.tag }, .none) :=
    fun h1 h2 => ⟨by rwa [h1] at hw, id, h2⟩
  cases e with
  | held j x => by_cases hj : j = k <;> simp_all [viewEntry]
  | fill j x e => by_cases hj : j = k <;> simp_all [viewEntry]
  | hrec j t =>
    by_cases hj : j = k
    · exact ⟨by simpa [viewEntry, hj] using hw, fun _ => t, fun r => by simp [viewEntry, hj]⟩
    · simp_all [viewEntry]
  | hdrop j eff => by_cases hj : j = k <;> cases eff <;> simp_all [viewEntry]
  | cmd m j => cases j with
    | none => exact same rfl fun _ => rfl
    | some j => by_cases hj : j = k <;> simp_all [viewEntry]
  | access => exact same rfl fun _ => rfl
  | emit => exact same rfl fun _ => rfl
  | done => exact same rfl fun _ => rfl
  | close => exact same rfl fun _ => rfl

theorem foldl_viewEntry_none (l : List Entry) {v : HeldReg × Own} (hw : (l.foldl (viewEntry k) v).2 = .none) :
    v.2 = .none ∧ ∃ T : Option Nat → Option Nat, ∀ r, l.foldl (viewEntry k) (r, .none) = ({ r with tag := T r.tag }, .none) := by
  induction l generalizing v with
  | nil => exact ⟨hw, id, fun _ => rfl⟩
  | cons e l ih =>
    obtain ⟨h1, T, hT⟩ := ih hw
    obtain ⟨h2, U, hU⟩ := viewEntry_none rfl h1
    exact ⟨h2, fun t => T (U t), fun r => by rw [List.foldl_cons, hU, hT]⟩

/-- Whose entry was the last one does not depend on what the register was. -/
theorem foldl_viewEntry_own (l : List Entry) {v w : HeldReg × Own} (h : v.2 = w.2) :
    (l.foldl (viewEntry k) v).2 = (l.foldl (viewEntry k) w).2 := by
  induction l generalizing v w with
  | nil => exact h
  | cons e l ih =>
    refine ih ?_
    cases e with
    | held j x => by_cases hj : j = k <;> simp [viewEntry, hj, h]
    | fill j x e => by_cases hj : j = k <;> simp [viewEntry, hj, h]
    | hrec j t => by_cases hj : j = k <;> simp [viewEntry, hj, h]
    | hdrop j eff => by_cases hj : j = k <;> cases eff <;> simp [viewEntry, hj, h]
    | cmd m j => cases j with
      | none => exact h
      | some j => by_cases hj : j = k <;> simp [viewEntry, hj, h]
    | access => exact h
    | emit => exact h
    | done => exact h
    | close => exact h

/-! ### Reads (R117, R118, R121) -/

theorem readHeld_full {h : HeldReg} {own : Own} (hv : heldView (getCell s c) f k = (h, own)) (hst : h.st = .full) (he : h.err = false) :
    readHeld s c f k = .ok h.value.toNat := by
  obtain ⟨v, st, tag, err, past⟩ := h
  subst hst he
  simp [readHeld, hv]

theorem readHeld_empty {h : HeldReg} (hv : heldView (getCell s c) f k = (h, .none)) (hst : h.st = .empty) (he : h.err = false) :
    readHeld s c f k = if trapPolicy (getCell s c) f.ctx k then .error (.trap (cause cFULLEMPTY)) else .error .stall := by
  obtain ⟨v, st, tag, err, past⟩ := h
  subst hst he
  simp [readHeld, hv]
  rfl

/-- A DROPPED register reads the value to which the instruction has replayed it. -/
theorem readHeld_memo {h : HeldReg} {own : Own} {v : Reg} (hv : heldView (getCell s c) f k = (h, own)) (hst : h.st = .dropped)
    (hm : f.memo k = some v) : readHeld s c f k = .ok v.toNat := by
  obtain ⟨w, st, tag, err, past⟩ := h
  subst hst
  simp [readHeld, hv, hm]

/-- Else it is replayed first. -/
theorem readHeld_replays {h : HeldReg} {own : Own} (hv : heldView (getCell s c) f k = (h, own)) (hst : h.st = .dropped)
    (hm : f.memo k = none) :
    readHeld s c f k = replayWith s c f (readInRecipe s c f 1) k h.tag >>= fun v => .error (.redo (replayed s c f k own v)) := by
  obtain ⟨w, st, tag, err, past⟩ := h
  subst hst
  simp [readHeld, hv, hm]

theorem readInRecipe_full {h : HeldReg} {own : Own} (hv : heldView (getCell s c) f k = (h, own)) (hst : h.st = .full) (he : h.err = false)
    (n : Nat) : readInRecipe s c f n k = .ok h.value.toNat := by
  obtain ⟨v, st, tag, err, past⟩ := h
  subst hst he
  cases n <;> simp [readInRecipe, hv]

/-- Inside a recipe an EMPTY register fails with FULLEMPTY. -/
theorem readInRecipe_empty {h : HeldReg} {own : Own} (hv : heldView (getCell s c) f k = (h, own)) (hst : h.st = .empty) (n : Nat) :
    readInRecipe s c f n k = .error (.trap (cause cFULLEMPTY)) := by
  obtain ⟨v, st, tag, err, past⟩ := h
  subst hst
  cases n <;> simp [readInRecipe, hv] <;> rfl

/-- At depth 2 a DROPPED register fails with RECIPE. -/
theorem readInRecipe_tooDeep {h : HeldReg} {own : Own} (hv : heldView (getCell s c) f k = (h, own)) (hst : h.st = .dropped)
    (hm : f.memo k = none) : readInRecipe s c f 0 k = .error (.trap (cause cRECIPE)) := by
  obtain ⟨v, st, tag, err, past⟩ := h
  subst hst
  simp [readInRecipe, hv, hm]
  rfl

/-! ### Replays (R120, R121) -/

/-- The fault of a failing replay is RECIPE. -/
theorem replayWith_fails {rd : Nat → R Nat} {tag : Option Nat} {e : Trap} (h : replayWith s c f rd k tag = .error (.trap e)) :
    e.cause = cRECIPE := by
  unfold replayWith at h
  dsimp only at h
  split at h
  · split at h
    · cases h; simp_all
    · cases h; rfl
  · simp_all

/-- A list of reads that all answer. -/
theorem mapM_ok {α β ε : Type} {l : List α} {h : α → Except ε β} {v : α → β} (hl : ∀ p ∈ l, h p = .ok (v p)) : l.mapM h = .ok (l.map v) := by
  induction l with
  | nil => rfl
  | cons p l ih =>
    rw [List.mapM_cons, hl p (by simp), ih fun q hq => hl q (by simp [hq])]
    rfl

/-- What an operand of a recipe's instruction reads: the register that the recipe rebuilds has its value so far. -/
def recipeGet (rd : Nat → R Nat) (k v : Nat) (p : Spec) : R Nat := match heldIdx p with
  | some j => if j = k then .ok v else rd j
  | none => .ok 0

/-- The operands of an arithmetic instruction, one specifier each. -/
def recipeOperands (q : AluSem) : List Spec := q.srcs.flatMap fun p => (List.range p.2).map fun j => BitVec.ofNat 6 (p.1.toNat + j)

theorem recipeSrcs_eq (q : AluSem) : recipeSrcs q = (recipeOperands q).map BitVec.toNat := by
  simp [recipeSrcs, recipeOperands, List.map_flatMap, Function.comp_def]

/-- An arithmetic word of a recipe gives the rebuilt register its result (R120). -/
theorem replayWords_alu {rd : Nat → R Nat} {i : Instr} {q : AluSem} {is : List Instr} {v : Nat} {l : List Range} {vs : List Nat} {o : AluOut}
    (hq : aluOf i = some q) (hu : specsUsable (getCell s c) f.ctx (regsOf i) = true)
    (hvs : (recipeOperands q).mapM (recipeGet rd k v) = .ok vs) (ho : q.eval 512 (rndCtx s c f) vs = .ok o) :
    replayWords s c f rd k (i :: is) v l = replayWords s c f rd k is (o.vals.getD 0 0 % 2 ^ 512) l := by
  rw [replayWords]
  simp only [hu, Bool.not_true, Bool.false_eq_true, if_false]
  split
  · cases hq
  · simp only [hq]
    change (((recipeOperands q).mapM (recipeGet rd k v) >>= fun vs => _) >>= fun v' => _) = _
    rw [hvs]
    simp only [bind, Except.bind, ho, List.append_nil]

/-- The operands of a recipe's word are those of its replay, where every other register it reads is FULL. -/
theorem mapM_recipeGet {q : AluSem} {v : Nat} (n : Nat)
    (hfull : ∀ n, n ∈ recipeSrcs q → 8 ≤ n → n < 40 → n ≠ k + 8 →
      (heldView (getCell s c) f (n - 8)).1.st = .full ∧ (heldView (getCell s c) f (n - 8)).1.err = false) :
    (recipeOperands q).mapM (recipeGet (readInRecipe s c f n) k v) = .ok (recipeArgs (getCell s c) f k v q) := by
  rw [recipeArgs, recipeSrcs_eq, List.map_map]
  refine mapM_ok fun p hp => ?_
  have hmem : p.toNat ∈ recipeSrcs q := by rw [recipeSrcs_eq]; exact List.mem_map_of_mem hp
  simp only [Function.comp, recipeGet, heldIdx]
  by_cases hr : 8 ≤ p.toNat ∧ p.toNat ≤ 39
  · have hout : ¬ (p.toNat < 8 ∨ 40 ≤ p.toNat) := by omega
    simp only [if_pos hr, if_neg hout]
    by_cases hk : p.toNat = k + 8
    · rw [if_pos (by omega), if_pos hk]
    · obtain ⟨hst, he⟩ := hfull _ hmem (by omega) (by omega) hk
      rw [if_neg (by omega), if_neg hk, readInRecipe_full Prod.mk.eta.symm hst he]
  · have hout : p.toNat < 8 ∨ 40 ≤ p.toNat := by omega
    simp only [if_neg hr, if_pos hout]

/-- Words that rebuild the register are replayed to its value, without a load (R120). -/
theorem replayWords_rebuilds {is : List Instr} {v r : Nat} (n : Nat) (h : Rebuilds s c f k is v r) :
    replayWords s c f (readInRecipe s c f n) k is v [] = .ok (r, []) := by
  induction is generalizing v with
  | nil => cases h; rfl
  | cons i is ih =>
    obtain ⟨q, o, hq, hu, hfull, ho, hrest⟩ := h
    rw [replayWords_alu hq hu (mapM_recipeGet n hfull) ho]
    exact ih hrest

theorem replayWith_rebuilds {tag : Option Nat} {n w m r l : Nat} {is : List Instr} (ht : tag = some n)
    (hr : recipeOf (getCell s c) n = some (w, m)) (hi : recipeInstrs (getCell s c) m w = .ok is) (h : Rebuilds s c f k is 0 r) :
    replayWith s c f (readInRecipe s c f l) k tag = .ok (r, []) := by
  subst ht
  simp [replayWith, hr, hi, replayWords_rebuilds l h]

/-- What a replay without loads leaves: the register FULL in the cell, and the value kept for the instruction where the firing itself has
dropped the register. -/
theorem replayed_noLoads (own : Own) (r : Nat) (hf : (getCell s c).firing = some f) :
    ∃ g, g = { f with replayed := g.replayed } ∧ (own = .drop → g.memo k = some (BitVec.ofNat 512 r)) ∧ (own ≠ .drop → g = f) ∧
      replayed s c f k own (r, []) = setCell s c { getCell s c with
        held := tmod {} (getCell s c).held k fun h => { h with value := BitVec.ofNat 512 r, st := .full, err := false }, firing := some g } := by
  by_cases ho : own = .drop
  · refine ⟨{ f with replayed := (f.word, k, BitVec.ofNat 512 r) :: f.replayed }, rfl, fun _ => by simp [Firing.memo], fun h => absurd ho h, ?_⟩
    simp [replayed, rebuilt, ho, modCell, setCell_setCell]
  · refine ⟨f, rfl, fun h => absurd h ho, fun _ => rfl, ?_⟩
    simp only [replayed, rebuilt, if_neg ho, if_true, modCell, ← hf]

/-- After its replay a register reads the value to which it was rebuilt. -/
theorem readHeld_replayed {t : State} {h : HeldReg} {own : Own} {v : Reg} (hv : heldView (getCell s c) f k = (h, own)) (hst : h.st = .dropped)
    (hout : g.out = f.out) (hmemo : own = .drop → g.memo k = some v)
    (hreg : tget {} (getCell t c).held k = { tget {} (getCell s c).held k with value := v, st := .full, err := false }) :
    readHeld t c g k = .ok v.toNat := by
  rcases own_of_dropped hv hst with rfl | rfl
  · have hown : (heldView (getCell t c) g k).2 = .drop := by
      rw [show Own.drop = (heldView (getCell s c) f k).2 by rw [hv], heldView, heldView, hout]
      exact foldl_viewEntry_own _ rfl
    have hfit : OwnFits (heldView (getCell t c) g k) := ownFits_foldl g.out trivial
    have hst' : (heldView (getCell t c) g k).1.st = .dropped := by simpa only [OwnFits, hown] using hfit
    exact readHeld_memo Prod.mk.eta.symm hst' (hmemo rfl)
  · obtain ⟨-, T, hT⟩ := foldl_viewEntry_none (k := k) f.out (v := (tget {} (getCell s c).held k, .none)) (by rw [← heldView, hv])
    have hv' : heldView (getCell t c) g k = ({ tget {} (getCell t c).held k with tag := T (tget {} (getCell t c).held k).tag }, .none) := by
      rw [heldView, hout, hT]
    rw [readHeld_full hv' (by rw [hreg]) (by rw [hreg]), hreg]

/-! ### The instructions -/

theorem heldIdx_of {d : Spec} (hd : d.toNat = k + 8) (hk : k < 32) : heldIdx d = some k := by
  rw [heldIdx, if_pos (by omega)]
  congr
  omega

theorem namedHeld_of {d : Spec} (hd : d.toNat = k + 8) (hk : k < 32) : namedHeld d = .ok k := by
  rw [namedHeld, heldIdx_of hd hk]

/-- HREC (R142). -/
theorem exec_hrec {d b : Spec} (h : CellRuns s c f (.hrec d b)) (hd : namedHeld d = .ok k) (hl : f.out.length < 16)
    (hfit : recipeFits (getCell s c) b.toNat k = true) :
    ∃ t, exec (.hrec d b) s = .next t ∧ FiringOn s t c (.hrec d b) (adds f (.hrec k (some b.toNat))) := by
  change ∃ t, execHrec d b s = .next t ∧ _
  refine onCells_put h ?_
  rw [withRegs_runs h]
  simp only [hd, hfit, addEntry_room _ hl, bind, Except.bind]
  rfl

theorem exec_hrecClr {d : Spec} (h : CellRuns s c f (.hrecClr d)) (hd : namedHeld d = .ok k) (hl : f.out.length < 16)
    (hst : (heldView (getCell s c) f k).1.st ≠ .dropped) :
    ∃ t, exec (.hrecClr d) s = .next t ∧ FiringOn s t c (.hrecClr d) (adds f (.hrec k none)) := by
  change ∃ t, execHrecClr d s = .next t ∧ _
  refine onCells_put h ?_
  rw [withRegs_runs h]
  simp only [hd, if_neg hst, addEntry_room _ hl, bind, Except.bind]
  rfl

/-- HDROP (R143). -/
theorem exec_hdrop {d : Spec} (h : CellRuns s c f (.hdrop d)) (hd : namedHeld d = .ok k) (hl : f.out.length < 16)
    (ht : (heldView (getCell s c) f k).1.tag.isSome = true) (ho : ownProducer f k = false)
    (he : (heldView (getCell s c) f k).1.st = .empty → (heldView (getCell s c) f k).1.err = true) :
    ∃ t, exec (.hdrop d) s = .next t ∧
      FiringOn s t c (.hdrop d) (adds f (.hdrop k ((heldView (getCell s c) f k).1.st != .dropped))) := by
  change ∃ t, execHdrop d s = .next t ∧ _
  refine onCells_put h ?_
  have ht' : (heldView (getCell s c) f k).1.tag ≠ none := Option.isSome_iff_ne_none.mp ht
  have he' : ¬ ((heldView (getCell s c) f k).1.st = .empty ∧ (!(heldView (getCell s c) f k).1.err) = true) := by
    rintro ⟨h1, h2⟩
    simp [he h1] at h2
  rw [withRegs_runs h]
  simp only [hd, if_neg ht', ho, if_neg he', addEntry_room _ hl, bind, Except.bind]
  rfl

/-- What HFILL does, by the view of its register (R144). -/
def hfillBody (s : State) (c : Nat) (f : Firing) (k : Nat) (v : HeldReg × Own) : R State := match v.1.st with
  | .full => if v.1.err then trapR cECCUNC else .ok s
  | .dropped => readHeld s c f k >>= fun _ => .ok s
  | .empty => if v.2 ≠ .none then illop else if v.1.err then trapR cECCUNC else .error .stall

theorem exec_hfill {d : Spec} (h : CellRuns s c f (.hfill d)) (hd : namedHeld d = .ok k) :
    exec (.hfill d) s = cellOutcome s c f (.hfill d) (hfillBody s c f k (heldView (getCell s c) f k)) := by
  change execHfill d s = _
  unfold execHfill
  rw [onCells_runs h, withRegs_runs h]
  simp only [hd, bind, Except.bind]
  congr 1
  obtain ⟨⟨v, st, tag, err, past⟩, own⟩ := heldView (getCell s c) f k
  cases st <;> rfl

/-- HFILL of a DROPPED register ends as the register's read does (R144). -/
theorem exec_hfill_dropped {d : Spec} (h : CellRuns s c f (.hfill d)) (hd : namedHeld d = .ok k)
    (hst : (heldView (getCell s c) f k).1.st = .dropped) {e : Stop} (hr : readHeld s c f k = .error e) :
    exec (.hfill d) s = cellOutcome s c f (.hfill d) (.error e) := by
  rw [exec_hfill h hd]
  simp only [hfillBody, hst, hr]
  rfl

/-- A number below 1024 by the fields of HSTAT (R145). -/
theorem eq_of_hstatFields {v : Nat} (hv : v < 1024) :
    v = bits v 0 2 + (if bit v 2 then 4 else 0) + (if bit v 3 then 8 else 0) + bits v 4 4 * 16 + (if bit v 8 then 256 else 0) +
      (if bit v 9 then 512 else 0) := by
  simp only [bits, bit, Nat.testBit_eq_decide_div_mod_eq, Nat.shiftRight_eq_div_pow, decide_eq_true_eq]
  split <;> split <;> split <;> split <;> omega

/-- The word that HSTAT delivers of a register's view, with the context's policy (R145). -/
def hstatWord (h : HeldReg) (policy : Bool) : Nat :=
  (match h.st with | .full => 0 | .empty => 1 | .dropped => 2) + (if h.err then 8 else 0) +
    (match h.tag with | some t => t % 16 * 16 + 256 | none => 0) + (if policy then 512 else 0)

theorem eq_hstatWord {h : HeldReg} {policy : Bool} {v : Nat}
    (hst : bits v 0 2 = (match h.st with | .full => 0 | .empty => 1 | .dropped => 2)) (h2 : bit v 2 = false) (herr : bit v 3 = h.err)
    (htag : bits v 4 4 = h.tag.getD 0 % 16) (hhas : bit v 8 = h.tag.isSome) (hpol : bit v 9 = policy) (hv : v < 1024) :
    v = hstatWord h policy := by
  rw [eq_of_hstatFields hv, hst, h2, herr, htag, hhas, hpol, hstatWord]
  cases h.tag with
  | none => simp
  | some t => simp; omega

/-- HSTAT (R145). -/
theorem exec_hstat {d a : Spec} (h : CellRuns s c f (.hstat d a)) (ha : namedHeld a = .ok k)
    (hw : writeSpec s c f d (hstatWord (heldView (getCell s c) f k).1 (trapPolicy (getCell s c) f.ctx k)) = .ok g) :
    ∃ t, exec (.hstat d a) s = .next t ∧ FiringOn s t c (.hstat d a) g := by
  change ∃ t, execHstat d a s = .next t ∧ _
  refine onCells_put h ?_
  rw [withRegs_runs h]
  simp only [ha, bind, Except.bind]
  change (writeSpec s c f d (hstatWord _ _) >>= fun g => .ok (putFiring s c g)) = _
  rw [hw]
  rfl

/-- HCAP (R146). -/
theorem exec_hcap {d : Spec} (h : CellRuns s c f (.hcap d)) (hw : writeSpec s c f d (getCell s c).hcap = .ok g) :
    ∃ t, exec (.hcap d) s = .next t ∧ FiringOn s t c (.hcap d) g := by
  change ∃ t, execHcap d s = .next t ∧ _
  refine onCells_put h ?_
  rw [withRegs_runs h]
  simp only [hw, bind, Except.bind]

/-! ### The obligation -/

/-- A replay that succeeds leaves the register FULL in the cell with the result, and the instruction, tried again, reads it (R120). -/
theorem replay_succeeds {h : HeldReg} {own : Own} {n w m r : Nat} {is : List Instr} (hk : k < 32)
    (hv : heldView (getCell s c) f k = (h, own)) (hf : (getCell s c).firing = some f) (hst : h.st = .dropped) (hm : f.memo k = none)
    (ht : h.tag = some n) (hr : recipeOf (getCell s c) n = some (w, m)) (hi : recipeInstrs (getCell s c) m w = .ok is)
    (hb : Rebuilds s c f k is 0 r) :
    ∃ t g, readHeld s c f k = .error (.redo t) ∧ (∀ d, d.toNat = k + 8 → CellRuns s c f (.hfill d) → exec (.hfill d) s = .next t) ∧
      t = { s with cells := t.cells } ∧ (∀ e, e ≠ c → getCell t e = getCell s e) ∧ SameMem s t ∧ g = { f with replayed := g.replayed } ∧
      getCell t c = { getCell s c with held := (getCell t c).held, firing := some g } ∧
      tget {} (getCell t c).held k = { tget {} (getCell s c).held k with value := BitVec.ofNat 512 r, st := .full, err := false } ∧
      (∀ j, j ≠ k → tget {} (getCell t c).held j = tget {} (getCell s c).held j) ∧ readHeld t c g k = .ok (BitVec.ofNat 512 r).toNat := by
  obtain ⟨g, hg, hmemo, -, hrep⟩ := replayed_noLoads (k := k) own r hf
  have hread : readHeld s c f k = .error (.redo (replayed s c f k own (r, []))) := by
    rw [readHeld_replays hv hst hm, replayWith_rebuilds ht hr hi hb]
    rfl
  have hst' : (heldView (getCell s c) f k).1.st = .dropped := by rw [hv, hst]
  refine ⟨_, g, hread, fun d hd hc => ?_, ?_⟩
  · rw [exec_hfill_dropped hc (namedHeld_of hd hk) hst' hread]
    rfl
  · rw [hrep]
    refine ⟨rfl, fun e he => by simp [he], fun _ => rfl, hg, by simp, by simp, fun j hj => by simp [hj], ?_⟩
    exact readHeld_replayed hv hst (by rw [hg]) hmemo (by simp)

/-- Settles O33: the instructions one by one, the replay by `replay_succeeds` and `replayWith_fails`, and the reads by the register's view. -/
theorem heldRegisters : Obligations.HeldRegisters := by
  refine ⟨?_, fun s c f k h own hk hv hf => ⟨fun hst hm => ⟨fun n w m is r ht hr hi hb => ?_, fun e he => ?_, ?_⟩, fun hst n => ?_,
    fun hst hown he => ?_⟩, fun s c f g d a => ⟨?_, exec_hcap⟩⟩
  · intro s c f d b k hd hk hl h
    have hn := namedHeld_of hd hk
    refine ⟨fun hc => exec_hrec hc hn hl, fun hc => exec_hrecClr hc hn hl, fun hc => exec_hdrop hc hn hl, fun hc => ?_⟩
    rw [exec_hfill hc hn]
    refine ⟨fun hst he => ⟨_, ?_, firingOn_same hc.2.1 _⟩, fun hst ho he => ?_, fun hst ho => ?_, fun he hst ho => ?_⟩
    · simp only [hfillBody, show (heldView (getCell s c) f k).1.st = .full from hst, show (heldView (getCell s c) f k).1.err = false from he]
      rfl
    · simp only [hfillBody, show (heldView (getCell s c) f k).1.st = .empty from hst, ho, show (heldView (getCell s c) f k).1.err = false from he]
      rfl
    · simp only [hfillBody, show (heldView (getCell s c) f k).1.st = .empty from hst, if_pos ho]
      rfl
    · cases hs : (heldView (getCell s c) f k).1.st with
      | dropped => exact absurd hs hst
      | full => simp only [hfillBody, hs, show (heldView (getCell s c) f k).1.err = true from he]; rfl
      | empty => simp only [hfillBody, hs, ho, show (heldView (getCell s c) f k).1.err = true from he]; rfl
  · exact replay_succeeds hk hv hf hst hm ht hr hi hb
  · have hread : readHeld s c f k = .error (.trap e) := by rw [readHeld_replays hv hst hm, he]; rfl
    refine ⟨replayWith_fails he, hread, fun d hd hc => ?_⟩
    rw [exec_hfill_dropped hc (namedHeld_of hd hk) (by rw [hv, hst]) hread]
    rfl
  · exact readInRecipe_tooDeep hv hst hm
  · exact readInRecipe_empty hv hst n
  · subst hown
    exact readHeld_empty hv hst he
  · intro k ha hk hc h v hst h2 herr htag hhas hpol hv hw
    exact exec_hstat hc (namedHeld_of ha hk) (eq_hstatWord hst h2 herr htag hhas hpol hv ▸ hw)

end Sys2Proof.Machine
end

section
/-! Loads (R103, R199, R231 to R242): where their elements lie, what they read under the firing's own stores, and how the instruction goes
on. -/

namespace Sys2Proof.Machine
open Sys2Proof.Claims

variable {s : State} {c : Nat} {f g : Firing}

/-! ### Lanes -/

/-- A lane of lanes laid down one after the other (R309). -/
theorem lane_ofLanes (w : Nat) (vs : List Nat) (k : Nat) : lane w (ofLanes w vs) k = vs.getD k 0 % 2 ^ w := by
  induction vs generalizing k with
  | nil => simp [ofLanes, lane]
  | cons v vs ih =>
    have hv : v % 2 ^ w < 2 ^ w := Nat.mod_lt _ (Nat.two_pow_pos w)
    cases k with
    | zero => simp [lane, ofLanes, Nat.add_mul_mod_self_left]
    | succ k =>
      have hs : (v % 2 ^ w + 2 ^ w * ofLanes w vs) >>> (w * (k + 1)) = ofLanes w vs >>> (w * k) := by
        rw [Nat.mul_succ, Nat.add_comm (w * k), Nat.shiftRight_add, Nat.shiftRight_eq_div_pow _ w, Nat.add_mul_div_left _ _ (Nat.two_pow_pos w),
          Nat.div_eq_of_lt hv, Nat.zero_add]
      rw [lane, ofLanes, hs, List.getD_cons_succ]
      exact ih k

/-- A value repeated across lanes is in each of them. -/
theorem lane_splat (w n v j : Nat) (hj : j < n) : lane w (splat w n v) j = v % 2 ^ w := by
  rw [splat, buildLanes, lane_ofLanes]
  simp [List.getD_eq_getElem?_getD, hj]

/-! ### A read under the firing's own stores (R103, R217) -/

/-- Taking `m` bits out at `a` and putting others there is the splice of the numbers. -/
theorem replaceBits_eq_splice (v w a m : Nat) :
    v - bits v a m * 2 ^ a + w % 2 ^ m * 2 ^ a = v % 2 ^ a + (w % 2 ^ m) <<< a + (v >>> (a + m)) <<< (a + m) := by
  have h1 : v = v % 2 ^ a + 2 ^ a * (v >>> a % 2 ^ m) + 2 ^ (a + m) * (v >>> (a + m)) := by
    rw [Nat.pow_add, Nat.shiftRight_add, Nat.shiftRight_eq_div_pow _ m, Nat.mul_assoc, Nat.add_assoc, ← Nat.mul_add, Nat.mod_add_div,
      Nat.shiftRight_eq_div_pow, Nat.mod_add_div]
  have h2 : bits v a m * 2 ^ a = 2 ^ a * (v >>> a % 2 ^ m) := Nat.mul_comm _ _
  have h3 : (v >>> (a + m)) <<< (a + m) = 2 ^ (a + m) * (v >>> (a + m)) := by rw [Nat.shiftLeft_eq, Nat.mul_comm]
  rw [h2, h3, Nat.shiftLeft_eq]
  omega

/-- A bit under one store's piece: the piece's where it covers the bit, else as before. -/
theorem testBit_overlay (v b len : Nat) (p : Piece) (n : Nat) :
    (overlay v b len p).testBit n =
      if n < len ∧ p.bit ≤ b + n ∧ b + n < p.bit + p.len then p.val.testBit (b + n - p.bit) else v.testBit n := by
  unfold overlay
  dsimp only
  by_cases h : max b p.bit < min (b + len) (p.bit + p.len)
  · have hb : ∀ x lo m, bits x lo m = bits x lo m % 2 ^ m := fun x lo m => by simp [bits]
    rw [if_pos h, hb p.val, replaceBits_eq_splice, testBit_splice]
    by_cases hn : n < len ∧ p.bit ≤ b + n ∧ b + n < p.bit + p.len
    · rw [if_pos hn, if_pos (by omega), bits, Nat.testBit_mod_two_pow, Nat.testBit_shiftRight, decide_eq_true (by omega), Bool.true_and]
      congr 1
      omega
    · rw [if_neg hn, if_neg (by omega)]
  · rw [if_neg h, if_neg (by omega)]

theorem overlay_lt {v b len : Nat} (p : Piece) (hv : v < 2 ^ len) : overlay v b len p < 2 ^ len := by
  refine Nat.lt_pow_two_of_testBit _ fun n hn => ?_
  rw [testBit_overlay, if_neg (by omega)]
  exact Nat.testBit_lt_two_pow (Nat.lt_of_lt_of_le hv (Nat.pow_le_pow_right (by decide) hn))

/-- The piece of a store covers a bit. -/
def Piece.covers (p : Piece) (a : Nat) : Bool := p.bit ≤ a && a < p.bit + p.len

theorem pieceValue_lt (own : List Piece) {p : Piece} (hp : p.val < 2 ^ p.len) : pieceValue own p < 2 ^ p.len := by
  unfold pieceValue
  generalize p.val = v at hp
  induction own generalizing v with
  | nil => exact hp
  | cons q own ih => exact ih _ (overlay_lt q hp)

/-- A bit read is that of the latest store that covers it, else that of the piece. -/
theorem testBit_pieceValue (own : List Piece) (p : Piece) {n : Nat} (hn : n < p.len) :
    (pieceValue own p).testBit n = match own.reverse.find? fun q => q.covers (p.bit + n) with
      | some q => q.val.testBit (p.bit + n - q.bit)
      | none => p.val.testBit n := by
  unfold pieceValue
  generalize p.val = v
  induction own using List.reverseRecOn generalizing v with
  | nil => rfl
  | append_singleton own q ih =>
    rw [List.foldl_append, List.foldl_cons, List.foldl_nil, testBit_overlay, List.reverse_append, List.reverse_singleton, List.singleton_append,
      List.find?_cons]
    by_cases hq : q.bit ≤ p.bit + n ∧ p.bit + n < q.bit + q.len
    · rw [if_pos ⟨hn, hq⟩, show q.covers (p.bit + n) = true by simp [Piece.covers, hq]]
    · rw [if_neg fun h => hq h.2, show q.covers (p.bit + n) = false by simpa [Piece.covers] using hq]
      exact ih v

/-- What the firing reads at a piece: memory under its own stores so far. -/
def pieceRead (s : State) (f : Firing) (p : Piece) : Nat := pieceValue (storePieces f) { p with val := readBits s p.bit p.len }

theorem pieceRead_lt (s : State) (f : Firing) (p : Piece) : pieceRead s f p < 2 ^ p.len :=
  pieceValue_lt (p := { p with val := readBits s p.bit p.len }) _ (Nat.mod_lt _ (Nat.two_pow_pos _))

theorem bit_pieceRead (s : State) (f : Firing) (p : Piece) {n : Nat} (hn : n < p.len) :
    bit (pieceRead s f p) n = match (storePieces f).reverse.find? fun q => q.bit ≤ p.bit + n && p.bit + n < q.bit + q.len with
      | some q => bit q.val (p.bit + n - q.bit)
      | none => bit (memByte s ((p.bit + n) / 8)).toNat ((p.bit + n) % 8) := by
  have h := testBit_pieceValue (storePieces f) { p with val := readBits s p.bit p.len } hn
  rw [bit, pieceRead, h]
  have hm : (readBits s p.bit p.len).testBit n = bit (memByte s ((p.bit + n) / 8)).toNat ((p.bit + n) % 8) := by
    rw [testBit_readBits, decide_eq_true hn, Bool.true_and, memBit]
  simp only [hm, Piece.covers]
  rfl

/-- The value of an element from its pieces. -/
def elemRead (s : State) (f : Firing) (ps : List Piece) : Nat := ps.foldl (fun v p => v + pieceRead s f p * 2 ^ p.val2) 0

/-- An element of one piece. -/
theorem reads_one (s : State) (f : Firing) {p : Piece} (hp : p.val2 = 0) : Reads s f [(p.bit, p.len, 0)] (elemRead s f [p]) := by
  have hx : elemRead s f [p] = pieceRead s f p := by simp [elemRead, hp]
  rw [hx]
  refine ⟨by simpa using pieceRead_lt s f p, fun e he n hn => ?_⟩
  obtain rfl := List.mem_singleton.mp he
  rw [Nat.zero_add]
  exact bit_pieceRead s f p hn

/-- An element that a page's end cuts. -/
theorem reads_two (s : State) (f : Firing) {p q : Piece} (hp : p.val2 = 0) (hq : q.val2 = p.len) :
    Reads s f [(p.bit, p.len, 0), (q.bit, q.len, p.len)] (elemRead s f [p, q]) := by
  have hlt := pieceRead_lt s f p
  have hx : elemRead s f [p, q] = 2 ^ p.len * pieceRead s f q + pieceRead s f p := by
    simp [elemRead, hp, hq, Nat.mul_comm, Nat.add_comm]
  have hbit : ∀ n, (elemRead s f [p, q]).testBit n = if n < p.len then (pieceRead s f p).testBit n else (pieceRead s f q).testBit (n - p.len) :=
    fun n => by rw [hx, Nat.testBit_two_pow_mul_add _ hlt]
  refine ⟨?_, fun e he n hn => ?_⟩
  · refine Nat.lt_pow_two_of_testBit _ fun n hn => ?_
    have hn' : p.len + q.len ≤ n := by simpa using hn
    rw [hbit, if_neg (by omega)]
    exact Nat.testBit_lt_two_pow (Nat.lt_of_lt_of_le (pieceRead_lt s f q) (Nat.pow_le_pow_right (by decide) (by omega)))
  · rcases List.mem_pair.mp he with rfl | rfl
    · rw [bit, hbit, if_pos (by simpa using hn), Nat.zero_add]
      exact bit_pieceRead s f p hn
    · rw [bit, hbit, if_neg (by simp), Nat.add_sub_cancel_left]
      exact bit_pieceRead s f q hn

/-! ### The pieces of an element (R199) -/

/-- What a list of answers that were all given holds. -/
theorem mapM_ok_getElem? {α β ε : Type} {h : α → Except ε β} {l : List α} {ys : List β} (hl : l.mapM h = .ok ys) (n : Nat) :
    (∀ x, l[n]? = some x → ∃ y, ys[n]? = some y ∧ h x = .ok y) ∧ ys.length = l.length := by
  induction l generalizing ys n with
  | nil => cases hl; exact ⟨fun x hx => by simp at hx, rfl⟩
  | cons a l ih =>
    rw [List.mapM_cons] at hl
    cases ha : h a with
    | error e => rw [ha] at hl; cases hl
    | ok b =>
      cases hr : l.mapM h with
      | error e => rw [ha, hr] at hl; cases hl
      | ok bs =>
        rw [ha, hr] at hl
        cases hl
        cases n with
        | zero => exact ⟨fun x hx => ⟨b, rfl, by simp_all⟩, by simpa using (ih hr 0).2⟩
        | succ n => exact ⟨fun x hx => (ih hr n).1 x hx, by simpa using (ih hr 0).2⟩

/-- Where the page of 64 KiB ends that holds a bit (R199). -/
def pageEnd (b : Nat) : Nat := (b / 524288 + 1) * 524288

theorem pageEnd_mod (b : Nat) : pageEnd b % 8 = 0 := Nat.mod_eq_zero_of_dvd (Dvd.dvd.mul_left (by decide) _)

theorem lt_pageEnd (b : Nat) : b < pageEnd b := by
  unfold pageEnd
  omega

theorem elemParts_whole {b len : Nat} (h : b + len ≤ pageEnd b) : elemParts b len = [(b, len, 0)] := if_pos h

theorem elemParts_cut {b len : Nat} (h : ¬ b + len ≤ pageEnd b) :
    elemParts b len = [(b, pageEnd b - b, 0), (pageEnd b, b + len - pageEnd b, pageEnd b - b)] := if_neg h

theorem elemAt_iff (s : State) (m : Mem) (a : Acs) (b len : Nat) (l : List (Nat × Nat × Nat)) :
    ElemAt s m a b len l ↔
      (b + len ≤ pageEnd b → ∃ q, translate s m.st m.src a (b / 8) (byteSpan b len) = .ok q ∧ l = [(q.1 * 8 + b % 8, len, 0)]) ∧
      (pageEnd b < b + len → ∃ q r, translate s m.st m.src a (b / 8) (byteSpan b (pageEnd b - b)) = .ok q ∧
        translate s m.st m.src a (pageEnd b / 8) (byteSpan (pageEnd b) (b + len - pageEnd b)) = .ok r ∧
        l = [(q.1 * 8 + b % 8, pageEnd b - b, 0), (r.1 * 8, b + len - pageEnd b, pageEnd b - b)]) := Iff.rfl

/-- The pieces of an element stand where its parts are translated to, each with its share of the value. -/
theorem elemPieces_at {a : Acs} {k b len val : Nat} {ps : List Piece} (m : Mem) (h : elemPieces s m.st m.src a k b len val = .ok ps) :
    ElemAt s m a b len (ps.map fun p => (p.bit, p.len, p.val2)) ∧
      (∀ p, p ∈ ps → p.k = k ∧ p.val = val >>> p.val2 % 2 ^ p.len) ∧
      ((∃ p, ps = [p] ∧ p.val2 = 0) ∨ ∃ p q, ps = [p, q] ∧ p.val2 = 0 ∧ q.val2 = p.len) := by
  rw [elemAt_iff]
  have hz := pageEnd_mod b
  have hwhole := elemParts_whole (b := b) (len := len)
  have hcut := elemParts_cut (b := b) (len := len)
  -- the page's end as a variable: a kernel that meets the product would count it out
  generalize pageEnd b = cut at hz hwhole hcut ⊢
  by_cases hc : b + len ≤ cut
  · rw [elemPieces, hwhole hc] at h
    simp only [List.mapM_cons, List.mapM_nil] at h
    generalize translate s m.st m.src a (b / 8) (byteSpan b len) = x at h ⊢
    cases x with
    | error e => cases h
    | ok q =>
      cases h
      exact ⟨⟨fun _ => ⟨q, rfl, rfl⟩, fun hn => absurd hc (Nat.not_le.mpr hn)⟩, by simp, .inl ⟨_, rfl, rfl⟩⟩
  · rw [elemPieces, hcut hc] at h
    simp only [List.mapM_cons, List.mapM_nil] at h
    generalize translate s m.st m.src a (b / 8) (byteSpan b (cut - b)) = x at h ⊢
    generalize translate s m.st m.src a (cut / 8) (byteSpan cut (b + len - cut)) = y at h ⊢
    cases x with
    | error e => cases h
    | ok q => cases y with
      | error e => cases h
      | ok r =>
        cases h
        refine ⟨⟨fun hn => absurd hn hc, fun _ => ⟨q, r, rfl, rfl, ?_⟩⟩, by simp, .inr ⟨_, _, rfl, rfl, rfl⟩⟩
        simp only [List.map_cons, List.map_nil, hz, Nat.add_zero]

/-- Of the pieces of all elements, those of one element: none where it is OUTSIDE. -/
theorem filter_flatten_of_numbered {L : List (List Piece)} (i n : Nat) (h : ∀ j ps, L[j]? = some ps → ∀ p, p ∈ ps → p.k = i + j) :
    L.flatten.filter (fun p => p.k = i + n) = L.getD n [] := by
  induction L generalizing i n with
  | nil => rfl
  | cons ps L ih =>
    have hL : ∀ j qs, L[j]? = some qs → ∀ p, p ∈ qs → p.k = i + 1 + j := fun j qs hj p hp => by
      rw [h (j + 1) qs hj p hp]; omega
    rw [List.flatten_cons, List.filter_append]
    cases n with
    | zero =>
      have h1 : ps.filter (fun p => p.k = i + 0) = ps := List.filter_eq_self.mpr fun p hp => by simpa using h 0 ps rfl p hp
      have h2 : L.flatten.filter (fun p => p.k = i + 0) = [] := List.filter_eq_nil_iff.mpr fun p hp => by
        obtain ⟨qs, hqs, hpq⟩ := List.mem_flatten.mp hp
        obtain ⟨j, hj⟩ := List.getElem?_of_mem hqs
        have := hL j qs hj p hpq
        simp only [decide_eq_true_eq]
        omega
      rw [h1, h2, List.append_nil]
      rfl
    | succ n =>
      have h1 : ps.filter (fun p => p.k = i + (n + 1)) = [] := List.filter_eq_nil_iff.mpr fun p hp => by
        have := h 0 ps rfl p hp
        simp only [decide_eq_true_eq]
        omega
      rw [h1, List.nil_append, show i + (n + 1) = i + 1 + n by omega, ih (i + 1) n hL]
      rfl

/-- The pieces of the element with its number `e.2`. -/
def piecesAt (s : State) (st : Stream) (src : Src) (a : Acs) (len : Nat) (vals : Nat → Nat) (e : Option Nat × Nat) : R (List Piece) :=
  match e.1 with
  | none => .ok []
  | some b => elemPieces s st src a e.2 b len (vals e.2)

theorem allPieces_eq (s : State) (st : Stream) (src : Src) (a : Acs) (len : Nat) (vals : Nat → Nat) (l : List (Option Nat)) :
    allPieces s st src a len vals l = (l.zipIdx.mapM (piecesAt s st src a len vals)).map List.flatten := by
  have h : allPieces s st src a len vals l = l.zipIdx.mapM (piecesAt s st src a len vals) >>= fun ps => .ok ps.flatten := rfl
  rw [h]
  cases l.zipIdx.mapM (piecesAt s st src a len vals) <;> rfl

/-- What the pieces of an access are, element by element. -/
theorem allPieces_elem {m : Mem} {a : Acs} {len : Nat} {vals : Nat → Nat} {l : List (Option Nat)} {ps : List Piece}
    (h : allPieces s m.st m.src a len vals l = .ok ps) (n : Nat) :
    (l[n]? = some none → ps.filter (fun p => p.k = n) = []) ∧
      ∀ b, l[n]? = some (some b) → elemPieces s m.st m.src a n b len (vals n) = .ok (ps.filter fun p => p.k = n) := by
  rw [allPieces_eq] at h
  cases hL : l.zipIdx.mapM (piecesAt s m.st m.src a len vals) with
  | error e => rw [hL] at h; cases h
  | ok L =>
    rw [hL] at h
    cases h
    have hat : ∀ j x, l[j]? = some x → ∃ ps, L[j]? = some ps ∧ piecesAt s m.st m.src a len vals (x, j) = .ok ps := fun j x hx =>
      (mapM_ok_getElem? hL j).1 (x, j) (by simp [List.getElem?_zipIdx, hx])
    have hlen : L.length = l.length := by simpa using (mapM_ok_getElem? hL 0).2
    have hnum : ∀ j ps, L[j]? = some ps → ∀ p, p ∈ ps → p.k = 0 + j := fun j ps hj p hp => by
      obtain ⟨hjL, -⟩ := List.getElem?_eq_some_iff.mp hj
      obtain ⟨qs, hqs, hpc⟩ := hat j l[j] (List.getElem?_eq_getElem (hlen ▸ hjL))
      obtain rfl : ps = qs := Option.some.inj (hj.symm.trans hqs)
      cases hx : l[j] with
      | none => rw [hx] at hpc; cases hpc; cases hp
      | some b => rw [hx] at hpc; rw [((elemPieces_at m hpc).2.1 p hp).1, Nat.zero_add]
    have hfil := filter_flatten_of_numbered 0 n hnum
    rw [Nat.zero_add] at hfil
    refine ⟨fun hn => ?_, fun b hb => ?_⟩
    · obtain ⟨qs, hqs, hpc⟩ := hat n none hn
      cases hpc
      rw [hfil, List.getD_eq_getElem?_getD, hqs, Option.getD_some]
    · obtain ⟨qs, hqs, hpc⟩ := hat n (some b) hb
      rw [hfil, List.getD_eq_getElem?_getD, hqs, Option.getD_some]
      exact hpc

/-! ### The value of a load (R235 to R238, R242) -/

/-- Where the element of an offset lies, by the address of R199. -/
theorem elemsAt_getElem? {rc : Rec} {offs : List Nat} {l : List (Option Nat)} (h : elemsAt rc offs = .ok l) {k e : Nat} (he : offs[k]? = some e) :
    (rc.elem e = .ok .outside → l[k]? = some none) ∧ ∀ b, rc.elem e = .ok (.at_ b) → l[k]? = some (some b) := by
  obtain ⟨y, hy, hf⟩ := (mapM_ok_getElem? h k).1 e he
  refine ⟨fun ho => ?_, fun b hb => ?_⟩
  · rw [ho] at hf
    cases hf
    exact hy
  · rw [hb] at hf
    cases hf
    exact hy

/-- The values of the elements, where the cell has no write left that it need not have seen. -/
theorem valuesOf_readPieces (s : State) (f : Firing) (n : Nat) (ps : List Piece) :
    valuesOf (storePieces f) n (readPieces s ps) = (List.range n).map fun k => elemRead s f (ps.filter fun p => p.k = k) := by
  unfold valuesOf readPieces
  refine List.map_congr_left fun k _ => ?_
  rw [List.filter_map, List.foldl_map]
  rfl

/-- The widened lanes of LDX and LDGX: 0 where an element is outside (R238). -/
def widened (rc : Rec) (l : List (Option Nat)) (vs : List Nat) : List Nat :=
  ((l.zip vs).map fun e => if e.1.isNone then none else some e.2).map fun e => match e with
    | some v => widenLane rc.fmt v
    | none => 0

theorem getD_widened {rc : Rec} {l : List (Option Nat)} {vs : List Nat} (hlen : vs.length = l.length) (k : Nat) :
    (l[k]? = some none → (widened rc l vs).getD k 0 = 0) ∧
      ∀ b, l[k]? = some (some b) → (widened rc l vs).getD k 0 = widenLane rc.fmt (vs.getD k 0) := by
  have hz : ∀ y, l[k]? = some y → (l.zip vs)[k]? = some (y, vs.getD k 0) := fun y hy => by
    obtain ⟨hk, -⟩ := List.getElem?_eq_some_iff.mp hy
    have hv : vs[k]? = some (vs.getD k 0) := by simp [List.getD_eq_getElem?_getD, List.getElem?_eq_getElem (hlen.symm ▸ hk)]
    exact List.getElem?_zip_eq_some.mpr ⟨hy, hv⟩
  refine ⟨fun hn => ?_, fun b hb => ?_⟩
  · simp [widened, List.getD_eq_getElem?_getD, List.getElem?_map, hz none hn]
  · simp [widened, List.getD_eq_getElem?_getD, List.getElem?_map, hz (some b) hb]

/-- The register value that a load makes of its elements: of each whether it is inside and what it reads. -/
def loadValue (o : LoadOp) (rc : Rec) (l : List (Option Nat)) (vs : List Nat) : Nat := match o with
  | .ldx | .ldgx => ofLanes 32 (widened rc l vs)
  | o => o.value rc.fmt rc.bits vs

theorem loadCore_value {o : LoadOp} {rc : Rec} {off : Nat} {v : Loaded} (hv : getViews s c = []) (h : loadCore s (memOf s c f) o rc off = .ok v) :
    ∃ l ps, elemsAt rc (o.offs rc.bits off) = .ok l ∧ allPieces s (memOf s c f).st (memOf s c f).src .read rc.bits (fun _ => 0) l = .ok ps ∧
      v.value = loadValue o rc l ((List.range l.length).map fun k => elemRead s f (ps.filter fun p => p.k = k)) := by
  have hev : ∀ ps, loadEvents s c ps = ([], readPieces s ps) := fun ps => if_pos hv
  unfold loadCore at h
  by_cases hr : o.refuses rc.fmt = true
  · rw [if_pos hr] at h
    cases h
  · rw [if_neg hr] at h
    cases hl : elemsAt rc (o.offs rc.bits off) with
    | error e => rw [hl] at h; cases h
    | ok l =>
      cases hp : allPieces s (memOf s c f).st (memOf s c f).src .read rc.bits (fun _ => 0) l with
      | error e => simp only [hl, hp, bind, Except.bind, reduceCtorEq] at h
      | ok ps =>
        simp only [hl, hp, bind, Except.bind, Except.ok.injEq] at h
        subst h
        refine ⟨l, ps, rfl, hp, ?_⟩
        have hvals : valuesOf (storePieces f) l.length (loadEvents s c ps).2 =
            (List.range l.length).map fun k => elemRead s f (ps.filter fun p => p.k = k) := by rw [hev, valuesOf_readPieces]
        rw [← hvals]
        cases o <;> rfl

/-- What a load's value makes of a value that an element reads (R235 to R238, R242). -/
def laneOfElem (o : LoadOp) (fmt x : Nat) : Nat := match o with
  | .ld | .ldb => x
  | .ldg => x % 2 ^ 32
  | .ldx | .ldgx => widenLane fmt x % 2 ^ 32

/-- What lane `k` of a load's value holds when element `k` is outside, and when it is inside. -/
theorem holds_loadValue {o : LoadOp} {rc : Rec} {l : List (Option Nat)} {vs : List Nat} {off k e : Nat} (hlen : vs.length = l.length)
    (hoff : (o.offs rc.bits off)[k]? = some e) :
    (l[k]? = some none → vs.getD k 0 = 0 → Holds o rc.bits (loadValue o rc l vs) k 0) ∧
    ∀ b, l[k]? = some (some b) → vs.getD k 0 < 2 ^ rc.bits → Holds o rc.bits (loadValue o rc l vs) k (laneOfElem o rc.fmt (vs.getD k 0)) := by
  obtain ⟨hwnone, hwsome⟩ := getD_widened (rc := rc) hlen k
  cases o with
  | ld =>
    have hlane : lane rc.bits (loadValue .ld rc l vs) k = vs.getD k 0 % 2 ^ rc.bits := lane_ofLanes _ _ _
    exact ⟨fun _ h0 => by rw [Holds, hlane, h0, Nat.zero_mod], fun _ _ hlt => hlane.trans (Nat.mod_eq_of_lt hlt)⟩
  | ldb =>
    have hk : k = 0 := by
      obtain ⟨hk, -⟩ := List.getElem?_eq_some_iff.mp hoff
      simpa [LoadOp.offs, vecOffs] using hk
    subst hk
    have hlane : ∀ j, j < 512 / rc.bits → lane rc.bits (loadValue .ldb rc l vs) j = vs.getD 0 0 % 2 ^ rc.bits := fun j hj => lane_splat _ _ _ _ hj
    exact ⟨fun _ h0 j hj => by rw [hlane j hj, h0, Nat.zero_mod], fun _ _ hlt j hj => (hlane j hj).trans (Nat.mod_eq_of_lt hlt)⟩
  | ldg =>
    have hlane : lane 32 (loadValue .ldg rc l vs) k = vs.getD k 0 % 2 ^ 32 := lane_ofLanes _ _ _
    exact ⟨fun _ h0 => by rw [Holds, hlane, h0, Nat.zero_mod], fun _ _ _ => hlane⟩
  | ldx =>
    have hlane : lane 32 (loadValue .ldx rc l vs) k = (widened rc l vs).getD k 0 % 2 ^ 32 := lane_ofLanes _ _ _
    exact ⟨fun hn _ => by rw [Holds, hlane, hwnone hn, Nat.zero_mod], fun b hb _ => by rw [Holds, hlane, hwsome b hb]; rfl⟩
  | ldgx =>
    have hlane : lane 32 (loadValue .ldgx rc l vs) k = (widened rc l vs).getD k 0 % 2 ^ 32 := lane_ofLanes _ _ _
    exact ⟨fun hn _ => by rw [Holds, hlane, hwnone hn, Nat.zero_mod], fun b hb _ => by rw [Holds, hlane, hwsome b hb]; rfl⟩

theorem sum_lens_two (x y z u v w : Nat) : ([(x, y, z), (u, v, w)].map fun p : Nat × Nat × Nat => p.2.1).sum = y + v := by simp

/-- An element's pieces are read as its bits are (R103, R217). -/
theorem reads_elemRead {a : Acs} {k b len val : Nat} {ps : List Piece} (m : Mem) (h : elemPieces s m.st m.src a k b len val = .ok ps) :
    ∃ q, ElemAt s m a b len q ∧ Reads s f q (elemRead s f ps) ∧ elemRead s f ps < 2 ^ len := by
  obtain ⟨hat, -, hform⟩ := elemPieces_at m h
  have hreads : Reads s f (ps.map fun p => (p.bit, p.len, p.val2)) (elemRead s f ps) := by
    rcases hform with ⟨p, rfl, hp⟩ | ⟨p, q, rfl, hp, hq⟩
    · simpa [hp] using reads_one s f hp
    · simpa [hp, hq] using reads_two s f hp hq
  have hlen : ((ps.map fun p => (p.bit, p.len, p.val2)).map fun p => p.2.1).sum = len := by
    obtain ⟨hone, htwo⟩ := (elemAt_iff ..).mp hat
    have hb := lt_pageEnd b
    generalize pageEnd b = cut at hone htwo hb
    by_cases hc : b + len ≤ cut
    · obtain ⟨q, -, hq⟩ := hone hc
      rw [hq]
      simp
    · obtain ⟨q, r, -, -, hq⟩ := htwo (Nat.not_le.mp hc)
      rw [hq, sum_lens_two]
      omega
  exact ⟨_, hat, hreads, hlen ▸ hreads.1⟩

/-- Element by element, what a load delivers where its cell has seen every write. -/
theorem loadCore_elem {o : LoadOp} {rc : Rec} {off k e : Nat} {v : Loaded} (hv : getViews s c = [])
    (h : loadCore s (memOf s c f) o rc off = .ok v) (hoff : (o.offs rc.bits off)[k]? = some e) :
    (rc.elem e = .ok .outside → Holds o rc.bits v.value k 0) ∧
    ∀ b, rc.elem e = .ok (.at_ b) → ∃ q x, ElemAt s (memOf s c f) .read b rc.bits q ∧ Reads s f q x ∧
      Holds o rc.bits v.value k (laneOfElem o rc.fmt x) := by
  obtain ⟨l, ps, hl, hp, hval⟩ := loadCore_value hv h
  obtain ⟨hout, hin⟩ := elemsAt_getElem? hl hoff
  obtain ⟨hpout, hpin⟩ := allPieces_elem hp k
  have hget : ∀ y, l[k]? = some y → ((List.range l.length).map fun k => elemRead s f (ps.filter fun p => p.k = k)).getD k 0 =
      elemRead s f (ps.filter fun p => p.k = k) := fun y hy => by
    obtain ⟨hk, -⟩ := List.getElem?_eq_some_iff.mp hy
    simp [List.getD_eq_getElem?_getD, hk]
  obtain ⟨hhnone, hhsome⟩ := holds_loadValue (l := l) (vs := (List.range l.length).map fun k => elemRead s f (ps.filter fun p => p.k = k))
    (by simp) hoff
  rw [hval]
  refine ⟨fun ho => hhnone (hout ho) ?_, fun b hb => ?_⟩
  · rw [hget none (hout ho), hpout (hout ho)]
    rfl
  · obtain ⟨q, hat, hreads, hlt⟩ := reads_elemRead (f := f) (memOf s c f) (hpin b (hin b hb))
    rw [hget _ (hin b hb)] at hhsome
    exact ⟨q, _, hat, hreads, hhsome b (hin b hb) hlt⟩

/-- An entry more, where there is room (R102). -/
theorem addEntry_adds (e : Entry) (h : f.out.length < 16) : addEntry f e = .ok (adds f e) := addEntry_room e h

/-! ### Routes and done tokens (R129, R233) -/

theorem checkRoute_usable {d : Nat} {pred : Bool} (h : Usable s c f d pred) :
    checkRoute (getCell s c) f d pred = .ok ((getCell s c).route f.ctx d) := by
  obtain ⟨hen, hport⟩ := h
  have hp : decide (4 ≤ ((getCell s c).route f.ctx d).port) = pred := by
    cases pred <;> simpa using hport
  simp [checkRoute, hen, hp]

theorem doneRouteOk_usable {p : BitVec 1} (h : p = 1 → Usable s c f 3 false) : doneRouteOk s c f p = .ok () := by
  unfold doneRouteOk
  split
  case isTrue hp => rw [checkRoute_usable (h hp)]; rfl
  case isFalse => rfl

/-- The done token that ordout = 1 appends. -/
theorem doneEntry_withDone {p : BitVec 1} {cls : Nat} {sc : BitVec 3} {acc : Option Nat} {ordw : Bool} (h : p = 1 → Usable s c f 3 false)
    (hl : f.out.length < 16) :
    (if p = 1 then doneEntry s c f cls sc.toNat acc ordw else .ok f) = .ok (withDone s c f p cls sc acc ordw) := by
  unfold withDone
  by_cases hp : p = 1
  · rw [if_pos hp, if_pos hp, doneEntry, checkRoute_usable (h hp)]
    simp only [bind, Except.bind, addEntry_room _ hl]
    rfl
  · rw [if_neg hp, if_neg hp]

/-- What a result to a specifier leaves of the firing: it is the same firing, with one entry more at most. -/
theorem writeSpec_keeps {d : Spec} {x : Nat} (h : writeSpec s c f d x = .ok g) :
    g.ctx = f.ctx ∧ g.cfg = f.cfg ∧ g.out.length ≤ f.out.length + 1 := by
  unfold writeSpec at h
  dsimp only at h
  split at h
  · cases h
    exact ⟨rfl, rfl, Nat.le_succ _⟩
  · split at h
    · rw [writeWait_eq] at h
      split at h
      · cases h
      · simp only [bind, Except.bind, addEntry] at h
        split at h
        · cases h
        · cases h
          exact ⟨rfl, rfl, by simp⟩
    · split at h
      · cases h
        exact ⟨rfl, rfl, Nat.le_succ _⟩
      · cases h

/-! ### What a load sends -/

/-- A stream's own entry is all that changes. -/
theorem refill_frame (s : State) (st : Stream) (src : Src) (ps : List Piece) : refill s st src ps = { s with tlbs := (refill s st src ps).tlbs } := by
  unfold refill
  split
  · rfl
  · split <;> rfl

theorem hasRead_frame (s : State) (m : Mem) (v : Loaded) : hasRead s m v = { s with views := (hasRead s m v).views } := by
  unfold hasRead
  split <;> rfl

theorem getViews_hasRead (s : State) (m : Mem) (v : Loaded) (d : Nat) : getViews (hasRead s m v) d = if d = m.c then v.views else getViews s d := by
  unfold hasRead
  split
  case isTrue h =>
    split
    case isTrue hd => rw [hd, h]
    case isFalse => rfl
  case isFalse => simp [getViews, setViews, tget_tset]

/-- The check of a load leaves for the owners (R227), and its cell has seen more. -/
theorem sendLoad_frame (s : State) (m : Mem) (v : Loaded) (scope : Nat) :
    sendLoad s m v scope = { s with
      work := s.work ++ accessCheck m.src s.nextId .load v.pieces false scope 0, nextId := s.nextId + 1, tlbs := (sendLoad s m v scope).tlbs
      views := (hasRead s m v).views } := by
  unfold sendLoad
  rw [refill_frame, hasRead_frame]
  unfold accessCheck
  split
  case isTrue => simp [fresh]
  case isFalse => rfl

/-! ### The instruction -/

/-- The destination of a load: a held register into which the value lands after commit, another takes it at once (R236). -/
def loadDest (s : State) (c : Nat) (f : Firing) (d : Spec) (v : Loaded) (g : Firing) : Prop := match heldIdx d with
  | some k => writeWait s c f k = .ok () ∧ g = adds f (.fill k (BitVec.ofNat 512 v.value) false)
  | none => writeSpec s c f d v.value = .ok g

/-- The state in which a load has read, sent its check, and put the firing back as `g`. -/
def loadDone (s : State) (c : Nat) (f : Firing) (v : Loaded) (scope : Nat) (g : Firing) : State :=
  putFiring (sendLoad (fresh s).2 (memOf s c f) v scope) c g

/-- A load whose checks pass goes on with its destination written and its done token appended. -/
theorem loadInstr_reads {l : LoadOp} {d a : Spec} {r : BitVec 3} {o : BitVec 2} {p : BitVec 1} {sc : BitVec 3} {rc : Rec} {off : Nat} {v : Loaded}
    (hl : f.out.length < 15) (ho : Ordered s c f o p) (hrc : useRecord (getCell s c) f.ctx r.toNat false = .ok rc)
    (ha : readSpec s c f a = .ok off) (hv : loadCore s (memOf s c f) l rc off = .ok v) (he : v.err = none) (hd : loadDest s c f d v g) :
    loadInstr l d a r o p sc c f s =
      sentWatched (loadDone s c f v sc.toNat (withDone s c g p 0 sc (some s.nextId) false)) c (withDone s c g p 0 sc (some s.nextId) false) false
        v.pieces := by
  obtain ⟨hord, husable⟩ := ho
  have hg : (p = 1 → Usable s c g 3 false) ∧ g.out.length < 16 := by
    unfold loadDest at hd
    split at hd
    · obtain ⟨-, rfl⟩ := hd
      exact ⟨husable, by simp [adds]; omega⟩
    · obtain ⟨hctx, -, hlen⟩ := writeSpec_keeps hd
      exact ⟨fun hp => by rw [Usable, hctx]; exact husable hp, by omega⟩
  have hdone := doneEntry_withDone (acc := some s.nextId) (cls := 0) (sc := sc) (ordw := false) hg.1 hg.2
  have hid : (fresh s).1 = s.nextId := rfl
  simp only [loadInstr, hrc, hord, doneRouteOk_usable husable, ha, hv, he, hid, bind, Except.bind, Bool.not_true, Bool.false_eq_true, if_false,
    Option.isSome_none]
  unfold loadDest at hd
  cases hk : heldIdx d with
  | some k =>
    rw [hk] at hd
    obtain ⟨hw, rfl⟩ := hd
    simp only [hw, addEntry_adds _ (show f.out.length < 16 by omega)]
    by_cases hp : p = 1
    · rw [if_pos hp] at hdone
      simp only [if_pos hp, hdone]
      rfl
    · rw [if_neg hp] at hdone
      simp only [if_neg hp, ← Except.ok.inj hdone]
      rfl
  | none =>
    rw [hk] at hd
    simp only [hd]
    by_cases hp : p = 1
    · rw [if_pos hp] at hdone
      simp only [if_pos hp, hdone]
      rfl
    · rw [if_neg hp] at hdone
      simp only [if_neg hp, ← Except.ok.inj hdone]
      rfl

/-- The instruction of a load row. -/
theorem exec_load {i : Instr} {l : LoadOp} {d a : Spec} {r : BitVec 3} {o : BitVec 2} {p : BitVec 1} {sc : BitVec 3}
    (hi : loads i = some (l, d, a, r, o, p, sc)) (h : CellRuns s c f i) :
    exec i s = cellOutcome s c f i (loadInstr l d a r o p sc c f s) := by
  unfold loads at hi
  split at hi <;> cases hi <;> exact (onCells_runs h).trans (congrArg _ (withRegs_runs h))

/-- Only cell `c` may have seen more after a load. -/
theorem getViews_loadDone (s : State) (c : Nat) (f g : Firing) (v : Loaded) (scope d : Nat) :
    getViews (loadDone s c f v scope g) d = if d = c then v.views else getViews s d := by
  unfold loadDone
  rw [sendLoad_frame]
  exact getViews_hasRead _ _ _ _

/-- The watchpoint of the grove is as before. -/
theorem watchHit_loadDone (s : State) (c : Nat) (f g : Firing) (v : Loaded) (scope : Nat) (wr : Bool) (ps : List Piece) :
    watchHit (loadDone s c f v scope g) c wr ps = watchHit s c wr ps := by
  unfold loadDone
  rw [sendLoad_frame]
  rfl

/-- What a load leaves behind its instruction: the firing as `g`, and its check among the pending work. -/
theorem firingSends_loadDone (s : State) (c : Nat) (f g : Firing) (v : Loaded) (scope : Nat) (i : Instr) :
    FiringSends { s with views := (loadDone s c f v scope g).views } (advance (loadDone s c f v scope g) c (sizeOf' i)) c i g
      (accessCheck (firingSrc s c f) (s.nextId + 1) .load v.pieces false scope 0) := by
  unfold loadDone
  rw [sendLoad_frame]
  refine ⟨rfl, ?_, fun d hd => ?_, fun _ => rfl⟩
  · rw [getCell_advance, if_pos rfl, getCell_putFiring, if_pos rfl]
    rfl
  · rw [getCell_advance, if_neg hd, getCell_putFiring, if_neg hd]
    rfl

/-- Settles O35: `loadInstr_reads` gives what the instruction leaves, with the watchpoint met or not, and `loadCore_elem` what each element
reads. -/
theorem loads_obligation : Obligations.Loads := by
  refine ⟨fun i l d a r o p sc s c f g rc off v hi h hl ho hrc ha hv he hd => ?_, fun l s c f rc off k e v hviews hv hoff => ?_,
    fun off k => ⟨fun n hn => by simp [vecOffs, hn], fun hk => by simp [laneOffs, lanes, hk]⟩⟩
  · have hd' : loadDest s c f d v g := hd
    have hbody := loadInstr_reads (sc := sc) hl ho hrc ha hv he hd'
    rw [exec_load hi h, hbody]
    set g' := withDone s c g p 0 sc (some s.nextId) false
    set w := loadDone s c f v sc.toNat g' with hw
    have hwatch : watchHit w c false v.pieces = watchHit s c false v.pieces := watchHit_loadDone ..
    refine ⟨fun hno => ?_, fun b hb => ?_⟩
    · have hsent : sentWatched w c g' false v.pieces = .ok w := by simp [sentWatched, watched, hwatch, hno]
      rw [hsent]
      have hviews : ∀ d, getViews w d = if d = c then v.views else getViews s d := getViews_loadDone s c f g' v sc.toNat
      exact ⟨_, s.nextId + 1, rfl, Nat.le_succ _, (hviews c).trans (if_pos rfl), fun d hne => (hviews d).trans (if_neg hne),
        firingSends_loadDone s c f g' v sc.toNat i⟩
    · have hsent : sentWatched w c g' false v.pieces = .error (.redo (firingFault w c g' { cause := cWATCH, addr := b })) := by
        simp [sentWatched, watched, hwatch, hb]
      rw [hsent]
      refine ⟨w, rfl, ?_⟩
      rw [hw, loadDone, sendLoad_frame]
      rfl
  · obtain ⟨hout, hin⟩ := loadCore_elem hviews hv hoff
    refine ⟨hout, fun b hb => ?_⟩
    obtain ⟨q, x, hat, hreads, hholds⟩ := hin b hb
    refine ⟨q, x, hat, hreads, ?_⟩
    cases l <;> exact hholds

end Sys2Proof.Machine
end

section
/-! A ready firing takes its inputs and starts; memory nodes perform their operation and the other fixed nodes fire (R94, R97 to R100, R107 to
R111, R252). -/

namespace Sys2Proof.Machine
open Sys2Proof.Claims

variable {s t : State} {c ctx fr tag : Nat}

/-! ### What is taken from the tokens of a cell (R97) -/

theorem takeTokens_length (p : Token → Bool) (n : Nat) (l : List Token) : (takeTokens p n l).1.length + (takeTokens p n l).2.length = l.length := by
  induction l generalizing n with
  | nil => rfl
  | cons x l ih =>
    cases n with
    | zero => simp [takeTokens]
    | succ n =>
      rw [takeTokens]
      split
      · have := ih n
        simp only [List.length_cons]
        omega
      · have := ih (n + 1)
        simp only [List.length_cons]
        omega

theorem mem_takeTokens_left {p : Token → Bool} {n : Nat} {l : List Token} {k : Token} (h : k ∈ (takeTokens p n l).1) : k ∈ l ∧ p k = true := by
  induction l generalizing n with
  | nil => cases h
  | cons x l ih =>
    cases n with
    | zero => cases h
    | succ n =>
      rw [takeTokens] at h
      split at h
      case isTrue hx =>
        rcases List.mem_cons.mp h with rfl | h
        · exact ⟨List.mem_cons_self, hx⟩
        · exact ⟨List.mem_cons_of_mem _ (ih h).1, (ih h).2⟩
      case isFalse => exact ⟨List.mem_cons_of_mem _ (ih h).1, (ih h).2⟩

theorem mem_takeTokens_right {p : Token → Bool} {n : Nat} {l : List Token} {k : Token} (h : k ∈ (takeTokens p n l).2) : k ∈ l := by
  induction l generalizing n with
  | nil => cases h
  | cons x l ih =>
    cases n with
    | zero => exact h
    | succ n =>
      rw [takeTokens] at h
      split at h
      case isTrue => exact List.mem_cons_of_mem _ (ih h)
      case isFalse =>
        rcases List.mem_cons.mp h with rfl | h
        · exact List.mem_cons_self
        · exact List.mem_cons_of_mem _ (ih h)

/-- Every token is taken or left. -/
theorem consume_length (x : Cell) (ctx fr tag : Nat) (ps : List (Nat × Nat)) (l : List Token) :
    (consume x ctx fr tag ps l).1.length + (consume x ctx fr tag ps l).2.length = l.length := by
  induction ps generalizing l with
  | nil => simp [consume]
  | cons p ps ih =>
    have h1 := takeTokens_length (fun t => t.cfg == x.cfg && t.ctx == ctx && t.frame == fr && t.itag == tag && t.port == p.1 &&
      t.pred == decide (4 ≤ p.1)) p.2 l
    have h2 := ih (takeTokens (fun t => t.cfg == x.cfg && t.ctx == ctx && t.frame == fr && t.itag == tag && t.port == p.1 &&
      t.pred == decide (4 ≤ p.1)) p.2 l).2
    rw [consume]
    simp only [List.length_append]
    omega

/-- What is taken has the firing's own identity. -/
theorem mem_consume {x : Cell} {ps : List (Nat × Nat)} {l : List Token} {k : Token} (h : k ∈ (consume x ctx fr tag ps l).1) :
    k ∈ l ∧ k.ctx = ctx ∧ k.frame = fr ∧ k.itag = tag ∧ k.cfg = x.cfg := by
  induction ps generalizing l with
  | nil => cases h
  | cons p ps ih =>
    rw [consume] at h
    rcases List.mem_append.mp h with h | h
    · obtain ⟨hm, hp⟩ := mem_takeTokens_left h
      simp only [Bool.and_eq_true, beq_iff_eq] at hp
      obtain ⟨⟨⟨⟨⟨hcfg, hctx⟩, hfr⟩, htag⟩, -⟩, -⟩ := hp
      exact ⟨hm, hctx, hfr, htag, hcfg⟩
    · obtain ⟨hm, hk⟩ := ih h
      exact ⟨mem_takeTokens_right hm, hk⟩

/-! ### What the firing's cell sees (R213, R215, R219) -/

theorem seeScope_frame (s : State) (c n : Nat) : seeScope s c n = { s with views := (seeScope s c n).views } := by
  unfold seeScope
  split
  · exact seeAll_frame s c
  · split <;> rfl

theorem getViews_seeScope_ne (s : State) {c d : Nat} (n : Nat) (h : d ≠ c) : getViews (seeScope s c n) d = getViews s d := by
  unfold seeScope
  split
  · exact getViews_seeAll_ne s h
  · split
    · rfl
    · exact tget_tset_ne [] s.views c d _ h

/-- A cell that has nothing left to see has nothing left after an ordering token, and none is left after one of a wide scope. -/
theorem getViews_seeScope_nil {n : Nat} (h : getViews s c = [] ∨ 3 ≤ n) : getViews (seeScope s c n) c = [] := by
  unfold seeScope
  split
  case isTrue => exact getViews_seeAll s c
  case isFalse hn =>
    have hv := h.resolve_right hn
    rw [if_pos hv, hv]

/-- The tokens' scopes one after the other. -/
theorem foldl_seeScope (s : State) (c : Nat) (ts : List Token) :
    let t := ts.foldl (fun s t => seeScope s c t.scope) s
    t = { s with views := t.views } ∧ (∀ d, d ≠ c → getViews t d = getViews s d) ∧
      ((getViews s c = [] ∨ ∃ k, k ∈ ts ∧ 3 ≤ k.scope) → getViews t c = []) := by
  induction ts generalizing s with
  | nil => exact ⟨rfl, fun _ _ => rfl, fun h => h.resolve_right (by simp)⟩
  | cons k ts ih =>
    obtain ⟨h1, h2, h3⟩ := ih (seeScope s c k.scope)
    refine ⟨?_, fun d hd => (h2 d hd).trans (getViews_seeScope_ne s k.scope hd), fun h => h3 ?_⟩
    · rw [List.foldl_cons, h1, seeScope_frame]
    · rcases h with h | ⟨q, hq, hs⟩
      · exact .inl (getViews_seeScope_nil (.inl h))
      · rcases List.mem_cons.mp hq with rfl | hq
        · exact .inl (getViews_seeScope_nil (.inr hs))
        · exact .inr ⟨q, hq, hs⟩

theorem startSees_views (s : State) (c : Nat) (ts : List Token) (source : Bool) :
    let t := startSees s c ts source
    t = { s with views := t.views } ∧ (∀ d, d ≠ c → getViews t d = getViews s d) ∧
      ((getViews s c = [] ∨ source = true ∨ ∃ k, k ∈ ts ∧ 3 ≤ k.scope) → getViews t c = []) := by
  unfold startSees
  by_cases hv : getViews s c = []
  · rw [if_pos hv]
    exact ⟨rfl, fun _ _ => rfl, fun _ => hv⟩
  · rw [if_neg hv]
    cases source with
    | true => exact ⟨seeAll_frame s c, fun d hd => getViews_seeAll_ne s hd, fun _ => getViews_seeAll s c⟩
    | false =>
      obtain ⟨h1, h2, h3⟩ := foldl_seeScope s c ts
      exact ⟨h1, h2, fun h => h3 (h.imp_right fun h => h.resolve_left (by simp))⟩

/-! ### The firing takes its inputs -/

/-- The cell without the inputs of a firing, its run noted. -/
def takenCell (s : State) (c ctx fr tag : Nat) : Cell :=
  { noteRun (getCell s c) ctx fr tag (takeInputs s c ctx fr tag).1 (takeInputs s c ctx fr tag).2.1 with
    tokens := (consume (getCell s c) ctx fr tag (firingPorts (getCell s c) ctx fr tag) (getCell s c).tokens).2 }

theorem takeInputs_state (s : State) (c ctx fr tag : Nat) :
    (takeInputs s c ctx fr tag).2.2 =
      startSees (setCell s c (takenCell s c ctx fr tag)) c (takeInputs s c ctx fr tag).1 (takeInputs s c ctx fr tag).2.1 := rfl

theorem takeInputs_frame (s : State) (c ctx fr tag : Nat) :
    (takeInputs s c ctx fr tag).2.2 =
      { s with cells := (takeInputs s c ctx fr tag).2.2.cells, views := (takeInputs s c ctx fr tag).2.2.views } := by
  rw [takeInputs_state, (startSees_views _ c _ _).1]
  rfl

@[simp] theorem getCell_takeInputs (s : State) (c ctx fr tag d : Nat) :
    getCell (takeInputs s c ctx fr tag).2.2 d = if d = c then takenCell s c ctx fr tag else getCell s d := by
  rw [takeInputs_state, (startSees_views _ c _ _).1]
  exact getCell_setCell s c d _

/-- A state in which the inputs are taken, and whatever else happened left the cell's tokens and registers, every other cell and the
memory alone, and took no write from the cell's sight. -/
theorem tookInputs_of (htok : (getCell t c).tokens = (takenCell s c ctx fr tag).tokens) (hheld : (getCell t c).held = (getCell s c).held)
    (hoth : OtherCells s t c) (hmem : t.mem = s.mem)
    (hne : ∀ d, d ≠ c → getViews t d = getViews (takeInputs s c ctx fr tag).2.2 d)
    (hnil : getViews (takeInputs s c ctx fr tag).2.2 c = [] → getViews t c = []) : TookInputs s t c ctx fr tag := by
  obtain ⟨-, hothers, hself⟩ := startSees_views (setCell s c (takenCell s c ctx fr tag)) c (takeInputs s c ctx fr tag).1
    (takeInputs s c ctx fr tag).2.1
  refine ⟨?_, hheld, ?_, fun k hk => mem_consume hk, hoth, fun a => congrArg (fun m => tget 0 m a) hmem, fun d hd => ?_, fun h => hnil (hself h)⟩
  · rw [htok, getCell_takeInputs, if_pos rfl]
  · rw [htok]
    exact consume_length ..
  · exact (hne d hd).trans (hothers d hd)

/-- The next agent's choices are noted after the inputs are taken: nothing else changes. -/
theorem tookInputs_noteReady (h : TookInputs s t c ctx fr tag) : TookInputs s (noteReady t c) c ctx fr tag := by
  obtain ⟨h1, h2, h3, h4, h5, h6, h7, h8⟩ := h
  refine ⟨by rw [tokens_noteReady, h1], by rw [held_noteReady, h2], by rw [tokens_noteReady, h3], h4, fun d hd => ?_, fun a => ?_, fun d hd => ?_, fun h => ?_⟩
  · rw [getCell_noteReady_ne _ hd, h5 d hd]
  · rw [← h6 a, noteReady_frame]
    rfl
  · rw [← h7 d hd, noteReady_frame]
    rfl
  · rw [← h8 h, noteReady_frame]
    rfl

/-- A firing that may start finds no other on its cell. -/
theorem firing_none_of_mayFire {kind : Nat} (h : mayFire s c ctx fr tag kind = true) : (getCell s c).firing = none := by
  simp only [mayFire, Bool.and_eq_true] at h
  by_contra hf
  have : firingChoices s c = [] := by
    rw [firingChoices, if_pos (Option.isSome_iff_ne_none.mpr hf)]
  simp [this] at h

/-- With its inputs taken, the cell has no firing yet. -/
theorem firing_takenCell (s : State) (c ctx fr tag : Nat) : (takenCell s c ctx fr tag).firing = (getCell s c).firing := rfl

/-! ### A firing starts (R94, R100) -/

/-- The state in which a new firing has its identity. -/
theorem newFiring_state (s : State) (c ctx fr tag : Nat) (ts : List Token) (source : Bool) :
    (newFiring s c ctx fr tag ts source).2 = { s with nextId := s.nextId + 1 } := rfl

/-- The firing that starts on the inputs taken. -/
def newborn (s : State) (c ctx fr tag : Nat) : Firing :=
  (newFiring (takeInputs s c ctx fr tag).2.2 c ctx fr tag (takeInputs s c ctx fr tag).1 (takeInputs s c ctx fr tag).2.1).1

theorem newborn_fields (s : State) (c ctx fr tag : Nat) :
    let q := takeInputs s c ctx fr tag
    let f := newborn s c ctx fr tag
    f.cfg = (getCell s c).cfg ∧ f.ctx = ctx ∧ f.frame = fr ∧ f.itag = tag ∧ f.phase = .running ∧ f.word = bits ((getCell s c).field ctx 0) 16 8 ∧
      f.inputs = q.1 ∧ f.out = [] ∧ f.uid = s.nextId ∧
      ∀ p, p < 4 → f.ivals.getD p 0 =
        if p = 0 ∧ q.2.1 = true then BitVec.ofNat 512 ((getCfg s (getCell s c).cfg).w 1) else portValue p q.1 := by
  have hcell : getCell (takeInputs s c ctx fr tag).2.2 c = takenCell s c ctx fr tag := by rw [getCell_takeInputs, if_pos rfl]
  have hcfg : getCfg (takeInputs s c ctx fr tag).2.2 (getCell s c).cfg = getCfg s (getCell s c).cfg := by rw [takeInputs_frame]; rfl
  have hid : (takeInputs s c ctx fr tag).2.2.nextId = s.nextId := by rw [takeInputs_frame]
  have hw1 : (getCfg (takeInputs s c ctx fr tag).2.2 (getCell (takeInputs s c ctx fr tag).2.2 c).cfg).w 1 =
      (getCfg s (getCell s c).cfg).w 1 := by rw [hcell]; exact congrArg (Cfg.w · 1) hcfg
  have hx : (getCell (takeInputs s c ctx fr tag).2.2 c).cfg = (getCell s c).cfg := by rw [hcell]; rfl
  have hk0 : (getCell (takeInputs s c ctx fr tag).2.2 c).field ctx 0 = (getCell s c).field ctx 0 := by rw [hcell]; rfl
  refine ⟨hx, rfl, rfl, rfl, rfl, congrArg (bits · 16 8) hk0, rfl, rfl, hid, fun p hp => ?_⟩
  rw [← hw1]
  match p, hp with
  | 0, _ => simp [newborn, newFiring]
  | 1, _ => simp [newborn, newFiring]
  | 2, _ => simp [newborn, newFiring]
  | 3, _ => simp [newborn, newFiring]

/-- The state in which the inputs are taken and the new firing has its identity. -/
def born (s : State) (c ctx fr tag : Nat) : State := { (takeInputs s c ctx fr tag).2.2 with nextId := s.nextId + 1 }

theorem newFiring_born (s : State) (c ctx fr tag : Nat) :
    newFiring (takeInputs s c ctx fr tag).2.2 c ctx fr tag (takeInputs s c ctx fr tag).1 (takeInputs s c ctx fr tag).2.1 =
      (newborn s c ctx fr tag, born s c ctx fr tag) := by
  have hid : (takeInputs s c ctx fr tag).2.2.nextId = s.nextId := by rw [takeInputs_frame]
  refine Prod.ext rfl ?_
  rw [newFiring_state, hid]
  rfl

theorem born_frame (s : State) (c ctx fr tag : Nat) :
    born s c ctx fr tag = { s with cells := (born s c ctx fr tag).cells, nextId := s.nextId + 1, views := (born s c ctx fr tag).views } := by
  unfold born
  rw [takeInputs_frame]

@[simp] theorem getCell_born (s : State) (c ctx fr tag d : Nat) :
    getCell (born s c ctx fr tag) d = if d = c then takenCell s c ctx fr tag else getCell s d := getCell_takeInputs s c ctx fr tag d

/-- A cell's new firing beside its inputs: what putting any firing back in that state leaves. -/
theorem tookInputs_putFiring (s : State) (c ctx fr tag : Nat) (f : Firing) :
    TookInputs s (putFiring (born s c ctx fr tag) c f) c ctx fr tag := by
  refine tookInputs_of ?_ ?_ (fun d hd => ?_) ?_ (fun _ _ => rfl) fun h => h
  · simp
  · simp; rfl
  · simp [hd]
  · rw [putFiring_mem, born_frame]

/-- FIRING (R100). -/
theorem exec_firing_starts (hm : mayFire s c ctx fr tag 1 = true) (ha : anyFalse (takeInputs s c ctx fr tag).1 = false) :
    exec (.firing c ctx fr tag) s = .next (noteReady (putFiring (born s c ctx fr tag) c (newborn s c ctx fr tag)) c) := by
  change execFiring c ctx fr tag s = _
  simp only [execFiring, hm, if_true, ha, newFiring_born]
  rfl

/-- With a false predicate a firing or memory node only takes its inputs (R107). -/
theorem exec_firing_false {i : Instr} {k : Nat}
    (hi : (i = .firing c ctx fr tag ∧ k = 1) ∨ (i = .memoryNodeFiring c ctx fr tag ∧ k = 5)) (hm : mayFire s c ctx fr tag k = true)
    (ha : anyFalse (takeInputs s c ctx fr tag).1 = true) : exec i s = .next (noteReady (takeInputs s c ctx fr tag).2.2 c) := by
  rcases hi with ⟨rfl, rfl⟩ | ⟨rfl, rfl⟩
  · change execFiring c ctx fr tag s = _
    simp only [execFiring, hm, if_true, ha]
  · change execMemoryNodeFiring c ctx fr tag s = _
    simp only [execMemoryNodeFiring, hm, if_true, ha]

/-- The inputs taken, and nothing else. -/
theorem tookInputs_takeInputs (s : State) (c ctx fr tag : Nat) : TookInputs s (takeInputs s c ctx fr tag).2.2 c ctx fr tag := by
  refine tookInputs_of ?_ ?_ (fun d hd => ?_) ?_ (fun _ _ => rfl) fun h => h
  · simp
  · simp; rfl
  · simp [hd]
  · rw [takeInputs_frame]

/-! ### Memory nodes (R252) -/

/-- The ended firing of a memory node, on the inputs it took. -/
def nodeFiring (s : State) (c ctx fr tag : Nat) : Firing := { newborn s c ctx fr tag with phase := .ending }

/-- A memory node performs its operation at once, in the state in which its inputs are taken. -/
theorem exec_memoryNodeFiring {t : State} (hm : mayFire s c ctx fr tag 5 = true) (ha : anyFalse (takeInputs s c ctx fr tag).1 = false)
    (ht : nodeOp (born s c ctx fr tag) c (nodeFiring s c ctx fr tag) = .ok t) :
    exec (.memoryNodeFiring c ctx fr tag) s = .next (noteReady t c) := by
  have ht' : nodeOp (born s c ctx fr tag) c { newborn s c ctx fr tag with phase := .ending } = .ok t := ht
  change execMemoryNodeFiring c ctx fr tag s = _
  simp only [execMemoryNodeFiring, hm, if_true, ha, newFiring_born, ht']
  rfl

/-- What a memory node's operation leaves beside its ended firing `h`: its checks under way, and no write taken from a cell's sight. -/
def NodeLeaves (s t : State) (c : Nat) (h : Firing) : Prop :=
  t = { putFiring s c h with work := t.work, nextId := t.nextId, tlbs := t.tlbs, views := t.views } ∧
    (∀ d, d ≠ c → getViews t d = getViews s d) ∧ (getViews s c = [] → getViews t c = [])

theorem nodeEnds {t : State} {h : Firing} (hm : mayFire s c ctx fr tag 5 = true) (ha : anyFalse (takeInputs s c ctx fr tag).1 = false)
    (ht : nodeOp (born s c ctx fr tag) c (nodeFiring s c ctx fr tag) = .ok t) (hl : NodeLeaves (born s c ctx fr tag) t c h) :
    ∃ t, exec (.memoryNodeFiring c ctx fr tag) s = .next t ∧ TookInputs s t c ctx fr tag ∧ (getCell t c).firing = some h := by
  obtain ⟨hst, hoth, hnil⟩ := hl
  have hcell : ∀ d, getCell t d = getCell (putFiring (born s c ctx fr tag) c h) d := fun d => by rw [hst]; rfl
  refine ⟨_, exec_memoryNodeFiring hm ha ht, tookInputs_noteReady (tookInputs_of ?_ ?_ (fun d hd => ?_) ?_ hoth hnil), ?_⟩
  · simp [hcell]
  · simp [hcell]; rfl
  · simp [hcell, hd]
  · rw [hst, born_frame]
    rfl
  · simp [hcell]

section
variable {f : Firing}

/-- The field k7 of a memory node. -/
def nodeField (s : State) (c : Nat) (f : Firing) : Nat := (getCell s c).field f.ctx 7

/-- The firing with the done token that the node's k7 may ask for. -/
def nodeTold (s : State) (c : Nat) (f h : Firing) (cls : Nat) : Firing :=
  if bit (nodeField s c f) 12 then nodeEntry s c h cls 0 (some s.nextId) true (bits (nodeField s c f) 13 3) else h

theorem watchHit_of_ctls {s t : State} (h : t.ctls = s.ctls) (c : Nat) (wr : Bool) (ps : List Piece) : watchHit t c wr ps = watchHit s c wr ps := by
  unfold watchHit getCtl
  rw [h]

/-- Without a watched byte an access leaves the state that its check leaves. -/
theorem watched_getD {s t : State} {wr : Bool} {ps : List Piece} (f : Firing) (hctl : t.ctls = s.ctls) (h : watchHit s c wr ps = none) :
    (watched t c f wr ps).getD t = t := by
  rw [watched, watchHit_of_ctls hctl, h]
  rfl

theorem sendWrite_frame (s : State) (m : Mem) (a : Acc) :
    sendWrite s m a = { s with work := (sendWrite s m a).work, tlbs := (sendWrite s m a).tlbs } := by
  unfold sendWrite
  rw [refill_frame]
  split <;> rfl

theorem sendClose_frame (s : State) (a : Acc) : sendClose s a = { s with work := (sendClose s a).work } := by
  unfold sendClose
  split <;> rfl

theorem nodeLoad_cases {g fn : Nat} {op : LoadOp} (h : nodeLoad g fn = some op) :
    (g = 0 ∧ fn = 0 ∧ op = .ld) ∨ (g = 0 ∧ fn = 2 ∧ op = .ldb) ∨ (g = 0 ∧ fn = 3 ∧ op = .ldx) ∨ (g = 1 ∧ fn = 0 ∧ op = .ldg) ∨
      (g = 1 ∧ fn = 2 ∧ op = .ldgx) := by
  unfold nodeLoad at h
  split at h <;> cases h <;> simp

theorem nodeStore_cases {g fn : Nat} {op : StoreOp} (h : nodeStore g fn = some op) :
    (g = 0 ∧ fn = 1 ∧ op = .st) ∨ (g = 0 ∧ fn = 4 ∧ op = .stx) ∨ (g = 0 ∧ fn = 5 ∧ op = .stnf) ∨ (g = 1 ∧ fn = 1 ∧ op = .stg) := by
  unfold nodeStore at h
  split at h <;> cases h <;> simp

theorem nodeAtomic_cases {g fn op : Nat} (h : nodeAtomic g fn = some op) :
    g = 2 ∧ ((fn = 0 ∧ op = 1) ∨ (fn = 1 ∧ op = 2) ∨ (fn = 2 ∧ op = 3) ∨ (fn = 3 ∧ op = 4) ∨ (fn = 5 ∧ op = 6) ∨ (fn = 6 ∧ op = 7)) := by
  unfold nodeAtomic at h
  split at h
  case isFalse => cases h
  case isTrue hg =>
    refine ⟨hg, ?_⟩
    split at h <;> cases h <;> simp

theorem nodeOp_load {op : LoadOp} {rc : Rec} {v : Loaded} (hop : nodeLoad (bits (nodeField s c f) 0 2) (bits (nodeField s c f) 2 5) = some op)
    (hrc : useRecord (getCell s c) f.ctx (bits (nodeField s c f) 7 3) false = .ok rc)
    (hv : loadCore s (memNode s c f) op rc (f.ivals.getD 0 0).toNat = .ok v) (he : v.err = none) (hw : watchHit s c false v.pieces = none) :
    nodeOp s c f = .ok (putFiring (sendLoad s (memNode s c f) v (bits (nodeField s c f) 13 3)) c (nodeEntry s c f 2 v.value none false)) := by
  unfold nodeField at *
  have hnw := watched_getD (t := putFiring (sendLoad s (memNode s c f) v (bits ((getCell s c).field f.ctx 7) 13 3)) c
    (nodeEntry s c f 2 v.value none false)) f (by rw [sendLoad_frame]; rfl) hw
  rcases nodeLoad_cases hop with ⟨hg, hf, rfl⟩ | ⟨hg, hf, rfl⟩ | ⟨hg, hf, rfl⟩ | ⟨hg, hf, rfl⟩ | ⟨hg, hf, rfl⟩
  all_goals simp only [nodeOp, hg, hf, hrc, hv, he, bind, Except.bind, hnw]

theorem nodeOp_store {op : StoreOp} {rc : Rec} {z : Stored} (hop : nodeStore (bits (nodeField s c f) 0 2) (bits (nodeField s c f) 2 5) = some op)
    (hrc : useRecord (getCell s c) f.ctx (bits (nodeField s c f) 7 3) true = .ok rc)
    (hz : storeCore s (memNode s c f) op rc ((getCell s c).record f.ctx (bits (nodeField s c f) 7 3)) (f.ivals.getD 1 0).toNat
      (f.ivals.getD 0 0).toNat (bits (nodeField s c f) 13 3) s.nextId = .ok z) (hw : watchHit s c true z.acc.pieces = none) :
    nodeOp s c f = .ok (putFiring (sendWrite (fresh s).2 (memNode s c f) z.acc) c
      (nodeTold s c f (({ f with out := [.access z.acc] } : Firing).report z.rep) 0)) := by
  unfold nodeTold nodeField at *
  have hnw := fun h g => watched_getD (t := putFiring (sendWrite (fresh s).2 (memNode s c f) z.acc) c h) g (by rw [sendWrite_frame]; rfl) hw
  rcases nodeStore_cases hop with ⟨hg, hf, rfl⟩ | ⟨hg, hf, rfl⟩ | ⟨hg, hf, rfl⟩ | ⟨hg, hf, rfl⟩
  all_goals
    simp only [nodeOp, hg, hf, hrc, fresh, hz, bind, Except.bind]
    exact congrArg Except.ok (hnw _ _)

theorem nodeOp_atomic {op : Nat} {rc : Rec} {z : Acc} (hop : nodeAtomic (bits (nodeField s c f) 0 2) (bits (nodeField s c f) 2 5) = some op)
    (hrc : useRecord (getCell s c) f.ctx (bits (nodeField s c f) 7 3) true = .ok rc)
    (hz : atomicCore s (memNode s c f) op rc ((getCell s c).record f.ctx (bits (nodeField s c f) 7 3)) (f.ivals.getD 1 0).toNat 0
      (f.ivals.getD 0 0).toNat (bits (nodeField s c f) 13 3) s.nextId = .ok z) (hw : watchHit s c true z.pieces = none) :
    nodeOp s c f = .ok (putFiring (sendWrite (fresh s).2 (memNode s c f) z) c (nodeTold s c f { f with out := [.access z] } 2)) := by
  unfold nodeTold nodeField at *
  have hnw := fun h g => watched_getD (t := putFiring (sendWrite (fresh s).2 (memNode s c f) z) c h) g (by rw [sendWrite_frame]; rfl) hw
  obtain ⟨hg, ⟨hf, rfl⟩ | ⟨hf, rfl⟩ | ⟨hf, rfl⟩ | ⟨hf, rfl⟩ | ⟨hf, rfl⟩ | ⟨hf, rfl⟩⟩ := nodeAtomic_cases hop
  all_goals
    simp only [nodeOp, hg, hf, hrc, fresh, reduceIte, Nat.reduceEqDiff, one_ne_zero, OfNat.ofNat_ne_zero, OfNat.ofNat_ne_one, hz, bind, Except.bind]
    exact congrArg Except.ok (hnw _ _)

theorem nodeOp_close {rc : Rec} {z : Acc × Option (Nat × Nat)} (hg : bits (nodeField s c f) 0 2 = 0) (hf : bits (nodeField s c f) 2 5 = 6)
    (hrc : useRecord (getCell s c) f.ctx (bits (nodeField s c f) 7 3) false = .ok rc)
    (hz : seqclCore s (memNode s c f) rc ((getCell s c).record f.ctx (bits (nodeField s c f) 7 3)) none (bits (nodeField s c f) 13 3) s.nextId = .ok z) :
    nodeOp s c f = .ok (putFiring (sendClose (fresh s).2 z.1) c (nodeTold s c f { f with out := [.close z.1 none] } 1)) := by
  unfold nodeTold nodeField at *
  simp only [nodeOp, hg, hf, hrc, fresh, hz, bind, Except.bind]

/-- With no write left to see, a load leaves none. -/
theorem loadCore_views {m : Mem} {op : LoadOp} {rc : Rec} {off : Nat} {v : Loaded} (hv : getViews s m.c = []) (h : loadCore s m op rc off = .ok v) :
    v.views = [] := by
  have hev : ∀ ps, (loadEvents s m.c ps).1 = [] := fun ps => by rw [loadEvents, if_pos hv]
  unfold loadCore at h
  by_cases hr : op.refuses rc.fmt = true
  · rw [if_pos hr] at h
    cases h
  · rw [if_neg hr] at h
    cases hl : elemsAt rc (op.offs rc.bits off) with
    | error e => rw [hl] at h; cases h
    | ok l =>
      cases hp : allPieces s m.st m.src .read rc.bits (fun _ => 0) l with
      | error e => simp only [hl, hp, bind, Except.bind, reduceCtorEq] at h
      | ok ps =>
        simp only [hl, hp, bind, Except.bind, Except.ok.injEq] at h
        subst h
        exact hev ps

theorem nodeLeaves_load {m : Mem} {op : LoadOp} {rc : Rec} {off : Nat} {v : Loaded} (hc : m.c = c) (h : loadCore s m op rc off = .ok v) (n : Nat)
    (g : Firing) : NodeLeaves s (putFiring (sendLoad s m v n) c g) c g := by
  have hviews : ∀ d, getViews (putFiring (sendLoad s m v n) c g) d = if d = c then v.views else getViews s d := fun d => by
    rw [sendLoad_frame, ← hc]
    exact getViews_hasRead s m v d
  refine ⟨?_, fun d hd => ?_, fun hv => ?_⟩
  · rw [sendLoad_frame]
    rfl
  · rw [hviews, if_neg hd]
  · rw [hviews, if_pos rfl, loadCore_views (hc ▸ hv) h]

theorem nodeLeaves_write (s : State) (c : Nat) (m : Mem) (a : Acc) (g : Firing) :
    NodeLeaves s (putFiring (sendWrite (fresh s).2 m a) c g) c g := by
  unfold NodeLeaves
  rw [sendWrite_frame]
  exact ⟨rfl, fun _ _ => rfl, fun h => h⟩

theorem nodeLeaves_close (s : State) (c : Nat) (a : Acc) (g : Firing) : NodeLeaves s (putFiring (sendClose (fresh s).2 a) c g) c g := by
  unfold NodeLeaves
  rw [sendClose_frame]
  exact ⟨rfl, fun _ _ => rfl, fun h => h⟩

end

/-- MEMORY_NODE_FIRING (R252): of each kind of operation, the entries that wait for their checks. -/
theorem memoryNode_ends (s : State) (c ctx fr tag : Nat) (hm : mayFire s c ctx fr tag 5 = true) (ha : anyFalse (takeInputs s c ctx fr tag).1 = false) :
    let x := getCell s c
    let b := born s c ctx fr tag
    let g := nodeFiring s c ctx fr tag
    let m := memNode b c g
    let k7 := x.field ctx 7
    let r := bits k7 7 3
    let i0 := (g.ivals.getD 0 0).toNat
    let i1 := (g.ivals.getD 1 0).toNat
    let ends := fun h : Firing => ∃ t, exec (.memoryNodeFiring c ctx fr tag) s = .next t ∧ TookInputs s t c ctx fr tag ∧ (getCell t c).firing = some h
    let told := fun (h : Firing) (cls : Nat) => if bit k7 12 then nodeEntry b c h cls 0 (some b.nextId) true (bits k7 13 3) else h
    (∀ op rc v, nodeLoad (bits k7 0 2) (bits k7 2 5) = some op → useRecord x ctx r false = .ok rc → loadCore b m op rc i0 = .ok v → v.err = none →
      watchHit b c false v.pieces = none → ends (nodeEntry b c g 2 v.value none false)) ∧
    (∀ op rc z, nodeStore (bits k7 0 2) (bits k7 2 5) = some op → useRecord x ctx r true = .ok rc →
      storeCore b m op rc (x.record ctx r) i1 i0 (bits k7 13 3) b.nextId = .ok z → watchHit b c true z.acc.pieces = none →
      ends (told (({ g with out := [.access z.acc] } : Firing).report z.rep) 0)) ∧
    (∀ op rc z, nodeAtomic (bits k7 0 2) (bits k7 2 5) = some op → useRecord x ctx r true = .ok rc →
      atomicCore b m op rc (x.record ctx r) i1 0 i0 (bits k7 13 3) b.nextId = .ok z → watchHit b c true z.pieces = none →
      ends (told { g with out := [.access z] } 2)) ∧
    (∀ rc z, bits k7 0 2 = 0 → bits k7 2 5 = 6 → useRecord x ctx r false = .ok rc →
      seqclCore b m rc (x.record ctx r) none (bits k7 13 3) b.nextId = .ok z → ends (told { g with out := [.close z.1 none] } 1)) := by
  intro x b g m k7 r i0 i1 ends told
  have hcell : getCell b c = takenCell s c ctx fr tag := by rw [getCell_born, if_pos rfl]
  have hfield : nodeField b c g = k7 := by
    unfold nodeField
    rw [hcell]
    rfl
  have hrec : ∀ w, useRecord (getCell b c) g.ctx (bits (nodeField b c g) 7 3) w = useRecord x ctx r w := fun w => by
    rw [hcell, hfield]
    rfl
  have hraw : (getCell b c).record g.ctx (bits (nodeField b c g) 7 3) = x.record ctx r := by
    rw [hcell, hfield]
    rfl
  have htold : ∀ h cls, told h cls = nodeTold b c g h cls := fun h cls => by
    unfold nodeTold
    rw [hfield]
  refine ⟨fun op rc v hop hrc hv he hw => ?_, fun op rc z hop hrc hz hw => ?_, fun op rc z hop hrc hz hw => ?_, fun rc z hg hf hrc hz => ?_⟩
  · rw [← hfield] at hop
    exact nodeEnds hm ha (nodeOp_load hop ((hrec _).trans hrc) hv he hw) (nodeLeaves_load rfl hv _ _)
  · rw [htold]
    rw [← hraw, ← hfield] at hz
    rw [← hfield] at hop
    exact nodeEnds hm ha (nodeOp_store hop ((hrec _).trans hrc) hz hw) (nodeLeaves_write ..)
  · rw [htold]
    rw [← hraw, ← hfield] at hz
    rw [← hfield] at hop
    exact nodeEnds hm ha (nodeOp_atomic hop ((hrec _).trans hrc) hz hw) (nodeLeaves_write ..)
  · rw [htold]
    rw [← hraw, ← hfield] at hz
    rw [← hfield] at hg hf
    exact nodeEnds hm ha (nodeOp_close hg hf ((hrec _).trans hrc) hz) (nodeLeaves_close ..)

/-! ### Steer, merge, counter and reduction nodes (R107 to R111) -/

/-- The tokens of `l` on their routes, a token on a disabled route being discarded (R92). -/
def nodeWork (s : State) (c ctx : Nat) (l : List (Nat × Token)) : List Work :=
  (l.filter fun q => ((getCell s c).route ctx q.1).en).map fun q =>
    let r := (getCell s c).route ctx q.1
    .token (routeDest (getCfg s (getCell s c).cfg) r) { q.2 with ctx := r.ctx, port := r.port, cfg := (getCell s c).cfg, route := routeKey c ctx q.1 }

theorem nodeWork_append (s : State) (c ctx : Nat) (l m : List (Nat × Token)) : nodeWork s c ctx (l ++ m) = nodeWork s c ctx l ++ nodeWork s c ctx m := by
  simp [nodeWork]

theorem nodeSend_work (s : State) (c ctx k : Nat) (x : Token) :
    nodeSend s c ctx k x = { s with work := s.work ++ nodeWork s c ctx [(k, x)] } := by
  unfold nodeSend nodeWork
  by_cases h : ((getCell s c).route ctx k).en = true
  · simp [h, addWork]
  · simp [h]

/-- A fixed node has taken its inputs and sent `l`; its counters are `cs`. -/
def NodeSent (s t : State) (c ctx fr tag : Nat) (cs : Table CounterSt) (l : List (Nat × Token)) : Prop :=
  t = { (takeInputs s c ctx fr tag).2.2 with cells := t.cells, work := s.work ++ nodeWork s c ctx l } ∧
    getCell t c = { takenCell s c ctx fr tag with counters := cs } ∧ OtherCells s t c

section
variable {cs : Table CounterSt} {l : List (Nat × Token)}

theorem nodeSent_takeInputs (s : State) (c ctx fr tag : Nat) :
    NodeSent s (takeInputs s c ctx fr tag).2.2 c ctx fr tag (getCell s c).counters [] := by
  refine ⟨?_, by rw [getCell_takeInputs, if_pos rfl]; rfl, fun d hd => by rw [getCell_takeInputs, if_neg hd]⟩
  rw [takeInputs_frame]
  simp [nodeWork]

theorem nodeSent_counters (h : NodeSent s t c ctx fr tag cs l) (g : Table CounterSt → Table CounterSt) :
    NodeSent s (modCell t c fun x => { x with counters := g x.counters }) c ctx fr tag (g cs) l := by
  obtain ⟨hst, hself, hoth⟩ := h
  refine ⟨?_, by rw [getCell_modCell, if_pos rfl, hself], fun d hd => by rw [getCell_modCell, if_neg hd, hoth d hd]⟩
  rw [hst]
  rfl

theorem nodeSent_send (h : NodeSent s t c ctx fr tag cs l) (k : Nat) (x : Token) :
    NodeSent s (nodeSend t c ctx k x) c ctx fr tag cs (l ++ [(k, x)]) := by
  obtain ⟨hst, hself, hoth⟩ := h
  have hcfg : getCfg t (getCell s c).cfg = getCfg s (getCell s c).cfg := by rw [hst, takeInputs_frame]; rfl
  have hwork : nodeWork t c ctx [(k, x)] = nodeWork s c ctx [(k, x)] := by
    unfold nodeWork
    rw [hself, ← hcfg]
    rfl
  rw [nodeSend_work, hwork]
  refine ⟨?_, hself, hoth⟩
  rw [nodeWork_append, ← List.append_assoc]
  conv_lhs => rw [hst]

/-- What a fixed node sent is its firing (R107). -/
theorem NodeSent.fires (h : NodeSent s t c ctx fr tag cs l) (hf : (getCell s c).firing = none) :
    NodeFires s (noteReady t c) c ctx fr tag l ∧ (getCell (noteReady t c) c).counters = cs := by
  obtain ⟨hst, hself, hoth⟩ := h
  have hviews : ∀ d, getViews t d = getViews (takeInputs s c ctx fr tag).2.2 d := fun d => by rw [hst]; rfl
  refine ⟨⟨?_, tookInputs_noteReady (tookInputs_of (by rw [hself]) (by rw [hself]; rfl) hoth ?_ (fun d _ => hviews d) fun h => (hviews c).trans h),
    ?_, ?_⟩, ?_⟩
  · rw [noteReady_frame, hst, takeInputs_frame]
  · rw [hst, takeInputs_frame]
  · rw [firing_noteReady, hself]
    exact hf
  · rw [noteReady_frame, hst]
    rfl
  · rw [counters_noteReady, hself]

end

theorem exec_steerFiring {a : Token} (hm : mayFire s c ctx fr tag 2 = true) (hf : (takeInputs s c ctx fr tag).1.find? (fun t => !t.pred) = some a) :
    exec (.steerFiring c ctx fr tag) s = .next (noteReady (nodeSend (takeInputs s c ctx fr tag).2.2 c ctx
      (if anyFalse (takeInputs s c ctx fr tag).1 then 1 else 0) (joined s (takeInputs s c ctx fr tag).1 a)) c) := by
  change execSteerFiring c ctx fr tag s = _
  simp only [execSteerFiring, hm, if_true, hf]

theorem exec_mergeFiring {a : Token} (hm : mayFire s c ctx fr tag 3 = true) (hf : (takeInputs s c ctx fr tag).1.find? (fun t => !t.pred) = some a) :
    exec (.mergeFiring c ctx fr tag) s = .next (noteReady (nodeSend (takeInputs s c ctx fr tag).2.2 c ctx 0
      (joined s (takeInputs s c ctx fr tag).1 a)) c) := by
  change execMergeFiring c ctx fr tag s = _
  simp only [execMergeFiring, hm, if_true, hf]

/-- The state of a counter after it counted, with the tokens it sends (R109). -/
theorem counterStep_eq (z : CounterSt) (outer : Nat) :
    let row := z.i + 1 = z.inner
    let k := row ∧ z.j + 1 = outer
    counterStep z outer = (z.n, decide row, (if row then some z.j else none), (if k then some (z.n + 1) else none),
      { z with i := if row then 0 else z.i + 1, j := if k then 0 else if row then z.j + 1 else z.j, n := z.n + 1
               inner := if row then z.pending else z.inner }) := by
  unfold counterStep
  by_cases hrow : z.i + 1 = z.inner
  · by_cases hk : z.j + 1 = outer
    · simp [hrow, hk]
    · simp [hrow, hk]
  · simp [hrow]

theorem exec_reductionNodeFiring_false (hm : mayFire s c ctx fr tag 6 = true) (ha : anyFalse (takeInputs s c ctx fr tag).1 = true) :
    exec (.reductionNodeFiring c ctx fr tag) s = .next (noteReady (takeInputs s c ctx fr tag).2.2 c) := by
  change execReductionNodeFiring c ctx fr tag s = _
  simp only [execReductionNodeFiring, hm, if_true, ha]

theorem exec_reductionNodeFiring {a b : Token} (hm : mayFire s c ctx fr tag 6 = true) (ha : anyFalse (takeInputs s c ctx fr tag).1 = false)
    (h0 : (takeInputs s c ctx fr tag).1.find? (fun t => !t.pred && t.port == 0) = some a)
    (h1 : (takeInputs s c ctx fr tag).1.find? (fun t => !t.pred && t.port == 1) = some b) :
    exec (.reductionNodeFiring c ctx fr tag) s = .next (if Config.adderFault s.tick then reductionSdc s c ctx fr tag
      else noteReady (nodeSend (takeInputs s c ctx fr tag).2.2 c ctx 0 { joined s (takeInputs s c ctx fr tag).1 a with
        last := a.last && b.last, count := max a.count b.count
        payload := BitVec.ofNat 512 (reduceLanes (bits ((getCell s c).field ctx 7) 3 3) (bits ((getCell s c).field ctx 7) 0 3)
          (validPayload a) (validPayload b)) }) c) := by
  change execReductionNodeFiring c ctx fr tag s = _
  simp only [execReductionNodeFiring, hm, if_true, ha, h0, h1]
  rfl

/-- A counter's tokens sent one after the other: trigger, end of row, end of K. -/
def counterSends (s : State) (c ctx : Nat) (a : Token) (r : Nat × Bool × Option Nat × Option Nat × CounterSt) : State :=
  let word := fun v : Nat => ({ a with width := 0, count := 0, last := false, payload := BitVec.ofNat 512 (v % 2 ^ 32) } : Token)
  let s2 := nodeSend s c ctx 0 { a with itag := r.1 % 2 ^ 24, last := r.2.1 }
  let s3 := match r.2.2.1 with | some j => nodeSend s2 c ctx 1 (word j) | none => s2
  match r.2.2.2.1 with | some n => nodeSend s3 c ctx 2 (word n) | none => s3

theorem optional_toList {α β : Type} (p : Prop) [Decidable p] (f : α → β) (x : α) :
    ((if p then some x else none).map f).toList = if p then [f x] else [] := by
  split <;> rfl

theorem nodeSent_counterSends {cs : Table CounterSt} (h : NodeSent s t c ctx fr tag cs []) (a : Token)
    (r : Nat × Bool × Option Nat × Option Nat × CounterSt) :
    let word := fun v : Nat => ({ a with width := 0, count := 0, last := false, payload := BitVec.ofNat 512 (v % 2 ^ 32) } : Token)
    NodeSent s (counterSends t c ctx a r) c ctx fr tag cs ((0, { a with itag := r.1 % 2 ^ 24, last := r.2.1 }) ::
      (r.2.2.1.map fun j => (1, word j)).toList ++ (r.2.2.2.1.map fun n => (2, word n)).toList) := by
  obtain ⟨n, last, row, k, z⟩ := r
  have h0 := nodeSent_send h 0 { a with itag := n % 2 ^ 24, last := last }
  cases row with
  | none => cases k with
    | none => exact h0
    | some n => exact nodeSent_send h0 2 _
  | some j => cases k with
    | none => exact nodeSent_send h0 1 _
    | some n => exact nodeSent_send (nodeSent_send h0 1 _) 2 _

/-- COUNTER_FIRING (R109). -/
theorem counter_fires {a : Token} (hm : mayFire s c ctx fr tag 4 = true) (hf : (takeInputs s c ctx fr tag).1.head? = some a) :
    let z := counterOf (getCell s c) ctx fr
    let outer := bits ((getCell s c).field ctx 7) 24 24
    let row := z.i + 1 = z.inner
    let k := row ∧ z.j + 1 = outer
    let word := fun v : Nat => { a with width := 0, count := 0, last := false, payload := BitVec.ofNat 512 (v % 2 ^ 32) }
    ∃ t, exec (.counterFiring c ctx fr tag) s = .next t ∧
      NodeFires s t c ctx fr tag ((0, { a with itag := z.n % 2 ^ 24, last := decide row }) ::
        (if row then [(1, word z.j)] else []) ++ if k then [(2, word (z.n + 1))] else []) ∧
      tget {} (getCell t c).counters (ctx * 1024 + fr) =
        { z with i := if row then 0 else z.i + 1, j := if k then 0 else if row then z.j + 1 else z.j, n := z.n + 1
                 inner := if row then z.pending else z.inner } := by
  intro z outer row k word
  have hstep := counterStep_eq z outer
  have hsent := nodeSent_counterSends (nodeSent_counters (nodeSent_takeInputs s c ctx fr tag) fun cs => tset {} cs (ctx * 1024 + fr)
    (counterStep z outer).2.2.2.2) a (counterStep z outer)
  have hexec : exec (.counterFiring c ctx fr tag) s = .next (noteReady (counterSends (modCell (takeInputs s c ctx fr tag).2.2 c fun x =>
      { x with counters := tset {} x.counters (ctx * 1024 + fr) (counterStep z outer).2.2.2.2 }) c ctx a (counterStep z outer)) c) := by
    change execCounterFiring c ctx fr tag s = _
    simp only [execCounterFiring, hm, if_true, hf]
    rfl
  obtain ⟨hfires, hcs⟩ := hsent.fires (firing_none_of_mayFire hm)
  refine ⟨_, hexec, ?_, ?_⟩
  · rw [← optional_toList row (fun j => (1, word j)), ← optional_toList k (fun n => (2, word n))]
    rw [hstep] at hfires ⊢
    exact hfires
  · rw [hcs, tget_tset_self, hstep]

/-- Settles O49: a firing starts as `exec_firing_starts` says, a memory node ends as `memoryNode_ends` does, and what a fixed node sends is its
firing. -/
theorem firingsStart : Obligations.FiringsStart := by
  unfold Obligations.FiringsStart
  refine ⟨fun s c ctx fr tag => ?_, fun s c ctx fr tag a => ?_⟩
  · refine ⟨fun hm ha => ?_, fun i k hi hm ha => ?_, fun hm ha => ?_⟩
    · obtain ⟨hcfg, hctx, hframe, htag, hphase, hword, hins, hout, huid, hvals⟩ := newborn_fields s c ctx fr tag
      refine ⟨_, newborn s c ctx fr tag, exec_firing_starts hm ha, ?_, tookInputs_noteReady (tookInputs_putFiring ..), ?_, hcfg, hctx, hframe, htag, hphase,
        hword, hins, hout, huid, hvals⟩
      · rw [noteReady_frame, born_frame]
        rfl
      · simp
    · refine ⟨_, exec_firing_false hi hm ha, ?_, tookInputs_noteReady (tookInputs_takeInputs ..), ?_⟩
      · rw [noteReady_frame, takeInputs_frame]
      · have hnone : (getCell s c).firing = none := by
          rcases hi with ⟨-, rfl⟩ | ⟨-, rfl⟩ <;> exact firing_none_of_mayFire hm
        simpa [firing_takenCell] using hnone
    · have hends := memoryNode_ends s c ctx fr tag hm ha
      intro n
      have hn : n = (newborn s c ctx fr tag, born s c ctx fr tag) := newFiring_born s c ctx fr tag
      clear_value n
      subst hn
      exact hends
  · refine ⟨fun hm hf => ?_, fun hm hf => ?_, fun hm hf => ?_, fun hm => ⟨fun ha => ?_, fun ha h0 b h1 => ⟨fun hsdc => ?_, fun hsdc => ?_⟩⟩⟩
    · exact ⟨_, exec_steerFiring hm hf, ((nodeSent_send (nodeSent_takeInputs s c ctx fr tag) _ _).fires (firing_none_of_mayFire hm)).1⟩
    · exact ⟨_, exec_mergeFiring hm hf, ((nodeSent_send (nodeSent_takeInputs s c ctx fr tag) _ _).fires (firing_none_of_mayFire hm)).1⟩
    · exact counter_fires hm hf
    · exact ⟨_, exec_reductionNodeFiring_false hm ha, ((nodeSent_takeInputs s c ctx fr tag).fires (firing_none_of_mayFire hm)).1⟩
    · rw [exec_reductionNodeFiring hm ha h0 h1, if_pos hsdc]
    · rw [exec_reductionNodeFiring hm ha h0 h1, if_neg (by simp [hsdc])]
      exact ⟨_, rfl, ((nodeSent_send (nodeSent_takeInputs s c ctx fr tag) _ _).fires (firing_none_of_mayFire hm)).1⟩

end Sys2Proof.Machine
end

section
/-! The commit of an output buffer (R102, R116, R233, R239, R244, R250, R314). -/

namespace Sys2Proof.Machine
open Sys2Proof.Claims

variable {s t : State} {c : Nat} {f : Firing}

/-! ### The frame takes the report (R314) -/

/-- The frame of the firing has taken what the firing reports. -/
def reported (s : State) (f : Firing) : State := modFrame s f.cfg f.frame fun r => r.report f.rep

/-- What a change of one frame leaves of every frame. -/
theorem getFrame_modFrame_eq (s : State) (a n b m : Nat) (g : Frame → Frame) :
    getFrame (modFrame s a n g) b m = if b = a ∧ m = n ∧ (findCfg s a).isSome = true then g (getFrame s b m) else getFrame s b m := by
  have h := findCfg_modCfg s a b (fun c => { c with frames := tmod {} c.frames n g }) fun _ => rfl
  cases hb : findCfg s b with
  | none =>
    rw [hb, Option.map_none] at h
    have hno : ¬ (b = a ∧ m = n ∧ (findCfg s a).isSome = true) := by
      rintro ⟨rfl, -, hs⟩
      rw [hb] at hs
      cases hs
    rw [if_neg hno]
    simp only [getFrame, getCfg, modFrame, h, hb]
  | some k =>
    have hid : k.id = b := by simpa using List.find?_some hb
    rw [hb, Option.map_some, hid] at h
    by_cases hba : b = a
    · subst hba
      rw [if_pos rfl] at h
      by_cases hmn : m = n
      · subst hmn
        simp only [getFrame, getCfg, modFrame, h, hb, Option.getD_some, Cfg.frame, tget_tmod_self, Option.isSome_some, and_self, if_true]
      · simp only [getFrame, getCfg, modFrame, h, hb, Option.getD_some, Cfg.frame, tget_tmod_ne _ _ _ _ _ hmn, hmn, false_and, and_false, if_false]
    · rw [if_neg hba] at h
      simp only [getFrame, getCfg, modFrame, h, hb, hba, false_and, if_false]

/-- What a change of frames leaves of each configuration but its frames. -/
theorem getCfg_modFrame_asn (s : State) (a n b : Nat) (g : Frame → Frame) : (getCfg (modFrame s a n g) b).asn = (getCfg s b).asn := by
  have h := findCfg_modCfg s a b (fun c => { c with frames := tmod {} c.frames n g }) fun _ => rfl
  unfold getCfg modFrame
  rw [h]
  cases findCfg s b with
  | none => rfl
  | some k =>
    simp only [Option.map_some, Option.getD_some]
    split <;> rfl

theorem firingSrc_reported (s : State) (c : Nat) (f : Firing) : firingSrc (reported s f) c f = firingSrc s c f := by
  have h := getCfg_modFrame_asn s f.cfg f.frame f.cfg fun r => r.report f.rep
  unfold firingSrc
  rw [reported, h]
  rfl

theorem skipped_reported (s : State) (f : Firing) (a n : Nat) : (getFrame (reported s f) a n).skipped = (getFrame s a n).skipped := by
  rw [reported, getFrame_modFrame_eq]
  split <;> rfl

/-! ### The firing leaves its cell (R249) -/

/-- The issuer of what the entry at a place of the buffer sends. -/
def commitSrc (s : State) (c : Nat) (f : Firing) (n : Nat) : Src := { firingSrc s c f with pos := n, past := pastOut s c f }

/-- The entries have committed in order, after the frame took the report. -/
def committed (s : State) (c : Nat) (f : Firing) : State :=
  f.out.zipIdx.foldl (fun t e => commitEntry t c f (pastOut s c f) { firingSrc t c f with pos := e.2, past := pastOut s c f } e.1) (reported s f)

theorem commitAll_reported (s : State) (c : Nat) (f : Firing) : commitAll (reported s f) c f = committed s c f := rfl

/-- The firing is committing, and leaves its cell unless something waits to enter. -/
def leaves (t : State) (c : Nat) (f : Firing) : State := finishCommit (modCell t c fun x => { x with firing := some { f with phase := .committing } }) c

theorem exec_outputCommit (hev : Ev s .outputCommit c) (hf : (getCell s c).firing = some f) (hm : mayCommit s c f = true) :
    exec .outputCommit s = .next (leaves (committed s c f) c f) := by
  have harg : turnArg s = some c := by simp only [turnArg, hev]
  rw [← commitAll_reported]
  change execOutputCommit s = _
  simp only [execOutputCommit, harg, Option.bind_some, hf, Option.map_some, hm, if_true]
  rfl

theorem leaves_cases (t : State) (c : Nat) (f : Firing) :
    leaves t c f = if commitWaits t f.uid then modCell t c fun x => { x with firing := some { f with phase := .committing } }
      else noteReady (modCell (modCell t c fun x => { x with firing := some { f with phase := .committing } }) c fun x => { x with firing := none }) c := by
  unfold leaves finishCommit
  rw [getCell_modCell, if_pos rfl]
  by_cases h : commitWaits t f.uid = true
  · have h' : commitWaits (modCell t c fun x => { x with firing := some { f with phase := .committing } }) f.uid = true := h
    simp [h, h']
  · have h' : commitWaits (modCell t c fun x => { x with firing := some { f with phase := .committing } }) f.uid ≠ true := h
    simp [h, h']

/-- The cell alone changes as the firing leaves. -/
theorem leaves_frame (t : State) (c : Nat) (f : Firing) : leaves t c f = { t with cells := (leaves t c f).cells } := by
  rw [leaves_cases]
  split
  · simp only [modCell, setCell]
  · rw [noteReady_frame]
    rfl

/-- Of the cell only its firing changes, and the list of what is ready. -/
theorem getCell_leaves (t : State) (c : Nat) (f : Firing) :
    (getCell (leaves t c f) c).held = (getCell t c).held ∧ (getCell (leaves t c f) c).tokens = (getCell t c).tokens ∧
      (getCell (leaves t c f) c).firing = (if commitWaits t f.uid then some { f with phase := .committing } else none) ∧
      OtherCells t (leaves t c f) c := by
  rw [leaves_cases]
  split
  · exact ⟨by simp, by simp, by simp, fun d hd => by simp [hd]⟩
  · exact ⟨by simp, by simp, by simp, fun d hd => by rw [getCell_noteReady_ne _ hd]; simp [hd]⟩

/-- OUTPUT_COMMIT: the firing is gone, or waits for what it committed. -/
theorem leaves_firing (t : State) (c : Nat) (f : Firing) : (getCell (leaves t c f) c).firing = none ∨ commitWaits (leaves t c f) f.uid = true := by
  obtain ⟨-, -, hfir, -⟩ := getCell_leaves t c f
  by_cases h : commitWaits t f.uid = true
  · right
    rw [leaves_frame]
    exact h
  · left
    rw [hfir, if_neg h]

/-! ### Held registers at commit (R116, R142, R143) -/

/-- The pending work without the values on their way into register `k` of cell `c` (R117). -/
def dueFills (c k : Nat) (l : List Work) : List Work := l.filter fun x => match x with | .fill d j _ _ => !(d == c && j == k) | _ => true

theorem dropFill_eq (s : State) (c k : Nat) : dropFill s c k = { s with work := dueFills c k s.work } := by
  have hkeep : ∀ w : Work, (!match w with | .fill d j _ _ => d == c && j == k | _ => false) =
      match w with | .fill d j _ _ => !(d == c && j == k) | _ => true := fun w => by cases w <;> rfl
  unfold dropFill dueFills
  simp only [← hkeep]
  split
  · rfl
  · rename_i h
    have hall : ∀ w ∈ s.work, (!match w with | .fill d j _ _ => d == c && j == k | _ => false) = true := fun w hw => by
      rw [Bool.not_eq_true'] at *
      exact (List.any_eq_false.mp (Bool.eq_false_iff.mpr h)) w hw |> Bool.eq_false_iff.mpr
    rw [List.filter_eq_self.mpr hall]

/-- A register written at commit: the value on its way is gone, and the register of this cell alone changes. -/
theorem writeHeld_eq (s : State) (c k : Nat) (past : List Nat) (g : HeldReg → HeldReg) :
    writeHeld s c k past g = { s with
      work := dueFills c k s.work
      cells := (modCell s c fun y => { y with held := tmod {} y.held k fun h => { g h with past := past } }).cells } := by
  unfold writeHeld
  rw [dropFill_eq]
  rfl

/-! ### A buffer with at most one entry -/

theorem committed_nil (h : f.out = []) : committed s c f = reported s f := by
  rw [committed, h]
  rfl

theorem committed_single {e : Entry} (h : f.out = [e]) : committed s c f = commitEntry (reported s f) c f (pastOut s c f) (commitSrc s c f 0) e := by
  have hsrc := firingSrc_reported s c f
  rw [committed, h, commitSrc, ← hsrc]
  rfl

/-- The commit left the pending work `w` and the held registers `h` of the firing's cell, and nothing else changed but the frame's report and what
the cell sees. -/
def CommitsTo (s u : State) (c : Nat) (f : Firing) (w : List Work) (h : Table HeldReg) : Prop :=
  u = { s with cells := u.cells, cfgs := (reported s f).cfgs, work := w, views := u.views } ∧ (getCell u c).held = h ∧
    (getCell u c).tokens = (getCell s c).tokens ∧ OtherCells s u c ∧ OthersSee s u c

/-- A work item on which a committed firing does not wait. -/
def enters (uid : Nat) (w : Work) : Prop := ∀ s : State, commitWaits { s with work := [w] } uid = false

theorem commitWaits_of_mem {uid : Nat} (hs : commitWaits s uid = false) (h : ∀ x, x ∈ t.work → x ∈ s.work ∨ enters uid x) : commitWaits t uid = false := by
  refine List.any_eq_false.mpr fun x hx => ?_
  rcases h x hx with h | h
  · exact List.any_eq_false.mp hs x h
  · exact List.any_eq_false.mp (h s) x List.mem_cons_self

theorem commitsTo_leaves {w : List Work} {h : Table HeldReg} (hc : CommitsTo s (committed s c f) c f w h) (hs : commitWaits s f.uid = false)
    (hw : ∀ x, x ∈ w → x ∈ s.work ∨ enters f.uid x) :
    let t := leaves (committed s c f) c f
    t = { s with cells := t.cells, cfgs := t.cfgs, work := w, views := t.views } ∧ OthersSee s t c ∧ t.views = (committed s c f).views ∧
      (getCell t c).firing = none ∧ (getCell t c).held = h ∧ (getCell t c).tokens = (getCell s c).tokens ∧ OtherCells s t c ∧
      ∀ k, findCfg s f.cfg = some k → getFrame t f.cfg f.frame = (getFrame s f.cfg f.frame).report f.rep := by
  intro t
  obtain ⟨hst, hheld, htok, hoth, hsee⟩ := hc
  obtain ⟨hheld', htok', hfir, hoth'⟩ := getCell_leaves (committed s c f) c f
  have hframe : t = { committed s c f with cells := t.cells } := leaves_frame _ c f
  have hwork : (committed s c f).work = w := by rw [hst]
  have hcfgs : t.cfgs = (reported s f).cfgs := by rw [hframe, hst]
  have hwait : commitWaits (committed s c f) f.uid = false := commitWaits_of_mem hs (by rwa [hwork])
  refine ⟨?_, fun d hd => ?_, by rw [hframe], ?_, hheld'.trans hheld, htok'.trans htok, fun d hd => (hoth' d hd).trans (hoth d hd), fun k hk => ?_⟩
  · rw [hframe, hst]
  · rw [hframe]
    exact hsee d hd
  · rw [hfir, if_neg (by simp [hwait])]
  · have : getFrame t f.cfg f.frame = getFrame (reported s f) f.cfg f.frame := by
      unfold getFrame getCfg findCfg
      rw [hcfgs]
    rw [this, reported, getFrame_modFrame _ _ _ _ hk]

/-! ### What one entry leaves -/

theorem mem_of_tget_ne {α : Type} {d : α} {l : Table α} {k : Nat} (h : tget d l k ≠ d) : (k, tget d l k) ∈ l := by
  induction l with
  | nil => exact absurd rfl h
  | cons e l ih =>
    obtain ⟨j, v⟩ := e
    unfold tget at h ⊢
    split
    case isTrue hj => exact hj ▸ List.mem_cons_self
    case isFalse hj =>
      rw [if_neg hj] at h
      exact List.mem_cons_of_mem _ (ih h)

/-- A frame is active while a firing of it is on a cell (R98). -/
theorem frameActive_of_firing (hf : (getCell s c).firing = some f) : frameActive s f.cfg f.frame = true := by
  have hne : getCell s c ≠ {} := fun h => by rw [h] at hf; cases hf
  have hfir : (tget {} s.cells c).firing = some f := hf
  simp only [frameActive, Bool.or_eq_true]
  refine .inl (.inl (.inl (List.any_eq_true.mpr ⟨_, mem_of_tget_ne hne, ?_⟩)))
  simp [hfir]

/-- A token of an active frame that is not skipped enters the network (R98). -/
theorem sendToken_active {x : Token} (ha : frameActive s x.cfg x.frame = true) (hs : (getFrame s x.cfg x.frame).skipped = false) (d : Nat) :
    sendToken s d x = addWork s (if x.pred then .predicate d x else .token d x) := by
  simp only [sendToken, hs, Bool.false_and, ha, Bool.false_eq_true, if_false, if_true]

@[simp] theorem stamp_cfg (x : Token) (past : List Nat) : (x.stamp past).cfg = x.cfg := by unfold Token.stamp; split <;> rfl
@[simp] theorem stamp_frame (x : Token) (past : List Nat) : (x.stamp past).frame = x.frame := by unfold Token.stamp; split <;> rfl
@[simp] theorem stamp_pred (x : Token) (past : List Nat) : (x.stamp past).pred = x.pred := by unfold Token.stamp; split <;> rfl

/-- An entry that leaves the cells alone and adds `w` to the pending work. -/
theorem commitsTo_work {u : State} {w : List Work} (h : u = { reported s f with work := w }) : CommitsTo s u c f w (getCell s c).held := by
  subst h
  exact ⟨rfl, rfl, rfl, fun _ _ => rfl, fun _ _ => rfl⟩

/-- An entry that changes the held registers of the cell alone. -/
theorem commitsTo_held {u : State} {w : List Work} {v : Table (List View)} {h : Table HeldReg} (hv : ∀ d, d ≠ c → tget [] v d = getViews s d)
    (hu : u = { reported s f with work := w, views := v, cells := (modCell s c fun y => { y with held := h }).cells }) : CommitsTo s u c f w h := by
  have hcell : ∀ d, getCell u d = getCell (modCell s c fun y => { y with held := h }) d := fun d => by rw [hu]; rfl
  refine ⟨by rw [hu]; rfl, ?_, ?_, fun d hd => ?_, fun d hd => ?_⟩
  · rw [hcell, getCell_modCell, if_pos rfl]
  · rw [hcell, getCell_modCell, if_pos rfl]
  · rw [hcell, getCell_modCell, if_neg hd]
  · rw [hu]
    exact hv d hd

theorem commitEntry_held (s : State) (c : Nat) (f : Firing) (past : List Nat) (x : Src) (k : Nat) (v : Reg) :
    let u := commitEntry (reported s f) c f past x (.held k v)
    let h := tget {} (getCell s c).held k
    CommitsTo s u c f (dueFills c k s.work) (tset {} (getCell s c).held k { h with value := v, st := .full, err := false, past := past }) ∧
      getViews u c = [] := by
  intro u h
  have hu : u = { reported s f with
      work := dueFills c k s.work, views := (seeAll (reported s f) c).views
      cells := (modCell s c fun y => { y with
        held := tset {} (getCell s c).held k { h with value := v, st := .full, err := false, past := past } }).cells } := by
    change writeHeld (seeAll (reported s f) c) c k past _ = _
    rw [writeHeld_eq, seeAll_frame]
    rfl
  refine ⟨commitsTo_held (fun d hd => getViews_seeAll_ne (reported s f) hd) hu, ?_⟩
  rw [hu]
  exact getViews_seeAll (reported s f) c

theorem commitEntry_fill (s : State) (c : Nat) (f : Firing) (past : List Nat) (x : Src) (k : Nat) (v : Reg) (b : Bool) :
    let u := commitEntry (reported s f) c f past x (.fill k v b)
    let h := tget {} (getCell s c).held k
    CommitsTo s u c f (dueFills c k s.work ++ [.fill c k v b]) (tset {} (getCell s c).held k { h with st := .empty, err := false, past := past }) ∧
      u.views = s.views := by
  intro u h
  have hu : u = { reported s f with
      work := dueFills c k s.work ++ [.fill c k v b], views := s.views
      cells := (modCell s c fun y => { y with held := tset {} (getCell s c).held k { h with st := .empty, err := false, past := past } }).cells } := by
    change addWork (writeHeld (reported s f) c k past _) _ = _
    rw [writeHeld_eq]
    rfl
  exact ⟨commitsTo_held (fun _ _ => rfl) hu, by rw [hu]⟩

/-- HREC and HDROP at commit: the register of the cell as `g` leaves it. -/
theorem commitsTo_register {u : State} {k : Nat} {g : HeldReg → HeldReg}
    (hu : u = modCell (reported s f) c fun y => { y with held := tmod {} y.held k g }) :
    CommitsTo s u c f s.work (tset {} (getCell s c).held k (g (tget {} (getCell s c).held k))) ∧ u.views = s.views :=
  ⟨commitsTo_held (v := s.views) (fun _ _ => rfl) (hu.trans rfl), by rw [hu]; rfl⟩

theorem commitEntry_access {a : Acc} (hg : a.group = 0) (hp : a.pieces ≠ []) (hc : a.cnt = []) (s : State) (c : Nat) (f : Firing) (past : List Nat) (x : Src) :
    commitEntry (reported s f) c f past x (.access a) = { reported s f with work := s.work ++ [if a.op = 0 then .store a else .atomic a] } := by
  change commitAccess (reported s f) a = _
  simp only [commitAccess, hg, hc, hp, if_true, if_false, List.map_nil, List.sum_nil]
  rfl

theorem commitEntry_emit {x : Token} (hfir : (getCell s c).firing = some f) (hc : x.cfg = f.cfg) (hf : x.frame = f.frame)
    (hs : (getFrame s f.cfg f.frame).skipped = false) (past : List Nat) (y : Src) (r d : Nat) :
    commitEntry s c f past y (.emit r d x) = { s with
      work := s.work ++ [if x.pred then .predicate d (x.stamp past) else .token d (x.stamp past)] } := by
  have ha : frameActive s f.cfg f.frame = true := frameActive_of_firing hfir
  have hsend := sendToken_active (s := s) (x := x.stamp past) (by rwa [stamp_cfg, stamp_frame, hc, hf]) (by rwa [stamp_cfg, stamp_frame, hc, hf]) d
  rw [stamp_pred] at hsend
  simp only [commitEntry, hs, Bool.false_eq_true, if_false, hsend]
  rfl

/-- A done token whose access no close of the buffer is. -/
theorem commitEntry_done {x : Token} {a : Option Nat} (hs : (getFrame s f.cfg f.frame).skipped = false) (hc : a.bind (findClose f.out) = none)
    (past : List Nat) (y : Src) (d : Nat) (o : Bool) :
    commitEntry s c f past y (.done d x a o) = { s with work := s.work ++ [.done d y (x.stamp past) a o] } := by
  simp only [commitEntry, hs, Bool.false_eq_true, if_false, hc]
  rfl

/-! ### One entry commits and the firing leaves -/

theorem mem_dueFills {c k : Nat} {l : List Work} {x : Work} (h : x ∈ dueFills c k l) : x ∈ l := (List.mem_filter.mp h).1

theorem mem_append_enters {l : List Work} {w x : Work} {uid : Nat} (hl : ∀ x, x ∈ l → x ∈ s.work) (hw : enters uid w) (h : x ∈ l ++ [w]) :
    x ∈ s.work ∨ enters uid x := by
  rcases List.mem_append.mp h with h | h
  · exact .inl (hl x h)
  · rw [List.mem_singleton.mp h]
    exact .inr hw

theorem commits_one {w : List Work} {h : Table HeldReg} {P : Prop} (hev : Ev s .outputCommit c) (hf : (getCell s c).firing = some f)
    (hm : mayCommit s c f = true) (hs : commitWaits s f.uid = false) (hc : CommitsTo s (committed s c f) c f w h)
    (hw : ∀ x, x ∈ w → x ∈ s.work ∨ enters f.uid x) (hv : (committed s c f).views = s.views ∨ (P ∧ getViews (committed s c f) c = [])) :
    ∃ t, exec .outputCommit s = .next t ∧ t = { s with cells := t.cells, cfgs := t.cfgs, work := w, views := t.views } ∧ OthersSee s t c ∧
      (t.views = s.views ∨ (P ∧ getViews t c = [])) ∧ (getCell t c).firing = none ∧ (getCell t c).held = h ∧
      (getCell t c).tokens = (getCell s c).tokens ∧ OtherCells s t c ∧
      ∀ k, findCfg s f.cfg = some k → getFrame t f.cfg f.frame = (getFrame s f.cfg f.frame).report f.rep := by
  obtain ⟨hst, hsee, hviews, hrest⟩ := commitsTo_leaves hc hs hw
  refine ⟨_, exec_outputCommit hev hf hm, hst, hsee, ?_, hrest⟩
  rwa [getViews, hviews]

section
variable {e : Option Entry} {w : List Work} {h : Table HeldReg}

/-- What a buffer of at most one entry, neither a command nor a close, leaves of the pending work and of the cell's held registers. -/
def OneEntry (s : State) (c : Nat) (f : Firing) (e : Option Entry) (w : List Work) (h : Table HeldReg) : Prop :=
  let H := (getCell s c).held
  let past := pastOut s c f
  let put := fun (k : Nat) (r : HeldReg → HeldReg) => h = tset {} H k { r (tget {} H k) with past := past }
  (e = none ∧ w = s.work ∧ h = H) ∨
  (∃ k v, e = some (.held k v) ∧ w = dueFills c k s.work ∧ put k fun r => { r with value := v, st := .full, err := false }) ∨
  (∃ k v b, e = some (.fill k v b) ∧ w = dueFills c k s.work ++ [.fill c k v b] ∧ put k fun r => { r with st := .empty, err := false }) ∨
  (∃ k r, e = some (.hrec k r) ∧ w = s.work ∧ h = tset {} H k { tget {} H k with tag := r }) ∨
  (∃ k, e = some (.hdrop k true) ∧ w = s.work ∧ h = tset {} H k { tget {} H k with value := 0, st := .dropped, err := false }) ∨
  (∃ k, e = some (.hdrop k false) ∧ w = s.work ∧ h = H) ∨
  (∃ a, e = some (.access a) ∧ a.group = 0 ∧ a.pieces ≠ [] ∧ a.cnt = [] ∧ w = s.work ++ [if a.op = 0 then .store a else .atomic a] ∧ h = H) ∨
  (∃ r d x, e = some (.emit r d x) ∧ x.cfg = f.cfg ∧ x.frame = f.frame ∧ (getFrame s f.cfg f.frame).skipped = false ∧
    w = s.work ++ [if x.pred then .predicate d (x.stamp past) else .token d (x.stamp past)] ∧ h = H) ∨
  (∃ d x a o, e = some (.done d x a o) ∧ (getFrame s f.cfg f.frame).skipped = false ∧
    w = s.work ++ [.done d { firingSrc s c f with pos := 0, past := past } (x.stamp past) a o] ∧ h = H)

theorem committed_oneEntry (hf : (getCell s c).firing = some f) (hout : f.out = e.toList) (ho : OneEntry s c f e w h) :
    CommitsTo s (committed s c f) c f w h ∧ (∀ x, x ∈ w → x ∈ s.work ∨ enters f.uid x) ∧
      ((committed s c f).views = s.views ∨ ((∃ k v, e = some (.held k v)) ∧ getViews (committed s c f) c = [])) := by
  have hskip := skipped_reported s f f.cfg f.frame
  have hself : ∀ x, x ∈ s.work → x ∈ s.work ∨ enters f.uid x := fun x hx => .inl hx
  rcases ho with ⟨rfl, rfl, rfl⟩ | ⟨k, v, rfl, rfl, rfl⟩ | ⟨k, v, b, rfl, rfl, rfl⟩ | ⟨k, r, rfl, rfl, rfl⟩ | ⟨k, rfl, rfl, hh⟩ | ⟨k, rfl, rfl, rfl⟩ |
    ⟨a, rfl, hg, hp, hc, rfl, rfl⟩ | ⟨r, d, x, rfl, hxc, hxf, hs, rfl, rfl⟩ | ⟨d, x, a, o, rfl, hs, rfl, rfl⟩
  case inl =>
    rw [committed_nil hout]
    exact ⟨commitsTo_work rfl, hself, .inl rfl⟩
  all_goals rw [committed_single hout]
  · obtain ⟨hto, hviews⟩ := commitEntry_held s c f (pastOut s c f) (commitSrc s c f 0) k v
    exact ⟨hto, fun x hx => .inl (mem_dueFills hx), .inr ⟨⟨k, v, rfl⟩, hviews⟩⟩
  · obtain ⟨hto, hviews⟩ := commitEntry_fill s c f (pastOut s c f) (commitSrc s c f 0) k v b
    exact ⟨hto, fun x => mem_append_enters (fun x => mem_dueFills) (fun _ => rfl), .inl hviews⟩
  · obtain ⟨hto, hviews⟩ := commitsTo_register (s := s) (c := c) (f := f) (k := k) (g := fun h => { h with tag := r }) rfl
    exact ⟨hto, hself, .inl hviews⟩
  · obtain ⟨hto, hviews⟩ := commitsTo_register (s := s) (c := c) (f := f) (k := k) (g := droppedReg) rfl
    rw [hh]
    exact ⟨hto, hself, .inl hviews⟩
  · exact ⟨commitsTo_work rfl, hself, .inl rfl⟩
  · have he := commitEntry_access hg hp hc s c f (pastOut s c f) (commitSrc s c f 0)
    exact ⟨commitsTo_work he, fun x => mem_append_enters (fun x hx => hx) (fun _ => by split <;> rfl), .inl (by rw [he]; rfl)⟩
  · have he := commitEntry_emit (s := reported s f) (c := c) hf hxc hxf (hskip.trans hs) (pastOut s c f) (commitSrc s c f 0) r d
    exact ⟨commitsTo_work he, fun x => mem_append_enters (fun x hx => hx) (fun _ => by split <;> rfl), .inl (by rw [he]; rfl)⟩
  · have he := commitEntry_done (s := reported s f) (c := c) (f := f) (x := x) (a := a) (hskip.trans hs) (by rw [hout]; cases a <;> rfl)
      (pastOut s c f) (commitSrc s c f 0) d o
    exact ⟨commitsTo_work he, fun x => mem_append_enters (fun x hx => hx) (fun _ => rfl), .inl (by rw [he]; rfl)⟩

end

end Sys2Proof.Machine
end

section
/-! Commands and closes at commit: what enters the engines, and the barriers and tags that count it (R250, R257, R260, R262, R265, R274, R281, R345,
R391, R400). -/

namespace Sys2Proof.Machine
open Sys2Proof.Claims

variable {s t : State} {x : Src}

/-! ### Writes where no granule is uncorrectable and no checkpoint is active -/

/-- No granule is uncorrectable and no checkpoint is active (R441, R448). -/
def Calm (s : State) : Prop := s.poison = [] ∧ s.drains = []

theorem writeNat_frame (s : State) (pa n v : Nat) : writeNat s pa n v = { s with mem := (writeNat s pa n v).mem } := by
  induction n generalizing s pa v with
  | zero => rfl
  | succ n ih =>
    rw [writeNat, ih]
    rfl

theorem writeBits_frame (s : State) (b len v : Nat) : writeBits s b len v = { s with mem := (writeBits s b len v).mem } := writeNat_frame ..

/-- Pieces written one after the other. -/
def writeAll (s : State) (ps : List (Nat × Nat × Nat)) : State := ps.foldl (fun t p => writeBits t p.1 p.2.1 p.2.2) s

theorem writeAll_frame (s : State) (ps : List (Nat × Nat × Nat)) : writeAll s ps = { s with mem := (writeAll s ps).mem } := by
  unfold writeAll
  induction ps generalizing s with
  | nil => rfl
  | cons p ps ih => rw [List.foldl_cons, ih, writeBits_frame]

theorem touchedPoison_nil (h : s.poison = []) (ps : List (Nat × Nat × Nat)) : touchedPoison s ps = [] := by
  rw [touchedPoison, if_pos h]

theorem landPieces_calm (h : s.poison = []) (ps : List (Nat × Nat × Nat)) (w : Nat) : landPieces s ps w = (writeAll s ps, []) := by
  have hfold : ∀ (l : List (Nat × Nat × Nat)) (u : State), (l.foldl (fun (acc : State × List (Nat × Nat × Nat)) p =>
      if s.poison ≠ [] && poisonedBits acc.1 p.1 p.2.1 then
        (bboxEvent acc.1 (basinOfPa (p.1 / 8)) 3 16 0 0 0 0 0 (p.1 / 8) w, acc.2 ++ [p])
      else (writeBits acc.1 p.1 p.2.1 p.2.2, acc.2)) (u, [])) = (writeAll u l, []) := fun l => by
    induction l with
    | nil => exact fun u => rfl
    | cons p l ih =>
      intro u
      rw [List.foldl_cons, if_neg (by simp [h]), ih]
      rfl
  unfold landPieces
  simp only [touchedPoison_nil h, List.filter_nil, if_true]
  exact hfold ps s

/-- A write event lands, and is noted for those who need not have seen it. -/
theorem writePieces_calm (h : Calm s) (ps : List (Nat × Nat × Nat)) (w : Nat) (y : Src) :
    writePieces s ps w y = ({ writeAll s ps with views := noteViews s ps y }, []) := by
  obtain ⟨hp, hd⟩ := h
  have hdrain : ∀ l : List (Nat × Nat × Nat), l.foldl (fun s p => drainAll s p.1 p.2.1) s = s := fun l => by
    induction l with
    | nil => rfl
    | cons p l ih => rw [List.foldl_cons, drainAll, if_pos hd, ih]
  simp only [writePieces, hdrain, landPieces_calm hp]

/-! ### Barriers (R265) -/

theorem readWord_of_mem (h : t.mem = s.mem) (a : Nat) : readWord t a = readWord s a := by
  have hn : ∀ n a, readNat t a n = readNat s a n := fun n => by
    induction n with
    | zero => exact fun _ => rfl
    | succ n ih =>
      intro a
      rw [readNat, readNat, ih, memByte, memByte, h]
  exact hn 8 a

theorem readWord_lt (s : State) (a : Nat) : readWord s a < 2 ^ 64 := Nat.lt_pow_two_of_testBit _ fun i hi => by
  rw [readWord, testBit_readNat, decide_eq_false (by omega), Bool.false_and]

/-- A word read after two words in a row were written. -/
theorem readWord_writeAll {pa a b : Nat} (ha : a < 2 ^ 64) (hb : b < 2 ^ 64) :
    readWord (writeAll s [(pa * 8, 64, a), ((pa + 8) * 8, 64, b)]) pa = a ∧
      readWord (writeAll s [(pa * 8, 64, a), ((pa + 8) * 8, 64, b)]) (pa + 8) = b := by
  have hbit : ∀ p i, (readWord (writeAll s [(pa * 8, 64, a), ((pa + 8) * 8, 64, b)]) p).testBit i = (decide (i < 64) &&
      if (pa + 8) * 8 ≤ 8 * p + i ∧ 8 * p + i < (pa + 8) * 8 + 64 then b.testBit (8 * p + i - (pa + 8) * 8)
      else if pa * 8 ≤ 8 * p + i ∧ 8 * p + i < pa * 8 + 64 then a.testBit (8 * p + i - pa * 8) else memBit s (8 * p + i)) := fun p i => by
    rw [readWord, testBit_readNat, writeAll, List.foldl_cons, List.foldl_cons, List.foldl_nil, memBit_writeBits, memBit_writeBits]
  constructor
  · refine Nat.eq_of_testBit_eq fun i => ?_
    rw [hbit]
    by_cases hi : i < 64
    · rw [if_neg (by omega), if_pos (by omega), decide_eq_true hi, Bool.true_and]
      congr 1
      omega
    · rw [decide_eq_false hi, Bool.false_and, Nat.testBit_lt_two_pow (Nat.lt_of_lt_of_le ha (Nat.pow_le_pow_right (by omega) (by omega)))]
  · refine Nat.eq_of_testBit_eq fun i => ?_
    rw [hbit]
    by_cases hi : i < 64
    · rw [if_pos (by omega), decide_eq_true hi, Bool.true_and]
      congr 1
      omega
    · rw [decide_eq_false hi, Bool.false_and, Nat.testBit_lt_two_pow (Nat.lt_of_lt_of_le hb (Nat.pow_le_pow_right (by omega) (by omega)))]

theorem barWord_lt (p a n : Nat) : barWord p a n < 2 ^ 64 := by
  unfold barWord
  omega

theorem barSettle_lt {w0 w1 : Nat} (h : w0 < 2 ^ 64) : barSettle w0 w1 < 2 ^ 64 := by
  unfold barSettle
  dsimp only
  split
  · exact h
  · exact barWord_lt ..

/-- The words of a barrier to which bytes are added are words. -/
theorem barNext_lt {n w0 w1 : Nat} (h : w0 < 2 ^ 64) : (barNext 2 n w0 w1).1 < 2 ^ 64 ∧ (barNext 2 n w0 w1).2 < 2 ^ 64 := by
  refine ⟨barSettle_lt h, ?_⟩
  change (barPending w1 + n) % 2 ^ 36 < 2 ^ 64
  omega

theorem releaseWaits_frame (s : State) (pa p : Nat) : releaseWaits s pa p = { s with barWaits := (releaseWaits s pa p).barWaits } := by
  unfold releaseWaits
  split <;> rfl

theorem releases_frame (s : State) (pa : Nat) (g : Nat → Nat) (l : List Nat) :
    l.foldl (fun t i => releaseWaits t pa (g i)) s = { s with barWaits := (l.foldl (fun t i => releaseWaits t pa (g i)) s).barWaits } := by
  induction l generalizing s with
  | nil => rfl
  | cons i l ih => rw [List.foldl_cons, ih, releaseWaits_frame]

theorem notePast_frame (s : State) (pa k : Nat) (past : List Nat) :
    notePast s pa k past = { s with barNow := (notePast s pa k past).barNow, barPast := (notePast s pa k past).barPast } := by
  unfold notePast
  dsimp only
  split
  · split <;> rfl
  · split
    · split <;> rfl
    · rfl

theorem newPast_frame (s : State) (pa : Nat) : newPast s pa = { s with barNow := (newPast s pa).barNow, barPast := (newPast s pa).barPast } := by
  unfold newPast
  split <;> rfl

/-- An operation on a barrier writes its two words, and changes nothing else but who waits at it. -/
theorem barWrite_calm (h : Calm s) (op pa n w : Nat) (past : List Nat) :
    let q := barNext op n (readWord s pa) (readWord s (pa + 8))
    let r := barWrite s op pa n w past
    r.2 = [] ∧ r.1 = { s with
      mem := (writeAll s [(pa * 8, 64, q.1), ((pa + 8) * 8, 64, q.2)]).mem
      views := r.1.views, barWaits := r.1.barWaits, barPast := r.1.barPast, barNow := r.1.barNow } := by
  intro q r
  have hr : r = if op = 0 then (newPast (releaseWaits (writePieces s [(pa * 8, 64, q.1), ((pa + 8) * 8, 64, q.2)] w).1 pa 0) pa, []) else
      ((List.range (min 2 (barRounds op n (readWord s pa) (readWord s (pa + 8))))).foldl
        (fun t i => releaseWaits t pa ((barPhase (readWord s pa) + i + 1) % 256))
        (notePast (writePieces s [(pa * 8, 64, q.1), ((pa + 8) * 8, 64, q.2)] w).1 pa (barRounds op n (readWord s pa) (readWord s (pa + 8))) past), []) := by
    change (if (writePieces s [(pa * 8, 64, q.1), ((pa + 8) * 8, 64, q.2)] w).2 ≠ [] then _ else _) = _
    rw [if_neg (by rw [writePieces_calm h]; simp)]
  rw [hr, writePieces_calm h, writeAll_frame]
  split
  · refine ⟨rfl, ?_⟩
    rw [newPast_frame, releaseWaits_frame]
  · refine ⟨rfl, ?_⟩
    rw [releases_frame, notePast_frame]

/-- What bytes counted on a barrier leave. -/
theorem barBytes_calm (h : Calm s) (x : Src) (bar : Option (Nat × Nat)) (op n : Nat) (tag : Option Nat) :
    let t := barBytes s x bar op n tag
    t = { s with mem := t.mem, views := t.views, barWaits := t.barWaits, barPast := t.barPast, barNow := t.barNow } ∧
      (op = 2 → BarTakes s t bar op n) := by
  intro t
  cases bar with
  | none => exact ⟨rfl, fun _ _ => rfl⟩
  | some b =>
    obtain ⟨hr, hst⟩ := barWrite_calm h op b.1 n x.insn.toNat []
    have ht : t = (barWrite s op b.1 n x.insn.toNat).1 := if_pos hr
    have hmem : (barWrite s op b.1 n x.insn.toNat).1.mem = (writeAll s [(b.1 * 8, 64, (barNext op n (readWord s b.1) (readWord s (b.1 + 8))).1),
      ((b.1 + 8) * 8, 64, (barNext op n (readWord s b.1) (readWord s (b.1 + 8))).2)]).mem := by rw [hst]
    rw [ht]
    refine ⟨by rw [hmem]; exact hst, ?_⟩
    rintro rfl
    obtain ⟨h0, h1⟩ := barNext_lt (n := n) (w1 := readWord s (b.1 + 8)) (readWord_lt s b.1)
    obtain ⟨hw0, hw1⟩ := readWord_writeAll (s := s) (pa := b.1) h0 h1
    change (readWord _ b.1, readWord _ (b.1 + 8)) = _
    rw [readWord_of_mem hmem, readWord_of_mem hmem, hw0, hw1]

/-! ### Tags (R257, R261, R262) -/

theorem modTag_frame (s : State) (x : Src) (k : Nat) (g : Tag → Tag) :
    modTag s x k g = { s with ctls := (modTag s x k g).ctls, cfgs := (modTag s x k g).cfgs } := by
  unfold modTag
  split <;> rfl

theorem getTag_of {y : Src} (hc : t.ctls = s.ctls) (hf : t.cfgs = s.cfgs) (k : Nat) : getTag t y k = getTag s y k := by
  unfold getTag tagsOf getCtl getFrame getCfg findCfg
  rw [hc, hf]

/-- The tags of an issuer are there: those of a controller are, and those of a frame while its configuration lives. -/
def hasTags (s : State) (x : Src) : Prop := x.kind = 3 ∨ (findCfg s x.cfg).isSome = true

theorem getTag_modTag (hx : hasTags s x) (k j : Nat) (g : Tag → Tag) :
    getTag (modTag s x k g) x j = if j = k then g (getTag s x k) else getTag s x j := by
  unfold getTag tagsOf modTag
  by_cases h3 : x.kind = 3
  · simp only [h3, if_true, getCtl_modCtl]
    rw [tmod, tget_tset]
  · simp only [if_neg h3]
    rw [getFrame_modFrame_eq, if_pos ⟨rfl, rfl, hx.resolve_left h3⟩, tmod, tget_tset]

theorem hasTags_modTag (hx : hasTags s x) (k : Nat) (g : Tag → Tag) : hasTags (modTag s x k g) x := by
  rcases hx with h3 | hs
  · exact .inl h3
  · right
    unfold modTag
    split
    · exact hs
    · have h := findCfg_modCfg s x.cfg x.cfg (fun c => { c with frames := tmod {} c.frames x.frame fun r => { r with tags := tmod {} r.tags k g } })
        fun _ => rfl
      rw [modFrame, h, Option.isSome_map, hs]

theorem tagTakes_start (s : State) (x : Src) (k : Nat) (hc : t.ctls = (tagStart s x k).ctls) (hf : t.cfgs = (tagStart s x k).cfgs) :
    TagTakes s t x (some k) := fun hx => by
  rw [getTag_of hc hf, tagStart, getTag_modTag hx, if_pos rfl]

/-- TCLR: the tags of the mask are as if never issued. -/
theorem clearTags_frame (s : State) (x : Src) (m : Nat) : clearTags s x m = { s with ctls := (clearTags s x m).ctls, cfgs := (clearTags s x m).cfgs } := by
  unfold clearTags
  generalize maskTags m = l
  induction l generalizing s with
  | nil => rfl
  | cons k l ih => rw [List.foldl_cons, ih, modTag_frame]

theorem getTag_clearTags (hx : hasTags s x) (m : Nat) {k : Nat} (hk : k < 64) :
    getTag (clearTags s x m) x k = if bit m k then { getTag s x k with issued := false } else getTag s x k := by
  have hfold : ∀ (l : List Nat) (s : State), hasTags s x →
      getTag (l.foldl (fun s k => modTag s x k fun t => { t with issued := false }) s) x k =
        if k ∈ l then { getTag s x k with issued := false } else getTag s x k := fun l => by
    induction l with
    | nil => exact fun s _ => rfl
    | cons j l ih =>
      intro s hx
      rw [List.foldl_cons, ih _ (hasTags_modTag hx ..), getTag_modTag hx]
      by_cases hj : k = j
      · subst hj
        simp
      · simp [hj]
  have hmem : k ∈ maskTags m ↔ bit m k = true := by simp [maskTags, hk]
  rw [clearTags, hfold _ _ hx]
  simp only [hmem]

/-! ### What a job leaves as it starts and is settled (R257) -/

theorem calm_of (hp : t.poison = s.poison) (hd : t.drains = s.drains) (h : Calm s) : Calm t := ⟨hp.trans h.1, hd.trans h.2⟩

theorem barTakes_of {s' t' : State} {bar : Option (Nat × Nat)} {op n : Nat} (hs : s'.mem = s.mem) (ht : t'.mem = t.mem)
    (h : BarTakes s' t' bar op n) : BarTakes s t bar op n := by
  cases bar with
  | none => exact fun a => (congrArg (fun m => tget 0 m a) ht).symm.trans ((h a).trans (congrArg (fun m => tget 0 m a) hs))
  | some b =>
    unfold BarTakes at *
    simp only [readWord_of_mem hs, readWord_of_mem ht] at h
    exact h

/-- From `s` to `t` an engine counted jobs: on barriers and tags, and nowhere else. -/
def Counted (s t : State) : Prop :=
  t = { s with mem := t.mem, views := t.views, barWaits := t.barWaits, barPast := t.barPast, barNow := t.barNow, ctls := t.ctls, cfgs := t.cfgs }

theorem Counted.refl (s : State) : Counted s s := rfl

theorem Counted.trans {u : State} (h1 : Counted s t) (h2 : Counted t u) : Counted s u := by
  unfold Counted at *
  rw [h1] at h2
  exact h2

theorem Counted.calm (h : Counted s t) (hc : Calm s) : Calm t := calm_of (by rw [h]) (by rw [h]) hc

theorem counted_modTag (s : State) (x : Src) (k : Nat) (g : Tag → Tag) : Counted s (modTag s x k g) := by
  unfold Counted
  rw [modTag_frame]

theorem counted_barBytes (h : Calm s) (x : Src) (bar : Option (Nat × Nat)) (op n : Nat) (tag : Option Nat) : Counted s (barBytes s x bar op n tag) := by
  unfold Counted
  rw [(barBytes_calm h x bar op n tag).1]

theorem counted_jobSettle (h : Calm s) (j : CopyJob) : Counted s (jobSettle s j) := by
  unfold jobSettle
  split
  · exact (counted_barBytes h ..).trans (counted_modTag ..)
  · exact Counted.refl s

theorem jobStart_calm (h : Calm s) (j : CopyJob) :
    Counted s (jobStart s j) ∧ BarTakes s (jobStart s j) j.bar 2 j.bytes ∧ TagTakes s (jobStart s j) j.src (some j.tag) := by
  have hstart : Counted s (tagStart s j.src j.tag) := counted_modTag ..
  have hc := hstart.calm h
  obtain ⟨hst, hbar⟩ := barBytes_calm hc j.src j.bar 2 j.bytes (some j.tag)
  refine ⟨hstart.trans (counted_barBytes hc ..), barTakes_of (by rw [tagStart, modTag_frame]) rfl (hbar rfl), tagTakes_start s j.src j.tag ?_ ?_⟩
  · rw [jobStart, hst]
  · rw [jobStart, hst]

/-! ### Commands enter their engines (R102) -/

theorem enterJob_entered (h : Calm s) (j : CopyJob) : Entered s (enterJob s j) x s.work (.copy j) := by
  obtain ⟨hst, hbar, htag⟩ := jobStart_calm h j
  refine ⟨?_, htag, hbar⟩
  have hid : (jobStart s j).nextId = s.nextId := by rw [hst]
  have hwork : (jobStart s j).work = s.work := by rw [hst]
  change (jobStart s j).work ++ [.copy { j with id := (jobStart s j).nextId, started := true, st := .queued }] = _
  rw [hid, hwork]

/-- The jobs that SCANCEL names. -/
def cancelHit (x : Src) (m : Nat) (w : Work) : Bool := match w with | .copy j => sameIssuer x j.src && bit m j.tag | _ => false

/-- The pending work after SCANCEL: of the jobs it names only running ones are left, cancelled (R260). -/
def cancelKeep (x : Src) (m : Nat) (w : Work) : Option Work := match w with
  | .copy j => if cancelHit x m w then (match j.st with | .running _ => some (.copy { j with cancelled := true }) | _ => none) else some w
  | w => some w

theorem foldl_jobSettle (h : Calm s) (l : List CopyJob) : Counted s (l.foldl jobSettle s) := by
  induction l generalizing s with
  | nil => exact Counted.refl s
  | cons j l ih =>
    have hj := counted_jobSettle h j
    exact hj.trans (ih (hj.calm h))

theorem cancelJobs_counted (h : Calm s) (x : Src) (m : Nat) : Counted { s with work := s.work.filterMap (cancelKeep x m) } (cancelJobs s x m) := by
  have hkeep : (s.work.filterMap fun w => match w with
      | .copy j => if cancelHit x m w then (match j.st with | .running _ => some (.copy { j with cancelled := true }) | _ => none) else some w
      | w => some w) = s.work.filterMap (cancelKeep x m) := rfl
  have hc : Calm { s with work := s.work.filterMap (cancelKeep x m) } := h
  exact foldl_jobSettle hc _

/-- What SCANCEL keeps of a work item: an item it does not name as it is, a running job cancelled. -/
theorem cancelKeep_cases {m : Nat} {w v : Work} (h : cancelKeep x m w = some v) :
    (v = w ∧ cancelHit x m w = false) ∨
      ∃ i p, w = .copy i ∧ v = .copy { i with cancelled := true } ∧ i.st = .running p ∧ cancelHit x m v = true := by
  unfold cancelKeep at h
  split at h
  case h_1 i =>
    split at h
    case isTrue hhit =>
      split at h
      case h_1 p hp =>
        cases h
        exact .inr ⟨i, p, rfl, rfl, hp, hhit⟩
      case h_2 => cases h
    case isFalse hhit =>
      cases h
      exact .inl ⟨rfl, Bool.eq_false_iff.mpr hhit⟩
  case h_2 hne =>
    cases h
    refine .inl ⟨rfl, ?_⟩
    unfold cancelHit
    split
    · rename_i j
      exact absurd rfl (hne j)
    · rfl

theorem filter_cancelKeep (x : Src) (m : Nat) (l : List Work) :
    (l.filterMap (cancelKeep x m)).filter (fun y => !cancelHit x m y) = l.filter fun y => !cancelHit x m y := by
  induction l with
  | nil => rfl
  | cons w l ih =>
    cases hw : cancelKeep x m w with
    | none =>
      have hhit : cancelHit x m w = true := by
        by_contra hno
        unfold cancelKeep at hw
        split at hw
        · rw [if_neg hno] at hw
          cases hw
        · cases hw
      rw [List.filterMap_cons_none hw, ih, List.filter_cons_of_neg (by simp [hhit])]
    | some v =>
      rw [List.filterMap_cons_some hw]
      rcases cancelKeep_cases hw with ⟨rfl, hhit⟩ | ⟨i, p, rfl, rfl, -, hhit⟩
      · rw [List.filter_cons_of_pos (by simp [hhit]), List.filter_cons_of_pos (by simp [hhit]), ih]
      · have hhit' : cancelHit x m (.copy i) = true := hhit
        rw [List.filter_cons_of_neg (by simp [hhit]), List.filter_cons_of_neg (by simp [hhit']), ih]

theorem cancelJobs_entered (h : Calm s) (m : Nat) : Entered s (cancelJobs s x m) x s.work (.scancel m) := by
  have hwork : (cancelJobs s x m).work = s.work.filterMap (cancelKeep x m) := by rw [cancelJobs_counted h x m]
  unfold Entered
  rw [hwork]
  refine ⟨filter_cancelKeep x m s.work, fun j hj hhit => ?_⟩
  obtain ⟨w, hw, hkeep⟩ := List.mem_filterMap.mp hj
  rcases cancelKeep_cases hkeep with ⟨rfl, hno⟩ | ⟨i, p, rfl, hv, hp, -⟩
  · have hhit' : cancelHit x m (.copy j) = true := hhit
    rw [hhit'] at hno
    cases hno
  · cases hv
    exact ⟨rfl, p, i, hp, hw, rfl⟩

theorem clearTags_entered (s : State) (x : Src) (m : Nat) : Entered s (clearTags s x m) x s.work (.tclr m) :=
  ⟨by rw [clearTags_frame], fun _ hk hx => getTag_clearTags (.inr hx) m hk⟩

theorem enterMtx_entered (s : State) (x : Src) (m : MtxCmd) : Entered s (enterMtx s m) x s.work (.mtx m) := by
  refine ⟨rfl, ?_, fun g hg => ?_⟩
  · rw [enterMtx, getGrove_modGrove, if_pos rfl]
    rfl
  · rw [enterMtx, getGrove_modGrove, if_neg hg]
    rfl

theorem enterRel_entered (h : Calm s) (j : RelJob) : Entered s (enterRel s j) x s.work (.rel j) := by
  obtain ⟨hst, hbar⟩ := barBytes_calm h j.src j.bar 2 32 none
  cases hr : relPending j.op with
  | false =>
    simp only [Entered, enterRel, hr, Bool.false_eq_true, if_false]
    exact ⟨rfl, fun _ => rfl⟩
  | true =>
    simp only [Entered, enterRel, hr, if_true]
    refine ⟨?_, barTakes_of rfl rfl (hbar rfl)⟩
    rw [hst]
    rfl

/-- A job is counted on its tag, if it has one. -/
def tagged (s : State) (y : Src) (tag : Option Nat) : State := match tag with
  | some k => tagStart s y k
  | none => s

theorem tagged_frame (s : State) (y : Src) (tag : Option Nat) :
    tagged s y tag = { s with ctls := (tagged s y tag).ctls, cfgs := (tagged s y tag).cfgs } := by
  cases tag with
  | none => rfl
  | some k => exact modTag_frame ..

theorem tagTakes_tagged (s : State) (y : Src) (tag : Option Nat) (hc : t.ctls = (tagged s y tag).ctls) (hf : t.cfgs = (tagged s y tag).cfgs) :
    TagTakes s t y tag := by
  cases tag with
  | none => exact fun k => getTag_of hc hf k
  | some k => exact tagTakes_start s y k hc hf

theorem enterSort_entered (s : State) (x : Src) (j : SortJob) : Entered s (enterSort s j) x s.work (.sort j) := by
  refine ⟨?_, tagTakes_tagged s j.src j.tag rfl rfl⟩
  change (tagged s j.src j.tag).work ++ [.sort { j with id := (tagged s j.src j.tag).nextId }] = _
  rw [tagged_frame]

theorem enterDemand_entered (s : State) (x : Src) (d : Demand) : Entered s (enterDemand s d) x s.work (.demand d) := by
  refine ⟨?_, tagTakes_tagged s d.src d.tag rfl rfl⟩
  change (tagged s d.src d.tag).work ++ [.demand { d with id := (tagged s d.src d.tag).nextId }] = _
  rw [tagged_frame]

theorem definePlacement_get (s : State) (h : Nat) (desc : BitVec 512) (asn : Nat) (sizes : List Nat) (self k : Nat) :
    getPlacement (definePlacement s h desc asn sizes self) k =
      if k = h then { defd := true, asn := asn, desc := desc, sizes := sizes, self := self } else getPlacement s k := by
  rw [getPlacement, definePlacement, tget_tset]
  rfl

theorem defineSlot_get (s : State) (h : Nat) (block : BitVec 1024) (asn k : Nat) :
    getSlot (defineSlot s h block asn) k =
      if k = h then { defd := true, asn := asn, block := block, inst := 65535, finished := true } else getSlot s k := by
  rw [getSlot, defineSlot, tget_tset]
  rfl

theorem startSlot_get (s : State) (x : Src) (h : Nat) (foot : List Range) (k : Nat) :
    getSlot (startSlot s x h foot) k = if k = h then
      { getSlot s h with inst := ((getSlot s h).inst + 1) % 65536, finished := false, done := false, nf := 0 } else getSlot s k := by
  change tget {} (tset {} s.slots h _) k = _
  rw [tget_tset]
  rfl

theorem enterCmd_entered (h : Calm s) (x : Src) (k : Cmd) : Entered s (enterCmd s x k) x s.work k := by
  cases k with
  | copy j => exact enterJob_entered h j
  | scancel m => exact cancelJobs_entered h m
  | tclr m => exact clearTags_entered s x m
  | bar op pa n va => rfl
  | mtx m => exact enterMtx_entered s x m
  | rel j => exact enterRel_entered h j
  | sort j => exact enterSort_entered s x j
  | pdef n desc asn sizes self => exact ⟨rfl, definePlacement_get s n desc asn sizes self⟩
  | demand d => exact enterDemand_entered s x d
  | cdef n b asn => exact ⟨rfl, defineSlot_get s n b asn⟩
  | cstart n foot => exact ⟨startSlot_get s x n foot, rfl⟩

/-- A command that enters leaves every cell alone, and no granule uncorrectable. -/
theorem enterCmd_keeps (h : Calm s) (x : Src) (k : Cmd) : (enterCmd s x k).cells = s.cells ∧ Calm (enterCmd s x k) := by
  cases k with
  | copy j =>
    have hst := (jobStart_calm h j).1
    exact ⟨by change (jobStart s j).cells = _; rw [hst], hst.calm h⟩
  | scancel m =>
    have hst := cancelJobs_counted h x m
    exact ⟨by change (cancelJobs s x m).cells = _; rw [hst], hst.calm h⟩
  | tclr m => exact ⟨by change (clearTags s x m).cells = _; rw [clearTags_frame], calm_of (by change (clearTags s x m).poison = _; rw [clearTags_frame])
      (by change (clearTags s x m).drains = _; rw [clearTags_frame]) h⟩
  | bar op pa n va => exact ⟨rfl, h⟩
  | mtx m => exact ⟨rfl, h⟩
  | rel j =>
    have hst : Counted s (if relPending j.op then barBytes s j.src j.bar 2 32 else s) := by
      split
      · exact counted_barBytes h ..
      · exact Counted.refl s
    exact ⟨by change (if relPending j.op then barBytes s j.src j.bar 2 32 else s).cells = _; rw [hst], hst.calm h⟩
  | sort j =>
    have hst := tagged_frame s j.src j.tag
    exact ⟨by change (tagged s j.src j.tag).cells = _; rw [hst], by change Calm (tagged s j.src j.tag); rw [hst]; exact h⟩
  | pdef n desc asn sizes self => exact ⟨rfl, h⟩
  | demand d =>
    have hst := tagged_frame s d.src d.tag
    exact ⟨by change (tagged s d.src d.tag).cells = _; rw [hst], by change Calm (tagged s d.src d.tag); rw [hst]; exact h⟩
  | cdef n b asn => exact ⟨rfl, h⟩
  | cstart n foot => exact ⟨rfl, h⟩

/-- A close leaves for every owner of its region (R250). -/
theorem commitClose_calm (h : Calm s) (a : Acc) (bar : Option (Nat × Nat)) :
    let t := commitClose s a bar
    BarTakes s t bar 2 (pieceBytes a.pieces) ∧ t.cells = s.cells ∧ Calm t ∧
      t.work = s.work ++ (ownersOf a.pieces).map fun o =>
        .close a o a.src.itag bar (pieceBytes ((byOwner a.pieces).filter fun p => ownerOf (p.bit / 8) == o)) := by
  intro t
  obtain ⟨hst, hbar⟩ := barBytes_calm h a.src bar 2 (pieceBytes a.pieces) none
  have hc := (counted_barBytes h a.src bar 2 (pieceBytes a.pieces) none).calm h
  refine ⟨barTakes_of rfl rfl (hbar rfl), ?_, hc, ?_⟩
  · change (barBytes s a.src bar 2 (pieceBytes a.pieces)).cells = _
    rw [hst]
  · change (barBytes s a.src bar 2 (pieceBytes a.pieces)).work ++ _ = _
    rw [hst]

end Sys2Proof.Machine
end

section
/-! A whole buffer commits: commands and closes after the report, registers as the entries leave them in their order, and what entries send in
their order (R102, R141, R197, R248). -/

namespace Sys2Proof.Machine
open Sys2Proof.Claims

variable {s t : State} {c : Nat} {f : Firing}

/-! ### A command or a close alone in the buffer -/

/-- A report leaves every tag as it is. -/
theorem getTag_reported (s : State) (f : Firing) (y : Src) (k : Nat) : getTag (reported s f) y k = getTag s y k := by
  unfold getTag tagsOf
  split
  · rfl
  · rw [reported, getFrame_modFrame_eq]
    split <;> rfl

theorem findCfg_reported (s : State) (f : Firing) (n : Nat) : (findCfg (reported s f) n).isSome = (findCfg s n).isSome := by
  have h := findCfg_modCfg s f.cfg n (fun c => { c with frames := tmod {} c.frames f.frame fun r => r.report f.rep }) fun _ => rfl
  rw [reported, modFrame, h, Option.isSome_map]

theorem tagTakes_reported {s1 t1 : State} {y : Src} {tag : Option Nat} (hc : s1.ctls = s.ctls) (hf : s1.cfgs = (reported s f).cfgs)
    (htc : t.ctls = t1.ctls) (htf : t.cfgs = t1.cfgs) (h : TagTakes s1 t1 y tag) : TagTakes s t y tag := by
  have hsrc : ∀ k, getTag s1 y k = getTag s y k := fun k => (getTag_of (s := reported s f) hc hf k).trans (getTag_reported s f y k)
  cases tag with
  | none => exact fun k => by rw [getTag_of htc htf, h k, hsrc]
  | some k =>
    intro hx
    have hfind : (findCfg s1 y.cfg).isSome = (findCfg s y.cfg).isSome := by
      rw [← findCfg_reported s f]
      unfold findCfg
      rw [hf]
    rw [getTag_of htc htf, h (by rwa [hfind]), hsrc]

/-- What a command does as it enters is the same seen from before the report, and after the firing left. -/
theorem entered_of {x : Src} {k : Cmd} {t1 : State} {cs ct : Table Cell} {w : List Work}
    (h : Entered { reported s f with cells := cs, work := w } t1 x w k) : Entered s { t1 with cells := ct } x w k := by
  have htag : ∀ y tag, TagTakes { reported s f with cells := cs, work := w } t1 y tag → TagTakes s { t1 with cells := ct } y tag :=
    fun y tag => tagTakes_reported (f := f) rfl rfl rfl rfl
  cases k with
  | copy j =>
    obtain ⟨hwork, ht, hb⟩ := h
    exact ⟨hwork, htag _ _ ht, barTakes_of rfl rfl hb⟩
  | scancel m => exact h
  | tclr m =>
    obtain ⟨hwork, ht⟩ := h
    refine ⟨hwork, fun k hk hx => ?_⟩
    have hsrc : getTag { reported s f with cells := cs, work := w } x k = getTag s x k :=
      (getTag_of (s := reported s f) rfl rfl k).trans (getTag_reported s f x k)
    refine (getTag_of (s := t1) rfl rfl k).trans ((ht k hk ((findCfg_reported s f _).trans hx)).trans ?_)
    rw [hsrc]
  | bar op pa n va => exact h
  | mtx m => exact h
  | rel j =>
    obtain ⟨hwork, hb⟩ := h
    refine ⟨hwork, ?_⟩
    cases hr : relPending j.op with
    | false =>
      simp only [hr, Bool.false_eq_true, if_false] at hb ⊢
      exact hb
    | true =>
      simp only [hr, if_true] at hb ⊢
      exact barTakes_of rfl rfl hb
  | sort j => exact ⟨h.1, htag _ _ h.2⟩
  | pdef n desc asn sizes self => exact h
  | demand d => exact ⟨h.1, htag _ _ h.2⟩
  | cdef n b asn => exact h
  | cstart n foot => exact h

/-- A command enters after its held result, if any, changed the cell and the pending work. -/
theorem entering_leaves {x : Src} {k : Cmd} {cs : Table Cell} {w : List Work} (hc : Calm s)
    (hu : committed s c f = enterCmd { reported s f with cells := cs, work := w } x k) :
    let t := leaves (committed s c f) c f
    Entered s t x w k ∧ (getCell t c).tokens = (tget {} cs c).tokens ∧ (∀ d, d ≠ c → getCell t d = tget {} cs d) ∧
      (getCell t c).held = (tget {} cs c).held := by
  have hcalm : Calm { reported s f with cells := cs, work := w } := hc
  have hcells := (enterCmd_keeps hcalm x k).1
  have hget : ∀ d, getCell (committed s c f) d = tget {} cs d := fun d => by rw [hu, getCell, hcells]
  obtain ⟨hheld, htok, -, hoth⟩ := getCell_leaves (committed s c f) c f
  refine ⟨?_, by rw [htok, hget], fun d hd => by rw [hoth d hd, hget], by rw [hheld, hget]⟩
  rw [leaves_frame, hu]
  exact entered_of (enterCmd_entered hcalm x k)

/-- A command alone in the buffer enters its engine, and its held result becomes EMPTY. -/
theorem commits_cmd {k : Cmd} {h : Option Nat} (hev : Ev s .outputCommit c) (hf : (getCell s c).firing = some f) (hm : mayCommit s c f = true)
    (hc : Calm s) : f.out = [.cmd k h] →
    ∃ t, exec .outputCommit s = .next t ∧
      Entered s t (commitSrc s c f 0) (match h with | some n => dueFills c n s.work | none => s.work) (k.stamp (pastOut s c f)) ∧
      (getCell t c).tokens = (getCell s c).tokens ∧ OtherCells s t c ∧ (getCell t c).held = match h with
        | some n => tset {} (getCell s c).held n { tget {} (getCell s c).held n with st := .empty, err := false, past := pastOut s c f }
        | none => (getCell s c).held := by
  intro hout
  refine ⟨_, exec_outputCommit hev hf hm, ?_⟩
  cases h with
  | none => exact entering_leaves (cs := s.cells) hc (committed_single hout)
  | some n =>
    have hu : committed s c f = enterCmd (writeHeld (reported s f) c n (pastOut s c f) fun r => { r with st := .empty, err := false })
        (commitSrc s c f 0) (k.stamp (pastOut s c f)) := committed_single hout
    rw [writeHeld_eq] at hu
    obtain ⟨hent, htok, hoth, hheld⟩ := entering_leaves hc hu
    have hget := fun d => getCell_modCell (reported s f) c d fun y => { y with held := tmod {} y.held n fun h =>
      { h with st := .empty, err := false, past := pastOut s c f } }
    unfold getCell at hget
    have hself := (hget c).trans (if_pos rfl)
    have hselfTok := congrArg Cell.tokens hself
    have hselfHeld := congrArg Cell.held hself
    exact ⟨hent, htok.trans hselfTok, fun d hd => (hoth d hd).trans ((hget d).trans (if_neg hd)), hheld.trans hselfHeld⟩

/-- A close alone in the buffer leaves for the owners of its region (R250). -/
theorem commits_close {a : Acc} {bar : Option (Nat × Nat)} (hev : Ev s .outputCommit c) (hf : (getCell s c).firing = some f) (hm : mayCommit s c f = true)
    (hc : Calm s) (hout : f.out = [.close a bar]) :
    ∃ t, exec .outputCommit s = .next t ∧ BarTakes s t bar 2 (pieceBytes a.pieces) ∧ OtherCells s t c ∧
      t.work = s.work ++ (ownersOf a.pieces).map fun o =>
        .close a o a.src.itag bar (pieceBytes ((byOwner a.pieces).filter fun p => ownerOf (p.bit / 8) == o)) := by
  have hu : committed s c f = commitClose (reported s f) a bar := committed_single hout
  have hcalm : Calm (reported s f) := hc
  obtain ⟨hbar, hcells, -, hwork⟩ := commitClose_calm hcalm a bar
  obtain ⟨-, -, -, hoth⟩ := getCell_leaves (committed s c f) c f
  refine ⟨_, exec_outputCommit hev hf hm, ?_, fun d hd => ?_, ?_⟩
  · rw [leaves_frame, hu]
    exact barTakes_of rfl rfl hbar
  · rw [hoth d hd, hu, getCell, hcells]
    rfl
  · rw [leaves_frame, hu]
    exact hwork

/-! ### Registers, as the entries leave them in their order (R141) -/

/-- Register `k` of the cell stands as the view `v` of it says, but for what precedes its readers; after a command or a value on its way only
the tag is said. -/
def Stands (h : HeldReg) (v : HeldReg × Own) : Prop :=
  h.tag = v.1.tag ∧ ((v.2 = .none ∨ v.2 = .write ∨ v.2 = .drop) → { h with past := [] } = { v.1 with past := [] })

/-- Where an entry names the register it is changed, and elsewhere it stands as before. -/
theorem stands_if {p q : Prop} [Decidable p] [Decidable q] {h h' : HeldReg} {v v' : HeldReg × Own} (hpq : p ↔ q) (hs : Stands h v)
    (hn : p → Stands h' v') : Stands (if p then h' else h) (if q then v' else v) := by
  by_cases hp : p
  · rw [if_pos hp, if_pos (hpq.mp hp)]
    exact hn hp
  · rw [if_neg hp, if_neg fun hq => hp (hpq.mpr hq)]
    exact hs

/-- What the start of a frame makes of a cell (R98). -/
def startCell (cfg fr : Nat) (x : Cell) : Cell :=
  if x.cfg = cfg then
    { x with
      sources := x.sources ++ x.sourceCtxs.map fun k => (k, fr)
      passed := x.passed ++ (x.sourceCtxs.filter fun k => !x.passed.any fun p => (p.1, p.2.1, p.2.2.1) == (k, fr, 0)).map fun k => (k, fr, 0, 0)
      counters := x.counters.filter fun q => q.1 % 1024 ≠ fr }
  else x

theorem startCell_default (cfg fr : Nat) : startCell cfg fr {} = {} := by
  have hsrc : ({} : Cell).sourceCtxs = [] := by decide
  unfold startCell
  split
  · rw [hsrc]
    rfl
  · rfl

theorem getCell_startFrame (s : State) (cfg fr c : Nat) : getCell (startFrame s cfg fr) c = startCell cfg fr (getCell s c) := by
  have hcells : (startFrame s cfg fr).cells = tmap {} (startCell cfg fr) s.cells := rfl
  rw [getCell, hcells, tget_tmap _ _ (startCell_default cfg fr)]
  rfl

/-- A token that enters the network changes no held register, and no granule. -/
theorem sendToken_held (s : State) (d : Nat) (x : Token) (c : Nat) : (getCell (sendToken s d x) c).held = (getCell s c).held := by
  unfold sendToken
  dsimp only
  split
  · rfl
  · split
    · rfl
    · split
      · split <;> rfl
      · change (getCell (startFrame s x.cfg x.frame) c).held = _
        rw [getCell_startFrame, startCell]
        split <;> rfl

theorem sendToken_calm (h : Calm s) (d : Nat) (x : Token) : Calm (sendToken s d x) := by
  unfold sendToken
  dsimp only
  split
  · exact h
  · split
    · exact h
    · split
      · split <;> exact h
      · exact h

/-- Register `k` after another, or this one, was changed. -/
theorem held_modified (s : State) (c j k : Nat) (g : HeldReg → HeldReg) :
    tget {} (getCell (modCell s c fun y => { y with held := tmod {} y.held j g }) c).held k =
      if k = j then g (tget {} (getCell s c).held k) else tget {} (getCell s c).held k := by
  rw [getCell_modCell, if_pos rfl]
  change tget {} (tmod {} (getCell s c).held j g) k = _
  rw [tmod, tget_tset]
  split
  · subst k; rfl
  · rfl

theorem held_writeHeld (s : State) (c j k : Nat) (past : List Nat) (g : HeldReg → HeldReg) :
    tget {} (getCell (writeHeld s c j past g) c).held k =
      if k = j then { g (tget {} (getCell s c).held k) with past := past } else tget {} (getCell s c).held k := by
  rw [writeHeld_eq]
  exact held_modified s c j k fun h => { g h with past := past }

theorem calm_writeHeld (h : Calm s) (c j : Nat) (past : List Nat) (g : HeldReg → HeldReg) : Calm (writeHeld s c j past g) := by
  rw [writeHeld_eq]
  exact h

theorem countNonFinite_frame (s : State) (x : Src) (place n : Nat) : countNonFinite s x place n = { s with
    cfgs := (countNonFinite s x place n).cfgs, placement := (countNonFinite s x place n).placement } := by
  unfold countNonFinite
  split
  · unfold countHandle
    split <;> rfl
  · rfl

theorem commitAccess_frame (s : State) (a : Acc) :
    commitAccess s a = { s with cfgs := (commitAccess s a).cfgs, placement := (commitAccess s a).placement, work := (commitAccess s a).work } := by
  have hcount : ∀ n, (if n = 0 then s else countNonFinite s a.src (recOf a.rcd).place n) = { s with
      cfgs := (if n = 0 then s else countNonFinite s a.src (recOf a.rcd).place n).cfgs
      placement := (if n = 0 then s else countNonFinite s a.src (recOf a.rcd).place n).placement } := fun n => by
    split
    · rfl
    · exact countNonFinite_frame ..
  unfold commitAccess
  split
  · dsimp only
    rw [hcount]
    split <;> rfl
  · rfl

/-- Each entry leaves the register as it leaves the view of it. -/
theorem commitEntry_stands {k : Nat} {v : HeldReg × Own} (hc : Calm s) (past : List Nat) (x : Src) (e : Entry)
    (h : Stands (tget {} (getCell s c).held k) v) :
    Stands (tget {} (getCell (commitEntry s c f past x e) c).held k) (viewEntry k v e) ∧ Calm (commitEntry s c f past x e) := by
  have ⟨htag, heq⟩ := h
  have hsame : ∀ {t : State}, (getCell t c).held = (getCell s c).held → Stands (tget {} (getCell t c).held k) v := fun ht => by rwa [ht]
  cases e with
  | access a =>
    have hst := commitAccess_frame s a
    exact ⟨hsame (by change (getCell (commitAccess s a) c).held = _; rw [hst]; rfl), by change Calm (commitAccess s a); rw [hst]; exact hc⟩
  | emit r d y =>
    cases hk : (getFrame s f.cfg f.frame).skipped with
    | true =>
      simp only [commitEntry, hk, if_true]
      exact ⟨hsame rfl, hc⟩
    | false =>
      simp only [commitEntry, hk, Bool.false_eq_true, if_false]
      exact ⟨hsame (sendToken_held ..), sendToken_calm hc ..⟩
  | held j y =>
    refine ⟨?_, calm_writeHeld (by rw [seeAll_frame]; exact hc) ..⟩
    change Stands (tget {} (getCell (writeHeld (seeAll s c) c j past _) c).held k) (if j = k then _ else _)
    rw [held_writeHeld, getCell_seeAll]
    exact stands_if eq_comm h fun _ => ⟨htag, fun _ => by simpa using htag⟩
  | fill j y b =>
    refine ⟨?_, calm_writeHeld hc c j past fun h => { h with st := .empty, err := false }⟩
    change Stands (tget {} (getCell (writeHeld s c j past _) c).held k) (if j = k then _ else _)
    rw [held_writeHeld]
    exact stands_if eq_comm h fun _ => ⟨htag, fun h => by simp at h⟩
  | hrec j y =>
    refine ⟨?_, hc⟩
    change Stands (tget {} (getCell (modCell s c fun y' => { y' with held := tmod {} y'.held j fun h => { h with tag := y } }) c).held k)
      (if j = k then _ else _)
    rw [held_modified]
    exact stands_if eq_comm h fun _ => ⟨rfl, fun h => congrArg (fun r : HeldReg => { r with tag := y }) (heq h)⟩
  | hdrop j eff =>
    cases eff with
    | false =>
      change Stands (tget {} (getCell s c).held k) (if (decide (j = k) && false) = true then _ else _) ∧ Calm s
      rw [Bool.and_false, if_neg Bool.false_ne_true]
      exact ⟨h, hc⟩
    | true =>
      refine ⟨?_, hc⟩
      change Stands (tget {} (getCell (modCell s c fun y' => { y' with held := tmod {} y'.held j droppedReg }) c).held k)
        (if (decide (j = k) && true) = true then _ else _)
      rw [held_modified]
      exact stands_if (by simp [eq_comm]) h fun _ => ⟨htag, fun _ => by simpa [droppedReg] using htag⟩
  | done d y a o =>
    cases hk : (getFrame s f.cfg f.frame).skipped with
    | true =>
      simp only [commitEntry, hk, if_true]
      exact ⟨hsame rfl, hc⟩
    | false =>
      simp only [commitEntry, hk, Bool.false_eq_true, if_false]
      split <;> exact ⟨hsame rfl, hc⟩
  | close a bar =>
    obtain ⟨-, hcells, hcalm, -⟩ := commitClose_calm hc a bar
    exact ⟨hsame (by rw [getCell]; exact congrArg (fun t => (tget {} t c).held) hcells), hcalm⟩
  | cmd y n =>
    have henter : ∀ {t : State}, Calm t → (getCell (enterCmd t x (y.stamp past)) c).held = (getCell t c).held ∧ Calm (enterCmd t x (y.stamp past)) :=
      fun {t} ht => by
        obtain ⟨hcells, hcalm⟩ := enterCmd_keeps ht x (y.stamp past)
        exact ⟨by rw [getCell, hcells]; rfl, hcalm⟩
    cases n with
    | none =>
      obtain ⟨hheld, hcalm⟩ := henter hc
      exact ⟨hsame hheld, hcalm⟩
    | some j =>
      obtain ⟨hheld, hcalm⟩ := henter (calm_writeHeld hc c j past fun r => { r with st := .empty, err := false })
      refine ⟨?_, hcalm⟩
      change Stands (tget {} (getCell (enterCmd _ x (y.stamp past)) c).held k) (if j = k then _ else _)
      rw [hheld, held_writeHeld]
      exact stands_if eq_comm h fun _ => ⟨htag, fun h => by simp at h⟩

theorem committed_stands (s : State) (c : Nat) (f : Firing) (k : Nat) (hc : Calm s) :
    Stands (tget {} (getCell (committed s c f) c).held k) (heldView (getCell s c) f k) := by
  have hfold : ∀ (l : List Entry) (n : Nat) (t : State) (v : HeldReg × Own), Calm t → Stands (tget {} (getCell t c).held k) v →
      Stands (tget {} (getCell ((l.zipIdx n).foldl (fun t e => commitEntry t c f (pastOut s c f)
        { firingSrc t c f with pos := e.2, past := pastOut s c f } e.1) t) c).held k) (l.foldl (viewEntry k) v) := fun l => by
    induction l with
    | nil => exact fun _ _ _ _ h => h
    | cons e l ih =>
      intro n t v ht h
      obtain ⟨hs, hcalm⟩ := commitEntry_stands (f := f) ht (pastOut s c f) { firingSrc t c f with pos := n, past := pastOut s c f } e h
      exact ih (n + 1) _ _ hcalm hs
  exact hfold f.out 0 (reported s f) _ hc ⟨rfl, fun _ => rfl⟩

/-! ### What entries send, in their order (R197, R248) -/

/-- After the report and some entries: what they sent is `w`, in the firing's own frame, and the cell is as the entries that follow find it. -/
def Sent (s t : State) (c : Nat) (f : Firing) (w : List Work) : Prop :=
  t = { s with cells := t.cells, cfgs := t.cfgs, placement := t.placement, work := s.work ++ w } ∧ (getCell t c).firing = some f ∧
    firingSrc t c f = firingSrc s c f ∧ OtherCells s t c ∧ (getFrame t f.cfg f.frame).skipped = false

/-- One entry sends its work. -/
theorem Sent.work {t u : State} {w v : List Work} (h : Sent s t c f w) (hu : u = { t with work := t.work ++ v }) : Sent s u c f (w ++ v) := by
  obtain ⟨hst, hfir, hsrc, hoth, hskip⟩ := h
  subst hu
  refine ⟨?_, hfir, hsrc, hoth, hskip⟩
  rw [← List.append_assoc]
  conv_lhs => rw [hst]

/-- HREC and HDROP send nothing. -/
theorem Sent.held {t : State} {w : List Work} (h : Sent s t c f w) (g : Table HeldReg → Table HeldReg) :
    Sent s (modCell t c fun y => { y with held := g y.held }) c f w := by
  obtain ⟨hst, hfir, hsrc, hoth, hskip⟩ := h
  refine ⟨?_, by rw [getCell_modCell, if_pos rfl]; exact hfir, ?_, fun d hd => by rw [getCell_modCell, if_neg hd, hoth d hd], hskip⟩
  · rw [hst]
    rfl
  · rw [← hsrc]
    unfold firingSrc
    rw [getCell_modCell, if_pos rfl]
    rfl

/-- The count of non-finite elements is on the frame or the handle, and nowhere else (R241). -/
theorem Sent.counted {t : State} {w : List Work} (h : Sent s t c f w) (x : Src) (place n : Nat) : Sent s (countNonFinite t x place n) c f w := by
  obtain ⟨hst, hfir, hsrc, hoth, hskip⟩ := h
  unfold countNonFinite
  split
  · unfold countHandle
    split
    · exact ⟨hst, hfir, hsrc, hoth, hskip⟩
    · refine ⟨?_, hfir, hsrc, hoth, hskip⟩
      rw [hst]
  · refine ⟨?_, hfir, ?_, hoth, ?_⟩
    · rw [hst]
      rfl
    · rw [← hsrc]
      unfold firingSrc
      rw [getCfg_modFrame_asn]
      rfl
    · rw [getFrame_modFrame_eq]
      split <;> exact hskip

/-- A store, an atomic or contributions enter the pending work. -/
theorem Sent.access {t : State} {w : List Work} (h : Sent s t c f w) (a : Acc) (n : Nat) :
    Sent s (commitAccess t a) c f (w ++ entryWork s c f (.access a, n)) := by
  unfold commitAccess entryWork
  by_cases hg : a.group = 0
  · have hcount : Sent s (if (a.cnt.map fun q => q.2.1).sum = 0 then t else
        countNonFinite t a.src (recOf a.rcd).place (a.cnt.map fun q => q.2.1).sum) c f w := by
      split
      · exact h
      · exact h.counted ..
    rw [if_pos hg]
    simp only [hg, ne_eq, not_true_eq_false, if_false]
    by_cases hp : a.pieces = []
    · simp only [hp, if_true, List.append_nil]
      exact hcount
    · simp only [if_neg hp]
      exact hcount.work rfl
  · rw [if_neg hg]
    simp only [ne_eq, hg, not_false_eq_true, if_true]
    exact h.work rfl

theorem Sent.entry {t : State} {w : List Work} (h : Sent s t c f w) {e : Entry} (he : sends f e = true) (hclose : ∀ id, findClose f.out id = none) (n : Nat) :
    Sent s (commitEntry t c f (pastOut s c f) { firingSrc t c f with pos := n, past := pastOut s c f } e) c f (w ++ entryWork s c f (e, n)) := by
  have ⟨hst, hfir, hsrc, hoth, hskip⟩ := h
  cases e with
  | access a => exact h.access a n
  | emit r d y =>
    unfold sends at he
    simp only [Bool.and_eq_true, beq_iff_eq] at he
    rw [commitEntry_emit hfir he.1 he.2 hskip]
    exact h.work rfl
  | done d y a o =>
    rw [commitEntry_done hskip (by cases a with | none => rfl | some id => exact hclose id), hsrc]
    exact h.work rfl
  | hrec k y =>
    rw [show entryWork s c f (.hrec k y, n) = [] from rfl, List.append_nil]
    exact h.held fun H => tmod {} H k fun h => { h with tag := y }
  | hdrop k eff =>
    rw [show entryWork s c f (.hdrop k eff, n) = [] from rfl, List.append_nil]
    cases eff with
    | false => exact h
    | true => exact h.held fun H => tmod {} H k droppedReg
  | held k y => cases he
  | fill k y b => cases he
  | close a bar => cases he
  | cmd y n => cases he

theorem sent_reported (hf : (getCell s c).firing = some f) (hs : (getFrame s f.cfg f.frame).skipped = false) : Sent s (reported s f) c f [] :=
  ⟨by rw [List.append_nil]; rfl, hf, firingSrc_reported s c f, fun _ _ => rfl, (skipped_reported s f f.cfg f.frame).trans hs⟩

theorem findClose_of_sends (h : ∀ e, e ∈ f.out → sends f e = true) (id : Nat) : findClose f.out id = none := by
  refine List.findSome?_eq_none_iff.mpr fun e he => ?_
  have hsend := h e he
  cases e with
  | close a bar => cases hsend
  | _ => rfl

theorem committed_sent (hf : (getCell s c).firing = some f) (hs : (getFrame s f.cfg f.frame).skipped = false) (h : ∀ e, e ∈ f.out → sends f e = true) :
    Sent s (committed s c f) c f (f.out.zipIdx.flatMap (entryWork s c f)) := by
  have hfold : ∀ (l : List (Entry × Nat)) (t : State) (w : List Work), (∀ e, e ∈ l → sends f e.1 = true) → Sent s t c f w →
      Sent s (l.foldl (fun t e => commitEntry t c f (pastOut s c f) { firingSrc t c f with pos := e.2, past := pastOut s c f } e.1) t) c f
        (w ++ l.flatMap (entryWork s c f)) := fun l => by
    induction l with
    | nil => exact fun t w _ ht => by simpa using ht
    | cons e l ih =>
      intro t w hl ht
      have := ih _ _ (fun e he => hl e (List.mem_cons_of_mem _ he)) (ht.entry (hl e List.mem_cons_self) (findClose_of_sends h) e.2)
      rwa [List.append_assoc] at this
  exact hfold _ _ [] (fun e he => h e.1 (List.fst_mem_of_mem_zipIdx he)) (sent_reported hf hs)

/-- Settles O50: `leaves_firing` for any buffer, `committed_oneEntry` for one entry, `commits_cmd` and `commits_close` for a command and a close,
`committed_stands` for the registers and `committed_sent` for what a buffer sends. -/
theorem commits : Obligations.Commits := by
  unfold Obligations.Commits
  intro s c f hev hf hm
  refine ⟨⟨_, exec_outputCommit hev hf hm, leaves_firing ..⟩, fun hs e w h hout ho => ?_, fun hp hd => ⟨fun k h hout => ?_, fun a bar hout => ?_,
    fun k h hh hown => ?_, fun hsends hskip => ?_⟩⟩
  · obtain ⟨hto, hw, hv⟩ := committed_oneEntry hf hout ho
    exact commits_one hev hf hm hs hto hw hv
  · exact commits_cmd hev hf hm ⟨hp, hd⟩ hout
  · exact commits_close hev hf hm ⟨hp, hd⟩ hout
  · obtain ⟨-, heq⟩ := committed_stands s c f k ⟨hp, hd⟩
    obtain ⟨hheld, -⟩ := getCell_leaves (committed s c f) c f
    subst hh
    refine ⟨_, exec_outputCommit hev hf hm, ?_⟩
    rw [hheld]
    exact heq hown
  · obtain ⟨hst, -, -, hoth, -⟩ := committed_sent hf hskip hsends
    obtain ⟨-, -, -, hoth'⟩ := getCell_leaves (committed s c f) c f
    refine ⟨_, exec_outputCommit hev hf hm, ?_, ?_, fun d hd => (hoth' d hd).trans (hoth d hd)⟩
    · rw [leaves_frame, hst]
    · rw [leaves_frame, hst]

end Sys2Proof.Machine
end

section
/-! Which of its ready firings a cell may start (R114, R115), and the two events of the scheduler that change units alone (R179, R191). -/

namespace Sys2Proof.Machine
open Sys2Proof.Claims

variable {s : State} {d : Nat}

/-! ### The firings that a cell may start -/

theorem firingChoices_firing (h : (getCell s d).firing.isSome = true) : firingChoices s d = [] := by
  rw [firingChoices, if_pos h]

/-- A ready firing that was passed over 64 times is the only choice (R114). -/
theorem firingChoices_passed {p : Nat × Nat × Nat × Nat} (hf : (getCell s d).firing = none) (hd : (getCfg s (getCell s d).cfg).det = false)
    (hp : ((getCell s d).passed.find? fun p => 64 ≤ p.2.2.2 && (readyAt s (getCell s d)).contains (p.1, p.2.1, p.2.2.1)) = some p) :
    firingChoices s d = [(p.1, p.2.1, p.2.2.1)] := by
  simp only [firingChoices, hf, Option.isSome_none, Bool.false_eq_true, if_false, hd, hp]

/-- The frame at which the search of R114 starts. -/
def searchStart (x : Cell) : Nat := match x.lastFrame with | some f => f + 1 | none => 0

/-- Otherwise the search of R114 finds a frame, and the choices are its firings that are ready. -/
theorem firingChoices_search {o : Option Nat} (hf : (getCell s d).firing = none) (hd : (getCfg s (getCell s d).cfg).det = false)
    (hp : ((getCell s d).passed.find? fun p => 64 ≤ p.2.2.2 && (readyAt s (getCell s d)).contains (p.1, p.2.1, p.2.2.1)) = none)
    (hn : nextFrame (readyAt s (getCell s d)) (searchStart (getCell s d)) = o) :
    firingChoices s d = o.elim [] fun fr => (readyAt s (getCell s d)).filter fun a => a.2.1 == fr := by
  unfold searchStart at hn
  cases hl : (getCell s d).lastFrame with
  | none =>
    simp only [hl] at hn
    simp only [firingChoices, hf, Option.isSome_none, Bool.false_eq_true, if_false, hd, hp, hl, hn]
    cases o with
    | none => rfl
    | some fr => rfl
  | some f =>
    simp only [hl] at hn
    simp only [firingChoices, hf, Option.isSome_none, Bool.false_eq_true, if_false, hd, hp, hl, hn]
    cases o with
    | none => rfl
    | some fr => rfl

/-- In deterministic order `a` comes no later than `b` (R115). -/
theorem detLe_iff (x : Cell) (a b : Nat × Nat × Nat) :
    detLe x a b = true ↔
      a.2.2 < b.2.2 ∨ (a.2.2 = b.2.2 ∧ (nodeNo x a.1 < nodeNo x b.1 ∨ (nodeNo x a.1 = nodeNo x b.1 ∧ a.2.1 ≤ b.2.1))) := by
  unfold detLe
  by_cases h1 : a.2.2 = b.2.2
  · by_cases h2 : nodeNo x a.1 = nodeNo x b.1
    · simp [h1, h2]
    · simp [h1, h2]
  · simp [h1]

theorem firingChoices_det (hf : (getCell s d).firing = none) (hd : (getCfg s (getCell s d).cfg).det = true) (a : Nat × Nat × Nat) :
    a ∈ firingChoices s d ↔ DetFirst (getCell s d) (readyAt s (getCell s d)) a := by
  have hc : firingChoices s d = (readyAt s (getCell s d)).filter fun a => (readyAt s (getCell s d)).all fun b => detLe (getCell s d) a b := by
    rw [firingChoices, if_neg (by simp [hf])]
    exact if_pos hd
  rw [hc, List.mem_filter, DetFirst, List.all_eq_true]
  simp only [detLe_iff]

/-- A firing that was passed over 64 times is the next (R114). -/
theorem firingChoices_old (hf : (getCell s d).firing = none) (hd : (getCfg s (getCell s d).cfg).det = false)
    (h : ∃ p, p ∈ (getCell s d).passed ∧ 64 ≤ p.2.2.2 ∧ (p.1, p.2.1, p.2.2.1) ∈ readyAt s (getCell s d)) :
    ∃ p, p ∈ (getCell s d).passed ∧ (64 ≤ p.2.2.2 ∧ (p.1, p.2.1, p.2.2.1) ∈ readyAt s (getCell s d)) ∧
      firingChoices s d = [(p.1, p.2.1, p.2.2.1)] := by
  cases hq : (getCell s d).passed.find? fun p => 64 ≤ p.2.2.2 && (readyAt s (getCell s d)).contains (p.1, p.2.1, p.2.2.1) with
  | some p =>
    have hp := List.find?_some hq
    simp only [Bool.and_eq_true, decide_eq_true_eq, List.contains_iff_mem] at hp
    exact ⟨p, List.mem_of_find?_eq_some hq, hp, firingChoices_passed hf hd hq⟩
  | none =>
    obtain ⟨p, hm, hold, hr⟩ := h
    have hno := List.find?_eq_none.mp hq p hm
    simp [hold, hr] at hno

/-- How far frame `fr` lies from `k`, where the search starts. -/
theorem dist_eq_iff {k fr i : Nat} (hfr : fr < 1024) (hi : i < 1024) : (k + i) % 1024 = fr ↔ (fr + 1024 - k % 1024) % 1024 = i := by
  omega

/-- The frame that is found lies no further than any that has a ready firing. -/
theorem nextFrame_some {r : List (Nat × Nat × Nat)} {k fr : Nat} (h : nextFrame r k = some fr) (hr : ∀ a, a ∈ r → a.2.1 < 1024) :
    fr < 1024 ∧ (∃ a, a ∈ r ∧ a.2.1 = fr) ∧ ∀ b, b ∈ r → (fr + 1024 - k % 1024) % 1024 ≤ (b.2.1 + 1024 - k % 1024) % 1024 := by
  obtain ⟨before, i, after, hl, hi, hno⟩ := List.findSome?_eq_some_iff.mp h
  have hlen := congrArg List.length hl
  simp only [List.length_range, List.length_append, List.length_cons] at hlen
  have hget : ∀ j, j ≤ before.length → (List.range 1024)[j]? = some j := fun j hj => by
    rw [List.getElem?_range]
    omega
  have hib : i = before.length := by
    have := hget before.length (Nat.le_refl _)
    rw [hl, List.getElem?_append_right (Nat.le_refl _)] at this
    simpa using this
  have hmem : ∀ j, j < i → j ∈ before := fun j hj => by
    have := hget j (by omega)
    rw [hl, List.getElem?_append_left (by omega)] at this
    exact List.mem_of_getElem? this
  dsimp only at hi hno
  split at hi
  case isFalse => cases hi
  case isTrue hany =>
    cases hi
    obtain ⟨a, ha, hafr⟩ := List.any_eq_true.mp hany
    rw [beq_iff_eq] at hafr
    have hi : i < 1024 := by omega
    refine ⟨Nat.mod_lt _ (by omega), ⟨a, ha, hafr⟩, fun b hb => ?_⟩
    rw [(dist_eq_iff (Nat.mod_lt _ (by omega)) hi).mp rfl]
    by_contra hlt
    rw [not_le] at hlt
    have hbfr := (dist_eq_iff (k := k) (hr b hb) (Nat.lt_trans hlt hi)).mpr rfl
    have := hno _ (hmem _ hlt)
    have hany' : (r.any fun x => x.2.1 == b.2.1) = true := List.any_eq_true.mpr ⟨b, hb, beq_self_eq_true _⟩
    simp only [hbfr, hany', if_true, reduceCtorEq] at this

theorem nextFrame_none {r : List (Nat × Nat × Nat)} {k : Nat} (h : nextFrame r k = none) (hr : ∀ a, a ∈ r → a.2.1 < 1024) : r = [] := by
  rw [List.eq_nil_iff_forall_not_mem]
  intro a ha
  have hfr := hr a ha
  have := List.findSome?_eq_none_iff.mp h ((a.2.1 + 1024 - k % 1024) % 1024) (List.mem_range.mpr (Nat.mod_lt _ (by omega)))
  have hk : (k + (a.2.1 + 1024 - k % 1024) % 1024) % 1024 = a.2.1 := (dist_eq_iff hfr (Nat.mod_lt _ (by omega))).mpr rfl
  have hany : (r.any fun x => x.2.1 == a.2.1) = true := List.any_eq_true.mpr ⟨a, ha, beq_self_eq_true _⟩
  simp only [hk, hany, if_true, reduceCtorEq] at this

/-- Otherwise the firings of the first frame, from the one after the last that ran, that has any ready (R114). -/
theorem firingChoices_frame (hf : (getCell s d).firing = none) (hd : (getCfg s (getCell s d).cfg).det = false)
    (hno : ¬ ∃ p, p ∈ (getCell s d).passed ∧ 64 ≤ p.2.2.2 ∧ (p.1, p.2.1, p.2.2.1) ∈ readyAt s (getCell s d))
    (hr : ∀ a, a ∈ readyAt s (getCell s d) → a.2.1 < 1024) (a : Nat × Nat × Nat) :
    a ∈ firingChoices s d ↔ a ∈ readyAt s (getCell s d) ∧
      ∀ b, b ∈ readyAt s (getCell s d) → frameDist (getCell s d) a.2.1 ≤ frameDist (getCell s d) b.2.1 := by
  have hfind : ((getCell s d).passed.find? fun p => 64 ≤ p.2.2.2 && (readyAt s (getCell s d)).contains (p.1, p.2.1, p.2.2.1)) = none :=
    List.find?_eq_none.mpr fun p hp hold => hno ⟨p, hp, by simpa using hold⟩
  change _ ↔ _ ∧ ∀ b, b ∈ readyAt s (getCell s d) →
    (a.2.1 + 1024 - searchStart (getCell s d) % 1024) % 1024 ≤ (b.2.1 + 1024 - searchStart (getCell s d) % 1024) % 1024
  rw [firingChoices_search hf hd hfind rfl]
  generalize searchStart (getCell s d) = k
  generalize readyAt s (getCell s d) = r at hr ⊢
  cases hn : nextFrame r k with
  | none =>
    rw [nextFrame_none hn hr]
    simp
  | some fr =>
    obtain ⟨hfr, ⟨x, hx, hxfr⟩, hleast⟩ := nextFrame_some hn hr
    change a ∈ r.filter (fun a => a.2.1 == fr) ↔ _
    simp only [List.mem_filter, beq_iff_eq]
    refine and_congr_right fun ha => ⟨fun h b hb => h ▸ hleast b hb, fun h => ?_⟩
    have h1 := h x hx
    have h2 := hleast a ha
    have h3 := hr a ha
    rw [hxfr] at h1
    omega

/-! ### Held configurations and timeouts -/

theorem setEvent_frame (s : State) (u k : Nat) : setEvent s u k = { s with ctls := (setEvent s u k).ctls } := by
  unfold setEvent
  split <;> rfl

/-- An event bit of a unit that has one, after another or the same was set. -/
theorem setEvent_bit (s : State) (u v k j : Nat) :
    bit (getCtl (setEvent s u k) v).events j = (bit (getCtl s v).events j || (decide (u < 2000) && decide (v = u) && decide (k = j))) := by
  unfold setEvent
  split
  case isTrue hu =>
    rw [getCtl_modCtl]
    split
    case isTrue h =>
      subst h
      simp only [bit, Nat.testBit_or, Nat.testBit_two_pow, hu, decide_true, Bool.true_and]
    case isFalse h => simp [h]
  case isFalse hu => simp [hu]

theorem setEvents_frame (s : State) (l : List Nat) (k : Nat) :
    l.foldl (fun s u => setEvent s u k) s = { s with ctls := (l.foldl (fun s u => setEvent s u k) s).ctls } := by
  induction l generalizing s with
  | nil => rfl
  | cons u l ih => rw [List.foldl_cons, ih, setEvent_frame]

/-- Each unit of the list has the event bit. -/
theorem setEvents_bit (s : State) (l : List Nat) (k : Nat) {v : Nat} (hv : v < 2000)
    (h : v ∈ l ∨ bit (getCtl s v).events k = true) : bit (getCtl (l.foldl (fun s u => setEvent s u k) s) v).events k = true := by
  induction l generalizing s with
  | nil => exact h.resolve_left List.not_mem_nil
  | cons u l ih =>
    refine ih _ ?_
    rw [setEvent_bit]
    rcases h with h | h
    · rcases List.mem_cons.mp h with rfl | h
      · simp [hv]
      · exact .inl h
    · simp [h]

/-- HELD_STATE (R179): the configuration is held, and its pre-empters hear of it. -/
theorem heldState_acts {c : Cfg} (hev : Ev s .heldState c.id) (hc : findCfg s c.id = some c) (hm : mayHold s c = true) :
    ∃ t, exec .heldState s = .next t ∧ t = { s with ctls := t.ctls, cfgs := t.cfgs } ∧ getCfg t c.id = { c with st := .held, preempters := [] } ∧
      ∀ u, u ∈ c.preempters → u < 2000 → bit (getCtl t u).events 2 = true := by
  have harg : turnArg s = some c.id := by simp only [turnArg, hev]
  have hexec : exec .heldState s = .next (c.preempters.foldl (fun s u => setEvent s u 2)
      (modCfg s c.id fun k => { k with st := .held, preempters := [] })) := by
    change execHeldState s = _
    simp only [execHeldState, harg, Option.bind_some, hc, hm, if_true]
  have hfind := findCfg_modCfg s c.id c.id (fun k => { k with st := .held, preempters := [] }) fun _ => rfl
  rw [hc, Option.map_some, if_pos rfl] at hfind
  refine ⟨_, hexec, ?_, ?_, fun u hu hu2 => setEvents_bit _ _ _ hu2 (.inl hu)⟩
  · rw [setEvents_frame]
    rfl
  · rw [setEvents_frame]
    exact congrArg (·.getD {}) hfind

/-- WFE_TIMEOUT (R191): the deadline is gone and EVTIME is set. -/
theorem wfeTimeout_acts {u : Nat} (hev : Ev s .wfeTimeout u) (ht : timeoutDue s u = true) (hu : u < 2000) :
    ∃ t, exec .wfeTimeout s = .next t ∧ OnlyCtl s t u { getCtl s u with deadline := none, events := (getCtl s u).events ||| 16 } := by
  have harg : turnArg s = some u := by simp only [turnArg, hev]
  have hexec : exec .wfeTimeout s = .next (modCtl (modCtl s u fun x => { x with deadline := none }) u fun x => { x with events := x.events ||| 2 ^ 4 }) := by
    change execWfeTimeout s = _
    simp only [execWfeTimeout, harg, ht, if_true, setEvent, hu]
  refine ⟨_, hexec, rfl, ?_, fun v hv => ?_, fun _ => rfl⟩
  · simp only [getCtl_modCtl, if_true]
    rfl
  · simp only [getCtl_modCtl, if_neg hv]

end Sys2Proof.Machine
end

section
/-! Configurations that complete and cells that retire (R86, R167, R175, R189), with what is kept while checkpoints copy what a write would
change (R448). -/

namespace Sys2Proof.Machine
open Sys2Proof.Claims

variable {s t : State}

/-! ### Frame traps change units, frames and the black box alone -/

theorem toSupervisor_frame (s : State) (n : Nat) (b : Bool) (r : TrapRec) :
    toSupervisor s n b r = { s with ctls := (toSupervisor s n b r).ctls, bbox := (toSupervisor s n b r).bbox } := by
  unfold toSupervisor
  split <;> rfl

theorem routeRecord_frame (s : State) (r : TrapRec) :
    routeRecord s r = { s with ctls := (routeRecord s r).ctls, bbox := (routeRecord s r).bbox } := by
  unfold routeRecord escalate
  dsimp only
  split
  · rfl
  · split
    · exact toSupervisor_frame ..
    · rfl

theorem stopFrame_frame (s : State) (r : TrapRec) :
    stopFrame s r = { s with ctls := (stopFrame s r).ctls, cfgs := (stopFrame s r).cfgs, bbox := (stopFrame s r).bbox } := by
  unfold stopFrame
  split
  · rfl
  · split
    · rfl
    · rw [routeRecord_frame]
      rfl

/-! ### What goes on while others act: the cells stay, a round that is due stays due, and no configuration comes back -/

/-- From `s` to `t` the cells are as before, a round that was due is due, and no configuration is new. -/
def Kept (s t : State) : Prop :=
  t.cells = s.cells ∧ (s.round = true → t.round = true) ∧ ∀ i, findCfg s i = none → findCfg t i = none

theorem Kept.refl (s : State) : Kept s s := ⟨rfl, id, fun _ => id⟩

theorem Kept.trans {u : State} (h1 : Kept s t) (h2 : Kept t u) : Kept s u :=
  ⟨h2.1.trans h1.1, h2.2.1 ∘ h1.2.1, fun i h => h2.2.2 i (h1.2.2 i h)⟩

/-- An update of other fields. -/
theorem Kept.of (hc : t.cells = s.cells) (hr : t.round = s.round) (hf : t.cfgs = s.cfgs) : Kept s t :=
  ⟨hc, fun h => hr.trans h, fun i h => by rwa [findCfg, hf]⟩

/-- A choice has what both its branches have. -/
theorem Kept.ite {p : Prop} [Decidable p] {u : State} (h1 : Kept s t) (h2 : Kept s u) : Kept s (if p then t else u) := by
  split
  · exact h1
  · exact h2

theorem Kept.foldl {β : Type} {f : State → β → State} (hf : ∀ s b, Kept s (f s b)) (l : List β) (s : State) : Kept s (l.foldl f s) := by
  induction l generalizing s with
  | nil => exact Kept.refl s
  | cons b l ih => exact (hf s b).trans (ih _)

theorem findCfg_modCfg_none {i a : Nat} {g : Cfg → Cfg} (hg : ∀ c, (g c).id = c.id) (h : findCfg s i = none) : findCfg (modCfg s a g) i = none := by
  rw [findCfg_modCfg s a i g hg, h]
  rfl

theorem kept_modFrame (s : State) (a n : Nat) (g : Frame → Frame) : Kept s (modFrame s a n g) :=
  ⟨rfl, id, fun _ h => findCfg_modCfg_none (g := fun c => { c with frames := tmod {} c.frames n g }) (fun _ => rfl) h⟩

theorem kept_stopFrame (s : State) (r : TrapRec) : Kept s (stopFrame s r) := by
  unfold stopFrame
  split
  · exact Kept.refl s
  · split
    · exact (kept_modFrame ..).trans (Kept.of rfl rfl rfl)
    · refine (kept_modFrame s r.cfg r.frame fun f => { f with live := true, stopped := some r }).trans ?_
      rw [routeRecord_frame]
      exact Kept.of rfl rfl rfl

theorem kept_jobTrap (s : State) (e : Trap) (x : Src) (k : Option Nat) : Kept s (jobTrap s e x k) := by
  unfold jobTrap
  split
  · dsimp only
    split
    · exact Kept.of rfl rfl rfl
    · rw [toSupervisor_frame]
      exact Kept.of rfl rfl rfl
  · exact kept_stopFrame ..

theorem kept_writeNat (s : State) (pa n v : Nat) : Kept s (writeNat s pa n v) := by
  rw [writeNat_frame]
  exact Kept.of rfl rfl rfl

theorem kept_writeBits (s : State) (b len v : Nat) : Kept s (writeBits s b len v) := by
  rw [writeBits_frame]
  exact Kept.of rfl rfl rfl

theorem kept_allSeen (s : State) : Kept s (allSeen s) := by
  unfold allSeen
  split <;> exact Kept.of rfl rfl rfl

theorem kept_landPieces (s : State) (ps : List (Nat × Nat × Nat)) (w : Nat) : Kept s (landPieces s ps w).1 := by
  refine foldl_keeps (fun a : State × List (Nat × Nat × Nat) => Kept s a.1) _ (fun a p ha => ?_) ps _ ?_
  · exact ite_keeps (fun a : State × List (Nat × Nat × Nat) => Kept s a.1) _ (ha.trans (Kept.of rfl rfl rfl)) (ha.trans (kept_writeBits ..))
  · exact Kept.ite (Kept.refl s) (Kept.of rfl rfl rfl)

/-! ### Copies made before a write (R448) -/

/-- What comes before a write keeps what goes on. -/
def Before.Stays (bf : Before) : Prop := ∀ s b len, Kept s (bf s b len)

theorem kept_ckptHeader {bf : Before} (hb : bf.Stays) (s : State) (c : Ckpt) (st k : Nat) : Kept s (ckptHeader bf s c st k) :=
  ((hb s _ _).trans (kept_landPieces ..)).trans (kept_allSeen _)

theorem kept_ckptUndefined {bf : Before} (hb : bf.Stays) (s : State) (c : Ckpt) : Kept s (ckptUndefined bf s c) := by
  refine Kept.foldl (fun u r => ?_) _ s
  have hw := ((hb u ((if c.rest then r.1 else r.2.1) * 8) (r.2.2 * 8)).trans (kept_allSeen _)).trans
    (kept_writeNat _ (if c.rest then r.1 else r.2.1) r.2.2 (Config.freeBytes u.free))
  exact hw.trans (Kept.of rfl rfl rfl)

theorem kept_ckptFail {bf : Before} (hb : bf.Stays) (s : State) (b : Nat) (c : Ckpt) (e : Trap) : Kept s (ckptFail bf s b c e) := by
  have hleave : Kept s (ckptLeave bf s b c 3 e.cause) :=
    ((Kept.of rfl rfl rfl : Kept s (modCkpt s b c.id fun _ => none)).trans (kept_ckptUndefined hb _ c)).trans (kept_ckptHeader hb _ c _ _)
  have hbox := hleave.trans (Kept.of rfl rfl rfl : Kept _ (bboxEvent (ckptLeave bf s b c 3 e.cause) b 9 e.cause 0 0 0 0 0 c.blockVa c.bytes))
  exact Kept.ite (hbox.trans (kept_jobTrap ..)) hbox

theorem kept_ckptProgress {bf : Before} (hb : bf.Stays) (s : State) (b id : Nat) : Kept s (ckptProgress bf s b id) := by
  unfold ckptProgress
  split
  · exact Kept.refl s
  · dsimp only
    split
    · exact hb ..
    · exact (hb ..).trans (kept_ckptHeader (fun s _ _ => Kept.refl s) ..)

/-- A part of a checkpoint lands, and its header says so. -/
theorem kept_ckptWrite {bf : Before} (hb : bf.Stays) (s : State) (dst n v b id : Nat) (f : Ckpt → Option Ckpt) :
    Kept s (ckptProgress bf (modCkpt (writeNat (allSeen s) dst n v) b id f) b id) :=
  (((kept_allSeen s).trans (kept_writeNat ..)).trans (Kept.of rfl rfl rfl)).trans (kept_ckptProgress hb ..)

theorem kept_ckptCopy {bf : Before} (hb : bf.Stays) (s : State) (b id : Nat) (g : Nat × Nat) : Kept s (ckptCopy bf s b id g) := by
  unfold ckptCopy
  split
  · exact Kept.refl s
  · split
    · exact Kept.refl s
    · split
      · exact kept_ckptFail hb ..
      · split
        · exact kept_ckptFail hb ..
        · rename_i src dst _ _
          have hd : ∀ f : Ckpt → Option Ckpt, Kept s (bf (modCkpt s b id f) (dst * 8) 32768) := fun f =>
            (Kept.of rfl rfl rfl : Kept s (modCkpt s b id f)).trans (hb ..)
          dsimp only
          generalize hu : bf (modCkpt s b id _) (dst * 8) 32768 = u
          have hw : Kept s u := hu ▸ hd _
          refine Kept.ite hw ?_
          generalize hp : (if u.poison = [] then u else { u with poison := u.poison.filter fun p => !(dst ≤ p && p < dst + 4096) }) = v
          have hv : Kept s v := hp ▸ Kept.ite hw (hw.trans (Kept.of rfl rfl rfl))
          exact hv.trans (kept_ckptWrite hb v dst 4096 _ b id _)

theorem stays_drainFor (n : Nat) : (drainFor n).Stays := by
  induction n with
  | zero => exact fun s _ _ => Kept.refl s
  | succ n ih =>
    exact fun s b len => Kept.foldl (f := fun (s : State) (h : Nat × Nat × Nat × Nat) => ckptCopy (drainFor n) s h.1 h.2.1 h.2.2)
      (fun u g => kept_ckptCopy ih u g.1 g.2.1 g.2.2) (drainHits s b len) s

theorem kept_drainAll (s : State) (b len : Nat) : Kept s (drainAll s b len) := by
  unfold drainAll
  exact Kept.ite (Kept.refl s) (stays_drainFor _ s b len)

theorem kept_writePieces (s : State) (ps : List (Nat × Nat × Nat)) (w : Nat) (x : Src) : Kept s (writePieces s ps w x).1 := by
  have hdrain : Kept s (ps.foldl (fun s p => drainAll s p.1 p.2.1) s) :=
    Kept.foldl (f := fun (s : State) (p : Nat × Nat × Nat) => drainAll s p.1 p.2.1) (fun u p => kept_drainAll u p.1 p.2.1) ps s
  unfold writePieces
  dsimp only
  generalize ps.foldl (fun s p => drainAll s p.1 p.2.1) s = u at hdrain ⊢
  have hland := hdrain.trans (kept_landPieces u ps w)
  generalize (landPieces u ps w).1 = v at hland ⊢
  exact hland.trans (Kept.of rfl rfl rfl)

/-! ### Completion records and joins (R167) -/

/-- What an engine or unit writes is one write event. -/
theorem jobPut_writes {x : Src} {va n v : Nat} {r : State × Option Nat} (h : jobPut s x va n v = .ok r) :
    ∃ ps w y, r.1 = (writePieces s ps w y).1 := by
  unfold jobPut at h
  cases hm : (pageParts va n).mapM fun p => (walkCheck s x .copyDst p.1 p.2).map fun pa => (p.1, pa, p.2) with
  | error e => rw [hm] at h; cases h
  | ok ps =>
    rw [hm] at h
    cases h
    exact ⟨_, _, _, rfl⟩

theorem kept_putRecord (s : State) (x : Src) (va : Nat) (ws : List Nat) : Kept s (putRecord s x va ws) := by
  unfold putRecord
  cases hr : jobPut s { x with kind := 3, user := false, insn := 0 } va (8 * ws.length) (ofLanes 64 ws) with
  | error e => exact Kept.refl s
  | ok r =>
    obtain ⟨ps, w, y, hw⟩ := jobPut_writes hr
    change Kept s r.1
    rw [hw]
    exact kept_writePieces ..

theorem kept_completionRecord (s : State) (x : Src) (w : Nat) (ws : List Nat) : Kept s (completionRecord s x w ws) := by
  unfold completionRecord
  exact Kept.ite (Kept.refl s) (Kept.ite ((kept_putRecord ..).trans (Kept.of rfl rfl rfl)) (kept_putRecord ..))

theorem kept_setEvent (s : State) (u k : Nat) : Kept s (setEvent s u k) := by
  rw [setEvent_frame]
  exact Kept.of rfl rfl rfl

theorem kept_joinAt (s : State) (pa : Nat) : Kept s (joinAt s pa).1 := by
  unfold joinAt
  dsimp only
  split
  · exact Kept.refl s
  · have hw := kept_writePieces s [((pa + 16) * 8, 16, readNat s (pa + 16) 2 - 1)] 0 anyone
    split
    · exact ⟨hw.1, fun _ => rfl, hw.2.2⟩
    · exact hw

theorem kept_joinList (s : State) (x : Src) (l : Nat) : Kept s (joinList s x l) := by
  unfold joinList
  split
  · exact Kept.refl s
  · split
    · exact Kept.refl s
    · refine Kept.foldl (fun u k => ?_) _ s
      split
      · exact Kept.refl u
      · split
        · exact Kept.ite (Kept.refl u) (kept_joinAt ..)
        · exact Kept.refl u

/-! ### Glades that are released (R167) -/

theorem gateCell_frame (s : State) (d k : Nat) :
    gateCell s d k = { s with cells := (gateCell s d k).cells, views := (gateCell s d k).views } := by
  unfold gateCell
  rw [seeAll_frame]
  rfl

theorem getCell_gateCell (s : State) (d k e : Nat) :
    getCell (gateCell s d k) e = if e = d then { hcap := (getCell s d).hcap, cfg := k } else getCell s e := by
  unfold gateCell
  rw [getCell_seeAll, getCell_modCell]

/-- Cells gated one after the other. -/
def gateCells (s : State) (l : List Nat) (k : Nat) : State := l.foldl (fun s d => gateCell s d k) s

theorem gateCells_frame (s : State) (l : List Nat) (k : Nat) :
    gateCells s l k = { s with cells := (gateCells s l k).cells, views := (gateCells s l k).views } := by
  unfold gateCells
  induction l generalizing s with
  | nil => rfl
  | cons d l ih => rw [List.foldl_cons, ih, gateCell_frame]

theorem getCell_gateCells (s : State) (l : List Nat) (k e : Nat) :
    getCell (gateCells s l k) e = if e ∈ l then { hcap := (getCell s e).hcap, cfg := k } else getCell s e := by
  unfold gateCells
  induction l generalizing s with
  | nil => rfl
  | cons d l ih =>
    rw [List.foldl_cons, ih, getCell_gateCell]
    by_cases h : e = d
    · subst h
      simp
    · simp [h]

theorem gateEntries_eq (s : State) (l : List (Nat × Cell)) (k : Nat) : l.foldl (fun s e => gateCell s e.1 k) s = gateCells s (l.map (·.1)) k := by
  rw [gateCells, List.foldl_map]

theorem clearArrays_frame (s : State) (l : List Nat) :
    l.foldl (fun s g => modGrove s g clearArray) s = { s with groves := (l.foldl (fun s g => modGrove s g clearArray) s).groves } := by
  induction l generalizing s with
  | nil => rfl
  | cons g l ih =>
    rw [List.foldl_cons, ih]
    rfl

/-- A cell of a configuration is listed. -/
theorem mem_cells_of_cfg {d k : Nat} (hk : k ≠ 0) (h : (getCell s d).cfg = k) :
    d ∈ (s.cells.filter fun e => e.2.cfg == k).map (·.1) := by
  have hne : tget {} s.cells d ≠ ({} : Cell) := fun he => hk (by rw [← h, getCell, he])
  exact List.mem_map.mpr ⟨_, List.mem_filter.mpr ⟨mem_of_tget_ne hne, beq_iff_eq.mpr h⟩, rfl⟩

theorem releaseGlades_gone {c : Cfg} (hs : c.succ = none) (hc : c.id ≠ 0) :
    findCfg (releaseGlades s c) c.id = none ∧ (∀ d, (getCell (releaseGlades s c) d).cfg ≠ c.id) ∧ (releaseGlades s c).round = true := by
  have hno : ¬ c.succ.isSome = true := by simp [hs]
  have hcell : ∀ (u : State) d, (getCell (gateCells u ((u.cells.filter fun e => e.2.cfg == c.id).map (·.1)) 0) d).cfg ≠ c.id := fun u d => by
    rw [getCell_gateCells]
    split
    case isTrue => exact fun h => hc h.symm
    case isFalse hno => exact fun h => hno (mem_cells_of_cfg hc h)
  have hmem : ∀ (l : List Cfg) k, k ∈ (l.filter fun k => k.id ≠ c.id) → ¬ (k.id == c.id) = true := fun l k hk => by
    simpa using (List.mem_filter.mp hk).2
  unfold releaseGlades
  rw [if_neg hno]
  dsimp only
  generalize dropFills s _ = u
  have hcells := hcell u
  rw [gateEntries_eq, clearArrays_frame]
  generalize gateCells u _ 0 = v at hcells ⊢
  refine ⟨List.find?_eq_none.mpr fun k hk => ?_, fun d => ?_, rfl⟩
  · exact hmem _ k hk
  · unfold getCell at hcells ⊢
    exact hcells d

/-! ### A configuration completes (R167) -/

theorem completion_event (c : Cfg) : rw (ofLanes 64 (c.words.map (·.toNat))) 4 = c.w 4 := by
  have hlane := lane_ofLanes 64 (c.words.map (·.toNat)) 4
  change lane 64 (ofLanes 64 (c.words.map (·.toNat))) 4 = _
  rw [hlane, Cfg.w]
  have hget : (c.words.map (·.toNat)).getD 4 0 = (c.words.getD 4 0).toNat := by
    simp only [List.getD_eq_getElem?_getD, List.getElem?_map]
    cases c.words[4]? <;> rfl
  rw [hget, Nat.mod_eq_of_lt (c.words.getD 4 0).isLt]

/-- CONFIG_COMPLETION (R167). -/
theorem exec_configCompletion {c : Cfg} (hev : Ev s .configCompletion c.id) (hc : findCfg s c.id = some c) (hm : mayComplete s c = true) :
    exec .configCompletion s = .next (completeCfg s c) := by
  have harg : turnArg s = some c.id := by simp only [turnArg, hev]
  change execConfigCompletion s = _
  simp only [execConfigCompletion, harg, Option.bind_some, hc, hm, if_true]

theorem completeCfg_gone {c : Cfg} (hs : c.succ = none) (hc : c.id ≠ 0) :
    findCfg (completeCfg s c) c.id = none ∧ (∀ d, (getCell (completeCfg s c) d).cfg ≠ c.id) ∧ (completeCfg s c).round = true ∧
      (bit (c.w 4) 62 = true → c.issuer < 2000 → bit (getCtl (completeCfg s c) c.issuer).events 1 = true) := by
  obtain ⟨hgone, hcells, hround⟩ := releaseGlades_gone (s := s) hs hc
  have hjoined : ∀ x ws y l, Kept (releaseGlades s c) (joinList (completionRecord (releaseGlades s c) x (c.w 4) ws) y l) := fun x ws y l =>
    (kept_completionRecord ..).trans (kept_joinList ..)
  unfold completeCfg
  dsimp only
  rw [completion_event]
  generalize hu : joinList (completionRecord (releaseGlades s c) _ (c.w 4) _) _ _ = u
  have hk : Kept (releaseGlades s c) u := hu ▸ hjoined ..
  have hk' := hk.trans (Kept.ite (p := bit (c.w 4) 62 = true) (kept_setEvent u c.issuer 1) (Kept.refl u))
  refine ⟨hk'.2.2 _ hgone, fun d => ?_, hk'.2.1 hround, fun hb hi => ?_⟩
  · rw [getCell, hk'.1]
    exact hcells d
  · rw [if_pos hb, setEvent_bit]
    simp [hi]

/-! ### A cell retires (R175, R176, R189) -/

theorem findCfg_none_iff {i : Nat} : findCfg s i = none ↔ ∀ k, k ∈ s.cfgs → k.id ≠ i := by
  simp [findCfg, List.find?_eq_none]

/-- No configuration is new when some are left out and others change without their identities. -/
theorem findCfg_none_of {i : Nat} {l : List Cfg} (h : findCfg s i = none) (hl : ∀ k, k ∈ l → ∃ q, q ∈ s.cfgs ∧ q.id = k.id) :
    findCfg { s with cfgs := l } i = none := by
  rw [findCfg_none_iff] at *
  intro k hk
  obtain ⟨q, hq, hid⟩ := hl k hk
  exact hid ▸ h q hq

theorem endSplice_frame (s : State) (i : Nat) : endSplice s i = { s with cfgs := (endSplice s i).cfgs } := by
  unfold endSplice
  dsimp only
  split <;> rfl

theorem endSplice_none {i j : Nat} (h : findCfg s i = none) : findCfg (endSplice s j) i = none := by
  unfold endSplice
  dsimp only
  split
  · refine findCfg_none_of h fun k hk => ?_
    obtain ⟨q, hq, rfl⟩ := List.mem_map.mp hk
    refine ⟨q, (List.mem_filter.mp hq).1, ?_⟩
    split <;> rfl
  · exact h

theorem releaseGlades_none {i : Nat} {c : Cfg} (h : findCfg s i = none) : findCfg (releaseGlades s c) i = none := by
  unfold releaseGlades
  split
  · exact endSplice_none (findCfg_modCfg_none (fun _ => rfl) h)
  · dsimp only
    have hdrop : findCfg (dropFills s fun d => (getCell s d).cfg == c.id) i = none := h
    generalize dropFills s _ = u at hdrop ⊢
    rw [gateEntries_eq, clearArrays_frame, gateCells_frame]
    rw [findCfg_none_iff] at hdrop ⊢
    exact fun k hk => hdrop k (List.mem_filter.mp hk).1

theorem getCell_endSplice (s : State) (i d : Nat) : getCell (endSplice s i) d = getCell s d := by
  rw [endSplice_frame]
  rfl

/-- Setting the CONST ranges of a configuration changes no cell. -/
theorem getCell_setConsts (s : State) (i d : Nat) : getCell (setConsts s i) d = getCell s d := rfl

/-- Of what a cell looks at again, its configuration does not change (R96). -/
theorem recheck_cfg (s : State) (c : Nat) : (getCell (recheck s c) c).cfg = (getCell s c).cfg := by
  have hnote : ∀ u : State, (getCell (noteReady u c) c).cfg = (getCell u c).cfg := fun u => by rw [getCell_noteReady_self]
  have hplace : ∀ (u : State) (x : Token), (getCell (placeToken u c x) c).cfg = (getCell u c).cfg := fun u x => by
    rw [placeToken, hnote, getCell_modCell, if_pos rfl]
  have hstop : ∀ (u : State) (r : TrapRec), (getCell (stopFrame u r) c).cfg = (getCell u c).cfg := fun u r => by
    rw [getCell, (stopFrame_mem u r).2]
    rfl
  have hbound : ∀ (u : State) (x : Token), (getCell (takeBound u c x) c).cfg = (getCell u c).cfg := fun u x => by
    unfold takeBound
    dsimp only
    split
    · rw [hstop, getCell_modCell, if_pos rfl]
    · rw [getCell_modCell, if_pos rfl]
  have hfold : ∀ (l : List Token) (u : State), (getCell (l.foldl (fun s t =>
      if frameStopped s t.cfg t.frame then placeToken s c t
      else if malformed (getCell s c) t then stopMalformed s c t else takeBound s c t) u) c).cfg = (getCell u c).cfg := fun l => by
    induction l with
    | nil => exact fun _ => rfl
    | cons x l ih =>
      intro u
      rw [List.foldl_cons, ih]
      split
      · exact hplace u x
      · split
        · exact hstop ..
        · exact hbound u x
  unfold recheck
  dsimp only
  rw [hnote, hfold, getCell_setCell, if_pos rfl]

theorem takeCell_cfg (s : State) (d : Nat) (p c : Cfg) (im : Image) : (getCell (takeCell s d p c im) d).cfg = c.id := by
  unfold takeCell
  dsimp only
  rw [getCell_endSplice, recheck_cfg, getCell_setConsts, getCell_setConsts, getCell_modCell, if_pos rfl]

theorem kept_failRecord (s : State) (v q issuer st : Nat) : Kept s (failRecord s v q issuer st) := by
  have hdraw : Kept s (drawWord s).2 := Kept.of rfl rfl rfl
  unfold failRecord completeRecord
  exact hdraw.trans (Kept.ite ((kept_completionRecord ..).trans (kept_setEvent ..)) (kept_completionRecord ..))

/-- A refused image ends the successor (R189). -/
theorem stopSplice_none (s : State) (p c : Cfg) : findCfg (stopSplice s p c) c.id = none := by
  have hgone : ∀ u : State, findCfg { u with
      cells := tmap {} (fun (x : Cell) => { x with tokens := x.tokens.filter fun t => t.cfg != c.id }) u.cells
      cfgs := (u.cfgs.filter fun k => k.id ≠ c.id).map fun k => if k.id = p.id then { k with succ := none } else k } c.id = none := fun u => by
    rw [findCfg_none_iff]
    intro k hk
    obtain ⟨q, hq, rfl⟩ := List.mem_map.mp hk
    have hne := (List.mem_filter.mp hq).2
    rw [decide_eq_true_eq] at hne
    split <;> exact hne
  have hfail : ∀ u v q issuer st, findCfg u c.id = none → findCfg (failRecord u v q issuer st) c.id = none := fun u v q issuer st h =>
    (kept_failRecord u v q issuer st).2.2 _ h
  unfold stopSplice
  dsimp only
  split
  · exact releaseGlades_none (hfail _ _ _ _ _ (hgone _))
  · exact hfail _ _ _ _ _ (hgone _)

/-- CELL_RETIRE (R175). -/
theorem exec_cellRetire {d : Nat} {p c : Cfg} (hev : Ev s .cellRetire d) (hr : retiring s d = some (p, c)) :
    exec .cellRetire s = .next (match c.image with
      | some im => if c.checkedStages.contains ((c.stageOf (groveOf d)).getD 0) then takeCell s d p c im
        else execCellRetire.checkStage s d p c ((c.stageOf (groveOf d)).getD 0)
      | none => execCellRetire.checkStage s d p c ((c.stageOf (groveOf d)).getD 0)) := by
  have harg : turnArg s = some d := by simp only [turnArg, hev]
  change execCellRetire s = _
  cases hi : c.image with
  | none => simp only [execCellRetire, harg, Option.bind_some, hr, Option.map_some, hi]
  | some im =>
    simp only [execCellRetire, harg, Option.bind_some, hr, Option.map_some, hi]
    split <;> rfl

theorem cellRetire_acts {d : Nat} {p c : Cfg} (hev : Ev s .cellRetire d) (hr : retiring s d = some (p, c)) :
    (∃ t, exec .cellRetire s = .next t) ∧
      (∀ im, c.image = some im → c.checkedStages.contains ((c.stageOf (groveOf d)).getD 0) = true →
        ∃ t, exec .cellRetire s = .next t ∧ (getCell t d).cfg = c.id) ∧
      (∀ e, c.image = none → readImage s (spaceSrc c.issuer c.spaceAsn c.secure) (c.w 0) c.width c.height c.stages (fieldNow s c) = .error e →
        ∃ t, exec .cellRetire s = .next t ∧ findCfg t c.id = none) := by
  have hexec := exec_cellRetire hev hr
  refine ⟨⟨_, hexec⟩, fun im hi hs => ?_, fun e hi he => ?_⟩
  · rw [hi] at hexec
    simp only [hs, if_true] at hexec
    exact ⟨_, hexec, takeCell_cfg ..⟩
  · rw [hi] at hexec
    simp only [execCellRetire.checkStage, he] at hexec
    exact ⟨_, hexec, stopSplice_none ..⟩

end Sys2Proof.Machine
end

section
/-! Arbitration rounds (R172): the order of the heads, what each write of the arbiter leaves alone, and how a head leaves its queue. -/

namespace Sys2Proof.Machine
open Sys2Proof.Claims

variable {s t : State}

/-! ### The order of a round -/

theorem headKey_le {a b : Head} (h : headKey s a ≤ headKey s b) :
    recRank b.v < recRank a.v ∨ (recRank a.v = recRank b.v ∧ turnOf s a ≤ turnOf s b) := by
  have ha : recRank a.v < 256 := Nat.mod_lt _ (by omega)
  have hb : recRank b.v < 256 := Nat.mod_lt _ (by omega)
  unfold headKey at h
  unfold turnOf
  have hm : ∀ x : Head, (x.q + 64 - tget 0 s.rr (recRank x.v)) % 64 < 64 := fun x => Nat.mod_lt _ (by omega)
  have h1 := hm a
  have h2 := hm b
  generalize (a.q + 64 - tget 0 s.rr (recRank a.v)) % 64 = p at h h1 ⊢
  generalize (b.q + 64 - tget 0 s.rr (recRank b.v)) % 64 = q at h h2 ⊢
  omega

theorem insertHead_perm (s : State) (x : Head) (l : List Head) : (insertHead s x l).Perm (x :: l) := by
  induction l with
  | nil => exact List.Perm.refl _
  | cons y l ih =>
    rw [insertHead]
    split
    · exact List.Perm.refl _
    · exact (ih.cons y).trans (List.Perm.swap x y l)

theorem insertHead_sorted (s : State) (x : Head) {l : List Head} (h : l.Pairwise fun a b => headKey s a ≤ headKey s b) :
    (insertHead s x l).Pairwise fun a b => headKey s a ≤ headKey s b := by
  induction l with
  | nil => exact List.pairwise_singleton _ _
  | cons y l ih =>
    obtain ⟨hy, hl⟩ := List.pairwise_cons.mp h
    rw [insertHead]
    split
    case isTrue hle => exact List.pairwise_cons.mpr ⟨fun z hz => (List.mem_cons.mp hz).elim (fun e => e ▸ hle) fun hz => Nat.le_trans hle (hy z hz), h⟩
    case isFalse hle =>
      refine List.pairwise_cons.mpr ⟨fun z hz => ?_, ih hl⟩
      rcases List.mem_cons.mp ((insertHead_perm s x l).mem_iff.mp hz) with rfl | hz
      · omega
      · exact hy z hz

theorem roundOrder_perm (s : State) (hs : List Head) : (roundOrder s hs).Perm hs := by
  induction hs with
  | nil => exact List.Perm.refl _
  | cons x l ih => exact (insertHead_perm s x _).trans (ih.cons x)

theorem roundOrder_sorted (s : State) (hs : List Head) : (roundOrder s hs).Pairwise fun a b => headKey s a ≤ headKey s b := by
  induction hs with
  | nil => exact List.Pairwise.nil
  | cons x l ih => exact insertHead_sorted s x ih

/-! ### The heads that may be admitted are the heads of the queues -/

theorem consider_ready {q : Nat} {e : QEntry} {h : Head} (hc : consider s q e = .ready h) : h.q = q ∧ h.e = e := by
  have hif : ∀ {p : Prop} [Decidable p] {u : State} {v : Head}, (if p then Verdict.change u else .ready v) = .ready h → v = h :=
    fun hc => by
      split at hc
      · cases hc
      · cases hc; rfl
  unfold consider at hc
  split at hc
  · unfold considerSave at hc
    split at hc
    · split at hc
      · cases hc
      · split at hc <;> cases hc
    · split at hc
      · split at hc
        · cases hc
        · obtain rfl := hif hc
          exact ⟨rfl, rfl⟩
      · cases hc
  · unfold considerRecord at hc
    split at hc
    · cases hc
    · split at hc
      · cases hc
      · split at hc
        · cases hc
        · split at hc
          · cases hc
          · obtain rfl := hif hc
            exact ⟨rfl, rfl⟩

theorem considerAll_sublist {l : List (Nat × QEntry)} {hs : List Head} (h : considerAll s l = .ok hs) : (hs.map fun x => (x.q, x.e)).Sublist l := by
  induction l generalizing hs with
  | nil =>
    cases h
    exact List.Sublist.slnil
  | cons p l ih =>
    obtain ⟨q, e⟩ := p
    rw [considerAll] at h
    split at h
    · cases h
    · exact (ih h).cons _
    · rename_i x hx
      cases hr : considerAll s l with
      | error u => rw [hr] at h; cases h
      | ok hs' =>
        rw [hr] at h
        cases h
        obtain ⟨hq, he⟩ := consider_ready hx
        rw [List.map_cons, hq, he]
        exact (ih hr).cons_cons _

/-! ### What the arbiter writes while no checkpoint is being drained -/

/-- From `s` to `t` a write landed, and nothing else changed. -/
def Wrote (s t : State) : Prop := t = { s with mem := t.mem, poison := t.poison, bbox := t.bbox, views := t.views }

theorem Wrote.refl (s : State) : Wrote s s := rfl

theorem Wrote.trans {u : State} (h1 : Wrote s t) (h2 : Wrote t u) : Wrote s u := by
  unfold Wrote at *
  rw [h2, h1]

theorem Wrote.drains (h : Wrote s t) : t.drains = s.drains := by rw [h]

theorem wrote_writePieces (h : s.drains = []) (ps : List (Nat × Nat × Nat)) (w : Nat) (x : Src) : Wrote s (writePieces s ps w x).1 := by
  have hdrain : ∀ l : List (Nat × Nat × Nat), l.foldl (fun s p => drainAll s p.1 p.2.1) s = s := fun l => by
    induction l with
    | nil => rfl
    | cons p l ih => rw [List.foldl_cons, drainAll, if_pos h, ih]
  have hland : Wrote s (landPieces s ps w).1 := by
    refine foldl_keeps (fun a : State × List (Nat × Nat × Nat) => Wrote s a.1) _ (fun a p ha => ?_) ps _ ?_
    · refine ite_keeps (fun a : State × List (Nat × Nat × Nat) => Wrote s a.1) _ (ha.trans rfl) (ha.trans ?_)
      dsimp only
      rw [writeBits_frame]
      exact rfl
    · dsimp only
      split <;> exact rfl
  unfold writePieces
  rw [hdrain]
  exact hland.trans rfl

theorem wrote_saveStatus (h : s.drains = []) (e : QEntry) (st : Nat) : Wrote s (saveStatus s e st) := by
  unfold saveStatus
  cases hr : jobPut s (entrySrc e) (e.addr + 6) 2 st with
  | error _ => exact Wrote.refl s
  | ok r =>
    obtain ⟨ps, w, y, hw⟩ := jobPut_writes hr
    change Wrote s r.1
    rw [hw]
    exact wrote_writePieces h ..

theorem wrote_mirror (h : s.drains = []) (e : QEntry) : Wrote s (mirror s e) := by
  unfold mirror
  split
  · exact Wrote.refl s
  · split
    · exact Wrote.refl s
    · split
      · exact Wrote.refl s
      · exact wrote_writePieces h ..

theorem waitStatus_none {h : Head} (hs : h.saved = none) : waitStatus s h = s := by
  unfold waitStatus
  rw [hs]

theorem wrote_waitStatus (hd : s.drains = []) (h : Head) : Wrote s (waitStatus s h) := by
  unfold waitStatus
  split
  · exact wrote_saveStatus hd ..
  · exact Wrote.refl s

theorem wrote_waitStatuses (hd : s.drains = []) (l : List Head) : Wrote s (l.foldl waitStatus s) := by
  induction l generalizing s with
  | nil => exact Wrote.refl s
  | cons h l ih =>
    have hw := wrote_waitStatus hd h
    exact hw.trans (ih (hw.drains.trans hd))

theorem waitStatuses_none {l : List Head} (hs : ∀ h, h ∈ l → h.saved = none) : l.foldl waitStatus s = s := by
  induction l generalizing s with
  | nil => rfl
  | cons h l ih =>
    obtain ⟨h1, hl⟩ := List.forall_mem_cons.mp hs
    rw [List.foldl_cons, waitStatus_none h1, ih hl]

/-! ### A head leaves its queue, or is passed over -/

theorem getQueue_tmod (s : State) (q k : Nat) (f : List QEntry → List QEntry) :
    getQueue { s with queues := tmod [] s.queues q f } k = if k = q then f (getQueue s q) else getQueue s k := by
  unfold getQueue
  split
  case isTrue h => rw [h, tget_tmod_self]
  case isFalse h => exact tget_tmod_ne _ _ _ _ _ h

/-- A head that left its queue: a write may follow. -/
theorem wrote_leaveQueue (h : s.drains = []) (q : Nat) (e : QEntry) :
    Wrote { s with queues := tmod [] s.queues q fun l => l.drop 1, round := true } (leaveQueue s q e) :=
  wrote_mirror (s := { s with queues := tmod [] s.queues q fun l => l.drop 1, round := true }) h e

/-- The count of an entry that is passed over. -/
def passedOver (e : QEntry) : QEntry := { e with bypass := min (e.bypass + 1) 8 }

theorem wrote_bypass (hd : s.drains = []) (h : Head) : Wrote (setQHead s h.q (passedOver h.e)) (bypass s h) :=
  wrote_mirror (s := setQHead s h.q (passedOver h.e)) hd _

/-- Heads passed over one after the other change their queues, and a write may follow each. -/
theorem bypasses_frame (hd : s.drains = []) (l : List Head) :
    Wrote { s with queues := (l.foldl bypass s).queues } (l.foldl bypass s) := by
  induction l generalizing s with
  | nil => exact Wrote.refl s
  | cons h l ih =>
    have hw := wrote_bypass hd h
    have hrest := ih (hw.drains.trans hd)
    rw [List.foldl_cons]
    generalize l.foldl bypass (bypass s h) = u at hrest ⊢
    unfold Wrote at *
    rw [hrest, hw]
    rfl

theorem getQueue_bypass (hd : s.drains = []) (h : Head) (k : Nat) :
    getQueue (bypass s h) k = if k = h.q then passedOver h.e :: (getQueue s h.q).drop 1 else getQueue s k := by
  have hw := wrote_bypass hd h
  rw [show getQueue (bypass s h) k = getQueue (setQHead s h.q (passedOver h.e)) k by rw [hw]; rfl, setQHead, getQueue_tmod]

/-- Heads of queues of their own, passed over one after the other. -/
theorem getQueue_bypasses (hd : s.drains = []) {l : List Head} (hn : (l.map (·.q)).Nodup) (k : Nat) :
    (∀ x, x ∈ l → x.q = k → getQueue (l.foldl bypass s) k = passedOver x.e :: (getQueue s k).drop 1) ∧
      ((∀ x, x ∈ l → x.q ≠ k) → getQueue (l.foldl bypass s) k = getQueue s k) := by
  induction l generalizing s with
  | nil => exact ⟨fun x hx => absurd hx List.not_mem_nil, fun _ => rfl⟩
  | cons h l ih =>
    rw [List.map_cons, List.nodup_cons] at hn
    obtain ⟨hh, hn⟩ := hn
    obtain ⟨ihx, ihno⟩ := ih ((wrote_bypass hd h).drains.trans hd) hn
    rw [List.foldl_cons]
    refine ⟨fun x hx hk => ?_, fun hno => ?_⟩
    · rcases List.mem_cons.mp hx with rfl | hx
      · rw [ihno fun y hy hyk => hh (List.mem_map.mpr ⟨y, hy, hyk.trans hk.symm⟩), getQueue_bypass hd, if_pos hk.symm, hk]
      · rw [ihx x hx hk, getQueue_bypass hd, if_neg fun he => hh (List.mem_map.mpr ⟨x, hx, hk.trans he⟩)]
    · obtain ⟨h1, hl⟩ := List.forall_mem_cons.mp hno
      rw [ihno hl, getQueue_bypass hd, if_neg fun he => h1 he.symm]

end Sys2Proof.Machine
end

section
/-! Admission (R85, R172, R183): what it leaves alone of the queues and the turn of each rank, and what an image leaves in the cells. -/

namespace Sys2Proof.Machine
open Sys2Proof.Claims

variable {s t : State}

/-! ### What is not the arbiter's own -/

/-- From `s` to `t` the queues, the turn of each rank, whether a round is due and the checkpoints are as before. -/
def Rest (s t : State) : Prop := t.queues = s.queues ∧ t.rr = s.rr ∧ t.round = s.round ∧ t.drains = s.drains

theorem Rest.refl (s : State) : Rest s s := ⟨rfl, rfl, rfl, rfl⟩

theorem Rest.trans {u : State} (h1 : Rest s t) (h2 : Rest t u) : Rest s u := by
  obtain ⟨hq, hr, hd, hn⟩ := h1
  obtain ⟨hq', hr', hd', hn'⟩ := h2
  exact ⟨hq'.trans hq, hr'.trans hr, hd'.trans hd, hn'.trans hn⟩

/-- An update of other fields. -/
theorem Rest.of (hq : t.queues = s.queues) (hr : t.rr = s.rr) (hd : t.round = s.round) (hn : t.drains = s.drains) : Rest s t := ⟨hq, hr, hd, hn⟩

theorem Rest.foldl {β : Type} {f : State → β → State} (hf : ∀ s b, Rest s (f s b)) (l : List β) (s : State) : Rest s (l.foldl f s) := by
  induction l generalizing s with
  | nil => exact Rest.refl s
  | cons b l ih => exact (hf s b).trans (ih _)

theorem Wrote.rest (h : Wrote s t) : Rest s t := by
  rw [h]
  exact Rest.of rfl rfl rfl rfl

theorem rest_noteReady (s : State) (c : Nat) : Rest s (noteReady s c) := by
  rw [noteReady_frame]
  exact Rest.of rfl rfl rfl rfl

theorem rest_stopFrame (s : State) (r : TrapRec) : Rest s (stopFrame s r) := by
  rw [stopFrame_frame]
  exact Rest.of rfl rfl rfl rfl

theorem rest_setEvent (s : State) (u k : Nat) : Rest s (setEvent s u k) := by
  rw [setEvent_frame]
  exact Rest.of rfl rfl rfl rfl

theorem rest_startFrame (s : State) (cfg fr : Nat) : Rest s (startFrame s cfg fr) := Rest.of rfl rfl rfl rfl

theorem rest_takeBound (s : State) (c : Nat) (x : Token) : Rest s (takeBound s c x) := by
  unfold takeBound
  dsimp only
  split
  · exact (Rest.of rfl rfl rfl rfl : Rest s (modCell s c fun y => { y with tokens := x :: y.tokens })).trans (rest_stopFrame ..)
  · exact Rest.of rfl rfl rfl rfl

theorem rest_recheck (s : State) (c : Nat) : Rest s (recheck s c) := by
  have hfold : ∀ (l : List Token) (u : State), Rest u (l.foldl (fun s t =>
      if frameStopped s t.cfg t.frame then placeToken s c t
      else if malformed (getCell s c) t then stopMalformed s c t else takeBound s c t) u) := fun l u => by
    refine Rest.foldl (fun v x => ?_) l u
    split
    · rw [placeToken_frame]
      exact Rest.of rfl rfl rfl rfl
    · split
      · exact rest_stopFrame ..
      · exact rest_takeBound ..
  unfold recheck
  dsimp only
  exact ((Rest.of rfl rfl rfl rfl : Rest s (setCell s c _)).trans (hfold _ _)).trans (rest_noteReady ..)

/-! ### Restored configurations (R183) -/

theorem rest_redeliver (s : State) (id : Nat) : Rest s (redeliver s id) := by
  unfold redeliver
  dsimp only
  refine Rest.foldl (fun u r => ?_) _ s
  rw [routeRecord_frame]
  exact Rest.of rfl rfl rfl rfl

theorem rest_startParked (s : State) (id : Nat) : Rest s (startParked s id) := by
  unfold startParked
  refine Rest.foldl (fun u fr => ?_) _ s
  split
  · exact Rest.refl u
  · exact rest_startFrame ..

theorem rest_restore (hd : s.drains = []) (e : QEntry) (v q pa : Nat) (z : Saved) (o : List Nat) : Rest s (restore s e v q pa z o) := by
  have hstart : ∀ (l : List Nat) (i : Nat) (u : State), Rest u (l.foldl recheck (startParked (redeliver (setConsts u i) i) i)) := fun l i u =>
    (((Rest.of rfl rfl rfl rfl : Rest u (setConsts u i)).trans (rest_redeliver ..)).trans (rest_startParked ..)).trans (Rest.foldl rest_recheck l _)
  have hend : ∀ u : State, Rest s u → Rest s (setEvent (saveStatus u e 3) e.issuer 3) := fun u hu =>
    (hu.trans (wrote_saveStatus (hu.2.2.2.trans hd) e 3).rest).trans (rest_setEvent ..)
  unfold restore
  dsimp only
  refine hend _ (Rest.trans ?_ (hstart _ _ _))
  -- the saved cells and arrays under their new numbers
  refine Rest.trans (Rest.trans ?_ (Rest.foldl (fun u e => ?_) _ _)) (Rest.foldl (fun u e => ?_) _ _)
  · exact Rest.of rfl rfl rfl rfl
  · exact Rest.of rfl rfl rfl rfl
  · exact Rest.of rfl rfl rfl rfl

/-! ### Installed configurations (R85) -/

/-- The configuration enters, its cells are gated and its arrays have no contents. -/
def cleared (s : State) (c : Cfg) : State :=
  c.groves.foldl (fun s g => modGrove s g clearArray)
    (gateCells (dropFills { s with nextId := s.nextId + 1, cfgs := s.cfgs ++ [c] } fun d => (c.stageOf (groveOf d)).isSome) c.cells c.id)

/-- Its image reaches its cells. -/
def imaged (s : State) (c : Cfg) (im : Image) : State := applyImage (cleared s c) c (fun _ => true) true im

/-- Frame 0 starts. -/
def started (s : State) (c : Cfg) (im : Image) : State := noteAll (startFrame (setConsts (imaged s c im) c.id) c.id 0) c

/-- The image of a record, as it is read when the record is admitted. -/
def admittedImage (s : State) (e : QEntry) (v : Nat) : Except Trap (Option Image) :=
  readImage s (spaceSrc e.issuer (recAsn v) (recSecure v)) (rw v 0) (recW v) (recH v) (recN v) fun _ _ _ => 0

theorem install_image {e : QEntry} {v q : Nat} {o : List Nat} {im : Image} (h : admittedImage s e v = .ok (some im)) :
    install s e v q o = started s (newCfg s s.nextId e v q o) im := by
  unfold admittedImage at h
  unfold install
  simp only [h]
  rfl

theorem install_refused {e : QEntry} {v q : Nat} {o : List Nat} (h : ∀ im, admittedImage s e v ≠ .ok (some im)) :
    install s e v q o = { failRecord s v q e.issuer stIMAGE with round := true } := by
  unfold admittedImage at h
  unfold install
  dsimp only
  split
  case h_1 im him => exact absurd him (h im)
  case h_2 => rfl

theorem cleared_frame (s : State) (c : Cfg) : cleared s c = { s with
    nextId := s.nextId + 1, cfgs := s.cfgs ++ [c], cells := (cleared s c).cells, views := (cleared s c).views, groves := (cleared s c).groves
    work := (cleared s c).work } := by
  unfold cleared
  generalize hu : dropFills _ _ = u
  have hc := clearArrays_frame (gateCells u c.cells c.id) c.groves
  have hg := gateCells_frame u c.cells c.id
  generalize c.groves.foldl (fun s g => modGrove s g clearArray) (gateCells u c.cells c.id) = b at hc ⊢
  generalize gateCells u c.cells c.id = a at hc hg
  rw [hc, hg, ← hu]
  rfl

theorem getCell_clearArrays (s : State) (l : List Nat) (d : Nat) : getCell (l.foldl (fun s g => modGrove s g clearArray) s) d = getCell s d := by
  rw [clearArrays_frame]
  rfl

theorem getCell_cleared (s : State) (c : Cfg) (d : Nat) :
    getCell (cleared s c) d = if d ∈ c.cells then { hcap := (getCell s d).hcap, cfg := c.id } else getCell s d := by
  unfold cleared
  rw [getCell_clearArrays, getCell_gateCells]
  rfl

/-- The fields of device cell `d` after the writes of a stream. -/
def writtenFields (c : Cfg) (d : Nat) (ws : List FieldWrite) (t : Table Word) : Table Word :=
  ws.foldl (fun t w => if c.cellAt w.pos w.cell = d then tset 0 t w.field (BitVec.ofNat 64 w.value) else t) t

/-- Each field is as its last write leaves it. -/
theorem tget_writtenFields (c : Cfg) (d : Nat) (ws : List FieldWrite) (t : Table Word) (n : Nat) :
    tget 0 (writtenFields c d ws t) n =
      ((ws.reverse.find? fun w => c.cellAt w.pos w.cell == d && w.field == n).map fun w => BitVec.ofNat 64 w.value).getD (tget 0 t n) := by
  unfold writtenFields
  induction ws using List.reverseRecOn with
  | nil => rfl
  | append_singleton ws w ih =>
    rw [List.foldl_append, List.foldl_cons, List.foldl_nil, List.reverse_append, List.reverse_singleton, List.singleton_append, List.find?_cons]
    by_cases hd : c.cellAt w.pos w.cell = d
    · rw [if_pos hd, tget_tset]
      by_cases hn : w.field = n
      · simp [hd, hn]
      · simp only [hd, Ne.symm hn, if_false, beq_self_eq_true, beq_eq_false_iff_ne.mpr hn, Bool.and_false]
        exact ih
    · simp only [hd, if_false, beq_eq_false_iff_ne.mpr hd, Bool.false_and]
      exact ih

theorem applyWrites_frame (s : State) (c : Cfg) (ws : List FieldWrite) :
    applyWrites s c (fun _ => true) ws = { s with cells := (applyWrites s c (fun _ => true) ws).cells } := by
  unfold applyWrites
  induction ws generalizing s with
  | nil => rfl
  | cons w ws ih =>
    rw [List.foldl_cons, ih]
    rfl

theorem getCell_applyWrites (s : State) (c : Cfg) (ws : List FieldWrite) (d : Nat) :
    getCell (applyWrites s c (fun _ => true) ws) d = { getCell s d with fields := writtenFields c d ws (getCell s d).fields } := by
  unfold applyWrites writtenFields
  induction ws generalizing s with
  | nil => rfl
  | cons w ws ih =>
    rw [List.foldl_cons, ih]
    simp only [if_true, getCell_modCell, List.foldl_cons]
    by_cases hd : c.cellAt w.pos w.cell = d
    · subst hd
      simp
    · simp [hd, Ne.symm hd]

/-- A cell after a section of a fresh image. -/
def sectionCell (x : Cell) (q : Section) : Cell := { q.on x with held := sectionHeld q true x }

theorem applySections_frame (s : State) (c : Cfg) (qs : List Section) :
    qs.foldl (fun s q => applySection s c (fun _ => true) true q) s = { s with
      cells := (qs.foldl (fun s q => applySection s c (fun _ => true) true q) s).cells
      work := (qs.foldl (fun s q => applySection s c (fun _ => true) true q) s).work } := by
  induction qs generalizing s with
  | nil => rfl
  | cons q qs ih =>
    rw [List.foldl_cons, ih]
    rfl

theorem getCell_applySections (s : State) (c : Cfg) (qs : List Section) (d : Nat) :
    getCell (qs.foldl (fun s q => applySection s c (fun _ => true) true q) s) d =
      (qs.filter fun q => c.cellAt q.pos q.cell == d).foldl sectionCell (getCell s d) := by
  have hone : ∀ (u : State) (q : Section), getCell (applySection u c (fun _ => true) true q) d =
      if c.cellAt q.pos q.cell = d then sectionCell (getCell u d) q else getCell u d := fun u q => by
    unfold applySection
    simp only [if_true, Bool.true_or, getCell_modCell]
    by_cases hd : c.cellAt q.pos q.cell = d
    · subst hd
      simp only [if_true]
      rfl
    · rw [if_neg hd, if_neg (Ne.symm hd)]
      rfl
  induction qs generalizing s with
  | nil => rfl
  | cons q qs ih =>
    rw [List.foldl_cons, ih, hone]
    by_cases hd : c.cellAt q.pos q.cell = d
    · rw [if_pos hd, List.filter_cons_of_pos (by simp [hd]), List.foldl_cons]
    · rw [if_neg hd, List.filter_cons_of_neg (by simp [hd])]

theorem imaged_frame (s : State) (c : Cfg) (im : Image) : imaged s c im = { s with
    nextId := s.nextId + 1, cfgs := s.cfgs ++ [c], cells := (imaged s c im).cells, views := (imaged s c im).views
    groves := (imaged s c im).groves, work := (imaged s c im).work } := by
  unfold imaged applyImage
  rw [applySections_frame, applyWrites_frame, cleared_frame]

/-- The cells of a configuration, with the image it is installed with. -/
theorem getCell_imaged (s : State) (c : Cfg) (im : Image) {d : Nat} (hd : d ∈ c.cells) :
    getCell (imaged s c im) d = (im.sections.filter fun q => c.cellAt q.pos q.cell == d).foldl sectionCell
      { hcap := (getCell s d).hcap, cfg := c.id, fields := writtenFields c d im.writes [] } := by
  unfold imaged applyImage
  rw [getCell_applySections, getCell_applyWrites, getCell_cleared, if_pos hd]

end Sys2Proof.Machine
end

section
/-! What an installed configuration is, and what is in its cells (R85, R98). -/

namespace Sys2Proof.Machine
open Sys2Proof.Claims

variable {s t : State}

/-! ### A section changes words, records, recipes and held registers -/

theorem sectionCells_keep (x : Cell) (qs : List Section) :
    (qs.foldl sectionCell x).cfg = x.cfg ∧ (qs.foldl sectionCell x).tokens = x.tokens ∧ (qs.foldl sectionCell x).firing = x.firing ∧
      (qs.foldl sectionCell x).sources = x.sources ∧ (qs.foldl sectionCell x).fields = x.fields := by
  induction qs generalizing x with
  | nil => exact ⟨rfl, rfl, rfl, rfl, rfl⟩
  | cons q qs ih =>
    obtain ⟨hc, ht, hf, hs, hd⟩ := ih (sectionCell x q)
    exact ⟨hc, ht, hf, hs, hd⟩

/-- A cell of an installed configuration before it notes what is ready. -/
def installedCell (c : Cfg) (im : Image) (d hcap : Nat) : Cell :=
  startCell c.id 0 ((im.sections.filter fun q => c.cellAt q.pos q.cell == d).foldl sectionCell
    { hcap := hcap, cfg := c.id, fields := writtenFields c d im.writes [] })

theorem startCell_own {k fr : Nat} {x : Cell} (h : x.cfg = k) :
    startCell k fr x = { x with
      sources := x.sources ++ x.sourceCtxs.map fun k => (k, fr)
      passed := (startCell k fr x).passed, counters := (startCell k fr x).counters } := by
  rw [startCell, if_pos h]

theorem sectionCell_held (x : Cell) (q : Section) : (sectionCell x q).held = sectionHeld q true x := by
  rw [sectionCell]

theorem sectionHeld_of {q : Section} {r : Bool} {x y : Cell} (h : x.held = y.held) : sectionHeld q r x = sectionHeld q r y := by
  unfold sectionHeld
  rw [h]

theorem installedCell_installed (c : Cfg) (im : Image) (d hcap : Nat) : Installed c im d (installedCell c im d hcap) := by
  unfold installedCell
  generalize hx : (im.sections.filter fun q => c.cellAt q.pos q.cell == d).foldl sectionCell _ = x
  obtain ⟨hcfg, htok, hfir, hsrc, hfields⟩ := sectionCells_keep { hcap := hcap, cfg := c.id, fields := writtenFields c d im.writes [] }
    (im.sections.filter fun q => c.cellAt q.pos q.cell == d)
  rw [hx] at hcfg htok hfir hsrc hfields
  rw [startCell_own hcfg]
  refine ⟨hcfg, htok, hfir, ?_, fun n => ?_, fun hnil => ?_, fun q hq => ?_⟩
  · change x.sources ++ _ = _
    rw [hsrc]
    rfl
  · change tget 0 x.fields n = _
    rw [hfields, tget_writtenFields]
    cases im.writes.reverse.find? fun w => c.cellAt w.pos w.cell == d && w.field == n <;> rfl
  · rw [hnil] at hx
    rw [← hx]
    exact ⟨rfl, rfl, rfl, rfl⟩
  · change x.store = _ ∧ x.records = _ ∧ x.recipes = _ ∧ x.held = _
    rw [hq, List.foldl_cons, List.foldl_nil] at hx
    rw [← hx]
    exact ⟨rfl, rfl, rfl, (sectionCell_held ..).trans (sectionHeld_of rfl)⟩

theorem installed_passed {c : Cfg} {im : Image} {d : Nat} {x : Cell} (p : List (Nat × Nat × Nat × Nat)) (h : Installed c im d x) :
    Installed c im d { x with passed := p } := h

/-! ### Cells note what is ready -/

theorem notes_frame (s : State) (l : List Nat) : l.foldl noteReady s = { s with cells := (l.foldl noteReady s).cells } := by
  induction l generalizing s with
  | nil => rfl
  | cons d l ih =>
    rw [List.foldl_cons]
    have hl := ih (noteReady s d)
    have hd := noteReady_frame s d
    generalize l.foldl noteReady (noteReady s d) = u at hl ⊢
    generalize noteReady s d = v at hl hd
    exact hl.trans (by rw [hd])

theorem findCfg_notes (s : State) (l : List Nat) (i : Nat) : findCfg (l.foldl noteReady s) i = findCfg s i := by
  rw [notes_frame]
  rfl

theorem getCell_notes (s : State) (l : List Nat) (d : Nat) :
    getCell (l.foldl noteReady s) d = { getCell s d with passed := (getCell (l.foldl noteReady s) d).passed } := by
  induction l generalizing s with
  | nil => rfl
  | cons c l ih =>
    rw [List.foldl_cons, ih, getCell_noteReady]
    split
    case isTrue h => rw [h]
    case isFalse => rfl

/-! ### The installed configuration -/

theorem findCfg_append_new {c : Cfg} (h : findCfg s c.id = none) (hc : t.cfgs = s.cfgs ++ [c]) : findCfg t c.id = some c := by
  unfold findCfg at *
  rw [hc, List.find?_append, h]
  simp

theorem cfgs_imaged (s : State) (c : Cfg) (im : Image) : (imaged s c im).cfgs = s.cfgs ++ [c] := by
  have h := imaged_frame s c im
  generalize imaged s c im = u at h ⊢
  rw [h]

theorem findCfg_modCfg_some {a : Nat} {g : Cfg → Cfg} {k : Cfg} (hg : ∀ c, (g c).id = c.id) (h : findCfg s a = some k) :
    findCfg (modCfg s a g) a = some (g k) := by
  have hid : k.id = a := by simpa using List.find?_some h
  rw [findCfg_modCfg s a a g hg, h, Option.map_some, if_pos hid]

theorem started_rest (s : State) (c : Cfg) (im : Image) : Rest s (started s c im) := by
  have hnote : ∀ (u : State) (l : List Nat), Rest u (l.foldl noteReady u) := fun u l => Rest.foldl rest_noteReady l u
  have himage : Rest s (imaged s c im) := by
    have h := imaged_frame s c im
    generalize imaged s c im = u at h ⊢
    rw [h]
    exact Rest.of rfl rfl rfl rfl
  unfold started noteAll
  generalize imaged s c im = u at himage ⊢
  exact himage.trans ((Rest.of rfl rfl rfl rfl : Rest u (startFrame (setConsts u c.id) c.id 0)).trans (hnote _ _))

/-- The configuration that a record becomes: frame 0 is live. -/
theorem findCfg_started {c : Cfg} (im : Image) (h : findCfg s c.id = none) :
    ∃ consts skips, findCfg (started s c im) c.id =
      some { c with consts := consts, frames := tset {} c.frames 0 { live := true }, skips := skips } := by
  have hnew : findCfg (imaged s c im) c.id = some c := findCfg_append_new h (cfgs_imaged s c im)
  have hconsts := findCfg_modCfg_some (g := fun k => { k with consts := constsOf (imaged s c im) k }) (fun _ => rfl) hnew
  change findCfg (setConsts (imaged s c im) c.id) c.id = _ at hconsts
  rw [started, noteAll, findCfg_notes]
  generalize setConsts (imaged s c im) c.id = u at hconsts ⊢
  have hstart := findCfg_modCfg_some (s := releaseSets u c.id 0)
    (g := fun k => { k with frames := tset {} k.frames 0 { live := true }, skips := if (getFrame u c.id 0).skipped then satAdd16 k.skips 1 else k.skips })
    (fun _ => rfl) hconsts
  exact ⟨_, _, hstart⟩

theorem getCell_started (s : State) (c : Cfg) (im : Image) {d : Nat} (hd : d ∈ c.cells) : Installed c im d (getCell (started s c im) d) := by
  have hcell : getCell (startFrame (setConsts (imaged s c im) c.id) c.id 0) d = installedCell c im d (getCell s d).hcap := by
    rw [getCell_startFrame, getCell_setConsts, getCell_imaged s c im hd]
    rfl
  rw [started, noteAll, getCell_notes, hcell]
  exact installed_passed _ (installedCell_installed ..)

end Sys2Proof.Machine
end

section
/-! ARBITRATION_ROUND (R172): a round that admits none, and one that admits a head. -/

namespace Sys2Proof.Machine
open Sys2Proof.Claims

variable {s t a : State} {hs before after : List Head} {h : Head} {o : List Nat}

/-! ### The heads belong to queues of their own -/

/-- The heads of a table of queues: their queues rise, and each heads its queue. -/
theorem heads_of_queues {lo : Nat} {l : Table (List QEntry)} (h : twfFrom [] lo l = true) :
    ((l.filterMap fun q => q.2.head?.map fun e => (q.1, e)).map (·.1)).Nodup ∧
      ∀ p, p ∈ (l.filterMap fun q => q.2.head?.map fun e => (q.1, e)) → lo ≤ p.1 ∧ tget [] l p.1 = p.2 :: (tget [] l p.1).drop 1 := by
  induction l generalizing lo with
  | nil => exact ⟨List.nodup_nil, fun p hp => absurd hp List.not_mem_nil⟩
  | cons e l ih =>
    obtain ⟨q, v⟩ := e
    simp only [twfFrom, Bool.and_eq_true, decide_eq_true_eq] at h
    obtain ⟨⟨hlo, hv⟩, hl⟩ := h
    obtain ⟨hn, hall⟩ := ih hl
    cases v with
    | nil => exact absurd rfl hv
    | cons x r =>
      change (q :: (l.filterMap _).map Prod.fst).Nodup ∧ ∀ p, p ∈ (q, x) :: l.filterMap _ → _
      refine ⟨List.nodup_cons.mpr ⟨fun hq => ?_, hn⟩, fun p hp => ?_⟩
      · obtain ⟨p, hp, hpq⟩ := List.mem_map.mp hq
        have := (hall p hp).1
        omega
      · rcases List.mem_cons.mp hp with rfl | hp
        · exact ⟨hlo, by simp [tget]⟩
        · obtain ⟨hge, hget⟩ := hall p hp
          have hne : q ≠ p.1 := by omega
          simp only [tget, hne, if_false]
          exact ⟨by omega, hget⟩

/-- The heads that may be admitted have queues of their own, and each heads its queue. -/
theorem considered_heads (hc : considerAll s (queueHeads s) = .ok hs) (hw : twf [] s.queues = true) :
    (hs.map (·.q)).Nodup ∧ ∀ h, h ∈ hs → getQueue s h.q = h.e :: (getQueue s h.q).drop 1 := by
  obtain ⟨hn, hall⟩ := heads_of_queues hw
  have hsub := considerAll_sublist hc
  refine ⟨?_, fun h hm => (hall (h.q, h.e) (hsub.subset (List.mem_map.mpr ⟨h, hm, rfl⟩))).2⟩
  have hq := (hsub.map Prod.fst).nodup hn
  rwa [List.map_map] at hq

theorem roundOrder_nodup (hn : (hs.map (·.q)).Nodup) : ((roundOrder s hs).map (·.q)).Nodup :=
  (((roundOrder_perm s hs).map _).nodup_iff).mpr hn

/-! ### Placement does not look at the round -/

/-- The state in which a round acts: no other is due. -/
def quiet (s : State) : State := { s with round := false }

theorem groveWorld_quiet (s : State) (g : Nat) (b : Bool) : groveWorld (quiet s) g b = groveWorld s g b := by
  have hb : ∀ k i, blockSecure (quiet s) k i = blockSecure s k i := fun _ _ => rfl
  simp only [groveWorld, hb]

theorem rectValid_quiet (s : State) (b : Bool) (f : Fit) (k o : Nat) : rectValid (quiet s) b f k o = rectValid s b f k o := by
  have hc : ∀ g, cfgOfGrove (quiet s) g = cfgOfGrove s g := fun _ => rfl
  have hd : ∀ d, getCell (quiet s) d = getCell s d := fun _ => rfl
  simp only [rectValid, hc, hd, groveWorld_quiet]

theorem placeStages_quiet (s : State) (b : Bool) (f : Fit) (m k : Nat) (used : List Nat) :
    placeStages (quiet s) b f m k used = placeStages s b f m k used := by
  -- the state is used in `rectValid` alone
  delta placeStages placeStages._f
  simp only [rectValid_quiet]

theorem placeHead_quiet (s : State) (h : Head) : placeHead (quiet s) h = placeHead s h := by
  have hp : parkingUsed (quiet s) = parkingUsed s := rfl
  unfold placeHead place
  rw [hp, placeStages_quiet]

/-! ### What a round does -/

theorem exec_arbitrationRound (hr : s.round = true) : exec .arbitrationRound s = .next (roundStep s) := by
  change execArbitrationRound s = _
  rw [execArbitrationRound, if_pos hr]

theorem roundStep_empty (hq : s.queues = []) : roundStep s = { s with round := false } := by
  have hc : considerAll s (queueHeads s) = .ok [] := by
    rw [queueHeads, hq]
    rfl
  simp only [roundStep, hc]
  rfl

theorem firstPlaced_none {l : List Head} (hl : ∀ x, x ∈ l → placeHead s x = none) : firstPlaced s l = none := by
  induction l with
  | nil => rfl
  | cons x l ih =>
    obtain ⟨hx, hl⟩ := List.forall_mem_cons.mp hl
    simp only [firstPlaced, hx, ih hl, Option.map_none]

theorem firstPlaced_some (hb : ∀ x, x ∈ before → placeHead s x = none) (hh : placeHead s h = some o) :
    firstPlaced s (before ++ h :: after) = some (before, h, o) := by
  induction before with
  | nil => simp only [List.nil_append, firstPlaced, hh]
  | cons x l ih =>
    obtain ⟨hx, hl⟩ := List.forall_mem_cons.mp hb
    simp only [List.cons_append, firstPlaced, hx, ih hl, Option.map_some]

/-- A starved head that finds no place keeps the others back. -/
theorem roundStep_blocked (hc : considerAll s (queueHeads s) = .ok hs) (hf : ((roundOrder s hs).find? fun h => 8 ≤ h.e.bypass) = some h)
    (hp : placeHead s h = none) : roundStep s = (roundOrder s hs).foldl waitStatus (quiet s) := by
  unfold roundOrder at hf
  rw [← placeHead_quiet] at hp
  simp only [quiet] at hp
  simp only [roundStep, hc, hf, hp]
  rfl

/-- A starved head is admitted before the others. -/
theorem roundStep_starved (hc : considerAll s (queueHeads s) = .ok hs) (hf : ((roundOrder s hs).find? fun h => 8 ≤ h.e.bypass) = some h)
    (hp : placeHead s h = some o) : roundStep s = admitConfig (quiet s) h o := by
  unfold roundOrder at hf
  rw [← placeHead_quiet] at hp
  simp only [quiet] at hp
  simp only [roundStep, hc, hf, hp]
  rfl

/-- None of the heads finds a place. -/
theorem roundStep_none (hc : considerAll s (queueHeads s) = .ok hs) (hf : ((roundOrder s hs).find? fun h => 8 ≤ h.e.bypass) = none)
    (hp : ∀ h, h ∈ roundOrder s hs → placeHead s h = none) : roundStep s = (roundOrder s hs).foldl waitStatus (quiet s) := by
  have hn : firstPlaced (quiet s) (roundOrder s hs) = none := firstPlaced_none fun x hx => by rw [placeHead_quiet, hp x hx]
  unfold roundOrder at hf hn
  simp only [quiet] at hn
  simp only [roundStep, hc, hf, hn]
  rfl

/-- The first head that finds a place is admitted, and those before it are passed over. -/
theorem roundStep_placed (hc : considerAll s (queueHeads s) = .ok hs) (hf : ((roundOrder s hs).find? fun h => 8 ≤ h.e.bypass) = none)
    (ho : roundOrder s hs = before ++ h :: after) (hb : ∀ x, x ∈ before → placeHead s x = none) (hp : placeHead s h = some o) :
    roundStep s = before.foldl bypass (before.foldl waitStatus (admitConfig (quiet s) h o)) := by
  have hn : firstPlaced (quiet s) (roundOrder s hs) = some (before, h, o) := by
    rw [ho]
    exact firstPlaced_some (fun x hx => by rw [placeHead_quiet, hb x hx]) (by rw [placeHead_quiet, hp])
  unfold roundOrder at hf hn
  simp only [quiet] at hn
  simp only [roundStep, hc, hf, hn]
  rfl

/-- A round that admits none: the areas that wait say so, and nothing else changes. -/
theorem round_none (hc : considerAll s (queueHeads s) = .ok hs) (hd : s.drains = [])
    (hno : (∀ h, h ∈ hs → placeHead s h = none) ∨ ∃ h, ((roundOrder s hs).find? fun h => 8 ≤ h.e.bypass) = some h ∧ placeHead s h = none) :
    (roundStep s).queues = s.queues ∧ (roundStep s).cfgs = s.cfgs ∧ (roundStep s).cells = s.cells ∧ (roundStep s).round = false ∧
      ((∀ h, h ∈ hs → h.saved = none) → roundStep s = { s with round := false }) := by
  have hperm := roundOrder_perm s hs
  have hstep : roundStep s = (roundOrder s hs).foldl waitStatus (quiet s) := by
    cases hf : (roundOrder s hs).find? fun h => 8 ≤ h.e.bypass with
    | none =>
      rcases hno with hno | ⟨h, hh, _⟩
      · exact roundStep_none hc hf fun h hh => hno h (hperm.mem_iff.mp hh)
      · rw [hf] at hh
        cases hh
    | some x =>
      refine roundStep_blocked hc hf ?_
      rcases hno with hno | ⟨h, hh, hp⟩
      · exact hno x (hperm.mem_iff.mp (List.mem_of_find?_eq_some hf))
      · rw [hf] at hh
        cases hh
        exact hp
  have hw := wrote_waitStatuses (s := quiet s) hd (roundOrder s hs)
  rw [← hstep] at hw
  generalize hu : roundStep s = u at hstep hw ⊢
  refine ⟨by rw [hw]; rfl, by rw [hw]; rfl, by rw [hw]; rfl, by rw [hw]; rfl, fun hs => ?_⟩
  rw [hstep]
  exact waitStatuses_none fun h hh => hs h (hperm.mem_iff.mp hh)

end Sys2Proof.Machine
end

section
/-! The head that a round admits (R85, R172): its queue, the queues of those before it, and the configuration that it becomes. -/

namespace Sys2Proof.Machine
open Sys2Proof.Claims

variable {s t a : State} {hs before after : List Head} {h : Head} {o : List Nat}

/-! ### The record leaves its queue -/

/-- The head has left its queue, and its rank's turn has passed on. -/
def departed (s : State) (h : Head) : State :=
  { s with rr := tset 0 s.rr (recRank h.v) ((h.q + 1) % 64), queues := tmod [] s.queues h.q fun l => l.drop 1, round := true }

theorem wrote_leaving (hd : s.drains = []) (h : Head) : Wrote (departed s h) (leaving s h) :=
  wrote_leaveQueue (s := { s with round := false, rr := tset 0 s.rr (recRank h.v) ((h.q + 1) % 64) }) hd h.q h.e

theorem leaving_drains (hd : s.drains = []) (h : Head) : (leaving s h).drains = [] := (wrote_leaving hd h).drains.trans hd

theorem admitConfig_new (hs : h.saved = none) : admitConfig (quiet s) h o = install (leaving s h) h.e h.v h.q o := by
  unfold admitConfig
  rw [hs]
  rfl

theorem admitConfig_saved {pa : Nat} {z : Saved} (hs : h.saved = some (pa, z)) :
    admitConfig (quiet s) h o = restore (leaving s h) h.e h.v h.q pa z o := by
  unfold admitConfig
  rw [hs]
  rfl

/-! ### A record that completes without running -/

theorem wrote_putRecord (hd : s.drains = []) (x : Src) (va : Nat) (ws : List Nat) : Wrote s (putRecord s x va ws) := by
  unfold putRecord
  cases hr : jobPut s { x with kind := 3, user := false, insn := 0 } va (8 * ws.length) (ofLanes 64 ws) with
  | error e => exact Wrote.refl s
  | ok r =>
    obtain ⟨ps, w, y, hw⟩ := jobPut_writes hr
    change Wrote s r.1
    rw [hw]
    exact wrote_writePieces hd ..

/-- From `s` to `t` a write landed, a free value was drawn, an interrupt was raised or a unit changed. -/
def Reported (s t : State) : Prop :=
  t = { s with mem := t.mem, poison := t.poison, bbox := t.bbox, views := t.views, free := t.free, msix := t.msix, ctls := t.ctls }

theorem Wrote.reported (h : Wrote s t) : Reported s t := by
  unfold Reported
  rw [h]

theorem Reported.trans {u : State} (h1 : Reported s t) (h2 : Reported t u) : Reported s u := by
  unfold Reported at *
  rw [h2, h1]

theorem reported_completionRecord (hd : s.drains = []) (x : Src) (w : Nat) (ws : List Nat) : Reported s (completionRecord s x w ws) := by
  have hw := wrote_putRecord hd x (bits w 0 56) ws
  unfold completionRecord
  dsimp only
  generalize putRecord s x (bits w 0 56) ws = u at hw ⊢
  split
  · exact (Wrote.refl s).reported
  · split
    · exact hw.reported.trans rfl
    · exact hw.reported

theorem reported_failRecord (hd : s.drains = []) (v q issuer st : Nat) : Reported s (failRecord s v q issuer st) := by
  have hrec : ∀ (u : State) (x : Src) (w : Nat) (ws : List Nat), u.drains = [] →
      Reported u (if bit (rw v 4) 62 then setEvent (completionRecord u x w ws) issuer 1 else completionRecord u x w ws) := fun u x w ws hu => by
    have hc := reported_completionRecord hu x w ws
    generalize completionRecord u x w ws = r at hc ⊢
    split
    · rw [setEvent_frame]
      exact hc.trans rfl
    · exact hc
  unfold failRecord completeRecord
  have hdraw : Reported s (drawWord s).2 := rfl
  exact hdraw.trans (hrec (drawWord s).2 _ _ _ hd)

theorem failRecord_event (s : State) (v q issuer st : Nat) (hb : bit (rw v 4) 62 = true) (hi : issuer < 2000) :
    bit (getCtl (failRecord s v q issuer st) issuer).events 1 = true := by
  unfold failRecord completeRecord
  dsimp only
  rw [if_pos hb, setEvent_bit]
  simp [hi]

/-! ### Admission leaves the queues, the turns and the round as the head left them -/

theorem Reported.rest (h : Reported s t) : Rest s t := by
  unfold Reported at h
  rw [h]
  exact Rest.of rfl rfl rfl rfl

theorem rest_admitConfig (hd : s.drains = []) (h : Head) (o : List Nat) : Rest (departed s h) (admitConfig (quiet s) h o) := by
  have hleave := wrote_leaving hd h
  have hround : (leaving s h).round = true := hleave.rest.2.2.1
  have hdry := leaving_drains hd h
  refine hleave.rest.trans ?_
  cases hs : h.saved with
  | some z =>
    rw [admitConfig_saved hs]
    exact rest_restore hdry ..
  | none =>
    rw [admitConfig_new hs]
    by_cases him : ∃ im, admittedImage (leaving s h) h.e h.v = .ok (some im)
    · obtain ⟨im, him⟩ := him
      rw [install_image him]
      exact started_rest ..
    · rw [install_refused fun im hi => him ⟨im, hi⟩]
      obtain ⟨hq, hr, _, hn⟩ := (reported_failRecord hdry h.v h.q h.e.issuer stIMAGE).rest
      exact Rest.of hq hr hround.symm hn

/-! ### The configuration that the record becomes -/

/-- What becomes of an admitted record: its image is installed with frame 0 live, or it completes without running. -/
def Becomes (s t : State) (h : Head) (o : List Nat) : Prop :=
  (∀ im, imageFor s h = .ok (some im) →
    ∃ c, findCfg t s.nextId = some c ∧ c.id = s.nextId ∧ c.rcd = h.e.addr ∧ c.queue = h.q ∧ c.issuer = h.e.issuer ∧ c.origins = o ∧
      c.st = .running ∧ (c.frame 0).live = true ∧ ∀ d, d ∈ c.cells → Installed c im d (getCell t d)) ∧
  ((∀ im, imageFor s h ≠ .ok (some im)) → t.cfgs = s.cfgs ∧ t.cells = s.cells ∧
    (bit (rw h.v 4) 62 = true → h.e.issuer < 2000 → bit (getCtl t h.e.issuer).events 1 = true))

theorem Becomes.of {u : State} (h' : Becomes s t h o) (hf : u.cfgs = t.cfgs) (hc : u.cells = t.cells) (hu : u.ctls = t.ctls) : Becomes s u h o := by
  have hfind : ∀ i, findCfg u i = findCfg t i := fun i => by rw [findCfg, hf]; rfl
  have hcell : ∀ d, getCell u d = getCell t d := fun d => by rw [getCell, hc]; rfl
  have hctl : ∀ i, getCtl u i = getCtl t i := fun i => by rw [getCtl, hu]; rfl
  simpa only [Becomes, hfind, hcell, hctl, hf, hc] using h'

theorem admitConfig_becomes (hd : s.drains = []) (hs : h.saved = none) (hf : findCfg s s.nextId = none) :
    Becomes s (admitConfig (quiet s) h o) h o := by
  have hw := wrote_leaving hd h
  have hcfgs : (leaving s h).cfgs = s.cfgs := by rw [hw]; rfl
  have hcells : (leaving s h).cells = s.cells := by rw [hw]; rfl
  have hid : (leaving s h).nextId = s.nextId := by rw [hw]; rfl
  have himage : admittedImage (leaving s h) h.e h.v = imageFor s h := rfl
  have hdry := leaving_drains hd h
  rw [admitConfig_new hs]
  refine ⟨fun im him => ?_, fun him => ?_⟩
  · rw [install_image (himage.trans him)]
    generalize hc : newCfg (leaving s h) (leaving s h).nextId h.e h.v h.q o = c
    have hcid : c.id = s.nextId := by rw [← hc]; exact hid
    have hnew : findCfg (leaving s h) c.id = none := by rw [hcid, findCfg, hcfgs]; exact hf
    obtain ⟨consts, skips, hfound⟩ := findCfg_started im hnew
    have hfind : findCfg (started (leaving s h) c im) s.nextId = findCfg (started (leaving s h) c im) c.id := by rw [hcid]
    refine ⟨_, hfind.trans hfound, hcid, ?_, ?_, ?_, ?_, ?_, ?_, fun d hd => getCell_started (leaving s h) c im hd⟩
    · rw [← hc]; rfl
    · rw [← hc]; rfl
    · rw [← hc]; rfl
    · rw [← hc]; rfl
    · rw [← hc]; rfl
    · change (tget {} (tset {} c.frames 0 { live := true }) 0).live = true
      rw [tget_tset_self]
  · rw [install_refused fun im hi => him im (himage.symm.trans hi)]
    have hr := reported_failRecord hdry h.v h.q h.e.issuer stIMAGE
    have hev := failRecord_event (leaving s h) h.v h.q h.e.issuer stIMAGE
    generalize failRecord (leaving s h) h.v h.q h.e.issuer stIMAGE = u at hr hev ⊢
    refine ⟨?_, ?_, hev⟩
    · rw [hr]; exact hcfgs
    · rw [hr]; exact hcells

end Sys2Proof.Machine
end

section
/-! The round that admits a head, and the acts of the scheduler together (R85, R86, R114, R115, R167, R172, R175, R179, R189, R191). -/

namespace Sys2Proof.Machine
open Sys2Proof.Claims

variable {s t a : State} {hs before after : List Head} {h : Head} {o : List Nat}

/-! ### The round that admits a head -/

theorem getQueue_admitConfig (hd : s.drains = []) (h : Head) (o : List Nat) (k : Nat) :
    getQueue (admitConfig (quiet s) h o) k = if k = h.q then (getQueue s h.q).drop 1 else getQueue s k := by
  have hq := (rest_admitConfig hd h o).1
  rw [getQueue, hq]
  exact getQueue_tmod s h.q k fun l => l.drop 1

/-- The heads before an admitted one, passed over. -/
def passOver (a : State) (l : List Head) : State := l.foldl bypass (l.foldl waitStatus a)

theorem passOver_frame (hd : a.drains = []) (l : List Head) : Wrote { a with queues := (passOver a l).queues } (passOver a l) := by
  have hw := wrote_waitStatuses hd l
  have hb := bypasses_frame (hw.drains.trans hd) l
  unfold passOver
  generalize l.foldl waitStatus a = u at hw hb ⊢
  generalize l.foldl bypass u = t at hb ⊢
  unfold Wrote at *
  rw [hb, hw]

theorem getQueue_passOver (hd : a.drains = []) {l : List Head} (hn : (l.map (·.q)).Nodup) (k : Nat) :
    (∀ x, x ∈ l → x.q = k → getQueue (passOver a l) k = passedOver x.e :: (getQueue a k).drop 1) ∧
      ((∀ x, x ∈ l → x.q ≠ k) → getQueue (passOver a l) k = getQueue a k) := by
  have hw := wrote_waitStatuses hd l
  have hq : getQueue (l.foldl waitStatus a) k = getQueue a k := by rw [getQueue, hw.rest.1]; rfl
  have hb := getQueue_bypasses (hw.drains.trans hd) hn k
  rwa [hq] at hb

/-- What a round leaves that admits `h` onto `o`; each head before it stands as `f` says. -/
def Admitted (s t : State) (before : List Head) (h : Head) (o : List Nat) (f : Head → QEntry) : Prop :=
  t.round = true ∧ getQueue t h.q = (getQueue s h.q).drop 1 ∧ tget 0 t.rr (recRank h.v) = (h.q + 1) % 64 ∧
    (∀ q, q ≠ h.q → (∀ x, x ∈ before → x.q ≠ q) → getQueue t q = getQueue s q) ∧
    (∀ x, x ∈ before → getQueue t x.q = f x :: (getQueue s x.q).drop 1) ∧
    (h.saved = none → findCfg s s.nextId = none → Becomes s t h o)

/-- A starved head leaves those before it as they are. -/
theorem admitted_starved (hd : s.drains = []) (hown : ∀ x, x ∈ before → x.q ≠ h.q)
    (hhead : ∀ x, x ∈ before → getQueue s x.q = x.e :: (getQueue s x.q).drop 1) :
    Admitted s (admitConfig (quiet s) h o) before h o (·.e) := by
  obtain ⟨_, hrr, hround, _⟩ := rest_admitConfig hd h o
  refine ⟨hround, ?_, ?_, fun q hq _ => ?_, fun x hx => ?_, fun hs hf => admitConfig_becomes hd hs hf⟩
  · rw [getQueue_admitConfig hd, if_pos rfl]
  · rw [hrr]
    exact tget_tset_self ..
  · rw [getQueue_admitConfig hd, if_neg hq]
  · rw [getQueue_admitConfig hd, if_neg (hown x hx)]
    exact hhead x hx

/-- Any other head passes over those before it. -/
theorem admitted_placed (hd : s.drains = []) (hn : (before.map (·.q)).Nodup) (hown : ∀ x, x ∈ before → x.q ≠ h.q) :
    Admitted s (passOver (admitConfig (quiet s) h o) before) before h o fun x => passedOver x.e := by
  have hrest := rest_admitConfig hd h o
  have hqueue := getQueue_admitConfig hd h o
  have hbecomes : h.saved = none → findCfg s s.nextId = none → Becomes s (admitConfig (quiet s) h o) h o := admitConfig_becomes hd
  generalize admitConfig (quiet s) h o = a at hrest hqueue hbecomes ⊢
  obtain ⟨_, hrr, hround, hdrains⟩ := hrest
  have hdry : a.drains = [] := hdrains.trans hd
  have hframe := passOver_frame hdry before
  have hget := fun k => getQueue_passOver hdry hn k
  generalize passOver a before = t at hframe hget ⊢
  have hround' : t.round = a.round := by rw [hframe]
  have hrr' : t.rr = a.rr := by rw [hframe]
  refine ⟨hround'.trans hround, ?_, ?_, fun q hq hno => ?_, fun x hx => ?_, fun hs hf => (hbecomes hs hf).of ?_ ?_ ?_⟩
  · rw [(hget h.q).2 hown, hqueue, if_pos rfl]
  · rw [hrr', hrr]
    exact tget_tset_self ..
  · rw [(hget q).2 hno, hqueue, if_neg hq]
  · rw [(hget x.q).1 x hx rfl, hqueue, if_neg (hown x hx)]
  · rw [hframe]
  · rw [hframe]
  · rw [hframe]

theorem Admitted.congr {f g : Head → QEntry} (h' : Admitted s t before h o f) (hfg : ∀ x, x ∈ before → f x = g x) : Admitted s t before h o g := by
  obtain ⟨hr, hq, hrr, hother, hbefore, hcfg⟩ := h'
  exact ⟨hr, hq, hrr, hother, fun x hx => (hbefore x hx).trans (by rw [hfg x hx]), hcfg⟩

theorem find?_starved (ho : roundOrder s hs = before ++ h :: after) (hh : 8 ≤ h.e.bypass) (hb : ∀ x, x ∈ before → x.e.bypass < 8) :
    ((roundOrder s hs).find? fun h => 8 ≤ h.e.bypass) = some h := by
  refine List.find?_eq_some_iff_append.mpr ⟨decide_eq_true hh, before, after, ho, fun x hx => ?_⟩
  have := hb x hx
  simp only [Bool.not_eq_true', decide_eq_false_iff_not]
  omega

theorem round_admits (hc : considerAll s (queueHeads s) = .ok hs) (hd : s.drains = []) (hw : twf [] s.queues = true) (ha : Admits s hs before h o) :
    Admitted s (roundStep s) before h o
      fun x => { x.e with bypass := if 8 ≤ h.e.bypass then x.e.bypass else min (x.e.bypass + 1) 8 } := by
  obtain ⟨after, ho, hp, hcase⟩ := ha
  obtain ⟨hnodup, hhead⟩ := considered_heads hc hw
  have hperm := roundOrder_perm s hs
  have hn := roundOrder_nodup (s := s) hnodup
  rw [ho, List.map_append, List.map_cons] at hn
  have hown : ∀ x, x ∈ before → x.q ≠ h.q := fun x hx he =>
    List.disjoint_of_nodup_append hn (List.mem_map.mpr ⟨x, hx, rfl⟩) (he ▸ List.mem_cons_self)
  have hmem : ∀ x, x ∈ before ++ h :: after → x ∈ hs := fun x hx => hperm.mem_iff.mp (ho ▸ hx)
  rcases hcase with ⟨hst, hb⟩ | ⟨hall, hb⟩
  case inl =>
    rw [roundStep_starved hc (find?_starved ho hst hb) hp]
    refine (admitted_starved hd hown fun x hx => hhead x (hmem x (List.mem_append_left _ hx))).congr fun x _ => ?_
    rw [if_pos hst]
  case inr =>
    have hno : ¬ 8 ≤ h.e.bypass := Nat.not_le.mpr (hall h (hmem h (List.mem_append_right _ List.mem_cons_self)))
    have hf : ((roundOrder s hs).find? fun h => 8 ≤ h.e.bypass) = none := List.find?_eq_none.mpr fun x hx => by
      have := hall x (hperm.mem_iff.mp hx)
      simp only [decide_eq_true_eq]
      omega
    rw [roundStep_placed hc hf ho hb hp]
    refine (admitted_placed hd hn.of_append_left hown).congr fun x _ => ?_
    rw [if_neg hno]
    rfl

/-! ### The acts of the scheduler -/

/-- Settles O56: a round by its order and the head that it admits, if any, the choice of a ready firing by the search of R114, and the other
events by what each changes. -/
theorem schedulerActs : Obligations.SchedulerActs := by
  intro s
  refine ⟨fun _ hr => ?_, fun d => ?_, fun c hev hc hm => ?_, fun d p c hev hret => cellRetire_acts hev hret,
    fun c hev hc hm => heldState_acts hev hc hm, fun u hev ht hu => wfeTimeout_acts hev ht hu⟩
  · have hexec := exec_arbitrationRound hr
    refine ⟨⟨_, hexec⟩, fun hq => by rw [hexec, roundStep_empty hq], fun hs hc hd hw => ?_⟩
    refine ⟨roundOrder_perm s hs, (roundOrder_sorted s hs).imp headKey_le, fun hno => ⟨_, hexec, round_none hc hd hno⟩, fun before h o ha => ?_⟩
    obtain ⟨hround, hq, hrr, hother, hbefore, hcfg⟩ := round_admits hc hd hw ha
    exact ⟨_, hexec, hround, hq, hrr, hother, hbefore, fun hs _ hf _ => hcfg hs hf⟩
  · refine ⟨firingChoices_firing, firingChoices_det, fun hf hd hold => ?_, fun hf hd hno hlt => ?_⟩
    · exact firingChoices_old hf hd hold
    · exact firingChoices_frame hf hd hno hlt
  · have hexec := exec_configCompletion hev hc hm
    exact ⟨⟨_, hexec⟩, fun hs hid => ⟨_, hexec, completeCfg_gone hs hid⟩⟩

end Sys2Proof.Machine
end

section
/-! How an instruction of a controller or core acts: the rules for its body, its unit and its addresses. -/

namespace Sys2Proof.Machine
open Sys2Proof.Claims

variable {s : State} {u : Nat} {i : Instr}

/-! ### The body of an instruction -/

/-- The body of a unit's instruction runs with the pc behind it. -/
theorem onCtls_runs {body : Nat → Nat → State → R State} (h : CtlRuns s u i) :
    onCtls i s body = ctlOutcome s u i (body u (getCtl s u).pc (past s u i)) := runInstr_ctl h.1 h.2.1 h.2.2

theorem onCtls_ok {t : State} {body : Nat → Nat → State → R State} (h : CtlRuns s u i) (hb : body u (getCtl s u).pc (past s u i) = .ok t) :
    onCtls i s body = .next t := runInstr_ctl_ok h.1 h.2.1 h.2.2 hb

theorem onCtls_trap {e : Trap} {body : Nat → Nat → State → R State} (h : CtlRuns s u i)
    (hb : body u (getCtl s u).pc (past s u i) = .error (.trap e)) : onCtls i s body = .next (takeCtlTrap s u (getCtl s u).pc e) :=
  runInstr_ctl_trap h.1 h.2.1 h.2.2 hb

@[simp] theorem getCtl_past (s : State) (u v : Nat) (i : Instr) : getCtl (past s u i) v = if v = u then behind s u i else getCtl s v :=
  getCtl_setCtl s u v _

@[simp] theorem g_behind (s : State) (u : Nat) (i : Instr) (r : Nat) : (behind s u i).g r = (getCtl s u).g r := rfl

@[simp] theorem readG_past (s : State) (u v : Nat) (i : Instr) (r : Spec) : readG (past s u i) v r = readG s v r := by
  by_cases h : v = u
  · subst h; simp [readG]
  · simp [readG, h]

/-- What a body makes of its unit. -/
theorem modCtl_past (s : State) (u : Nat) (i : Instr) (g : Ctl → Ctl) : modCtl (past s u i) u g = setCtl s u (g (behind s u i)) := by
  rw [modCtl, getCtl_past, if_pos rfl, past, setCtl_setCtl]

theorem onlyCtl_set (s : State) (u : Nat) (x : Ctl) : OnlyCtl s (setCtl s u x) u x :=
  ⟨rfl, by simp, fun v hv => by simp [hv], fun _ => rfl⟩

/-- An instruction whose body changes its unit alone. -/
theorem onCtls_only {x : Ctl} {body : Nat → Nat → State → R State} (h : CtlRuns s u i)
    (hb : body u (getCtl s u).pc (past s u i) = .ok (setCtl s u x)) : ∃ t, onCtls i s body = .next t ∧ OnlyCtl s t u x :=
  ⟨_, onCtls_ok h hb, onlyCtl_set s u x⟩

/-! ### Addresses and signed numbers -/

theorem toSigned_eq_toInt {w : Nat} (x : BitVec w) (hw : 0 < w) : toSigned w x.toNat = x.toInt := by
  obtain ⟨n, rfl⟩ := Nat.exists_eq_succ_of_ne_zero hw.ne'
  have hx := x.isLt
  rw [toSigned, BitVec.toInt, Nat.mod_eq_of_lt hx, Nat.succ_sub_one, Nat.pow_succ]
  split <;> split <;> omega

theorem ofNat_wrap (z : Int) : BitVec.ofNat 64 (wrap 64 z) = BitVec.ofInt 64 z := by
  apply BitVec.eq_of_toNat_eq
  rw [BitVec.toNat_ofNat, BitVec.toNat_ofInt, wrap, Nat.mod_eq_of_lt]
  omega

/-- The target of a branch or jump is what the claims say (R72, R150). -/
theorem relTarget_eq_pcRel {n : Nat} (pc : Nat) (o : BitVec n) (hn : 0 < n) : relTarget pc n o.toNat = pcRel pc o := by
  have h : BitVec.ofNat 64 pc + 4 * o.signExtend 64 = BitVec.ofInt 64 (pc + 4 * o.toInt) := by
    rw [BitVec.ofInt_add, BitVec.ofInt_mul, BitVec.ofInt_natCast]
    rfl
  rw [pcRel, h, relTarget, toSigned_eq_toInt o hn, BitVec.toNat_ofInt, wrap]

end Sys2Proof.Machine
end

section
/-! Branches and jumps (R72, R150, R151, R163). -/

namespace Sys2Proof.Machine
open Sys2Proof.Claims

variable {s : State} {u : Nat} {i : Instr}

/-- A taken branch or jump gives its unit what the claims say. -/
theorem jumpTo_setCtl (s : State) (u : Nat) (x : Ctl) (target : Nat) : jumpTo (setCtl s u x) u target = setCtl s u (jumped x target) := by
  simp only [jumpTo, modCtl, jumped, Bool.not_eq_true', getCtl_setCtl, if_true, setCtl_setCtl]

/-- A branch row runs as a branch whose comparison of numbers is the row's comparison of words. -/
theorem exec_branch {a b : GSpec} {o : BitVec 13} {p : Word → Word → Bool} (h : branches i = some (a, b, o, p)) :
    ∃ q, exec i s = branch i q a b o s ∧ ∀ x y : Word, q x.toNat y.toNat = p x y := by
  have hint : ∀ x : Word, toSigned 64 x.toNat = x.toInt := fun x => toSigned_eq_toInt x (by decide)
  cases i <;> simp only [branches, reduceCtorEq] at h
  case beq => cases h; exact ⟨fun x y => x == y, rfl, fun x y => by rw [Bool.eq_iff_iff, beq_iff_eq, beq_iff_eq, BitVec.toNat_inj]⟩
  case bne => cases h; exact ⟨fun x y => x != y, rfl, fun x y => by rw [Bool.eq_iff_iff, bne_iff_ne, bne_iff_ne, ne_eq, BitVec.toNat_inj]⟩
  case blt => cases h; exact ⟨fun x y => toSigned 64 x < toSigned 64 y, rfl, fun x y => by simp only [hint]; rfl⟩
  case bge => cases h; exact ⟨fun x y => toSigned 64 y ≤ toSigned 64 x, rfl, fun x y => by simp only [hint]; rfl⟩
  case bltu => cases h; exact ⟨fun x y => x < y, rfl, fun x y => rfl⟩
  case bgeu => cases h; exact ⟨fun x y => y ≤ x, rfl, fun x y => rfl⟩

theorem jumpLink_aligned {pc target : Nat} (l : GSpec) (h : target % 4 = 0) :
    jumpLink (past s u i) u pc l target = .ok (setCtl s u (jumped ((behind s u i).setG l.toNat (BitVec.ofNat 64 (pc + 4))) target)) := by
  rw [jumpLink, if_neg (not_not_intro h), modCtl_past, jumpTo_setCtl]

/-- Settles O18: a branch row is a branch (`exec_branch`), and a jump writes its link and goes on at an aligned target (`jumpLink_aligned`). -/
theorem branchesAndJumps : Obligations.BranchesAndJumps := by
  refine ⟨fun i a b o p s u hi hr => ?_, fun s u l => ⟨fun o hr ht => ?_, fun hr ht => ?_, fun hr ht => ?_⟩⟩
  · obtain ⟨q, hq, hp⟩ := exec_branch (s := s) hi
    rw [hq]
    refine onCtls_only hr ?_
    simp only [getCtl_past, if_true, g_behind, hp]
    split
    · rw [relTarget_eq_pcRel _ _ (by decide)]
      exact congrArg Except.ok (jumpTo_setCtl ..)
    · rfl
  · change ∃ t, execJal l o s = .next t ∧ _
    refine onCtls_only hr ?_
    rw [relTarget_eq_pcRel _ _ (by decide)]
    exact jumpLink_aligned l ht
  · change ∃ t, execJalr l s = .next t ∧ _
    refine onCtls_only hr ?_
    rw [getCtl_past, if_pos rfl, g_behind]
    exact jumpLink_aligned l ht
  · change execJalr l s = _
    refine onCtls_trap hr ?_
    rw [getCtl_past, if_pos rfl, g_behind]
    exact if_pos ht

end Sys2Proof.Machine
end

section
/-! LDC and STC (R153 to R155, R193, R441). -/

namespace Sys2Proof.Machine
open Sys2Proof.Claims

variable {s : State} {u : Nat}

/-! ### One aligned write -/

theorem readNat_lt (s : State) (pa n : Nat) : readNat s pa n < 256 ^ n := by
  rw [show (256 : Nat) = 2 ^ 8 by rfl, ← Nat.pow_mul]
  exact Nat.lt_pow_two_of_testBit _ fun i hi => by rw [testBit_readNat, decide_eq_false (by omega), Bool.false_and]

theorem readNat_of_mem {t : State} (h : t.mem = s.mem) (pa n : Nat) : readNat t pa n = readNat s pa n := by
  induction n generalizing pa with
  | zero => rfl
  | succ n ih => rw [readNat, readNat, ih, memByte, memByte, h]

theorem byteSpan_bytes (pa n : Nat) : byteSpan (pa * 8) (n * 8) = n := by simp [byteSpan]; omega

/-- A write of whole bytes as bits. -/
theorem writeBits_bytes (s : State) (pa n v : Nat) (hv : v < 256 ^ n) : writeBits s (pa * 8) (n * 8) v = writeNat s pa n v := by
  have hn : (256 : Nat) ^ n = 2 ^ (n * 8) := by rw [Nat.mul_comm, Nat.pow_mul]
  have hold : readNat s pa n >>> (n * 8) = 0 := Nat.shiftRight_eq_zero _ _ (hn ▸ readNat_lt s pa n)
  simp [writeBits, byteSpan_bytes, hold, Nat.mod_one, Nat.mod_eq_of_lt (hn ▸ hv)]

theorem touchedPoison_bytes {pa n v : Nat} (h : poisonedRange s pa n = false) : touchedPoison s [(pa * 8, n * 8, v)] = [] := by
  unfold touchedPoison
  split
  · rfl
  · refine List.filter_eq_nil_iff.mpr fun g hg => ?_
    have hg' := List.any_eq_false.mp h g hg
    revert hg'
    cases granuleOf g with
    | none => exact fun _ => by simp
    | some q =>
      simp only [List.any_cons, List.any_nil, Bool.or_false, Bool.and_eq_true, decide_eq_true_eq]
      omega

/-- A write that no checkpoint waits for and no uncorrectable granule drops reaches memory, and is noted for those who need not have seen it. -/
theorem writePieces_bytes {pa n v : Nat} (w : Nat) (y : Src) (hd : s.drains = []) (hp : poisonedRange s pa n = false) (hv : v < 256 ^ n) :
    writePieces s [(pa * 8, n * 8, v)] w y =
      ({ writeNat s pa n v with views := noteViews s [(pa * 8, n * 8, v)] y }, []) := by
  have hbits : poisonedBits s (pa * 8) (n * 8) = false := by
    rw [poisonedBits, byteSpan_bytes, Nat.mul_div_cancel _ (by decide)]
    exact hp
  have hland : landPieces s [(pa * 8, n * 8, v)] w = (writeNat s pa n v, []) := by
    simp [landPieces, touchedPoison_bytes hp, hbits, writeBits_bytes s pa n v hv]
  simp only [writePieces, List.foldl_cons, List.foldl_nil, drainAll, if_pos hd, hland]

/-! ### The unit's own translation entry (R414) -/

theorem ctlRefill_frame (s : State) (u : Nat) (src : Src) (va : Nat) :
    ctlRefill s u src va = { s with tlbs := (ctlRefill s u src va).tlbs } := by
  unfold ctlRefill
  split <;> rfl

/-! ### The checks of an address (R153, R193) -/

/-- The address of LDC and STC. -/
def ctlAddr (s : State) (u : Nat) (a b : Spec) : Nat := (readG s u a + readG s u b) % 2 ^ 64

/-- What a unit's access of `n` bytes checks at its address before it does `k`. -/
def atAddr {α : Type} (va n : Nat) (k : R α) : R α := if 2 ^ 56 ≤ va then trapR cTRANSL 0 va else if va % n ≠ 0 then trapR cALIGN 0 va else k

theorem atAddr_ok {α : Type} {va n : Nat} (k : R α) (hva : va < 2 ^ 56) (hal : va % n = 0) : atAddr va n k = k := by
  rw [atAddr, if_neg (Nat.not_le.mpr hva), if_neg (not_not_intro hal)]

/-- An access whose address is refused takes the trap of the check. -/
theorem onCtls_badAddr {i : Instr} {va n : Nat} {body : Nat → Nat → State → R State} (h : CtlRuns s u i)
    (hb : ∃ k, body u (getCtl s u).pc (past s u i) = atAddr va n k) :
    (2 ^ 56 ≤ va → onCtls i s body = .next (takeCtlTrap s u (getCtl s u).pc (cause cTRANSL 0 va))) ∧
    (va < 2 ^ 56 → va % n ≠ 0 → onCtls i s body = .next (takeCtlTrap s u (getCtl s u).pc (cause cALIGN 0 va))) := by
  obtain ⟨k, hb⟩ := hb
  refine ⟨fun hva => onCtls_trap h ?_, fun hva hal => onCtls_trap h ?_⟩
  · rw [hb, atAddr, if_pos hva]
    rfl
  · rw [hb, atAddr, if_neg (Nat.not_le.mpr hva), if_pos hal]
    rfl

theorem cmemSize_store (m : BitVec 2) : cmemSize m.toNat = 2 ^ m.toNat := by rw [cmemSize, Nat.mod_eq_of_lt m.isLt]

/-! ### The value of a load and the effect of a store -/

/-- The value that LDC extends by its sign (R153). -/
theorem ofNat_signed (n v : Nat) (hn : 0 < n) : BitVec.ofNat 64 (wrap 64 (toSigned n v)) = (BitVec.ofNat n v).signExtend 64 := by
  rw [ofNat_wrap, BitVec.signExtend, ← toSigned_eq_toInt _ hn, BitVec.toNat_ofNat, toSigned, toSigned, Nat.mod_mod]

/-- What a unit's access shows the owners. -/
def ctlAccess (p : State) (u pc : Nat) (kind : AccKind) (pa n : Nat) (wr : Bool) (va : Nat) : InFlight :=
  ⟨0, ctlSrc p u pc, kind, [⟨pa * 8, n * 8, wr, va⟩], 3, 0, 0⟩

theorem checkNow_clear {me : InFlight} (h : raceOf s me = none) : checkNow s me = .ok () := by rw [checkNow, h]

/-- A load leaves its unit and the unit's own translation entry changed, and nothing else. -/
theorem onlyCtlTlb_refill (s : State) (u : Nat) (i : Instr) (x : Src) (va : Nat) (g : Ctl → Ctl) :
    OnlyCtlTlb s (modCtl (ctlRefill (past s u i) u x va) u g) u (g (behind s u i)) := by
  have hctl : ∀ v, getCtl (ctlRefill (past s u i) u x va) v = if v = u then behind s u i else getCtl s v := fun v => by
    rw [ctlRefill_frame, ← getCtl_past]
    rfl
  have hmem : (ctlRefill (past s u i) u x va).mem = s.mem := by rw [ctlRefill_frame]; rfl
  refine ⟨?_, by simp [hctl], fun v hv => by simp [hctl, hv], fun y => congrArg (tget 0 · y) hmem⟩
  rw [ctlRefill_frame]
  rfl

theorem exec_ldc {d a b : Spec} {m : BitVec 3} {pa : Nat} {e : TlbEntry} (h : CtlRuns s u (.ldc d a b m))
    (hva : ctlAddr s u a b < 2 ^ 56) (hal : ctlAddr s u a b % cmemSize m.toNat = 0) :
    let p := past s u (.ldc d a b m)
    let x := ctlSrc p u (getCtl s u).pc
    let n := cmemSize m.toNat
    translate p (ctlStream u) x .read (ctlAddr s u a b) n = .ok (pa, e) → poisonedRange s pa n = false →
    raceOf p (ctlAccess p u (getCtl s u).pc .load pa n false (ctlAddr s u a b)) = none →
    exec (.ldc d a b m) s = .next (writeG (ctlRefill p u x (ctlAddr s u a b)) u d
      (if cmemSigned m.toNat then wrap 64 (toSigned (8 * n) (readNat s pa n)) else readNat s pa n)) := by
  intro p x n ht hp hr
  change execLdc d a b m s = _
  refine onCtls_ok h ?_
  simp only [readG_past]
  refine (atAddr_ok _ hva hal).trans ?_
  change (do
    let q ← translate p (ctlStream u) x .read (ctlAddr s u a b) n
    _) = _
  rw [ht]
  change (do
    checkNow p (ctlAccess p u (getCtl s u).pc .load pa n false (ctlAddr s u a b))
    _) = _
  rw [checkNow_clear hr]
  have hp' : ¬ poisonedRange p pa n = true := Bool.eq_false_iff.mp hp
  change (if poisonedRange p pa n = true then _ else _) = _
  rw [if_neg hp']
  change Except.ok (writeG _ u d (if cmemSigned m.toNat then wrap 64 (toSigned (8 * n) (readNat p pa n)) else readNat p pa n)) = _
  rw [readNat_of_mem (show p.mem = s.mem from rfl)]
  rfl

theorem exec_stc {d a b : Spec} {m : BitVec 2} {pa : Nat} {e : TlbEntry} (h : CtlRuns s u (.stc d a b m))
    (hva : ctlAddr s u a b < 2 ^ 56) (hal : ctlAddr s u a b % cmemSize m.toNat = 0) :
    let p := past s u (.stc d a b m)
    let x := ctlSrc p u (getCtl s u).pc
    let n := cmemSize m.toNat
    let r := ctlRefill p u x (ctlAddr s u a b)
    translate p (ctlStream u) x .write (ctlAddr s u a b) n = .ok (pa, e) → s.drains = [] → poisonedRange s pa n = false →
    raceOf p (ctlAccess p u (getCtl s u).pc .store pa n true (ctlAddr s u a b)) = none →
    exec (.stc d a b m) s = .next { writeNat r pa n (readG s u d % 256 ^ n) with
      views := noteViews r [(pa * 8, n * 8, readG s u d % 256 ^ n)] anyone } := by
  intro p x n r ht hd hp hr
  change execStc d a b m s = _
  refine onCtls_ok h ?_
  simp only [readG_past]
  refine (atAddr_ok _ hva hal).trans ?_
  change (do
    let q ← translate p (ctlStream u) x .write (ctlAddr s u a b) n
    _) = _
  rw [ht]
  change (do
    checkNow p (ctlAccess p u (getCtl s u).pc .store pa n true (ctlAddr s u a b))
    _) = _
  rw [checkNow_clear hr]
  have hrd : r.drains = [] := by rw [show r = _ from ctlRefill_frame ..]; exact hd
  have hrp : poisonedRange r pa n = false := by rw [show r = _ from ctlRefill_frame ..]; exact hp
  have hw := writePieces_bytes x.insn.toNat anyone hrd hrp (Nat.mod_lt (readG s u d) (Nat.pow_pos (by decide : 0 < 256)))
  change Except.ok (if (writePieces r _ _).2 = [] then (writePieces r _ _).1 else _) = _
  rw [hw, if_pos rfl]

/-- The value that LDC gives (R153). -/
theorem ldc_value (m : BitVec 3) (v : Nat) :
    BitVec.ofNat 64 (if cmemSigned m.toNat then wrap 64 (toSigned (8 * cmemSize m.toNat) v) else v) =
      if m.toNat < 4 then BitVec.ofNat 64 v else (BitVec.ofNat (8 * cmemSize m.toNat) v).signExtend 64 := by
  have hn : 0 < 8 * cmemSize m.toNat := Nat.mul_pos (by decide) (Nat.pow_pos (by decide))
  by_cases hm : m.toNat < 4
  · simp [cmemSigned, hm, Nat.not_le.mpr hm]
  · simp only [cmemSigned, hm, Nat.not_lt.mp hm, decide_true, if_true, if_false, ofNat_signed _ _ hn]

/-- The store's write leaves its unit behind it, and nothing else changed but memory, its own translation entry and what loads need not have seen. -/
theorem store_leaves (s : State) (u : Nat) (i : Instr) (x : Src) (va pa n v : Nat) (w : Table (List View)) :
    let t : State := { writeNat (ctlRefill (past s u i) u x va) pa n v with views := w }
    t = { s with ctls := t.ctls, tlbs := t.tlbs, mem := t.mem, views := t.views } ∧ getCtl t u = behind s u i ∧
      (∀ w, w ≠ u → getCtl t w = getCtl s w) ∧ readNat t pa n = v % 256 ^ n ∧ ∀ y, ¬ (pa ≤ y ∧ y < pa + n) → memByte t y = memByte s y := by
  intro t
  obtain ⟨l, hl⟩ : ∃ l, ctlRefill (past s u i) u x va = { past s u i with tlbs := l } := ⟨_, ctlRefill_frame ..⟩
  obtain ⟨m, hm⟩ : ∃ m, writeNat (ctlRefill (past s u i) u x va) pa n v = { past s u i with tlbs := l, mem := m } :=
    ⟨_, (writeNat_frame ..).trans (by rw [hl])⟩
  have hctl : ∀ v, getCtl t v = getCtl (past s u i) v := fun v => by simp only [t, hm]; rfl
  refine ⟨by simp only [t, hm]; rfl, by simp [hctl], fun v hv => by simp [hctl, hv], ?_, fun y hy => ?_⟩
  · rw [readNat_of_mem (t := t) (s := writeNat (ctlRefill (past s u i) u x va) pa n v) rfl]
    exact readNat_writeNat ..
  · change memByte (writeNat (ctlRefill (past s u i) u x va) pa n v) y = _
    rw [memByte_writeNat, if_neg hy, hl]
    rfl

/-- Settles O19: LDC by `exec_ldc` and STC by `exec_stc` where their address passes, and `onCtls_badAddr` where it does not. -/
theorem controllerMemory : Obligations.ControllerMemory := by
  refine ⟨fun s u d a b m pa e h => ?_, fun s u d a b m pa e h => ?_, fun s u d a b => ⟨fun m h => ?_, fun m h => ?_⟩⟩
  · intro p n va hva hal ht hp hr
    refine ⟨_, exec_ldc h hva hal ht hp hr, ?_⟩
    have hv := ldc_value m (readNat s pa n)
    change _ = if m.toNat < 4 then _ else _ at hv
    rw [show 8 * n = 8 * cmemSize m.toNat from rfl, ← hv]
    exact onlyCtlTlb_refill ..
  · intro p n va hva hal ht hd hp hr
    have hn : n = cmemSize m.toNat := (cmemSize_store m).symm
    rw [hn] at hal ht hp hr ⊢
    have hs := store_leaves s u (.stc d a b m) (ctlSrc p u (getCtl s u).pc) va pa (cmemSize m.toNat) (readG s u d % 256 ^ cmemSize m.toNat)
    rw [Nat.mod_mod] at hs
    exact ⟨_, exec_stc h hva hal ht hd hp hr, hs _⟩
  · change (_ → execLdc d a b m s = _) ∧ (_ → _ → execLdc d a b m s = _)
    refine onCtls_badAddr h ?_
    simp only [readG_past]
    exact ⟨_, rfl⟩
  · change (_ → execStc d a b m s = _) ∧ (_ → _ → execStc d a b m s = _)
    rw [← cmemSize_store]
    refine onCtls_badAddr h ?_
    simp only [readG_past]
    exact ⟨_, rfl⟩

end Sys2Proof.Machine
end

section
/-! Control registers (R156 to R162, R410, R422, R445, R461). -/

namespace Sys2Proof.Machine
open Sys2Proof.Claims

variable {s : State} {u n : Nat}

/-! ### What a control register reads -/

/-- The control registers that are the unit's own and that a CWR writes. -/
def Ctl.ownReg (x : Ctl) (j : Nat) : Word := match j with
  | 7 => x.dbgctl
  | 56 => x.wbase
  | 57 => x.wlen
  | 58 => x.wctl
  | 60 => x.svvec
  | 61 => x.epc
  | 98 => x.disppc
  | _ => 0

/-- What else of a unit its control registers show. -/
def Ctl.shown (x : Ctl) : Option TrapRec × Bool × Nat × Bool × List TrapRec × Bool := (x.rcd, x.handler, x.asn, x.user, x.queue, x.dispFail)

/-- A control register reads as before where its unit shows the same. -/
theorem crRead_setCtl {x : Ctl} {j : Nat} (hs : x.shown = (getCtl s u).shown) (ho : x.ownReg j = (getCtl s u).ownReg j) :
    crRead (setCtl s u x) u j = crRead s u j := by
  simp only [Ctl.shown, Prod.mk.injEq] at hs
  obtain ⟨hrcd, hhandler, hasn, huser, hqueue, hfail⟩ := hs
  unfold crRead
  simp only [getCtl_setCtl, if_true, hrcd, hhandler, hasn, huser, hqueue, hfail]
  split
  · rfl
  · split <;> simp_all only [Ctl.ownReg] <;> rfl

@[simp] theorem crRead_past (s : State) (u : Nat) (i : Instr) (j : Nat) : crRead (past s u i) u j = crRead s u j := crRead_setCtl rfl rfl

@[simp] theorem crCheck_past (s : State) (u n : Nat) (i : Instr) (w : Bool) : crCheck (past s u i) u n w = crCheck s u n w := by
  simp only [crCheck, getCtl_past, if_true]
  rfl

/-! ### What a write changes -/

/-- The registers that a CWR writes. -/
def crWritten : List Nat := [7, 56, 57, 58, 60, 61, 64, 97, 98]

/-- No register beyond PWREQ is assigned. -/
theorem crKind_beyond {core : Bool} (h : 100 < n) : crKind core n = .none := by
  rw [crKind, if_neg (by omega), if_neg (by omega), if_neg (by omega), if_neg (by omega), if_neg (by omega), if_neg (by omega),
    if_neg (by omega), if_neg (by omega), if_neg (by omega), if_neg (by omega), if_neg (by omega)]

/-- The registers that may be written at all are these and the command registers. -/
theorem crKind_write {core : Bool} (h : crKind core n = .readWrite ∨ crKind core n = .superWrite) : n ∈ crWritten ∨ n = 99 ∨ n = 100 := by
  have hall : ∀ n < 101, ∀ core, (crKind core n = .readWrite ∨ crKind core n = .superWrite) → n ∈ crWritten ∨ n = 99 ∨ n = 100 := by decide +kernel
  by_cases hn : n < 101
  · exact hall n hn core h
  · rw [crKind_beyond (by omega)] at h
    simp at h

theorem crCheck_write (h : crCheck s u n true = .ok ()) : n ∈ crWritten ∨ n = 99 ∨ n = 100 := by
  refine crKind_write (core := isCore u) ?_
  revert h
  unfold crCheck
  cases crKind (isCore u) n with
  | none => exact nofun
  | readOnly => exact nofun
  | readWrite => exact fun _ => .inl rfl
  | superRead =>
    cases (getCtl s u).user
    · exact nofun
    · exact nofun
  | superWrite => exact fun _ => .inr rfl

theorem crRead_crWrite_self {v : Nat} (hn : n ∈ crWritten) (hv : v < 2 ^ 64) : crRead (crWrite s u n v) u n = v := by
  have hw : (BitVec.ofNat 64 v).toNat = v := by rw [BitVec.toNat_ofNat, Nat.mod_eq_of_lt hv]
  simp only [crWritten, List.mem_cons, List.not_mem_nil, or_false] at hn
  rcases hn with rfl | rfl | rfl | rfl | rfl | rfl | rfl | rfl | rfl <;>
    exact Eq.trans (by simp [crRead, crWrite]) hw

/-- The unit with a control register of its own written. -/
def Ctl.setOwn (x : Ctl) (n : Nat) (w : Word) : Ctl := match n with
  | 7 => { x with dbgctl := w }
  | 56 => { x with wbase := w }
  | 57 => { x with wlen := w }
  | 58 => { x with wctl := w }
  | 60 => { x with svvec := w }
  | 61 => { x with epc := w }
  | 98 => { x with disppc := w }
  | _ => x

theorem Ctl.setOwn_keeps (x : Ctl) (n : Nat) (w : Word) :
    (x.setOwn n w).shown = x.shown ∧ (x.setOwn n w).pc = x.pc ∧ ∀ r, (x.setOwn n w).g r = x.g r := by
  unfold Ctl.setOwn
  split <;> exact ⟨rfl, rfl, fun _ => rfl⟩

theorem Ctl.ownReg_setOwn_ne (x : Ctl) (w : Word) {n j : Nat} (h : j ≠ n) : (x.setOwn n w).ownReg j = x.ownReg j := by
  unfold Ctl.setOwn
  split
  case h_8 => rfl
  all_goals
    unfold Ctl.ownReg
    split <;> simp_all

/-- A write is one of the table base, of the telemetry base, or of the unit's own register. -/
theorem crWrite_cases (hn : n ∈ crWritten) (s : State) (u v : Nat) :
    (n = 64 ∧ crWrite s u n v = { s with ttbase := BitVec.ofNat 64 v }) ∨ (n = 97 ∧ crWrite s u n v = { s with telbase := BitVec.ofNat 64 v }) ∨
      crWrite s u n v = modCtl s u fun x => x.setOwn n (BitVec.ofNat 64 v) := by
  simp only [crWritten, List.mem_cons, List.not_mem_nil, or_false] at hn
  rcases hn with rfl | rfl | rfl | rfl | rfl | rfl | rfl | rfl | rfl
  case inr.inr.inr.inr.inr.inr.inl => exact .inl ⟨rfl, rfl⟩
  case inr.inr.inr.inr.inr.inr.inr.inl => exact .inr (.inl ⟨rfl, rfl⟩)
  all_goals exact .inr (.inr rfl)

theorem crRead_ttbase (s : State) (u : Nat) (w : Word) {j : Nat} (h : j ≠ 64) : crRead { s with ttbase := w } u j = crRead s u j := by
  unfold crRead
  split
  · rfl
  · split <;> simp_all only [ne_eq, not_true_eq_false] <;> rfl

theorem crRead_telbase (s : State) (u : Nat) (w : Word) {j : Nat} (h : j ≠ 97) : crRead { s with telbase := w } u j = crRead s u j := by
  unfold crRead
  split
  · rfl
  · split <;> simp_all only [ne_eq, not_true_eq_false] <;> rfl

/-- What a write leaves unchanged. -/
theorem crWrite_keeps (hn : n ∈ crWritten) (s : State) (u v : Nat) :
    let t := crWrite s u n v
    t = { s with ctls := t.ctls, ttbase := t.ttbase, telbase := t.telbase } ∧ (∀ j, j ≠ n → crRead t u j = crRead s u j) ∧
      (∀ r, (getCtl t u).g r = (getCtl s u).g r) ∧ (getCtl t u).pc = (getCtl s u).pc ∧ (∀ w, w ≠ u → getCtl t w = getCtl s w) ∧ SameMem s t := by
  intro t
  rcases crWrite_cases hn s u v with ⟨rfl, ht⟩ | ⟨rfl, ht⟩ | ht
  · rw [show t = _ from ht]
    exact ⟨rfl, fun j hj => crRead_ttbase s u _ hj, fun _ => rfl, rfl, fun _ _ => rfl, fun _ => rfl⟩
  · rw [show t = _ from ht]
    exact ⟨rfl, fun j hj => crRead_telbase s u _ hj, fun _ => rfl, rfl, fun _ _ => rfl, fun _ => rfl⟩
  · obtain ⟨hshown, hpc, hg⟩ := (getCtl s u).setOwn_keeps n (BitVec.ofNat 64 v)
    rw [show t = _ from ht]
    refine ⟨rfl, fun j hj => crRead_setCtl hshown (Ctl.ownReg_setOwn_ne _ _ hj), fun r => ?_, ?_, fun w hw => by simp [hw], fun _ => rfl⟩
    · rw [getCtl_modCtl, if_pos rfl, hg]
    · rw [getCtl_modCtl, if_pos rfl, hpc]

/-! ### The instructions -/

theorem exec_crd {d : Spec} {k : BitVec 11} (h : CtlRuns s u (.crd d k)) (hc : crCheck s u k.toNat false = .ok ()) :
    ∃ t, exec (.crd d k) s = .next t ∧ OnlyCtl s t u ((behind s u (.crd d k)).setG d.toNat (BitVec.ofNat 64 (crRead s u k.toNat))) := by
  change ∃ t, execCrd d k s = .next t ∧ _
  refine onCtls_only h ?_
  rw [crCheck_past, hc, crRead_past]
  exact congrArg Except.ok (modCtl_past ..)

theorem exec_crd_refused {d : Spec} {k : BitVec 11} {e : Trap} (h : CtlRuns s u (.crd d k)) (hc : crCheck s u k.toNat false = .error (.trap e)) :
    exec (.crd d k) s = .next (takeCtlTrap s u (getCtl s u).pc e) := by
  change execCrd d k s = _
  refine onCtls_trap h ?_
  rw [crCheck_past, hc]
  rfl

theorem crStore_refused {e : Trap} {v : Nat} (hc : crCheck s u n true = .error (.trap e)) : crStore s u n v = .error (.trap e) := by
  rw [crStore, hc]
  rfl

theorem crStore_unfit {v : Nat} (hc : crCheck s u n true = .ok ()) (hf : crFits n v = false) : crStore s u n v = .error (.trap (tIllop 0)) := by
  rw [crStore, hc]
  exact if_pos (by simp [hf])

/-- A write that fits writes, or commands. -/
theorem crStore_fits {v : Nat} (hc : crCheck s u n true = .ok ()) (hf : crFits n v = true) :
    crStore s u n v = if n = 99 then dispatch s u v else if n = 100 then .ok (requestPower s v) else .ok (crWrite s u n v) := by
  rw [crStore, hc]
  exact if_neg (by simp [hf])

theorem exec_cwr_refused {a : Spec} {k : BitVec 11} {e : Trap} (h : CtlRuns s u (.cwr a k)) (hc : crCheck s u k.toNat true = .error (.trap e)) :
    exec (.cwr a k) s = .next (takeCtlTrap s u (getCtl s u).pc e) := by
  change execCwr a k s = _
  exact onCtls_trap h (crStore_refused (by rw [crCheck_past, hc]))

theorem readG_lt (s : State) (u : Nat) (r : Spec) : readG s u r < 2 ^ 64 := BitVec.isLt _

theorem exec_cwr {a : Spec} {k : BitVec 11} (h : CtlRuns s u (.cwr a k)) (hd : k.toNat ≠ 99) (hp : k.toNat ≠ 100)
    (hc : crCheck s u k.toNat true = .ok ()) (hf : crFits k.toNat (readG s u a) = true) :
    exec (.cwr a k) s = .next (crWrite (past s u (.cwr a k)) u k.toNat (readG s u a)) := by
  change execCwr a k s = _
  refine onCtls_ok h ?_
  rw [readG_past, crStore_fits (by rw [crCheck_past, hc]) hf, if_neg hd, if_neg hp]

/-- The mode is checked before the direction (log entry 56). -/
theorem crCheck_user (w : Bool) (hk : crKind (isCore u) n = .superRead ∨ crKind (isCore u) n = .superWrite) (hu : (getCtl s u).user = true) :
    crCheck s u n w = .error (.trap (cause cPERM dMODE)) := by
  rcases hk with hk | hk <;> simp only [crCheck, hk, hu, if_true] <;> rfl

theorem crCheck_unassigned (w : Bool) (hk : crKind (isCore u) n = .none) : crCheck s u n w = .error (.trap (tIllop 0)) := by
  simp only [crCheck, hk]
  rfl

theorem crCheck_readOnly (hk : crKind (isCore u) n = .readOnly) : crCheck s u n true = .error (.trap (tIllop 0)) := by
  simp only [crCheck, hk]
  rfl

/-- Settles O20: a permitted access by `exec_crd` and `exec_cwr` with what a write keeps (`crWrite_keeps`), the others by their check. -/
theorem controlRegisters : Obligations.ControlRegisters := by
  refine ⟨fun s u n k hk => ⟨fun d h hc => ?_, fun a h hd hp hc hf => ?_⟩, fun s u n k hk => ⟨fun d h => ⟨fun hn => ?_, fun hn hu => ?_⟩,
    fun a h => ⟨fun hn => ?_, fun hn hu => ?_, fun hc hf => ?_⟩⟩⟩
  all_goals subst hk
  · exact exec_crd h hc
  · have hn : k.toNat ∈ crWritten := (crCheck_write hc).resolve_right (by omega)
    obtain ⟨hframe, hreads, hg, hpc, hothers, hmem⟩ := crWrite_keeps hn (past s u (.cwr a k)) u (readG s u a)
    refine ⟨_, exec_cwr h hd hp hc hf, hframe, crRead_crWrite_self hn (readG_lt s u a), fun j hj => ?_, fun r => ?_, ?_, fun v hv => ?_, hmem⟩
    · rw [hreads j hj, crRead_past]
    · rw [hg, getCtl_past, if_pos rfl, g_behind]
    · rw [hpc, getCtl_past, if_pos rfl]
      rfl
    · rw [hothers v hv, getCtl_past, if_neg hv]
  · exact exec_crd_refused h (crCheck_unassigned false hn)
  · exact exec_crd_refused h (crCheck_user false hn hu)
  · exact exec_cwr_refused h (hn.elim (crCheck_unassigned true) crCheck_readOnly)
  · exact exec_cwr_refused h (crCheck_user true hn hu)
  · change execCwr a k s = _
    refine onCtls_trap h ?_
    rw [readG_past]
    exact crStore_unfit (by rw [crCheck_past, hc]) hf

end Sys2Proof.Machine
end

section
/-! The command registers DISPGO (R162) and PWREQ (R461). -/

namespace Sys2Proof.Machine
open Sys2Proof.Claims

variable {s : State} {u : Nat}

/-! ### Checks -/

/-- A supervisor may write a command register. -/
theorem crCheck_super {n : Nat} (hk : ∀ core, crKind core n = .superWrite) (hu : (getCtl s u).user = false) : crCheck s u n true = .ok () := by
  simp only [crCheck, hk, hu]
  rfl

/-! ### DISPGO (R162) -/

/-- The unit that a DISPGO names. -/
def dispTarget (v : Nat) : Nat := if bit v 14 then 1024 + bits v 0 4 else bits v 0 10

/-- The target as it starts. -/
def dispatched (x : Ctl) (pc v : Nat) : Ctl :=
  { x with mode := .running, pc := pc, bank0 := [], user := bit v 15, asn := if bit v 15 then bits v 16 8 else 0 }

theorem dispatch_permitted {v : Nat} (hv : bit v 14 = true → bit v 15 = false ∧ bits v 4 6 = 0)
    (hw : unitSecure s (dispTarget v) = true → unitSecure s u = true) :
    dispatch s u v = if (getCtl s (dispTarget v)).mode ≠ .idle ∨ (getCtl s (dispTarget v)).handler = true then
        .ok (modCtl s u fun y => { y with dispFail := true })
      else .ok (modCtl (setCtl s (dispTarget v) (dispatched (getCtl s (dispTarget v)) (getCtl s u).disppc.toNat v)) u fun y => { y with dispFail := false }) := by
  have h1 : ¬ (bit v 14 && (bit v 15 || bits v 4 6 != 0)) = true := by
    rw [Bool.and_eq_true, not_and]
    intro h
    simp [hv h]
  have h2 : ¬ (unitSecure s (dispTarget v) && !unitSecure s u) = true := by
    rw [Bool.and_eq_true, not_and]
    intro h
    simp [hw h]
  exact (if_neg h1).trans (if_neg h2)

theorem exec_dispgo {a : Spec} (h : CtlRuns s u (.dispgo a)) (hu : (getCtl s u).user = false) (hf : crFits 99 (readG s u a) = true) :
    exec (.dispgo a) s = ctlOutcome s u (.dispgo a) (dispatch (past s u (.dispgo a)) u (readG s u a)) := by
  change execDispgo a s = _
  refine (onCtls_runs h).trans (congrArg _ ?_)
  rw [readG_past]
  exact crStore_fits ((crCheck_past ..).trans (crCheck_super (fun core => by cases core <;> rfl) hu)) hf

/-! ### PWREQ (R461) -/

theorem exec_pwreq {i : Instr} {a : Spec} (hi : i = .pwreqStandby a ∨ i = .pwreqWithdraw a) (h : CtlRuns s u i) (hu : (getCtl s u).user = false)
    (hf : crFits 100 (readG s u a) = true) : exec i s = .next (requestPower (past s u i) (readG s u a)) := by
  have hbody : crStore (past s u i) u 100 (readG (past s u i) u a) = .ok (requestPower (past s u i) (readG s u a)) := by
    rw [readG_past]
    exact crStore_fits ((crCheck_past ..).trans (crCheck_super (fun core => by cases core <;> rfl) hu)) hf
  rcases hi with rfl | rfl
  · change execPwreqStandby a s = _
    exact onCtls_ok h hbody
  · change execPwreqWithdraw a s = _
    exact onCtls_ok h hbody

/-- A request for standby is entered at once from PW1, and waits otherwise. -/
theorem requestPower_standby (s : State) : requestPower s 2 = if s.power = .pw1 then { s with power := .pw2, pwreq := 0 } else { s with pwreq := 2 } := by
  simp only [requestPower, true_and]

/-- Settles O21: DISPGO by the cases of its target (`dispatch_permitted`), and PWREQ by those of the module's power state. -/
theorem commandRegisters : Obligations.CommandRegisters := by
  refine ⟨fun s u a h hu hf hv => ?_, fun s u a hu => ⟨fun h hr => ?_, fun h hr => ?_⟩⟩
  · intro v g hw
    have hd := dispatch_permitted (s := past s u (.dispgo a)) (u := u) hv hw
    rw [show dispTarget (readG s u a) = g from rfl] at hd
    refine ⟨fun hidle => ?_, fun hbusy => ?_⟩
    · have hg : g ≠ u := fun hg => by simpa [hg, h.2.1] using hidle.1
      have hx : getCtl (past s u (.dispgo a)) g = getCtl s g := (getCtl_past ..).trans (if_neg hg)
      have hpc : (getCtl (past s u (.dispgo a)) u).disppc = (getCtl s u).disppc := by rw [getCtl_past, if_pos rfl]; rfl
      rw [hx, if_neg (by simp [hidle]), hpc] at hd
      refine ⟨_, (exec_dispgo h hu hf).trans (congrArg (ctlOutcome s u _) hd), ?_, ?_, ?_, fun w hw hwg => ?_, fun _ => ?_⟩
      · simp only [modCtl, setCtl, past]
      · rw [getCtl_modCtl, if_pos rfl, getCtl_setCtl, if_neg (Ne.symm hg), getCtl_past, if_pos rfl]
      · rw [getCtl_modCtl, if_neg hg]
        exact (getCtl_setCtl ..).trans (if_pos rfl)
      · rw [getCtl_modCtl, if_neg hw, getCtl_setCtl, if_neg hwg, getCtl_past, if_neg hw]
      · simp only [memByte, modCtl_mem, setCtl_mem, past]
    · have hb : (getCtl (past s u (.dispgo a)) g).mode ≠ .idle ∨ (getCtl (past s u (.dispgo a)) g).handler = true := by
        rw [getCtl_past]
        split
        · next hg => exact .inl (by simp [behind, h.2.1])
        · exact (not_and_or.mp hbusy).imp_right Bool.eq_true_of_not_eq_false
      rw [if_pos hb, modCtl_past] at hd
      exact ⟨_, (exec_dispgo h hu hf).trans (congrArg (ctlOutcome s u _) hd), onlyCtl_set s u _⟩
  · refine ⟨_, exec_pwreq (.inl rfl) h hu (by rw [hr]; rfl), ?_⟩
    rw [hr, requestPower_standby]
    change _ ∧ _ ∧ _ ∧ _ = if (past s u (.pwreqStandby a)).power = .pw1 then _ else _
    split
    · exact ⟨rfl, (getCtl_past ..).trans (if_pos rfl), fun v hv => (getCtl_past ..).trans (if_neg hv), rfl⟩
    · exact ⟨rfl, (getCtl_past ..).trans (if_pos rfl), fun v hv => (getCtl_past ..).trans (if_neg hv), rfl⟩
  · refine ⟨_, exec_pwreq (.inr rfl) h hu (by rw [hr]; rfl), ?_⟩
    rw [hr]
    exact ⟨rfl, (getCtl_past ..).trans (if_pos rfl), fun v hv => (getCtl_past ..).trans (if_neg hv)⟩

end Sys2Proof.Machine
end

section
/-! Emission (R127 to R138). -/

namespace Sys2Proof.Machine
open Sys2Proof.Claims

variable {s : State} {c : Nat} {f : Firing}

/-! ### Routes, tags and entries -/

/-- A route that may not be used refuses the emission (R129). -/
theorem checkRoute_unusable {d : Nat} {pred : Bool} (h : ¬ Usable s c f d pred) : checkRoute (getCell s c) f d pred = illop := by
  refine if_pos ?_
  simp only [Bool.or_eq_true, Bool.not_eq_true', bne_iff_ne, ne_eq]
  by_contra hn
  push Not at hn
  obtain ⟨hen, hk⟩ := hn
  exact h ⟨by simpa using hen, by rw [← hk, decide_eq_true_eq]⟩

theorem lane32_zero (x : Nat) : lane 32 x 0 = x % 2 ^ 32 := by simp [lane]

/-- The tag of operand `b` (R130). -/
theorem tagOf_ok {b : Spec} {w : Nat} (h : b.toNat = 44 ∨ w % 2 ^ 32 < 2 ^ 24) : tagOf f b w = .ok (tagBy f b w) := by
  unfold tagOf tagBy
  split
  · rfl
  · next hb =>
    have hw := h.resolve_left hb
    have h1 : bits (w % 2 ^ 32) 24 8 = 0 := by rw [bits, Nat.shiftRight_eq_div_pow, Nat.div_eq_of_lt hw, Nat.zero_mod]
    have h2 : bits (w % 2 ^ 32) 0 24 = w % 2 ^ 32 := by rw [bits, Nat.shiftRight_zero, Nat.mod_eq_of_lt hw]
    simp only [lane32_zero, h1, h2, ne_eq, not_true_eq_false, if_false]

theorem emitEntry_room {d : Nat} {t : Token} (dest : Nat) (h : f.out.length < 16) :
    emitEntry f d dest t = .ok { f with out := f.out ++ [.emit d dest t], emitted := f.emitted.set d (f.emitted.getD d 0 + 1) } := by
  rw [emitEntry, addEntry_room _ h]
  rfl

theorem emitEntry_full {d : Nat} {t : Token} (dest : Nat) (h : 16 ≤ f.out.length) : emitEntry f d dest t = .error (.trap (tIllop 2)) := by
  rw [emitEntry, addEntry_full _ h]
  rfl

/-! ### The emissions -/

variable {d a b : Spec} {m : BitVec 3} {v w : Nat}

/-- A token of its class, with the tag of `b` (R135). -/
def fullToken (s : State) (c : Nat) (f : Firing) (d : Nat) (b : Spec) (m w payload : Nat) : Token :=
  { tokenOn s c f d with itag := tagBy f b w, width := m, count := classCount m, payload := BitVec.ofNat 512 (payload % 2 ^ classBits m) }

theorem emitFull_sends (n m payload : Nat) (hl : f.out.length < 16) (hb : readSpec s c f b = .ok w) (hw : b.toNat = 44 ∨ w % 2 ^ 32 < 2 ^ 24) :
    emitFull c f s n b m payload ((getCell s c).route f.ctx n) = .ok (putFiring s c (emits s c f n (fullToken s c f n b m w payload))) := by
  simp only [emitFull, hb, tagOf_ok hw, emitEntry_room _ hl, bind, Except.bind]
  rfl

theorem emitFull_full (n m payload : Nat) (hl : 16 ≤ f.out.length) (hb : readSpec s c f b = .ok w) (hw : b.toNat = 44 ∨ w % 2 ^ 32 < 2 ^ 24) (r : Route) :
    emitFull c f s n b m payload r = .error (.trap (tIllop 2)) := by
  simp only [emitFull, hb, tagOf_ok hw, emitEntry_full _ hl, bind, Except.bind]

theorem exec_emit (h : CellRuns s c f (.emit d a b m)) (hu : Usable s c f d.toNat false) (hl : f.out.length < 16)
    (ha : readSpec s c f a = .ok v) (hb : readSpec s c f b = .ok w) (hw : b.toNat = 44 ∨ w % 2 ^ 32 < 2 ^ 24) :
    ∃ t, exec (.emit d a b m) s = .next t ∧
      FiringOn s t c (.emit d a b m) (emits s c f d.toNat (fullToken s c f d.toNat b m.toNat w v)) := by
  refine onCells_put h ?_
  rw [withRegs_runs h, checkRoute_usable hu, ha]
  exact emitFull_sends d.toNat m.toNat v hl hb hw

theorem exec_emitz (h : CellRuns s c f (.emitz d b m)) (hu : Usable s c f d.toNat false) (hl : f.out.length < 16)
    (hb : readSpec s c f b = .ok w) (hw : b.toNat = 44 ∨ w % 2 ^ 32 < 2 ^ 24) :
    ∃ t, exec (.emitz d b m) s = .next t ∧
      FiringOn s t c (.emitz d b m) (emits s c f d.toNat (fullToken s c f d.toNat b m.toNat w 0)) := by
  refine onCells_put h ?_
  rw [withRegs_runs h, checkRoute_usable hu]
  exact emitFull_sends d.toNat m.toNat 0 hl hb hw

theorem exec_emitq (h : CellRuns s c f (.emitq d a b)) (hu : Usable s c f d.toNat true) (hl : f.out.length < 16)
    (ha : readSpec s c f a = .ok v) (hb : readSpec s c f b = .ok w) (hw : b.toNat = 44 ∨ w % 2 ^ 32 < 2 ^ 24) :
    ∃ t, exec (.emitq d a b) s = .next t ∧ FiringOn s t c (.emitq d a b) (emits s c f d.toNat
      { tokenOn s c f d.toNat with pred := true, itag := tagBy f b w, payload := if v % 2 ^ 32 ≠ 0 then 1 else 0 }) := by
  refine onCells_put h ?_
  rw [withRegs_runs h, checkRoute_usable hu, ha, hb]
  simp only [bind, Except.bind, tagOf_ok hw, lane32_zero, emitEntry_room _ hl]
  rfl

theorem exec_bound (h : CellRuns s c f (.bound d a b)) (hu : Usable s c f d.toNat false) (hl : f.out.length < 16)
    (ha : readSpec s c f a = .ok v) (hb : readSpec s c f b = .ok w) (hw : b.toNat = 44 ∨ w % 2 ^ 32 < 2 ^ 24)
    (h1 : 1 ≤ v % 2 ^ 32) (h2 : v % 2 ^ 32 < 2 ^ 24) :
    ∃ t, exec (.bound d a b) s = .next t ∧ FiringOn s t c (.bound d a b) (emits s c f d.toNat
      { tokenOn s c f d.toNat with itag := tagBy f b w, payload := BitVec.ofNat 512 (v % 2 ^ 32) }) := by
  refine onCells_put h ?_
  have hn : ¬ (v % 2 ^ 32 = 0 ∨ 0xFFFFFF < v % 2 ^ 32) := by omega
  rw [withRegs_runs h, checkRoute_usable hu, ha, hb]
  simp only [bind, Except.bind, tagOf_ok hw, lane32_zero, if_neg hn, emitEntry_room _ hl]
  rfl

/-! ### EMITN (R136) -/

/-- A field of lane `k` of an operand. -/
theorem bits_lane32 (x k lo len : Nat) (h : lo + len ≤ 32) : bits (lane 32 x k) lo len = bits x (32 * k + lo) len := by
  rw [lane, bits_mod _ 32 lo len h, bits, bits, Nat.shiftRight_add]

theorem bit_lane32 (x : Nat) {k i : Nat} (h : i < 32) : bit (lane 32 x k) i = bit x (32 * k + i) := by
  rw [bit, bit, lane, Nat.testBit_mod_two_pow, Nat.testBit_shiftRight, decide_eq_true h, Bool.true_and]

/-- A control word that says nothing wrong. -/
theorem emitnControl_ok {k : Nat} (hr : bits w 11 21 = 0) (h1 : 1 ≤ bits w 0 8) (hk : bits w 0 8 ≤ classUnit k * (classCount k + 1))
    (hm : bits w 0 8 % classUnit k = 0) (ht : bit w 9 = true → bits w 56 8 = 0) (hf : bit w 10 = true → bits w 74 22 = 0) :
    emitnControl f k w = .ok (bits w 0 8, if bit w 9 then bits w 32 24 else f.itag, if bit w 10 then bits w 64 10 else f.frame, bit w 8) := by
  have h3 : ¬ (bits w 0 8 = 0 ∨ classUnit k * (classCount k + 1) < bits w 0 8 ∨ bits w 0 8 % classUnit k ≠ 0) := by omega
  have h4 : ¬ (bit w 9 = true ∧ bits w 56 8 ≠ 0) := fun h => h.2 (ht h.1)
  have h5 : ¬ (bit w 10 = true ∧ bits w 74 22 ≠ 0) := fun h => h.2 (hf h.1)
  simp only [emitnControl, bits_lane32 _ _ _ _ (by decide : 0 + 8 ≤ 32), bits_lane32 _ _ _ _ (by decide : 11 + 21 ≤ 32),
    bits_lane32 _ _ _ _ (by decide : 24 + 8 ≤ 32), bits_lane32 _ _ _ _ (by decide : 10 + 22 ≤ 32), bits_lane32 _ _ _ _ (by decide : 0 + 24 ≤ 32),
    bits_lane32 _ _ _ _ (by decide : 0 + 10 ≤ 32), bit_lane32 _ (by decide : 8 < 32), bit_lane32 _ (by decide : 9 < 32),
    bit_lane32 _ (by decide : 10 < 32), Nat.mul_zero, Nat.zero_add, Nat.add_zero, Nat.mul_one, Nat.reduceMul, Nat.reduceAdd]
  rw [if_neg (not_not_intro hr), if_neg h3, if_neg h4, if_neg h5]

theorem exec_emitn (h : CellRuns s c f (.emitn d a b m)) (hu : Usable s c f d.toNat false) (hl : f.out.length < 16)
    (ha : readSpec s c f a = .ok v) (hb : readSpec s c f b = .ok w) {q : Nat × Nat × Nat × Bool} (hq : emitnControl f m.toNat w = .ok q) :
    ∃ t, exec (.emitn d a b m) s = .next t ∧ FiringOn s t c (.emitn d a b m) (emits s c f d.toNat
      { tokenOn s c f d.toNat with
          itag := q.2.1, frame := q.2.2.1, width := m.toNat, last := q.2.2.2, count := q.1 / classUnit m.toNat - 1
          payload := BitVec.ofNat 512 (v % 2 ^ classBits m.toNat % 2 ^ (q.1 * classLane m.toNat)) }) := by
  refine onCells_put h ?_
  rw [withRegs_runs h, checkRoute_usable hu, ha, hb]
  simp only [bind, Except.bind, hq, emitEntry_room _ hl]
  rfl

/-! ### The traps of EMIT -/

theorem exec_emit_unusable (h : CellRuns s c f (.emit d a b m)) (hu : ¬ Usable s c f d.toNat false) :
    exec (.emit d a b m) s = .next (firingFault s c f (tIllop 0)) := by
  refine onCells_trap h ?_
  rw [withRegs_runs h, checkRoute_unusable hu]
  rfl

theorem exec_emit_full (h : CellRuns s c f (.emit d a b m)) (hu : Usable s c f d.toNat false) (hl : 16 ≤ f.out.length)
    (ha : readSpec s c f a = .ok v) (hb : readSpec s c f b = .ok w) (hz : b.toNat = 44) :
    exec (.emit d a b m) s = .next (firingFault s c f (tIllop 2)) := by
  refine onCells_trap h ?_
  rw [withRegs_runs h, checkRoute_usable hu, ha]
  exact emitFull_full d.toNat m.toNat v hl hb (.inl hz) _

/-- Settles O31: one lemma for each row, and one for each trap of EMIT. -/
theorem emissions : Obligations.Emissions := by
  refine ⟨fun s c f d a b m v w hl hb hw => ⟨fun h hu ha => exec_emit h hu hl ha hb hw, fun h hu => ?_, fun h hu ha => exec_emitq h hu hl ha hb hw,
    fun h hu ha h1 h2 => exec_bound h hu hl ha hb hw h1 h2⟩, fun s c f d a b m v w hl h hu ha hb => ?_, fun s c f d a b m h =>
    ⟨fun hu => exec_emit_unusable h hu, fun hu hl v w ha hb hz => exec_emit_full h hu hl ha hb hz⟩⟩
  · obtain ⟨t, ht, hon⟩ := exec_emitz h hu hl hb hw
    rw [fullToken, Nat.zero_mod] at hon
    exact ⟨t, ht, hon⟩
  · intro n k hr h1 hk hm ht hf
    exact exec_emitn h hu hl ha hb (emitnControl_ok hr h1 hk hm ht hf)

end Sys2Proof.Machine
end

section
/-! END and NOP (R132, R139). -/

namespace Sys2Proof.Machine
open Sys2Proof.Claims

variable {s : State} {c : Nat} {f : Firing}

/-- A firing that nothing has caught goes on to its commit. -/
theorem settleFiring_clear {g : Firing} (hf : (getCell s c).firing = some g) (hr : g.race = none) (hx : g.fault = none) : settleFiring s c = s := by
  simp only [settleFiring, hf, hr, hx]

theorem ratesMet_iff {x : Cell} : ratesMet x f = true ↔ ∀ k, k < 4 → (x.route f.ctx k).en = true → f.emitted.getD k 0 = (x.route f.ctx k).rate := by
  simp only [ratesMet, List.all_eq_true, List.mem_range, Bool.or_eq_true, Bool.not_eq_true', beq_iff_eq, ← Bool.not_eq_true, or_iff_not_imp_left,
    not_not]

theorem exec_endFiring (h : CellRuns s c f .endFiring) (hr : f.race = none) (hx : f.fault = none) (hm : ratesMet (getCell s c) f = true) :
    exec .endFiring s = .next (advance (putFiring s c { f with phase := .ending }) c 1) := by
  change execEndFiring s = _
  refine onCells_ok h ((if_pos hm).trans (congrArg Except.ok (settleFiring_clear (g := { f with phase := .ending }) ?_ hr hx)))
  rw [getCell_putFiring, if_pos rfl]

theorem exec_endFiring_unmet (h : CellRuns s c f .endFiring) (hm : ¬ ratesMet (getCell s c) f = true) :
    exec .endFiring s = .next (firingFault s c f (tIllop 3)) := by
  change execEndFiring s = _
  exact onCells_trap h (if_neg hm)

theorem exec_nop (h : CellRuns s c f .nop) : exec .nop s = .next (advance s c 1) := by
  change execNop s = _
  exact onCells_ok h rfl

/-- Settles O32: END by whether the rates are met (`ratesMet_iff`). -/
theorem endAndNop : Obligations.EndAndNop := by
  refine fun s c f => ⟨fun h hr hx hm => ?_, fun h hk => ?_, fun h => ?_⟩
  · exact ⟨_, exec_endFiring h hr hx (ratesMet_iff.mpr hm), firingOn_put s c .endFiring _⟩
  · obtain ⟨k, hk, hen, hne⟩ := hk
    exact exec_endFiring_unmet h fun hm => hne (ratesMet_iff.mp hm k hk hen)
  · exact ⟨_, exec_nop h, firingOn_same h.2.1 .nop⟩

end Sys2Proof.Machine
end

section
/-! The machine after reset (R161, R402, R444, R458, R460). -/

namespace Sys2Proof.Machine
open Sys2Proof.Claims

/-- Core 0 of basin 0 may run its first instruction. -/
theorem ctl_mem_agenda_reset : Turn.ctl 1024 ∈ agenda State.reset := by decide +kernel

/-- Settles O7: core 0 has the turn, and every table is empty. -/
theorem resetState : Obligations.ResetState := by
  refine ⟨⟨State.reset, .inr ctl_mem_agenda_reset, rfl, fun i hi => nomatch hi⟩, rfl, rfl, rfl, fun u hu => ?_, rfl, fun _ => rfl, fun _ _ => rfl,
    fun a => ?_, fun _ => rfl, rfl, rfl⟩
  · change (tget {} [(1024, _)] u : Ctl).mode = .idle
    rw [tget, if_neg (Ne.symm hu)]
    rfl
  · unfold byteSecure
    cases placeOf a <;> rfl

end Sys2Proof.Machine
end

section
/-! What a reset leaves: the cells with their capacity, the repairs it records, and the checkpoints that it fails (R450, R453, R458). -/

namespace Sys2Proof.Machine

variable {s t : State}

/-! ### What remains of the cells (R453) -/

theorem tget_filter_key {α : Type} (d : α) (p : Nat → Bool) (l : Table α) (k : Nat) :
    tget d (l.filter fun e => p e.1) k = if p k then tget d l k else d := by
  induction l with
  | nil => simp
  | cons e l ih =>
    by_cases hk : e.1 = k
    · subst hk
      by_cases hp : p e.1 = true <;> simp [hp, tget, ih]
    · by_cases hp : p e.1 = true <;> simp [hp, tget, hk, ih]

theorem getCell_gated (s : State) (c : Nat) : tget {} (gatedCells s) c = { hcap := (getCell s c).hcap } :=
  tget_tmap {} (fun x : Cell => { hcap := x.hcap }) rfl s.cells c

/-- A repair takes registers from a cell, and gives none; it belongs to no configuration. -/
theorem repairedCells_bare (s : State) (c : Nat) :
    (tget {} (repairedCells s) c).hcap ≤ (getCell s c).hcap ∧ (tget {} (repairedCells s) c).cfg = 0 := by
  refine foldl_keeps (fun l : Table Cell => (tget {} l c).hcap ≤ (getCell s c).hcap ∧ (tget {} l c).cfg = 0) _ (fun l q hl => ?_) _ _ ?_
  · refine ite_keeps (fun l : Table Cell => (tget {} l c).hcap ≤ (getCell s c).hcap ∧ (tget {} l c).cfg = 0) _ ?_ hl
    by_cases hc : c = q.1
    · subst hc
      rw [tget_tmod_self]
      exact ⟨(Nat.min_le_left ..).trans hl.1, hl.2⟩
    · rwa [tget_tmod_ne _ _ _ _ _ hc]
  · rw [getCell_gated]
    exact ⟨Nat.le_refl _, rfl⟩

theorem repairedCells_none (h : Config.repairs s.tick = []) : repairedCells s = gatedCells s := by rw [repairedCells, h, List.foldl_nil]

theorem mem_tdel {α : Type} {l : Table α} {k : Nat} {e : Nat × α} (h : e ∈ tdel l k) : e ∈ l := by
  induction l with
  | nil => exact h
  | cons q l ih =>
    rw [tdel] at h
    split at h
    · exact List.mem_cons_of_mem _ (ih h)
    · exact (List.mem_cons.mp h).elim (fun hq => hq ▸ List.mem_cons_self) fun hl => List.mem_cons_of_mem _ (ih hl)

theorem mem_tmap {α : Type} [DecidableEq α] {d : α} {f : α → α} {l : Table α} {e : Nat × α} (h : e ∈ tmap d f l) :
    ∃ q, q ∈ l ∧ e = (q.1, f q.2) := by
  induction l with
  | nil => exact nomatch h
  | cons q l ih =>
    have htail : e ∈ tmap d f l → ∃ q', q' ∈ q :: l ∧ e = (q'.1, f q'.2) := fun hl => by
      obtain ⟨q', hq', he⟩ := ih hl
      exact ⟨q', List.mem_cons_of_mem _ hq', he⟩
    rw [tmap] at h
    split at h
    · exact htail (mem_tdel h)
    · exact (List.mem_cons.mp h).elim (fun he => ⟨q, List.mem_cons_self, he⟩) htail

/-- A reset records each cell whose capacity is below 32, and changes nothing else with it. -/
theorem repairEvents_frame (s : State) : repairEvents s = { s with bbox := (repairEvents s).bbox } := by
  refine foldl_keeps (fun t : State => t = { s with bbox := t.bbox }) _ (fun t e ht => ?_) _ s rfl
  refine ite_keeps (fun t : State => t = { s with bbox := t.bbox }) _ ?_ ht
  rw [ht]
  rfl

theorem repairEvents_none (h : ∀ e, e ∈ s.cells → 32 ≤ e.2.hcap) : repairEvents s = s := by
  have hfold : ∀ (l : List (Nat × Cell)) (t : State), (∀ e, e ∈ l → 32 ≤ e.2.hcap) → l.foldl (fun s e => if e.2.hcap < 32 then
      bboxEvent s (basinOfGrove (groveOf e.1)) 7 0 0 (groveOf e.1) (cellNo e.1) 0 0 (cellNo e.1) e.2.hcap else s) t = t := by
    intro l
    induction l with
    | nil => exact fun _ _ => rfl
    | cons e l ih =>
      intro t hl
      rw [List.foldl_cons, if_neg (Nat.not_lt.mpr (hl e List.mem_cons_self))]
      exact ih t fun q hq => hl q (List.mem_cons_of_mem _ hq)
  exact hfold s.cells s h

/-! ### What a checkpoint's failure leaves alone (R450, R458) -/

/-- From `s` to `t` checkpoints were drained or failed, and nothing changed but what that may change; `Kept` says of the same operations only what
goes on meanwhile. -/
def Drained (s t : State) : Prop :=
  t = { s with mem := t.mem, poison := t.poison, views := t.views, free := t.free, bbox := t.bbox, drains := t.drains, ctls := t.ctls, cfgs := t.cfgs }

theorem Drained.refl (s : State) : Drained s s := rfl

theorem Drained.trans {u : State} (h1 : Drained s t) (h2 : Drained t u) : Drained s u := by
  unfold Drained at *
  rw [h2, h1]

theorem Drained.ite {p : Prop} [Decidable p] {u : State} (h1 : Drained s t) (h2 : Drained s u) : Drained s (if p then t else u) :=
  ite_keeps (Drained s) p h1 h2

theorem Drained.foldl {β : Type} {f : State → β → State} (hf : ∀ s b, Drained s (f s b)) (l : List β) (s : State) : Drained s (l.foldl f s) :=
  foldl_keeps (Drained s) f (fun _ b ha => ha.trans (hf _ b)) l s (Drained.refl s)

theorem drained_jobTrap (s : State) (e : Trap) (x : Src) (k : Option Nat) : Drained s (jobTrap s e x k) := by
  unfold jobTrap
  dsimp only
  refine Drained.ite (Drained.ite rfl ?_) ?_
  · rw [toSupervisor_frame]
    exact rfl
  · rw [stopFrame_frame]
    exact rfl

theorem drained_writeNat (s : State) (pa n v : Nat) : Drained s (writeNat s pa n v) := by
  rw [writeNat_frame]
  exact rfl

theorem drained_allSeen (s : State) : Drained s (allSeen s) := by
  unfold allSeen
  exact Drained.ite rfl rfl

theorem drained_landPieces (s : State) (ps : List (Nat × Nat × Nat)) (w : Nat) : Drained s (landPieces s ps w).1 := by
  refine foldl_keeps (fun a : State × List (Nat × Nat × Nat) => Drained s a.1) _ (fun a p ha => ?_) ps _ ?_
  · exact ite_keeps (fun a : State × List (Nat × Nat × Nat) => Drained s a.1) _ (ha.trans rfl) (ha.trans (drained_writeNat ..))
  · exact Drained.ite (Drained.refl s) rfl

/-- What comes before a write drains checkpoints. -/
def Before.Drains (bf : Before) : Prop := ∀ s b len, Drained s (bf s b len)

theorem drained_ckptHeader {bf : Before} (hb : bf.Drains) (s : State) (c : Ckpt) (st k : Nat) : Drained s (ckptHeader bf s c st k) :=
  ((hb s _ _).trans (drained_landPieces ..)).trans (drained_allSeen _)

theorem drained_ckptUndefined {bf : Before} (hb : bf.Drains) (s : State) (c : Ckpt) : Drained s (ckptUndefined bf s c) := by
  refine Drained.foldl (fun u r => ?_) _ s
  have hw := ((hb u ((if c.rest then r.1 else r.2.1) * 8) (r.2.2 * 8)).trans (drained_allSeen _)).trans
    (drained_writeNat _ (if c.rest then r.1 else r.2.1) r.2.2 (Config.freeBytes u.free))
  exact hw.trans rfl

theorem drained_modCkpt (s : State) (b id : Nat) (f : Ckpt → Option Ckpt) : Drained s (modCkpt s b id f) := rfl

theorem drained_ckptFail {bf : Before} (hb : bf.Drains) (s : State) (b : Nat) (c : Ckpt) (e : Trap) : Drained s (ckptFail bf s b c e) := by
  have hleave : Drained s (ckptLeave bf s b c 3 e.cause) :=
    ((drained_modCkpt ..).trans (drained_ckptUndefined hb _ c)).trans (drained_ckptHeader hb _ c _ _)
  have hbox := hleave.trans (rfl : Drained _ (bboxEvent (ckptLeave bf s b c 3 e.cause) b 9 e.cause 0 0 0 0 0 c.blockVa c.bytes))
  exact Drained.ite (hbox.trans (drained_jobTrap ..)) hbox

theorem drained_ckptProgress {bf : Before} (hb : bf.Drains) (s : State) (b id : Nat) : Drained s (ckptProgress bf s b id) := by
  unfold ckptProgress
  split
  · exact Drained.refl s
  · dsimp only
    split
    · exact hb ..
    · exact (hb ..).trans (drained_ckptHeader (fun s _ _ => Drained.refl s) ..)

theorem drained_ckptCopy {bf : Before} (hb : bf.Drains) (s : State) (b id : Nat) (g : Nat × Nat) : Drained s (ckptCopy bf s b id g) := by
  unfold ckptCopy
  split
  · exact Drained.refl s
  refine Drained.ite (Drained.refl s) ?_
  split
  · exact drained_ckptFail hb ..
  refine Drained.ite (drained_ckptFail hb ..) ?_
  rename_i src dst _
  dsimp only
  generalize hu : bf (modCkpt s b id _) (dst * 8) 32768 = u
  have hw : Drained s u := hu ▸ (drained_modCkpt ..).trans (hb ..)
  refine Drained.ite hw ?_
  generalize hp : (if u.poison = [] then u else { u with poison := u.poison.filter fun p => !(dst ≤ p && p < dst + 4096) }) = v
  have hv : Drained s v := hp ▸ Drained.ite hw (hw.trans rfl)
  exact (((hv.trans (drained_allSeen v)).trans (drained_writeNat ..)).trans (drained_modCkpt ..)).trans (drained_ckptProgress hb ..)

theorem drains_drainFor (n : Nat) : (drainFor n).Drains := by
  induction n with
  | zero => exact fun s _ _ => Drained.refl s
  | succ n ih =>
    exact fun s b len => Drained.foldl (f := fun (s : State) (h : Nat × Nat × Nat × Nat) => ckptCopy (drainFor n) s h.1 h.2.1 h.2.2)
      (fun u g => drained_ckptCopy ih u g.1 g.2.1 g.2.2) (drainHits s b len) s

theorem drains_drainAll : Before.Drains drainAll := fun s b len => Drained.ite (Drained.refl s) (drains_drainFor _ s b len)

end Sys2Proof.Machine
end

section
/-! The events of the module: resets, power, clock, heat and background activity (R453, R458 to R462). -/

namespace Sys2Proof.Machine
open Sys2Proof.Claims

variable {s t : State}

/-! ### Resets -/

/-- The units after a reset: core 0 alone runs, and only with verified firmware. -/
theorem resetCtls_idle (ok : Bool) (entry : Word) {u : Nat} (hu : u ≠ 1024) : (tget {} (resetCtls ok entry) u).mode = .idle := by
  cases ok
  · rfl
  · rw [resetCtls, if_pos rfl, tget, if_neg (Ne.symm hu)]
    rfl

theorem resetCtls_core (ok : Bool) (entry : Word) :
    (ok = true → (tget {} (resetCtls ok entry) 1024).mode = .running ∧ (tget {} (resetCtls ok entry) 1024).pc = entry.toNat) ∧
      (ok = false → (tget {} (resetCtls ok entry) 1024).mode = .idle) := by
  cases ok
  · exact ⟨nofun, fun _ => rfl⟩
  · exact ⟨fun _ => ⟨rfl, rfl⟩, nofun⟩

theorem fwAccepted_iff (i : FirmwareImage) : fwAccepted i = true ↔ sha256 (i.body.map (·.toNat)) = i.digest.toNat ∧
    sha256 (Config.keyBytes i.modulus.toNat i.exponent) = Config.keyDigest ∧
    rsaVerifies i.modulus.toNat i.exponent i.signature.toNat i.digest.toNat = true ∧ Config.rollback ≤ i.version.toNat := by
  simp only [fwAccepted, fwDigest, Bool.and_eq_true, beq_iff_eq, decide_eq_true_eq, and_assoc]

/-- The firmware of a cold reset and whether it is verified (R459). -/
def coldOk (s : State) : Bool := match s.fwNew with | some i => fwAccepted i | none => s.fwOk

/-- The machine after a cold reset, its repairs not recorded yet. -/
def coldState (s : State) : State :=
  { State.reset with
    turn := s.turn, tick := s.tick, free := s.free, nextId := s.nextId, inputs := s.inputs
    mem := s.mem.filter fun e => outside e.1
    cells := repairedCells s, ctls := resetCtls (coldOk s) (s.fwNew.getD s.fw).entry, fw := s.fwNew.getD s.fw, fwOk := coldOk s
    hdm := min (Config.hdmBytes s.tick) (512 * 2 ^ 30) }

theorem exec_coldReset (s : State) : exec .coldReset s = .next { coldState s with bbox := (repairEvents (coldState s)).bbox } :=
  congrArg Host.Outcome.next (repairEvents_frame (coldState s))

/-- Bytes of this device are no others', and those of the host are. -/
theorem outside_of_local {a : Nat} (h : isLocal a = true) : outside a = false := by
  revert h
  unfold isLocal outside
  cases placeOf a <;> simp

theorem outside_of_host {a : Nat} (h : placeOf a = .host) : outside a = true := by simp only [outside, h]

/-- What a cold reset leaves of memory and of the cells. -/
theorem coldState_memory_cells (s : State) (b : Table BlackBox) :
    let t : State := { coldState s with bbox := b }
    (∀ a, isLocal a = true → memByte t a = 0) ∧ (∀ a, placeOf a = .host → memByte t a = memByte s a) ∧
      (∀ c, (getCell t c).hcap ≤ (getCell s c).hcap ∧ (Config.repairs s.tick = [] → (getCell t c).hcap = (getCell s c).hcap) ∧ (getCell t c).cfg = 0) := by
  refine ⟨fun a ha => ?_, fun a ha => ?_, fun c => ⟨(repairedCells_bare s c).1, fun hr => ?_, (repairedCells_bare s c).2⟩⟩
  · exact (tget_filter_key 0 outside s.mem a).trans (if_neg (by simp [outside_of_local ha]))
  · exact (tget_filter_key 0 outside s.mem a).trans (if_pos (outside_of_host ha))
  · change (tget {} (repairedCells s) c).hcap = _
    rw [repairedCells_none hr, getCell_gated]

/-- The checkpoints that a warm reset fails. -/
def checkpointsFailed (s : State) : State := s.drains.foldl (fun s e => e.2.foldl (fun s c => ckptFail drainAll s e.1 c { cause := 0 }) s) s

theorem drained_checkpointsFailed (s : State) : Drained s (checkpointsFailed s) :=
  Drained.foldl (f := fun (s : State) (e : Nat × List Ckpt) => e.2.foldl (fun s c => ckptFail drainAll s e.1 c { cause := 0 }) s)
    (fun u e => Drained.foldl (f := fun (s : State) (c : Ckpt) => ckptFail drainAll s e.1 c { cause := 0 })
      (fun v c => drained_ckptFail drains_drainAll v e.1 c _) e.2 u) s.drains s

theorem Drained.keeps (h : Drained s t) : t.regions = s.regions ∧ t.blocks = s.blocks ∧ t.timens = s.timens ∧ t.fw = s.fw ∧ t.fwOk = s.fwOk ∧
    t.fwNew = s.fwNew := by
  rw [h]
  exact ⟨rfl, rfl, rfl, rfl, rfl, rfl⟩

theorem checkpointsFailed_none (h : s.drains = []) : checkpointsFailed s = s := by rw [checkpointsFailed, h, List.foldl_nil]

/-- The machine after a warm reset, its repairs not recorded yet. -/
def warmState (s : State) : State :=
  { State.reset with
    turn := s.turn, tick := s.tick, free := s.free, nextId := s.nextId, inputs := s.inputs, timens := s.timens
    mem := s.mem, poison := s.poison, cells := repairedCells s, ctls := resetCtls s.fwOk s.fw.entry
    regions := s.regions, blocks := s.blocks, bbox := s.bbox, devnum := s.devnum, clock := s.clock
    corrected := s.corrected, correctedHbm := s.correctedHbm, sdcs := s.sdcs, retries := s.retries, passes := s.passes, passesHbm := s.passesHbm
    fw := s.fw, fwOk := s.fwOk, fwNew := s.fwNew, hdm := s.hdm }

theorem exec_warmReset (h3 : s.power ≠ .pw3) (hh : s.power ≠ .hot) :
    exec .warmReset s = .next { warmState (checkpointsFailed s) with bbox := (repairEvents (warmState (checkpointsFailed s))).bbox } := by
  change execWarmReset s = _
  rw [← repairEvents_frame]
  exact if_neg (by simp [h3, hh])

/-- A warm reset of cells that are all whole records nothing. -/
theorem warm_bbox (hr : Config.repairs s.tick = []) (hc : ∀ e, e ∈ s.cells → e.2.hcap = 32) : (repairEvents (warmState s)).bbox = s.bbox := by
  rw [repairEvents_none fun e he => ?_]
  · rfl
  · change e ∈ repairedCells s at he
    rw [repairedCells_none hr] at he
    obtain ⟨q, hq, rfl⟩ := mem_tmap he
    exact (hc q hq).ge

/-! ### Power, clock and heat -/

/-- A doorbell write that is checked changes its status and the queues alone (R455). -/
theorem doorbellCheck_frame (s : State) (w : Nat) : doorbellCheck s w = { s with
    launchst := (doorbellCheck s w).launchst, queues := (doorbellCheck s w).queues, round := (doorbellCheck s w).round } := by
  unfold doorbellCheck
  dsimp only
  split
  · rfl
  · split <;> rfl

theorem doorbellChecks_frame (s : State) (l : List Word) : let t := l.foldl (fun t w => doorbellCheck t w.toNat) s
    t = { s with launchst := t.launchst, queues := t.queues, round := t.round } := by
  refine foldl_keeps (fun t : State => t = { s with launchst := t.launchst, queues := t.queues, round := t.round }) _ (fun t w ht => ?_) l s rfl
  rw [doorbellCheck_frame, ht]

theorem exec_pw2Exit (h : wakeDue s = true) : exec .pw2Exit s = .next (s.doorbells.foldl (fun t w => doorbellCheck t w.toNat)
    { s with power := .pw0, pwreq := 0, idleSince := none, doorbells := [], work := s.work.map awake }) := if_pos h

/-- A THERMAL entry is recorded in basin 0, with its interrupt. -/
theorem thermalEvent_records (s : State) (mhz temp : Nat) : let t := thermalEvent s mhz temp
    t = { s with bbox := t.bbox, msix := t.msix } ∧ (tget {} t.bbox 0).seq = (tget {} s.bbox 0).seq + 1 ∧ tget 0 t.msix 2 = tget 0 s.msix 2 + 1 :=
  ⟨rfl, by simp [thermalEvent, bboxEvent], by simp [thermalEvent, bboxEvent]⟩

theorem clockDue_of {m d : Nat} (hp : s.power = .pw0) (h1 : 525 ≤ m) (h2 : m ≤ 1050)
    (h : m + 25 = s.clock ∧ (840 ≤ d ∨ 2800 < Config.power s.tick) ∨ m = s.clock + 25 ∧ d < 800 ∧ Config.power s.tick < 2700) :
    clockDue s m d = true := by
  simpa [clockDue, hp, h1, h2, and_assoc] using h

theorem exec_clockChange {m d : Nat} (h : clockDue s m d = true) :
    exec (.clockChange m d) s = .next (thermalEvent { s with clock := m } m d) := if_pos h

theorem exec_thermalStop {d : Nat} (h : 944 ≤ d) : exec (.thermalStop d) s = .next (thermalEvent { s with power := .hot } 0 d) := if_pos h

/-! ### Background activity (R453) -/

/-- The granules that a pass of SRAM or HBM finds, recorded. -/
def scrubbed (s : State) (hbm : Bool) : State :=
  (s.poison.filter fun g => placeOf g == (if hbm then Place.hbm else Place.sram)).foldl
    (fun s g => bboxEvent s (basinOfPa g) 2 cECCUNC 0 0 0 0 0 g (if hbm then 1 else 0)) s

theorem scrubbed_frame (s : State) (hbm : Bool) : scrubbed s hbm = { s with bbox := (scrubbed s hbm).bbox } := by
  refine foldl_keeps (fun t : State => t = { s with bbox := t.bbox }) _ (fun t g ht => ?_) _ s rfl
  rw [ht]
  rfl

theorem scrubbed_clean (hbm : Bool) (h : s.poison = []) : scrubbed s hbm = s := by rw [scrubbed, h]; rfl

theorem exec_scrubPass (s : State) (hbm : Bool) : exec (.scrubPass hbm) s =
    .next (if hbm then { scrubbed s hbm with passesHbm := (scrubbed s hbm).passesHbm + 1 }
      else { scrubbed s hbm with passes := (scrubbed s hbm).passes + 1 }) := rfl

theorem scrubPass_acts (s : State) (hbm : Bool) : ∃ t, exec (.scrubPass hbm) s = .next t ∧
    t = { s with bbox := t.bbox, passes := t.passes, passesHbm := t.passesHbm } ∧ t.passes = (if hbm then s.passes else s.passes + 1) ∧
    t.passesHbm = (if hbm then s.passesHbm + 1 else s.passesHbm) ∧ (s.poison = [] → t.bbox = s.bbox) := by
  refine ⟨_, exec_scrubPass s hbm, ?_⟩
  have hclean : s.poison = [] → (scrubbed s hbm).bbox = s.bbox := fun h => by rw [scrubbed_clean hbm h]
  rw [scrubbed_frame]
  cases hbm
  · exact ⟨rfl, rfl, rfl, hclean⟩
  · exact ⟨rfl, rfl, rfl, hclean⟩

theorem exec_telemetryWrite {b : Nat} (hev : Ev s .telemetryWrite b) (hb : b < 4) (ht : s.telbase ≠ 0) :
    exec .telemetryWrite s = .next (putRecord s (spaceSrc 2000 0 false) (s.telbase.toNat + 64 * b) (telemetryWords s b)) := by
  change execTelemetryWrite s = _
  simp only [execTelemetryWrite, turnArg, hev]
  exact if_pos ⟨hb, ht⟩

theorem hbmRowRemap_acts (s : State) (k r : Nat) : ∃ t, exec (.hbmRowRemap k r) s = .next t ∧ t = { s with bbox := t.bbox } := by
  change ∃ t, execHbmRowRemap k r s = .next t ∧ _
  unfold execHbmRowRemap
  split
  · exact ⟨_, rfl, rfl⟩
  · exact ⟨_, rfl, rfl⟩

/-- Settles O60: each event by its lemma; a warm reset first fails the checkpoints that are active (`drained_checkpointsFailed`). -/
theorem resetsAndPower : Obligations.ResetsAndPower := by
  refine fun s => ⟨?_, fwAccepted_iff, fun h3 hh => ?_, fun hd => if_pos hd, fun hw => ?_, rfl, fun m d hp h1 h2 h => ?_, fun d hd => ?_, scrubPass_acts s,
    fun p => rfl, fun b hev hb ht => exec_telemetryWrite hev hb ht, hbmRowRemap_acts s⟩
  · obtain ⟨hlocal, hhost, hcells⟩ := coldState_memory_cells s (repairEvents (coldState s)).bbox
    refine ⟨_, exec_coldReset s, rfl, rfl, rfl, rfl, rfl, rfl, rfl, Nat.min_le_right .., hlocal, hhost, hcells, fun u hu => resetCtls_idle _ _ hu, rfl,
      (resetCtls_core _ _).1, (resetCtls_core _ _).2⟩
  · obtain ⟨hregions, hblocks, htimens, hfw, hok, hnew⟩ := (drained_checkpointsFailed s).keeps
    refine ⟨_, exec_warmReset h3 hh, rfl, rfl, rfl, rfl, rfl, rfl, hregions, hblocks, htimens, hfw, hok, hnew, fun u hu => resetCtls_idle _ _ hu,
      fun h => ?_, fun hd => ?_, fun hd hr hc => ?_⟩
    · rw [← hfw]
      exact (resetCtls_core _ _).1 (hok.trans h)
    · change (checkpointsFailed s).mem = s.mem
      rw [checkpointsFailed_none hd]
    · rw [checkpointsFailed_none hd]
      exact warm_bbox hr hc
  · refine ⟨_, exec_pw2Exit hw, ?_⟩
    rw [doorbellChecks_frame]
    exact ⟨rfl, rfl, rfl, rfl, fun _ => rfl, rfl, fun h => by rw [h]; rfl⟩
  · obtain ⟨hframe, hseq, hmsix⟩ := thermalEvent_records { s with clock := m } m d
    exact ⟨_, exec_clockChange (clockDue_of hp h1 h2 h), hframe, hmsix, hseq⟩
  · obtain ⟨hframe, hseq, hmsix⟩ := thermalEvent_records { s with power := .hot } 0 d
    exact ⟨_, exec_thermalStop hd, hframe, hseq, hmsix⟩

end Sys2Proof.Machine
end

section
/-! WFE and SEV (R191, R192). -/

namespace Sys2Proof.Machine
open Sys2Proof.Claims

variable {s : State} {u : Nat}

/-! ### What the body of an instruction leaves -/

/-- A body goes on with what a part of it gives. -/
theorem bind_of_ok {α β : Type} {x : R α} {v : α} {f : α → R β} (h : x = .ok v) : (x >>= f) = f v := by
  rw [h]
  rfl

/-- A result that a body writes to a G register of its unit. -/
theorem writeG_setCtl (s : State) (u : Nat) (x : Ctl) (r : Spec) (v : Nat) :
    writeG (setCtl s u x) u r v = setCtl s u (x.setG r.toNat (BitVec.ofNat 64 v)) := by
  rw [writeG, modCtl, getCtl_setCtl, if_pos rfl, setCtl_setCtl]

theorem writeG_past (s : State) (u : Nat) (i : Instr) (r : Spec) (v : Nat) :
    writeG (past s u i) u r v = setCtl s u ((behind s u i).setG r.toNat (BitVec.ofNat 64 v)) := writeG_setCtl ..

theorem getCtl_past_self (s : State) (u : Nat) (i : Instr) : getCtl (past s u i) u = behind s u i := (getCtl_past ..).trans (if_pos rfl)

/-- The unit with its result, and any other. -/
theorem getCtl_writeG {x : Ctl} (r : Spec) (v : Nat) (h : getCtl s u = x) : getCtl (writeG s u r v) u = x.setG r.toNat (BitVec.ofNat 64 v) := by
  rw [writeG, getCtl_modCtl, if_pos rfl, h]

theorem getCtl_writeG_ne (s : State) {u w : Nat} (r : Spec) (v : Nat) (h : w ≠ u) : getCtl (writeG s u r v) w = getCtl s w := by
  rw [writeG, getCtl_modCtl, if_neg h]

@[simp] theorem setG_pc (x : Ctl) (r : Nat) (v : Word) : (x.setG r v).pc = x.pc := by
  unfold Ctl.setG
  split
  · split <;> rfl
  · rfl

/-- An instruction whose boundary is its wait leaves everything as it stands while it waits. -/
theorem onCtls_waits {i : Instr} {body : Nat → Nat → State → R State} (h : CtlRuns s u i) (hi : boundaryStall i = true)
    (hb : body u (getCtl s u).pc (past s u i) = .error .stall) : onCtls i s body = .next s := by
  rw [onCtls_runs h, hb]
  change Host.Outcome.next (stallCtl s u i) = _
  rw [stallCtl, hi, Bool.true_or, if_pos rfl]

/-- Another try leaves the unit at its instruction, which has begun unless its wait is a boundary. -/
theorem retryInstr_eq (s t : State) (u : Nat) (i : Instr) : retryInstr s u i t =
    setCtl t u { getCtl t u with pc := (getCtl s u).pc, midway := (getCtl s u).midway || !boundaryStall i } := by
  unfold retryInstr stallCtl
  rw [getCtl_modCtl, if_pos rfl]
  cases boundaryStall i
  · cases (getCtl s u).midway
    · simp [modCtl, setCtl_setCtl]
    · rfl
  · simp [modCtl]

theorem onCtls_redo {i : Instr} {t : State} {body : Nat → Nat → State → R State} (h : CtlRuns s u i)
    (hb : body u (getCtl s u).pc (past s u i) = .error (.redo t)) :
    onCtls i s body =
      .next (setCtl t u { getCtl t u with pc := (getCtl s u).pc, midway := (getCtl s u).midway || !boundaryStall i }) := by
  rw [onCtls_runs h, hb, ← retryInstr_eq]
  rfl

/-! ### WFE (R191) -/

theorem takeEvents_past (s : State) (u : Nat) (i : Instr) (d : Spec) (v : Nat) :
    takeEvents (past s u i) u d v =
      setCtl s u ({ behind s u i with events := 0, deadline := none }.setG d.toNat (BitVec.ofNat 64 (v % 32))) := by
  rw [takeEvents, modCtl_past, writeG_setCtl]

theorem exec_wfe_events {d a : Spec} (h : CtlRuns s u (.wfe d a)) (he : (getCtl s u).events ≠ 0) :
    ∃ t, exec (.wfe d a) s = .next t ∧
      OnlyCtl s t u ({ behind s u (.wfe d a) with events := 0, deadline := none }.setG d.toNat (BitVec.ofNat 64 ((getCtl s u).events % 32))) := by
  change ∃ t, execWfe d a s = .next t ∧ _
  refine onCtls_only h ?_
  rw [getCtl_past_self]
  refine (if_pos (c := (behind s u (.wfe d a)).events ≠ 0) he).trans ?_
  rw [takeEvents_past]
  rfl

theorem exec_wfe_noTimeout {d a : Spec} (h : CtlRuns s u (.wfe d a)) (he : (getCtl s u).events = 0) (ha : a.toNat ≠ 44)
    (hd : (getCtl s u).deadline = none) (ht : readG s u a = 0) :
    ∃ t, exec (.wfe d a) s = .next t ∧ OnlyCtl s t u ({ behind s u (.wfe d a) with events := 0, deadline := none }.setG d.toNat 16) := by
  have hdeadline : (behind s u (.wfe d a)).deadline = none := hd
  change ∃ t, execWfe d a s = .next t ∧ _
  refine onCtls_only h ?_
  rw [getCtl_past_self, readG_past]
  refine (if_neg (c := (behind s u (.wfe d a)).events ≠ 0) (not_not_intro he)).trans ((if_neg ha).trans ?_)
  rw [hdeadline]
  refine (if_pos ht).trans ?_
  rw [takeEvents_past]
  rfl

theorem exec_wfe_forever {d a : Spec} (h : CtlRuns s u (.wfe d a)) (he : (getCtl s u).events = 0) (ha : a.toNat = 44) :
    exec (.wfe d a) s = .next s := by
  change execWfe d a s = _
  refine onCtls_waits h rfl ?_
  rw [getCtl_past_self]
  exact (if_neg (c := (behind s u (.wfe d a)).events ≠ 0) (not_not_intro he)).trans (if_pos ha)

theorem exec_wfe_timeout {d a : Spec} (h : CtlRuns s u (.wfe d a)) (he : (getCtl s u).events = 0) (ha : a.toNat ≠ 44)
    (hd : (getCtl s u).deadline = none) (ht : readG s u a ≠ 0) :
    ∃ t, exec (.wfe d a) s = .next t ∧ OnlyCtl s t u { getCtl s u with deadline := some (s.timens.toNat + readG s u a) } := by
  have hdeadline : (behind s u (.wfe d a)).deadline = none := hd
  have hctl : { behind s u (.wfe d a) with
      pc := (getCtl s u).pc, midway := (getCtl s u).midway || !true, deadline := some (s.timens.toNat + readG s u a) } =
      { getCtl s u with deadline := some (s.timens.toNat + readG s u a) } := by
    rw [Bool.not_true, Bool.or_false]
    rfl
  change ∃ t, execWfe d a s = .next t ∧ _
  refine ⟨_, onCtls_redo h (t := setCtl s u { behind s u (.wfe d a) with deadline := some (s.timens.toNat + readG s u a) }) ?_, ?_⟩
  · rw [getCtl_past_self, readG_past]
    refine (if_neg (c := (behind s u (.wfe d a)).events ≠ 0) (not_not_intro he)).trans ((if_neg ha).trans ?_)
    rw [hdeadline]
    refine (if_neg ht).trans ?_
    rw [modCtl_past]
    rfl
  · rw [getCtl_setCtl, if_pos rfl, setCtl_setCtl, ← hctl]
    exact onlyCtl_set ..

/-! ### SEV (R192) -/

theorem getCtl_setEvent_ne (s : State) {u v : Nat} (k : Nat) (h : v ≠ u) : getCtl (setEvent s u k) v = getCtl s v := by
  unfold setEvent
  split
  · rw [getCtl_modCtl, if_neg h]
  · rfl

theorem setEvent_pc (s : State) (u v k : Nat) : (getCtl (setEvent s u k) v).pc = (getCtl s v).pc := by
  unfold setEvent
  split
  · rw [getCtl_modCtl]
    split
    case isTrue h => rw [h]
    case isFalse => rfl
  · rfl

theorem getCtl_setEvents_ne (s : State) {l : List Nat} {v : Nat} (k : Nat) (h : v ∉ l) :
    getCtl (l.foldl (fun s u => setEvent s u k) s) v = getCtl s v := by
  induction l generalizing s with
  | nil => rfl
  | cons u l ih =>
    obtain ⟨hu, hl⟩ := not_or.mp (mt List.mem_cons.mpr h)
    rw [List.foldl_cons, ih _ hl, getCtl_setEvent_ne s k hu]

theorem groves_lt {k : Cfg} {g : Nat} (h : g ∈ k.groves) : g < 1024 := List.mem_range.mp (List.mem_filter.mp h).1

theorem exec_sev_unit {a : Spec} (h : CtlRuns s u (.sev a)) (ha : a.toNat ≠ 44) (hv : readG s u a < 1024)
    (hs : unitSecure s (readG s u a) = unitSecure s u) : exec (.sev a) s = .next (setEvent (past s u (.sev a)) (readG s u a) 0) := by
  change execSev a s = _
  refine onCtls_ok h ?_
  rw [if_neg ha, readG_past]
  refine (if_neg (Nat.not_le.mpr hv)).trans (if_neg ?_)
  rw [bne_iff_ne]
  exact not_not_intro hs

theorem exec_sev_glade {a : Spec} {k : Cfg} (h : CtlRuns s u (.sev a)) (ha : a.toNat = 44) (hu : isCore u = false) (hk : cfgOfGrove s u = some k) :
    exec (.sev a) s = .next (k.groves.foldl (fun s g => setEvent s g 0) (past s u (.sev a))) := by
  change execSev a s = _
  refine onCtls_ok h ?_
  have hcfg : cfgOfGrove (past s u (.sev a)) u = some k := hk
  rw [if_pos ha, hu, hcfg]
  rfl

/-- Settles O47: WFE by its four cases, and SEV by the bits it sets (`setEvent_bit`, `setEvents_bit`). -/
theorem events : Obligations.Events := by
  refine fun s u d a => ⟨fun h => ⟨exec_wfe_events h, exec_wfe_noTimeout h, exec_wfe_forever h, exec_wfe_timeout h⟩,
    fun h ha hv hs => ⟨_, exec_sev_unit h ha hv hs, ?_, ?_, ?_, fun v hvu hva => ?_⟩,
    fun h ha hu k hk => ⟨_, exec_sev_glade h ha hu hk, ?_, fun g hg => setEvents_bit _ _ 0 (by have := groves_lt hg; omega) (.inl hg),
      fun v hvu hvg => ?_⟩⟩
  · rw [setEvent_frame]
    rfl
  · rw [setEvent_bit]
    simp [show readG s u a < 2000 by omega]
  · rw [setEvent_pc, getCtl_past_self]
    rfl
  · rw [getCtl_setEvent_ne _ 0 hva, getCtl_past, if_neg hvu]
  · generalize k.groves = l
    rw [setEvents_frame]
    rfl
  · rw [getCtl_setEvents_ne _ 0 hvg, getCtl_past, if_neg hvu]

end Sys2Proof.Machine
end

section
/-! JOIN (R187). -/

namespace Sys2Proof.Machine
open Sys2Proof.Claims

variable {s : State} {u : Nat}

/-! ### A join at a record -/

/-- A counter of `n` that a join takes down: it falls by one in memory, which loads need not have seen, and a round is due where it reaches 0. -/
def recordJoined (s : State) (pa n : Nat) : State :=
  { s with
    mem := (writeNat s (pa + 16) 2 (n - 1)).mem
    views := noteViews s [((pa + 16) * 8, 16, n - 1)] anyone
    round := s.round || n == 1 }

theorem joinAt_zero {pa : Nat} (h : readNat s (pa + 16) 2 = 0) : joinAt s pa = (s, none) := if_pos h

theorem joinAt_pos {pa : Nat} (hd : s.drains = []) (hp : s.poison = []) (h : readNat s (pa + 16) 2 ≠ 0) :
    joinAt s pa = (recordJoined s pa (readNat s (pa + 16) 2), some (readNat s (pa + 16) 2 - 1)) := by
  have hlt := readNat_lt s (pa + 16) 2
  generalize hn : readNat s (pa + 16) 2 = n at h hlt ⊢
  have hw : (writePieces s [((pa + 16) * 8, 16, n - 1)] 0).1 =
      { s with mem := (writeNat s (pa + 16) 2 (n - 1)).mem, views := noteViews s [((pa + 16) * 8, 16, n - 1)] anyone } := by
    rw [writePieces_bytes (n := 2) 0 anyone hd (by rw [poisonedRange, hp]; rfl) (show n - 1 < 256 ^ 2 by omega), writeNat_frame]
  have hjoin : joinAt s pa = (if n = 1 then { (writePieces s [((pa + 16) * 8, 16, n - 1)] 0).1 with round := true }
      else (writePieces s [((pa + 16) * 8, 16, n - 1)] 0).1, some (n - 1)) := by
    rw [← hn] at h ⊢
    exact if_neg h
  refine hjoin.trans (congrArg (·, some (n - 1)) ?_)
  rw [hw, recordJoined]
  by_cases h1 : n = 1
  · rw [if_pos h1, beq_iff_eq.mpr h1, Bool.or_true]
  · rw [if_neg h1, beq_eq_false_iff_ne.mpr h1, Bool.or_false]

/-- What a join leaves in memory (R187). -/
theorem recordJoined_mem (s : State) (pa n : Nat) :
    readNat (recordJoined s pa n) (pa + 16) 2 = (n - 1) % 256 ^ 2 ∧
      ∀ y, ¬ (pa + 16 ≤ y ∧ y < pa + 18) → memByte (recordJoined s pa n) y = memByte s y := by
  have hmem : (recordJoined s pa n).mem = (writeNat s (pa + 16) 2 (n - 1)).mem := rfl
  refine ⟨?_, fun y hy => ?_⟩
  · rw [readNat_of_mem hmem]
    exact readNat_writeNat ..
  · rw [memByte, hmem]
    exact (memByte_writeNat ..).trans (if_neg hy)

/-- A join and its result change units, memory and what loads need not have seen, and a round may be due. -/
theorem writeG_recordJoined_frame (s : State) (u pa n : Nat) (r : Spec) (v : Nat) :
    let t := writeG (recordJoined s pa n) u r v
    t = { s with ctls := t.ctls, mem := t.mem, views := t.views, round := (s.round || n == 1) } := rfl

/-! ### The instruction -/

theorem exec_join {d a : Spec} {r : Nat × Nat} {pa : Nat} {e : TlbEntry} (h : CtlRuns s u (.join d a)) :
    let p := past s u (.join d a)
    readRecord p u (getCtl s u).pc (readG s u a) = .ok r →
    translate p (ctlStream u) (ctlSrc p u (getCtl s u).pc) .atomic (readG s u a + 16) 8 = .ok (pa, e) →
    exec (.join d a) s =
      .next (writeG (joinAt p r.2).1 u d (match (joinAt p r.2).2 with | none => stJOINZERO | some c => c * 65536)) := by
  intro p hr ht
  change execJoin d a s = _
  refine onCtls_ok h ?_
  rw [readG_past]
  exact (bind_of_ok hr).trans ((bind_of_ok ht).trans rfl)

theorem exec_join_zero {d a : Spec} {r : Nat × Nat} {pa : Nat} {e : TlbEntry} (h : CtlRuns s u (.join d a))
    (hr : readRecord (past s u (.join d a)) u (getCtl s u).pc (readG s u a) = .ok r)
    (ht : translate (past s u (.join d a)) (ctlStream u) (ctlSrc (past s u (.join d a)) u (getCtl s u).pc) .atomic (readG s u a + 16) 8 = .ok (pa, e))
    (h0 : readNat s (r.2 + 16) 2 = 0) :
    ∃ t, exec (.join d a) s = .next t ∧ OnlyCtl s t u ((behind s u (.join d a)).setG d.toNat 8) := by
  refine ⟨_, exec_join h hr ht, ?_⟩
  rw [joinAt_zero (s := past s u (.join d a)) h0, writeG_past]
  exact onlyCtl_set ..

theorem exec_join_pos {d a : Spec} {r : Nat × Nat} {pa : Nat} {e : TlbEntry} (h : CtlRuns s u (.join d a))
    (hr : readRecord (past s u (.join d a)) u (getCtl s u).pc (readG s u a) = .ok r)
    (ht : translate (past s u (.join d a)) (ctlStream u) (ctlSrc (past s u (.join d a)) u (getCtl s u).pc) .atomic (readG s u a + 16) 8 = .ok (pa, e))
    (hd : s.drains = []) (hp : s.poison = []) (h0 : readNat s (r.2 + 16) 2 ≠ 0) :
    exec (.join d a) s = .next (writeG (recordJoined (past s u (.join d a)) r.2 (readNat s (r.2 + 16) 2)) u d
      ((readNat s (r.2 + 16) 2 - 1) * 65536)) := by
  refine (exec_join h hr ht).trans ?_
  rw [joinAt_pos (s := past s u (.join d a)) (pa := r.2) hd hp h0]
  rfl

end Sys2Proof.Machine

namespace Sys2Proof.Scheduling
open Sys2Proof.Machine

/-- Settles O45: a counter of 0 by `exec_join_zero`, any other by `exec_join_pos` with what it leaves in memory (`recordJoined_mem`). -/
theorem joins : Obligations.Joins := by
  intro s u d a r pa e h p x va n hr ht hd hp
  refine ⟨exec_join_zero h hr ht, fun h0 => ?_⟩
  obtain ⟨hcount, hother⟩ := recordJoined_mem p r.2 n
  have hn : (n - 1) % 256 ^ 2 = n - 1 := Nat.mod_eq_of_lt ((Nat.sub_le ..).trans_lt (readNat_lt s (r.2 + 16) 2))
  have hctl : ∀ v, getCtl (recordJoined p r.2 n) v = getCtl p v := fun _ => rfl
  refine ⟨_, exec_join_pos h hr ht hd hp h0, writeG_recordJoined_frame .., getCtl_writeG _ _ ((hctl u).trans (getCtl_past_self ..)), fun v hv => ?_,
    (readNat_of_mem rfl ..).trans (hcount.trans hn), hother⟩
  rw [getCtl_writeG_ne _ _ _ hv, hctl, getCtl_past, if_neg hv]

end Sys2Proof.Scheduling
end

section
/-! LAUNCH and CTXRS (R186, R190, R460). -/

namespace Sys2Proof.Machine
open Sys2Proof.Claims

variable {s : State} {u : Nat} {d a b : Spec} {r : Nat × Nat}

/-! ### Checks -/

theorem aligned_ok {va n : Nat} (h : va % n = 0) : aligned va n = .ok () := if_neg (not_not_intro h)

theorem superOnly_past {i : Instr} (h : (getCtl s u).user = false) : superOnly (past s u i) u = .ok () := by
  rw [superOnly, getCtl_past_self]
  exact if_neg (Bool.eq_false_iff.mp h)

/-! ### A queue takes an entry, and the module wakes -/

theorem getQueue_pushQueue (s : State) (q k : Nat) (e : QEntry) :
    getQueue (pushQueue s q e) k = if k = q then getQueue s k ++ [e] else getQueue s k := by
  unfold getQueue pushQueue
  rw [tget_tset]
  split
  case isTrue h => rw [h]; rfl
  case isFalse => rfl

/-- The module is out of PW1 (R460). -/
def Woken (s t : State) : Prop := t.power = (if s.power = .pw1 then .pw0 else s.power) ∧ (s.power ≠ .pw1 → t.idleSince = s.idleSince)

theorem wakeModule_frame (s : State) : wakeModule s = { s with power := (wakeModule s).power, idleSince := (wakeModule s).idleSince } := by
  unfold wakeModule
  split <;> rfl

theorem woken_wakeModule (s : State) : Woken s (wakeModule s) := by
  unfold wakeModule Woken
  split
  case isTrue h => exact ⟨rfl, fun hn => absurd h hn⟩
  case isFalse => exact ⟨rfl, fun _ => rfl⟩

/-! ### LAUNCH (R186) -/

/-- The entry of a LAUNCH. -/
def launchEntry (s : State) (u va : Nat) : QEntry :=
  { addr := va, issuer := u, asn := (getCtl s u).asn, user := (getCtl s u).user, secure := unitSecure s u }

/-- The status of a LAUNCH of the record `r`. -/
def launchAnswer (s : State) (u : Nat) (b : Spec) (r : Nat × Nat) : Nat :=
  launchStatus s r.1 (readG s u b) (getCtl s u).user (unitSecure s u) (getCtl s u).asn

theorem exec_launch (h : CtlRuns s u (.launch d a b)) (hr : readRecord (past s u (.launch d a b)) u (getCtl s u).pc (readG s u a) = .ok r) :
    exec (.launch d a b) s = .next (writeG (wakeModule (if launchAnswer s u b r = stOK then
      pushQueue (past s u (.launch d a b)) (readG s u b) (launchEntry s u (readG s u a)) else past s u (.launch d a b))) u d (launchAnswer s u b r)) := by
  change execLaunch d a b s = _
  refine onCtls_ok h ?_
  rw [readG_past, readG_past, getCtl_past_self]
  exact (bind_of_ok hr).trans rfl

theorem exec_launch_queued (h : CtlRuns s u (.launch d a b))
    (hr : readRecord (past s u (.launch d a b)) u (getCtl s u).pc (readG s u a) = .ok r) (hst : launchAnswer s u b r = stOK) :
    ∃ t e, exec (.launch d a b) s = .next t ∧ Woken s t ∧
      t = { s with ctls := t.ctls, queues := t.queues, round := t.round, power := t.power, idleSince := t.idleSince } ∧
      getCtl t u = (behind s u (.launch d a b)).setG d.toNat 0 ∧ (∀ v, v ≠ u → getCtl t v = getCtl s v) ∧
      (∀ q, getQueue t q = if q = readG s u b then getQueue s q ++ [e] else getQueue s q) ∧ e.addr = readG s u a ∧ e.save = false ∧ e.issuer = u := by
  have hexec := exec_launch h hr
  rw [if_pos hst, hst] at hexec
  refine ⟨_, launchEntry s u (readG s u a), hexec, woken_wakeModule _, ?_, ?_, fun v hv => ?_, fun q => ?_, rfl, rfl, rfl⟩
  all_goals rw [wakeModule_frame]
  · exact rfl
  · exact getCtl_writeG _ _ (getCtl_past_self ..)
  · exact (getCtl_writeG_ne _ _ _ hv).trans ((getCtl_past ..).trans (if_neg hv))
  · exact getQueue_pushQueue (past s u (.launch d a b)) ..

theorem exec_launch_refused (h : CtlRuns s u (.launch d a b))
    (hr : readRecord (past s u (.launch d a b)) u (getCtl s u).pc (readG s u a) = .ok r) (hst : launchAnswer s u b r ≠ stOK) :
    ∃ t, exec (.launch d a b) s = .next t ∧ Woken s t ∧ t = { s with ctls := t.ctls, power := t.power, idleSince := t.idleSince } ∧
      getCtl t u = (behind s u (.launch d a b)).setG d.toNat (BitVec.ofNat 64 (launchAnswer s u b r)) ∧ ∀ v, v ≠ u → getCtl t v = getCtl s v := by
  have hexec := exec_launch h hr
  rw [if_neg hst] at hexec
  refine ⟨_, hexec, woken_wakeModule _, ?_, ?_, fun v hv => ?_⟩
  all_goals rw [wakeModule_frame]
  · exact rfl
  · exact getCtl_writeG _ _ (getCtl_past_self ..)
  · exact (getCtl_writeG_ne _ _ _ hv).trans ((getCtl_past ..).trans (if_neg hv))

/-! ### CTXRS (R190) -/

/-- The entry of a CTXRS. -/
def restoreEntry (s : State) (u va : Nat) : QEntry :=
  { addr := va, save := true, issuer := u, asn := (getCtl s u).asn, user := (getCtl s u).user, secure := unitSecure s u }

/-- The status of a CTXRS of an area whose header is `r` (R190). -/
def restoreAnswer (s : State) (u : Nat) (b : Spec) (r : Nat × Nat) : Nat :=
  if !saveFormat r.1 then stSAVEFMT
  else if 63 < readG s u b then stBADQUEUE
  else if !unitSecure s u && (blockSecure s 4 (readG s u b) || savedSecure s r.2) then stPERM
  else if 4096 ≤ (getQueue s (readG s u b)).length then stQFULL
  else stOK

theorem restoreAnswer_ok (hf : saveFormat r.1 = true) (hq : readG s u b ≤ 63)
    (hw : unitSecure s u = false → blockSecure s 4 (readG s u b) = false ∧ savedSecure s r.2 = false) (hl : (getQueue s (readG s u b)).length < 4096) :
    restoreAnswer s u b r = stOK := by
  have hworld : (!unitSecure s u && (blockSecure s 4 (readG s u b) || savedSecure s r.2)) = false := by
    cases hs : unitSecure s u
    · obtain ⟨hqueue, harea⟩ := hw hs
      rw [hqueue, harea]
      rfl
    · rfl
  simp [restoreAnswer, hf, Nat.not_lt.mpr hq, hworld, Nat.not_le.mpr hl]

/-- An accepted CTXRS queues the area and writes its status, whatever that write waits for. -/
theorem exec_ctxrs_accepted (h : CtlRuns s u (.ctxrs d a b)) (hu : (getCtl s u).user = false) (ha : readG s u a % 4096 = 0)
    (hr : readRecord (past s u (.ctxrs d a b)) u (getCtl s u).pc (readG s u a) = .ok r) (hst : restoreAnswer s u b r = stOK) :
    exec (.ctxrs d a b) s = .next (writeG (saveStatus (pushQueue (past s u (.ctxrs d a b)) (readG s u b) (restoreEntry s u (readG s u a)))
      (restoreEntry s u (readG s u a)) 1) u d stOK) := by
  change execCtxrs d a b s = _
  refine onCtls_ok h ?_
  rw [readG_past, readG_past, getCtl_past_self]
  refine (bind_of_ok (superOnly_past hu)).trans ((bind_of_ok (aligned_ok ha)).trans ((bind_of_ok hr).trans ?_))
  change Except.ok (writeG (if restoreAnswer s u b r = stOK then _ else _) u d (restoreAnswer s u b r)) = _
  rw [hst]
  rfl

/-- While no checkpoint is drained, the unit has its result and nothing else of it changes. -/
theorem exec_ctxrs_queued (h : CtlRuns s u (.ctxrs d a b)) (hu : (getCtl s u).user = false) (ha : readG s u a % 4096 = 0)
    (hr : readRecord (past s u (.ctxrs d a b)) u (getCtl s u).pc (readG s u a) = .ok r) (hf : saveFormat r.1 = true) (hq : readG s u b ≤ 63)
    (hw : unitSecure s u = false → blockSecure s 4 (readG s u b) = false ∧ savedSecure s r.2 = false) (hl : (getQueue s (readG s u b)).length < 4096)
    (hd : s.drains = []) :
    ∃ t e, exec (.ctxrs d a b) s = .next t ∧ getCtl t u = (behind s u (.ctxrs d a b)).setG d.toNat 0 ∧
      (∀ q, getQueue t q = if q = readG s u b then getQueue s q ++ [e] else getQueue s q) ∧ e.addr = readG s u a ∧ e.save = true ∧ t.round = true := by
  have hexec := exec_ctxrs_accepted h hu ha hr (restoreAnswer_ok hf hq hw hl)
  have hwrote := wrote_saveStatus (s := pushQueue (past s u (.ctxrs d a b)) (readG s u b) (restoreEntry s u (readG s u a))) hd
    (restoreEntry s u (readG s u a)) 1
  generalize saveStatus _ _ 1 = w at hexec hwrote
  refine ⟨_, restoreEntry s u (readG s u a), hexec, ?_, fun q => ?_, rfl, rfl, ?_⟩
  · refine getCtl_writeG _ _ ?_
    rw [hwrote]
    exact getCtl_past_self ..
  · rw [hwrote]
    exact getQueue_pushQueue (past s u (.ctxrs d a b)) ..
  · rw [hwrote]
    exact Bool.or_true _

end Sys2Proof.Machine
end

section
/-! CONF, SPLICE and PREEMPT (R174, R188 to R190). -/

namespace Sys2Proof.Machine
open Sys2Proof.Claims

variable {s : State} {u : Nat} {d a b : Spec} {k : Cfg}

/-! ### CONF (R188) -/

theorem exec_conf_notInstalled (h : CtlRuns s u (.conf d a)) (ha : readG s u a % 64 = 0) (hu : isCore u = false) (hk : cfgOfGrove s u = none) :
    ∃ t, exec (.conf d a) s = .next t ∧ OnlyCtl s t u ((behind s u (.conf d a)).setG d.toNat (BitVec.ofNat 64 stNOTINST)) := by
  have hcfg : cfgOfGrove (past s u (.conf d a)) u = none := hk
  change ∃ t, execConf d a s = .next t ∧ _
  refine onCtls_only h ?_
  rw [readG_past, hu, hcfg, ← writeG_past]
  exact (bind_of_ok (aligned_ok ha)).trans rfl

theorem exec_conf_applies (h : CtlRuns s u (.conf d a)) (ha : readG s u a % 64 = 0) (hu : isCore u = false) (hk : cfgOfGrove s u = some k)
    (hw : (getCtl s u).wait = some 0) (hf : cfgFiring s k.id = false) :
    exec (.conf d a) s = .next (confApply (past s u (.conf d a)) u (getCtl s u).pc (readG s u a) (getCfg s k.id) d) := by
  have hcfg : cfgOfGrove (past s u (.conf d a)) u = some k := hk
  have hfiring : cfgFiring (past s u (.conf d a)) k.id = false := hf
  have hwait : (getCtl (past s u (.conf d a)) u).wait = some 0 := (congrArg Ctl.wait (getCtl_past_self ..)).trans hw
  change execConf d a s = _
  refine onCtls_ok h ?_
  rw [readG_past, hu, hcfg]
  refine (bind_of_ok (aligned_ok ha)).trans ?_
  simp only [hwait, hfiring, Bool.false_eq_true, if_false, beq_self_eq_true, Bool.not_true, Bool.false_and, if_true]
  rfl

/-- CONF before its configuration is quiet: the configuration is to quiesce, and the instruction has begun. -/
theorem exec_conf_waits (h : CtlRuns s u (.conf d a)) (ha : readG s u a % 64 = 0) (hu : isCore u = false) (hk : cfgOfGrove s u = some k)
    (hw : (getCtl s u).wait = none) (hsplice : splicing k = false) (hst : k.st = .running) (hq : k.quiesce = false) (hf : cfgFiring s k.id = true) :
    exec (.conf d a) s = .next (setCtl (modCfg (past s u (.conf d a)) k.id fun k => { k with quiesce := true }) u
      { getCtl s u with wait := some 0, midway := true }) := by
  let t := modCfg (past s u (.conf d a)) k.id fun k => { k with quiesce := true }
  have hcfg : cfgOfGrove (past s u (.conf d a)) u = some k := hk
  have hctl : getCtl (past s u (.conf d a)) u = behind s u (.conf d a) := getCtl_past_self ..
  have hwait : (behind s u (.conf d a)).wait = none := hw
  have hnone : (none == some 0) = false := rfl
  have hredo : modCtl t u (fun x => { x with wait := some 0 }) = setCtl t u { behind s u (.conf d a) with wait := some 0 } :=
    congrArg (fun x : Ctl => setCtl t u { x with wait := some 0 }) hctl
  have hmidway : { behind s u (.conf d a) with wait := some 0, pc := (getCtl s u).pc, midway := (getCtl s u).midway || !false } =
      { getCtl s u with wait := some 0, midway := true } := by
    rw [Bool.not_false, Bool.or_true]
    rfl
  change execConf d a s = _
  refine (onCtls_redo h (t := setCtl t u { behind s u (.conf d a) with wait := some 0 }) ?_).trans ?_
  · rw [readG_past, hu, hcfg, hctl]
    refine (bind_of_ok (aligned_ok ha)).trans ?_
    simp only [Bool.false_eq_true, if_false, hwait, hnone, Bool.not_false, Bool.true_and, hsplice, hst, hq, bne_self_eq_false]
    rw [hredo]
    exact if_pos hf
  · rw [getCtl_setCtl, if_pos rfl, setCtl_setCtl, ← hmidway]
    rfl

theorem exec_conf_quiesces (h : CtlRuns s u (.conf d a)) (ha : readG s u a % 64 = 0) (hu : isCore u = false) (hk : cfgOfGrove s u = some k)
    (hw : (getCtl s u).wait = none) (hsplice : splicing k = false) (hst : k.st = .running) (hq : k.quiesce = false) (hf : cfgFiring s k.id = true) :
    ∃ t, exec (.conf d a) s = .next t ∧ getCtl t u = { getCtl s u with wait := some 0, midway := true } ∧
      (∀ q, findCfg s k.id = some q → (getCfg t k.id).quiesce = true) ∧ t = { s with ctls := t.ctls, cfgs := t.cfgs } := by
  refine ⟨_, exec_conf_waits h ha hu hk hw hsplice hst hq hf, ?_, fun q hq => ?_, rfl⟩
  · rw [getCtl_setCtl, if_pos rfl]
  · have hfind := findCfg_modCfg_some (s := past s u (.conf d a)) (g := fun k => { k with quiesce := true }) (fun _ => rfl) hq
    exact congrArg Cfg.quiesce (getCfg_of_find hfind)

/-! ### PREEMPT (R190) -/

theorem exec_preempt_begins {r : Nat × Nat} (h : CtlRuns s u (.preempt d a)) (hu : (getCtl s u).user = false)
    (hr : readRecord (past s u (.preempt d a)) u (getCtl s u).pc (readG s u a) = .ok r) (hk : cfgOfRecord s r.2 = some k)
    (hp : k.preemptible = true) (hsplice : splicing k = false) (hst : k.st = .running) (hf : findCfg s k.id = some k) :
    ∃ t, exec (.preempt d a) s = .next t ∧ t = { s with ctls := t.ctls, cfgs := t.cfgs } ∧
      getCtl t u = (behind s u (.preempt d a)).setG d.toNat 0 ∧ getCfg t k.id = { k with st := .preempting, preempters := [u] } := by
  have hcfg : cfgOfRecord (past s u (.preempt d a)) r.2 = some k := hk
  have hexec : exec (.preempt d a) s =
      .next (writeG (modCfg (past s u (.preempt d a)) k.id fun k => { k with st := .preempting, preempters := [u] }) u d stOK) := by
    change execPreempt d a s = _
    refine onCtls_ok h ?_
    rw [readG_past]
    refine (bind_of_ok (superOnly_past hu)).trans ((bind_of_ok hr).trans ?_)
    simp only [hcfg, hp, hsplice, hst, Bool.not_true, Bool.false_eq_true, if_false, ne_eq, not_true_eq_false]
  have hfind := findCfg_modCfg_some (s := past s u (.preempt d a)) (g := fun k => { k with st := .preempting, preempters := [u] }) (fun _ => rfl) hf
  exact ⟨_, hexec, rfl, getCtl_writeG _ _ (getCtl_past_self ..), getCfg_of_find hfind⟩

/-! ### SPLICE (R189) -/

theorem exec_splice_binds {r q : Nat × Nat} (h : CtlRuns s u (.splice d a b)) (ha : readG s u a % 64 = 0) (hb : readG s u b % 64 = 0)
    (hr : readRecord (past s u (.splice d a b)) u (getCtl s u).pc (readG s u a) = .ok r)
    (hq : readRecord (past s u (.splice d a b)) u (getCtl s u).pc (readG s u b) = .ok q) (hk : cfgOfRecord s q.2 = some k) (hsucc : k.succ = none)
    (hsplice : recSplice r.1 = true) (hjoin : recJoin r.1 = 0) (hw : recW r.1 = k.width) (hh : recH r.1 = k.height) (hn : recN r.1 = k.stages)
    (hf : findCfg s k.id = some k) (hid : k.id < s.nextId) :
    ∃ t c, exec (.splice d a b) s = .next t ∧ t = { s with ctls := t.ctls, cfgs := t.cfgs, nextId := s.nextId + 1, free := s.free + 1 } ∧
      getCtl t u = (behind s u (.splice d a b)).setG d.toNat 0 ∧ (getCfg t k.id).succ = some s.nextId ∧ c ∈ t.cfgs ∧ c.id = s.nextId ∧
      c.pred = some k.id ∧ c.origins = k.origins ∧ c.rcd = readG s u a := by
  let p := { past s u (.splice d a b) with nextId := s.nextId + 1, free := s.free + 1 }
  let c := spliceCfg p u (readG s u a) r.2 r.1 k s.nextId (Config.freeWord s.free).toNat
  have hcfg : cfgOfRecord (past s u (.splice d a b)) q.2 = some k := hk
  have hexec : exec (.splice d a b) s =
      .next (writeG (modCfg { p with cfgs := p.cfgs ++ [c] } k.id fun k => { k with succ := some c.id }) u d stOK) := by
    change execSplice d a b s = _
    refine onCtls_ok h ?_
    rw [readG_past, readG_past]
    refine (bind_of_ok (aligned_ok ha)).trans ((bind_of_ok (aligned_ok hb)).trans ((bind_of_ok hr).trans ((bind_of_ok hq).trans ?_)))
    simp only [hcfg, hsucc, hsplice, hjoin, hw, hh, hn, Option.isSome_none, Bool.false_eq_true, if_false, Bool.not_true, bne_self_eq_false,
      Bool.or_false, ne_eq, not_true_eq_false, or_false]
    rfl
  have hfind : findCfg { p with cfgs := p.cfgs ++ [c] } k.id = some k := by
    change List.find? _ (s.cfgs ++ [c]) = _
    rw [List.find?_append]
    exact congrArg (Option.or · _) hf
  have hne : c.id ≠ k.id := fun hc => absurd (hc ▸ hid : c.id < s.nextId) (Nat.lt_irrefl _)
  refine ⟨_, c, hexec, rfl, ?_, ?_, ?_, rfl, rfl, rfl, rfl⟩
  · exact getCtl_writeG _ _ (getCtl_past_self ..)
  · exact congrArg Cfg.succ (getCfg_of_find (findCfg_modCfg_some (g := fun k => { k with succ := some c.id }) (fun _ => rfl) hfind))
  · exact List.mem_map.mpr ⟨c, List.mem_append_right _ List.mem_cons_self, if_neg hne⟩

end Sys2Proof.Machine
end

section
/-! CTXSV (R180, R190). -/

namespace Sys2Proof.Machine
open Sys2Proof.Claims

variable {s : State} {u : Nat} {d a b : Spec} {k : Cfg}

/-! ### An older context of the area is gone -/

/-- The state without the context that an area held before. -/
def withoutSaved (s : State) (pa : Nat) : State := match s.saves.find? fun e => e.1 == pa with
  | some z => dropSaved s z.1 z.2
  | none => s

theorem withoutSaved_frame (s : State) (pa : Nat) :
    withoutSaved s pa = { s with saves := (withoutSaved s pa).saves, cfgs := (withoutSaved s pa).cfgs, work := (withoutSaved s pa).work } := by
  unfold withoutSaved
  split <;> rfl

theorem findCfg_withoutSaved (pa : Nat) {i : Nat} (h : ∀ z, z ∈ s.saves → z.2.cfg ≠ i) : findCfg (withoutSaved s pa) i = findCfg s i := by
  unfold withoutSaved
  split
  case h_1 z hz =>
    have hne : ∀ c : Cfg, decide (decide (c.id ≠ z.2.cfg) = true ∧ (c.id == i) = true) = (c.id == i) := fun c => by
      by_cases hc : c.id = i
      · simp [hc, (h z (List.mem_of_find?_eq_some hz)).symm]
      · simp [hc]
    change (s.cfgs.filter fun c => c.id ≠ z.2.cfg).find? _ = s.cfgs.find? _
    rw [List.find?_filter]
    exact congrArg (List.find? · s.cfgs) (funext hne)
  case h_2 => rfl

/-! ### Records withdrawn from units -/

theorem enqueue_pc (x : Ctl) (u : Nat) (r : TrapRec) : (x.enqueue u r).pc = x.pc := by
  unfold Ctl.enqueue
  split <;> rfl

theorem withdraw_pc (x : Ctl) (u : Nat) (gone : TrapRec → Bool) : (x.withdraw u gone).pc = x.pc :=
  foldl_keeps (fun y : Ctl => y.pc = x.pc) _ (fun y r hy => (enqueue_pc y u r).trans hy) _ _ rfl

/-- The records that meet `gone` withdrawn from the units of a list. -/
def withdrawals (s : State) (gone : TrapRec → Bool) (l : List Nat) : State := l.foldl (fun s g => modCtl s g fun x => x.withdraw g gone) s

theorem withdrawals_frame (s : State) (gone : TrapRec → Bool) (l : List Nat) :
    withdrawals s gone l = { s with ctls := (withdrawals s gone l).ctls } := by
  unfold withdrawals
  induction l generalizing s with
  | nil => rfl
  | cons g l ih =>
    rw [List.foldl_cons, ih]
    rfl

theorem withdrawals_pc (s : State) (gone : TrapRec → Bool) (l : List Nat) (v : Nat) : (getCtl (withdrawals s gone l) v).pc = (getCtl s v).pc := by
  refine foldl_keeps (fun t : State => (getCtl t v).pc = (getCtl s v).pc) _ (fun t g ht => ?_) l s rfl
  rw [getCtl_modCtl]
  split
  case isTrue h => rw [withdraw_pc, ← h, ht]
  case isFalse => exact ht

/-! ### The context leaves the device (R180) -/

/-- The context of `k` in the area, its cells gated and its arrays empty. -/
def contextKept (s : State) (k : Cfg) (pa draw : Nat) : State :=
  let cells := s.cells.filter fun e => e.2.cfg == k.id
  let gs := s.groves.filter fun e => (k.stageOf e.1).isSome
  let t := { s with saves := tset {} s.saves pa { cfg := k.id, cells := cells, groves := gs, draw := draw }, work := s.work.map (parkJob k.id), round := true }
  (gs.map (·.1)).foldl (fun s g => modGrove s g clearArray) (gateCells t (cells.map (·.1)) 0)

theorem contextKept_frame (s : State) (k : Cfg) (pa draw : Nat) :
    let t := contextKept s k pa draw
    t = { s with saves := t.saves, work := t.work, round := true, cells := t.cells, views := t.views, groves := t.groves } := by
  unfold contextKept
  dsimp only
  rw [clearArrays_frame, gateCells_frame]

theorem saveContext_eq (s : State) (k : Cfg) (pa draw : Nat) : saveContext s k pa draw =
    modCfg (withdrawals (contextKept (withoutSaved s pa) k pa draw) (fun r => r.kind ≤ 2 && r.cfg == k.id) k.groves) k.id
      fun k => { k with st := .saved, consts := [] } := by
  simp only [contextKept, ← gateEntries_eq, List.foldl_map]
  rfl

theorem getCell_contextKept (s : State) (pa draw c : Nat) (hk : k.id ≠ 0) : (getCell (contextKept s k pa draw) c).cfg ≠ k.id := by
  unfold contextKept
  dsimp only
  rw [getCell_clearArrays, getCell_gateCells]
  split
  case isTrue => exact fun h => hk h.symm
  case isFalse h => exact fun hc => h (mem_cells_of_cfg hk hc)

theorem tget_saves_contextKept (s : State) (k : Cfg) (pa draw : Nat) : (tget {} (contextKept s k pa draw).saves pa).cfg = k.id := by
  unfold contextKept
  rw [clearArrays_frame, gateCells_frame]
  exact congrArg Saved.cfg (tget_tset_self ..)

/-- What CTXSV leaves of a configuration that was installed: it is saved and on no cell, and a round is due. -/
theorem saveContext_leaves {q : Cfg} (pa draw : Nat) (hk : k.id ≠ 0) (hf : findCfg s k.id = some q) (hs : ∀ z, z ∈ s.saves → z.2.cfg ≠ k.id) :
    let t := saveContext s k pa draw
    (getCfg t k.id).st = .saved ∧ (∀ c, (getCell t c).cfg ≠ k.id) ∧ (tget {} t.saves pa).cfg = k.id ∧ (∀ v, (getCtl t v).pc = (getCtl s v).pc) ∧
      t.round = true := by
  intro t
  have ht : t = _ := saveContext_eq s k pa draw
  have hfind := (findCfg_withoutSaved pa hs).trans hf
  have hcell : ∀ c, _ := fun c => getCell_contextKept (withoutSaved s pa) pa draw c hk
  have hsave := tget_saves_contextKept (withoutSaved s pa) k pa draw
  have hkept := contextKept_frame (withoutSaved s pa) k pa draw
  have hpc : ∀ v, getCtl (withoutSaved s pa) v = getCtl s v := fun v => by rw [withoutSaved_frame]; rfl
  generalize withoutSaved s pa = w at *
  generalize contextKept w k pa draw = x at *
  have hx : findCfg x k.id = some q := by rw [hkept]; exact hfind
  have hctl : ∀ v, getCtl x v = getCtl s v := fun v => by rw [hkept]; exact hpc v
  have hwithdrawn := withdrawals_frame x (fun r => r.kind ≤ 2 && r.cfg == k.id) k.groves
  have hunits := withdrawals_pc x (fun r => r.kind ≤ 2 && r.cfg == k.id) k.groves
  generalize withdrawals x (fun r => r.kind ≤ 2 && r.cfg == k.id) k.groves = y at *
  have hy : findCfg y k.id = some q := by rw [hwithdrawn]; exact hx
  rw [ht]
  refine ⟨congrArg Cfg.st (getCfg_of_find (findCfg_modCfg_some (g := fun k => { k with st := .saved, consts := [] }) (fun _ => rfl) hy)), fun c => ?_, ?_,
    fun v => (hunits v).trans (congrArg Ctl.pc (hctl v)), ?_⟩
  · rw [hwithdrawn]
    exact hcell c
  · rw [hwithdrawn]
    exact hsave
  · rw [hwithdrawn]
    exact congrArg State.round hkept

/-! ### The instruction -/

/-- The bytes of a save area: its header, and contents that are free (R182; log entry 8). -/
def areaBytes (s : State) (k : Cfg) : Nat :=
  saveHeader s k + Config.freeBytes s.free % 2 ^ (8 * (saveLength k.width k.height k.stages - 64)) * 2 ^ 512

theorem exec_ctxsv {r : Nat × Nat} {ps : List (Nat × Nat × Nat)} (h : CtlRuns s u (.ctxsv d a b)) (hu : (getCtl s u).user = false)
    (ha : readG s u a % 64 = 0) (hb : readG s u b % 4096 = 0)
    (hr : readRecord (past s u (.ctxsv d a b)) u (getCtl s u).pc (readG s u a) = .ok r) (hk : cfgOfRecord s r.2 = some k) (hst : k.st = .held)
    (hps : physParts (past s u (.ctxsv d a b)) (ctlStream u) (ctlSrc (past s u (.ctxsv d a b)) u (getCtl s u).pc) .write (readG s u b)
      (saveLength k.width k.height k.stages) = .ok ps) :
    exec (.ctxsv d a b) s = .next (writeG (saveContext (putParts { past s u (.ctxsv d a b) with free := s.free + 1 } (readG s u b) ps (areaBytes s k)
      (ctlSrc (past s u (.ctxsv d a b)) u (getCtl s u).pc).insn.toNat) k ((ps.head?.map (·.2.1)).getD 0) s.free) u d stOK) := by
  have hcfg : cfgOfRecord (past s u (.ctxsv d a b)) r.2 = some k := hk
  change execCtxsv d a b s = _
  refine onCtls_ok h ?_
  rw [readG_past, readG_past]
  refine (bind_of_ok (superOnly_past hu)).trans ((bind_of_ok (aligned_ok ha)).trans ((bind_of_ok (aligned_ok hb)).trans ((bind_of_ok hr).trans ?_)))
  rw [hcfg]
  refine (if_neg (not_not_intro hst)).trans ((bind_of_ok hps).trans ?_)
  rfl

/-- While no checkpoint is drained, CTXSV saves a held configuration and releases its glades. -/
theorem exec_ctxsv_saves {r : Nat × Nat} {ps : List (Nat × Nat × Nat)} (h : CtlRuns s u (.ctxsv d a b)) (hu : (getCtl s u).user = false)
    (ha : readG s u a % 64 = 0) (hb : readG s u b % 4096 = 0)
    (hr : readRecord (past s u (.ctxsv d a b)) u (getCtl s u).pc (readG s u a) = .ok r) (hk : cfgOfRecord s r.2 = some k) (hst : k.st = .held)
    (hps : physParts (past s u (.ctxsv d a b)) (ctlStream u) (ctlSrc (past s u (.ctxsv d a b)) u (getCtl s u).pc) .write (readG s u b)
      (saveLength k.width k.height k.stages) = .ok ps) (hf : findCfg s k.id = some k) (hid : k.id ≠ 0) (hs : ∀ z, z ∈ s.saves → z.2.cfg ≠ k.id)
    (hd : s.drains = []) :
    ∃ t, exec (.ctxsv d a b) s = .next t ∧ (getCfg t k.id).st = .saved ∧ (∀ c, (getCell t c).cfg ≠ k.id) ∧
      (tget {} t.saves ((ps.head?.map (·.2.1)).getD 0)).cfg = k.id ∧ (getCtl t u).pc = (getCtl s u).pc + 4 ∧ t.round = true := by
  have hexec := exec_ctxsv h hu ha hb hr hk hst hps
  generalize (ctlSrc _ u _).insn.toNat = w at hexec
  have hwrote : Wrote { past s u (.ctxsv d a b) with free := s.free + 1 }
      (putParts { past s u (.ctxsv d a b) with free := s.free + 1 } (readG s u b) ps (areaBytes s k) w) :=
    wrote_writePieces (s := { past s u (.ctxsv d a b) with free := s.free + 1 }) hd ..
  generalize putParts _ (readG s u b) ps _ w = p at hexec hwrote
  have hfind : findCfg p k.id = some k := by rw [hwrote]; exact hf
  have hsaves : ∀ z, z ∈ p.saves → z.2.cfg ≠ k.id := by rw [hwrote]; exact hs
  have hpc : (getCtl p u).pc = (getCtl s u).pc + 4 := by
    rw [hwrote]
    exact congrArg Ctl.pc (getCtl_past_self s u (.ctxsv d a b))
  obtain ⟨hsaved, hcells, harea, hunits, hround⟩ := saveContext_leaves ((ps.head?.map (·.2.1)).getD 0) s.free hid hfind hsaves
  generalize saveContext p k _ s.free = x at hexec hsaved hcells harea hunits hround
  refine ⟨_, hexec, hsaved, hcells, harea, ?_, hround⟩
  rw [getCtl_writeG _ _ rfl, setG_pc, hunits, hpc]

end Sys2Proof.Machine
end

section
/-! CTXRS where a restore has the identity of a checkpoint that is drained (R190, R258, R448, R452). -/

namespace Sys2Proof.Machine
open Sys2Proof.Claims

/-! ### The state -/

/-- Page tables that map the first GiB of address space 0 to itself (R411, R412), and at 0x31000 the header of a save area of one grove (R182). -/
def areaBehindTables : Table Byte :=
  [(0x4001, 0x80), (0x4007, 0x80), (0x8000, 0x01), (0x8001, 0x90), (0x9000, 0x01), (0x9001, 0xA0), (0xA000, 0x3F),
   (0x31000, 0x56), (0x31001, 0x41), (0x31002, 0x53), (0x31003, 0x5A), (0x31004, 0x01), (0x31011, 0x10), (0x31012, 0x0A), (0x31018, 0x41)]

/-- A restore that core 0 issued, in an address space without tables, and a checkpoint of the same identity: both have the area's granule to copy. -/
def restoreBesideCheckpoint : List Ckpt :=
  [{ rest := true, src := { kind := 3, who := 1024, asn := 1 }, pending := [(0x31000, 0)] }, { pending := [(0x31000, 0)] }]

/-- Core 0 is about to queue the area while its basin's engine holds the two. -/
def identityTwice : State :=
  { State.reset with
    ttbase := 0x4000
    mem := areaBehindTables
    ctls := [(1024, { mode := .running, pc := 0x1000, bank0 := [(1, 0x31000)] })]
    tlbs := [(1024, [⟨0, false, 0, 0, 2 ^ 30, 15, false⟩])]
    drains := [(0, restoreBesideCheckpoint)] }

/-! ### What CTXRS does there -/

theorem of_toOption_any {α : Type} {x : R α} {p : α → Bool} (h : x.toOption.any p = true) : ∃ v, x = .ok v ∧ p v = true := by
  cases x with
  | ok v => exact ⟨v, rfl, h⟩
  | error _ => exact absurd h Bool.false_ne_true

/-- The records that a unit has queued in the next state. -/
def queuedAfter (u : Nat) : Out State → Nat
  | .next t => (getCtl t u).queue.length
  | _ => 0

/-- All that the clause of CTXRS asks for is met. -/
theorem identityTwice_meets :
    let s := identityTwice
    CtlRuns s 1024 (.ctxrs 2 1 44) ∧ (getCtl s 1024).user = false ∧ readG s 1024 1 % 4096 = 0 ∧
      (readRecord (past s 1024 (.ctxrs 2 1 44)) 1024 (getCtl s 1024).pc (readG s 1024 1)).toOption.any
        (fun r => saveFormat r.1 && !savedSecure s r.2) = true ∧
      readG s 1024 44 ≤ 63 ∧ blockSecure s 4 (readG s 1024 44) = false ∧ (getQueue s (readG s 1024 44)).length < 4096 := by decide +kernel

/-- The write of the area's status waits for the granule's copy; the restore is found for it and fails, and its record is queued at its issuer. -/
theorem identityTwice_queues : queuedAfter 1024 (exec (.ctxrs 2 1 44) identityTwice) = 1 := by decide +kernel

theorem behind_setG_queue (s : State) (u : Nat) (i : Instr) (r : Nat) (v : Word) : ((behind s u i).setG r v).queue = (getCtl s u).queue := by
  unfold Ctl.setG
  split
  · split <;> rfl
  · rfl

/-- Refutes O46 by its clause on CTXRS, in the state `identityTwice`: the clause says that of the unit only the pc and G[d] change, whatever checkpoints
are drained.  The write of the area's status first copies a granule for a checkpoint (R448); where a restore has that checkpoint's identity, the copy
is made for the restore, whose failure queues a JOB record at the unit (R258).  No run reaches such a state, since identities are fresh, but the statement
is about every state.  It needs no more than `s.drains = []`, as O45 has it: with that CTXRS does what is said (`exec_ctxrs_queued`), as do LAUNCH
(`exec_launch_queued`, `exec_launch_refused`), CONF (`exec_conf_notInstalled`, `exec_conf_applies`, `exec_conf_quiesces`), SPLICE
(`exec_splice_binds`), PREEMPT (`exec_preempt_begins`) and CTXSV (`exec_ctxsv_saves`). -/
theorem not_configurations : ¬ Obligations.Configurations := by
  intro h
  obtain ⟨hruns, huser, halign, hrecord, hqueue, hblock, hroom⟩ := identityTwice_meets
  obtain ⟨r, hr, hheader⟩ := of_toOption_any hrecord
  obtain ⟨hformat, harea⟩ := Bool.and_eq_true_iff.mp hheader
  have hworld : savedSecure identityTwice r.2 = false := by simpa using harea
  obtain ⟨t, e, hexec, hunit, -⟩ :=
    (h.1 identityTwice 1024 2 1 44 r).2 hruns huser halign hr hformat hqueue (fun _ => ⟨hblock, hworld⟩) hroom
  have hnone : queuedAfter 1024 (exec (.ctxrs 2 1 44) identityTwice) = 0 := by
    rw [hexec, queuedAfter, hunit, behind_setG_queue]
    rfl
  rw [identityTwice_queues] at hnone
  exact absurd hnone Nat.one_ne_zero

end Sys2Proof.Machine
end

section
/-! The host's doorbell (R186, R455, R460). -/

namespace Sys2Proof.Machine
open Sys2Proof.Claims

variable {s : State}

/-! ### The check of a doorbell write -/

/-- The address of the record that a doorbell write names. -/
def doorbellAddr (v : Word) : Nat := bits v.toNat 6 50 * 64

/-- The entry of a doorbell write. -/
def doorbellEntry (v : Word) : QEntry := { addr := doorbellAddr v, issuer := 2000 }

/-- The bytes of the record that a doorbell write names. -/
def doorbellRecord (s : State) (v : Word) : Except Trap Nat := jobBytes s (entrySrc (doorbellEntry v)) (doorbellAddr v) 64

/-- The status of a doorbell write whose record is `r`. -/
def doorbellStatus (s : State) (v : Word) (r : Nat) : Nat := launchStatus s r (bits v.toNat 0 6) false false 0

theorem doorbellCheck_unread {v : Word} {f : Trap} (h : doorbellRecord s v = .error f) : doorbellCheck s v.toNat = { s with launchst := stBADREC } := by
  change (match doorbellRecord s v with | .error _ => _ | .ok _ => _) = _
  rw [h]

theorem doorbellCheck_read {v : Word} {r : Nat} (h : doorbellRecord s v = .ok r) :
    doorbellCheck s v.toNat = { (if doorbellStatus s v r = stOK then pushQueue s (bits v.toNat 0 6) (doorbellEntry v) else s) with
      launchst := doorbellStatus s v r } := by
  change (match doorbellRecord s v with | .error _ => _ | .ok _ => _) = _
  rw [h]
  rfl

/-! ### The doorbell -/

theorem exec_launchDoorbell_noFirmware {v : Word} (h : s.fwOk = false) : exec (.launchDoorbell v) s = .next s := if_pos (by simp [h])

theorem exec_launchDoorbell_standby {v : Word} (h : s.fwOk = true) (hp : s.power = .pw2) :
    exec (.launchDoorbell v) s = .next { s with doorbells := s.doorbells ++ [v] } := (if_neg (by simp [h])).trans (if_pos hp)

theorem exec_launchDoorbell_checked {v : Word} (h : s.fwOk = true) (hp : s.power ≠ .pw2) :
    exec (.launchDoorbell v) s = .next (wakeModule (doorbellCheck s v.toNat)) := (if_neg (by simp [h])).trans (if_neg hp)

theorem completes_launchDoorbell (s : State) (v : Word) : Completes (exec (.launchDoorbell v) s) := by
  cases h : s.fwOk with
  | false => exact ⟨_, exec_launchDoorbell_noFirmware h⟩
  | true =>
    by_cases hp : s.power = .pw2
    · exact ⟨_, exec_launchDoorbell_standby h hp⟩
    · exact ⟨_, exec_launchDoorbell_checked h hp⟩

/-- A checked doorbell write leaves the module out of PW1, and memory as it was. -/
theorem doorbell_wakes (s : State) (w : Nat) :
    (wakeModule (doorbellCheck s w)).power = (if s.power = .pw1 then .pw0 else s.power) ∧ SameMem s (wakeModule (doorbellCheck s w)) := by
  obtain ⟨hpower, -⟩ := woken_wakeModule (doorbellCheck s w)
  refine ⟨?_, fun a => ?_⟩
  · rw [hpower, doorbellCheck_frame]
  · rw [wakeModule_frame, doorbellCheck_frame]
    rfl

/-- A doorbell write whose record cannot be read. -/
theorem launchDoorbell_unread {v : Word} {f : Trap} (h : s.fwOk = true) (hp : s.power ≠ .pw2) (hr : doorbellRecord s v = .error f) :
    ∃ t, exec (.launchDoorbell v) s = .next t ∧ t.launchst = stBADREC ∧ t.queues = s.queues ∧
      t.power = (if s.power = .pw1 then .pw0 else s.power) ∧ SameMem s t := by
  refine ⟨_, exec_launchDoorbell_checked h hp, ?_, ?_, doorbell_wakes s v.toNat⟩
  all_goals rw [wakeModule_frame, doorbellCheck_unread hr]

/-- A doorbell write whose record is `r` has the status of a LAUNCH, and its entry is queued when that is OK. -/
theorem launchDoorbell_read {v : Word} {r : Nat} (h : s.fwOk = true) (hp : s.power ≠ .pw2) (hr : doorbellRecord s v = .ok r) :
    ∃ t, exec (.launchDoorbell v) s = .next t ∧ t.launchst = doorbellStatus s v r ∧
      t.power = (if s.power = .pw1 then .pw0 else s.power) ∧ SameMem s t ∧
      getQueue t (bits v.toNat 0 6) = if doorbellStatus s v r = stOK then getQueue s (bits v.toNat 0 6) ++ [doorbellEntry v]
        else getQueue s (bits v.toNat 0 6) := by
  obtain ⟨hpower, hmem⟩ := doorbell_wakes s v.toNat
  refine ⟨_, exec_launchDoorbell_checked h hp, ?_, hpower, hmem, ?_⟩
  all_goals rw [wakeModule_frame, doorbellCheck_read hr]
  split
  · exact (getQueue_pushQueue s ..).trans (if_pos rfl)
  · rfl

end Sys2Proof.Machine
end

section
/-! The host's reads and writes of memory (R204, R404, R441, R454). -/

namespace Sys2Proof.Machine
open Sys2Proof.Claims

variable {s t : State}

/-! ### Memory under pieces of one number -/

/-- A bit of memory after pieces that give it one value: that value where a piece covers it, else what it was. -/
theorem memBit_writeAll {y : Nat} {b : Bool} {ps : List (Nat × Nat × Nat)}
    (h : ∀ p ∈ ps, p.1 ≤ y ∧ y < p.1 + p.2.1 → p.2.2.testBit (y - p.1) = b) (s : State) :
    memBit (writeAll s ps) y = if ∃ p ∈ ps, p.1 ≤ y ∧ y < p.1 + p.2.1 then b else memBit s y := by
  unfold writeAll
  induction ps generalizing s with
  | nil => simp
  | cons p ps ih =>
    rw [List.foldl_cons, ih (fun q hq => h q (List.mem_cons_of_mem _ hq)), memBit_writeBits]
    by_cases hps : ∃ q ∈ ps, q.1 ≤ y ∧ y < q.1 + q.2.1
    · obtain ⟨q, hq, hy⟩ := hps
      rw [if_pos ⟨q, hq, hy⟩, if_pos ⟨q, List.mem_cons_of_mem _ hq, hy⟩]
    · by_cases hp : p.1 ≤ y ∧ y < p.1 + p.2.1
      · rw [if_neg hps, if_pos hp, if_pos ⟨p, List.mem_cons_self, hp⟩]
        exact h p List.mem_cons_self hp
      · rw [if_neg hps, if_neg hp, if_neg]
        rintro ⟨q, hq, hy⟩
        rcases List.mem_cons.mp hq with rfl | hq
        · exact hp hy
        · exact hps ⟨q, hq, hy⟩

/-- Bit `i` of the number of bytes is a bit of one of them (R2). -/
theorem testBit_ofBytes (l : List Nat) (i : Nat) : (ofBytes l).testBit i = (l.getD (i / 8) 0).testBit (i % 8) := by
  induction l generalizing i with
  | nil => simp [ofBytes]
  | cons b l ih =>
    have hb : b % 256 < 2 ^ 8 := Nat.mod_lt _ (by decide)
    rw [ofBytes, Nat.add_comm, Nat.testBit_two_pow_mul_add (i := 8) _ hb]
    split
    case isTrue h => rw [show i / 8 = 0 by omega, List.getD_cons_zero, Nat.mod_eq_of_lt h, Nat.testBit_mod_two_pow (j := 8), decide_eq_true h, Bool.true_and]
    case isFalse h => rw [ih, show i / 8 = (i - 8) / 8 + 1 by omega, List.getD_cons_succ, show (i - 8) % 8 = i % 8 by omega]

/-- A byte is its bits. -/
theorem memByte_of_bits {y : Nat} {b : Byte} (h : ∀ i, i < 8 → memBit s (8 * y + i) = b.toNat.testBit i) : memByte s y = b := by
  refine BitVec.eq_of_getLsbD_eq fun i hi => ?_
  have hy := h i hi
  rw [memBit, show (8 * y + i) / 8 = y by omega, show (8 * y + i) % 8 = i by omega] at hy
  exact hy

/-! ### A host write in pieces of one granule each (R404) -/

/-- The part of a host write from byte `lo` to byte `hi`. -/
def hostPart (a : Nat) (bs : List Byte) (lo hi : Nat) : Nat × Nat × Nat :=
  (lo * 8, (hi - lo) * 8, ofBytes (bs.map (·.toNat)) >>> ((lo - a) * 8) % 2 ^ ((hi - lo) * 8))

/-- The pieces of a host write are its parts in the granules that it touches. -/
theorem mem_hostPieces_iff {a : Nat} {bs : List Byte} {p : Nat × Nat × Nat} :
    p ∈ hostPieces a bs ↔ ∃ i, i < (a + bs.length + 63) / 64 - a / 64 ∧
      max a ((a / 64 + i) * 64) < min (a + bs.length) ((a / 64 + i + 1) * 64) ∧
      p = hostPart a bs (max a ((a / 64 + i) * 64)) (min (a + bs.length) ((a / 64 + i + 1) * 64)) := by
  simp only [hostPieces, List.mem_filterMap, List.mem_range, Option.ite_none_right_eq_some, Option.some.injEq, eq_comm (b := p), hostPart]

/-- A piece of a host write lies in it. -/
theorem mem_hostPieces {a : Nat} {bs : List Byte} {p : Nat × Nat × Nat} (h : p ∈ hostPieces a bs) :
    ∃ lo hi, a ≤ lo ∧ lo < hi ∧ hi ≤ a + bs.length ∧ p = hostPart a bs lo hi := by
  obtain ⟨i, -, hlt, hp⟩ := mem_hostPieces_iff.mp h
  exact ⟨_, _, Nat.le_max_left .., hlt, Nat.min_le_left .., hp⟩

/-- Every byte of a host write is in the piece of its granule. -/
theorem hostPieces_cover {a y : Nat} {bs : List Byte} (h : a * 8 ≤ y ∧ y < (a + bs.length) * 8) :
    ∃ p ∈ hostPieces a bs, p.1 ≤ y ∧ y < p.1 + p.2.1 := by
  refine ⟨_, mem_hostPieces_iff.mpr ⟨y / 8 / 64 - a / 64, by omega, by omega, rfl⟩, ?_⟩
  unfold hostPart
  constructor <;> dsimp only <;> omega

/-- A bit of memory after a host write. -/
theorem memBit_hostPieces (s : State) (a : Nat) (bs : List Byte) (y : Nat) :
    memBit (writeAll s (hostPieces a bs)) y =
      if a * 8 ≤ y ∧ y < (a + bs.length) * 8 then (ofBytes (bs.map (·.toNat))).testBit (y - a * 8) else memBit s y := by
  have hagree : ∀ p ∈ hostPieces a bs, p.1 ≤ y ∧ y < p.1 + p.2.1 → p.2.2.testBit (y - p.1) = (ofBytes (bs.map (·.toNat))).testBit (y - a * 8) := by
    intro p hp hy
    obtain ⟨lo, hi, hlo, hlt, hhi, rfl⟩ := mem_hostPieces hp
    unfold hostPart at hy ⊢
    dsimp only at hy ⊢
    rw [Nat.testBit_mod_two_pow, decide_eq_true (by omega), Bool.true_and, Nat.testBit_shiftRight]
    congr 1
    omega
  rw [memBit_writeAll hagree]
  by_cases hr : a * 8 ≤ y ∧ y < (a + bs.length) * 8
  · rw [if_pos (hostPieces_cover hr), if_pos hr]
  · rw [if_neg hr, if_neg]
    rintro ⟨p, hp, hy⟩
    obtain ⟨lo, hi, hlo, hlt, hhi, rfl⟩ := mem_hostPieces hp
    unfold hostPart at hy
    dsimp only at hy
    omega

/-- The bytes of a host write are read back, and every other byte is as before. -/
theorem memByte_hostPieces (s : State) (a : Nat) (bs : List Byte) :
    (∀ i, i < bs.length → memByte (writeAll s (hostPieces a bs)) (a + i) = bs.getD i 0) ∧
      ∀ y, ¬ (a ≤ y ∧ y < a + bs.length) → memByte (writeAll s (hostPieces a bs)) y = memByte s y := by
  refine ⟨fun i hi => memByte_of_bits fun j hj => ?_, fun y hy => memByte_of_bits fun j hj => ?_⟩
  · rw [memBit_hostPieces, if_pos (by omega), testBit_ofBytes, show (8 * (a + i) + j - a * 8) / 8 = i by omega,
      show (8 * (a + i) + j - a * 8) % 8 = j by omega]
    simp [List.getD_eq_getElem?_getD, hi]
  · rw [memBit_hostPieces, if_neg (by omega), memBit, show (8 * y + j) / 8 = y by omega, show (8 * y + j) % 8 = j by omega]
    rfl

theorem memByte_of_mem (h : t.mem = s.mem) (a : Nat) : memByte t a = memByte s a := congrArg (tget 0 · a) h

/-! ### HOST_MEM_WRITE and HOST_MEM_READ -/

theorem exec_hostMemWrite_refused {a : Nat} {bs : List Byte}
    (h : s.fwOk = false ∨ hostReach s a bs.length = false ∨ onBarrierPage s a bs.length = true) :
    exec (.hostMemWrite a bs) s = .next { s with reply := .abort } :=
  if_pos (by rcases h with h | h | h <;> simp [h])

theorem exec_hostMemWrite_taken {a : Nat} {bs : List Byte} (hf : s.fwOk = true) (hr : hostReach s a bs.length = true)
    (hb : onBarrierPage s a bs.length = false) :
    exec (.hostMemWrite a bs) s = .next { (writePieces s (hostPieces a bs) 0).1 with
      reply := if (writePieces s (hostPieces a bs) 0).2 = [] then .none else .abort } :=
  if_neg (by simp [hf, hr, hb])

theorem completes_hostMemWrite (s : State) (a : Nat) (bs : List Byte) : Completes (exec (.hostMemWrite a bs) s) := by
  by_cases h : s.fwOk = false ∨ hostReach s a bs.length = false ∨ onBarrierPage s a bs.length = true
  · exact ⟨_, exec_hostMemWrite_refused h⟩
  · obtain ⟨hf, hr, hb⟩ := by simpa only [not_or, Bool.not_eq_false, Bool.not_eq_true] using h
    exact ⟨_, exec_hostMemWrite_taken hf hr hb⟩

/-- A host write that no uncorrectable granule drops and no checkpoint waits for. -/
theorem hostMemWrite_writes {a : Nat} {bs : List Byte} (hf : s.fwOk = true) (hr : hostReach s a bs.length = true)
    (hb : onBarrierPage s a bs.length = false) (hc : Calm s) :
    ∃ t, exec (.hostMemWrite a bs) s = .next t ∧ t = { s with mem := t.mem, views := t.views, reply := .none } ∧
      (∀ i, i < bs.length → memByte t (a + i) = bs.getD i 0) ∧ ∀ y, ¬ (a ≤ y ∧ y < a + bs.length) → memByte t y = memByte s y := by
  have hexec := exec_hostMemWrite_taken hf hr hb
  rw [writePieces_calm hc, if_pos rfl] at hexec
  obtain ⟨hin, hout⟩ := memByte_hostPieces s a bs
  refine ⟨_, hexec, ?_, fun i hi => (memByte_of_mem rfl _).trans (hin i hi), fun y hy => (memByte_of_mem rfl _).trans (hout y hy)⟩
  rw [writeAll_frame]

theorem exec_hostMemRead_refused {a n : Nat} (h : hostReach s a n = false ∨ poisonedRange s a n = true) :
    exec (.hostMemRead a n) s = .next { s with reply := .abort } :=
  if_pos (by rcases h with h | h <;> simp [h])

theorem exec_hostMemRead_answered {a n : Nat} (hr : hostReach s a n = true) (hp : poisonedRange s a n = false) :
    exec (.hostMemRead a n) s = .next { s with reply := .bytes ((List.range n).map fun i => memByte s (a + i)) } :=
  if_neg (by simp [hr, hp])

/-! ### The obligation -/

/-- A host read of LAUNCHST once every doorbell write has been checked. -/
theorem exec_launchstRead (h : s.doorbells = []) :
    exec .launchstRead s = .next { s with reply := .word (BitVec.ofNat 64 (if s.fwOk then s.launchst else 16)) } := if_neg (not_not_intro h)

/-- An attestation answers from the firmware's digest and version and the world map. -/
theorem exec_spdmAttestation {p : State} (n : BitVec 256) (hd : fwDigest p.fw = fwDigest s.fw) (hv : p.fw.version = s.fw.version)
    (hr : p.regions = s.regions) (hb : p.blocks = s.blocks) :
    ∃ r, exec (.spdmAttestation n) s = .next { s with reply := .attestation r } ∧
      exec (.spdmAttestation n) p = .next { p with reply := .attestation r } := by
  refine ⟨_, rfl, ?_⟩
  change execSpdmAttestation n p = _
  rw [execSpdmAttestation, hd, hv, hr, hb]

theorem exec_mgmtStandbyRequest (s : State) : exec .mgmtStandbyRequest s =
    .next (if s.fwOk then (if s.power = .pw1 then { s with power := .pw2, pwreq := 0 } else { s with pwreq := 2 }) else s) := by
  rw [← requestPower_standby]
  rfl

/-- Settles O58: a doorbell by the state of the module and by its record (`launchDoorbell_unread`, `launchDoorbell_read`), a host write by its bytes
(`hostMemWrite_writes`), and the other events by what each does. -/
theorem hostPort : Obligations.HostPort := by
  refine fun s => ⟨fun v => ⟨completes_launchDoorbell s v, exec_launchDoorbell_noFirmware, exec_launchDoorbell_standby, fun hf hp =>
      ⟨fun _ => launchDoorbell_unread hf hp, fun _ => launchDoorbell_read hf hp⟩⟩, exec_launchstRead,
    fun a bs => ⟨completes_hostMemWrite s a bs, exec_hostMemWrite_refused, fun hf hr hb hp hd => hostMemWrite_writes hf hr hb ⟨hp, hd⟩⟩,
    fun a n => ⟨exec_hostMemRead_refused, exec_hostMemRead_answered⟩, fun n p hd hv hr hb => exec_spdmAttestation n hd hv hr hb, fun _ => rfl,
    exec_mgmtStandbyRequest s⟩

end Sys2Proof.Machine
end

section
/-! What is clean stays clean (R441, R448): the copies that checkpoints make before a write leave no granule uncorrectable that was not. -/

namespace Sys2Proof.Machine
open Sys2Proof.Claims

variable {s : State}

/-- What comes before a write makes no granule uncorrectable. -/
def Before.Clean (bf : Before) : Prop := ∀ s b len, s.poison = [] → (bf s b len).poison = []

theorem poison_jobTrap (s : State) (e : Trap) (x : Src) (k : Option Nat) : (jobTrap s e x k).poison = s.poison := by
  unfold jobTrap
  split
  · dsimp only
    split
    · rfl
    · rw [toSupervisor_frame]
  · rw [stopFrame_frame]

theorem poison_writeNat (s : State) (pa n v : Nat) : (writeNat s pa n v).poison = s.poison := by rw [writeNat_frame]

theorem poison_allSeen (s : State) : (allSeen s).poison = s.poison := by
  unfold allSeen
  split <;> rfl

theorem poison_landPieces (h : s.poison = []) (ps : List (Nat × Nat × Nat)) (w : Nat) : (landPieces s ps w).1.poison = [] := by
  rw [landPieces_calm h, writeAll_frame]
  exact h

theorem poison_ckptHeader {bf : Before} (hb : bf.Clean) (h : s.poison = []) (c : Ckpt) (st k : Nat) : (ckptHeader bf s c st k).poison = [] :=
  (poison_allSeen _).trans (poison_landPieces (hb s _ _ h) ..)

theorem poison_ckptUndefined {bf : Before} (hb : bf.Clean) (h : s.poison = []) (c : Ckpt) : (ckptUndefined bf s c).poison = [] := by
  refine foldl_keeps (fun t : State => t.poison = []) _ (fun u r hu => ?_) _ s h
  exact ((poison_writeNat ..).trans (poison_allSeen _)).trans (hb u _ _ hu)

theorem poison_ckptFail {bf : Before} (hb : bf.Clean) (h : s.poison = []) (b : Nat) (c : Ckpt) (e : Trap) : (ckptFail bf s b c e).poison = [] := by
  have hleave : (ckptLeave bf s b c 3 e.cause).poison = [] :=
    poison_ckptHeader hb (poison_ckptUndefined hb (s := modCkpt s b c.id fun _ => none) h c) c ..
  exact ite_keeps (fun t : State => t.poison = []) _ ((poison_jobTrap ..).trans hleave) hleave

theorem poison_ckptProgress {bf : Before} (hb : bf.Clean) (h : s.poison = []) (b id : Nat) : (ckptProgress bf s b id).poison = [] := by
  unfold ckptProgress
  split
  · exact h
  · dsimp only
    split
    · exact hb _ _ _ h
    · exact poison_ckptHeader (bf := fun s _ _ => s) (fun _ _ _ h => h) (hb _ _ _ h) ..

/-- A part of a checkpoint lands, and its header says so. -/
theorem poison_ckptWrite {bf : Before} (hb : bf.Clean) (h : s.poison = []) (dst n v b id : Nat) (f : Ckpt → Option Ckpt) :
    (ckptProgress bf (modCkpt (writeNat (allSeen s) dst n v) b id f) b id).poison = [] :=
  poison_ckptProgress (s := modCkpt (writeNat (allSeen s) dst n v) b id f) hb (((poison_writeNat ..).trans (poison_allSeen s)).trans h) ..

theorem poison_ckptCopy {bf : Before} (hb : bf.Clean) (h : s.poison = []) (b id : Nat) (g : Nat × Nat) : (ckptCopy bf s b id g).poison = [] := by
  unfold ckptCopy
  split
  · exact h
  refine ite_keeps (fun t : State => t.poison = []) _ h ?_
  split
  · exact poison_ckptFail hb h ..
  refine ite_keeps (fun t : State => t.poison = []) _ (poison_ckptFail hb h ..) ?_
  rename_i src dst _
  have hbefore : ∀ f, (bf (modCkpt s b id f) (dst * 8) 32768).poison = [] := fun f => hb (modCkpt s b id f) _ _ h
  dsimp only
  generalize hu : bf (modCkpt s b id _) (dst * 8) 32768 = u
  have hclean : u.poison = [] := hu ▸ hbefore _
  refine ite_keeps (fun t : State => t.poison = []) _ hclean ?_
  generalize hp : (if u.poison = [] then u else { u with poison := u.poison.filter fun p => !(dst ≤ p && p < dst + 4096) }) = v
  have hv : v.poison = [] := by rwa [← hp, if_pos hclean]
  exact poison_ckptWrite hb hv ..

theorem clean_drainFor (n : Nat) : (drainFor n).Clean := by
  induction n with
  | zero => exact fun _ _ _ => id
  | succ n ih =>
    exact fun s b len h => foldl_keeps (fun t : State => t.poison = []) (fun s (g : Nat × Nat × Nat × Nat) => ckptCopy (drainFor n) s g.1 g.2.1 g.2.2)
      (fun u g hu => poison_ckptCopy ih hu g.1 g.2.1 g.2.2) (drainHits s b len) s h

theorem clean_drainAll : Before.Clean drainAll := fun s b len h => ite_keeps (fun t : State => t.poison = []) _ h (clean_drainFor _ s b len h)

/-- While no granule is uncorrectable, no write is dropped. -/
theorem writePieces_undropped (h : s.poison = []) (ps : List (Nat × Nat × Nat)) (w : Nat) (x : Src) : (writePieces s ps w x).2 = [] := by
  have hdrained : (ps.foldl (fun s p => drainAll s p.1 p.2.1) s).poison = [] :=
    foldl_keeps (fun t : State => t.poison = []) _ (fun u p hu => clean_drainAll u p.1 p.2.1 hu) ps s h
  exact congrArg Prod.snd (landPieces_calm hdrained ps w)

end Sys2Proof.Machine
end

section
/-! Barrier objects at their owners (R203, R265, R266): their two words, and whom an operation releases. -/

namespace Sys2Proof.Machine
open Sys2Proof.Claims

variable {s t : State}

/-! ### The words of a barrier -/

theorem barPhase_barWord (p a n : Nat) : barPhase (barWord p a n) = p % 256 := by
  rw [barPhase, bits, Nat.shiftRight_eq_div_pow, barWord]
  omega

theorem barArrived_barWord (p a n : Nat) : barArrived (barWord p a n) = a % 65536 := by
  rw [barArrived, bits, Nat.shiftRight_eq_div_pow, barWord]
  omega

theorem barTarget_barWord (p a n : Nat) : barTarget (barWord p a n) = n % 65536 := by
  rw [barTarget, bits, Nat.shiftRight_zero, barWord]
  omega

theorem barTarget_lt (w : Nat) : barTarget w < 65536 := Nat.mod_lt _ (by decide)

theorem barPhase_lt (w : Nat) : barPhase w < 256 := Nat.mod_lt _ (by decide)

/-- The reserved bits of W0 are no part of the phase. -/
theorem barPhase_mod (w : Nat) : barPhase (w % 2 ^ 40) = barPhase w := bits_mod w 40 32 8 (by decide)

/-- The words of a barrier after an operation are words. -/
theorem barNext_words {op n w0 w1 : Nat} (h0 : w0 < 2 ^ 64) (h1 : w1 < 2 ^ 64) : (barNext op n w0 w1).1 < 2 ^ 64 ∧ (barNext op n w0 w1).2 < 2 ^ 64 := by
  have hpending : ∀ x : Nat, x % 2 ^ 36 < 2 ^ 64 := fun x => by omega
  unfold barNext
  split
  · exact ⟨barWord_lt .., Nat.two_pow_pos 64⟩
  · exact ⟨barSettle_lt (barWord_lt ..), h1⟩
  · exact ⟨barSettle_lt h0, hpending _⟩
  · exact ⟨barSettle_lt h0, hpending _⟩

/-- BARINIT (R266). -/
theorem barNext_init {n : Nat} (h : n < 65536) (w0 w1 : Nat) : barTarget (barNext 0 n w0 w1).1 = n ∧ barPhase (barNext 0 n w0 w1).1 = 0 ∧
    barArrived (barNext 0 n w0 w1).1 = 0 ∧ (barNext 0 n w0 w1).2 = 0 :=
  ⟨(barTarget_barWord 0 0 n).trans (Nat.mod_eq_of_lt h), barPhase_barWord 0 0 n, barArrived_barWord 0 0 n, rfl⟩

/-- The completion rule (R265): full sets of arrivals advance the phase unless bytes are pending or there is no target. -/
theorem barSettle_barWord {p a n : Nat} (ha : a < 65536) (hn : n < 65536) (w1 : Nat) :
    let r := barSettle (barWord p a n) w1
    barTarget r = n ∧ (n ≠ 0 → barPending w1 = 0 → barPhase r = (p % 256 + a / n) % 256 ∧ barArrived r = a % n) ∧
      (n = 0 ∨ barPending w1 ≠ 0 → barPhase r = p % 256 ∧ barArrived r = a) := by
  intro r
  have hr : r = if n = 0 ∨ barPending w1 ≠ 0 then barWord p a n else barWord (p % 256 + a / n) (a % n) n := by
    change barSettle (barWord p a n) w1 = _
    rw [barSettle, barTarget_barWord, barPhase_barWord, barArrived_barWord, Nat.mod_eq_of_lt ha, Nat.mod_eq_of_lt hn]
  rw [hr]
  split
  case isTrue h =>
    refine ⟨(barTarget_barWord ..).trans (Nat.mod_eq_of_lt hn), fun h0 hp => absurd h (by simp [h0, hp]), fun _ => ?_⟩
    exact ⟨barPhase_barWord .., (barArrived_barWord ..).trans (Nat.mod_eq_of_lt ha)⟩
  case isFalse h =>
    refine ⟨(barTarget_barWord ..).trans (Nat.mod_eq_of_lt hn), fun _ _ => ⟨barPhase_barWord .., ?_⟩, fun hn => absurd hn h⟩
    exact (barArrived_barWord ..).trans (Nat.mod_eq_of_lt ((Nat.mod_le ..).trans_lt ha))

theorem barNext_arrive {n w0 : Nat} (h : barArrived w0 + n < 65536) (w1 : Nat) :
    let t := barTarget w0
    let r := (barNext 1 n w0 w1).1
    (barNext 1 n w0 w1).2 = w1 ∧ barTarget r = t ∧
      (t ≠ 0 → barPending w1 = 0 → barPhase r = (barPhase w0 + (barArrived w0 + n) / t) % 256 ∧ barArrived r = (barArrived w0 + n) % t) ∧
      (t = 0 ∨ barPending w1 ≠ 0 → barPhase r = barPhase w0 ∧ barArrived r = barArrived w0 + n) := by
  have hs := barSettle_barWord (p := barPhase w0) h (barTarget_lt w0) w1
  rw [Nat.mod_eq_of_lt (barPhase_lt w0)] at hs
  exact ⟨rfl, hs⟩

/-! ### Whom an operation releases (R265, R266) -/

/-- The waiters of a barrier that expect another phase than `p` released with it. -/
def releasedAt (l : List BarWait) (pa p : Nat) : List BarWait :=
  l.map fun w => if w.pa = pa ∧ w.got = none ∧ w.expected ≠ p then { w with got := some p } else w

theorem barWaits_releaseWaits (s : State) (pa p : Nat) : (releaseWaits s pa p).barWaits = releasedAt s.barWaits pa p := by
  unfold releaseWaits releasedAt
  split
  case isTrue h => rw [h, List.map_nil]
  case isFalse => simp only [Option.isNone_iff_eq_none]

/-- A waiter after a release of a barrier waits there for no other phase. -/
theorem expects_of_mem_releasedAt {l : List BarWait} {pa p : Nat} {w : BarWait} (h : w ∈ releasedAt l pa p) (hpa : w.pa = pa) (hg : w.got = none) :
    w.expected = p := by
  obtain ⟨v, -, hv⟩ := List.mem_map.mp h
  split at hv
  · subst hv
    cases hg
  case isFalse hn =>
    subst hv
    by_contra hne
    exact hn ⟨hpa, hg, hne⟩

theorem mem_of_mem_releasedAt {l : List BarWait} {pa p : Nat} {w : BarWait} (h : w ∈ releasedAt l pa p) (hg : w.got = none) : w ∈ l := by
  obtain ⟨v, hl, hv⟩ := List.mem_map.mp h
  split at hv
  · subst hv
    cases hg
  · exact hv ▸ hl

/-- Two different phases leave none waiting. -/
theorem released_twice {l : List BarWait} {pa p q : Nat} (hpq : p ≠ q) {w : BarWait} (h : w ∈ releasedAt (releasedAt l pa p) pa q) (hpa : w.pa = pa) :
    w.got ≠ none := fun hg =>
  hpq ((expects_of_mem_releasedAt (mem_of_mem_releasedAt h hg) hpa hg).symm.trans (expects_of_mem_releasedAt h hpa hg))

/-! ### What precedes a barrier's phases (R218, R266) -/

theorem tget_newPast (s : State) {pa q : Nat} (h : q ≠ pa) :
    tget [] (newPast s pa).barPast q = tget [] s.barPast q ∧ tget [] (newPast s pa).barNow q = tget [] s.barNow q := by
  unfold newPast
  split
  · exact ⟨rfl, rfl⟩
  · exact ⟨tget_tset_ne [] s.barPast pa q [] h, tget_tset_ne [] s.barNow pa q [] h⟩

theorem tget_notePast (s : State) {pa q : Nat} (k : Nat) (past : List Nat) (h : q ≠ pa) :
    tget [] (notePast s pa k past).barPast q = tget [] s.barPast q ∧ tget [] (notePast s pa k past).barNow q = tget [] s.barNow q := by
  unfold notePast
  dsimp only
  split
  · split
    · exact ⟨rfl, rfl⟩
    · exact ⟨rfl, tget_tset_ne [] s.barNow pa q (joinPast s (tget [] s.barNow pa) past) h⟩
  · split
    · split
      · exact ⟨rfl, rfl⟩
      · exact ⟨rfl, tget_tset_ne [] s.barNow pa q [] h⟩
    · exact ⟨tget_tset_ne [] s.barPast pa q _ h, tget_tset_ne [] s.barNow pa q [] h⟩

/-! ### An operation at the owner -/

/-- The two words that an operation writes. -/
def barPieces (s : State) (op pa n : Nat) : List (Nat × Nat × Nat) :=
  [(pa * 8, 64, (barNext op n (readWord s pa) (readWord s (pa + 8))).1), ((pa + 8) * 8, 64, (barNext op n (readWord s pa) (readWord s (pa + 8))).2)]

/-- The object's words written, nothing noted and nobody released yet. -/
def barLanded (s : State) (op pa n w : Nat) : State := (writePieces s (barPieces s op pa n) w).1

/-- The phases that an operation completes, one by one. -/
def barReleases (t : State) (pa phase k : Nat) : State := (List.range (min 2 k)).foldl (fun t i => releaseWaits t pa ((phase + i + 1) % 256)) t

theorem barWrite_undropped (h : s.poison = []) (op pa n w : Nat) (past : List Nat) :
    barWrite s op pa n w past = (if op = 0 then newPast (releaseWaits (barLanded s op pa n w) pa 0) pa
      else barReleases (notePast (barLanded s op pa n w) pa (barRounds op n (readWord s pa) (readWord s (pa + 8))) past) pa (barPhase (readWord s pa))
        (barRounds op n (readWord s pa) (readWord s (pa + 8))), []) := by
  unfold barWrite
  dsimp only
  rw [if_neg (not_not_intro (writePieces_undropped h ..))]
  split <;> rfl

theorem barReleases_none (t : State) (pa phase : Nat) : barReleases t pa phase 0 = t := rfl

theorem barReleases_one (t : State) (pa phase : Nat) : barReleases t pa phase 1 = releaseWaits t pa ((phase + 1) % 256) := rfl

theorem barReleases_more (t : State) (pa phase : Nat) {k : Nat} (h : 2 ≤ k) :
    barReleases t pa phase k = releaseWaits (releaseWaits t pa ((phase + 1) % 256)) pa ((phase + 2) % 256) := by
  unfold barReleases
  rw [Nat.min_eq_left h]
  rfl

theorem barReleases_frame (t : State) (pa phase k : Nat) :
    barReleases t pa phase k = { t with barWaits := (barReleases t pa phase k).barWaits } := releases_frame ..

theorem barWaits_barLanded (h : Calm s) (op pa n w : Nat) :
    (barLanded s op pa n w).barWaits = s.barWaits ∧ (barLanded s op pa n w).barPast = s.barPast ∧ (barLanded s op pa n w).barNow = s.barNow := by
  unfold barLanded
  rw [writePieces_calm h, writeAll_frame]
  exact ⟨rfl, rfl, rfl⟩

/-- Whom an operation on a barrier releases. -/
theorem barWaits_barWrite (h : Calm s) (op pa n w : Nat) (past : List Nat) :
    let t := (barWrite s op pa n w past).1
    let k := barRounds op n (readWord s pa) (readWord s (pa + 8))
    let phase := barPhase (readWord s pa)
    (op = 0 → t.barWaits = releasedAt s.barWaits pa 0) ∧ (op ≠ 0 → k = 0 → t.barWaits = s.barWaits) ∧
      (op ≠ 0 → k = 1 → t.barWaits = releasedAt s.barWaits pa ((phase + 1) % 256)) ∧
      (op ≠ 0 → 2 ≤ k → t.barWaits = releasedAt (releasedAt s.barWaits pa ((phase + 1) % 256)) pa ((phase + 2) % 256)) := by
  intro t k phase
  obtain ⟨hwaits, -, -⟩ := barWaits_barLanded h op pa n w
  have ht : t = if op = 0 then newPast (releaseWaits (barLanded s op pa n w) pa 0) pa
      else barReleases (notePast (barLanded s op pa n w) pa k past) pa phase k := congrArg Prod.fst (barWrite_undropped h.1 op pa n w past)
  have hnote : (notePast (barLanded s op pa n w) pa k past).barWaits = s.barWaits := by rw [notePast_frame]; exact hwaits
  refine ⟨fun h0 => ?_, fun h0 hk => ?_, fun h0 hk => ?_, fun h0 hk => ?_⟩
  · rw [ht, if_pos h0, newPast_frame]
    exact (barWaits_releaseWaits ..).trans (congrArg (releasedAt · pa 0) hwaits)
  · rw [ht, if_neg h0, hk, barReleases_none, ← hk, hnote]
  · rw [ht, if_neg h0, hk, barReleases_one, ← hk, barWaits_releaseWaits, hnote]
  · rw [ht, if_neg h0, barReleases_more _ _ _ hk, barWaits_releaseWaits, barWaits_releaseWaits, hnote]

/-- What precedes the phases of other barriers is as before. -/
theorem tget_barWrite (h : Calm s) (op pa n w : Nat) (past : List Nat) {q : Nat} (hq : q ≠ pa) :
    tget [] (barWrite s op pa n w past).1.barPast q = tget [] s.barPast q ∧ tget [] (barWrite s op pa n w past).1.barNow q = tget [] s.barNow q := by
  obtain ⟨-, hpast, hnow⟩ := barWaits_barLanded h op pa n w
  rw [barWrite_undropped h.1]
  dsimp only
  split
  · obtain ⟨h1, h2⟩ := tget_newPast (releaseWaits (barLanded s op pa n w) pa 0) hq
    rw [h1, h2, releaseWaits_frame, hpast, hnow]
    exact ⟨rfl, rfl⟩
  · rw [barReleases_frame]
    obtain ⟨h1, h2⟩ := tget_notePast (barLanded s op pa n w) (barRounds op n (readWord s pa) (readWord s (pa + 8))) past hq
    dsimp only
    rw [h1, h2, hpast, hnow]
    exact ⟨rfl, rfl⟩

/-- A byte that no piece touches is as before. -/
theorem memByte_writeAll {y : Nat} {ps : List (Nat × Nat × Nat)} (h : ∀ p ∈ ps, p.1 + p.2.1 ≤ 8 * y ∨ 8 * y + 8 ≤ p.1) (s : State) :
    memByte (writeAll s ps) y = memByte s y := by
  refine memByte_of_bits fun i hi => ?_
  have hno : ∀ p ∈ ps, ¬ (p.1 ≤ 8 * y + i ∧ 8 * y + i < p.1 + p.2.1) := fun p hp => by
    have := h p hp
    omega
  rw [memBit_writeAll (b := false) fun p hp hy => absurd hy (hno p hp), if_neg fun ⟨p, hp, hy⟩ => hno p hp hy, memBit,
    show (8 * y + i) / 8 = y by omega, show (8 * y + i) % 8 = i by omega]
  rfl

/-- An operation writes the object's two words as the completion rule says, and no other byte. -/
theorem barWrite_mem (h : Calm s) (op pa n w : Nat) (past : List Nat) :
    let t := (barWrite s op pa n w past).1
    t = { s with mem := t.mem, barWaits := t.barWaits, barPast := t.barPast, barNow := t.barNow, views := t.views } ∧
      (readWord t pa, readWord t (pa + 8)) = barNext op n (readWord s pa) (readWord s (pa + 8)) ∧
      ∀ y, ¬ (pa ≤ y ∧ y < pa + 16) → memByte t y = memByte s y := by
  intro t
  obtain ⟨-, hst⟩ := barWrite_calm h op pa n w past
  obtain ⟨h0, h1⟩ := barNext_words (op := op) (n := n) (readWord_lt s pa) (readWord_lt s (pa + 8))
  obtain ⟨hw0, hw1⟩ : readWord (writeAll s (barPieces s op pa n)) pa = _ ∧ readWord (writeAll s (barPieces s op pa n)) (pa + 8) = _ :=
    readWord_writeAll h0 h1
  have hmem : t.mem = (writeAll s (barPieces s op pa n)).mem := by
    change (barWrite s op pa n w past).1.mem = _
    rw [hst]
    rfl
  refine ⟨?_, ?_, fun y hy => (memByte_of_mem hmem y).trans (memByte_writeAll (fun p hp => ?_) s)⟩
  · rw [hmem]
    exact hst
  · rw [readWord_of_mem hmem, readWord_of_mem hmem, hw0, hw1]
  · rcases List.mem_pair.mp hp with rfl | rfl <;> dsimp only <;> omega

end Sys2Proof.Machine
end

section
/-! The BAR rows (R203, R264 to R266). -/

namespace Sys2Proof.Machine
open Sys2Proof.Claims

variable {s : State} {c u : Nat} {f g : Firing} {i : Instr}

/-! ### An instruction of cells and of units -/

theorem runInstr_cellRuns {onCell onCtl : Nat → _ → State → R State} (h : CellRuns s c f i) :
    runInstr i s onCell onCtl = cellOutcome s c f i (onCell c f s) := by
  obtain ⟨ht, hf, hp, hw, -⟩ := h
  simp only [runInstr, ht, hf, hp, hw, if_true]
  rfl

theorem runInstr_ctlRuns {onCell onCtl : Nat → _ → State → R State} (h : CtlRuns s u i) :
    runInstr i s onCell onCtl = ctlOutcome s u i (onCtl u (getCtl s u).pc (past s u i)) := runInstr_ctl h.1 h.2.1 h.2.2

theorem readWord_past (s : State) (u : Nat) (i : Instr) (a : Nat) : readWord (past s u i) a = readWord s a := readWord_of_mem rfl a

/-! ### BARINIT, BARARV and BARADD -/

/-- The count of an operation on a barrier: 1 for BARARV, else what the operand holds (R264). -/
def barCount (v : Option Nat) : R Nat := match v with
  | none => .ok 1
  | some n => if n = 0 ∨ 65535 < n then boundsR n else .ok n

/-- BARINIT, BARARV and BARADD with operation, and the count where it is not 1. -/
def BarRow (i : Instr) (op : Nat) (a b : Spec) (x n : Nat) : Prop :=
  (i = .barinit a b ∧ op = 0 ∧ n = x ∧ 1 ≤ n ∧ n ≤ 65535) ∨ (i = .bararv a ∧ op = 1 ∧ n = 1) ∨
    (i = .baradd a b ∧ op = 1 ∧ n = x ∧ 1 ≤ n ∧ n ≤ 65535)

theorem barCount_inRange {n : Nat} (h1 : 1 ≤ n) (h2 : n ≤ 65535) : barCount (some n) = .ok n := if_neg (by omega)

/-- A row is the operation with its operands. -/
theorem BarRow.exec_eq {op n x : Nat} {a b : Spec} (h : BarRow i op a b x n) :
    ∃ k : Option Spec, exec i s = barInstr i op a k s ∧ barCount (k.map fun _ => x) = .ok n ∧ (∀ r, r ∈ k → r = b ∧ i ≠ .bararv a) := by
  rcases h with ⟨rfl, rfl, rfl, h1, h2⟩ | ⟨rfl, rfl, rfl⟩ | ⟨rfl, rfl, rfl, h1, h2⟩
  · exact ⟨some b, rfl, barCount_inRange h1 h2, fun r hr => ⟨(Option.some.inj hr).symm, nofun⟩⟩
  · exact ⟨none, rfl, rfl, nofun⟩
  · exact ⟨some b, rfl, barCount_inRange h1 h2, fun r hr => ⟨(Option.some.inj hr).symm, nofun⟩⟩

/-- On a unit the object changes at once. -/
theorem exec_bar_ctl {op n pa : Nat} {a b : Spec} (h : CtlRuns s u i) (hi : BarRow i op a b (readG s u b) n)
    (ha : ctlBar (past s u i) u (getCtl s u).pc .barWrite (readG s u a) = .ok pa) (hroom : barRoom s op pa n = true) (hp : s.poison = []) :
    exec i s = .next (barWrite (past s u i) op pa n (ctlSrc (past s u i) u (getCtl s u).pc).insn.toNat).1 := by
  obtain ⟨k, hexec, hcount, hk⟩ := hi.exec_eq (s := s)
  have hcount' : barCount (k.map (readG (past s u i) u ·)) = .ok n := by
    cases k with
    | none => exact hcount
    | some r =>
      obtain ⟨rfl, -⟩ := hk r rfl
      rw [← hcount]
      exact congrArg (fun x => barCount (some x)) (readG_past ..)
  have hroom' : barRoom (past s u i) op pa n = true := by
    unfold barRoom
    rw [readWord_past]
    exact hroom
  have hdrop := congrArg Prod.snd (barWrite_undropped (s := past s u i) hp op pa n (ctlSrc (past s u i) u (getCtl s u).pc).insn.toNat [])
  rw [hexec]
  unfold barInstr
  dsimp only
  refine (runInstr_ctlRuns h).trans (congrArg (ctlOutcome s u i) (a₂ := .ok _) ?_)
  rw [readG_past]
  refine (bind_of_ok ha).trans ((bind_of_ok hcount').trans ((if_pos hroom').trans ?_))
  exact congrArg Except.ok (if_pos hdrop)

/-- On a cell the operation is an entry of the buffer. -/
theorem exec_bar_cell {op n v w pa : Nat} {a b : Spec} (h : CellRuns s c f i) (hi : BarRow i op a b (w % 2 ^ 64) n) (hl : f.out.length < 16)
    (ha : readSpec s c f a = .ok v) (hb : i ≠ .bararv a → readSpec s c f b = .ok w) (hbar : cellBar s c f .barWrite v = .ok pa) :
    ∃ t, exec i s = .next t ∧ FiringOn s t c i (adds f (.cmd (.bar op pa n (v % 2 ^ 64)) none)) := by
  obtain ⟨k, hexec, hcount, hk⟩ := hi.exec_eq (s := s)
  have hread : (match k with | some b => (readSpec s c f b).map fun x => some (x % 2 ^ 64) | none => (.ok none : R (Option Nat))) =
      .ok (k.map fun _ => w % 2 ^ 64) := by
    cases k with
    | none => rfl
    | some r =>
      obtain ⟨rfl, hne⟩ := hk r rfl
      dsimp only
      rw [hb hne]
      rfl
  rw [hexec]
  unfold barInstr
  dsimp only
  refine ⟨_, (runInstr_cellRuns h).trans (congrArg (cellOutcome s c f i) (a₂ := .ok (putFiring s c _)) ?_), firingOn_put s c i _⟩
  refine (withRegs_runs h).trans ((bind_of_ok ha).trans ((bind_of_ok hread).trans ((bind_of_ok hbar).trans ((bind_of_ok hcount).trans ?_))))
  exact bind_of_ok (addEntry_adds _ hl)

/-! ### BARTEST -/

/-- What a read of the object finds (R3, R203). -/
theorem barRead_clean {va pa : Nat} (h : poisonedRange s pa 16 = false) :
    barRead s va pa = .ok (readWord s pa % 2 ^ 40, readWord s (pa + 8) % 2 ^ 36) := if_neg (Bool.eq_false_iff.mp h)

theorem barRead_past {va pa : Nat} (u : Nat) (i : Instr) (h : poisonedRange s pa 16 = false) :
    barRead (past s u i) va pa = .ok (readWord s pa % 2 ^ 40, readWord s (pa + 8) % 2 ^ 36) := by
  rw [barRead_clean (s := past s u i) h, readWord_past, readWord_past]

theorem exec_bartest_ctl {d a : Spec} {pa : Nat} (h : CtlRuns s u (.bartest d a))
    (ha : ctlBar (past s u (.bartest d a)) u (getCtl s u).pc .barRead (readG s u a) = .ok pa) (hp : poisonedRange s pa 16 = false) :
    ∃ t, exec (.bartest d a) s = .next t ∧ OnlyCtl s t u ((behind s u (.bartest d a)).setG d.toNat (BitVec.ofNat 64 (readWord s pa % 2 ^ 40))) := by
  change ∃ t, execBartest d a s = .next t ∧ _
  refine ⟨_, (runInstr_ctlRuns h).trans (congrArg (ctlOutcome s u _) (a₂ := .ok _) ?_), onlyCtl_set s u _⟩
  have hread := barRead_past (va := readG s u a) u (.bartest d a) hp
  generalize readWord s pa % 2 ^ 40 = w0 at hread ⊢
  rw [readG_past, ← writeG_past]
  exact (bind_of_ok ha).trans (bind_of_ok hread)

/-- A cell that has read a barrier has seen every write, and nothing else is different. -/
theorem seesAll_put {p : State} (hp : p.views = s.views) (g : Firing) (n : Nat) : SeesAll s (advance (putFiring (seeAll p c) c g) c n) c := by
  refine ⟨getViews_seeAll p c, fun e he => (getViews_seeAll_ne p he).trans ?_⟩
  rw [getViews, hp]
  rfl

theorem exec_bartest_cell {d a : Spec} {v pa : Nat} (h : CellRuns s c f (.bartest d a)) (ha : readSpec s c f a = .ok v)
    (hbar : cellBar s c f .barRead v = .ok pa) (hp : poisonedRange s pa 16 = false)
    (hd : writeSpec s c f d (readWord s pa % 2 ^ 40 + readWord s (pa + 8) % 2 ^ 36 * 2 ^ 64) = .ok g) :
    ∃ t, exec (.bartest d a) s = .next t ∧ FiringOn { s with views := t.views } t c (.bartest d a) (sawBarrier s g pa) ∧ SeesAll s t c := by
  change ∃ t, execBartest d a s = .next t ∧ _
  refine ⟨_, (runInstr_cellRuns h).trans (congrArg (cellOutcome s c f _) (a₂ := .ok (putFiring (seeAll s c) c (sawBarrier s g pa))) ?_), ?_,
    seesAll_put rfl _ _⟩
  · refine (withRegs_runs h).trans ((bind_of_ok ha).trans ((bind_of_ok hbar).trans ((bind_of_ok (barRead_clean hp)).trans ?_)))
    exact bind_of_ok hd
  · change FiringOn { s with views := (seeAll s c).views } _ c _ _
    rw [← seeAll_frame]
    exact firingOn_put ..

/-! ### BARWAIT (R265, R266; log entry 67) -/

theorem findWait_of {t : State} (h : t.barWaits = s.barWaits) (who uid : Nat) : findWait t who uid = findWait s who uid := by rw [findWait, h]; rfl

theorem findWait_dropWait (s : State) (who uid : Nat) : findWait (dropWait s who uid) who uid = none := by
  unfold dropWait
  split
  case isTrue h => exact Option.isNone_iff_eq_none.mp h
  case isFalse =>
    refine List.find?_eq_none.mpr fun w hw => ?_
    obtain ⟨-, hne⟩ := List.mem_filter.mp hw
    simpa [imp_iff_not_or] using hne

theorem dropWait_none {who uid : Nat} (h : findWait s who uid = none) : dropWait s who uid = s := by
  unfold dropWait
  rw [h]
  rfl

/-- The phase that a BARWAIT returns: another than the expected one, or that with which the owner has released it. -/
def Passes (s : State) (who uid pa e p r : Nat) : Prop :=
  (findWait s who uid = none ∧ p ≠ e ∧ r = p) ∨ ∃ w, findWait s who uid = some w ∧ w.pa = pa ∧ w.got = some r

theorem barPass_passes {who uid pa e p r : Nat} (he : e ≤ 255) (h : Passes s who uid pa e p r) :
    barPass s who uid pa e p = .ok (r, dropWait s who uid) := by
  refine (if_neg (Nat.not_lt.mpr he)).trans ?_
  rcases h with ⟨hf, hne, rfl⟩ | ⟨w, hf, hpa, hg⟩
  · rw [hf, dropWait_none hf]
    exact if_neg hne
  · rw [hf]
    dsimp only
    rw [if_neg (not_not_intro hpa), hg]

theorem barPass_enters {who uid pa e p : Nat} (he : e ≤ 255) (hf : findWait s who uid = none) (hp : p = e) :
    barPass s who uid pa e p = .error (.redo { s with barWaits := s.barWaits ++ [{ pa := pa, who := who, uid := uid, expected := e }] }) := by
  refine (if_neg (Nat.not_lt.mpr he)).trans ?_
  rw [hf]
  exact if_pos hp

theorem barPass_waits {who uid pa e p : Nat} {w : BarWait} (he : e ≤ 255) (hf : findWait s who uid = some w) (hpa : w.pa = pa) (hg : w.got = none) :
    barPass s who uid pa e p = .error .stall := by
  refine (if_neg (Nat.not_lt.mpr he)).trans ?_
  rw [hf]
  dsimp only
  rw [if_neg (not_not_intro hpa), hg]

/-- The body of a BARWAIT of a unit. -/
theorem exec_barwait_ctl {d a b : Spec} {pa : Nat} (h : CtlRuns s u (.barwait d a b))
    (ha : ctlBar (past s u (.barwait d a b)) u (getCtl s u).pc .barRead (readG s u a) = .ok pa) (hp : poisonedRange s pa 16 = false) :
    exec (.barwait d a b) s = ctlOutcome s u (.barwait d a b)
      (barPass (past s u (.barwait d a b)) u 0 pa (readG s u b) (barPhase (readWord s pa)) >>= fun r => .ok (writeG r.2 u d r.1)) := by
  change execBarwait d a b s = _
  refine (runInstr_ctlRuns h).trans (congrArg (ctlOutcome s u _) ?_)
  have hread := barRead_past (va := readG s u a) u (.barwait d a b) hp
  have hphase := barPhase_mod (readWord s pa)
  generalize readWord s pa % 2 ^ 40 = w0 at hread hphase
  rw [readG_past, readG_past, ← hphase]
  refine (bind_of_ok ha).trans ((bind_of_ok hread).trans ?_)
  dsimp only

theorem exec_barwait_ctl_passes {d a b : Spec} {pa r : Nat} (h : CtlRuns s u (.barwait d a b))
    (ha : ctlBar (past s u (.barwait d a b)) u (getCtl s u).pc .barRead (readG s u a) = .ok pa) (hp : poisonedRange s pa 16 = false)
    (he : readG s u b ≤ 255) (hr : Passes s u 0 pa (readG s u b) (barPhase (readWord s pa)) r) :
    ∃ t, exec (.barwait d a b) s = .next t ∧ OnlyCtlWait s t u ((behind s u (.barwait d a b)).setG d.toNat (BitVec.ofNat 64 r)) := by
  have hexec := exec_barwait_ctl h ha hp
  rw [barPass_passes (s := past s u (.barwait d a b)) he hr] at hexec
  have hctl : ∀ v, getCtl (dropWait (past s u (.barwait d a b)) u 0) v = getCtl (past s u (.barwait d a b)) v := fun v => by
    rw [dropWait_frame]
    rfl
  refine ⟨_, hexec, ?_, getCtl_writeG d r ((hctl u).trans (getCtl_past_self ..)), fun v hv => ?_, fun y => ?_, findWait_dropWait ..⟩
  · rw [dropWait_frame]
    rfl
  · rw [getCtl_writeG_ne _ _ _ hv, hctl, getCtl_past, if_neg hv]
  · rw [dropWait_frame]
    rfl

theorem exec_barwait_ctl_enters {d a b : Spec} {pa : Nat} (h : CtlRuns s u (.barwait d a b))
    (ha : ctlBar (past s u (.barwait d a b)) u (getCtl s u).pc .barRead (readG s u a) = .ok pa) (hp : poisonedRange s pa 16 = false)
    (he : readG s u b ≤ 255) (hf : findWait s u 0 = none) (hphase : barPhase (readWord s pa) = readG s u b) :
    ∃ t, exec (.barwait d a b) s = .next t ∧
      t = { s with ctls := t.ctls, barWaits := s.barWaits ++ [{ pa := pa, who := u, uid := 0, expected := readG s u b }] } ∧
      ∀ v, getCtl t v = getCtl s v := by
  have hexec := exec_barwait_ctl h ha hp
  rw [barPass_enters (s := past s u (.barwait d a b)) he hf hphase] at hexec
  refine ⟨retryInstr s u (.barwait d a b) _, hexec, ?_, fun v => ?_⟩
  · rw [retryInstr_eq]
    rfl
  · have hmidway : ((getCtl s u).midway || !boundaryStall (.barwait d a b)) = (getCtl s u).midway := Bool.or_false _
    rw [retryInstr_eq, hmidway, getCtl_setCtl]
    split
    case isTrue hv =>
      rw [hv]
      exact congrArg (fun x : Ctl => { x with pc := (getCtl s u).pc, midway := (getCtl s u).midway }) (getCtl_past_self s u (.barwait d a b))
    case isFalse hv => exact (getCtl_past ..).trans (if_neg hv)

theorem exec_barwait_ctl_waits {d a b : Spec} {pa : Nat} {w : BarWait} (h : CtlRuns s u (.barwait d a b))
    (ha : ctlBar (past s u (.barwait d a b)) u (getCtl s u).pc .barRead (readG s u a) = .ok pa) (hp : poisonedRange s pa 16 = false)
    (he : readG s u b ≤ 255) (hf : findWait s u 0 = some w) (hpa : w.pa = pa) (hg : w.got = none) : exec (.barwait d a b) s = .next s := by
  rw [exec_barwait_ctl h ha hp, barPass_waits (s := past s u (.barwait d a b)) he hf hpa hg]
  rfl

/-- The body of a BARWAIT of a cell. -/
theorem exec_barwait_cell {d a b : Spec} {v w pa : Nat} (h : CellRuns s c f (.barwait d a b)) (ha : readSpec s c f a = .ok v)
    (hb : readSpec s c f b = .ok w) (hbar : cellBar s c f .barRead v = .ok pa) (hp : poisonedRange s pa 16 = false) :
    exec (.barwait d a b) s = cellOutcome s c f (.barwait d a b)
      (barPass s c f.uid pa (w % 2 ^ 64) (barPhase (readWord s pa)) >>= fun r => writeSpec s c f d r.1 >>= fun g =>
        .ok (putFiring (seeAll r.2 c) c (sawBarrier s g pa))) := by
  change execBarwait d a b s = _
  refine (runInstr_cellRuns h).trans (congrArg (cellOutcome s c f _) ?_)
  have hread := barRead_clean (va := v % 2 ^ 64) hp
  have hphase := barPhase_mod (readWord s pa)
  generalize readWord s pa % 2 ^ 40 = w0 at hread hphase
  rw [← hphase]
  refine (withRegs_runs h).trans ((bind_of_ok ha).trans ((bind_of_ok hb).trans ((bind_of_ok hbar).trans ((bind_of_ok hread).trans ?_))))
  dsimp only

theorem exec_barwait_cell_passes {d a b : Spec} {v w pa r : Nat} (h : CellRuns s c f (.barwait d a b)) (ha : readSpec s c f a = .ok v)
    (hb : readSpec s c f b = .ok w) (hbar : cellBar s c f .barRead v = .ok pa) (hp : poisonedRange s pa 16 = false) (he : w % 2 ^ 64 ≤ 255)
    (hr : Passes s c f.uid pa (w % 2 ^ 64) (barPhase (readWord s pa)) r) (hd : writeSpec s c f d r = .ok g) :
    ∃ t, exec (.barwait d a b) s = .next t ∧ FiringOn { s with barWaits := t.barWaits, views := t.views } t c (.barwait d a b) (sawBarrier s g pa) ∧
      SeesAll s t c ∧ findWait t c f.uid = none := by
  have hexec := exec_barwait_cell h ha hb hbar hp
  rw [barPass_passes he hr, bind_of_ok rfl, bind_of_ok hd] at hexec
  have hdrop := dropWait_frame s c f.uid
  have hsaw : seeAll (dropWait s c f.uid) c = { s with barWaits := (seeAll (dropWait s c f.uid) c).barWaits, views := (seeAll (dropWait s c f.uid) c).views } := by
    rw [seeAll_frame, hdrop]
  refine ⟨_, hexec, ?_, seesAll_put (by rw [hdrop]) _ _, ?_⟩
  · change FiringOn { s with barWaits := (seeAll (dropWait s c f.uid) c).barWaits, views := (seeAll (dropWait s c f.uid) c).views } _ c _ _
    rw [← hsaw]
    exact firingOn_put ..
  · refine (findWait_of (s := dropWait s c f.uid) ?_ c f.uid).trans (findWait_dropWait ..)
    change (seeAll (dropWait s c f.uid) c).barWaits = _
    rw [seeAll_frame]

theorem exec_barwait_cell_enters {d a b : Spec} {v w pa : Nat} (h : CellRuns s c f (.barwait d a b)) (ha : readSpec s c f a = .ok v)
    (hb : readSpec s c f b = .ok w) (hbar : cellBar s c f .barRead v = .ok pa) (hp : poisonedRange s pa 16 = false) (he : w % 2 ^ 64 ≤ 255)
    (hf : findWait s c f.uid = none) (hphase : barPhase (readWord s pa) = w % 2 ^ 64) :
    exec (.barwait d a b) s =
      .next { s with barWaits := s.barWaits ++ [{ pa := pa, who := c, uid := f.uid, expected := w % 2 ^ 64 }] } := by
  rw [exec_barwait_cell h ha hb hbar hp, barPass_enters he hf hphase]
  rfl

/-! ### The obligation -/

/-- What an operation at a clean owner leaves. -/
theorem barWrite_leaves (h : Calm s) (op pa n insn : Nat) (before : List Nat) :
    let t := (barWrite s op pa n insn before).1
    let k := barRounds op n (readWord s pa) (readWord s (pa + 8))
    t = { s with mem := t.mem, barWaits := t.barWaits, barPast := t.barPast, barNow := t.barNow, views := t.views } ∧
      (∀ q, q ≠ pa → tget [] t.barPast q = tget [] s.barPast q ∧ tget [] t.barNow q = tget [] s.barNow q) ∧
      (readWord t pa, readWord t (pa + 8)) = barNext op n (readWord s pa) (readWord s (pa + 8)) ∧
      (∀ y, ¬ (pa ≤ y ∧ y < pa + 16) → memByte t y = memByte s y) ∧ (op = 0 → t.barWaits = releasedAt s.barWaits pa 0) ∧
      (op ≠ 0 → k = 0 → t.barWaits = s.barWaits) ∧ (op ≠ 0 → k = 1 → t.barWaits = releasedAt s.barWaits pa ((barPhase (readWord s pa) + 1) % 256)) ∧
      (2 ≤ k → ∀ w, w ∈ t.barWaits → w.pa = pa → w.got ≠ none) := by
  intro t k
  obtain ⟨hframe, hwords, hbytes⟩ := barWrite_mem h op pa n insn before
  obtain ⟨hinit, hnone, hone, hmore⟩ := barWaits_barWrite h op pa n insn before
  refine ⟨hframe, fun q hq => tget_barWrite h op pa n insn before hq, hwords, hbytes, hinit, hnone, hone, fun hk w hw hpa => ?_⟩
  have hop : op ≠ 0 := fun h0 => by
    have hk0 : k = 0 := if_pos (.inl h0)
    omega
  rw [hmore hop hk] at hw
  exact released_twice (by omega) hw hpa

/-- Settles O40: the rows by `exec_bar_ctl`, `exec_bar_cell` and what BARTEST and BARWAIT answer, the owner's operation by `barWrite_leaves`, and
the completion rule by `barNext_init` and `barNext_arrive`. -/
theorem barrierInstructions : Obligations.BarrierInstructions := by
  refine ⟨fun i op n d a b s => ⟨fun u pa h hi ha hroom hp => exec_bar_ctl h hi ha hroom hp,
      fun c f v w pa h hl ha hb hi hbar => exec_bar_cell h hi hl ha hb hbar, fun u pa => exec_bartest_ctl, fun u pa h ha hp he => ?_,
      fun c f g v pa => exec_bartest_cell, fun c f v w pa h ha hb hbar hp he => ?_⟩,
    fun s op pa n insn before hd hp => barWrite_leaves ⟨hp, hd⟩ op pa n insn before, fun w0 w1 n hn => ?_⟩
  · exact ⟨fun r hr => exec_barwait_ctl_passes h ha hp he hr, fun hf hphase => exec_barwait_ctl_enters h ha hp he hf hphase,
      fun w hf hpa hg => exec_barwait_ctl_waits h ha hp he hf hpa hg⟩
  · exact ⟨fun r g hr hd => exec_barwait_cell_passes h ha hb hbar hp he hr hd, fun hf hphase => exec_barwait_cell_enters h ha hb hbar hp he hf hphase⟩
  · obtain ⟨ht, hp, ha, hz⟩ := barNext_init hn w0 w1
    exact ⟨ht, hp, ha, hz, fun h => barNext_arrive h w1⟩

end Sys2Proof.Machine
end

section
/-! Rounding (R293 to R302): what the model's Round takes is what R294 and R296 say of the exact value. -/

namespace Sys2Proof.Machine
open Sys2Proof.Claims

/-! ### A magnitude between two points of a grid -/

theorem compare_mul_right {k : Nat} (hk : 0 < k) (x y : Nat) : compare (x * k) (y * k) = compare x y := by
  simp only [Nat.compare_eq_ite_lt, Nat.mul_lt_mul_right hk]

/-- What rounding looks at of a magnitude `A` between the multiples of a unit `U`: the multiple below, whether there is a rest, how it compares
with a half, and its first 16 bits. -/
def cutAt (A U : Nat) : Nat × Bool × Ordering × Nat := (A / U, A % U != 0, compare (2 * (A % U)) U, A % U * 65536 / U)

/-- The rest of an exact multiple does not matter. -/
def SameCut (x y : Nat × Bool × Ordering × Nat) : Prop := x.1 = y.1 ∧ x.2.1 = y.2.1 ∧ (y.2.1 = true → x.2.2 = y.2.2)

/-- What is left of a number of fewer bits than are cut off. -/
theorem cut_below {m n : Nat} (h : Nat.log2 m + 1 < n) : m % 2 ^ n = m ∧ m / 2 ^ n = 0 ∧ compare (2 * m) (2 ^ n) = .lt := by
  have hlog := Nat.lt_log2_self (n := m)
  have hpow : 2 ^ (Nat.log2 m + 1 + 1) ≤ 2 ^ n := Nat.pow_le_pow_right (by decide) h
  rw [Nat.pow_succ] at hpow
  exact ⟨Nat.mod_eq_of_lt (by omega), Nat.div_eq_of_lt (by omega), Nat.compare_eq_lt.mpr (by omega)⟩

/-- `splitAt` below the unit: the number cut at the bits between. -/
theorem splitAt_below {e q : Int} (m : Nat) (h : ¬ q ≤ e) : SameCut (splitAt m e q) (cutAt m (2 ^ (q - e).toNat)) := by
  unfold splitAt cutAt SameCut
  rw [if_neg h]
  dsimp only
  by_cases h0 : m = 0
  · subst h0
    simp
  rw [if_neg h0]
  split
  case isTrue hs =>
    obtain ⟨hmod, hdiv, hcmp⟩ := cut_below hs
    rw [hmod, hdiv, hcmp, Nat.shiftLeft_eq, Nat.shiftRight_eq_div_pow]
    exact ⟨rfl, (bne_iff_ne.mpr h0).symm, fun _ => rfl⟩
  case isFalse =>
    rw [Nat.shiftRight_eq_div_pow, Nat.shiftRight_eq_div_pow, Nat.shiftLeft_eq]
    exact ⟨rfl, rfl, fun _ => rfl⟩

/-- A cut does not depend on the unit in which magnitude and unit are given. -/
theorem cutAt_mul_right {k : Nat} (hk : 0 < k) (A U : Nat) : cutAt (A * k) (U * k) = cutAt A U := by
  have hrest : (A % U * k != 0) = (A % U != 0) := by
    rw [Bool.eq_iff_iff, bne_iff_ne, bne_iff_ne]
    simp [hk.ne']
  unfold cutAt
  rw [Nat.mul_div_mul_right _ _ hk, Nat.mul_mod_mul_right, hrest, ← Nat.mul_assoc, compare_mul_right hk, Nat.mul_right_comm, Nat.mul_div_mul_right _ _ hk]

/-- `splitAt` in units of `2^b`, for a `b` that is above neither exponent. -/
theorem splitAt_cut {e q b : Int} (m : Nat) (hbe : b ≤ e) (hbq : b ≤ q) :
    SameCut (splitAt m e q) (cutAt (m * 2 ^ (e - b).toNat) (2 ^ (q - b).toNat)) := by
  by_cases hqe : q ≤ e
  · have hexp : (e - b).toNat = (e - q).toNat + (q - b).toNat := by omega
    unfold splitAt cutAt SameCut
    rw [if_pos hqe, hexp, Nat.pow_add, ← Nat.mul_assoc, Nat.mul_div_cancel _ (Nat.two_pow_pos _), Nat.mul_mod_left, Nat.shiftLeft_eq]
    exact ⟨rfl, rfl, nofun⟩
  · have hexp : (q - b).toNat = (q - e).toNat + (e - b).toNat := by omega
    rw [hexp, Nat.pow_add, cutAt_mul_right (Nat.two_pow_pos _)]
    exact splitAt_below m hqe

/-- The multiple of the unit that a mode takes for a magnitude (R294, R300). -/
def roundMultiple (mode : RMode) (neg : Bool) (A U : Nat) : Nat :=
  if roundsUp mode neg (A / U) (A % U != 0) (compare (2 * (A % U)) U) (A % U * 65536 / U) then A / U + 1 else A / U

theorem roundMultiple_cases (mode : RMode) (neg : Bool) (A U : Nat) :
    roundMultiple mode neg A U = A / U ∨ roundMultiple mode neg A U = A / U + 1 := by
  unfold roundMultiple
  split
  · exact .inr rfl
  · exact .inl rfl

/-- The model's step 1 is the multiple that the mode takes. -/
theorem roundsUp_splitAt {e q b : Int} (mode : RMode) (neg : Bool) (m : Nat) (hbe : b ≤ e) (hbq : b ≤ q) :
    (if roundsUp mode neg (splitAt m e q).1 (splitAt m e q).2.1 (splitAt m e q).2.2.1 (splitAt m e q).2.2.2 then (splitAt m e q).1 + 1
      else (splitAt m e q).1) = roundMultiple mode neg (m * 2 ^ (e - b).toNat) (2 ^ (q - b).toNat) := by
  obtain ⟨h1, h2, h3⟩ := splitAt_cut m hbe hbq
  unfold roundMultiple
  generalize splitAt m e q = x at *
  obtain ⟨t, rest, half, f⟩ := x
  dsimp only [cutAt] at *
  subst h1 h2
  cases hr : (m * 2 ^ (e - b).toNat % 2 ^ (q - b).toNat != 0) with
  | false => simp [roundsUp]
  | true =>
    obtain ⟨rfl, rfl⟩ := Prod.mk.inj (h3 hr)
    rfl

/-- The multiple that a mode takes is what R294 takes, where the multiples around the magnitude are the points of the grid around it. -/
theorem takes_roundMultiple {grid : Bool → Nat → Prop} {mode : RMode} {neg : Bool} {A U : Nat} (hU : 0 < U) (hlo : grid false (A / U * U))
    (hhi : grid false ((A / U + 1) * U)) (hbetween : ∀ h, grid false h → h ≤ A / U * U ∨ (A / U + 1) * U ≤ h)
    (heven : ∀ k, k = A / U ∨ k = A / U + 1 → k % 2 = 0 → grid true (k * U)) :
    Takes grid mode neg A (roundMultiple mode neg A U * U) := by
  have hA : A / U * U + A % U = A := by rw [Nat.mul_comm]; exact Nat.div_add_mod A U
  have hr := Nat.mod_lt A hU
  have hsucc : (A / U + 1) * U = A / U * U + U := Nat.succ_mul ..
  refine ⟨A / U * U, (A / U + 1) * U, hlo, hhi, by omega, by omega, hbetween, fun h => ?_, fun h => ?_⟩
  · have h0 : A % U = 0 := by omega
    simp [roundMultiple, roundsUp, h0]
  · have h0 : (A % U != 0) = true := bne_iff_ne.mpr (by omega)
    have hlt : compare (2 * (A % U)) U = .lt ↔ 2 * A < A / U * U + (A / U + 1) * U := by rw [Nat.compare_eq_lt]; omega
    have hgt : compare (2 * (A % U)) U = .gt ↔ A / U * U + (A / U + 1) * U < 2 * A := by rw [Nat.compare_eq_gt]; omega
    have heq : compare (2 * (A % U)) U = .eq ↔ 2 * A = A / U * U + (A / U + 1) * U := by rw [Nat.compare_eq_eq]; omega
    have hunit : (A / U + 1) * U - A / U * U = U := by omega
    have hpart : A - A / U * U = A % U := by omega
    unfold roundMultiple roundsUp
    rw [h0, Bool.true_and]
    cases mode with
    | rne =>
      refine ⟨fun h => ?_, fun h => ?_, fun h => ?_⟩
      · rw [hlt.mpr h]
        simp
      · rw [hgt.mpr h]
        simp
      · rw [heq.mpr h]
        rcases Nat.mod_two_eq_zero_or_one (A / U) with hp | hp
        · simp only [hp]
          exact ⟨.inl rfl, heven (A / U) (.inl rfl) hp⟩
        · simp only [hp]
          exact ⟨.inr rfl, heven (A / U + 1) (.inr rfl) (by omega)⟩
    | rna =>
      dsimp only
      by_cases hl : 2 * A < A / U * U + (A / U + 1) * U
      · rw [if_pos hl, hlt.mpr hl]
        rfl
      · rw [if_neg hl]
        have hne : (compare (2 * (A % U)) U != .lt) = true := bne_iff_ne.mpr fun h => hl (hlt.mp h)
        rw [hne]
        rfl
    | rtz => rfl
    | rdn => cases neg <;> rfl
    | rup => cases neg <;> rfl
    | sr r =>
      dsimp only
      rw [hunit, hpart]
      by_cases hs : 65536 ≤ A % U * 65536 / U + r
      · simp [hs]
      · simp [hs]

/-! ### Round into a floating-point format (R294, R296) -/

/-- What the formats of R290 have in common: at least two exponents beside the greatest, and of those without infinities only E4M3 a NaN. -/
def FFmt.Sound (f : FFmt) : Prop := 2 ≤ f.e ∧ (f.ieee = false → f.m = 3 → f.e = 4)

variable {f : FFmt}

theorem FFmt.maxMant_bounds (f : FFmt) : 2 ^ f.m ≤ f.maxMant ∧ f.maxMant < 2 ^ (f.m + 1) := by
  have hp := Nat.two_pow_pos f.m
  have hs : 2 ^ (f.m + 1) = 2 * 2 ^ f.m := Nat.pow_succ'
  unfold FFmt.maxMant
  split
  · omega
  · split
    case isTrue h3 => rw [h3]; decide
    case isFalse => omega

/-- The steps from the least unit to that of the greatest finite value. -/
theorem FFmt.qmax_sub_qmin (hf : f.Sound) : f.qmin ≤ f.qmax ∧ (f.qmax - f.qmin).toNat + (if f.ieee then 3 else 2) = 2 ^ f.e := by
  have h4 : 2 ^ 2 ≤ 2 ^ f.e := Nat.pow_le_pow_right (by decide) hf.1
  unfold FFmt.qmax
  split <;> omega

/-- A point of the grid that Round takes, as its integer and its exponent. -/
structure Normal (f : FFmt) (q : Int) (r : Nat) : Prop where
  unit : f.qmin ≤ q
  mant : r < 2 ^ (f.m + 1)
  full : f.qmin < q → 2 ^ f.m ≤ r

/-- The exponent of the grid's unit at a value (R294). -/
def FFmt.unitAt (f : FFmt) (m : Nat) (e : Int) : Int := max ((Nat.log2 m : Int) + e - f.m) f.qmin

theorem FFmt.qmin_le_unitAt (f : FFmt) (m : Nat) (e : Int) : f.qmin ≤ f.unitAt m e := Int.le_max_right ..

/-- The leading bit of a value is no more than `m` places above the grid's unit, and no fewer above any but the least. -/
theorem FFmt.quotient_bounds (f : FFmt) {m : Nat} {e b : Int} (hm : m ≠ 0) (hbe : b ≤ e) (hbm : b ≤ f.qmin) :
    let t := m * 2 ^ (e - b).toNat / 2 ^ (f.unitAt m e - b).toNat
    t < 2 ^ (f.m + 1) ∧ (f.qmin < f.unitAt m e → 2 ^ f.m ≤ t) := by
  intro t
  have hlow : 2 ^ (Nat.log2 m + (e - b).toNat) ≤ m * 2 ^ (e - b).toNat := by
    rw [Nat.pow_add]
    exact Nat.mul_le_mul_right _ (Nat.log2_self_le hm)
  have hhigh : m * 2 ^ (e - b).toNat < 2 ^ (Nat.log2 m + 1 + (e - b).toNat) := by
    rw [Nat.pow_add _ (Nat.log2 m + 1)]
    exact Nat.mul_lt_mul_of_pos_right Nat.lt_log2_self (Nat.two_pow_pos _)
  have hq : f.unitAt m e = max ((Nat.log2 m : Int) + e - f.m) f.qmin := rfl
  refine ⟨?_, fun h => ?_⟩
  · rw [Nat.div_lt_iff_lt_mul (Nat.two_pow_pos _), ← Nat.pow_add]
    exact hhigh.trans_le (Nat.pow_le_pow_right (by decide) (by omega))
  · rw [Nat.le_div_iff_mul_le (Nat.two_pow_pos _), ← Nat.pow_add]
    exact (Nat.pow_le_pow_right (by decide) (by omega)).trans hlow

/-- No point of the grid lies between two multiples of the unit in a row. -/
theorem onGrid_between {b q : Int} {t h : Nat} (hbm : b ≤ f.qmin) (hq : f.qmin ≤ q) (hfull : f.qmin < q → 2 ^ f.m ≤ t) (hh : OnGrid f b false h) :
    h ≤ t * 2 ^ (q - b).toNat ∨ (t + 1) * 2 ^ (q - b).toNat ≤ h := by
  obtain ⟨k, p, hpm, hk, -, rfl⟩ := hh
  rcases Int.lt_or_le p q with hlt | hle
  · left
    calc k * 2 ^ (p - b).toNat ≤ 2 ^ (f.m + 1) * 2 ^ (p - b).toNat := Nat.mul_le_mul_right _ hk
      _ = 2 ^ f.m * 2 ^ ((p - b).toNat + 1) := by rw [← Nat.pow_add, ← Nat.pow_add]; congr 1; omega
      _ ≤ 2 ^ f.m * 2 ^ (q - b).toNat := Nat.mul_le_mul_left _ (Nat.pow_le_pow_right (by decide) (by omega))
      _ ≤ t * 2 ^ (q - b).toNat := Nat.mul_le_mul_right _ (hfull (by omega))
  · have hstep : (p - b).toNat = (p - q).toNat + (q - b).toNat := by omega
    rw [hstep, Nat.pow_add, ← Nat.mul_assoc]
    rcases Nat.lt_or_ge t (k * 2 ^ (p - q).toNat) with hlt | hge
    · exact .inr (Nat.mul_le_mul_right _ hlt)
    · exact .inl (Nat.mul_le_mul_right _ hge)

/-- The multiple of the grid's unit that a mode takes for a value is what R294 takes on the grid. -/
theorem takes_onGrid (f : FFmt) (mode : RMode) (neg : Bool) {m : Nat} {e b : Int} (hm : m ≠ 0) (hbe : b ≤ e) (hbm : b ≤ f.qmin) :
    let A := m * 2 ^ (e - b).toNat
    let U := 2 ^ (f.unitAt m e - b).toNat
    Takes (OnGrid f b) mode neg A (roundMultiple mode neg A U * U) := by
  intro A U
  obtain ⟨htop, hfull⟩ := f.quotient_bounds hm hbe hbm
  have hqm := f.qmin_le_unitAt m e
  have hpoint : ∀ k, k = A / U ∨ k = A / U + 1 → ∀ even, (even = true → k % 2 = 0) → OnGrid f b even (k * U) := fun k hk even he => by
    have hle : A / U ≤ k ∧ k ≤ A / U + 1 := by omega
    refine ⟨k, f.unitAt m e, hqm, hle.2.trans htop, fun h => ⟨he h, ?_⟩, rfl⟩
    rcases hqm.eq_or_lt with h | h
    · exact .inl h.symm
    · exact .inr ((hfull h).trans hle.1)
  exact takes_roundMultiple (Nat.two_pow_pos _) (hpoint _ (.inl rfl) false nofun) (hpoint _ (.inr rfl) false nofun)
    (fun _ => onGrid_between hbm hqm hfull) fun k hk he => hpoint k hk true fun _ => he

/-- The point that the model's step 1 gives: the multiple that the mode takes, with a whole unit more as 1 of the next. -/
theorem roundGrid_eq (f : FFmt) (mode : RMode) (neg : Bool) (m : Nat) {e b : Int} (hbe : b ≤ e) (hbm : b ≤ f.qmin) :
    let r := roundMultiple mode neg (m * 2 ^ (e - b).toNat) (2 ^ (f.unitAt m e - b).toNat)
    let inexact := (splitAt m e (f.unitAt m e)).2.1
    roundGrid f mode neg m e = if r = 2 ^ (f.m + 1) then (f.unitAt m e + 1, 2 ^ f.m, inexact) else (f.unitAt m e, r, inexact) := by
  dsimp only
  rw [← roundsUp_splitAt mode neg m hbe (hbm.trans (f.qmin_le_unitAt m e))]
  rfl

/-- Step 1 of R294 is taken on the grid of the format. -/
theorem roundGrid_takes (f : FFmt) (mode : RMode) (neg : Bool) {m : Nat} (e : Int) (hm : m ≠ 0) :
    let x := roundGrid f mode neg m e
    let b := min e f.qmin
    Normal f x.1 x.2.1 ∧ Takes (OnGrid f b) mode neg (m * 2 ^ (e - b).toNat) (x.2.1 * 2 ^ (x.1 - b).toNat) := by
  intro x b
  have hbe : b ≤ e := Int.min_le_left ..
  have hbm : b ≤ f.qmin := Int.min_le_right ..
  have hqm := f.qmin_le_unitAt m e
  have htakes := takes_onGrid f mode neg hm hbe hbm
  obtain ⟨htop, hfull⟩ := f.quotient_bounds hm hbe hbm
  have hr := roundMultiple_cases mode neg (m * 2 ^ (e - b).toNat) (2 ^ (f.unitAt m e - b).toNat)
  have hx := roundGrid_eq f mode neg m hbe hbm
  dsimp only at htakes htop hfull hx
  rw [show x = _ from hx]
  generalize (splitAt m e (f.unitAt m e)).2.1 = inexact
  generalize roundMultiple mode neg (m * 2 ^ (e - b).toNat) (2 ^ (f.unitAt m e - b).toNat) = r at htakes hr ⊢
  generalize m * 2 ^ (e - b).toNat / 2 ^ (f.unitAt m e - b).toNat = t at htop hfull hr
  split
  case isTrue h =>
    have hexp : (f.unitAt m e + 1 - b).toNat = (f.unitAt m e - b).toNat + 1 := by omega
    refine ⟨⟨by dsimp only; omega, Nat.pow_lt_pow_right (by decide) (Nat.lt_succ_self _), fun _ => Nat.le_refl _⟩, ?_⟩
    dsimp only
    rw [hexp, ← Nat.pow_add, show f.m + ((f.unitAt m e - b).toNat + 1) = f.m + 1 + (f.unitAt m e - b).toNat by omega, Nat.pow_add, ← h]
    exact htakes
  case isFalse h =>
    refine ⟨⟨hqm, by dsimp only; omega, fun hlt => ?_⟩, htakes⟩
    have := hfull hlt
    dsimp only
    omega

/-- The code of a sign, an exponent field and a mantissa field. -/
def FFmt.pack (f : FFmt) (neg : Bool) (ex man : Nat) : Nat := f.signBit neg + (ex * 2 ^ f.m + man)

theorem FFmt.pack_eq (f : FFmt) (neg : Bool) (ex man : Nat) : f.pack neg ex man = man + 2 ^ f.m * (ex + 2 ^ f.e * neg.toNat) := by
  cases neg <;> simp [FFmt.pack, FFmt.signBit, Nat.pow_add] <;> ring

/-- The fields of a packed code are read back. -/
theorem FFmt.decode_pack {neg : Bool} {ex man : Nat} (hex : ex < 2 ^ f.e) (hman : man < 2 ^ f.m) (hinf : f.ieee = true → ex ≠ 2 ^ f.e - 1)
    (hnan : f.ieee = false → f.m = 3 → ¬ (ex = 15 ∧ man = 7)) :
    f.pack neg ex man < 2 ^ f.width ∧
      f.decode (f.pack neg ex man) = if ex = 0 then .fin neg man f.qmin else .fin neg (2 ^ f.m + man) (f.qmin + (ex : Int) - 1) := by
  have hm := Nat.two_pow_pos f.m
  have hmant : f.pack neg ex man % 2 ^ f.m = man := by rw [pack_eq, Nat.add_mul_mod_self_left, Nat.mod_eq_of_lt hman]
  have hdiv : f.pack neg ex man / 2 ^ f.m = ex + 2 ^ f.e * neg.toNat := by
    rw [pack_eq, Nat.add_mul_div_left _ _ hm, Nat.div_eq_of_lt hman, Nat.zero_add]
  have hexp : f.pack neg ex man / 2 ^ f.m % 2 ^ f.e = ex := by rw [hdiv, Nat.add_mul_mod_self_left, Nat.mod_eq_of_lt hex]
  have hsign : (f.pack neg ex man).testBit (f.e + f.m) = neg := by
    rw [Nat.testBit_eq_decide_div_mod_eq, Nat.add_comm, Nat.pow_add, ← Nat.div_div_eq_div_mul, hdiv, Nat.add_mul_div_left _ _ (Nat.two_pow_pos _),
      Nat.div_eq_of_lt hex]
    cases neg <;> rfl
  refine ⟨?_, ?_⟩
  · have hlow : ex * 2 ^ f.m + man < 2 ^ (f.e + f.m) := by
      have := Nat.mul_le_mul_right (2 ^ f.m) (Nat.succ_le_of_lt hex)
      rw [Nat.pow_add]
      rw [Nat.succ_mul] at this
      omega
    have hbit : f.signBit neg ≤ 2 ^ (f.e + f.m) := by
      cases neg
      · exact Nat.zero_le _
      · exact Nat.le_refl _
    rw [FFmt.width, Nat.add_assoc, Nat.add_comm 1, Nat.pow_succ]
    unfold FFmt.pack
    omega
  · unfold FFmt.decode
    simp only [hsign, hexp, hmant]
    rw [if_neg, if_neg]
    · simp only [Bool.and_eq_true, Bool.not_eq_true', beq_iff_eq, not_and]
      exact fun ⟨⟨hieee, hm3⟩, h15⟩ h7 => hnan hieee hm3 ⟨h15, h7⟩
    · simp only [Bool.and_eq_true, beq_iff_eq, not_and]
      exact hinf

/-- The code of a point that is not beyond the greatest finite value. -/
def FFmt.codeOf (f : FFmt) (neg : Bool) (q : Int) (r : Nat) : Nat :=
  f.signBit neg + (if r < 2 ^ f.m then r else ((q - f.qmin + 1).toNat) * 2 ^ f.m + (r - 2 ^ f.m))

/-- The code is that of the point's value. -/
theorem decode_codeOf (hf : f.Sound) {neg : Bool} {q : Int} {r : Nat} (hn : Normal f q r) (hq : q ≤ f.qmax) (hr : q = f.qmax → r ≤ f.maxMant) :
    f.codeOf neg q r < 2 ^ f.width ∧ f.decode (f.codeOf neg q r) = .fin neg r q := by
  obtain ⟨hunit, hmant, hfull⟩ := hn
  obtain ⟨hwide, hE4M3⟩ := hf
  obtain ⟨hrange, hsteps⟩ := f.qmax_sub_qmin ⟨hwide, hE4M3⟩
  rw [Nat.pow_succ] at hmant
  unfold FFmt.codeOf
  by_cases hsub : r < 2 ^ f.m
  · have hq0 : q = f.qmin := by
      by_contra hne
      have := hfull (by omega)
      omega
    have hcode : f.signBit neg + r = f.pack neg 0 r := by rw [FFmt.pack, Nat.zero_mul, Nat.zero_add]
    rw [if_pos hsub, hcode, hq0]
    have h4 : 2 ^ 2 ≤ 2 ^ f.e := Nat.pow_le_pow_right (by decide) hwide
    exact f.decode_pack (Nat.two_pow_pos _) hsub (fun _ => by omega) fun _ _ => by omega
  · have hex : (q - f.qmin + 1).toNat < 2 ^ f.e := by split at hsteps <;> omega
    have hdec := f.decode_pack (neg := neg) (man := r - 2 ^ f.m) hex (by omega) (fun h => by rw [if_pos h] at hsteps; omega) fun h h3 hbad => by
      have h16 : 2 ^ f.e = 16 := by rw [hE4M3 h h3]; rfl
      have hmax : f.maxMant = 14 := by rw [FFmt.maxMant, h, h3]; rfl
      rw [h] at hsteps
      have hle := hr (by simp only [Bool.false_eq_true, if_false] at hsteps; omega)
      rw [h3] at hbad
      omega
    rw [if_neg hsub]
    refine ⟨hdec.1, hdec.2.trans ?_⟩
    rw [if_neg (by omega), show 2 ^ f.m + (r - 2 ^ f.m) = r by omega, show f.qmin + (((q - f.qmin + 1).toNat : Nat) : Int) - 1 = q by omega]

/-- A point is beyond the greatest finite value when its exponent is, or its integer at the greatest exponent. -/
theorem beyond_iff (hf : f.Sound) {b q : Int} {r : Nat} (hn : Normal f q r) (hb : b ≤ f.qmin) :
    (f.qmax < q ∨ (q = f.qmax ∧ f.maxMant < r)) ↔ f.maxMant * 2 ^ (f.qmax - b).toNat < r * 2 ^ (q - b).toNat := by
  obtain ⟨hunit, hmant, hfull⟩ := hn
  obtain ⟨hrange, -⟩ := f.qmax_sub_qmin hf
  obtain ⟨hlow, hhigh⟩ := f.maxMant_bounds
  rcases Int.lt_trichotomy q f.qmax with h | h | h
  · refine iff_of_false (by omega) (Nat.not_lt.mpr ?_)
    calc r * 2 ^ (q - b).toNat ≤ 2 ^ (f.m + 1) * 2 ^ (q - b).toNat := Nat.mul_le_mul_right _ hmant.le
      _ = 2 ^ f.m * 2 ^ ((q - b).toNat + 1) := by rw [← Nat.pow_add, ← Nat.pow_add]; congr 1; omega
      _ ≤ 2 ^ f.m * 2 ^ (f.qmax - b).toNat := Nat.mul_le_mul_left _ (Nat.pow_le_pow_right (by decide) (by omega))
      _ ≤ f.maxMant * 2 ^ (f.qmax - b).toNat := Nat.mul_le_mul_right _ hlow
  · rw [h, Nat.mul_lt_mul_right (Nat.two_pow_pos _)]
    simp
  · refine iff_of_true (.inl h) ?_
    calc f.maxMant * 2 ^ (f.qmax - b).toNat < 2 ^ (f.m + 1) * 2 ^ (f.qmax - b).toNat := Nat.mul_lt_mul_of_pos_right hhigh (Nat.two_pow_pos _)
      _ = 2 ^ f.m * 2 ^ ((f.qmax - b).toNat + 1) := by rw [← Nat.pow_add, ← Nat.pow_add]; congr 1; omega
      _ ≤ 2 ^ f.m * 2 ^ (q - b).toNat := Nat.mul_le_mul_left _ (Nat.pow_le_pow_right (by decide) (by omega))
      _ ≤ r * 2 ^ (q - b).toNat := Nat.mul_le_mul_right _ (hfull (hrange.trans_lt h))

theorem overflowTo_code (f : FFmt) (mode : RMode) (neg : Bool) : (overflowTo f mode neg).code =
    if f.ieee = true ∧ (mode = .rne ∨ mode = .rna ∨ (mode = .rdn ∧ neg = true) ∨ (mode = .rup ∧ neg = false)) then f.infCode neg
    else f.signBit neg + f.maxCode := by
  unfold overflowTo
  cases f.ieee
  · simp
  · cases mode <;> cases neg <;> simp

theorem roundF_eq (f : FFmt) (mode : RMode) (neg : Bool) {m : Nat} (e : Int) (hm : m ≠ 0) :
    let x := roundGrid f mode neg m e
    (roundF f mode neg m e).code =
      if f.qmax < x.1 ∨ (x.1 = f.qmax ∧ f.maxMant < x.2.1) then (overflowTo f mode neg).code else f.codeOf neg x.1 x.2.1 := by
  intro x
  unfold roundF
  rw [if_neg hm]
  dsimp only
  split <;> rfl

/-- A finite value in units of its own exponent. -/
theorem units_self (neg : Bool) (m : Nat) (e : Int) : units e (.fin neg m e) = if neg then -(m : Int) else m := by
  cases neg <;> simp [units]

/-- The sign and the magnitude of a value that is not 0. -/
theorem signed_lt_zero_iff (neg : Bool) {m : Nat} (hm : m ≠ 0) : (if neg then -(m : Int) else m) < 0 ↔ neg = true := by
  cases neg
  · simp
  · simp
    omega

theorem decide_signed_lt_zero (neg : Bool) {m : Nat} (hm : m ≠ 0) : decide ((if neg then -(m : Int) else m) < 0) = neg := by
  rw [Bool.eq_iff_iff, decide_eq_true_iff, signed_lt_zero_iff neg hm]

theorem natAbs_signed (neg : Bool) (m : Nat) : (if neg then -(m : Int) else m).natAbs = m := by cases neg <;> simp

/-- Round of a finite value is what R294 and R296 give. -/
theorem roundsTo_roundF (hf : f.Sound) (mode : RMode) (neg : Bool) (m : Nat) (e : Int) :
    RoundsTo f mode (units e (.fin neg m e)) e neg (roundF f mode neg m e).code := by
  rw [units_self]
  unfold RoundsTo
  by_cases hm : m = 0
  · rw [if_pos (by simp [hm]), roundF, if_pos hm]
  · obtain ⟨hnorm, htakes⟩ := roundGrid_takes f mode neg e hm
    have hbeyond := beyond_iff hf hnorm (Int.min_le_right e f.qmin)
    have hcode := roundF_eq f mode neg e hm
    rw [if_neg (by split <;> omega)]
    generalize roundGrid f mode neg m e = x at *
    unfold Rounds
    dsimp only at hcode ⊢
    rw [decide_signed_lt_zero neg hm, natAbs_signed]
    refine ⟨_, htakes, fun hle => ?_, fun hlt => ?_⟩
    · have hnot : ¬ (f.qmax < x.1 ∨ (x.1 = f.qmax ∧ f.maxMant < x.2.1)) := fun h => absurd (hbeyond.mp h) (Nat.not_lt.mpr hle)
      rw [if_neg hnot] at hcode
      obtain ⟨hwidth, hdec⟩ := decode_codeOf hf (neg := neg) hnorm (by omega) (by omega)
      rw [hcode]
      exact ⟨hwidth, _, _, hdec, rfl⟩
    · rw [hcode, if_pos (hbeyond.mpr hlt), overflowTo_code]

/-! ### Round into an integer format (R294, R296, R302) -/

theorem IFmt.lo_le_hi (f : IFmt) : f.lo ≤ f.hi := by
  have h1 := Nat.two_pow_pos (f.w - 1)
  have h2 := Nat.two_pow_pos f.w
  unfold IFmt.lo IFmt.hi
  split <;> omega

theorem IFmt.bounds {f : IFmt} (hw : f.w ≤ 64) : -(2 ^ 64 : Int) ≤ f.lo ∧ f.hi ≤ 2 ^ 64 := by
  have h1 : 2 ^ (f.w - 1) ≤ 2 ^ 64 := Nat.pow_le_pow_right (by decide) (by omega)
  have h2 : 2 ^ f.w ≤ 2 ^ 64 := Nat.pow_le_pow_right (by decide) hw
  have h3 := Nat.two_pow_pos (f.w - 1)
  unfold IFmt.lo IFmt.hi
  split <;> omega

/-- The nearest bound of the range for an integer outside. -/
def IFmt.clamp (f : IFmt) (x : Int) : Int := max f.lo (min f.hi x)

theorem IFmt.code_clamp (f : IFmt) (x : Int) : (BitVec.ofInt f.w (f.clamp x)).toNat = if x < f.lo then wrap f.w f.lo else if f.hi < x then wrap f.w f.hi else wrap f.w x := by
  have hle := f.lo_le_hi
  have hc : f.clamp x = if x < f.lo then f.lo else if f.hi < x then f.hi else x := by
    unfold IFmt.clamp
    split
    · omega
    · split <;> omega
  rw [hc, BitVec.toNat_ofInt]
  split
  · rfl
  · split <;> rfl

theorem roundI_code (f : IFmt) (mode : RMode) (neg : Bool) (m : Nat) (e : Int) : (roundI f mode neg m e).code =
    if 80 < (Nat.log2 m : Int) + e ∧ m ≠ 0 then wrap f.w (if neg then f.lo else f.hi)
    else (BitVec.ofInt f.w (f.clamp (if neg then -((roundMultiple mode neg (m * 2 ^ (e - min e 0).toNat) (2 ^ (0 - min e 0).toNat) : Nat) : Int)
      else (roundMultiple mode neg (m * 2 ^ (e - min e 0).toNat) (2 ^ (0 - min e 0).toNat) : Nat)))).toNat := by
  have hround := roundsUp_splitAt (q := 0) mode neg m (Int.min_le_left e 0) (Int.min_le_right e 0)
  unfold roundI
  split
  · rfl
  · dsimp only
    rw [hround, IFmt.code_clamp]
    generalize (if neg then -((roundMultiple mode neg _ _ : Nat) : Int) else (roundMultiple mode neg _ _ : Nat)) = x
    split
    · rfl
    · split <;> rfl

/-- Beyond `2^80` every integer format takes the bound. -/
theorem clamp_beyond {f : IFmt} (hw : f.w ≤ 64) {g : Nat} (hg : 2 ^ 80 ≤ g) (neg : Bool) :
    f.clamp (if neg then -(g : Int) else g) = if neg then f.lo else f.hi := by
  obtain ⟨hlo, hhi⟩ := IFmt.bounds hw
  have hle := f.lo_le_hi
  unfold IFmt.clamp
  cases neg <;> simp only [Bool.false_eq_true, if_false, if_true] <;> omega

/-- The multiple of 1 that a mode takes is what R294 takes among the integers. -/
theorem takes_onIntegers (mode : RMode) (neg : Bool) (b : Int) (A : Nat) :
    Takes (OnIntegers b) mode neg A (roundMultiple mode neg A (2 ^ (-b).toNat) * 2 ^ (-b).toNat) := by
  refine takes_roundMultiple (Nat.two_pow_pos _) ⟨_, nofun, rfl⟩ ⟨_, nofun, rfl⟩ ?_ fun k _ he => ⟨k, fun _ => he, rfl⟩
  rintro h ⟨k, -, rfl⟩
  rcases Nat.lt_or_ge (A / 2 ^ (-b).toNat) k with hlt | hge
  · exact .inr (Nat.mul_le_mul_right _ hlt)
  · exact .inl (Nat.mul_le_mul_right _ hge)

/-- A magnitude beyond `2^80` is taken to an integer that is not below it. -/
theorem roundMultiple_beyond {m : Nat} {e b : Int} (mode : RMode) (neg : Bool) (hm : m ≠ 0) (hbe : b ≤ e) (hb0 : b ≤ 0)
    (h : 80 < (Nat.log2 m : Int) + e) : 2 ^ 80 ≤ roundMultiple mode neg (m * 2 ^ (e - b).toNat) (2 ^ (-b).toNat) := by
  have hA : 2 ^ 80 * 2 ^ (-b).toNat ≤ m * 2 ^ (e - b).toNat := by
    rw [← Nat.pow_add]
    calc 2 ^ (80 + (-b).toNat) ≤ 2 ^ (Nat.log2 m + (e - b).toNat) := Nat.pow_le_pow_right (by decide) (by omega)
      _ = 2 ^ Nat.log2 m * 2 ^ (e - b).toNat := Nat.pow_add ..
      _ ≤ m * 2 ^ (e - b).toNat := Nat.mul_le_mul_right _ (Nat.log2_self_le hm)
  have hquot := (Nat.le_div_iff_mul_le (Nat.two_pow_pos _)).mpr hA
  rcases roundMultiple_cases mode neg (m * 2 ^ (e - b).toNat) (2 ^ (-b).toNat) with hr | hr
  · exact hquot.trans hr.ge
  · exact hquot.trans ((Nat.le_succ _).trans hr.ge)

/-- Zero is taken to zero. -/
theorem roundMultiple_zero (mode : RMode) (neg : Bool) (U : Nat) : roundMultiple mode neg 0 U = 0 := by simp [roundMultiple, roundsUp]

/-- Round of a finite value into an integer format is what R294 and R296 give. -/
theorem roundsToInt_roundI {f : IFmt} (hw : f.w ≤ 64) (mode : RMode) (neg : Bool) (m : Nat) (e : Int) :
    RoundsToInt f mode (units e (.fin neg m e)) e (roundI f mode neg m e).code := by
  have hunit : (0 - min e 0).toNat = (-min e 0).toNat := by rw [zero_sub]
  rw [units_self, roundI_code, hunit]
  unfold RoundsToInt
  dsimp only
  rw [natAbs_signed]
  refine ⟨_, takes_onIntegers .., ?_⟩
  change _ = (BitVec.ofInt f.w (f.clamp _)).toNat
  by_cases hm : m = 0
  · -- the sign of a zero does not matter
    rw [if_neg (by simp [hm]), hm, Nat.zero_mul, roundMultiple_zero, roundMultiple_zero]
    simp
  · rw [decide_signed_lt_zero neg hm]
    simp only [signed_lt_zero_iff neg hm]
    split
    case isTrue hbig =>
      rw [clamp_beyond hw (roundMultiple_beyond mode neg hm (Int.min_le_left ..) (Int.min_le_right ..) hbig.1), wrap, BitVec.toNat_ofInt]
    case isFalse => rfl

/-! ### Conversion (R302) -/

theorem numFmt_flt {n : Nat} (h : numFmt n = some (.flt f)) : f.Sound ∧ isFloatFmt n = true := by
  unfold numFmt at h
  split at h <;> cases h <;> exact ⟨⟨by decide, by decide⟩, by decide⟩

theorem numFmt_int {n : Nat} {f : IFmt} (h : numFmt n = some (.int f)) : f.w ≤ 64 ∧ isFloatFmt n = false := by
  unfold numFmt at h
  split at h <;> cases h <;> exact ⟨by decide, by decide⟩

theorem convert_flt_fin (f : FFmt) (mode : RMode) (neg : Bool) (m : Nat) (e : Int) :
    (convert (.flt f) mode (.fin neg m e)).code = (roundF f mode neg m e).code := by
  unfold convert
  dsimp only
  split <;> rfl

theorem roundsTo_convert (hf : f.Sound) (mode : RMode) (neg : Bool) (m : Nat) (e : Int) :
    RoundsTo f mode (units e (.fin neg m e)) e neg (convert (.flt f) mode (.fin neg m e)).code := by
  rw [convert_flt_fin]
  exact roundsTo_roundF hf mode neg m e

/-- A NaN becomes the canonical one, or +0 where the format has none. -/
theorem convert_flt_nan (f : FFmt) (mode : RMode) : (convert (.flt f) mode .nan).code = f.nanCode := by
  unfold convert FFmt.nanCode
  by_cases hi : f.ieee = true
  · simp [hi]
  · by_cases h3 : f.m = 3
    · simp [hi, h3]
    · simp [hi, h3]

/-- The integer of a code, in units of 1. -/
theorem roundsToInt_convert {f : IFmt} (hw : f.w ≤ 64) (mode : RMode) (x : IFmt) (c : Nat) :
    RoundsToInt f mode (if x.signed then toSigned x.w c else ((c % 2 ^ x.w : Nat) : Int)) 0 (convert (.int f) mode (x.decode c)).code := by
  obtain ⟨v, hv⟩ : ∃ v : Int, v = if x.signed then toSigned x.w c else ((c % 2 ^ x.w : Nat) : Int) := ⟨_, rfl⟩
  have hdec : x.decode c = .fin (v < 0) v.natAbs 0 := by rw [hv]; rfl
  have hval : units 0 (.fin (v < 0) v.natAbs 0) = v := by
    rw [units_self]
    by_cases h : v < 0 <;> simp only [h, decide_true, decide_false, Bool.false_eq_true, if_true, if_false] <;> omega
  rw [← hv, hdec]
  have hr := roundsToInt_roundI hw mode (v < 0) v.natAbs 0
  rwa [hval] at hr

end Sys2Proof.Machine
end

section
/-! Stores and atomics (R199, R227, R231 to R233, R239 to R247): what an access captures, and how its instruction goes on. -/

namespace Sys2Proof.Machine
open Sys2Proof.Claims

variable {s : State} {c : Nat} {f g : Firing} {i : Instr} {rc : Rec} {m : Mem}

/-! ### What a store and an atomic capture -/

/-- What a store captured: its pieces are those of its elements, with the value that each element stores. -/
structure StoreCaptured (s : State) (m : Mem) (o : StoreOp) (rc : Rec) (v off scope id : Nat) (l : List (Option Nat)) (a : Acc) : Prop where
  elems : elemsAt rc (o.offs rc.bits off) = .ok l
  pieces : allPieces s m.st m.src .write rc.bits (fun k => (o.elem rc m.f.itag v k (((l.getD k none).getD 0) / 8)).1) l = .ok a.pieces
  ident : a.id = id
  op : a.op = 0
  scope : a.scope = scope
  group : a.group = rc.seq

theorem storeCore_captured {o : StoreOp} {raw : BitVec 256} {v off scope id : Nat} {z : Stored}
    (h : storeCore s m o rc raw v off scope id = .ok z) : ∃ l, StoreCaptured s m o rc v off scope id l z.acc := by
  unfold storeCore at h
  by_cases hr : o.refuses rc.fmt = true
  · rw [if_pos hr] at h
    cases h
  by_cases hb : rc.seq ≠ 0 ∧ m.f.itag = 0xFFFFFF
  · rw [if_neg hr, if_pos hb] at h
    cases h
  rw [if_neg hr, if_neg hb] at h
  cases hl : elemsAt rc (o.offs rc.bits off) with
  | error e => rw [hl] at h; cases h
  | ok l =>
    cases hp : allPieces s m.st m.src .write rc.bits (fun k => (o.elem rc m.f.itag v k (((l.getD k none).getD 0) / 8)).1) l with
    | error e => simp only [hl, hp, bind, Except.bind, reduceCtorEq] at h
    | ok ps =>
      simp only [hl, hp, bind, Except.bind] at h
      split at h
      · cases h
      · cases h
        exact ⟨l, hl, hp, rfl, rfl, rfl, rfl⟩

/-- The lanes of an atomic's operands (R243). -/
def atomLane (rc : Rec) : Nat := if rc.bits = 64 then 64 else 32

/-- What an atomic captured: the pieces `ps` of its elements, each with the lanes of the operands. -/
structure AtomicCaptured (s : State) (m : Mem) (op : Nat) (rc : Rec) (v w off scope id : Nat) (l : List (Option Nat)) (ps : List Piece) (a : Acc) :
    Prop where
  elems : elemsAt rc (vecOffs (512 / atomLane rc) off) = .ok l
  found : allPieces s m.st m.src .atomic rc.bits (fun _ => 0) l = .ok ps
  pieces : a.pieces = ps.map fun p => { p with val := lane (atomLane rc) v p.k, val2 := lane (atomLane rc) w p.k }
  ident : a.id = id
  op : a.op = op
  scope : a.scope = scope
  group : a.group = rc.seq

theorem atomicCore_captured {op : Nat} {raw : BitVec 256} {v w off scope id : Nat} {z : Acc}
    (h : atomicCore s m op rc raw v w off scope id = .ok z) : ∃ l ps, AtomicCaptured s m op rc v w off scope id l ps z := by
  unfold atomicCore at h
  by_cases hr : (!atomFmt op rc.fmt) = true
  · rw [if_pos hr] at h
    cases h
  by_cases hq : rc.seq ≠ 0 ∧ (op = 4 ∨ op = 5)
  · rw [if_neg hr, if_pos hq] at h
    cases h
  by_cases hb : rc.seq ≠ 0 ∧ m.f.itag = 0xFFFFFF
  · rw [if_neg hr, if_neg hq, if_pos hb] at h
    cases h
  rw [if_neg hr, if_neg hq, if_neg hb] at h
  change (elemsAt rc (vecOffs (512 / atomLane rc) off) >>= _) = _ at h
  cases hl : elemsAt rc (vecOffs (512 / atomLane rc) off) with
  | error e => rw [hl] at h; cases h
  | ok l =>
    cases hp : allPieces s m.st m.src .atomic rc.bits (fun _ => 0) l with
    | error e => simp only [hl, hp, bind, Except.bind, reduceCtorEq] at h
    | ok ps =>
      simp only [hl, hp, bind, Except.bind] at h
      split at h
      · cases h
      · cases h
        exact ⟨l, ps, hl, hp, rfl, rfl, rfl, rfl, rfl⟩

/-! ### Element by element (R199, R239 to R247) -/

theorem not_mem_of_filter_nil {ps : List Piece} {k : Nat} (h : ps.filter (fun p => p.k = k) = []) : ∀ p, p ∈ ps → p.k ≠ k := fun p hp => by
  simpa using List.filter_eq_nil_iff.mp h p hp

/-- An element of a store is captured where it lies, each part with its bits of the value. -/
theorem storeCore_elem {o : StoreOp} {raw : BitVec 256} {v off scope id k e : Nat} {z : Stored}
    (h : storeCore s (memOf s c f) o rc raw v off scope id = .ok z) (hoff : (o.offs rc.bits off)[k]? = some e) :
    (rc.elem e = .ok .outside → ∀ p, p ∈ z.acc.pieces → p.k ≠ k) ∧
    ∀ b, rc.elem e = .ok (.at_ b) → ∃ q, ElemAt s (memOf s c f) .write b rc.bits q ∧
      (z.acc.pieces.filter fun p => p.k = k).map (fun p => (p.bit, p.len, p.val2)) = q ∧
      ∀ p, p ∈ z.acc.pieces → p.k = k → p.val = (o.elem rc f.itag v k (b / 8)).1 >>> p.val2 % 2 ^ p.len := by
  obtain ⟨l, hcap⟩ := storeCore_captured h
  obtain ⟨hout, hin⟩ := elemsAt_getElem? hcap.elems hoff
  obtain ⟨hpout, hpin⟩ := allPieces_elem hcap.pieces k
  refine ⟨fun ho => not_mem_of_filter_nil (hpout (hout ho)), fun b hb => ?_⟩
  have hk := hin b hb
  obtain ⟨hat, hvals, -⟩ := elemPieces_at (memOf s c f) (hpin b hk)
  refine ⟨_, hat, rfl, fun p hp hpk => ?_⟩
  have hget : (l.getD k none).getD 0 = b := by rw [List.getD_eq_getElem?_getD, hk]; rfl
  have hval := (hvals p (List.mem_filter.mpr ⟨hp, decide_eq_true hpk⟩)).2
  rw [hget] at hval
  exact hval

/-- An element of an atomic is captured where it lies, with the lanes of the operands. -/
theorem atomicCore_elem {op : Nat} {raw : BitVec 256} {v w off scope id k : Nat} {z : Acc}
    (h : atomicCore s (memOf s c f) op rc raw v w off scope id = .ok z) (hk : k < 512 / atomLane rc) :
    (rc.elem (off % 2 ^ 64 + k) = .ok .outside → ∀ p, p ∈ z.pieces → p.k ≠ k) ∧
    ∀ b, rc.elem (off % 2 ^ 64 + k) = .ok (.at_ b) → ∃ q, ElemAt s (memOf s c f) .atomic b rc.bits q ∧
      (z.pieces.filter fun p => p.k = k).map (fun p => (p.bit, p.len)) = q.map (fun p => (p.1, p.2.1)) ∧
      ∀ p, p ∈ z.pieces → p.k = k → p.val = lane (atomLane rc) v k ∧ p.val2 = lane (atomLane rc) w k := by
  obtain ⟨l, ps, hcap⟩ := atomicCore_captured h
  have hoff : (vecOffs (512 / atomLane rc) off)[k]? = some (off % 2 ^ 64 + k) := by simp [vecOffs, hk]
  obtain ⟨hout, hin⟩ := elemsAt_getElem? hcap.elems hoff
  obtain ⟨hpout, hpin⟩ := allPieces_elem hcap.found k
  rw [hcap.pieces]
  refine ⟨fun ho p hp => ?_, fun b hb => ?_⟩
  · obtain ⟨q, hq, rfl⟩ := List.mem_map.mp hp
    exact not_mem_of_filter_nil (hpout (hout ho)) q hq
  · obtain ⟨hat, -, -⟩ := elemPieces_at (memOf s c f) (hpin b (hin b hb))
    refine ⟨_, hat, ?_, fun p hp hpk => ?_⟩
    · rw [List.filter_map, List.map_map, List.map_map]
      rfl
    · obtain ⟨q, -, rfl⟩ := List.mem_map.mp hp
      have hqk : q.k = k := hpk
      exact ⟨congrArg (lane _ v) hqk, congrArg (lane _ w) hqk⟩

/-! ### What an access sends, and how its instruction goes on (R227, R233, R438) -/

/-- The check of a store or atomic leaves for the owners. -/
theorem sendWrite_sends (s : State) (m : Mem) (a : Acc) : sendWrite s m a = { s with
    work := s.work ++ accessCheck m.src a.id (if a.op = 0 then .store else .atomic) a.pieces true a.scope a.group, tlbs := (sendWrite s m a).tlbs } := by
  unfold sendWrite
  rw [refill_frame]
  unfold accessCheck
  split
  · simp
  · rfl

/-- The state in which an access has sent its check and the firing stands as `g`. -/
def accessDone (s : State) (c : Nat) (f : Firing) (a : Acc) (g : Firing) : State := putFiring (sendWrite (fresh s).2 (memOf s c f) a) c g

theorem firingSends_accessDone (s : State) (c : Nat) (f g : Firing) (a : Acc) (i : Instr) :
    FiringSends s (advance (accessDone s c f a g) c (sizeOf' i)) c i g
      (accessCheck (firingSrc s c f) a.id (if a.op = 0 then .store else .atomic) a.pieces true a.scope a.group) := by
  unfold accessDone
  rw [sendWrite_sends]
  refine ⟨rfl, ?_, fun d hd => ?_, fun _ => rfl⟩
  · rw [getCell_advance, if_pos rfl, getCell_putFiring, if_pos rfl]
    rfl
  · rw [getCell_advance, if_neg hd, getCell_putFiring, if_neg hd]
    rfl

/-- An access whose checks pass: the firing goes on as `h` where the watchpoint does not catch it, and faults as `g` where it does. -/
theorem access_outcome {a : Acc} {g h : Firing} (hexec : exec i s = cellOutcome s c f i (sentWatched (accessDone s c f a h) c g true a.pieces)) :
    (watchHit s c true a.pieces = none → ∃ t, exec i s = .next t ∧ FiringSends s t c i h
      (accessCheck (firingSrc s c f) a.id (if a.op = 0 then .store else .atomic) a.pieces true a.scope a.group)) ∧
    ∀ b, watchHit s c true a.pieces = some b → ∃ t, exec i s = .next (firingFault t c g { cause := cWATCH, addr := b }) ∧ t.mem = s.mem := by
  have hwatch : watchHit (accessDone s c f a h) c true a.pieces = watchHit s c true a.pieces :=
    watchHit_of_ctls (by unfold accessDone; rw [sendWrite_sends]; rfl) ..
  rw [hexec, sentWatched, watched, hwatch]
  refine ⟨fun hno => ?_, fun b hb => ?_⟩
  · rw [hno]
    exact ⟨_, rfl, firingSends_accessDone s c f h a i⟩
  · rw [hb]
    refine ⟨_, rfl, ?_⟩
    unfold accessDone
    rw [sendWrite_sends]
    rfl

/-- The firing with the access in its buffer, and the done token behind it. -/
def withAccess (s : State) (c : Nat) (f : Firing) (a : Acc) (p : BitVec 1) (cls : Nat) (sc : BitVec 3) : Firing :=
  withDone s c (adds f (.access a)) p cls sc (some s.nextId) false

/-- The done token of an access, where the buffer has room for both. -/
theorem doneEntry_access {a : Acc} {p : BitVec 1} {o : BitVec 2} (cls : Nat) (sc : BitVec 3) (hl : f.out.length < 15) (ho : Ordered s c f o p) :
    (if p = 1 then doneEntry s c (adds f (.access a)) cls sc.toNat (some s.nextId) false else .ok (adds f (.access a))) =
      .ok (withAccess s c f a p cls sc) :=
  doneEntry_withDone (f := adds f (.access a)) ho.2 (by simp [adds]; omega)

/-- A store whose checks pass captures its access. -/
theorem storeInstr_captures {l : StoreOp} {d a : Spec} {r : BitVec 3} {o : BitVec 2} {p : BitVec 1} {sc : BitVec 3} {v off : Nat} {z : Stored}
    (hl : f.out.length < 15) (ho : Ordered s c f o p) (hrc : useRecord (getCell s c) f.ctx r.toNat true = .ok rc) (hd : readSpec s c f d = .ok v)
    (ha : readSpec s c f a = .ok off)
    (hz : storeCore s (memOf s c f) l rc ((getCell s c).record f.ctx r.toNat) v off sc.toNat s.nextId = .ok z) :
    storeInstr l d a r o p sc c f s =
      sentWatched (accessDone s c f z.acc ((withAccess s c f z.acc p 0 sc).report z.rep)) c (withAccess s c f z.acc p 0 sc) true z.acc.pieces := by
  obtain ⟨hord, husable⟩ := ho
  have hdone := doneEntry_access (a := z.acc) 0 sc hl ⟨hord, husable⟩
  have hid : (fresh s).1 = s.nextId := rfl
  simp only [storeInstr, hrc, hord, doneRouteOk_usable husable, hd, ha, hid, hz, bind, Except.bind, Bool.not_true, Bool.false_eq_true, if_false,
    addEntry_adds _ (show f.out.length < 16 by omega)]
  by_cases hp : p = 1
  · rw [if_pos hp] at hdone
    simp only [if_pos hp, hdone]
    rfl
  · rw [if_neg hp] at hdone
    simp only [if_neg hp, ← Except.ok.inj hdone]
    rfl

/-- An atomic whose checks pass captures its access. -/
theorem atomicInstr_captures {op : Nat} {d a : Spec} {r : BitVec 3} {o : BitVec 2} {p : BitVec 1} {sc : BitVec 3} {vs : List Nat} {off : Nat} {z : Acc}
    (hl : f.out.length < 15) (ho : Ordered s c f o p) (hrc : useRecord (getCell s c) f.ctx r.toNat true = .ok rc)
    (hd : readSpecs s c f d (if op = 5 then 2 else 1) = .ok vs) (ha : readSpec s c f a = .ok off)
    (hz : atomicCore s (memOf s c f) op rc ((getCell s c).record f.ctx r.toNat) (vs.getD 0 0) (vs.getD 1 0) off sc.toNat s.nextId = .ok z) :
    atomicInstr op d a r o p sc c f s =
      sentWatched (accessDone s c f z (withAccess s c f z p 2 sc)) c (withAccess s c f z p 2 sc) true z.pieces := by
  obtain ⟨hord, husable⟩ := ho
  have hdone := doneEntry_access (a := z) 2 sc hl ⟨hord, husable⟩
  have hid : (fresh s).1 = s.nextId := rfl
  simp only [atomicInstr, hrc, hord, doneRouteOk_usable husable, hd, ha, hid, hz, bind, Except.bind, Bool.not_true, Bool.false_eq_true, if_false,
    addEntry_adds _ (show f.out.length < 16 by omega)]
  by_cases hp : p = 1
  · rw [if_pos hp] at hdone
    simp only [if_pos hp, hdone]
    rfl
  · rw [if_neg hp] at hdone
    simp only [if_neg hp, ← Except.ok.inj hdone]
    rfl

/-- The instruction of a store row. -/
theorem exec_store {l : StoreOp} {d a : Spec} {r : BitVec 3} {o : BitVec 2} {p : BitVec 1} {sc : BitVec 3}
    (hi : stores i = some (l, d, a, r, o, p, sc)) (h : CellRuns s c f i) : exec i s = cellOutcome s c f i (storeInstr l d a r o p sc c f s) := by
  unfold stores at hi
  split at hi <;> cases hi <;> exact (onCells_runs h).trans (congrArg _ (withRegs_runs h))

/-- The instruction of an atomic row, whose operation is no store. -/
theorem exec_atomic {op : Nat} {d a : Spec} {r : BitVec 3} {o : BitVec 2} {p : BitVec 1} {sc : BitVec 3}
    (hi : atomics i = some (op, d, a, r, o, p, sc)) (h : CellRuns s c f i) :
    op ≠ 0 ∧ exec i s = cellOutcome s c f i (atomicInstr op d a r o p sc c f s) := by
  unfold atomics at hi
  split at hi <;> cases hi <;> exact ⟨by decide, (onCells_runs h).trans (congrArg _ (withRegs_runs h))⟩

/-! ### The value that an element stores (R239 to R242, R294, R301) -/

/-- The code that ST and STG store: +0 under nf0 for a non-finite one (R239, R241, R242). -/
def rawValue (rc : Rec) (x : Nat) : Nat := if rc.nf0 && isFloatFmt rc.fmt && fmtNonFinite rc.fmt x then 0 else x

theorem elem_st (rc : Rec) (itag v k va : Nat) : (StoreOp.st.elem rc itag v k va).1 = rawValue rc (lane rc.bits v k) := by
  unfold StoreOp.elem rawValue
  dsimp only
  rw [if_neg (show ¬ StoreOp.st = .stg by decide)]
  split <;> rfl

theorem elem_stg (rc : Rec) (itag v k va : Nat) : (StoreOp.stg.elem rc itag v k va).1 = rawValue rc (lane 32 v k % 2 ^ rc.bits) := by
  unfold StoreOp.elem rawValue
  dsimp only
  rw [if_pos (show StoreOp.stg = .stg from rfl)]
  split <;> rfl

theorem rawValue_kept {rc : Rec} (h : rc.nf0 = false) (x : Nat) : rawValue rc x = x := by simp [rawValue, h]

/-- Of a floating-point format the non-finite codes are those of the format. -/
theorem fmtNonFinite_flt {n : Nat} {F : FFmt} (h : numFmt n = some (.flt F)) (x : Nat) : fmtNonFinite n x = !(F.decode x).finite := by
  unfold fmtNonFinite
  rw [h]
  rfl

/-- STX and STNF round the lane once into a floating-point format; a non-finite one is +0 for STNF, and under nf0 (R240, R241). -/
theorem elem_flt {o : StoreOp} (rc : Rec) (itag v k va : Nat) {F : FFmt} (ho : o = .stx ∨ o = .stnf) (h : numFmt rc.fmt = some (.flt F)) :
    (o.elem rc itag v k va).1 = (convert (.flt F) (modeOfRecord rc.round rc.seed va itag)
      (fF32.decode (if (o = .stnf ∨ rc.nf0 = true) ∧ (fF32.decode (lane 32 v k)).finite = false then 0 else lane 32 v k))).code := by
  have helem : o.elem rc itag v k va = convLane rc itag va (lane 32 v k) (o == .stnf || rc.nf0) := by rcases ho with rfl | rfl <;> rfl
  have hcond : ((o == .stnf || rc.nf0) && !(fF32.decode (lane 32 v k)).finite) = true ↔
      (o = .stnf ∨ rc.nf0 = true) ∧ (fF32.decode (lane 32 v k)).finite = false := by simp
  rw [helem, convLane, h]
  simp only [(numFmt_flt h).2, if_true, hcond]
  split <;> rfl

/-- STX and STNF round the lane's integer into an integer format (R301). -/
theorem elem_int {o : StoreOp} (rc : Rec) (itag v k va : Nat) {F : IFmt} (ho : o = .stx ∨ o = .stnf) (h : numFmt rc.fmt = some (.int F)) :
    (o.elem rc itag v k va).1 =
      (convert (.int F) (modeOfRecord rc.round rc.seed va itag) (({ w := 32, signed := true } : IFmt).decode (lane 32 v k))).code := by
  have helem : o.elem rc itag v k va = convLane rc itag va (lane 32 v k) (o == .stnf || rc.nf0) := by rcases ho with rfl | rfl <;> rfl
  rw [helem, convLane, h]
  simp only [(numFmt_int h).2, Bool.false_eq_true, if_false]

/-- Zero converts to zero. -/
theorem convert_zero (F : FFmt) (mode : RMode) : (convert (.flt F) mode (fF32.decode 0)).code = 0 := by
  rw [show fF32.decode 0 = .fin false 0 fF32.qmin from rfl, convert_flt_fin, roundF, if_pos rfl]
  rfl

/-- The value that an element stores, by its row. -/
theorem elem_values (rc : Rec) (itag v k va : Nat) :
    (rc.nf0 = false → (StoreOp.st.elem rc itag v k va).1 = lane rc.bits v k ∧ (StoreOp.stg.elem rc itag v k va).1 = lane 32 v k % 2 ^ rc.bits) ∧
    (∀ F, numFmt rc.fmt = some (.flt F) → rc.nf0 = true →
      (StoreOp.st.elem rc itag v k va).1 = (if (F.decode (lane rc.bits v k)).finite = false then 0 else lane rc.bits v k)) := by
  refine ⟨fun hnf => ⟨?_, ?_⟩, fun F hF hnf => ?_⟩
  · rw [elem_st, rawValue_kept hnf]
  · rw [elem_stg, rawValue_kept hnf]
  · rw [elem_st, rawValue, hnf, (numFmt_flt hF).2, fmtNonFinite_flt hF]
    simp

/-- What STX and STNF store in a floating-point format. -/
theorem elem_rounded {l : StoreOp} (rc : Rec) (itag v k va : Nat) {F : FFmt} (hl : l = .stx ∨ l = .stnf) (hF : numFmt rc.fmt = some (.flt F)) :
    let x := fF32.decode (lane 32 v k)
    let mode := modeOfRecord rc.round rc.seed va itag
    (∀ neg n e, x = .fin neg n e → RoundsTo F mode (units e x) e neg (l.elem rc itag v k va).1) ∧
    (x.finite = false → l = .stnf ∨ rc.nf0 = true → (l.elem rc itag v k va).1 = 0) ∧
    (x = .nan → l = .stx → rc.nf0 = false → (l.elem rc itag v k va).1 = F.nanCode) := by
  intro x mode
  have helem := elem_flt rc itag v k va hl hF
  refine ⟨fun neg n e hx => ?_, fun hx hz => ?_, fun hx hstx hnf => ?_⟩
  · have hx' : fF32.decode (lane 32 v k) = .fin neg n e := hx
    rw [helem, if_neg (by simp [hx', Val.finite]), hx, hx']
    exact roundsTo_convert (numFmt_flt hF).1 ..
  · rw [helem, if_pos ⟨hz, hx⟩, convert_zero]
  · have hx' : fF32.decode (lane 32 v k) = .nan := hx
    rw [helem, if_neg (by simp [hstx, hnf]), hx', convert_flt_nan]

/-- What STX and STNF store in an integer format. -/
theorem elem_integer {l : StoreOp} (rc : Rec) (itag v k va : Nat) {F : IFmt} (hl : l = .stx ∨ l = .stnf) (hF : numFmt rc.fmt = some (.int F)) :
    RoundsToInt F (modeOfRecord rc.round rc.seed va itag) (bv 32 v k).toInt 0 (l.elem rc itag v k va).1 := by
  have hround := roundsToInt_convert (numFmt_int hF).1 (modeOfRecord rc.round rc.seed va itag) { w := 32, signed := true } (lane 32 v k)
  have hint : (bv 32 v k).toInt = toSigned 32 (lane 32 v k) := by
    rw [← toSigned_eq_toInt _ (by decide), bv, BitVec.toNat_ofNat, toSigned, toSigned, Nat.mod_mod]
  rw [elem_int rc itag v k va hl hF, hint]
  exact hround

/-! ### The obligation -/

/-- Settles O36: the rows by `storeInstr_captures` and `atomicInstr_captures` with the watchpoint met or not (`access_outcome`), what each element
captures by `storeCore_elem` and `atomicCore_elem`, and the values by `elem_values`, `elem_rounded` and `elem_integer`. -/
theorem storesAndAtomics : Obligations.StoresAndAtomics := by
  refine ⟨fun i l d a r o p sc s c f rc v off z hi h hl ho hrc hd ha hz => ?_, fun i op d a r o p sc s c f rc vs off z hi h hl ho hrc hd ha hz => ?_,
    fun s c f rc raw v w off scope id k e => ⟨fun l z hz hoff => storeCore_elem hz hoff, fun op z hz hk => atomicCore_elem hz hk⟩,
    fun rc itag v k va => ?_⟩
  · obtain ⟨_, hcap⟩ := storeCore_captured hz
    obtain ⟨hon, hcaught⟩ := access_outcome ((exec_store hi h).trans (congrArg _ (storeInstr_captures hl ho hrc hd ha hz)))
    rw [hcap.ident, hcap.op, hcap.scope, hcap.group] at hon
    refine ⟨fun hno => ?_, hcaught⟩
    obtain ⟨t, hexec, hsends⟩ := hon hno
    exact ⟨t, hexec, hcap.ident, hcap.op, hsends⟩
  · obtain ⟨_, _, hcap⟩ := atomicCore_captured hz
    obtain ⟨hop, hexec⟩ := exec_atomic hi h
    obtain ⟨hon, hcaught⟩ := access_outcome (hexec.trans (congrArg _ (atomicInstr_captures hl ho hrc hd ha hz)))
    rw [hcap.ident, hcap.op, hcap.scope, hcap.group, if_neg hop] at hon
    refine ⟨fun hno => ?_, hcaught⟩
    obtain ⟨t, hexec, hsends⟩ := hon hno
    exact ⟨t, hexec, hcap.ident, hcap.op, hsends⟩
  · obtain ⟨hraw, hzeroed⟩ := elem_values rc itag v k va
    exact ⟨hraw, hzeroed, fun l hl => ⟨fun F hF => elem_rounded rc itag v k va hl hF, fun F hF => elem_integer rc itag v k va hl hF⟩⟩

end Sys2Proof.Machine
end

section
/-! No step of a ready machine is refused (R20 to R24, R114, R212, R461): an agent with the turn stands at a word that it may run, or its event
may happen, since what the guards of the agenda ask for does not depend on who has the turn. -/

namespace Sys2Proof.Machine
open Sys2Proof.Claims

variable {s r : State} {i : Instr} {k : Nat}

/-! ### Instructions -/

/-- The agent with the turn stands at a word that it may run. -/
def AtWord (s : State) : Prop :=
  (∃ c f, s.turn = .cell c ∧ (getCell s c).firing = some f ∧ f.phase = .running) ∨ ∃ u, s.turn = .ctl u ∧ (getCtl s u).mode = .running

/-- An instruction completes where the agent with the turn stands at a word, whatever its body answers and well formed or not. -/
theorem runInstr_completes (h : AtWord s) (i : Instr) (onCell : Nat → Firing → State → R State) (onCtl : Nat → Nat → State → R State) :
    Completes (runInstr i s onCell onCtl) := by
  rcases h with ⟨c, f, ht, hf, hp⟩ | ⟨u, ht, hm⟩
  · simp only [runInstr, ht, hf, hp, if_true]
    split <;> exact ⟨_, rfl⟩
  · simp only [runInstr, ht, hm, if_true]
    split <;> exact ⟨_, rfl⟩

theorem onCells_completes (h : AtWord s) (i : Instr) (f : Nat → Firing → State → R State) : Completes (onCells i s f) := runInstr_completes h ..

theorem onCtls_completes (h : AtWord s) (i : Instr) (f : Nat → Nat → State → R State) : Completes (onCtls i s f) := runInstr_completes h ..

theorem runAlu_completes (h : AtWord s) (i : Instr) (q : AluSem) : Completes (runAlu i q s) := runInstr_completes h ..

theorem branch_completes (h : AtWord s) (i : Instr) (p : Nat → Nat → Bool) (a b : GSpec) (o : BitVec 13) : Completes (branch i p a b o s) :=
  onCtls_completes h _ _

theorem smcInstr_completes (h : AtWord s) (i : Instr) (d a b : Spec) : Completes (smcInstr i d a b s) := onCtls_completes h _ _

theorem tagInstr_completes (h : AtWord s) (i : Instr) (sees : Bool) (d a : Spec) (f : (Nat → Tag) → Nat → R Nat) :
    Completes (tagInstr i sees d a f s) := runInstr_completes h ..

theorem barInstr_completes (h : AtWord s) (i : Instr) (op : Nat) (a : Spec) (b : Option Spec) : Completes (barInstr i op a b s) := by
  unfold barInstr
  exact runInstr_completes h _ _ _

theorem slotInstr_completes (h : AtWord s) (i : Instr) (wait : Bool) (d a : Spec) : Completes (slotInstr i wait d a s) := by
  unfold slotInstr
  exact runInstr_completes h _ _ _

/-- Every row that a unit runs completes: rows of cells, of controllers and cores, of both, and arithmetic. -/
theorem exec_completes_of_runsOn {u : UnitKind} (h : AtWord s) (hi : runsOn u i = true) : Completes (exec i s) := by
  cases i with
  | firing | steerFiring | mergeFiring | counterFiring | memoryNodeFiring | reductionNodeFiring | launchDoorbell | hostMemWrite | hostMemRead
  | flitData | flitAck | flitTimesync | flitManagement | linkRetrain | linkDown | linkUp | spdmAttestation | mgmtFirmwareImage | clockChange
  | thermalStop | scrubPass | serdesRecalibration | hbmRowRemap | decodeDefect | smcReply | tokenArrival | predicateArrival | outputCommit
  | fillLand | counterBound | arbitrationRound | configCompletion | cellRetire | heldState | ownerCheck | storePerform | atomicApply | doneToken
  | seqContribution | seqClose | copyJobStart | copyElement | copyJobComplete | barrierUpdate | conversionDemand | conversionStart
  | conversionPacket | conversionAbort | conversionComplete | collectiveComplete | mtxCommandAtHead | relationContribution | rrndRoundClose
  | pageWalk | trapTake | supervisorTrapTake | wfeTimeout | ckptGranuleCopy | ckptComplete | coldReset | warmReset | mgmtStandbyRequest
  | pw1Entry | powerRemoval | telemetryWrite | relationJobBlock | sortJobBlock | pw2Exit | launchstRead => cases hi
  | emit | emitn | emitz | emitq | bound | endFiring | nop | hrec | hrecClr | hdrop | hfill | hstat | hcap | trap | brkp | ld | st | ldb | ldx
  | stx | stnf | seqcl | ldg | stg | ldgx | aadd | amin | amax | axch | acas | aor | aand | ord | ordw | scopyCell | sxformCell | mlw | mswp
  | mstr | mrd | mrdH | mclr | mchk | mshp | rdef | rins | rjoin | ranti | rrnd | rqck | rdel | rclr | rlook | rgrad | rsort | rtopk | rmrg
  | pldCell | pconvCell =>
    dsimp only [exec]
    exact onCells_completes h _ _
  | scopyCtrl | sxformCtrl | sbind | pldCtrl | pconvCtrl | jal | jalr | ldc | stc | crd | cwr | dispgo
  | pwreqStandby | pwreqWithdraw | launch | join | conf | splice | preempt | ctxsv | ctxrs | wfe | sev | svc | eret | fres | fskip | escal
  | tlbinv | bbox | bboxWr | ckpt | ckptPoll | ckptWait | ckptAbort
  | ckptRest =>
    dsimp only [exec]
    exact onCtls_completes h _ _
  | scancel | tclr | barwait | bartest | pdef | pqry | cdef | cstart =>
    dsimp only [exec, execPqry]
    exact runInstr_completes h _ _ _
  | beq | bne | blt | bge | bltu | bgeu =>
    dsimp only [exec]
    exact branch_completes h _ _ _ _ _
  | smcSetblk | smcSetrgn | smcGetblk | smcGetrgn =>
    dsimp only [exec]
    exact smcInstr_completes h _ _ _ _
  | twaita | twaitn | tffr | tcnt =>
    dsimp only [exec]
    exact tagInstr_completes h _ _ _ _ _
  | barinit | bararv | baradd =>
    dsimp only [exec]
    exact barInstr_completes h _ _ _ _
  | cwait | cpoll =>
    dsimp only [exec]
    exact slotInstr_completes h _ _ _ _
  | _ => exact runAlu_completes h _ _

theorem runsOn_of_wellFormed {u : UnitKind} (h : WellFormed u i = true) : runsOn u i = true := by
  simp only [WellFormed, Bool.and_eq_true] at h
  exact h.1.1

/-- The rows that one word stands for run on the same units. -/
theorem runsOn_rowOf {u : UnitKind} (h : runsOn u i = true) (s : State) (n : Nat) : runsOn u (rowOf s n i) = true := by
  unfold rowOf
  split
  · split <;> exact h
  · split <;> exact h
  · exact h

/-- What a fetch gives to run: the fault of a word that is no instruction, or a row of the unit. -/
def Runs (u : UnitKind) (i : Instr) : Prop := (∃ d, i = .decodeDefect d) ∨ runsOn u i = true

theorem runs_of_fetchCtl {u : Nat} (h : fetchCtl s u = .run i) : Runs (unitKind u) i := by
  unfold fetchCtl at h
  split at h
  · cases h
  · cases h
  · cases h
  · split at h <;> cases h
    · rename_i hd
      exact .inr (runsOn_rowOf (runsOn_of_wellFormed (encodeDecodeAgree.2 _ _ _ _ hd)) s u)
    · exact .inl ⟨_, rfl⟩

theorem runs_of_fetchCell {c : Nat} {f : Firing} (h : fetchCell s c f = .run i) : Runs .cell i := by
  unfold fetchCell at h
  dsimp only at h
  split at h
  · cases h
    exact .inl ⟨_, rfl⟩
  · rename_i hd
    split at h <;> cases h
    · exact .inl ⟨_, rfl⟩
    · exact .inr (runsOn_of_wellFormed (encodeDecodeAgree.2 _ _ _ _ hd))

theorem decodeDefect_completes (h : AtWord s) (d : Defect) : Completes (exec (.decodeDefect d) s) := by
  change Completes (execDecodeDefect d s)
  rcases h with ⟨c, f, ht, hf, hp⟩ | ⟨u, ht, hm⟩
  · simp only [execDecodeDefect, ht, hf, hp, if_true]
    exact ⟨_, rfl⟩
  · simp only [execDecodeDefect, ht, hm, if_true]
    exact ⟨_, rfl⟩

theorem exec_completes_of_runs {u : UnitKind} (h : AtWord s) (hi : Runs u i) : Completes (exec i s) := by
  rcases hi with ⟨d, rfl⟩ | hi
  · exact decodeDefect_completes h d
  · exact exec_completes_of_runsOn h hi

/-- The step of a unit or cell with the turn has an instruction to run, which completes, or is one of the machine. -/
theorem ctlDue_completes {u : Nat} (ht : s.turn = .ctl u) (h : ctlDue s u = .run i) : Completes (exec i s) := by
  unfold ctlDue at h
  split at h
  · rename_i hm
    split at h <;> cases h
    rename_i hi
    exact exec_completes_of_runs (.inr ⟨u, ht, hm⟩) (runs_of_fetchCtl hi)
  · cases h

theorem cellDue_completes {c : Nat} (ht : s.turn = .cell c) (h : cellDue s c = .run i) : Completes (exec i s) := by
  unfold cellDue at h
  split at h
  · cases h
  · rename_i f hf
    split at h
    · rename_i hp
      split at h <;> cases h
      rename_i hi
      exact exec_completes_of_runs (.inl ⟨c, f, ht, hf, hp⟩) (runs_of_fetchCell hi)
    · cases h

end Sys2Proof.Machine
end

section
/-! The events of the agenda: each completes in the state in which its guard held, whoever has the turn and whatever inputs are left. -/

namespace Sys2Proof.Machine
open Sys2Proof.Claims

variable {s r : State} {i : Instr} {k : Nat}

/-! ### What may come next completes -/

/-- The machine with its turn given to an event and with the inputs that are left. -/
def turned (r : State) (i : Instr) (k : Nat) (l : List Instr) : State := { r with turn := .event i k, inputs := l }

/-- Event `i` of item or unit `k` completes when it has the turn of `r`. -/
def Acts (r : State) (i : Instr) (k : Nat) : Prop := ∀ l, Completes (exec i (turned r i k l))

/-- Every event of a part of the agenda does. -/
def AllAct (r : State) (ts : List Turn) : Prop := ∀ i k, .event i k ∈ ts → Acts r i k

theorem allAct_nil : AllAct r [] := fun _ _ h => nomatch h

theorem allAct_event (h : Acts r i k) : AllAct r [.event i k] := fun j m hm => by
  cases List.mem_singleton.mp hm
  exact h

/-- The turn of a unit or cell is no event. -/
theorem allAct_agent {t : Turn} (h : ∀ i k, t ≠ .event i k) : AllAct r [t] := fun i k hm => (h i k (List.mem_singleton.mp hm).symm).elim

theorem allAct_when {p : Bool} (h : p = true → Acts r i k) : AllAct r (when p i k) := by
  unfold when
  split
  case isTrue hp => exact allAct_event (h hp)
  case isFalse => exact allAct_nil

theorem allAct_append {a b : List Turn} (ha : AllAct r a) (hb : AllAct r b) : AllAct r (a ++ b) := fun j m h =>
  (List.mem_append.mp h).elim (ha j m) (hb j m)

theorem allAct_flatMap {α : Type} {l : List α} {f : α → List Turn} (h : ∀ x, x ∈ l → AllAct r (f x)) :
    AllAct r (l.flatMap f) := fun j m hm => by
  obtain ⟨x, hx, hf⟩ := List.mem_flatMap.mp hm
  exact h x hx j m hf

theorem allAct_ite {p : Prop} [Decidable p] {a b : List Turn} (ha : p → AllAct r a) (hb : ¬p → AllAct r b) : AllAct r (if p then a else b) := by
  split
  case isTrue h => exact ha h
  case isFalse h => exact hb h

/-- An answer by two conditions. -/
theorem completes_if_pos {p : Prop} [Decidable p] {t : State} {o : Out State} (h : p) : Completes (if p then .next t else o) := ⟨t, if_pos h⟩

theorem completes_pos {p : Prop} [Decidable p] {o q : Out State} (h : p) (ho : Completes o) : Completes (if p then o else q) := by
  rw [if_pos h]
  exact ho

theorem completes_unless {b : Bool} {o p : Out State} (h : b = true) (hp : Completes p) : Completes (if !b then o else p) := by
  rw [h]
  exact hp

theorem turnWork_turned {w : Work} (h : workAt r k = some w) (l : List Instr) : turnWork (turned r i k l) = some (k, w) :=
  congrArg (Option.map _) h

/-! A demand's parts come of a walk, which hands the state on: of it only the turn differs. -/

theorem walkCheck_turned (l : List Instr) (src : Src) (a : Acs) (va n : Nat) :
    walkCheck (turned r i k l) src a va n = walkCheck r src a va n := rfl

theorem map_fst_bind_cons {ε α β : Type} (x : α) (m : Except ε (List α × β)) :
    (m >>= fun q => .ok (x :: q.1, q.2)).map Prod.fst = (m.map Prod.fst).map (x :: ·) := by
  cases m <;> rfl

/-- The bits that a job without a stream finds do not depend on the turn. -/
theorem jobPages_turned (l : List Instr) (src : Src) (a : Acs) (ps : List (Nat × Nat × Nat)) :
    (jobPages none src a (turned r i k l) ps).map Prod.fst = (jobPages none src a r ps).map Prod.fst := by
  induction ps with
  | nil => rfl
  | cons p ps ih =>
    simp only [jobPages, jobAt, walkCheck_turned]
    cases walkCheck r src a (p.1 / 8) (byteSpan p.1 p.2.1) with
    | error t => rfl
    | ok pa =>
      exact (map_fst_bind_cons _ _).trans ((congrArg _ ih).trans (map_fst_bind_cons _ _).symm)

theorem demandParts_turned (l : List Instr) (d : Demand) : demandParts (turned r i k l) d = demandParts r d := by
  unfold demandParts
  dsimp only
  refine congrArg (fun f => List.mapM f _) (funext fun e => ?_)
  cases (recOf d.rcd).elem e with
  | error t => rfl
  | ok b =>
    cases b with
    | outside => rfl
    | at_ b => exact jobPages_turned l d.src .read _

theorem landable_turned (l : List Instr) (d : Demand) : landable (turned r i k l) d = landable r d := by
  unfold landable ownWriteBefore
  simp only [demandParts_turned]
  rfl

theorem convEnds_turned (l : List Instr) (n : Nat) : convEnds (turned r i k l) n = convEnds r n := by
  unfold convEnds
  simp only [landable_turned]
  rfl

/-! ### Pending work -/

theorem acts_token {c : Nat} {x : Token} (hw : workAt r k = some (.token c x)) (h : (routeFree r k x.route && tokenRoom r c x) = true) :
    Acts r (if isBound (getCell r c) x then .counterBound else .tokenArrival) k := by
  by_cases hb : isBound (getCell r c) x = true
  · rw [if_pos hb]
    intro l
    change Completes (execCounterBound _)
    rw [execCounterBound, ← turnWork, turnWork_turned hw]
    exact completes_if_pos (Bool.and_eq_true_iff.mpr ⟨h, hb⟩)
  · rw [if_neg hb]
    intro l
    change Completes (execTokenArrival _)
    rw [execTokenArrival, ← turnWork, turnWork_turned hw]
    exact completes_if_pos h

theorem acts_predicate {c : Nat} {x : Token} (hw : workAt r k = some (.predicate c x)) (h : (routeFree r k x.route && tokenRoom r c x) = true) :
    Acts r .predicateArrival k := fun l => by
  change Completes (execPredicateArrival _)
  rw [execPredicateArrival, ← turnWork, turnWork_turned hw]
  exact completes_if_pos h

theorem acts_fill {c j : Nat} {v : Reg} {e : Bool} (hw : workAt r k = some (.fill c j v e)) : Acts r .fillLand k := fun l => by
  change Completes (execFillLand _)
  rw [execFillLand, ← turnWork, turnWork_turned hw]
  exact ⟨_, rfl⟩

theorem acts_check {f : InFlight} (hw : workAt r k = some (.check f)) : Acts r .ownerCheck k := fun l => by
  change Completes (execOwnerCheck _)
  rw [execOwnerCheck, turnWork_turned hw]
  exact ⟨_, rfl⟩

theorem acts_store {a : Acc} (hw : workAt r k = some (.store a)) (h : inTurn r k a = true) : Acts r .storePerform k := fun l => by
  change Completes (execStorePerform _)
  rw [execStorePerform, turnWork_turned hw]
  exact completes_if_pos h

theorem acts_atomic {a : Acc} (hw : workAt r k = some (.atomic a)) (h : inTurn r k a = true) : Acts r .atomicApply k := fun l => by
  change Completes (execAtomicApply _)
  rw [execAtomicApply, turnWork_turned hw]
  exact completes_if_pos h

theorem acts_done {w : Work} (hd : (∃ d x t a o, w = .done d x t a o) ∨ ∃ n d x t os, w = .closeDone n d x t os) (hw : workAt r k = some w)
    (h : doneReady r k = true) : Acts r .doneToken k := fun l => by
  change Completes (execDoneToken _)
  rw [execDoneToken, turnWork_turned hw]
  refine completes_unless h ?_
  rcases hd with ⟨d, x, t, a, o, rfl⟩ | ⟨n, d, x, t, os, rfl⟩ <;> exact ⟨_, rfl⟩

theorem acts_contrib {a : Acc} {o : Nat} (hw : workAt r k = some (.contrib a o)) (h : contribReady r k = true) :
    Acts r .seqContribution k := fun l => by
  change Completes (execSeqContribution _)
  rw [execSeqContribution, turnWork_turned hw]
  refine completes_unless h ?_
  dsimp only
  split <;> exact ⟨_, rfl⟩

theorem acts_close {a : Acc} {o q : Nat} {b : Option (Nat × Nat)} {n : Nat} (hw : workAt r k = some (.close a o q b n)) (h : closeReady r k = true) :
    Acts r .seqClose k := fun l => by
  change Completes (execSeqClose _)
  rw [execSeqClose, turnWork_turned hw]
  refine completes_unless h ?_
  dsimp only
  split <;> exact ⟨_, rfl⟩

theorem acts_copyStart {j : CopyJob} (hw : workAt r k = some (.copy j)) (h : (startPort r k).isSome = true) : Acts r .copyJobStart k := fun l => by
  obtain ⟨p, hp⟩ := Option.isSome_iff_exists.mp h
  have harg : turnArg (turned r .copyJobStart k l) = some k := rfl
  have hport : startPort (turned r .copyJobStart k l) k = some p := hp
  have hitem : workAt (turned r .copyJobStart k l) k = some (.copy j) := hw
  change Completes (execCopyJobStart _)
  simp only [execCopyJobStart, harg, hport, hitem, Option.bind_some, Option.map_some]
  split <;> split <;> exact ⟨_, rfl⟩

theorem acts_copyRun {j : CopyJob} (hw : workAt r k = some (.copy j)) (h : copyRuns r k = true) : Acts r .copyElement k := fun l => by
  change Completes (execCopyElement _)
  rw [execCopyElement, turnWork_turned hw]
  refine completes_unless h ?_
  dsimp only
  split <;> exact ⟨_, rfl⟩

theorem acts_copyEnd {j : CopyJob} (hw : workAt r k = some (.copy j)) (h : copyEnds r k = true) : Acts r .copyJobComplete k := fun l => by
  change Completes (execCopyJobComplete _)
  rw [execCopyJobComplete, turnWork_turned hw]
  exact completes_unless h ⟨_, rfl⟩

theorem acts_bar {x : Src} {op pa n va : Nat} (hw : workAt r k = some (.bar x op pa n va)) (h : barReady r k = true) :
    Acts r .barrierUpdate k := fun l => by
  change Completes (execBarrierUpdate _)
  rw [execBarrierUpdate, turnWork_turned hw]
  exact completes_unless h ⟨_, rfl⟩

theorem acts_demand {d : Demand} (hw : workAt r k = some (.demand d)) (h : demandTaken r k = true) : Acts r .conversionDemand k := fun l => by
  change Completes (execConversionDemand _)
  rw [execConversionDemand, turnWork_turned hw]
  refine completes_unless h ?_
  dsimp only
  split <;> exact ⟨_, rfl⟩

theorem acts_convStart {w : Work} {j : ConvJob} (hj : w = .conv j ∨ w = .coll j) (hw : workAt r k = some w) (h : convStarts r k = true) :
    Acts r .conversionStart k := fun l => by
  change Completes (execConversionStart _)
  rw [execConversionStart, turnWork_turned hw]
  refine completes_unless h ?_
  rcases hj with rfl | rfl
  all_goals
    dsimp only
    split
    · exact ⟨_, rfl⟩
    · split <;> exact ⟨_, rfl⟩

theorem acts_convEnd {w : Work} (hj : (∃ j, w = .conv j) ∨ ∃ d, w = .waiting d) (hw : workAt r k = some w) (h : convEnds r k = true) :
    Acts r .conversionComplete k := fun l => by
  change Completes (execConversionComplete _)
  rw [execConversionComplete, turnWork_turned hw]
  refine completes_unless ((convEnds_turned l k).trans h) ?_
  rcases hj with ⟨j, rfl⟩ | ⟨d, rfl⟩ <;> exact ⟨_, rfl⟩

theorem acts_collEnd {j : ConvJob} (hw : workAt r k = some (.coll j)) (h : collEnds r k = true) : Acts r .collectiveComplete k := fun l => by
  change Completes (execCollectiveComplete _)
  rw [execCollectiveComplete, turnWork_turned hw]
  exact completes_unless h ⟨_, rfl⟩

/-- A packet that a node combines has its sibling at the node. -/
theorem siblingOf_of_packetTaken {p : Packet} (hw : workAt r k = some (.packet p)) (h : packetTaken r k = true) (hp : packetPasses r p = false)
    (hc : p.combines = true) : (siblingOf r k p).isSome = true := by
  simp only [packetTaken, hw, hp, hc, Bool.false_or, if_true, Bool.and_eq_true] at h
  exact h.2

theorem acts_packet {p : Packet} (hw : workAt r k = some (.packet p)) (h : packetTaken r k = true) : Acts r .conversionPacket k := fun l => by
  change Completes (execConversionPacket _)
  rw [execConversionPacket, turnWork_turned hw]
  refine completes_unless h ?_
  dsimp only
  split
  · exact ⟨_, rfl⟩
  rename_i hp
  split
  · rename_i hc
    obtain ⟨q, hq⟩ := Option.isSome_iff_exists.mp (siblingOf_of_packetTaken hw h (Bool.not_eq_true _ ▸ hp) hc)
    have hq' : siblingOf (turned r .conversionPacket k l) k p = some q := hq
    rw [hq']
    exact ⟨_, rfl⟩
  · split <;> exact ⟨_, rfl⟩

theorem acts_abort {p : Packet} (hw : workAt r k = some (.packet p)) (h : packetAborts r k = true) : Acts r .conversionAbort k := fun l => by
  change Completes (execConversionAbort _)
  rw [execConversionAbort, turnWork_turned hw]
  refine completes_unless h ?_
  dsimp only
  split
  · split
    · exact ⟨_, rfl⟩
    · split <;> exact ⟨_, rfl⟩
  · exact ⟨_, rfl⟩

theorem acts_rel {j : RelJob} (hw : workAt r k = some (.rel j)) (h : relReady r k false = true) : Acts r .relationJobBlock k := fun l => by
  change Completes (execRelationJobBlock _)
  rw [execRelationJobBlock, turnWork_turned hw]
  exact completes_unless h ⟨_, rfl⟩

theorem acts_relContrib {c : RelContrib} (hw : workAt r k = some (.relContrib c)) : Acts r .relationContribution k := fun l => by
  change Completes (execRelationContribution _)
  rw [execRelationContribution, turnWork_turned hw]
  exact ⟨_, rfl⟩

theorem acts_sort {j : SortJob} (hw : workAt r k = some (.sort j)) (h : sortReady r k = true) : Acts r .sortJobBlock k := fun l => by
  change Completes (execSortJobBlock _)
  rw [execSortJobBlock, turnWork_turned hw]
  exact completes_unless h ⟨_, rfl⟩

theorem acts_smc {u d code operand asn : Nat} (hw : workAt r k = some (.smc u d code operand asn)) (h : smcDrained r u code operand asn = true) :
    Acts r .smcReply k := fun l => by
  change Completes (execSmcReply _)
  rw [execSmcReply, turnWork_turned hw]
  dsimp only
  rw [if_pos (show smcDrained (turned r .smcReply k l) u code operand asn = true from h)]
  split <;> exact ⟨_, rfl⟩

theorem acts_walk {n asn va : Nat} {b : Bool} (hw : workAt r k = some (.walk n asn va b)) : Acts r .pageWalk k := fun l => by
  change Completes (execPageWalk _)
  rw [execPageWalk, turnWork_turned hw]
  dsimp only
  split <;> exact ⟨_, rfl⟩

end Sys2Proof.Machine
end

section
/-! The agenda: every event in it completes, and so does an input that may happen. -/

namespace Sys2Proof.Machine
open Sys2Proof.Claims

variable {s r : State} {i : Instr} {k : Nat}

theorem acts_round {j : RelJob} (hw : workAt r k = some (.rel j)) (h : relReady r k true = true) : Acts r .rrndRoundClose k := fun l => by
  change Completes (execRrndRoundClose _)
  rw [execRrndRoundClose, turnWork_turned hw]
  refine completes_unless h ?_
  dsimp only
  split
  · split
    · exact ⟨_, rfl⟩
    · split <;> exact ⟨_, rfl⟩
  · rename_i hop
    rw [relReady, hw] at h
    dsimp only at h
    split at h
    · rename_i ho
      exact absurd ho (hop _ _)
    · simp at h
    · simp at h

/-- Every event of an item of the pending work completes. -/
theorem allAct_workTurns {w : Work} (hw : workAt r k = some w) : AllAct r (workTurns r k w) := by
  cases w with
  | token => exact allAct_when fun h => acts_token hw h
  | predicate => exact allAct_when fun h => acts_predicate hw h
  | fill => exact allAct_when fun _ => acts_fill hw
  | check => exact allAct_when fun _ => acts_check hw
  | store => exact allAct_when fun h => acts_store hw h
  | atomic => exact allAct_when fun h => acts_atomic hw h
  | done => exact allAct_when fun h => acts_done (.inl ⟨_, _, _, _, _, rfl⟩) hw h
  | closeDone => exact allAct_when fun h => acts_done (.inr ⟨_, _, _, _, _, rfl⟩) hw h
  | contrib => exact allAct_when fun h => acts_contrib hw h
  | close => exact allAct_when fun h => acts_close hw h
  | copy =>
    exact allAct_append (allAct_append (allAct_when fun h => acts_copyStart hw h) (allAct_when fun h => acts_copyRun hw h))
      (allAct_when fun h => acts_copyEnd hw h)
  | bar => exact allAct_when fun h => acts_bar hw h
  | demand => exact allAct_when fun h => acts_demand hw h
  | conv => exact allAct_append (allAct_when fun h => acts_convStart (.inl rfl) hw h) (allAct_when fun h => acts_convEnd (.inl ⟨_, rfl⟩) hw h)
  | waiting => exact allAct_when fun h => acts_convEnd (.inr ⟨_, rfl⟩) hw h
  | packet => exact allAct_append (allAct_when fun h => acts_packet hw h) (allAct_when fun h => acts_abort hw h)
  | coll => exact allAct_append (allAct_when fun h => acts_convStart (.inr rfl) hw h) (allAct_when fun h => acts_collEnd hw h)
  | rel => exact allAct_append (allAct_when fun h => acts_rel hw h) (allAct_when fun h => acts_round hw h)
  | relContrib => exact allAct_when fun _ => acts_relContrib hw
  | sort => exact allAct_when fun h => acts_sort hw h
  | smc => exact allAct_when fun h => acts_smc hw h
  | walk => exact allAct_when fun _ => acts_walk hw

/-! ### Units -/

/-- A unit that takes a record has one in its queue. -/
theorem queue_of_takesRecord {u : Nat} {x : Ctl} (h : takesRecord r u x = true) : ∃ e q, x.queue = e :: q := by
  cases hq : x.queue with
  | nil => simp [takesRecord, superReady, trapReady, hq] at h
  | cons e q => exact ⟨e, q, rfl⟩

theorem acts_trapTake {u : Nat} (h : takesRecord r u (getCtl r u) = true) : Acts r (if isCore u then .supervisorTrapTake else .trapTake) u := by
  obtain ⟨e, q, hq⟩ := queue_of_takesRecord h
  rw [takesRecord] at h
  split
  case isTrue hc =>
    intro l
    have hq' : (getCtl (turned r .supervisorTrapTake u l) u).queue = e :: q := hq
    rw [if_pos hc] at h
    change Completes (execSupervisorTrapTake (turned r .supervisorTrapTake u l))
    simp only [execSupervisorTrapTake, show turnArg (turned r .supervisorTrapTake u l) = some u from rfl, hq']
    exact completes_if_pos (Bool.and_eq_true_iff.mpr ⟨hc, h⟩)
  case isFalse hc =>
    intro l
    have hq' : (getCtl (turned r .trapTake u l) u).queue = e :: q := hq
    rw [if_neg hc, hq] at h
    change Completes (execTrapTake (turned r .trapTake u l))
    simp only [execTrapTake, show turnArg (turned r .trapTake u l) = some u from rfl, hq']
    refine completes_if_pos ?_
    rw [Bool.and_assoc]
    exact Bool.and_eq_true_iff.mpr ⟨by simpa using hc, h⟩

theorem acts_wfeTimeout {u : Nat} (h : timeoutDue r u = true) : Acts r .wfeTimeout u := fun _ => completes_if_pos h

theorem allAct_ctlTurns (u : Nat) : AllAct r (ctlTurns r u (getCtl r u)) :=
  allAct_append (allAct_ite (fun h => allAct_when fun _ => acts_trapTake h) fun _ => allAct_ite (fun _ => allAct_agent fun _ _ h => nomatch h) fun _ => allAct_nil)
    (allAct_when acts_wfeTimeout)

/-! ### Cells -/

theorem getCell_turned (l : List Instr) (c : Nat) : getCell (turned r i k l) c = getCell r c := rfl

theorem getCfg_turned (l : List Instr) (n : Nat) : getCfg (turned r i k l) n = getCfg r n := rfl

theorem matched_turned (l : List Instr) (x : Cell) : matched (turned r i k l) x = matched r x := rfl

theorem readyAt_turned (l : List Instr) (x : Cell) : readyAt (turned r i k l) x = readyAt r x := by
  unfold readyAt
  rw [matched_turned]
  rfl

theorem mayFire_turned (l : List Instr) (c ctx fr tag n : Nat) : mayFire (turned r i k l) c ctx fr tag n = mayFire r c ctx fr tag n := by
  simp only [mayFire, firingChoices, getCell_turned, getCfg_turned, readyAt_turned]

theorem acts_firing {c ctx fr tag : Nat} (h : mayFire r c ctx fr tag 1 = true) : Acts r (.firing c ctx fr tag) k := fun l => by
  change Completes (execFiring ..)
  refine completes_pos ((mayFire_turned l c ctx fr tag 1).trans h) ?_
  dsimp only
  split <;> exact ⟨_, rfl⟩

theorem acts_steer {c ctx fr tag : Nat} (h : mayFire r c ctx fr tag 2 = true) : Acts r (.steerFiring c ctx fr tag) k := fun l => by
  change Completes (execSteerFiring ..)
  refine completes_pos ((mayFire_turned l c ctx fr tag 2).trans h) ?_
  dsimp only
  split <;> exact ⟨_, rfl⟩

theorem acts_merge {c ctx fr tag : Nat} (h : mayFire r c ctx fr tag 3 = true) : Acts r (.mergeFiring c ctx fr tag) k := fun l => by
  change Completes (execMergeFiring ..)
  refine completes_pos ((mayFire_turned l c ctx fr tag 3).trans h) ?_
  dsimp only
  split <;> exact ⟨_, rfl⟩

theorem acts_counter {c ctx fr tag : Nat} (h : mayFire r c ctx fr tag 4 = true) : Acts r (.counterFiring c ctx fr tag) k := fun l => by
  change Completes (execCounterFiring ..)
  refine completes_pos ((mayFire_turned l c ctx fr tag 4).trans h) ?_
  dsimp only
  split <;> exact ⟨_, rfl⟩

theorem acts_memoryNode {c ctx fr tag : Nat} (h : mayFire r c ctx fr tag 5 = true) : Acts r (.memoryNodeFiring c ctx fr tag) k := fun l => by
  change Completes (execMemoryNodeFiring ..)
  refine completes_pos ((mayFire_turned l c ctx fr tag 5).trans h) ?_
  dsimp only
  split
  · exact ⟨_, rfl⟩
  · split <;> exact ⟨_, rfl⟩

theorem acts_reductionNode {c ctx fr tag : Nat} (h : mayFire r c ctx fr tag 6 = true) : Acts r (.reductionNodeFiring c ctx fr tag) k := fun l => by
  change Completes (execReductionNodeFiring ..)
  refine completes_pos ((mayFire_turned l c ctx fr tag 6).trans h) ?_
  dsimp only
  split
  · exact ⟨_, rfl⟩
  · split <;> exact ⟨_, rfl⟩

theorem mayFire_of_choice {c n : Nat} {q : Nat × Nat × Nat} (hk : (getCell r c).kind q.1 = n) (hq : q ∈ firingChoices r c) :
    mayFire r c q.1 q.2.1 q.2.2 n = true := by
  simp [mayFire, hk, hq]

theorem allAct_firingTurn {c : Nat} {q : Nat × Nat × Nat} (hq : q ∈ firingChoices r c) : AllAct r (firingTurn (getCell r c) c q) := by
  unfold firingTurn
  split
  case h_1 hk => exact allAct_when fun _ => acts_firing (mayFire_of_choice hk hq)
  case h_2 hk => exact allAct_when fun _ => acts_steer (mayFire_of_choice hk hq)
  case h_3 hk => exact allAct_when fun _ => acts_merge (mayFire_of_choice hk hq)
  case h_4 hk => exact allAct_when fun _ => acts_counter (mayFire_of_choice hk hq)
  case h_5 hk => exact allAct_when fun _ => acts_memoryNode (mayFire_of_choice hk hq)
  case h_6 hk => exact allAct_when fun _ => acts_reductionNode (mayFire_of_choice hk hq)
  case h_7 => exact allAct_nil

theorem acts_commit {c : Nat} {f : Firing} (hf : (getCell r c).firing = some f) (h : mayCommit r c f = true) : Acts r .outputCommit c := fun l => by
  have hf' : (getCell (turned r .outputCommit c l) c).firing = some f := hf
  change Completes (execOutputCommit _)
  simp only [execOutputCommit, show turnArg (turned r .outputCommit c l) = some c from rfl, Option.bind_some, hf', Option.map_some]
  exact completes_if_pos h

theorem acts_cellRetire {c : Nat} (h : (retiring r c).isSome = true) : Acts r .cellRetire c := fun l => by
  obtain ⟨⟨p, q⟩, hq⟩ := Option.isSome_iff_exists.mp h
  have hq' : retiring (turned r .cellRetire c l) c = some (p, q) := hq
  change Completes (execCellRetire _)
  simp only [execCellRetire, show turnArg (turned r .cellRetire c l) = some c from rfl, Option.bind_some, hq', Option.map_some]
  split
  · split <;> exact ⟨_, rfl⟩
  · exact ⟨_, rfl⟩

theorem allAct_cellTurns (c : Nat) : AllAct r (cellTurns r c (getCell r c)) := by
  refine allAct_append ?_ (allAct_when acts_cellRetire)
  split
  case h_1 hf => exact allAct_append (allAct_ite (fun _ => allAct_agent fun _ _ h => nomatch h) fun _ => allAct_nil) (allAct_when fun h => acts_commit hf h)
  case h_2 => exact allAct_flatMap fun q hq => allAct_firingTurn hq

/-! ### The parts that stand alone -/

theorem acts_mtx {g : Nat} (h : (mtxReady r g).isSome = true) : Acts r .mtxCommandAtHead g := fun l => by
  obtain ⟨m, hm⟩ := Option.isSome_iff_exists.mp h
  have hm' : mtxReady (turned r .mtxCommandAtHead g l) g = some m := hm
  change Completes (execMtxCommandAtHead _)
  simp only [execMtxCommandAtHead, show turnArg (turned r .mtxCommandAtHead g l) = some g from rfl, Option.bind_some, hm', Option.map_some]
  split <;> exact ⟨_, rfl⟩

theorem acts_configCompletion {n : Nat} (h : (findCfg r n).any (mayComplete r) = true) : Acts r .configCompletion n := fun l => by
  obtain ⟨c, hc, hm⟩ := (Option.any_eq_true _ _).mp h
  have hc' : findCfg (turned r .configCompletion n l) n = some c := hc
  change Completes (execConfigCompletion _)
  simp only [execConfigCompletion, show turnArg (turned r .configCompletion n l) = some n from rfl, Option.bind_some, hc']
  exact completes_if_pos hm

theorem acts_heldState {n : Nat} (h : (findCfg r n).any (mayHold r) = true) : Acts r .heldState n := fun l => by
  obtain ⟨c, hc, hm⟩ := (Option.any_eq_true _ _).mp h
  have hc' : findCfg (turned r .heldState n l) n = some c := hc
  change Completes (execHeldState _)
  simp only [execHeldState, show turnArg (turned r .heldState n l) = some n from rfl, Option.bind_some, hc']
  exact completes_if_pos hm

theorem acts_ckptComplete {b : Nat} {c : Ckpt} (hc : ckptHead r b = some c) (h : c.pending = []) : Acts r .ckptComplete b := fun l => by
  have hc' : ckptHead (turned r .ckptComplete b l) b = some c := hc
  change Completes (execCkptComplete _)
  simp only [execCkptComplete, show turnArg (turned r .ckptComplete b l) = some b from rfl, Option.bind_some, hc', Option.map_some]
  exact completes_if_pos h

theorem acts_ckptCopy {b : Nat} (h : (ckptNext r b).isSome = true) : Acts r .ckptGranuleCopy b := fun l => by
  obtain ⟨q, hq⟩ := Option.isSome_iff_exists.mp h
  have hq' : ckptNext (turned r .ckptGranuleCopy b l) b = some q := hq
  change Completes (execCkptGranuleCopy _)
  simp only [execCkptGranuleCopy, show turnArg (turned r .ckptGranuleCopy b l) = some b from rfl, Option.bind_some, hq', Option.map_some]
  exact ⟨_, rfl⟩

theorem acts_telemetry {b : Nat} (hb : b < 4) (h : r.telbase ≠ 0) : Acts r .telemetryWrite b := fun _ => completes_if_pos ⟨hb, h⟩

theorem allAct_deviceTurns : AllAct r (deviceTurns r) := by
  refine allAct_append (allAct_append (allAct_append (allAct_append (allAct_append (allAct_append ?_ ?_) ?_) ?_) ?_) ?_) ?_
  · exact allAct_flatMap fun e _ => allAct_when acts_mtx
  · exact allAct_when fun h _ => completes_if_pos h
  · exact allAct_flatMap fun c _ => allAct_append (allAct_when acts_configCompletion) (allAct_when acts_heldState)
  · refine allAct_flatMap fun b _ => ?_
    split
    case h_1 hc => exact allAct_ite (fun h => allAct_when fun _ => acts_ckptComplete hc h) fun _ => allAct_when acts_ckptCopy
    case h_2 => exact allAct_nil
  · exact allAct_flatMap fun e _ => allAct_when fun h _ => completes_if_pos h
  · exact allAct_when fun h _ => completes_if_pos h
  · refine allAct_ite (fun _ => allAct_nil) fun h i k hm => ?_
    obtain ⟨b, hb, he⟩ := List.mem_map.mp hm
    cases he
    exact acts_telemetry (List.mem_range.mp hb) h

/-! ### Inputs -/

theorem flitArrives_completes {p vc : Nat} {f : BitVec 2048} {take : State → State} (h : flitDue s p vc f = true) :
    Completes (flitArrives p vc f s take) := by
  refine completes_unless h ?_
  split
  · exact ⟨_, rfl⟩
  · split <;> exact ⟨_, rfl⟩

/-- An input that may happen completes; a read of LAUNCHST waits for the doorbells before it (R455). -/
theorem acts_input (h : inputDue r i = true) (hl : i = .launchstRead → r.doorbells = []) : Acts r i k := by
  unfold inputDue at h
  split at h
  · cases beq_iff_eq.mp h
    exact fun _ => ⟨_, rfl⟩
  rename_i hp
  cases i with
  | flitData | flitAck | flitTimesync | flitManagement => exact fun _ => flitArrives_completes h
  | linkDown => exact fun _ => completes_if_pos (Bool.and_eq_true_iff.mp h |>.imp of_decide_eq_true id)
  | linkUp | clockChange => exact fun _ => completes_if_pos h
  | thermalStop => exact fun _ => completes_if_pos (of_decide_eq_true h)
  | launchDoorbell =>
    intro l
    change Completes (execLaunchDoorbell ..)
    unfold execLaunchDoorbell
    split
    · exact ⟨_, rfl⟩
    · split <;> exact ⟨_, rfl⟩
  | launchstRead => exact fun _ => ⟨_, exec_launchstRead (hl rfl)⟩
  | hostMemWrite => exact fun _ => completes_hostMemWrite ..
  | hostMemRead =>
    intro l
    change Completes (execHostMemRead ..)
    unfold execHostMemRead
    split <;> exact ⟨_, rfl⟩
  | warmReset =>
    intro l
    exact ⟨_, if_neg hp⟩
  | hbmRowRemap =>
    intro l
    change Completes (execHbmRowRemap ..)
    unfold execHbmRowRemap
    split <;> exact ⟨_, rfl⟩
  | coldReset | spdmAttestation | mgmtStandbyRequest | mgmtFirmwareImage | powerRemoval | scrubPass | serdesRecalibration => exact fun _ => ⟨_, rfl⟩
  | _ => cases h

theorem allAct_inputTurns (h : ∀ i ∈ r.inputs.head?, inputDue r i = true) : AllAct r (inputTurns r) := by
  unfold inputTurns
  split
  · rename_i l hl
    exact allAct_when fun hd => acts_input (h _ (by simp [hl])) fun _ => of_decide_eq_true hd
  · rename_i hne _
    exact allAct_when fun hd => acts_input hd fun he => (hne he).elim
  · exact allAct_nil

/-! ### The agenda -/

theorem allAct_agenda (h : ∀ i ∈ r.inputs.head?, inputDue r i = true) : AllAct r (agenda r) := by
  refine allAct_append (allAct_inputTurns h) (allAct_ite (fun _ => allAct_when fun hw _ => completes_if_pos hw) fun _ =>
    allAct_ite (fun _ => allAct_nil) fun _ => allAct_append (allAct_append (allAct_append ?_ ?_) ?_) allAct_deviceTurns)
  · exact allAct_flatMap fun e _ => allAct_ctlTurns e.1
  · exact allAct_flatMap fun e _ => allAct_ite (fun _ => allAct_nil) fun _ => allAct_cellTurns e.1
  · exact allAct_flatMap fun e he => allAct_workTurns (List.mem_zipIdx_iff_getElem?.mp he)

end Sys2Proof.Machine
end

section
/-! A ready machine is ready again after its step (R114, R212, R461). -/

namespace Sys2Proof.Machine
open Sys2Proof.Claims

variable {s : State} {i : Instr}

/-! ### The next turn -/

theorem giveTurn_turn (s : State) (t : Turn) : (giveTurn s t).turn = t := by
  cases t <;> rfl

/-- The turn goes to one of the agenda, or to nobody. -/
theorem pick_mem (s : State) (l : List Turn) : pick s l = .idle ∨ pick s l ∈ l := by
  unfold pick
  split
  case isTrue => exact .inl rfl
  case isFalse h =>
    have hlt := Nat.mod_lt (Config.choice s.tick) (List.length_pos_iff.mpr h)
    rw [List.getD_eq_getElem _ _ hlt]
    exact .inr (List.getElem_mem hlt)

theorem power_of_clockDue {mhz temp : Nat} (h : clockDue s mhz temp = true) : s.power = .pw0 := by
  simp only [clockDue, Bool.and_eq_true, beq_iff_eq] at h
  exact h.1.1.1

/-- Idleness ends PW1 only, and no input that may happen waits for that: a clock change is one of PW0. -/
theorem inputDue_idleness (h : inputDue s i = true) : inputDue (idleness s) i = true := by
  unfold idleness
  split
  case isFalse => exact h
  case isTrue hp =>
    split
    case isFalse => exact h
    case isTrue =>
      have hs : ¬ (s.power = .pw3 ∨ s.power = .hot) := by rcases hp with hp | hp <;> simp [hp]
      unfold inputDue at h ⊢
      rw [if_neg hs] at h
      rw [if_neg (by simp)]
      cases i with
      | clockChange mhz temp =>
        have hpow : s.power = .pw0 := power_of_clockDue h
        unfold clockDue at h ⊢
        rwa [hpow] at h
      | _ => exact h

theorem inputs_idleness (s : State) : (idleness s).inputs = s.inputs := by
  unfold idleness
  split
  · split <;> rfl
  · rfl

/-- What cannot happen at the head of the inputs never reached the device (log entry 2). -/
theorem inputDue_arrived (s : State) (o : Option Instr) : ∀ i ∈ (arrived s o).inputs.head?, inputDue (arrived s o) i = true := by
  intro i hi
  have h := List.head?_dropWhile_not (fun j => !inputDue { s with inputs := s.inputs ++ o.toList.filter external } j)
    (s.inputs ++ o.toList.filter external)
  have hi' : (List.dropWhile (fun j => !inputDue { s with inputs := s.inputs ++ o.toList.filter external } j)
      (s.inputs ++ o.toList.filter external)).head? = some i := hi
  rw [hi'] at h
  exact (by simpa using h : inputDue { s with inputs := s.inputs ++ o.toList.filter external } i = true)

/-- After every step the machine is ready. -/
theorem ready_afterStep (s : State) : Ready (afterStep s) := by
  refine ⟨idleness (timePasses s), ?_, ?_, fun i hi => inputDue_idleness (inputDue_arrived _ _ i ?_)⟩
  · rw [afterStep, giveTurn_turn]
    exact pick_mem _ _
  · rw [afterStep, giveTurn_turn]
  · rwa [inputs_idleness] at hi

/-! ### The step -/

theorem step_of_completes (hp : unpowered s = false) (hd : due s = .run i) (h : Completes (exec i s)) : ∃ t, step s = .next (afterStep t) := by
  obtain ⟨t, ht⟩ := h
  exact ⟨t, by rw [step_of_due_run hp hd, ht]; rfl⟩

theorem step_of_due_go {t : State} (hp : unpowered s = false) (h : due s = .go t) : step s = .next (afterStep t) := by
  simp [step, hp, h]

/-- What is due in a ready machine completes. -/
theorem due_completes (h : Ready s) (hd : due s = .run i) : Completes (exec i s) := by
  obtain ⟨r, hturn, hs, hin⟩ := h
  cases ht : s.turn with
  | ctl u => exact ctlDue_completes ht (due_ctl ht ▸ hd)
  | cell c => exact cellDue_completes ht (due_cell ht ▸ hd)
  | idle => simp [due, ht] at hd
  | event j k =>
    rw [ht] at hs hturn
    have hj : j = i := by simpa [due, ht] using hd
    rw [hs, ← hj]
    exact allAct_agenda hin j k (hturn.resolve_left nofun) _

/-- Settles O6: what is due completes (`due_completes`), and what follows every step leaves the machine ready (`ready_afterStep`). -/
theorem readyStepsComplete : Obligations.ReadyStepsComplete := by
  intro s h
  by_cases hp : unpowered s = true
  · exact .inr ⟨hp, by simp [step, hp]⟩
  have hp' := Bool.not_eq_true _ ▸ hp
  have hstep : ∃ t, step s = .next (afterStep t) := by
    cases hd : due s with
    | run i => exact step_of_completes hp' hd (due_completes h hd)
    | go t => exact ⟨t, step_of_due_go hp' hd⟩
  obtain ⟨t, ht⟩ := hstep
  exact .inl ⟨_, ht, ready_afterStep t⟩

end Sys2Proof.Machine
end

section
/-! The events of a store (R207, R212, R226): an element's naturally aligned pieces, and which event may come next. -/

namespace Sys2Proof.Machine

variable {x y : Piece}

/-! ### Naturally aligned pieces of an element (R226) -/

theorem alignedBits_le (b len : Nat) : alignedBits b len ≤ len := by
  unfold alignedBits
  split_ifs <;> omega

/-- A piece as long as one event touches is one event. -/
theorem alignedBits_alignedBits (b len : Nat) : alignedBits b (alignedBits b len) = alignedBits b len := by
  simp only [alignedBits]
  split_ifs <;> omega

/-- Of an element that starts at a byte and is a byte or more, whole bytes. -/
theorem alignedBits_bytes {b len : Nat} (hb : b % 8 = 0) (hl : 8 ≤ len) : 8 ≤ alignedBits b len ∧ alignedBits b len % 8 = 0 := by
  unfold alignedBits
  split_ifs <;> omega

/-- Of an element that does not start at a byte or is shorter than one, what lies in one byte. -/
theorem alignedBits_unaligned {b len : Nat} (h : b % 8 ≠ 0 ∨ len < 8) : alignedBits b len = min len (8 - b % 8) := if_pos h

/-- The first aligned piece of an element, and what is left of it. -/
def firstPiece (x : Piece) : Piece := { x with len := alignedBits x.bit x.len, val := x.val % 2 ^ alignedBits x.bit x.len }

def restPiece (x : Piece) : Piece :=
  let n := alignedBits x.bit x.len
  { x with bit := x.bit + n, len := x.len - n, va := x.va + (x.bit % 8 + n) / 8, val := x.val >>> n, val2 := x.val2 + n }

theorem splitPiece_succ (m : Nat) (x : Piece) :
    splitPiece (m + 1) x = if x.len ≤ alignedBits x.bit x.len then [x] else firstPiece x :: splitPiece m (restPiece x) := rfl

/-- `y` is a naturally aligned part of `x`, with its bits of the value. -/
def AlignedPart (x y : Piece) : Prop :=
  y.len = alignedBits y.bit y.len ∧ x.bit ≤ y.bit ∧ y.bit + y.len ≤ x.bit + x.len ∧ ∀ n, n < y.len → bit y.val n = bit x.val (y.bit - x.bit + n)

theorem alignedPart_self (h : x.len ≤ alignedBits x.bit x.len) : AlignedPart x x :=
  ⟨Nat.le_antisymm h (alignedBits_le ..), Nat.le_refl _, Nat.le_refl _, fun n _ => by rw [Nat.sub_self, Nat.zero_add]⟩

theorem alignedPart_first (x : Piece) : AlignedPart x (firstPiece x) := by
  refine ⟨(alignedBits_alignedBits ..).symm, Nat.le_refl _, Nat.add_le_add_left (alignedBits_le ..) _, fun n hn => ?_⟩
  have hn' : n < alignedBits x.bit x.len := hn
  change (x.val % 2 ^ alignedBits x.bit x.len).testBit n = x.val.testBit (x.bit - x.bit + n)
  rw [Nat.testBit_mod_two_pow, decide_eq_true hn', Bool.true_and, Nat.sub_self, Nat.zero_add]

theorem AlignedPart.of_rest (h : AlignedPart (restPiece x) y) : AlignedPart x y := by
  obtain ⟨hlen, hlo, hhi, hval⟩ := h
  have hle := alignedBits_le x.bit x.len
  dsimp only [restPiece] at hlo hhi hval
  refine ⟨hlen, by omega, by omega, fun n hn => (hval n hn).trans ?_⟩
  rw [bit, Nat.testBit_shiftRight, bit]
  congr 1
  omega

/-- Enough parts: one for what comes before the first byte, one for each whole byte, and one for what is left. -/
def EnoughParts (m : Nat) (x : Piece) : Prop := if x.bit % 8 = 0 then x.len / 8 + 1 ≤ m else x.len / 8 + 2 ≤ m

theorem enoughParts_rest {m : Nat} (h : EnoughParts (m + 1) x) (hx : ¬ x.len ≤ alignedBits x.bit x.len) : EnoughParts m (restPiece x) := by
  dsimp only [EnoughParts, restPiece] at h ⊢
  by_cases hu : x.bit % 8 ≠ 0 ∨ x.len < 8
  · rw [alignedBits_unaligned hu] at hx ⊢
    split_ifs at h ⊢ <;> omega
  · obtain ⟨h8, hmod⟩ := alignedBits_bytes (b := x.bit) (len := x.len) (by omega) (by omega)
    split_ifs at h ⊢ <;> omega

/-- Every part of a split element is a naturally aligned part of it. -/
theorem alignedPart_of_mem {m : Nat} (hm : EnoughParts m x) (hy : y ∈ splitPiece m x) : AlignedPart x y := by
  induction m generalizing x with
  | zero =>
    unfold EnoughParts at hm
    split_ifs at hm <;> omega
  | succ m ih =>
    rw [splitPiece_succ] at hy
    split at hy
    case isTrue h =>
      cases List.mem_singleton.mp hy
      exact alignedPart_self h
    case isFalse h =>
      rcases List.mem_cons.mp hy with rfl | hy
      · exact alignedPart_first x
      · exact (ih (enoughParts_rest hm h) hy).of_rest

/-- Every bit of an element is in one of its parts. -/
theorem splitPiece_covers (m : Nat) (x : Piece) {n : Nat} (hn : n < x.len) : ∃ y, y ∈ splitPiece m x ∧ y.bit ≤ x.bit + n ∧ x.bit + n < y.bit + y.len := by
  induction m generalizing x n with
  | zero => exact ⟨x, List.mem_singleton_self x, by omega, by omega⟩
  | succ m ih =>
    rw [splitPiece_succ]
    split
    case isTrue => exact ⟨x, List.mem_singleton_self x, by omega, by omega⟩
    case isFalse =>
      by_cases hf : n < alignedBits x.bit x.len
      · exact ⟨firstPiece x, List.mem_cons_self, Nat.le_add_right .., Nat.add_lt_add_left hf _⟩
      · have hle := alignedBits_le x.bit x.len
        obtain ⟨y, hy, hlo, hhi⟩ := ih (restPiece x) (n := n - alignedBits x.bit x.len) (by dsimp only [restPiece]; omega)
        dsimp only [restPiece] at hlo hhi
        exact ⟨y, List.mem_cons_of_mem _ hy, by omega, by omega⟩

theorem splitPiece_ne_nil (m : Nat) (x : Piece) : splitPiece m x ≠ [] := by
  cases m with
  | zero => simp [splitPiece]
  | succ m =>
    rw [splitPiece_succ]
    split <;> simp

/-! ### Which event comes next (R207, R212) -/

theorem mem_nextEvents {es : List (List Piece)} {i : Nat} :
    i ∈ nextEvents es ↔ i < es.length ∧ ∀ e ∈ es.take i, piecesMeet e (es.getD i []) = false := by
  simp [nextEvents]

/-- One of the events that may come next does. -/
theorem nextEvent_mem (tick : Nat) {es : List (List Piece)} (h : es ≠ []) : nextEvent tick es ∈ nextEvents es := by
  unfold nextEvent
  dsimp only
  split
  case isTrue => exact mem_nextEvents.mpr ⟨List.length_pos_iff.mpr h, by simp⟩
  case isFalse hl =>
    have hlt := Nat.mod_lt (Config.element tick) (show 0 < (nextEvents es).length by omega)
    rw [List.getD_eq_getElem _ _ hlt]
    exact List.getElem_mem hlt

/-- Events of one piece each. -/
def singles (l : List Piece) : List (List Piece) := l.map fun y => [y]

theorem flatten_singles (l : List Piece) : (singles l).flatten = l := by
  induction l with
  | nil => rfl
  | cons y l ih => exact congrArg (y :: ·) ih

theorem eraseIdx_singles (l : List Piece) (i : Nat) : (singles l).eraseIdx i = singles (l.eraseIdx i) := by
  induction l generalizing i with
  | nil => rfl
  | cons y l ih =>
    cases i with
    | zero => rfl
    | succ i => exact congrArg ([y] :: ·) (ih i)

/-- Of events of one piece each, the next is one that shares no bit with one before it. -/
theorem nextEvent_singles (tick : Nat) {l : List Piece} (h : l ≠ []) :
    ∃ y, l[nextEvent tick (singles l)]? = some y ∧ (singles l).getD (nextEvent tick (singles l)) [] = [y] ∧
      ∀ j z, j < nextEvent tick (singles l) → l[j]? = some z → piecesMeet [z] [y] = false := by
  obtain ⟨hlt, hfree⟩ := mem_nextEvents.mp (nextEvent_mem tick (es := singles l) (by simpa [singles] using h))
  generalize nextEvent tick (singles l) = i at hlt hfree
  have hi : i < l.length := by simpa [singles] using hlt
  have hget : (singles l).getD i [] = [l[i]] := by simp [singles, hi]
  refine ⟨l[i], List.getElem?_eq_getElem hi, hget, fun j z hj hz => ?_⟩
  rw [hget] at hfree
  refine hfree [z] (List.mem_of_getElem? (i := j) ?_)
  rw [List.getElem?_take_of_lt hj, singles, List.getElem?_map, hz]
  rfl

/-- The pieces that the events of a store are made of, where it is not one event as a whole. -/
def Acc.parts (a : Acc) : List Piece := if a.begun then a.pieces else a.pieces.flatMap fun y => splitPiece (y.len / 8 + 2) y

theorem parts_ne_nil {a : Acc} (h : a.pieces ≠ []) : a.parts ≠ [] := by
  unfold Acc.parts
  split
  · exact h
  · obtain ⟨y, l, hl⟩ := List.exists_cons_of_ne_nil h
    rw [hl, List.flatMap_cons]
    exact List.append_ne_nil_of_left_ne_nil (splitPiece_ne_nil _ y) _

/-- An access that has begun, or that may tear, is events of one part each. -/
theorem events_parts {a : Acc} (h : a.begun = true ∨ wholeAccess a.pieces = false) : a.events = singles a.parts := by
  unfold Acc.events Acc.parts
  split
  case isTrue => rfl
  case isFalse hb =>
    rw [eventsOf, if_neg (by rw [h.resolve_left hb]; exact Bool.false_ne_true), singles, List.map_flatMap]

/-- An access that never tears is one event (R226). -/
theorem split_whole {a : Acc} (n : Nat) (hb : a.begun = false) (hw : wholeAccess a.pieces = true) : a.split n = (a.pieces, []) := by
  have he : a.events = [a.pieces] := by rw [Acc.events, hb, if_neg Bool.false_ne_true, eventsOf, if_pos hw]
  have hi := (mem_nextEvents.mp (nextEvent_mem n (es := [a.pieces]) (by simp))).1
  have h0 : nextEvent n [a.pieces] = 0 := by simpa using hi
  rw [Acc.split, he, h0]
  rfl

/-- Any other is performed part by part, the next sharing no bit with one before it. -/
theorem split_parts {a : Acc} (n : Nat) (hp : a.pieces ≠ []) (h : a.begun = true ∨ wholeAccess a.pieces = false) :
    ∃ i y, a.parts[i]? = some y ∧ a.split n = ([y], a.parts.eraseIdx i) ∧ ∀ j z, j < i → a.parts[j]? = some z → piecesMeet [z] [y] = false := by
  obtain ⟨y, hy, hget, hfree⟩ := nextEvent_singles n (parts_ne_nil hp)
  refine ⟨_, y, hy, ?_, hfree⟩
  rw [Acc.split, events_parts h, hget, eraseIdx_singles, flatten_singles]

end Sys2Proof.Machine
end

section
/-! Checks at the owners (R227, R228). -/

namespace Sys2Proof.Machine
open Sys2Proof.Claims

variable {s t : State} {k c : Nat} {i : Instr} {w : Work} {me : InFlight} {g : Firing}

/-- The item that has the turn. -/
theorem turnArg_ev (h : Ev s i k) : turnArg s = some k := by simp only [turnArg, show s.turn = .event i k from h]

theorem turnWork_due (h : WorkDue s i k w) : turnWork s = some (k, w) := by
  simp only [turnWork, turnArg_ev h.1, Option.bind_some, h.2, Option.map_some]

/-! ### Checks -/

theorem exec_ownerCheck (h : WorkDue s .ownerCheck k (.check me)) : exec .ownerCheck s = .next (ownerCheck (dropWork s k) me) := by
  change execOwnerCheck s = _
  rw [execOwnerCheck, turnWork_due h]

/-- A cell on which nothing has been caught goes on. -/
theorem settleFiring_quiet (h : ∀ g, (getCell s c).firing = some g → g.race = none ∧ g.fault = none) : settleFiring s c = s := by
  cases hf : (getCell s c).firing with
  | none => simp only [settleFiring, hf]
  | some g => exact settleFiring_clear hf (h g hf).1 (h g hf).2

/-- A race withdraws its firing once every earlier check has returned. -/
theorem settleFiring_race {e : Trap} {x : Src} {n : Nat} (hf : (getCell s c).firing = some g) (hr : g.race = some (n, e, x)) (hp : g.phase ≠ .committing)
    (hc : checksBefore s g.uid n = false) : settleFiring s c = takeFiringTrap s c g e x := by
  simp only [settleFiring, hf, hr]
  exact if_neg (by simp [hp, hc])

/-- What precedes a command says nothing else about its issuer. -/
theorem checkPast_issuer (s : State) (me : InFlight) :
    (checkPast s me).src.who = me.src.who ∧ (checkPast s me).src.uid = me.src.uid ∧ (checkPast s me).src.word = me.src.word := by
  have hstamp : ∀ past, (me.src.stamp past).who = me.src.who ∧ (me.src.stamp past).uid = me.src.uid ∧ (me.src.stamp past).word = me.src.word := fun past => by
    unfold Src.stamp
    split <;> exact ⟨rfl, rfl, rfl⟩
  unfold checkPast
  split
  · exact ⟨rfl, rfl, rfl⟩
  · split
    · split
      · exact hstamp _
      · exact ⟨rfl, rfl, rfl⟩
    · exact ⟨rfl, rfl, rfl⟩

theorem checkPast_access (h : me.kind = .store ∨ me.kind = .atomic) : checkPast s me = me := if_pos (by rcases h with h | h <;> simp [h])

theorem checkPast_kind (s : State) (me : InFlight) : (checkPast s me).kind = me.kind := by
  unfold checkPast
  split
  · rfl
  · split
    · split <;> rfl
    · rfl

/-- A check that meets nothing puts a store or atomic in flight. -/
theorem ownerCheck_clear (h : raceOf s (checkPast s me) = none) (hq : ∀ g, (getCell s me.src.who).firing = some g → g.race = none ∧ g.fault = none) :
    ownerCheck s me = { s with inflight := s.inflight ++ if me.kind = .store ∨ me.kind = .atomic then [me] else [] } := by
  obtain ⟨hwho, -, -⟩ := checkPast_issuer s me
  have hs : ownerCheck s me = settleFiring (if me.kind = .store ∨ me.kind = .atomic then { s with inflight := s.inflight ++ [checkPast s me] } else s) me.src.who := by
    simp only [ownerCheck, h, hwho, checkPast_kind]
  rw [hs]
  split
  case isTrue hk =>
    rw [checkPast_access hk]
    exact settleFiring_quiet hq
  case isFalse =>
    rw [List.append_nil]
    exact settleFiring_quiet hq

/-- The race that the check of a firing's word meets is noted at the firing. -/
theorem firing_noteRace {x : Src} {e : Trap} (hf : (getCell s x.who).firing = some g) (hu : g.uid = x.uid) (hr : g.race = none) :
    (getCell (noteRace s x e) x.who).firing = some { g with race := some (x.word, e, x) } := by
  rw [noteRace, getCell_modCell, if_pos rfl]
  simp [hf, hu, hr]

/-- A race withdraws its firing (R228): its inputs return, and memory is as it was. -/
theorem ownerCheck_race {e : Trap} (h : raceOf s (checkPast s me) = some e) (hf : (getCell s me.src.who).firing = some g) (hu : g.uid = me.src.uid)
    (hr : g.race = none) (hp : g.phase ≠ .committing) (hc : checksBefore s me.src.uid me.src.word = false) :
    (getCell (ownerCheck s me) me.src.who).firing = none ∧
      (getCell (ownerCheck s me) me.src.who).tokens = g.inputs ++ (getCell s me.src.who).tokens ∧ SameMem s (ownerCheck s me) := by
  obtain ⟨hwho, huid, hword⟩ := checkPast_issuer s me
  rw [← hwho] at hf
  rw [← huid] at hu hc
  rw [← hword] at hc
  have hs : ownerCheck s me = settleFiring (noteRace s (checkPast s me).src e) (checkPast s me).src.who := by simp only [ownerCheck, h]
  have hnoted := firing_noteRace (e := e) hf hu hr
  rw [hs, settleFiring_race hnoted rfl hp (by rw [hu]; exact hc), ← hwho]
  have htok : (getCell (noteRace s (checkPast s me).src e) (checkPast s me).src.who).tokens = (getCell s (checkPast s me).src.who).tokens := by
    rw [noteRace, getCell_modCell, if_pos rfl]
  have hcell : getCell (takeFiringTrap (noteRace s (checkPast s me).src e) (checkPast s me).src.who
        { g with race := some ((checkPast s me).src.word, e, (checkPast s me).src) } e (checkPast s me).src) (checkPast s me).src.who =
      getCell (withdrawFiring (noteRace s (checkPast s me).src e) (checkPast s me).src.who
        { g with race := some ((checkPast s me).src.word, e, (checkPast s me).src) }) (checkPast s me).src.who :=
    congrArg (tget _ · _) (stopFrame_mem _ _).2
  rw [hcell, getCell_withdrawFiring]
  exact ⟨rfl, congrArg _ htok, memByte_of_mem (takeFiringTrap_mem ..)⟩

end Sys2Proof.Machine
end

section
/-! The events of a store (R207, R208, R239). -/

namespace Sys2Proof.Machine
open Sys2Proof.Claims

variable {s : State} {k b : Nat} {ps : List Piece} {y : Piece} {a : Acc}

/-! ### Pieces that share no bit -/

/-- Two pieces lie one behind the other. -/
def Piece.Clear (x y : Piece) : Prop := x.bit + x.len ≤ y.bit ∨ y.bit + y.len ≤ x.bit

theorem clear_symm : Std.Symm Piece.Clear := ⟨fun _ _ => Or.symm⟩

/-- No two of the pieces share a bit. -/
def Apart (ps : List Piece) : Prop := ps.Pairwise Piece.Clear

theorem pairwise_of_inRow (h : inRow ps = true) : ps.Pairwise fun x y => x.bit + x.len ≤ y.bit := by
  induction ps with
  | nil => exact .nil
  | cons x l ih =>
    cases l with
    | nil => exact List.pairwise_singleton ..
    | cons y l =>
      obtain ⟨hxy, hrow⟩ : x.bit + x.len = y.bit ∧ inRow (y :: l) = true := by simpa [inRow] using h
      have hl := ih hrow
      refine List.pairwise_cons.mpr ⟨fun z hz => ?_, hl⟩
      rcases List.mem_cons.mp hz with rfl | hz
      · exact hxy.le
      · have := (List.pairwise_cons.mp hl).1 z hz
        omega

/-- The elements of an access that never tears stand one behind the other, forwards or backwards (R226). -/
theorem apart_of_wholeAccess (h : wholeAccess ps = true) : Apart ps := by
  simp only [wholeAccess, Bool.and_eq_true, Bool.or_eq_true] at h
  rcases h.2 with ⟨hrow, -⟩ | ⟨hrow, -⟩
  · exact (pairwise_of_inRow hrow).imp .inl
  · exact (List.pairwise_reverse.mp (pairwise_of_inRow hrow)).imp .inr

/-- The pieces of one event share no bit. -/
theorem apart_split (n : Nat) (hp : a.pieces ≠ []) : Apart (a.split n).1 := by
  by_cases h : a.begun = false ∧ wholeAccess a.pieces = true
  · rw [split_whole n h.1 h.2]
    exact apart_of_wholeAccess h.2
  · obtain ⟨i, y, -, hs, -⟩ := split_parts n hp (by simpa [or_iff_not_imp_left] using h)
    rw [hs]
    exact List.pairwise_singleton ..

/-! ### Memory after the pieces are written -/

/-- What a write takes of its pieces: bit address, bits and value. -/
def bitPieces (ps : List Piece) : List (Nat × Nat × Nat) := ps.map fun p => (p.bit, p.len, p.val)

theorem mem_bitPieces {q : Nat × Nat × Nat} : q ∈ bitPieces ps ↔ ∃ y ∈ ps, (y.bit, y.len, y.val) = q := List.mem_map

/-- A bit of a piece written is that of its value. -/
theorem memBit_written (hap : Apart ps) (hy : y ∈ ps) (hb : y.bit ≤ b ∧ b < y.bit + y.len) :
    memBit (writeAll s (bitPieces ps)) b = y.val.testBit (b - y.bit) := by
  have hone : ∀ p ∈ bitPieces ps, p.1 ≤ b ∧ b < p.1 + p.2.1 → p.2.2.testBit (b - p.1) = y.val.testBit (b - y.bit) := by
    intro p hp hpb
    obtain ⟨z, hz, rfl⟩ := mem_bitPieces.mp hp
    have hzy : z = y := by
      by_contra hne
      have := clear_symm
      have hclear : z.Clear y := hap.forall hz hy hne
      unfold Piece.Clear at hclear
      dsimp only at hpb
      omega
    rw [hzy]
  rw [memBit_writeAll hone, if_pos ⟨_, mem_bitPieces.mpr ⟨y, hy, rfl⟩, hb⟩]

/-- A bit in no piece is as before. -/
theorem memBit_unwritten (h : ∀ y, y ∈ ps → ¬ (y.bit ≤ b ∧ b < y.bit + y.len)) : memBit (writeAll s (bitPieces ps)) b = memBit s b := by
  have hno : ∀ p ∈ bitPieces ps, ¬ (p.1 ≤ b ∧ b < p.1 + p.2.1) := fun p hp => by
    obtain ⟨z, hz, rfl⟩ := mem_bitPieces.mp hp
    exact h z hz
  rw [memBit_writeAll (b := false) fun p hp hpb => absurd hpb (hno p hp), if_neg fun ⟨p, hp, hpb⟩ => hno p hp hpb]

/-- A piece written is read back. -/
theorem readBits_written (hap : Apart ps) (hy : y ∈ ps) : readBits (writeAll s (bitPieces ps)) y.bit y.len = y.val % 2 ^ y.len := by
  refine Nat.eq_of_testBit_eq fun i => ?_
  rw [testBit_readBits, Nat.testBit_mod_two_pow]
  by_cases hi : i < y.len
  · rw [memBit_written hap hy (by omega), Nat.add_sub_cancel_left]
  · rw [decide_eq_false hi, Bool.false_and, Bool.false_and]

theorem memBit_of_mem {t u : State} (h : t.mem = u.mem) (b : Nat) : memBit t b = memBit u b := by
  rw [memBit, memByte_of_mem h, memBit]

theorem readBits_of_mem {t u : State} (h : t.mem = u.mem) (b len : Nat) : readBits t b len = readBits u b len := by
  refine Nat.eq_of_testBit_eq fun i => ?_
  rw [testBit_readBits, testBit_readBits, memBit_of_mem h]

/-! ### The access in flight -/

/-- Pieces of an access performed. -/
def landedPieces (s : State) (id : Nat) (l : List (Nat × Nat × Nat)) : State := l.foldl (fun t p => landedPiece t id p.1 p.2.1) s

/-- Of what is in flight, the bits of one event leave its own access only. -/
theorem inflight_landedPiece (s : State) (id bit len : Nat) :
    (landedPiece s id bit len).inflight.filter (fun f => f.id ≠ id) = s.inflight.filter fun f => f.id ≠ id := by
  unfold landedPiece
  dsimp only
  induction s.inflight with
  | nil => rfl
  | cons f l ih =>
    by_cases hf : f.id = id
    · rw [List.filter_cons_of_neg (by simpa using hf), List.filterMap_cons, if_neg (not_not_intro hf)]
      by_cases hr : cutRange bit len f.ranges = []
      · simp only [hr, if_true]
        exact ih
      · simp only [hr, if_false]
        rw [List.filter_cons_of_neg (by simpa using hf)]
        exact ih
    · rw [List.filter_cons_of_pos (by simpa using hf), List.filterMap_cons, if_pos hf]
      dsimp only
      rw [List.filter_cons_of_pos (by simpa using hf)]
      exact congrArg (f :: ·) ih

theorem landedPieces_frame (s : State) (id : Nat) (l : List (Nat × Nat × Nat)) :
    landedPieces s id l = { s with inflight := (landedPieces s id l).inflight } := by
  unfold landedPieces
  induction l generalizing s with
  | nil => rfl
  | cons p l ih => rw [List.foldl_cons, ih]; rfl

theorem inflight_landedPieces (s : State) (id : Nat) (l : List (Nat × Nat × Nat)) :
    (landedPieces s id l).inflight.filter (fun f => f.id ≠ id) = s.inflight.filter fun f => f.id ≠ id :=
  foldl_keeps (fun t : State => t.inflight.filter (fun f => f.id ≠ id) = s.inflight.filter fun f => f.id ≠ id) _
    (fun t _ h => (inflight_landedPiece t ..).trans h) l s rfl

/-! ### STORE_PERFORM -/

/-- The machine after one event of a store, but for the store itself. -/
def storeLanded (s : State) (a : Acc) : State :=
  landedPieces (writePieces s (bitPieces (a.split s.tick).1) a.src.insn.toNat a.src).1 a.id (bitPieces (a.split s.tick).1)

theorem storeLanded_calm (h : Calm s) (a : Acc) :
    storeLanded s a = { s with
      mem := (writeAll s (bitPieces (a.split s.tick).1)).mem, views := (storeLanded s a).views, inflight := (storeLanded s a).inflight } := by
  unfold storeLanded
  rw [landedPieces_frame, writePieces_calm h, writeAll_frame]

theorem inflight_storeLanded (h : Calm s) (a : Acc) :
    (storeLanded s a).inflight.filter (fun f => f.id ≠ a.id) = s.inflight.filter fun f => f.id ≠ a.id := by
  rw [storeLanded, inflight_landedPieces, writePieces_calm h, writeAll_frame]

/-- A store's event lands, and with the last the store is gone. -/
theorem performStore_calm (h : Calm s) (hd : a.drop = none) (hr : ∀ y, y ∈ (a.split s.tick).1 → unreachable s (y.bit / 8) = false) :
    performStore s k a = if (a.split s.tick).2 = [] then landed (dropWork (storeLanded s a) k) a.id
      else setWork (storeLanded s a) k (.store { a with pieces := (a.split s.tick).2, begun := true }) := by
  have hdown : ((a.split s.tick).1.any fun p => unreachable s (p.bit / 8)) = false := List.any_eq_false.mpr fun y hy => by rw [hr y hy]; exact Bool.false_ne_true
  have hcure : cureWhole s a.pieces = s := if_pos h.1
  have hdrop : ∀ l, (writePieces s l a.src.insn.toNat a.src).2 = [] := fun l => by rw [writePieces_calm h]
  unfold performStore
  simp only [hdown, hcure, hdrop, Bool.false_eq_true, if_false, if_true, hd]
  rfl

/-- One event of a store. -/
theorem exec_storePerform {q : List Piece × List Piece} (hw : WorkDue s .storePerform k (.store a)) (h : Calm s) (ht : inTurn s k a = true)
    (hp : a.pieces ≠ []) (hd : a.drop = none) (hq : a.split s.tick = q) (hr : ∀ y, y ∈ q.1 → unreachable s (y.bit / 8) = false) :
    ∃ t, exec .storePerform s = .next t ∧ (∀ y, y ∈ q.1 → readBits t y.bit y.len = y.val % 2 ^ y.len) ∧
      (∀ b, (∀ y, y ∈ q.1 → ¬ (y.bit ≤ b ∧ b < y.bit + y.len)) → memBit t b = memBit s b) ∧
      (q.2 = [] → t = { dropWork s k with mem := t.mem, views := t.views, inflight := s.inflight.filter fun f => f.id ≠ a.id }) ∧
      (q.2 ≠ [] → t = { s with
        mem := t.mem, views := t.views, inflight := t.inflight, work := s.work.set k (.store { a with pieces := q.2, begun := true }) }) := by
  subst hq
  have hex : exec .storePerform s = .next (performStore s k a) := by
    change execStorePerform s = _
    rw [execStorePerform, turnWork_due hw]
    exact if_pos ht
  have hst := storeLanded_calm h a
  have hmem : (performStore s k a).mem = (writeAll s (bitPieces (a.split s.tick).1)).mem := by
    rw [performStore_calm h hd hr]
    have hm : (storeLanded s a).mem = _ := congrArg State.mem hst
    split <;> exact hm
  refine ⟨_, hex, fun y hy => ?_, fun b hb => ?_, fun hl => ?_, fun hl => ?_⟩
  · rw [readBits_of_mem hmem, readBits_written (apart_split _ hp) hy]
  · rw [memBit_of_mem hmem, memBit_unwritten hb]
  · rw [performStore_calm h hd hr, if_pos hl, landed]
    dsimp only [dropWork_inflight]
    rw [inflight_storeLanded h, hst]
    rfl
  · rw [performStore_calm h hd hr, if_neg hl, hst]
    rfl

end Sys2Proof.Machine
end

section
/-! Atomics (R243 to R246), done tokens (R233, R251), barriers (R265) and page walks (R413). -/

namespace Sys2Proof.Machine
open Sys2Proof.Claims

variable {s : State} {k : Nat} {a : Acc} {x : Piece}

/-! ### ATOMIC_APPLY -/

theorem countElem_frame (s : State) (a : Acc) (nf sat : Nat) :
    countElem s a nf sat = { s with placement := (countElem s a nf sat).placement, cfgs := (countElem s a nf sat).cfgs } := by
  unfold countElem
  dsimp only
  split <;> split
  · rfl
  · rw [countNonFinite_frame]
  · rfl
  · rw [countNonFinite_frame]
    rfl

theorem poisonedBits_calm (h : Calm s) (b len : Nat) : poisonedBits s b len = false := by
  simp [poisonedBits, poisonedRange, h.1]

/-- What the element becomes, and what it counts. -/
def atomicResult (s : State) (a : Acc) (x : Piece) : Nat × Nat × Nat :=
  atomicElem a.op (recOf a.rcd) a.src.itag x.va (readBits s x.bit x.len) x.val x.val2

theorem applyPiece_calm (h : Calm s) (a : Acc) (x : Piece) :
    applyPiece s a x = ((writePieces s (bitPieces [{ x with val := (atomicResult s a x).1 }]) a.src.insn.toNat a.src).1,
      some (readBits s x.bit x.len, (atomicResult s a x).2)) := by
  rw [applyPiece, poisonedBits_calm h]
  rfl

/-- The access after an element of it was applied. -/
def Acc.took (a : Acc) (s : State) (x : Piece) : Acc := { a with olds := a.olds ++ [(x.k, readBits s x.bit x.len)] }

/-- The machine after an element of an atomic was applied, but for the atomic itself. -/
def atomicLanded (s : State) (a : Acc) (x : Piece) : State :=
  landedPiece (countElem (writePieces s (bitPieces [{ x with val := (atomicResult s a x).1 }]) a.src.insn.toNat a.src).1 a
    (atomicResult s a x).2.1 (atomicResult s a x).2.2) a.id x.bit x.len

/-- An element's atomic changes memory, counts, and its own access in flight. -/
theorem atomicLanded_calm (h : Calm s) (a : Acc) (x : Piece) :
    (atomicLanded s a x).mem = (writeAll s (bitPieces [{ x with val := (atomicResult s a x).1 }])).mem ∧ (atomicLanded s a x).work = s.work ∧
      (atomicLanded s a x).inflight.filter (fun f => f.id ≠ a.id) = s.inflight.filter fun f => f.id ≠ a.id := by
  unfold atomicLanded
  rw [inflight_landedPiece, countElem_frame, writePieces_calm h, writeAll_frame]
  exact ⟨rfl, rfl, rfl⟩

theorem performAtomic_calm (h : Calm s) {i : Nat} (hi : nextEvent s.tick (a.pieces.map fun y => [y]) = i) (hx : a.pieces[i]? = some x)
    (hr : unreachable s (x.bit / 8) = false) :
    performAtomic s k a = if a.pieces.eraseIdx i = [] then atomicDone (dropWork (atomicLanded s a x) k) { a.took s x with pieces := [] }
      else setWork (atomicLanded s a x) k (.atomic { a.took s x with pieces := a.pieces.eraseIdx i }) := by
  have hev : atomicEvent s a x = (countElem (writePieces s (bitPieces [{ x with val := (atomicResult s a x).1 }]) a.src.insn.toNat a.src).1 a
      (atomicResult s a x).2.1 (atomicResult s a x).2.2, a.took s x) := by
    simp only [atomicEvent, hr, Bool.false_eq_true, if_false, applyPiece_calm h]
    rfl
  unfold performAtomic
  simp only [hi, hx, hev]
  rfl

/-- The payload that the old values of an atomic make (R246). -/
def oldValues (a : Acc) (olds : List (Nat × Nat)) : Nat :=
  let lw := if (recOf a.rcd).bits = 64 then 64 else 32
  ofLanes lw ((List.range (512 / lw)).map fun j => ((olds.find? fun e => e.1 == j).map (·.2)).getD 0)

theorem atomicDone_kept (hd : a.drop = none) : atomicDone s a = fillDone (landed s a.id) a.id (oldValues a a.olds) := by
  simp only [atomicDone, hd]
  rfl

/-- The done token of an access gets its old values. -/
theorem mem_fillDone {id payload d : Nat} {y : Src} {r : Token} {o : Bool} (h : .done d y r (some id) o ∈ s.work) :
    .done d y { r with payload := BitVec.ofNat 512 payload } (some id) o ∈ (fillDone s id payload).work :=
  List.mem_map.mpr ⟨_, h, if_pos rfl⟩

theorem exec_atomicApply {i : Nat} (hw : WorkDue s .atomicApply k (.atomic a)) (h : Calm s) (ht : inTurn s k a = true)
    (hi : nextEvent s.tick (a.pieces.map fun y => [y]) = i) (hx : a.pieces[i]? = some x) (hd : a.drop = none)
    (hr : unreachable s (x.bit / 8) = false) :
    let olds := a.olds ++ [(x.k, readBits s x.bit x.len)]
    ∃ t, exec .atomicApply s = .next t ∧ readBits t x.bit x.len = (atomicResult s a x).1 % 2 ^ x.len ∧
      (∀ y, ¬ (x.bit ≤ y ∧ y < x.bit + x.len) → memBit t y = memBit s y) ∧
      (a.pieces.eraseIdx i ≠ [] → t.work = s.work.set k (.atomic { a with pieces := a.pieces.eraseIdx i, olds := olds })) ∧
      (a.pieces.eraseIdx i = [] → t.inflight = (s.inflight.filter fun f => f.id ≠ a.id) ∧
        ∀ d y r o, .done d y r (some a.id) o ∈ (dropWork s k).work →
          .done d y { r with payload := BitVec.ofNat 512 (oldValues a olds) } (some a.id) o ∈ t.work) := by
  intro olds
  obtain ⟨hlmem, hlwork, hlin⟩ := atomicLanded_calm h a x
  have hex : exec .atomicApply s = .next (performAtomic s k a) := by
    change execAtomicApply s = _
    rw [execAtomicApply, turnWork_due hw]
    exact if_pos ht
  have hst := performAtomic_calm (k := k) h hi hx hr
  rw [atomicDone_kept (show (({ a.took s x with pieces := [] } : Acc)).drop = none from hd)] at hst
  generalize atomicLanded s a x = u at hlmem hlwork hlin hst
  have hmem : (performAtomic s k a).mem = (writeAll s (bitPieces [{ x with val := (atomicResult s a x).1 }])).mem := by
    rw [hst]
    split <;> exact hlmem
  refine ⟨_, hex, ?_, fun y hy => ?_, fun hl => ?_, fun hl => ?_⟩
  · rw [readBits_of_mem hmem]
    exact readBits_written (List.pairwise_singleton ..) List.mem_cons_self
  · rw [memBit_of_mem hmem, memBit_unwritten fun z hz => by rw [List.mem_singleton.mp hz]; exact hy]
  · rw [hst, if_neg hl, setWork, hlwork]
    rfl
  · rw [hst, if_pos hl]
    refine ⟨hlin, fun d y r o hmem => mem_fillDone ?_⟩
    change _ ∈ u.work.eraseIdx k
    rw [hlwork]
    exact hmem

/-! ### DONE_TOKEN -/

theorem exec_doneToken {d : Nat} {y : Src} {r : Token} {n : Option Nat} {o : Bool} (hw : WorkDue s .doneToken k (.done d y r n o))
    (h : doneReady s k = true) : exec .doneToken s = .next { s with work := s.work.set k (.token d r) } := by
  change execDoneToken s = _
  rw [execDoneToken, turnArg_ev hw.1, turnWork_due hw]
  exact if_neg (by simp [h])

theorem exec_closeToken {n d : Nat} {y : Src} {r : Token} {os : List Nat} (hw : WorkDue s .doneToken k (.closeDone n d y r os))
    (h : doneReady s k = true) : exec .doneToken s = .next { s with work := s.work.set k (.token d r) } := by
  change execDoneToken s = _
  rw [execDoneToken, turnArg_ev hw.1, turnWork_due hw]
  exact if_neg (by simp [h])

/-! ### BARRIER_UPDATE -/

theorem exec_barrierUpdate {y : Src} {op pa n va : Nat} (hw : WorkDue s .barrierUpdate k (.bar y op pa n va)) (h : Calm s) (hr : barReady s k = true) :
    ∃ t, exec .barrierUpdate s = .next t ∧
      t = { dropWork s k with mem := t.mem, barWaits := t.barWaits, barPast := t.barPast, barNow := t.barNow, views := t.views } ∧
      (readWord t pa, readWord t (pa + 8)) = barNext op n (readWord s pa) (readWord s (pa + 8)) ∧
      ∀ b, ¬ (pa * 8 ≤ b ∧ b < pa * 8 + 128) → memBit t b = memBit s b := by
  have hc : Calm (dropWork s k) := h
  have hkept : (barWrite (dropWork s k) op pa n y.insn.toNat (if op = 1 then y.before else [])).2 = [] := (barWrite_calm hc ..).1
  obtain ⟨hframe, hwords, hbytes⟩ := barWrite_mem hc op pa n y.insn.toNat (if op = 1 then y.before else [])
  refine ⟨(barWrite (dropWork s k) op pa n y.insn.toNat (if op = 1 then y.before else [])).1, ?_, hframe, ?_, fun b hb => ?_⟩
  · change execBarrierUpdate s = _
    rw [execBarrierUpdate, turnArg_ev hw.1, turnWork_due hw, if_neg (by simp [hr])]
    exact congrArg Host.Outcome.next (if_pos hkept)
  · rw [readWord_of_mem (dropWork_mem s k), readWord_of_mem (dropWork_mem s k)] at hwords
    exact hwords
  · rw [memBit, hbytes (b / 8) (by omega)]
    rfl

/-! ### PAGE_WALK -/

/-- A walk that finds an entry puts it first among those of its holder. -/
theorem tlbs_tlbInsert (s : State) (holder : Nat) (e : TlbEntry) :
    (tget [] (tlbInsert s holder e).tlbs holder).head? = some e ∧ ∀ j, j ≠ holder → tget [] (tlbInsert s holder e).tlbs j = tget [] s.tlbs j := by
  refine ⟨?_, fun j hj => by rw [tlbInsert, tget_tmod_ne _ _ _ _ _ hj]⟩
  rw [tlbInsert, tget_tmod_self]
  rfl

theorem exec_pageWalk {holder n va : Nat} {secure : Bool} (hw : WorkDue s .pageWalk k (.walk holder n va secure)) :
    (walk (dropWork s k) n va secure = none → exec .pageWalk s = .next (dropWork s k)) ∧
      ∀ e, walk (dropWork s k) n va secure = some e → exec .pageWalk s = .next (tlbInsert (dropWork s k) holder e) := by
  have hex : exec .pageWalk s = execPageWalk s := rfl
  rw [hex, execPageWalk, turnWork_due hw]
  dsimp only
  exact ⟨fun h => by rw [h], fun e h => by rw [h]⟩

end Sys2Proof.Machine
end

section
/-! Sequence groups (R247 to R250): contributions are staged, closes are recorded, and a sequence whose turn has come is applied. -/

namespace Sys2Proof.Machine
open Sys2Proof.Claims

variable {s t : State} {k o n : Nat} {a : Acc} {x : Piece} {l : List Piece} {g : SeqGroup} {c : Closing}

/-! ### Groups of an owner -/

theorem mem_tins {α : Type} {d : Table α} {j : Nat} {v : α} {e : Nat × α} (h : e ∈ tins j v d) : e = (j, v) ∨ e ∈ d := by
  induction d with
  | nil => exact .inl (List.mem_singleton.mp h)
  | cons q d ih =>
    rw [tins] at h
    split at h
    · exact List.mem_cons.mp h
    · rcases List.mem_cons.mp h with rfl | h
      · exact .inr List.mem_cons_self
      · exact (ih h).imp_right (List.mem_cons_of_mem _)

theorem mem_tset {α : Type} [DecidableEq α] {d v : α} {l : Table α} {j : Nat} {e : Nat × α} (h : e ∈ tset d l j v) : e = (j, v) ∨ e ∈ l := by
  unfold tset at h
  split at h
  · exact .inr (mem_tdel h)
  · exact (mem_tins h).imp_right mem_tdel

/-- A value that is not the default stands in the table. -/
theorem mem_of_tget {α : Type} {d : α} {l : Table α} {j : Nat} (h : tget d l j ≠ d) : (j, tget d l j) ∈ l := by
  induction l with
  | nil => exact absurd rfl h
  | cons q l ih =>
    obtain ⟨i, v⟩ := q
    unfold tget at h ⊢
    by_cases hi : i = j
    · subst hi
      rw [if_pos rfl]
      exact List.mem_cons_self
    · rw [if_neg hi] at h ⊢
      exact List.mem_cons_of_mem _ (ih h)

@[simp] theorem getGroup_setGroup (s : State) (o n : Nat) (g : SeqGroup) : getGroup (setGroup s o n g) o n = g := tget_tset_self ..

theorem groups_setGroup_ne (s : State) (o n : Nat) (g : SeqGroup) {j : Nat} (hj : j ≠ groupKey o n) :
    tget {} (setGroup s o n g).groups j = tget {} s.groups j := tget_tset_ne _ _ _ _ _ hj

theorem mem_closedGroups {i : Nat} : i ∈ closedGroups s o ↔ ∃ e ∈ s.groups, e.1 / 65536 = o ∧ e.2.closes ≠ [] ∧ e.1 % 65536 = i := by
  simp only [closedGroups, List.mem_map, List.mem_filter, Bool.and_eq_true, decide_eq_true_eq, bne_iff_ne, and_assoc]

/-- A group whose closes stay adds none to those with closes. -/
theorem closedGroups_kept (hg : g.closes = (getGroup s o n).closes) {i : Nat} (hi : i ∈ closedGroups (setGroup s o n g) o) : i ∈ closedGroups s o := by
  obtain ⟨e, he, howner, hcl, hmod⟩ := mem_closedGroups.mp hi
  rcases mem_tset he with rfl | he
  · dsimp only at howner hcl hmod
    rw [hg] at hcl
    have hne : tget {} s.groups (groupKey o n) ≠ {} := fun h0 => hcl (congrArg SeqGroup.closes h0)
    exact mem_closedGroups.mpr ⟨_, mem_of_tget hne, howner, hcl, hmod⟩
  · exact mem_closedGroups.mpr ⟨e, he, howner, hcl, hmod⟩

/-- Where only one group has closes, it stays the only one when it is written. -/
theorem closedGroups_only (hn : n < 65536) (h : ∀ i, i ∈ closedGroups s o → i = n) (g : SeqGroup) :
    ∀ i, i ∈ closedGroups (setGroup s o n g) o → i = n := by
  intro i hi
  obtain ⟨e, he, howner, hcl, hmod⟩ := mem_closedGroups.mp hi
  rcases mem_tset he with rfl | he
  · rw [← hmod, groupKey]
    omega
  · exact h i (mem_closedGroups.mpr ⟨e, he, howner, hcl, hmod⟩)

theorem closedGroups_of_groups (h : t.groups = s.groups) (o : Nat) : closedGroups t o = closedGroups s o := by
  rw [closedGroups, h, closedGroups]

/-! ### Sequences whose turn has not come -/

/-- The sequence whose turn it is. -/
def SeqGroup.next (g : SeqGroup) : Nat := match g.applied with
  | some c => c + 1
  | none => 0

/-- The entries of a sequence applied in the order of their keys. -/
def seqApplied (s : State) (o n q : Nat) : State :=
  (sortStaged ((getGroup s o n).staged.filter fun e => e.seq = q)).foldl (fun s e => applyStaged s o n e) s

/-- The group once its sequence `q` is applied. -/
def SeqGroup.done (g : SeqGroup) (q : Nat) : SeqGroup :=
  { g with applied := some q, staged := g.staged.filter fun e => e.seq ≠ q, closes := g.closes.filter fun c => c.seq ≠ q }

/-- Some close recorded is of the sequence whose turn it is, and none of its entries waits. -/
def mayApply (s : State) (o n : Nat) : Bool :=
  (getGroup s o n).closes.any (fun c => c.seq == (getGroup s o n).next) &&
    !(getGroup s o n).staged.any (fun e => e.seq == (getGroup s o n).next && contribBefore s e.acc)

theorem applyClosed_succ (s : State) (o n m : Nat) :
    applyClosed s o n (m + 1) =
      let q := (getGroup s o n).next
      let v := seqApplied s o n q
      if mayApply s o n then
        applyClosed (((getGroup v o n).closes.filter fun c => c.seq = q).foldl (fun s c => releaseClose s o n c)
          (setGroup v o n ((getGroup v o n).done q))) o n m
      else s := rfl

theorem applyClosed_idle (h : ∀ z, z ∈ (getGroup s o n).closes → z.seq ≠ (getGroup s o n).next) (m : Nat) : applyClosed s o n m = s := by
  cases m with
  | zero => rfl
  | succ m =>
    have hany : ((getGroup s o n).closes.any fun c => c.seq == (getGroup s o n).next) = false :=
      List.any_eq_false.mpr fun z hz => by simpa using h z hz
    rw [applyClosed_succ]
    exact if_neg (by rw [mayApply, hany]; simp)

theorem foldl_same {α β : Type} {f : α → β → α} {a : α} {l : List β} (h : ∀ b, b ∈ l → f a b = a) : l.foldl f a = a := by
  induction l with
  | nil => rfl
  | cons b l ih =>
    rw [List.foldl_cons, h b List.mem_cons_self]
    exact ih fun b hb => h b (List.mem_cons_of_mem _ hb)

/-- Where no sequence's turn has come, nothing is applied. -/
theorem settleOwner_idle (h : ∀ i, i ∈ closedGroups s o → ∀ z, z ∈ (getGroup s o i).closes → z.seq ≠ (getGroup s o i).next) : settleOwner s o = s :=
  foldl_same fun i hi => by
    obtain ⟨l, hl, hil⟩ := List.mem_flatten.mp hi
    rw [List.eq_of_mem_replicate hl] at hil
    exact applyClosed_idle (h i hil) _

theorem finishCommit_frame (s : State) (d : Nat) : finishCommit s d = { s with cells := (finishCommit s d).cells } := by
  unfold finishCommit
  split
  · split
    · rw [noteReady_frame]
      rfl
    · rfl
  · rfl

/-! ### SEQ_CONTRIBUTION -/

/-- The group after a contribution: counted as discarded once its sequence is applied, else staged, in place of those of its key. -/
def SeqGroup.staging (g : SeqGroup) (p : State) (a : Acc) (x : Piece) : SeqGroup :=
  if g.past a.src.itag then { g with held := true, discarded := satAdd g.discarded 1 }
  else
    let key := seqKey p a x.bit
    let same := fun e : Staged => e.seq == a.src.itag && e.key == key
    let olds := (g.staged.filter same).flatMap fun e => (e.acc.id, e.acc.src.uid, e.acc.src.pos) :: e.olds
    { g with held := true, staged := (g.staged.filter fun e => !same e) ++ [{ seq := a.src.itag, key := key, acc := a, olds := olds }] }

theorem staging_kept (g : SeqGroup) (p : State) (a : Acc) (x : Piece) :
    (g.staging p a x).held = true ∧ (g.staging p a x).closes = g.closes := by
  unfold SeqGroup.staging
  split <;> exact ⟨rfl, rfl⟩

/-- A contribution changes its group, and what is in flight. -/
theorem stage_frame (hp : a.pieces = x :: l) :
    stage s a o = { setGroup s o a.group ((getGroup s o a.group).staging s a x) with inflight := (stage s a o).inflight } := by
  unfold stage SeqGroup.staging
  rw [hp]
  dsimp only
  by_cases h : (getGroup s o a.group).past a.src.itag = true
  · rw [if_pos h, if_pos (show SeqGroup.past { getGroup s o a.group with held := true } a.src.itag = true from h)]
    rfl
  · rw [if_neg h, if_neg (show ¬ SeqGroup.past { getGroup s o a.group with held := true } a.src.itag = true from h)]

theorem exec_seqContribution (hw : WorkDue s .seqContribution k (.contrib a o)) (hr : contribReady s k = true) (hp : a.pieces = x :: l)
    (hup : ∀ y, y ∈ a.pieces → unreachable s (y.bit / 8) = false) (hcl : closedGroups s o = []) :
    ∃ t, exec .seqContribution s = .next t ∧ t.mem = s.mem ∧ t.work = s.work.eraseIdx k ∧
      t.groups = (setGroup s o a.group ((getGroup s o a.group).staging (dropWork s k) a x)).groups := by
  have hfind : (a.pieces.find? fun p => unreachable (dropWork s k) (p.bit / 8)) = none := List.find?_eq_none.mpr fun y hy => by
    rw [show unreachable (dropWork s k) (y.bit / 8) = false from hup y hy]
    exact Bool.false_ne_true
  have hst := stage_frame (s := dropWork s k) (o := o) hp
  have hnone : closedGroups (stage (dropWork s k) a o) o = [] := by
    rw [closedGroups_of_groups (congrArg State.groups hst)]
    refine List.eq_nil_iff_forall_not_mem.mpr fun i hi => ?_
    have hi' : i ∈ closedGroups s o := closedGroups_kept (staging_kept ..).2 hi
    exact List.not_mem_nil (hcl ▸ hi')
  have hex : exec .seqContribution s = .next (finishCommit (stage (dropWork s k) a o) a.src.who) := by
    change execSeqContribution s = _
    rw [execSeqContribution, turnArg_ev hw.1, turnWork_due hw, if_neg (by simp [hr])]
    dsimp only
    rw [hfind]
    dsimp only
    rw [settleOwner_idle (by simp [hnone])]
  refine ⟨_, hex, ?_, ?_, ?_⟩
  · rw [finishCommit_frame, hst]
    rfl
  · rw [finishCommit_frame, hst]
    rfl
  · rw [finishCommit_frame, hst]
    rfl

/-! ### SEQ_CLOSE -/

/-- The one close recorded, whose turn has come, applies its sequence. -/
theorem applyClosed_one (hc : (getGroup s o n).closes = [c]) (hq : c.seq = (getGroup s o n).next)
    (hno : ∀ e, e ∈ (getGroup s o n).staged → e.seq = c.seq → contribBefore s e.acc = false)
    (hk : (getGroup (seqApplied s o n c.seq) o n).closes = [c]) :
    applyClosed s o n 1 = releaseClose (setGroup (seqApplied s o n c.seq) o n ((getGroup (seqApplied s o n c.seq) o n).done c.seq)) o n c := by
  have hwaits : ((getGroup s o n).staged.any fun e => e.seq == c.seq && contribBefore s e.acc) = false := List.any_eq_false.mpr fun e he => by
    by_cases hs : e.seq = c.seq
    · simp [hs, hno e he hs]
    · simp [hs]
  have hmay : mayApply s o n = true := by rw [mayApply, ← hq, hwaits, hc]; simp
  have hfold : ((getGroup (seqApplied s o n c.seq) o n).closes.filter fun z => z.seq = c.seq) = [c] := by rw [hk]; simp
  rw [applyClosed_succ, ← hq]
  dsimp only
  rw [if_pos hmay, hfold]
  rfl

/-- A close with no barrier takes effect at its done token only. -/
theorem releaseClose_frame (hb : c.bar = none) : releaseClose s o n c = { s with work := (releaseClose s o n c).work } := by
  have hbar : barBytes s c.src c.bar 3 c.bytes = s := by rw [hb]; rfl
  rw [releaseClose, hbar]

/-- The group with a close recorded. -/
def SeqGroup.closing (g : SeqGroup) (c : Closing) : SeqGroup := { g with held := true, closes := g.closes ++ [c] }

theorem closeAt_open (hq : c.seq ≠ 0xFFFFFF) (hp : (getGroup s o n).past c.seq = false) :
    closeAt s o n c = settleOwner (applyClosed (setGroup s o n ((getGroup s o n).closing c)) o n ((getGroup s o n).closes.length + 1)) o := by
  unfold closeAt
  rw [if_neg hq, if_neg (show ¬ SeqGroup.past { getGroup s o n with held := true } c.seq = true from Bool.not_eq_true _ ▸ hp)]
  rfl

/-- A close out of turn is recorded. -/
theorem closeAt_recorded (hq : c.seq ≠ 0xFFFFFF) (hp : (getGroup s o n).past c.seq = false) (hn : n < 65536)
    (honly : ∀ i, i ∈ closedGroups s o → i = n) (hc : c.seq ≠ (getGroup s o n).next)
    (hcs : ∀ z, z ∈ (getGroup s o n).closes → z.seq ≠ (getGroup s o n).next) :
    closeAt s o n c = setGroup s o n ((getGroup s o n).closing c) := by
  have hidle : ∀ z, z ∈ (getGroup (setGroup s o n ((getGroup s o n).closing c)) o n).closes →
      z.seq ≠ (getGroup (setGroup s o n ((getGroup s o n).closing c)) o n).next := by
    rw [getGroup_setGroup]
    intro z hz
    rcases List.mem_append.mp hz with hz | hz
    · exact hcs z hz
    · cases List.mem_singleton.mp hz
      exact hc
  rw [closeAt_open hq hp, applyClosed_idle hidle]
  refine settleOwner_idle fun i hi => ?_
  cases closedGroups_only hn honly _ i hi
  exact hidle

/-- A close in turn, the only one recorded, applies its sequence. -/
theorem closeAt_applied (hq : c.seq ≠ 0xFFFFFF) (hp : (getGroup s o n).past c.seq = false) (hn : n < 65536) (hb : c.bar = none)
    (hcs : (getGroup s o n).closes = []) (hc : c.seq = (getGroup s o n).next) {u v : State} (hu : u = setGroup s o n ((getGroup s o n).closing c))
    (hv : v = seqApplied u o n c.seq) (hno : ∀ e, e ∈ (getGroup s o n).staged → e.seq = c.seq → contribBefore u e.acc = false)
    (hk : (getGroup v o n).closes = [c]) (honly : ∀ i, i ∈ closedGroups v o → i = n) :
    (closeAt s o n c).mem = v.mem ∧ getGroup (closeAt s o n c) o n = (getGroup v o n).done c.seq := by
  have hgu : getGroup u o n = (getGroup s o n).closing c := by rw [hu, getGroup_setGroup]
  have hcu : (getGroup u o n).closes = [c] := by rw [hgu, SeqGroup.closing, hcs]; rfl
  have hone := applyClosed_one hcu (by rw [hgu]; exact hc) (by rw [hgu]; exact hno) (hv ▸ hk)
  rw [← hv] at hone
  have hframe := releaseClose_frame (s := setGroup v o n ((getGroup v o n).done c.seq)) (o := o) (n := n) hb
  have hgroup : getGroup (releaseClose (setGroup v o n ((getGroup v o n).done c.seq)) o n c) o n = (getGroup v o n).done c.seq := by
    rw [hframe]
    exact getGroup_setGroup ..
  have hnone : ((getGroup v o n).done c.seq).closes = [] := by rw [SeqGroup.done, hk]; simp
  have hsettle : settleOwner (releaseClose (setGroup v o n ((getGroup v o n).done c.seq)) o n c) o =
      releaseClose (setGroup v o n ((getGroup v o n).done c.seq)) o n c := settleOwner_idle fun i hi => by
    rw [closedGroups_of_groups (congrArg State.groups hframe)] at hi
    cases closedGroups_only hn honly _ i hi
    rw [hgroup, hnone]
    exact nofun
  rw [closeAt_open hq hp, hcs, ← hu]
  dsimp only [List.length_nil, Nat.zero_add]
  rw [hone, hsettle, hgroup]
  have hmem : (releaseClose (setGroup v o n ((getGroup v o n).done c.seq)) o n c).mem = _ := congrArg State.mem hframe
  exact ⟨hmem, rfl⟩

/-! ### Entries applied -/

theorem landedIds_frame (s : State) (b len : Nat) (l : List Nat) : l.foldl (fun s id => landedPiece s id b len) s = { s with
    inflight := (l.foldl (fun s id => landedPiece s id b len) s).inflight } := by
  induction l generalizing s with
  | nil => rfl
  | cons i l ih => rw [List.foldl_cons, ih]; rfl

theorem countHandle_frame (s : State) (h m : Nat) : countHandle s h m = { s with placement := (countHandle s h m).placement } := by
  unfold countHandle
  split <;> rfl

/-- The value that a staged entry gives its element. -/
def stagedValue (s : State) (e : Staged) (x : Piece) : Nat := if e.acc.op = 0 then x.val else (atomicResult s e.acc x).1

/-- The machine after the element of a staged entry is written, but for the counts. -/
def stagedLanded (s : State) (e : Staged) (x : Piece) : State :=
  (e.acc.id :: e.olds.map (·.1)).foldl (fun s id => landedPiece s id x.bit x.len)
    (writePieces s (bitPieces [{ x with val := stagedValue s e x }]) e.acc.src.insn.toNat e.acc.src).1

theorem stagedLanded_calm (h : Calm s) (e : Staged) (x : Piece) :
    stagedLanded s e x = { s with
      mem := (writeAll s (bitPieces [{ x with val := stagedValue s e x }])).mem
      views := (stagedLanded s e x).views, inflight := (stagedLanded s e x).inflight } := by
  unfold stagedLanded
  rw [landedIds_frame, writePieces_calm h, writeAll_frame]

/-- Counts of an entry go to its group, non-finite elements also to its handle. -/
def countStaged (s : State) (o n : Nat) (e : Staged) (nf sat : Nat) : State :=
  let t := setGroup s o n { getGroup s o n with nonfin := satAdd (getGroup s o n).nonfin nf, saturated := satAdd (getGroup s o n).saturated sat }
  if (recOf e.acc.rcd).place = 0 then t else countHandle t (recOf e.acc.rcd).place nf

theorem countStaged_frame (s : State) (o n : Nat) (e : Staged) (nf sat : Nat) :
    countStaged s o n e nf sat = { setGroup s o n { getGroup s o n with
      nonfin := satAdd (getGroup s o n).nonfin nf, saturated := satAdd (getGroup s o n).saturated sat } with
        placement := (countStaged s o n e nf sat).placement } := by
  unfold countStaged
  dsimp only
  split
  · rfl
  · rw [countHandle_frame]

/-- An entry of one element writes it, a store's value or an atomic's result, and is counted. -/
theorem applyStaged_calm {e : Staged} (h : Calm s) (hp : e.acc.pieces = x :: l) :
    ∃ nf sat, applyStaged s o n e = countStaged (stagedLanded s e x) o n e nf sat := by
  unfold applyStaged stagedLanded stagedValue
  rw [hp]
  dsimp only
  by_cases hop : e.acc.op = 0
  · have hkept : ∀ ps, (writePieces s ps e.acc.src.insn.toNat e.acc.src).2 = [] := fun ps => by rw [writePieces_calm h]
    simp only [hop, hkept, if_true]
    exact ⟨_, _, rfl⟩
  · simp only [hop, applyPiece_calm h, if_false]
    exact ⟨_, _, rfl⟩

/-- What the applied entries of a group keep: memory stays calm, of the group only its counts change, and no other group gets closes. -/
structure Applied (o n : Nat) (s t : State) : Prop where
  calm : Calm t
  applied : (getGroup t o n).applied = (getGroup s o n).applied
  closes : (getGroup t o n).closes = (getGroup s o n).closes
  staged : (getGroup t o n).staged = (getGroup s o n).staged
  only : ∀ i, i ∈ closedGroups t o → i ∈ closedGroups s o

theorem applied_of_groups {u : State} (h : Applied o n s t) (hc : Calm u) (hg : u.groups = t.groups) : Applied o n s u := by
  have hget : getGroup u o n = getGroup t o n := by rw [getGroup, hg, getGroup]
  exact ⟨hc, hget ▸ h.applied, hget ▸ h.closes, hget ▸ h.staged, fun i hi => h.only i (closedGroups_of_groups hg o ▸ hi)⟩

theorem applied_countStaged (h : Applied o n s t) (e : Staged) (nf sat : Nat) : Applied o n s (countStaged t o n e nf sat) := by
  have hset : ∀ g : SeqGroup, g.applied = (getGroup t o n).applied → g.closes = (getGroup t o n).closes → g.staged = (getGroup t o n).staged →
      Applied o n s (setGroup t o n g) := fun g ha hc hs =>
    ⟨h.calm, by rw [getGroup_setGroup, ha, h.applied], by rw [getGroup_setGroup, hc, h.closes], by rw [getGroup_setGroup, hs, h.staged],
      fun i hi => h.only i (closedGroups_kept hc hi)⟩
  rw [countStaged_frame]
  exact applied_of_groups (hset { getGroup t o n with
    nonfin := satAdd (getGroup t o n).nonfin nf, saturated := satAdd (getGroup t o n).saturated sat } rfl rfl rfl) h.calm rfl

theorem applied_applyStaged (e : Staged) (h : Applied o n s t) : Applied o n s (applyStaged t o n e) := by
  cases hp : e.acc.pieces with
  | nil =>
    have hsame : applyStaged t o n e = t := by rw [applyStaged, hp]
    rwa [hsame]
  | cons x l =>
    obtain ⟨nf, sat, ht⟩ := applyStaged_calm (o := o) (n := n) h.calm hp
    rw [ht]
    exact applied_countStaged (applied_of_groups h (by rw [stagedLanded_calm h.calm]; exact h.calm) (by rw [stagedLanded_calm h.calm])) e nf sat

theorem applied_seqApplied (h : Calm s) (q : Nat) : Applied o n s (seqApplied s o n q) :=
  foldl_keeps (Applied o n s) _ (fun _ e => applied_applyStaged e) _ s ⟨h, rfl, rfl, rfl, fun _ => id⟩

/-- A sequence of one plain store of one element writes that element and no other bit. -/
theorem seqApplied_store {e : Staged} {q : Nat} (h : Calm s) (hf : (getGroup s o n).staged.filter (fun z => z.seq = q) = [e]) (hop : e.acc.op = 0)
    (hp : e.acc.pieces = [x]) :
    readBits (seqApplied s o n q) x.bit x.len = x.val % 2 ^ x.len ∧
      ∀ b, ¬ (x.bit ≤ b ∧ b < x.bit + x.len) → memBit (seqApplied s o n q) b = memBit s b := by
  have hone : seqApplied s o n q = applyStaged s o n e := by rw [seqApplied, hf]; rfl
  obtain ⟨nf, sat, ht⟩ := applyStaged_calm (o := o) (n := n) h hp
  have hmem : (seqApplied s o n q).mem = (writeAll s (bitPieces [x])).mem := by
    rw [hone, ht, countStaged_frame, stagedLanded_calm h, stagedValue, if_pos hop]
    rfl
  refine ⟨?_, fun b hb => ?_⟩
  · rw [readBits_of_mem hmem]
    exact readBits_written (List.pairwise_singleton ..) List.mem_cons_self
  · rw [memBit_of_mem hmem]
    exact memBit_unwritten fun y hy => by rw [List.mem_singleton.mp hy]; exact hb

theorem getGroup_finishCommit (s : State) (d o n : Nat) : getGroup (finishCommit s d) o n = getGroup s o n := by
  rw [finishCommit_frame]
  rfl

theorem finishCommit_mem (s : State) (d : Nat) : (finishCommit s d).mem = s.mem := by rw [finishCommit_frame]

end Sys2Proof.Machine
end

section
/-! The owners' events together. -/

namespace Sys2Proof.Machine
open Sys2Proof.Claims

variable {s : State} {k o q m : Nat} {a : Acc} {b : Option (Nat × Nat)}

/-- What a close says. -/
def closingOf (a : Acc) (q : Nat) (b : Option (Nat × Nat)) (m : Nat) : Closing := { seq := q, id := a.id, src := a.src, bar := b, bytes := m }

theorem exec_seqClose (hw : WorkDue s .seqClose k (.close a o q b m)) (hr : closeReady s k = true) (hd : ownerDown s o = false) :
    exec .seqClose s = .next (finishCommit (closeAt (dropWork s k) o a.group (closingOf a q b m)) a.src.who) := by
  change execSeqClose s = _
  rw [execSeqClose, turnArg_ev hw.1, turnWork_due hw, if_neg (by simp [hr])]
  dsimp only
  rw [if_neg (by simp [hd])]
  rfl

/-- A group with one close, of a sequence with nothing staged, once the sequence is applied. -/
theorem done_closing {g : SeqGroup} {c : Closing} (hcs : g.closes = []) (hnone : ∀ e, e ∈ g.staged → e.seq ≠ c.seq) :
    (g.closing c).done c.seq = { g with held := true, applied := some c.seq } := by
  have hkeep : g.staged.filter (fun e => e.seq ≠ c.seq) = g.staged := List.filter_eq_self.mpr fun e he => decide_eq_true (hnone e he)
  have hgone : ([] ++ [c]).filter (fun z : Closing => z.seq ≠ c.seq) = [] := by simp
  unfold SeqGroup.done SeqGroup.closing
  dsimp only
  rw [hkeep, hcs, hgone]

section Close
variable (hw : WorkDue s .seqClose k (.close a o q b m)) (hr : closeReady s k = true) (hd : ownerDown s o = false) (hq : q ≠ 0xFFFFFF)
  (hn : a.group < 65536) (hp : (getGroup s o a.group).past q = false) (honly : ∀ h, h ∈ closedGroups s o → h = a.group)
include hw hr hd hq hn hp honly

/-- A close out of turn is recorded. -/
theorem seqClose_recorded (hne : q ≠ (getGroup s o a.group).next) (hcs : ∀ z, z ∈ (getGroup s o a.group).closes → z.seq ≠ (getGroup s o a.group).next) :
    ∃ t, exec .seqClose s = .next t ∧ SameMem s t ∧ getGroup t o a.group = (getGroup s o a.group).closing (closingOf a q b m) := by
  have hat := closeAt_recorded (s := dropWork s k) (c := closingOf a q b m) hq hp hn honly hne hcs
  refine ⟨_, exec_seqClose hw hr hd, memByte_of_mem ?_, ?_⟩
  · rw [finishCommit_mem, hat]
    rfl
  · rw [getGroup_finishCommit, hat, getGroup_setGroup]
    rfl

/-- A close in turn with nothing staged for it. -/
theorem seqClose_empty (hnext : q = (getGroup s o a.group).next) (hcs : (getGroup s o a.group).closes = [])
    (hnone : ∀ e, e ∈ (getGroup s o a.group).staged → e.seq ≠ q) (hb : b = none) :
    ∃ t, exec .seqClose s = .next t ∧ SameMem s t ∧ getGroup t o a.group = { getGroup s o a.group with held := true, applied := some q } := by
  obtain ⟨u, hu⟩ : ∃ u, u = setGroup (dropWork s k) o a.group ((getGroup s o a.group).closing (closingOf a q b m)) := ⟨_, rfl⟩
  have hgu : getGroup u o a.group = (getGroup s o a.group).closing (closingOf a q b m) := by rw [hu, getGroup_setGroup]
  have hcl : (getGroup u o a.group).closes = [closingOf a q b m] := by rw [hgu, SeqGroup.closing, hcs]; rfl
  have honly' : ∀ i, i ∈ closedGroups u o → i = a.group := hu ▸ closedGroups_only hn honly _
  have hfilter : (getGroup s o a.group).staged.filter (fun e => e.seq = q) = [] :=
    List.filter_eq_nil_iff.mpr fun e he => by simpa using hnone e he
  have hsame : u = seqApplied u o a.group q := by
    rw [seqApplied, hgu]
    exact (congrArg (fun l => List.foldl _ u (sortStaged l)) hfilter).symm
  obtain ⟨hmem, hgroup⟩ := closeAt_applied (s := dropWork s k) (c := closingOf a q b m) hq hp hn hb hcs hnext hu hsame
    (fun e he hs => absurd hs (hnone e he)) hcl honly'
  refine ⟨_, exec_seqClose hw hr hd, memByte_of_mem ?_, ?_⟩
  · rw [finishCommit_mem, hmem, hu]
    rfl
  · rw [getGroup_finishCommit, hgroup, hgu]
    exact done_closing hcs hnone

/-- A close in turn applies what is staged for it. -/
theorem seqClose_applied (hnext : q = (getGroup s o a.group).next) (hcs : (getGroup s o a.group).closes = []) (hb : b = none) (hc : Calm s)
    (hno : ∀ e, e ∈ (getGroup s o a.group).staged → e.seq = q →
      contribBefore (setGroup (dropWork s k) o a.group { getGroup s o a.group with held := true, closes := [closingOf a q b m] }) e.acc = false) :
    ∃ t, exec .seqClose s = .next t ∧ (getGroup t o a.group).applied = some q ∧ (getGroup t o a.group).closes = [] ∧
      (getGroup t o a.group).staged = (getGroup s o a.group).staged.filter (fun e => e.seq ≠ q) ∧
      ∀ e y, (getGroup s o a.group).staged.filter (fun z => z.seq = q) = [e] → e.acc.op = 0 → e.acc.pieces = [y] →
        readBits t y.bit y.len = y.val % 2 ^ y.len ∧ ∀ b, ¬ (y.bit ≤ b ∧ b < y.bit + y.len) → memBit t b = memBit s b := by
  have hcg : { getGroup s o a.group with held := true, closes := [closingOf a q b m] } = (getGroup s o a.group).closing (closingOf a q b m) := by
    rw [SeqGroup.closing, hcs]
    rfl
  obtain ⟨u, hu⟩ : ∃ u, u = setGroup (dropWork s k) o a.group ((getGroup s o a.group).closing (closingOf a q b m)) := ⟨_, rfl⟩
  have hgu : getGroup u o a.group = (getGroup s o a.group).closing (closingOf a q b m) := by rw [hu, getGroup_setGroup]
  have hcl : (getGroup u o a.group).closes = [closingOf a q b m] := by rw [hgu, SeqGroup.closing, hcs]; rfl
  have honly' : ∀ i, i ∈ closedGroups u o → i = a.group := hu ▸ closedGroups_only hn honly _
  rw [hcg, ← hu] at hno
  have hv := applied_seqApplied (o := o) (n := a.group) (show Calm u by rw [hu]; exact hc) q
  have hclv : (getGroup (seqApplied u o a.group q) o a.group).closes = [closingOf a q b m] := hv.closes.trans hcl
  obtain ⟨hmem, hgroup⟩ := closeAt_applied (s := dropWork s k) (c := closingOf a q b m) hq hp hn hb hcs hnext hu rfl hno hclv
    fun i hi => honly' i (hv.only i hi)
  have hmem' : (finishCommit (closeAt (dropWork s k) o a.group (closingOf a q b m)) a.src.who).mem = (seqApplied u o a.group q).mem :=
    (finishCommit_mem ..).trans hmem
  have hgroup' : getGroup (finishCommit (closeAt (dropWork s k) o a.group (closingOf a q b m)) a.src.who) o a.group =
      (getGroup (seqApplied u o a.group q) o a.group).done q := (getGroup_finishCommit ..).trans hgroup
  refine ⟨_, exec_seqClose hw hr hd, by rw [hgroup']; rfl, ?_, ?_, fun e y hf hop hpe => ?_⟩
  · rw [hgroup', SeqGroup.done, hclv]
    simp [closingOf]
  · rw [hgroup', SeqGroup.done, hv.staged, hgu]
    rfl
  · obtain ⟨hread, hout⟩ := seqApplied_store (s := u) (o := o) (n := a.group) (q := q) (show Calm u by rw [hu]; exact hc) (by rw [hgu]; exact hf) hop hpe
    exact ⟨(readBits_of_mem hmem' ..).trans hread, fun b hb => (memBit_of_mem hmem' b).trans ((hout b hb).trans (by rw [hu]; rfl))⟩

end Close

/-- Settles O51: an event at a time, from what it does to memory, to what is in flight and to the group. -/
theorem ownersAct : Obligations.OwnersAct := by
  refine ⟨⟨fun a n hp => ⟨split_whole n, split_parts n hp⟩, fun x y hy => alignedPart_of_mem ?_ hy, fun x n hn => splitPiece_covers _ x hn⟩,
    fun s k => ⟨fun me hw => ⟨fun h hq => ?_, fun r g h hf hu hr hp hc => ?_⟩, fun hd hp => ⟨fun a q hw ht hne hdr hq hr => ?_,
      fun a i x hw ht hi hx hdr hr => ?_, fun y op pa n va hw hr => ?_⟩, fun d y x a o hw h => ?_, fun i d y x os hw h => ?_,
      fun a o x l hw hr hp hup hcl => ?_, fun a o q b n hw hr hd hq hn hp honly => ⟨fun hne hcs => ?_, fun hnext hcs hnone hb => ?_,
        fun hnext hcs hb hdr hpo hno => ?_⟩, fun h n va w hw => ⟨fun hn => ?_, fun e he => ?_⟩⟩⟩
  · unfold EnoughParts
    split <;> omega
  · exact ⟨_, exec_ownerCheck hw, ownerCheck_clear h hq⟩
  · exact ⟨_, exec_ownerCheck hw, ownerCheck_race h hf hu hr hp hc⟩
  · exact exec_storePerform hw ⟨hp, hd⟩ ht hne hdr hq hr
  · exact exec_atomicApply hw ⟨hp, hd⟩ ht hi hx hdr hr
  · exact exec_barrierUpdate hw ⟨hp, hd⟩ hr
  · exact ⟨_, exec_doneToken hw h, rfl⟩
  · exact ⟨_, exec_closeToken hw h, rfl⟩
  · obtain ⟨t, ht, hmem, hwork, hgroups⟩ := exec_seqContribution hw hr hp hup hcl
    have hg : getGroup t o a.group = (getGroup s o a.group).staging (dropWork s k) a x := by
      rw [getGroup, hgroups]
      exact getGroup_setGroup ..
    refine ⟨t, ht, memByte_of_mem hmem, hwork, ?_, fun h hne => ?_, fun hpast => ?_, fun hpast => ?_⟩
    · rw [hg]
      exact (staging_kept ..).1
    · rw [hgroups]
      exact groups_setGroup_ne _ _ _ _ hne
    · rw [hg, SeqGroup.staging, if_pos hpast]
      exact ⟨rfl, rfl⟩
    · rw [hg, SeqGroup.staging, if_neg (by simp [hpast])]
  · exact seqClose_recorded hw hr hd hq hn hp honly hne hcs
  · exact seqClose_empty hw hr hd hq hn hp honly hnext hcs hnone hb
  · exact seqClose_applied hw hr hd hq hn hp honly hnext hcs hb ⟨hpo, hdr⟩ hno
  · exact (exec_pageWalk hw).1 hn
  · exact ⟨_, (exec_pageWalk hw).2 e he, rfl, tlbs_tlbInsert ..⟩

end Sys2Proof.Machine
end

section
/-! SEQCL, ORD and ORDW (R227, R233, R250, R251). -/

namespace Sys2Proof.Machine
open Sys2Proof.Claims

variable {s : State} {c : Nat} {f g : Firing} {i : Instr} {o : BitVec 2} {p : BitVec 1} {sc : BitVec 3}

/-! ### A firing goes on with a check on its way -/

/-- An instruction whose body sends `w` and puts `g` back. -/
theorem firingSends_put {p : State} {w : List Work} (hp : p = { s with work := s.work ++ w, nextId := p.nextId, tlbs := p.tlbs }) (i : Instr)
    (g : Firing) : FiringSends s (advance (putFiring p c g) c (sizeOf' i)) c i g w := by
  rw [hp]
  refine ⟨rfl, ?_, fun d hd => ?_, fun _ => rfl⟩
  · rw [getCell_advance, if_pos rfl, getCell_putFiring, if_pos rfl]
    rfl
  · rw [getCell_advance, if_neg hd, getCell_putFiring, if_neg hd]
    rfl

/-- A part of an instruction that ends well comes of parts that do. -/
theorem ok_of_bind {ε α β : Type} {x : Except ε α} {f : α → Except ε β} {v : β} (h : (x >>= f) = .ok v) : ∃ a, x = .ok a ∧ f a = .ok v := by
  cases x with
  | error e => cases h
  | ok a => exact ⟨a, rfl, h⟩

theorem except_bind_of_ok {ε α β : Type} {x : Except ε α} {v : α} {f : α → Except ε β} (h : x = .ok v) : (x >>= f) = f v := by
  rw [h]
  rfl

/-- What ends well has passed its checks. -/
theorem ok_of_check {ε α : Type} {q : Prop} [Decidable q] {e : ε} {x : Except ε α} {v : α} (h : (if q then .error e else x) = .ok v) : x = .ok v := by
  split at h
  · cases h
  · exact h

/-- What follows a choice follows its branches. -/
theorem bind_ite {α β : Type} (q : Prop) [Decidable q] (x y : R α) (k : α → R β) :
    (if q then x >>= k else y >>= k) = (if q then x else y) >>= k := by
  split <;> rfl

/-! ### SEQCL (R250) -/

/-- Whose close it is, and of which group. -/
theorem seqclCore_close {m : Mem} {rc : Rec} {raw : BitVec 256} {bar : Option Nat} {scope id : Nat} {z : Acc × Option (Nat × Nat)}
    (h : seqclCore s m rc raw bar scope id = .ok z) : z.1.id = id ∧ z.1.src = m.src ∧ z.1.scope = scope ∧ z.1.group = rc.seq := by
  unfold seqclCore at h
  split at h
  · cases h
  · obtain ⟨rs, -, h⟩ := ok_of_bind h
    obtain ⟨b, -, h⟩ := ok_of_bind h
    cases h
    exact ⟨rfl, rfl, rfl, rfl⟩

/-- The check of a close leaves for the owners (R227). -/
theorem sendClose_sends (s : State) (a : Acc) :
    sendClose s a = { s with work := s.work ++ accessCheck a.src a.id .close a.pieces true a.scope a.group } := by
  unfold sendClose accessCheck
  split
  · rw [List.append_nil]
  · rfl

/-- The barrier that register `a` names; Z names none. -/
theorem seqcl_barrier {a : Spec} {off : Nat} (ha : a.toNat ≠ 0 → readSpec s c f a = .ok off) :
    (if a.toNat = 0 then (.ok none : R (Option Nat)) else (readSpec s c f a).map fun v => some (v % 2 ^ 64)) =
      .ok (if a.toNat = 0 then none else some (off % 2 ^ 64)) := by
  split
  case isTrue => rfl
  case isFalse h =>
    rw [ha h]
    rfl

theorem exec_seqcl {a : Spec} {r : BitVec 3} {rc : Rec} {off : Nat} {z : Acc × Option (Nat × Nat)} (h : CellRuns s c f (.seqcl a r o p sc))
    (ho : Ordered s c f o p) (hl : f.out.length < 15) (hrc : useRecord (getCell s c) f.ctx r.toNat false = .ok rc)
    (ha : a.toNat ≠ 0 → readSpec s c f a = .ok off)
    (hz : seqclCore s (memOf s c f) rc ((getCell s c).record f.ctx r.toNat) (if a.toNat = 0 then none else some (off % 2 ^ 64)) sc.toNat s.nextId = .ok z) :
    ∃ t, exec (.seqcl a r o p sc) s = .next t ∧ z.1.group = rc.seq ∧
      FiringSends s t c (.seqcl a r o p sc) (withDone s c (adds f (.close z.1 z.2)) p 1 sc (some s.nextId) false)
        (accessCheck (firingSrc s c f) s.nextId .close z.1.pieces true sc.toNat rc.seq) := by
  obtain ⟨hid, hsrc, hscope, hgroup⟩ := seqclCore_close hz
  have hdone := doneEntry_withDone (f := adds f (.close z.1 z.2)) (cls := 1) (sc := sc) (acc := some s.nextId) (ordw := false) ho.2
    (by simp [adds]; omega)
  have hsent := sendClose_sends (fresh s).2 z.1
  rw [hid, hsrc, hscope, hgroup] at hsent
  change ∃ t, execSeqcl a r o p sc s = .next t ∧ _
  refine ⟨_, onCells_ok h ?_, hgroup, firingSends_put (p := sendClose (fresh s).2 z.1) (by rw [hsent]; rfl) _ _⟩
  refine (withRegs_runs h).trans ((bind_of_ok hrc).trans ((if_neg (by rw [ho.1]; decide)).trans ((bind_of_ok (doneRouteOk_usable ho.2)).trans
    ((bind_of_ok (seqcl_barrier ha)).trans ((bind_of_ok hz).trans ((bind_of_ok (addEntry_adds _ (by omega))).trans ((bind_ite ..).trans (bind_of_ok hdone))))))))

/-! ### ORD and ORDW (R251) -/

/-- The done token alone, which these two always send. -/
theorem ordBody (ho : Ordered s c f o p) (hl : f.out.length < 15) (hp : p = 1) (ordw : Bool) :
    (if p = 0 then illop else if !ordinOk (getCell s c) f.ctx o.toNat then illop
      else doneEntry s c f 0 sc.toNat none ordw >>= fun f => .ok (putFiring s c f) : R State) =
      .ok (putFiring s c (withDone s c f p 0 sc none ordw)) := by
  have hdone := doneEntry_withDone (cls := 0) (sc := sc) (acc := none) (ordw := ordw) ho.2 (show f.out.length < 16 by omega)
  rw [if_pos hp] at hdone
  rw [if_neg (by rw [hp]; decide), if_neg (by rw [ho.1]; decide)]
  exact bind_of_ok hdone

theorem exec_ord (h : CellRuns s c f (.ord o p sc)) (ho : Ordered s c f o p) (hl : f.out.length < 15) (hp : p = 1) :
    ∃ t, exec (.ord o p sc) s = .next t ∧ FiringOn s t c (.ord o p sc) (withDone s c f p 0 sc none false) := by
  change ∃ t, execOrd o p sc s = .next t ∧ _
  exact onCells_put h (ordBody ho hl hp false)

theorem exec_ordw (h : CellRuns s c f (.ordw o p sc)) (ho : Ordered s c f o p) (hl : f.out.length < 15) (hp : p = 1) :
    ∃ t, exec (.ordw o p sc) s = .next t ∧ FiringOn s t c (.ordw o p sc) (withDone s c f p 0 sc none true) := by
  change ∃ t, execOrdw o p sc s = .next t ∧ _
  exact onCells_put h (ordBody ho hl hp true)

/-- Settles O37, row by row. -/
theorem orderingInstructions : Obligations.OrderingInstructions := fun _ _ _ _ _ _ ho hl =>
  ⟨fun _ _ _ _ _ h hrc ha hz => exec_seqcl h ho hl hrc ha hz, fun hp h => exec_ord h ho hl hp,
    fun hp h => exec_ordw h ho hl hp⟩

end Sys2Proof.Machine
end

section
/-! The TAG rows (R215, R261, R262). -/

namespace Sys2Proof.Machine
open Sys2Proof.Claims

variable {s : State} {c u : Nat} {f g : Firing} {i : Instr} {d a : Spec} {T : Nat → Tag} {m r k : Nat}

/-! ### Masks of tags -/

theorem mem_maskTags : k ∈ maskTags m ↔ k < 64 ∧ bit m k = true := by simp [maskTags]

theorem complete_iff {t : Tag} : t.complete = true ↔ t.count = 0 ∧ t.issued = true := by simp [Tag.complete]

/-- The number whose bits below `n` are those that `p` accepts. -/
theorem testBit_sum_pow (p : Nat → Bool) (n i : Nat) :
    (((List.range n).filter p).foldl (fun v k => v + 2 ^ k) 0).testBit i = (decide (i < n) && p i) ∧
      ((List.range n).filter p).foldl (fun v k => v + 2 ^ k) 0 < 2 ^ n := by
  induction n with
  | zero => simp
  | succ n ih =>
    obtain ⟨hbit, hlt⟩ := ih
    rw [List.range_succ, List.filter_append, List.foldl_append]
    generalize ((List.range n).filter p).foldl (fun v k => v + 2 ^ k) 0 = v at hbit hlt ⊢
    by_cases hp : p n = true
    · have hsum : ([n].filter p).foldl (fun v k => v + 2 ^ k) v = 2 ^ n * 1 + v := by simp [hp, Nat.add_comm]
      rw [hsum, Nat.testBit_two_pow_mul_add _ hlt, hbit, Nat.pow_succ]
      refine ⟨?_, by omega⟩
      rcases Nat.lt_trichotomy i n with h | rfl | h
      · simp [h, Nat.lt_succ_of_lt h]
      · simp [hp]
      · simp [show ¬ i < n by omega, show ¬ i < n + 1 by omega, Nat.testBit_lt_two_pow (Nat.one_lt_two_pow (show i - n ≠ 0 by omega))]
    · have hsum : ([n].filter p).foldl (fun v k => v + 2 ^ k) v = v := by simp [hp]
      rw [hsum, hbit, Nat.pow_succ]
      refine ⟨?_, by omega⟩
      by_cases h : i = n
      · simp [h, hp]
      · simp [show i < n + 1 ↔ i < n by omega]

/-- The tags that TWAITA and TWAITN find complete. -/
theorem bit_completeMask (T : Nat → Tag) (m k : Nat) :
    bit (completeMask T m) k = true ↔ k < 64 ∧ bit m k = true ∧ (T k).count = 0 ∧ (T k).issued = true := by
  unfold bit completeMask maskTags
  rw [List.filter_filter, (testBit_sum_pow _ 64 k).1]
  simp only [Bool.and_eq_true, decide_eq_true_eq, complete_iff]
  exact and_congr_right fun _ => and_comm

theorem completeMask_eq (h : ∀ k, bit r k = true ↔ k < 64 ∧ bit m k = true ∧ (T k).count = 0 ∧ (T k).issued = true) : completeMask T m = r :=
  Nat.eq_of_testBit_eq fun k => Bool.eq_iff_iff.mpr ((bit_completeMask T m k).trans (h k).symm)

theorem completeMask_all (hm : m < 2 ^ 64) (h : ∀ k, k < 64 → bit m k = true → (T k).count = 0 ∧ (T k).issued = true) : completeMask T m = m :=
  completeMask_eq fun k => ⟨fun hk => by
    have hlt : k < 64 := Nat.lt_of_not_le fun hge => by
      rw [bit, Nat.testBit_lt_two_pow (Nat.lt_of_lt_of_le hm (Nat.pow_le_pow_right (by decide) hge))] at hk
      cases hk
    exact ⟨hlt, hk, h k hlt hk⟩, fun hk => hk.2.1⟩

/-- TFFR's answer: the lowest complete masked tag, or 64. -/
theorem firstComplete_eq (h : (r < 64 ∧ bit m r = true ∧ ((T r).count = 0 ∧ (T r).issued = true) ∧
      ∀ k, k < r → bit m k = true → ¬ ((T k).count = 0 ∧ (T k).issued = true)) ∨
    (r = 64 ∧ ∀ k, k < 64 → bit m k = true → ¬ ((T k).count = 0 ∧ (T k).issued = true))) :
    ((maskTags m).find? fun k => (T k).complete).getD 64 = r := by
  unfold maskTags
  rw [List.find?_filter]
  rcases h with ⟨hr, hb, hc, hlow⟩ | ⟨rfl, hno⟩
  · rw [(List.find?_range_eq_some (i := r)).mpr ⟨?_, List.mem_range.mpr hr, fun k hk => ?_⟩]
    · rfl
    · simp [hb, complete_iff.mpr hc]
    · rw [Bool.not_eq_true', decide_eq_false_iff_not]
      exact fun ⟨hkb, hkc⟩ => hlow k hk hkb (complete_iff.mp hkc)
  · rw [List.find?_range_eq_none.mpr fun k hk => ?_]
    · rfl
    · rw [Bool.not_eq_true', decide_eq_false_iff_not]
      exact fun ⟨hkb, hkc⟩ => hno k hk hkb (complete_iff.mp hkc)

/-! ### A row answers -/

/-- The answer `r` of TAG row `i` to operand `v` where the tags are `T` (R262). -/
def TagAnswers (T : Nat → Tag) (i : Instr) (d a : Spec) (v r : Nat) : Prop :=
  let done := fun k => (T k).count = 0 ∧ (T k).issued = true
  (i = .twaita d a ∧ (∀ k, k < 64 → bit v k = true → done k) ∧ r = v) ∨
    (i = .twaitn d a ∧ (∀ k, bit r k = true ↔ k < 64 ∧ bit v k = true ∧ done k) ∧ r ≠ 0) ∨
    (i = .tffr d a ∧ ((r < 64 ∧ bit v r = true ∧ done r ∧ ∀ k, k < r → bit v k = true → ¬ done k) ∨
      (r = 64 ∧ ∀ k, k < 64 → bit v k = true → ¬ done k))) ∨
    (i = .tcnt d a ∧ v ≤ 63 ∧ r = (T v).count % 65536 + if (T v).issued then 2 ^ 32 else 0)

/-- The row computes that answer, and after all rows but TCNT the cell sees every write (R215; that it sees more than the copies wrote is log entry 63). -/
theorem TagAnswers.computed {v : Nat} (h : TagAnswers T i d a v r) (hv : v < 2 ^ 64) :
    ∃ (sees : Bool) (F : (Nat → Tag) → Nat → R Nat), (∀ s, exec i s = tagInstr i sees d a F s) ∧ F T v = .ok r ∧ (sees = true ↔ i ≠ .tcnt d a) := by
  rcases h with ⟨rfl, hall, rfl⟩ | ⟨rfl, hmask, hr⟩ | ⟨rfl, hfirst⟩ | ⟨rfl, hle, rfl⟩
  · exact ⟨true, fun tags m => if completeMask tags m = m then .ok m else .error .stall, fun s => (rfl : execTwaita d a s = _),
      if_pos (completeMask_all hv hall), by simp⟩
  · have hc := completeMask_eq hmask
    have hv0 : v ≠ 0 := fun h0 => hr (by rw [← hc, h0]; rfl)
    exact ⟨true, fun tags m => if m = 0 then boundsR 0 else if completeMask tags m = 0 then .error .stall else .ok (completeMask tags m),
      fun s => (rfl : execTwaitn d a s = _), (if_neg hv0).trans ((if_neg (hc ▸ hr)).trans (congrArg _ hc)), by simp⟩
  · exact ⟨true, fun tags m => .ok (((maskTags m).find? fun k => (tags k).complete).getD 64), fun s => (rfl : execTffr d a s = _),
      congrArg _ (firstComplete_eq hfirst), by simp⟩
  · exact ⟨false, fun tags v => if 63 < v then boundsR v else .ok ((tags v).count % 65536 + if (tags v).issued then 2 ^ 32 else 0),
      fun s => (rfl : execTcnt d a s = _), if_neg (Nat.not_lt.mpr hle), by simp⟩

/-- The tags of a unit as its instruction finds them. -/
theorem getTag_past (s : State) (u pc : Nat) (i : Instr) : getTag (past s u i) (ctlSrc (past s u i) u pc) = getTag s (ctlSrc s u pc) := by
  funext k
  change tget {} (getCtl (past s u i) u).tags k = tget {} (getCtl s u).tags k
  rw [getCtl_past_self]
  rfl

theorem tagInstr_ctl {sees : Bool} {F : (Nat → Tag) → Nat → R Nat} (h : CtlRuns s u i)
    (hF : F (getTag s (ctlSrc s u (getCtl s u).pc)) (readG s u a) = .ok r) :
    ∃ t, tagInstr i sees d a F s = .next t ∧ OnlyCtl s t u ((behind s u i).setG d.toNat (BitVec.ofNat 64 r)) := by
  refine ⟨_, (runInstr_ctlRuns h).trans (congrArg (ctlOutcome s u i) (a₂ := .ok _) ?_), onlyCtl_set s u _⟩
  rw [getTag_past, readG_past, ← writeG_past]
  exact bind_of_ok hF

theorem tagInstr_cell {sees : Bool} {F : (Nat → Tag) → Nat → R Nat} {w : Nat} (h : CellRuns s c f i) (ha : readSpec s c f a = .ok w)
    (hF : F (getTag s (firingSrc s c f)) (w % 2 ^ 64) = .ok r) (hd : writeSpec s c f d r = .ok g) :
    ∃ t, tagInstr i sees d a F s = .next t ∧ FiringOn { s with views := t.views } t c i g ∧ (sees = false → t.views = s.views) ∧
      (sees = true → SeesAll s t c) := by
  refine ⟨_, (runInstr_cellRuns h).trans (congrArg (cellOutcome s c f i) (a₂ := .ok (putFiring (if sees then seeAll s c else s) c g)) ?_), ?_⟩
  · exact (withRegs_runs h).trans ((bind_of_ok ha).trans ((bind_of_ok hF).trans (bind_of_ok hd)))
  · cases sees with
    | false => exact ⟨firingOn_put .., fun _ => rfl, nofun⟩
    | true =>
      refine ⟨?_, nofun, fun _ => seesAll_put rfl _ _⟩
      change FiringOn { s with views := (seeAll s c).views } _ c _ _
      rw [← seeAll_frame]
      exact firingOn_put ..

/-! ### TCLR -/

/-- A unit's tags are cleared, and nothing else changes. -/
theorem clearTags_unit {x : Src} (hx : x.kind = 3) (s : State) (m : Nat) :
    let t := clearTags s x m
    t = { s with ctls := t.ctls } ∧ getCtl t x.who = { getCtl s x.who with tags := (getCtl t x.who).tags } ∧ ∀ v, v ≠ x.who → getCtl t v = getCtl s v := by
  refine foldl_keeps (fun t : State => t = { s with ctls := t.ctls } ∧ getCtl t x.who = { getCtl s x.who with tags := (getCtl t x.who).tags } ∧
    ∀ v, v ≠ x.who → getCtl t v = getCtl s v) _ (fun t k ht => ?_) (maskTags m) s ⟨rfl, rfl, fun _ _ => rfl⟩
  obtain ⟨hs, hu, hv⟩ := ht
  rw [modTag, if_pos hx]
  refine ⟨?_, ?_, fun v hne => ?_⟩
  · rw [hs]
    rfl
  · rw [getCtl_modCtl, if_pos rfl, hu]
  · rw [getCtl_modCtl, if_neg hne, hv v hne]

theorem exec_tclr_ctl (h : CtlRuns s u (.tclr a)) (hc : ∀ k, k < 64 → bit (readG s u a) k = true → (tget {} (getCtl s u).tags k).count = 0) :
    exec (.tclr a) s = .next (clearTags (past s u (.tclr a)) (ctlSrc (past s u (.tclr a)) u (getCtl s u).pc) (readG s u a)) := by
  change execTclr a s = _
  refine (runInstr_ctlRuns h).trans (congrArg (ctlOutcome s u _) (a₂ := .ok _) ?_)
  dsimp only
  rw [readG_past, if_neg]
  rw [getTag_past, Bool.not_eq_true, List.any_eq_false]
  intro k hk
  obtain ⟨hlt, hb⟩ := mem_maskTags.mp hk
  have hcount : (getTag s (ctlSrc s u (getCtl s u).pc) k).count = 0 := hc k hlt hb
  simp [hcount]

theorem exec_tclr_cell {v : Nat} (h : CellRuns s c f (.tclr a)) (ha : readSpec s c f a = .ok v) (hl : f.out.length < 16)
    (hc : ∀ k, k < 64 → bit v k = true → (tget {} (getFrame s f.cfg f.frame).tags k).count = 0 ∧ ownOnTag f k = 0) :
    ∃ t, exec (.tclr a) s = .next t ∧ FiringOn s t c (.tclr a) (adds f (.cmd (.tclr (v % 2 ^ 64)) none)) := by
  change ∃ t, execTclr a s = .next t ∧ _
  refine ⟨_, (runInstr_cellRuns h).trans (congrArg (cellOutcome s c f _) (a₂ := .ok (putFiring s c _)) ?_), firingOn_put s c _ _⟩
  refine (withRegs_runs h).trans ((bind_of_ok ha).trans ((if_neg ?_).trans (bind_of_ok (addEntry_adds _ hl))))
  rw [Bool.not_eq_true, List.any_eq_false]
  intro k hk
  obtain ⟨hlt, hb⟩ := mem_maskTags.mp hk
  rw [bit, Nat.testBit_mod_two_pow, decide_eq_true hlt, Bool.true_and] at hb
  obtain ⟨hcount, hown⟩ := hc k hlt hb
  have htag : (getTag s (firingSrc s c f) k).count = 0 := hcount
  simp [htag, hown]

/-- Settles O39: the four rows that answer by what they compute, on a unit and on a cell, and TCLR. -/
theorem tagInstructions : Obligations.TagInstructions := by
  refine ⟨fun i d a s v x => ?_, fun a s => ⟨fun u h hc => ?_, fun c f v h ha hl hc => exec_tclr_cell h ha hl hc⟩⟩
  · intro T done r hi
    have hi' : TagAnswers (getTag s x) i d a v r := hi
    refine ⟨fun u h ha hx => ?_, fun c f w g h ha hw hx hd => ?_⟩
    · obtain ⟨sees, F, hexec, hF, -⟩ := hi'.computed (ha ▸ ((getCtl s u).g a.toNat).isLt)
      rw [hexec]
      exact tagInstr_ctl (F := F) h (by rw [← hx, ha, hF])
    · obtain ⟨sees, F, hexec, hF, hsees⟩ := hi'.computed (hw ▸ Nat.mod_lt _ (Nat.two_pow_pos 64))
      rw [hexec]
      obtain ⟨t, ht, hon, hno, hall⟩ := tagInstr_cell (sees := sees) (F := F) h ha (by rw [← hx, hw, hF]) hd
      exact ⟨t, ht, hon, fun hcnt => hno (Bool.eq_false_iff.mpr fun hs => hsees.mp hs hcnt), fun hne => hall (hsees.mpr hne)⟩
  · obtain ⟨hs, hu, hv⟩ := clearTags_unit (x := ctlSrc (past s u (.tclr a)) u (getCtl s u).pc) rfl (past s u (.tclr a)) (readG s u a)
    have htags := fun k (hk : k < 64) => getTag_clearTags (s := past s u (.tclr a)) (x := ctlSrc (past s u (.tclr a)) u (getCtl s u).pc) (.inl rfl)
      (readG s u a) hk
    have hexec := exec_tclr_ctl h hc
    rw [getTag_past] at htags
    generalize clearTags _ _ _ = t at hs hu hv htags hexec
    have hpast := getCtl_past_self s u (.tclr a)
    refine ⟨t, hexec, ?_, ?_, fun v hne => (hv v hne).trans ((getCtl_past ..).trans (if_neg hne)), fun n => ?_, fun k hk => ?_⟩
    · rw [hs]
      rfl
    · exact (congrArg Ctl.pc hu).trans (congrArg Ctl.pc hpast)
    · exact (congrArg (Ctl.g · n) hu).trans (show (getCtl (past s u (.tclr a)) u).g n = _ by rw [hpast, g_behind])
    · refine (htags k hk).trans ?_
      split <;> rfl

end Sys2Proof.Machine
end

section
/-! What the writes of an engine may do to units and configurations (R258, R441, R448, R450): they may stop a frame or send a record, and nothing
else.  So the tags and the pc's stand, whatever checkpoints are drained and whatever granules are uncorrectable. -/

namespace Sys2Proof.Machine
open Sys2Proof.Claims

variable {s t : State}

/-! ### Job traps alone -/

/-- From `s` to `t` nothing changed units and configurations but job traps. -/
inductive OnlyTraps (s : State) : State → Prop where
  | refl : OnlyTraps s s
  | beside {t u : State} (h : OnlyTraps s t) (hc : u.ctls = t.ctls) (hf : u.cfgs = t.cfgs) : OnlyTraps s u
  | trap {t : State} (h : OnlyTraps s t) (e : Trap) (x : Src) (k : Option Nat) : OnlyTraps s (jobTrap t e x k)

theorem OnlyTraps.of (hc : t.ctls = s.ctls) (hf : t.cfgs = s.cfgs) : OnlyTraps s t := .beside .refl hc hf

theorem OnlyTraps.trans {u : State} (h1 : OnlyTraps s t) (h2 : OnlyTraps t u) : OnlyTraps s u := by
  induction h2 with
  | refl => exact h1
  | beside _ hc hf ih => exact ih.beside hc hf
  | trap _ e x k ih => exact ih.trap e x k

theorem OnlyTraps.ite {p : Prop} [Decidable p] {u : State} (h1 : OnlyTraps s t) (h2 : OnlyTraps s u) : OnlyTraps s (if p then t else u) :=
  ite_keeps (OnlyTraps s) p h1 h2

theorem OnlyTraps.foldl {β : Type} {f : State → β → State} (hf : ∀ s b, OnlyTraps s (f s b)) (l : List β) (s : State) : OnlyTraps s (l.foldl f s) :=
  foldl_keeps (OnlyTraps s) f (fun _ b ha => ha.trans (hf _ b)) l s .refl

theorem onlyTraps_writeNat (s : State) (pa n v : Nat) : OnlyTraps s (writeNat s pa n v) := by
  rw [writeNat_frame]
  exact .of rfl rfl

theorem onlyTraps_allSeen (s : State) : OnlyTraps s (allSeen s) := OnlyTraps.ite .refl (.of rfl rfl)

theorem onlyTraps_landPieces (s : State) (ps : List (Nat × Nat × Nat)) (w : Nat) : OnlyTraps s (landPieces s ps w).1 := by
  refine foldl_keeps (fun a : State × List (Nat × Nat × Nat) => OnlyTraps s a.1) _ (fun a p ha => ?_) ps _ ?_
  · exact ite_keeps (fun a : State × List (Nat × Nat × Nat) => OnlyTraps s a.1) _ (ha.beside rfl rfl) (ha.trans (onlyTraps_writeNat ..))
  · exact OnlyTraps.ite .refl (.of rfl rfl)

/-! ### Copies made before a write (R448, R450) -/

/-- What comes before a write traps jobs at most. -/
def Before.OnlyTraps (bf : Before) : Prop := ∀ s b len, Machine.OnlyTraps s (bf s b len)

theorem onlyTraps_ckptHeader {bf : Before} (hb : bf.OnlyTraps) (s : State) (c : Ckpt) (st k : Nat) : OnlyTraps s (ckptHeader bf s c st k) :=
  ((hb s _ _).trans (onlyTraps_landPieces ..)).trans (onlyTraps_allSeen _)

theorem onlyTraps_ckptUndefined {bf : Before} (hb : bf.OnlyTraps) (s : State) (c : Ckpt) : OnlyTraps s (ckptUndefined bf s c) := by
  refine OnlyTraps.foldl (fun u r => ?_) _ s
  have hw := ((hb u ((if c.rest then r.1 else r.2.1) * 8) (r.2.2 * 8)).trans (onlyTraps_allSeen _)).trans
    (onlyTraps_writeNat _ (if c.rest then r.1 else r.2.1) r.2.2 (Config.freeBytes u.free))
  exact hw.beside rfl rfl

theorem onlyTraps_ckptFail {bf : Before} (hb : bf.OnlyTraps) (s : State) (b : Nat) (c : Ckpt) (e : Trap) : OnlyTraps s (ckptFail bf s b c e) := by
  have hgone : OnlyTraps s (modCkpt s b c.id fun _ => none) := .of rfl rfl
  have hleave : OnlyTraps s (ckptLeave bf s b c 3 e.cause) := (hgone.trans (onlyTraps_ckptUndefined hb _ c)).trans (onlyTraps_ckptHeader hb _ c _ _)
  have hbox : OnlyTraps s (bboxEvent (ckptLeave bf s b c 3 e.cause) b 9 e.cause 0 0 0 0 0 c.blockVa c.bytes) := hleave.beside rfl rfl
  exact OnlyTraps.ite (hbox.trap ..) hbox

theorem onlyTraps_ckptProgress {bf : Before} (hb : bf.OnlyTraps) (s : State) (b id : Nat) : OnlyTraps s (ckptProgress bf s b id) := by
  unfold ckptProgress
  split
  · exact .refl
  · dsimp only
    split
    · exact hb ..
    · exact (hb ..).trans (onlyTraps_ckptHeader (fun _ _ _ => .refl) ..)

/-- A part of a checkpoint lands, and its header says so. -/
theorem onlyTraps_ckptWrite {bf : Before} (hb : bf.OnlyTraps) (s : State) (dst n v b id : Nat) (f : Ckpt → Option Ckpt) :
    OnlyTraps s (ckptProgress bf (modCkpt (writeNat (allSeen s) dst n v) b id f) b id) := by
  have hland : OnlyTraps s (modCkpt (writeNat (allSeen s) dst n v) b id f) :=
    ((onlyTraps_allSeen s).trans (onlyTraps_writeNat (allSeen s) dst n v)).beside rfl rfl
  exact hland.trans (onlyTraps_ckptProgress hb ..)

theorem onlyTraps_ckptCopy {bf : Before} (hb : bf.OnlyTraps) (s : State) (b id : Nat) (g : Nat × Nat) : OnlyTraps s (ckptCopy bf s b id g) := by
  unfold ckptCopy
  split
  · exact .refl
  refine OnlyTraps.ite .refl ?_
  split
  · exact onlyTraps_ckptFail hb ..
  refine OnlyTraps.ite (onlyTraps_ckptFail hb ..) ?_
  rename_i src dst _
  dsimp only
  generalize hu : bf (modCkpt s b id _) (dst * 8) 32768 = u
  have hw : OnlyTraps s u := hu ▸ OnlyTraps.trans (t := modCkpt s b id _) (.of rfl rfl) (hb ..)
  refine OnlyTraps.ite hw ?_
  generalize hp : (if u.poison = [] then u else { u with poison := u.poison.filter fun p => !(dst ≤ p && p < dst + 4096) }) = v
  have hv : OnlyTraps s v := hp ▸ OnlyTraps.ite hw (hw.beside rfl rfl)
  exact hv.trans (onlyTraps_ckptWrite hb v dst 4096 _ b id _)

theorem onlyTraps_drainFor (n : Nat) : (drainFor n).OnlyTraps := by
  induction n with
  | zero => exact fun _ _ _ => .refl
  | succ n ih =>
    exact fun s b len => OnlyTraps.foldl (f := fun (s : State) (h : Nat × Nat × Nat × Nat) => ckptCopy (drainFor n) s h.1 h.2.1 h.2.2)
      (fun u g => onlyTraps_ckptCopy ih u g.1 g.2.1 g.2.2) (drainHits s b len) s

theorem onlyTraps_drainAll : Before.OnlyTraps drainAll := fun s b len => OnlyTraps.ite .refl (onlyTraps_drainFor _ s b len)

theorem onlyTraps_writePieces (s : State) (ps : List (Nat × Nat × Nat)) (w : Nat) (x : Src) : OnlyTraps s (writePieces s ps w x).1 := by
  have hdrain : OnlyTraps s (ps.foldl (fun s p => drainAll s p.1 p.2.1) s) :=
    OnlyTraps.foldl (f := fun (s : State) (p : Nat × Nat × Nat) => drainAll s p.1 p.2.1) (fun u p => onlyTraps_drainAll u p.1 p.2.1) ps s
  exact OnlyTraps.beside (hdrain.trans (onlyTraps_landPieces _ ps w)) rfl rfl

theorem drained_writePieces (s : State) (ps : List (Nat × Nat × Nat)) (w : Nat) (x : Src) : Drained s (writePieces s ps w x).1 := by
  have hdrain : Drained s (ps.foldl (fun s p => drainAll s p.1 p.2.1) s) :=
    Drained.foldl (f := fun (s : State) (p : Nat × Nat × Nat) => drainAll s p.1 p.2.1) (fun u p => drains_drainAll u p.1 p.2.1) ps s
  exact (hdrain.trans (drained_landPieces _ ps w)).trans rfl

/-! ### Bytes counted on a barrier (R257, R265, R441) -/

/-- From `s` to `t` an engine's bytes were counted on a barrier: nothing else changed but what the write of the barrier may change, with whom it
releases and what precedes its phases. -/
def Served (s t : State) : Prop :=
  t = { s with mem := t.mem, poison := t.poison, views := t.views, free := t.free, bbox := t.bbox, drains := t.drains, ctls := t.ctls, cfgs := t.cfgs
               barWaits := t.barWaits, barPast := t.barPast, barNow := t.barNow }

theorem Served.trans {u : State} (h1 : Served s t) (h2 : Served t u) : Served s u := by
  unfold Served at *
  rw [h2, h1]

theorem Served.work (h : Served s t) : t.work = s.work := by rw [h]

theorem Served.cells (h : Served s t) : t.cells = s.cells := by rw [h]

theorem Served.blocks (h : Served s t) : t.blocks = s.blocks := by rw [h]

theorem Drained.served (h : Drained s t) : Served s t := by
  unfold Served
  rw [h]

theorem barWrite_served (s : State) (op pa n w : Nat) (past : List Nat) :
    Served s (barWrite s op pa n w past).1 ∧ OnlyTraps s (barWrite s op pa n w past).1 := by
  have hs := fun ps => (drained_writePieces s ps w anyone).served
  have ht := fun ps => onlyTraps_writePieces s ps w anyone
  unfold barWrite
  dsimp only
  generalize hr : writePieces s _ w = r
  have hs' : Served s r.1 := hr ▸ hs _
  have ht' : OnlyTraps s r.1 := hr ▸ ht _
  split
  · exact ⟨hs', ht'⟩
  · split
    · rw [newPast_frame, releaseWaits_frame]
      exact ⟨hs'.trans rfl, ht'.beside rfl rfl⟩
    · rw [releases_frame, notePast_frame]
      exact ⟨hs'.trans rfl, ht'.beside rfl rfl⟩

theorem barBytes_served (s : State) (x : Src) (bar : Option (Nat × Nat)) (op n : Nat) (tag : Option Nat) :
    Served s (barBytes s x bar op n tag) ∧ OnlyTraps s (barBytes s x bar op n tag) := by
  cases bar with
  | none => exact ⟨rfl, .refl⟩
  | some b =>
    obtain ⟨hs, ht⟩ := barWrite_served s op b.1 n x.insn.toNat []
    unfold barBytes
    dsimp only
    split
    · exact ⟨hs, ht⟩
    · exact ⟨hs.trans (drained_jobTrap ..).served, ht.trap ..⟩

/-! ### Tags and pc's stand -/

/-- From `s` to `t` the pc and the tags of every unit, the tags of every frame and which configurations there are stand. -/
structure TagsStand (s t : State) : Prop where
  pc : ∀ u, (getCtl t u).pc = (getCtl s u).pc
  unit : ∀ u, (getCtl t u).tags = (getCtl s u).tags
  frame : ∀ a n, (getFrame t a n).tags = (getFrame s a n).tags
  cfg : ∀ a, (findCfg t a).isSome = (findCfg s a).isSome

theorem TagsStand.refl (s : State) : TagsStand s s := ⟨fun _ => rfl, fun _ => rfl, fun _ _ => rfl, fun _ => rfl⟩

theorem TagsStand.trans {u : State} (h1 : TagsStand s t) (h2 : TagsStand t u) : TagsStand s u :=
  ⟨fun i => (h2.pc i).trans (h1.pc i), fun i => (h2.unit i).trans (h1.unit i), fun a n => (h2.frame a n).trans (h1.frame a n),
    fun a => (h2.cfg a).trans (h1.cfg a)⟩

theorem TagsStand.of (hc : t.ctls = s.ctls) (hf : t.cfgs = s.cfgs) : TagsStand s t := by
  refine ⟨fun u => ?_, fun u => ?_, fun a n => ?_, fun a => ?_⟩ <;> simp only [getCtl, getFrame, getCfg, findCfg, hc, hf]

theorem tagsStand_modCtl (s : State) (v : Nat) {g : Ctl → Ctl} (hg : ∀ x, (g x).pc = x.pc ∧ (g x).tags = x.tags) : TagsStand s (modCtl s v g) := by
  have hunit : ∀ u, (getCtl (modCtl s v g) u).pc = (getCtl s u).pc ∧ (getCtl (modCtl s v g) u).tags = (getCtl s u).tags := fun u => by
    rw [getCtl_modCtl]
    split
    case isTrue h => exact h ▸ hg _
    case isFalse => exact ⟨rfl, rfl⟩
  exact ⟨fun u => (hunit u).1, fun u => (hunit u).2, fun _ _ => rfl, fun _ => rfl⟩

/-- Every unit changed alike. -/
theorem tagsStand_tmap (s : State) {g : Ctl → Ctl} (h0 : g {} = {}) (hg : ∀ x, (g x).pc = x.pc ∧ (g x).tags = x.tags) :
    TagsStand s { s with ctls := tmap {} g s.ctls } := by
  have hunit : ∀ u, getCtl { s with ctls := tmap {} g s.ctls } u = g (getCtl s u) := fun u => tget_tmap _ _ h0 _ u
  exact ⟨fun u => (congrArg Ctl.pc (hunit u)).trans (hg _).1, fun u => (congrArg Ctl.tags (hunit u)).trans (hg _).2, fun _ _ => rfl, fun _ => rfl⟩

theorem tagsStand_modFrame (s : State) (a n : Nat) {g : Frame → Frame} (hg : ∀ x, (g x).tags = x.tags) : TagsStand s (modFrame s a n g) := by
  refine ⟨fun _ => rfl, fun _ => rfl, fun b m => ?_, fun b => ?_⟩
  · rw [getFrame_modFrame_eq]
    split
    · exact hg _
    · rfl
  · have h := findCfg_modCfg s a b (fun c => { c with frames := tmod {} c.frames n g }) fun _ => rfl
    rw [modFrame, h, Option.isSome_map]

theorem enqueue_tags (x : Ctl) (u : Nat) (r : TrapRec) : (x.enqueue u r).tags = x.tags := by
  unfold Ctl.enqueue
  split <;> rfl

theorem tagsStand_queueRecord (s : State) (u : Nat) (r : TrapRec) : TagsStand s (queueRecord s u r) :=
  tagsStand_modCtl s u fun x => ⟨enqueue_pc x u r, enqueue_tags x u r⟩

theorem tagsStand_toSupervisor (s : State) (n : Nat) (b : Bool) (r : TrapRec) : TagsStand s (toSupervisor s n b r) := by
  unfold toSupervisor
  split
  · exact tagsStand_queueRecord ..
  · exact .of rfl rfl

theorem tagsStand_routeRecord (s : State) (r : TrapRec) : TagsStand s (routeRecord s r) := by
  unfold routeRecord escalate
  dsimp only
  split
  · exact .refl s
  · split
    · exact tagsStand_toSupervisor ..
    · exact tagsStand_queueRecord ..

theorem tagsStand_stopFrame (s : State) (r : TrapRec) : TagsStand s (stopFrame s r) := by
  unfold stopFrame
  split
  · exact .refl s
  · split
    · refine TagsStand.trans ?_ (tagsStand_tmap _ rfl fun _ => ⟨rfl, rfl⟩)
      exact tagsStand_modFrame _ _ _ fun _ => rfl
    · refine TagsStand.trans ?_ (tagsStand_routeRecord ..)
      exact tagsStand_modFrame _ _ _ fun _ => rfl

theorem tagsStand_jobTrap (s : State) (e : Trap) (x : Src) (k : Option Nat) : TagsStand s (jobTrap s e x k) := by
  unfold jobTrap
  dsimp only
  split
  · split
    · exact tagsStand_queueRecord ..
    · exact tagsStand_toSupervisor ..
  · exact tagsStand_stopFrame ..

theorem OnlyTraps.tagsStand (h : OnlyTraps s t) : TagsStand s t := by
  induction h with
  | refl => exact .refl s
  | beside _ hc hf ih => exact ih.trans (.of hc hf)
  | trap _ e x k ih => exact ih.trans (tagsStand_jobTrap ..)

theorem TagsStand.getTag (h : TagsStand s t) (x : Src) (k : Nat) : getTag t x k = getTag s x k := by
  unfold Machine.getTag tagsOf
  rw [h.unit, h.frame]

theorem TagsStand.hasTags {x : Src} (h : TagsStand s t) (hx : hasTags s x) : hasTags t x := hx.imp id fun hs => (h.cfg _).trans hs

/-! ### A job starts and settles (R257) -/

theorem modTag_pc (s : State) (x : Src) (k : Nat) (g : Tag → Tag) (u : Nat) : (getCtl (modTag s x k g) u).pc = (getCtl s u).pc := by
  unfold modTag
  split
  · rw [getCtl_modCtl]
    split
    case isTrue h => rw [h]
    case isFalse => rfl
  · rfl

theorem served_modTag (s : State) (x : Src) (k : Nat) (g : Tag → Tag) : Served s (modTag s x k g) := by
  unfold Served
  rw [modTag_frame]

/-- A job that starts is counted on its tag; beside its tag and its barrier nothing changes. -/
theorem jobStart_served (s : State) (j : CopyJob) : Served s (jobStart s j) ∧ (∀ u, (getCtl (jobStart s j) u).pc = (getCtl s u).pc) ∧
    TagTakes s (jobStart s j) j.src (some j.tag) := by
  obtain ⟨hs, ht⟩ := barBytes_served (tagStart s j.src j.tag) j.src j.bar 2 j.bytes (some j.tag)
  have hstand := ht.tagsStand
  refine ⟨(served_modTag ..).trans hs, fun u => (hstand.pc u).trans (modTag_pc ..), fun hx => (hstand.getTag _ _).trans ?_⟩
  rw [tagStart, getTag_modTag hx, if_pos rfl]

/-- A job that had started is settled on its tag. -/
theorem jobSettle_served (s : State) (j : CopyJob) : Served s (jobSettle s j) ∧ (hasTags s j.src → hasTags (jobSettle s j) j.src ∧
    (j.started = true → (getTag (jobSettle s j) j.src j.tag).count = (getTag s j.src j.tag).count - 1)) := by
  obtain ⟨hs, ht⟩ := barBytes_served s j.src j.bar 3 j.bytes (some j.tag)
  have hstand := ht.tagsStand
  unfold jobSettle
  split
  · refine ⟨hs.trans (served_modTag ..), fun hx => ⟨hasTags_modTag (hstand.hasTags hx) .., fun _ => ?_⟩⟩
    rw [tagEnd, getTag_modTag (hstand.hasTags hx), if_pos rfl]
    exact congrArg (fun t : Tag => t.count - 1) (hstand.getTag ..)
  case isFalse h => exact ⟨rfl, fun hx => ⟨hx, fun h' => absurd h' h⟩⟩

end Sys2Proof.Machine
end

section
/-! Copies as they are issued, ports and cancelling (R253 to R260, R403). -/

namespace Sys2Proof.Machine
open Sys2Proof.Claims

variable {s : State} {c u : Nat} {f : Firing} {i : Instr} {d a b : Spec} {j : CopyJob} {x : Bool}

/-! ### The job that the checks answer (R254, R256) -/

/-- A field of a field. -/
theorem bits_bits (v a : Nat) {n lo len : Nat} (h : lo + len ≤ n) : bits (bits v a n) lo len = bits v (a + lo) len := by
  rw [show bits v a n = (v >>> a) % 2 ^ n from rfl, bits_mod _ _ _ _ h, bits, bits, Nat.shiftRight_add]

/-- A job has the fields of its control words, the issuer and the kind of its instruction. -/
theorem copyChecks_job {src : Src} {srec drec : BitVec 256} {v : Nat} {route : Nat → Option Token} {dest own : Nat → Nat}
    (h : copyChecks s src srec drec v x route dest own = .ok j) :
    j.src = src ∧ j.xform = x ∧ j.count = bits v 128 40 ∧ j.sstart = bits v 0 64 ∧ j.dstart = bits v 64 64 ∧ j.tag = bits v 168 6 := by
  unfold copyChecks at h
  have h := ok_of_check (ok_of_check (ok_of_check h))
  obtain ⟨_, -, h⟩ := ok_of_bind h
  obtain ⟨_, -, h⟩ := ok_of_bind h
  obtain ⟨_, -, h⟩ := ok_of_bind h
  obtain ⟨_, -, h⟩ := ok_of_bind h
  obtain ⟨_, -, h⟩ := ok_of_bind h
  cases ok_of_check h
  exact ⟨rfl, rfl, bits_bits v 128 (by decide), rfl, rfl, bits_bits v 128 (by decide)⟩

/-- A controller's job is its own, in its grove. -/
theorem copyBlock_job {pc va : Nat} (h : copyBlock s u pc va x = .ok j) : j.src = ctlSrc s u pc ∧ j.grove = u := by
  unfold copyBlock at h
  obtain ⟨_, -, h⟩ := ok_of_bind h
  obtain ⟨_, -, h⟩ := ok_of_bind h
  obtain ⟨_, -, h⟩ := ok_of_bind h
  obtain ⟨k, hk, h⟩ := ok_of_bind h
  obtain ⟨_, -, h⟩ := ok_of_bind h
  cases h
  exact ⟨(copyChecks_job hk).1, rfl⟩

/-! ### SCOPY and SXFORM on a cell -/

/-- The firing with the copy in its buffer; a job that names a token counts one emission on its route (R254). -/
def withCopy (c : Nat) (f : Firing) (j : CopyJob) : Firing :=
  if j.tok.isSome then { adds f (.cmd (.copy { j with grove := groveOf c }) none) with emitted := f.emitted.set j.route (f.emitted.getD j.route 0 + 1) }
  else adds f (.cmd (.copy { j with grove := groveOf c }) none)

/-- The token that a copy of the firing may send on route `k`. -/
def copyToken (s : State) (c : Nat) (f : Firing) (k : Nat) : Option Token :=
  if (checkRoute (getCell s c) f k false).isOk then some (routeToken c f k ((getCell s c).route f.ctx k)) else none

/-- What the checks of a firing's copy answer. -/
def cellCopy (s : State) (c : Nat) (f : Firing) (d a : Spec) (v : Nat) (x : Bool) : R CopyJob :=
  copyChecks s (firingSrc s c f) ((getCell s c).record f.ctx a.toNat) ((getCell s c).record f.ctx d.toNat) v x (copyToken s c f)
    (fun k => routeDest (getCfg s f.cfg) ((getCell s c).route f.ctx k)) (ownOnTag f)

/-- The check of a copy's footprint leaves for the owners (R227). -/
theorem sendJobCheck_sends (s : State) (c : Nat) (g : Firing) (src : Src) (foot : List Range) (scope : Nat) :
    sendJobCheck (putFiring s c g) src foot scope = putFiring { s with work := s.work ++ footCheck src foot scope } c g := by
  unfold sendJobCheck footCheck
  split
  · rw [List.append_nil]
  · rfl

theorem copyCell_sends {rs rd : Rec} {v : Nat} (hl : f.out.length < 16) (hs : useRecord (getCell s c) f.ctx a.toNat false = .ok rs)
    (hd : useRecord (getCell s c) f.ctx d.toNat x = .ok rd) (hb : readSpec s c f b = .ok v) (hv : bits v 256 256 = 0)
    (hj : cellCopy s c f d a v x = .ok j) :
    copyCell x d a b c f s = .ok (putFiring { s with work := s.work ++ footCheck (firingSrc s c f) j.foot j.scope } c (withCopy c f j)) := by
  rw [← sendJobCheck_sends]
  exact (bind_of_ok hs).trans ((bind_of_ok hd).trans ((bind_of_ok hb).trans ((if_neg (not_not_intro hv)).trans
    ((bind_of_ok hj).trans (bind_of_ok (addEntry_adds _ hl))))))

/-- The rows that copy on a cell. -/
theorem exec_copyCell (hi : (i = .scopyCell d a b ∧ x = false) ∨ (i = .sxformCell d a b ∧ x = true)) (s : State) :
    exec i s = onCells i s (withRegs i (copyCell x d a b)) := by
  rcases hi with ⟨rfl, rfl⟩ | ⟨rfl, rfl⟩
  · exact (rfl : execScopyCell d a b s = _)
  · exact (rfl : execSxformCell d a b s = _)

theorem exec_copyCell_sends {rs rd : Rec} {v : Nat} (hi : (i = .scopyCell d a b ∧ x = false) ∨ (i = .sxformCell d a b ∧ x = true))
    (h : CellRuns s c f i) (hl : f.out.length < 16) (hs : useRecord (getCell s c) f.ctx a.toNat false = .ok rs)
    (hd : useRecord (getCell s c) f.ctx d.toNat x = .ok rd) (hb : readSpec s c f b = .ok v) (hv : bits v 256 256 = 0)
    (hj : cellCopy s c f d a v x = .ok j) :
    ∃ t, exec i s = .next t ∧ FiringSends s t c i (withCopy c f j) (footCheck (firingSrc s c f) j.foot j.scope) := by
  rw [exec_copyCell hi]
  exact ⟨_, onCells_ok h ((withRegs_runs h).trans (copyCell_sends hl hs hd hb hv hj)), firingSends_put rfl i _⟩

theorem exec_scancel_cell {v : Nat} (h : CellRuns s c f (.scancel a)) (ha : readSpec s c f a = .ok v) (hl : f.out.length < 16) :
    ∃ t, exec (.scancel a) s = .next t ∧ FiringOn s t c (.scancel a) (adds f (.cmd (.scancel (v % 2 ^ 64)) none)) := by
  change ∃ t, execScancel a s = .next t ∧ _
  refine ⟨_, (runInstr_cellRuns h).trans (congrArg (cellOutcome s c f _) (a₂ := .ok (putFiring s c _)) ?_), firingOn_put s c _ _⟩
  exact (withRegs_runs h).trans ((bind_of_ok ha).trans (bind_of_ok (addEntry_adds _ hl)))

/-! ### SCOPY and SXFORM on a controller -/

theorem exec_copyCtl (hi : (i = .scopyCtrl a ∧ x = false) ∨ (i = .sxformCtrl a ∧ x = true)) (s : State) :
    exec i s = onCtls i s (copyCtl x a) := by
  rcases hi with ⟨rfl, rfl⟩ | ⟨rfl, rfl⟩
  · exact (rfl : execScopyCtrl a s = _)
  · exact (rfl : execSxformCtrl a s = _)

theorem exec_copyCtl_enters (hi : (i = .scopyCtrl a ∧ x = false) ∨ (i = .sxformCtrl a ∧ x = true)) (h : CtlRuns s u i)
    (hj : copyBlock (past s u i) u (getCtl s u).pc (readG s u a) x = .ok j) (hq : queuedJobs s u < 64) :
    exec i s = .next (enterJob (past s u i) j) := by
  rw [exec_copyCtl hi]
  refine onCtls_ok h ?_
  rw [copyCtl, readG_past]
  exact (bind_of_ok hj).trans (if_neg (Nat.not_le.mpr hq))

/-- The unit goes on behind its copy. -/
theorem enterJob_pc (s : State) (j : CopyJob) (u : Nat) : (getCtl (enterJob s j) u).pc = (getCtl s u).pc := (jobStart_served s j).2.1 u

/-! ### SBIND (R259) -/

theorem setG_tags (x : Ctl) (r : Nat) (v : Word) : (x.setG r v).tags = x.tags := by
  unfold Ctl.setG
  split
  · split <;> rfl
  · rfl

theorem tagsStand_writeG (s : State) (u : Nat) (r : Spec) (v : Nat) : TagsStand s (writeG s u r v) :=
  tagsStand_modCtl s u fun _ => ⟨setG_pc .., setG_tags ..⟩

theorem writeG_frame (s : State) (u : Nat) (r : Spec) (v : Nat) : writeG s u r v = { s with ctls := (writeG s u r v).ctls } := rfl

theorem past_frame (s : State) (u : Nat) (i : Instr) : past s u i = { s with ctls := (past s u i).ctls } := rfl

theorem enters_frame (s : State) (w : Work) : addWork (fresh s).2 w = { s with nextId := s.nextId + 1, work := s.work ++ [w] } := rfl

theorem getCtl_of_ctls {t : State} (h : t.ctls = s.ctls) (u : Nat) : getCtl t u = getCtl s u := by
  unfold getCtl
  rw [h]

theorem exec_sbind {p : Nat} (h : CtlRuns s u (.sbind d a b))
    (hj : copyBlock (past s u (.sbind d a b)) u (getCtl s u).pc (readG s u a) false = .ok j) (hp : readG s u b = p) (hle : p ≤ 3) :
    exec (.sbind d a b) s = ctlOutcome s u (.sbind d a b)
      (if portBarred s j.src u p then trapR cPERM dWORLD
      else if portBound s u p then .ok (writeG (past s u (.sbind d a b)) u d 1)
      else if portRuns s u p then .ok (writeG (addWork (fresh (past s u (.sbind d a b))).2 (.copy { j with id := s.nextId, st := .bound p })) u d 0)
      else .ok (writeG (addWork (jobStart (fresh (past s u (.sbind d a b))).2 j) (.copy { j with id := s.nextId, started := true, st := .running p })) u d 0)) := by
  change execSbind d a b s = _
  refine (onCtls_runs h).trans (congrArg (ctlOutcome s u _) ?_)
  rw [readG_past, readG_past, hp]
  exact (bind_of_ok hj).trans (if_neg (Nat.not_lt.mpr hle))

section Sbind

variable {p : Nat} (h : CtlRuns s u (.sbind d a b))
  (hj : copyBlock (past s u (.sbind d a b)) u (getCtl s u).pc (readG s u a) false = .ok j) (hp : readG s u b = p) (hle : p ≤ 3)
include h hj hp hle

/-- A port of the other world (R403). -/
theorem sbind_barred (hb : portBarred s j.src u p = true) :
    exec (.sbind d a b) s = .next (takeCtlTrap s u (getCtl s u).pc { cause := cPERM, detail := dWORLD }) := by
  rw [exec_sbind h hj hp hle, if_pos hb]
  rfl

/-- A port that holds a waiting job. -/
theorem sbind_held (hb : portBarred s j.src u p = false) (hw : portBound s u p = true) :
    ∃ t, exec (.sbind d a b) s = .next t ∧ OnlyCtl s t u ((behind s u (.sbind d a b)).setG d.toNat 1) := by
  rw [exec_sbind h hj hp hle, if_neg (Bool.eq_false_iff.mp hb), if_pos hw, writeG_past]
  exact ⟨_, rfl, onlyCtl_set ..⟩

/-- A port that runs another job: the job waits for it. -/
theorem sbind_waits (hb : portBarred s j.src u p = false) (hw : portBound s u p = false) (hr : portRuns s u p = true) :
    ∃ t, exec (.sbind d a b) s = .next t ∧ getCtl t u = (behind s u (.sbind d a b)).setG d.toNat 0 ∧
      t = { s with ctls := t.ctls, nextId := s.nextId + 1, work := s.work ++ [.copy { j with id := s.nextId, st := .bound p }] } := by
  rw [exec_sbind h hj hp hle, if_neg (Bool.eq_false_iff.mp hb), if_neg (Bool.eq_false_iff.mp hw), if_pos hr]
  refine ⟨_, rfl, getCtl_writeG d 0 ?_, ?_⟩
  · exact (getCtl_of_ctls (s := past s u (.sbind d a b)) rfl u).trans (getCtl_past_self ..)
  · rw [writeG_frame, enters_frame, past_frame]

/-- An idle port: the job runs at once. -/
theorem sbind_runs (hb : portBarred s j.src u p = false) (hw : portBound s u p = false) (hr : portRuns s u p = false) :
    ∃ t, exec (.sbind d a b) s = .next t ∧ t.work = s.work ++ [.copy { j with id := s.nextId, started := true, st := .running p }] ∧
      (getTag t j.src j.tag).count = (getTag s j.src j.tag).count + 1 := by
  obtain ⟨hsrc, -⟩ := copyBlock_job hj
  rw [exec_sbind h hj hp hle, if_neg (Bool.eq_false_iff.mp hb), if_neg (Bool.eq_false_iff.mp hw), if_neg (Bool.eq_false_iff.mp hr)]
  obtain ⟨hs, -, htag⟩ := jobStart_served (fresh (past s u (.sbind d a b))).2 j
  have hpast : getTag (fresh (past s u (.sbind d a b))).2 j.src j.tag = getTag s j.src j.tag := by
    rw [getTag_of (t := (fresh (past s u (.sbind d a b))).2) (s := past s u (.sbind d a b)) rfl rfl, hsrc, getTag_past]
    rfl
  have hstart := htag (.inl (by rw [hsrc]; rfl))
  rw [hpast] at hstart
  have hwork : (jobStart (fresh (past s u (.sbind d a b))).2 j).work = s.work := hs.work
  generalize jobStart (fresh (past s u (.sbind d a b))).2 j = y at hwork hstart
  refine ⟨_, rfl, congrArg (· ++ _) hwork, ?_⟩
  rw [(tagsStand_writeG ..).getTag, getTag_of (t := addWork y _) (s := y) rfl rfl, hstart]

end Sbind

/-! ### SCANCEL (R260) -/

theorem exec_scancel_ctl (h : CtlRuns s u (.scancel a)) : exec (.scancel a) s =
    .next (cancelJobs (past s u (.scancel a)) (ctlSrc (past s u (.scancel a)) u (getCtl s u).pc) (readG s u a)) := by
  change execScancel a s = _
  refine (runInstr_ctlRuns h).trans ?_
  rw [readG_past]
  rfl

/-- Settles O38: on a cell each command is an entry (`exec_copyCell_sends`, `exec_scancel_cell`); on a unit a copy enters (`exec_copyCtl_enters`), SBIND
goes by the state of its port, and SCANCEL cancels at once. -/
theorem copyCommands : Obligations.CopyCommands := by
  refine ⟨fun s c f d a b v hl => ⟨fun i x rs rd j hi h hs hd hb hv hj => ?_, fun h ha => exec_scancel_cell h ha hl⟩,
    fun s u d a b j => ⟨fun i x hi h hj hq => ?_, fun h hj hle => ⟨sbind_barred h hj rfl hle, sbind_held h hj rfl hle, sbind_waits h hj rfl hle,
      sbind_runs h hj rfl hle⟩, exec_scancel_ctl⟩⟩
  · obtain ⟨-, hx, hcount, hsstart, hdstart, htag⟩ := copyChecks_job hj
    obtain ⟨t, ht, hsends⟩ := exec_copyCell_sends hi h hl hs hd hb hv hj
    exact ⟨t, ht, hx, hcount, hsstart, hdstart, htag, hsends⟩
  · refine ⟨_, exec_copyCtl_enters hi h hj hq, rfl, (copyBlock_job hj).2, ?_⟩
    rw [enterJob_pc, getCtl_past_self]
    rcases hi with ⟨rfl, -⟩ | ⟨rfl, -⟩ <;> rfl

end Sys2Proof.Machine
end

section
/-! Copy jobs as they run (R255, R257 to R259, R403). -/

namespace Sys2Proof.Machine
open Sys2Proof.Claims

variable {s t : State} {k p : Nat} {j : CopyJob}

/-! ### COPY_JOB_START (R257, R259, R403) -/

/-- The job is counted on its tag where it was not before. -/
def jobBegun (s : State) (j : CopyJob) : State := if j.started then s else jobStart s j

theorem exec_copyJobStart (hw : WorkDue s .copyJobStart k (.copy j)) (hp : startPort s k = some p) :
    exec .copyJobStart s =
      if portBarred (jobBegun s j) j.src j.grove p then
        .next (jobTrap (jobSettle (dropWork (jobBegun s j) k) { j with started := true }) { cause := cPERM, detail := dWORLD } j.src (some j.tag))
      else .next (setWork (jobBegun s j) k (.copy { j with started := true, st := .running p })) := by
  change execCopyJobStart s = _
  have hport : ((turnArg s).bind fun k => (startPort s k).map fun p => (k, p)) = some (k, p) := by rw [turnArg_ev hw.1, Option.bind_some, hp]; rfl
  unfold execCopyJobStart
  rw [hport]
  dsimp only
  rw [show workAt s k = some (.copy j) from hw.2]
  rfl

theorem jobBegun_served (s : State) (j : CopyJob) : Served s (jobBegun s j) := by
  unfold jobBegun
  split
  · rfl
  · exact (jobStart_served s j).1

theorem portBarred_jobBegun (s : State) (j : CopyJob) (x : Src) (g p : Nat) : portBarred (jobBegun s j) x g p = portBarred s x g p := by
  unfold portBarred blockSecure
  rw [(jobBegun_served s j).blocks]

theorem copyJobStart_barred (hw : WorkDue s .copyJobStart k (.copy j)) (hp : startPort s k = some p) (hb : portBarred s j.src j.grove p = true) :
    exec .copyJobStart s =
      .next (jobTrap (jobSettle (dropWork (jobBegun s j) k) { j with started := true }) { cause := cPERM, detail := dWORLD } j.src (some j.tag)) := by
  rw [exec_copyJobStart hw hp, portBarred_jobBegun, if_pos hb]

theorem copyJobStart_runs (hx : hasTags s j.src) (hw : WorkDue s .copyJobStart k (.copy j)) (hp : startPort s k = some p)
    (hb : portBarred s j.src j.grove p = false) :
    ∃ t, exec .copyJobStart s = .next t ∧ t.work = s.work.set k (.copy { j with started := true, st := .running p }) ∧ t.cells = s.cells ∧
      (j.started = true → t = { s with work := t.work }) ∧
      (j.started = false → getTag t j.src j.tag = { count := (getTag s j.src j.tag).count + 1, issued := true } ∧ (j.bar = none → SameMem s t)) := by
  rw [exec_copyJobStart hw hp, portBarred_jobBegun, if_neg (Bool.eq_false_iff.mp hb)]
  have hs := jobBegun_served s j
  refine ⟨_, rfl, congrArg (fun w : List Work => w.set k _) hs.work, hs.cells, fun h => ?_, fun h => ?_⟩
  · rw [jobBegun, if_pos h]
    rfl
  · rw [jobBegun, if_neg (Bool.eq_false_iff.mp h)]
    refine ⟨(jobStart_served s j).2.2 hx, fun hbar => ?_⟩
    rw [jobStart, hbar]
    refine fun y => congrArg (fun m => tget 0 m y) ?_
    change (tagStart s j.src j.tag).mem = s.mem
    rw [tagStart, modTag_frame]

/-! ### Where a job finds the bits of its elements (R414) -/

/-- A job that looks for its bits changes the entries of its stream alone. -/
def Walked (s t : State) : Prop := t = { s with tlbs := t.tlbs }

theorem Walked.trans {u : State} (h1 : Walked s t) (h2 : Walked t u) : Walked s u := by
  unfold Walked at *
  rw [h2, h1]

theorem walked_map {x : Except Trap Nat} {q : Nat × State} (h : (x.map fun pa => (pa, t)) = .ok q) (hw : Walked s t) : Walked s q.2 := by
  cases x with
  | error e => cases h
  | ok pa =>
    cases h
    exact hw

theorem jobTranslate_walked {st : Stream} {src : Src} {a : Acs} {va n : Nat} {q : Nat × State} (h : jobTranslate s st src a va n = .ok q) :
    Walked s q.2 := by
  unfold jobTranslate at h
  have h := ok_of_check h
  split at h
  · exact walked_map h rfl
  · split at h
    · cases h
    · exact walked_map h rfl

theorem jobAt_walked {st : Option Stream} {src : Src} {a : Acs} {va n : Nat} {q : Nat × State} (h : jobAt s st src a va n = .ok q) : Walked s q.2 := by
  cases st with
  | some st => exact jobTranslate_walked h
  | none =>
    exact walked_map h rfl

theorem jobPages_walked {st : Option Stream} {src : Src} {a : Acs} {l : List (Nat × Nat × Nat)} {q : List (Nat × Nat × Nat × Nat) × State}
    (h : jobPages st src a s l = .ok q) : Walked s q.2 := by
  induction l generalizing s q with
  | nil =>
    cases h
    rfl
  | cons x l ih =>
    obtain ⟨r, hr, h⟩ := ok_of_bind h
    obtain ⟨v, hv, h⟩ := ok_of_bind h
    cases h
    exact (jobAt_walked hr).trans (ih (q := v) hv)

/-! ### COPY_ELEMENT (R255, R258) -/

theorem exec_copyElement (hw : WorkDue s .copyElement k (.copy j)) (hr : copyRuns s k = true) :
    exec .copyElement s = match copyOne s j (portSrc s j) with
      | .ok r => .next (setWork r.1 k (.copy r.2))
      | .error e => .next (jobTrap (jobSettle (dropWork s k) j) e j.src (some j.tag)) := by
  change execCopyElement s = _
  unfold execCopyElement
  rw [turnArg_ev hw.1, turnWork_due hw]
  refine if_neg ?_
  change ¬ (!copyRuns s k) = true
  rw [hr]
  decide

/-- A code that is copied as it is (R241, R255). -/
theorem copyValue_same (a b : Rec) (itag va v : Nat) (hb : b.nf0 = false) : copyValue a b false itag va v = (v, 0, {}) := by
  unfold copyValue
  rw [hb]
  cases numFmt b.fmt <;> rfl

theorem Walked.calm (h : Walked s t) (hc : Calm s) : Calm t := by
  rw [h]
  exact hc

theorem Walked.mem (h : Walked s t) : t.mem = s.mem := by rw [h]

/-- An element that lies in one page is read whole. -/
theorem jobRead_part {st : Option Stream} {src : Src} {r : Rec} {e b va pa m : Nat} (hc : Calm s) (he : r.elem e = .ok (.at_ b))
    (hq : jobParts s st src .read b r.bits = .ok ([(va, pa, m, 0)], t)) : jobRead s st src r e = .ok (some (readBits s pa m), t) := by
  have hw : Walked s t := jobPages_walked hq
  refine (except_bind_of_ok he).trans ((except_bind_of_ok hq).trans ?_)
  simp only [List.find?_cons, List.find?_nil, poisonedBits_calm (hw.calm hc), List.foldl_cons, List.foldl_nil, Nat.pow_zero, Nat.mul_one, Nat.zero_add,
    readBits_of_mem hw.mem]

/-- And written whole. -/
theorem jobWrite_part {st : Option Stream} {src : Src} {r : Rec} {e b va pa n : Nat} (v : Nat) (hc : Calm t) (he : r.elem e = .ok (.at_ b))
    (hq : jobParts s st src .copyDst b r.bits = .ok ([(va, pa, n, 0)], t)) :
    jobWrite s st src r e v = .ok ({ writeBits t pa n (v % 2 ^ n) with views := noteViews t [(pa, n, v % 2 ^ n)] src.engine }, none) := by
  refine (except_bind_of_ok he).trans ((except_bind_of_ok hq).trans ?_)
  simp only [List.map_cons, List.map_nil, writePieces_calm hc, if_true]
  rfl

/-- What one element of a copy between records of one format and without nf0 leaves. -/
theorem copyOne_part {x : Src} {e f va pa m vb pb n : Nat} {s₁ s₂ : State} (hc : Calm s)
    (ha : (recOf j.srec).elem (j.sstart + j.moved) = .ok (.at_ e))
    (hq : jobParts s j.stream x .read e (recOf j.srec).bits = .ok ([(va, pa, m, 0)], s₁)) (hb : (recOf j.drec).elem (j.dstart + j.moved) = .ok (.at_ f))
    (hr : jobParts s₁ j.stream x .copyDst f (recOf j.drec).bits = .ok ([(vb, pb, n, 0)], s₂)) (hx : j.xform = false)
    (hnf : (recOf j.drec).nf0 = false) :
    ∃ (u : State) (i : CopyJob), copyOne s j x = .ok (u, i) ∧ u = { s with mem := u.mem, views := u.views, tlbs := u.tlbs } ∧
      u.mem = (writeBits s₂ pb n (readBits s pa m % 2 ^ n)).mem ∧ i.moved = j.moved + 1 ∧ i.count = j.count ∧ i.st = j.st := by
  have hw : Walked s s₂ := (jobPages_walked hq).trans (jobPages_walked hr)
  have hwrite := jobWrite_part (readBits s pa m) (hw.calm hc) hb hr
  simp only [copyOne, jobRead_part hc ha hq, hx, copyValue_same _ _ _ _ _ hnf, Option.getD_some, hwrite, bind, Except.bind]
  refine ⟨_, _, rfl, ?_, rfl, rfl, rfl, rfl⟩
  rw [writeBits_frame, hw]

theorem copyElement_moves {e f va pa m vb pb n : Nat} {s₁ s₂ : State} (hc : Calm s) (hw : WorkDue s .copyElement k (.copy j))
    (hrun : copyRuns s k = true) (ha : (recOf j.srec).elem (j.sstart + j.moved) = .ok (.at_ e))
    (hq : jobParts s j.stream (portSrc s j) .read e (recOf j.srec).bits = .ok ([(va, pa, m, 0)], s₁))
    (hb : (recOf j.drec).elem (j.dstart + j.moved) = .ok (.at_ f))
    (hr : jobParts s₁ j.stream (portSrc s j) .copyDst f (recOf j.drec).bits = .ok ([(vb, pb, n, 0)], s₂)) (hx : j.xform = false)
    (hnf : (recOf j.drec).nf0 = false) :
    ∃ t i, exec .copyElement s = .next t ∧ t = { s with mem := t.mem, views := t.views, tlbs := t.tlbs, work := s.work.set k (.copy i) } ∧
      i.moved = j.moved + 1 ∧ i.count = j.count ∧ i.st = j.st ∧ readBits t pb n = readBits s pa m % 2 ^ n ∧
      ∀ y, ¬ (pb ≤ y ∧ y < pb + n) → bit (memByte t (y / 8)).toNat (y % 8) = bit (memByte s (y / 8)).toNat (y % 8) := by
  obtain ⟨u, i, hone, hu, hmem, hmoved, hcount, hst⟩ := copyOne_part hc ha hq hb hr hx hnf
  have hwalk : Walked s s₂ := (jobPages_walked hq).trans (jobPages_walked hr)
  rw [exec_copyElement hw hrun, hone]
  refine ⟨setWork u k (.copy i), i, rfl, ?_, hmoved, hcount, hst, ?_, fun y hy => ?_⟩
  · rw [hu]
    rfl
  · exact (readBits_of_mem (show (setWork u k (.copy i)).mem = _ from hmem) ..).trans ((readBits_writeBits ..).trans (Nat.mod_mod ..))
  · refine (memBit_of_mem (show (setWork u k (.copy i)).mem = _ from hmem) y).trans ?_
    rw [memBit_writeBits, if_neg hy]
    exact memBit_of_mem hwalk.mem y

/-- An element that its source record refuses stops the job. -/
theorem copyElement_refused {e : Trap} (hw : WorkDue s .copyElement k (.copy j)) (hrun : copyRuns s k = true)
    (ha : (recOf j.srec).elem (j.sstart + j.moved) = .error e) :
    exec .copyElement s = .next (jobTrap (jobSettle (dropWork s k) j) e j.src (some j.tag)) := by
  have hone : copyOne s j (portSrc s j) = .error e := by
    unfold copyOne jobRead
    dsimp only
    rw [ha]
    rfl
  rw [exec_copyElement hw hrun, hone]

theorem completes_copyElement (hw : WorkDue s .copyElement k (.copy j)) (hrun : copyRuns s k = true) : ∃ t, exec .copyElement s = .next t := by
  rw [exec_copyElement hw hrun]
  split <;> exact ⟨_, rfl⟩

/-! ### COPY_JOB_COMPLETE (R257, R258, R298) -/

theorem exec_copyJobComplete (hw : WorkDue s .copyJobComplete k (.copy j)) (he : copyEnds s k = true) :
    exec .copyJobComplete s = .next (copyComplete (copyLeave s k j) j) := by
  change execCopyJobComplete s = _
  unfold execCopyJobComplete
  rw [turnArg_ev hw.1, turnWork_due hw]
  refine if_neg ?_
  change ¬ (!copyEnds s k) = true
  rw [he]
  decide

/-- What a completed job reports to its frame, and to the handle of its destination (R241, R298). -/
def copyReported (s : State) (j : CopyJob) : State :=
  let u := if j.src.kind = 3 then s else modFrame s j.src.cfg j.src.frame fun f => f.report ⟨j.flags, j.nf, j.sat⟩
  if j.src.kind = 3 ∨ j.zeroed = 0 then u else countNonFinite u j.src (recOf j.drec).place j.zeroed

theorem tagsStand_countNonFinite (s : State) (x : Src) (place n : Nat) :
    (countNonFinite s x place n).work = s.work ∧ TagsStand s (countNonFinite s x place n) := by
  unfold countNonFinite
  split
  · unfold countHandle
    split
    · exact ⟨rfl, .refl s⟩
    · exact ⟨rfl, .of rfl rfl⟩
  · exact ⟨rfl, tagsStand_modFrame _ _ _ fun _ => rfl⟩

theorem tagsStand_copyReported (s : State) (j : CopyJob) : (copyReported s j).work = s.work ∧ TagsStand s (copyReported s j) := by
  have hframe : ∀ u, u = (if j.src.kind = 3 then s else modFrame s j.src.cfg j.src.frame fun f => f.report ⟨j.flags, j.nf, j.sat⟩) →
      u.work = s.work ∧ TagsStand s u := fun u hu => by
    rw [hu]
    split
    · exact ⟨rfl, .refl s⟩
    · exact ⟨rfl, tagsStand_modFrame _ _ _ fun _ => rfl⟩
  obtain ⟨hwork, hstand⟩ := hframe _ rfl
  unfold copyReported
  dsimp only
  split
  · exact ⟨hwork, hstand⟩
  · obtain ⟨hwork', hstand'⟩ := tagsStand_countNonFinite _ j.src (recOf j.drec).place j.zeroed
    exact ⟨hwork'.trans hwork, hstand.trans hstand'⟩

theorem jobTrap_work (s : State) (e : Trap) (x : Src) (k : Option Nat) : (jobTrap s e x k).work = s.work := (drained_jobTrap s e x k).served.work

/-- A job that ends is settled, and the work beside it is as it was. -/
theorem copyComplete_settles (hx : hasTags s j.src) : (copyComplete s j).work = s.work ∧
    (j.started = true → (getTag (copyComplete s j) j.src j.tag).count = (getTag s j.src j.tag).count - 1) := by
  by_cases hc : j.cancelled = true
  · have heq : copyComplete s j = jobSettle s j := if_pos hc
    obtain ⟨hs, ht⟩ := jobSettle_served s j
    rw [heq]
    exact ⟨hs.work, (ht hx).2⟩
  · obtain ⟨hwork, hstand⟩ := tagsStand_copyReported s j
    obtain ⟨hs, ht⟩ := jobSettle_served (copyReported s j) j
    have hcount := (ht (hstand.hasTags hx)).2
    rw [hstand.getTag] at hcount
    have heq : copyComplete s j = match j.drop with
      | some va => jobTrap (jobSettle (copyReported s j) j) { cause := cECCUNC, addr := va } j.src (some j.tag)
      | none => jobSettle (copyReported s j) j := if_neg hc
    rw [heq]
    split
    · rw [jobTrap_work, (tagsStand_jobTrap ..).getTag]
      exact ⟨hs.work.trans hwork, hcount⟩
    · exact ⟨hs.work.trans hwork, hcount⟩

/-! ### The completion token (R22, R257, R258, R260, R435) -/

theorem copyLeave_beside (s : State) (k : Nat) (j : CopyJob) : copyLeave s k j = { s with work := (copyLeave s k j).work } := by
  unfold copyLeave
  split
  · split <;> rfl
  · rfl

/-- A job that ends well sends its token behind what its route carries. -/
theorem copyLeave_sends {d : Nat} {y : Token} (ht : j.tok = some (d, y)) (hc : j.cancelled = false) (hd : j.drop = none)
    (hs : (getFrame s y.cfg y.frame).skipped = false) : (copyLeave s k j).work = s.work.eraseIdx k ++ [.token d y] := by
  unfold copyLeave
  rw [ht]
  dsimp only
  rw [hc, hd, hs]
  rfl

theorem copyLeave_silent (h : j.tok = none ∨ j.cancelled = true ∨ j.drop ≠ none) : (copyLeave s k j).work = s.work.eraseIdx k := by
  unfold copyLeave
  split
  case h_1 d y ht =>
    have hend : (j.cancelled || j.drop.isSome) = true := by
      rcases h with h | h | h
      · rw [h] at ht
        cases ht
      · rw [h]
        rfl
      · rw [Option.isSome_iff_ne_none.mpr h, Bool.or_true]
    rw [hend]
    rfl
  case h_2 => rfl

theorem copyJobComplete_leaves (hx : hasTags s j.src) (hw : WorkDue s .copyJobComplete k (.copy j)) (he : copyEnds s k = true) :
    ∃ t, exec .copyJobComplete s = .next t ∧ t.work = (copyLeave s k j).work ∧
      (j.started = true → (getTag t j.src j.tag).count = (getTag s j.src j.tag).count - 1) := by
  have hbeside := copyLeave_beside s k j
  have hx' : hasTags (copyLeave s k j) j.src := by
    rw [hbeside]
    exact hx
  have htag : getTag (copyLeave s k j) j.src j.tag = getTag s j.src j.tag := by
    rw [hbeside]
    rfl
  obtain ⟨hwork, hcount⟩ := copyComplete_settles hx'
  rw [htag] at hcount
  exact ⟨_, exec_copyJobComplete hw he, hwork, hcount⟩

/-- Settles O52: a start by its port (`copyJobStart_barred`, `copyJobStart_runs`), an element by its records (`copyElement_moves`,
`copyElement_refused`), an end by what it leaves (`copyJobComplete_leaves`) and the token that it sends or not. -/
theorem copyJobsRun : Obligations.CopyJobsRun := by
  intro s k j hx x a b
  refine ⟨fun p hw hp hb => copyJobStart_barred hw hp hb, fun p hw hp hb _ => copyJobStart_runs hx hw hp hb,
    fun hw hrun => ⟨completes_copyElement hw hrun, fun e f va pa m s₁ vb pb n s₂ ha hq hb hr hxf hnf hd hp =>
      copyElement_moves ⟨hp, hd⟩ hw hrun ha hq hb hr hxf hnf, fun e ha => copyElement_refused hw hrun ha⟩, fun hw he => ?_⟩
  obtain ⟨t, ht, hwork, hcount⟩ := copyJobComplete_leaves hx hw he
  exact ⟨t, ht, hcount, fun hc hd d y hy hs => hwork.trans (copyLeave_sends hy hc hd hs), fun h => hwork.trans (copyLeave_silent h)⟩

end Sys2Proof.Machine
end
